-- ==== Sys2Proof/Word.lean ====
section
/-! DEFINITION. The word types of the Sireel 840 and the sparse table every collection of the model is held in. -/

namespace Sys2Proof

/-- One byte of memory. -/
abbrev Byte := BitVec 8
/-- A 32-bit word of a record, a counter or an accumulator (R15, R304). -/
abbrev Word := BitVec 32
/-- A 64-bit register or doubleword (R297). -/
abbrev Dword := BitVec 64
/-- The 128 data bits of one beat (R21). -/
abbrev Data := BitVec 128
/-- The 32 side bits of one beat (R21). -/
abbrev Side := BitVec 32
/-- A g register number (R33). -/
abbrev Reg := BitVec 5

/-- A sparse table: (key, value) pairs, keys strictly rising. -/
abbrev Tab (α : Type) := List (Nat × α)

namespace Tab

/-- The value at a key, if the table lists it. -/
def find {α : Type} : Tab α → Nat → Option α
  | [], _ => none
  | (j, v) :: rest, k => if j = k then some v else find rest k

/-- The table with the value at a key replaced or added in its place. -/
def put {α : Type} : Tab α → Nat → α → Tab α
  | [], k, v => [(k, v)]
  | (j, w) :: rest, k, v =>
    if k < j then (k, v) :: (j, w) :: rest
    else if k = j then (k, v) :: rest
    else (j, w) :: put rest k v

/-- The table without a key. -/
def del {α : Type} : Tab α → Nat → Tab α
  | [], _ => []
  | (j, w) :: rest, k => if j = k then rest else (j, w) :: del rest k

/-- The canonical form: keys strictly rising. -/
abbrev Sorted {α : Type} (t : Tab α) : Prop := List.Pairwise (fun a b => a.1 < b.1) t

/-- The keys of a table, rising. -/
def keys {α : Type} (t : Tab α) : List Nat := t.map Prod.fst

/-- The values of a table in key order. -/
def vals {α : Type} (t : Tab α) : List α := t.map Prod.snd

end Tab

/-- The first key from a start value on that a table does not list. -/
def firstFree {α : Type} (t : Tab α) (start fuel : Nat) : Nat :=
  match fuel with
  | 0 => start
  | n + 1 => if (t.find start).isSome then firstFree t (start + 1) n else start

end Sys2Proof
end

