-- ==== Sys2Proof/Config.lean ====
section
/-! DEFINITION. What the implementation fixes and the values the manual leaves open: opaque constants, of which nothing can be proved. -/

namespace Sys2Proof.Config

/-- A choice the 840 may make either way (R167, R188): the n-th free bit. (DESIGN CHOICE: log entry 5) -/
opaque freeBit : Nat → Bool
/-- A number the manual leaves to the 840: the n-th free number (R164). (DESIGN CHOICE: log entry 5) -/
opaque freeNat : Nat → Nat
/-- TJMAX of DEVSTAT, the hottest junction at the n-th reading (R435). (DESIGN CHOICE: log entry 5) -/
opaque junction : Nat → BitVec 8
/-- The fused default core-voltage step (R435). (DESIGN CHOICE: log entry 6) -/
opaque defaultVstep : BitVec 4
/-- The fused minimum core-voltage step (R433). (DESIGN CHOICE: log entry 6) -/
opaque minVstep : BitVec 4
/-- The security version of a firmware image (R389, R435). (DESIGN CHOICE: log entry 6) -/
opaque firmwareVersion : List Byte → BitVec 16
/-- The fused minimum of the security version (R389). (DESIGN CHOICE: log entry 6) -/
opaque minFirmware : BitVec 16
/-- Whether the signature of a firmware image, by its bytes, verifies under the fused key (R389). (DESIGN CHOICE: log entry 6) -/
opaque signatureVerifies : List Byte → Bool
/-- The 64-byte digest of the running firmware body (R390). (DESIGN CHOICE: log entry 6) -/
opaque firmwareDigest : List Byte → List Byte
/-- The module's 16-byte serial number (R390, R413). (DESIGN CHOICE: log entry 6) -/
opaque serial : List Byte
/-- The module's 1,952-byte identity public key (R390). (DESIGN CHOICE: log entry 6) -/
opaque identityKey : List Byte
/-- The 3,309-byte signature over the report's first 2,088 bytes (R390). (DESIGN CHOICE: log entry 6) -/
opaque signature : List Byte → List Byte
/-- The bytes of a reply from the far memory of a queue pair: n-th read, remote address, length (R411).
(DESIGN CHOICE: log entry 5) -/
opaque remoteBytes : Nat → Nat → Nat → List Byte
/-- The band of 125 W of the module's power at the n-th reading (R413). (DESIGN CHOICE: log entry 5) -/
opaque powerBand : Nat → Nat

/-- Whether a tile lies in the partition of a job on another module: job, module, tile and c-cycle (R250).
(DESIGN CHOICE: log entry 92) -/
opaque remoteTile : Nat → Nat → Nat → Nat → Bool
/-- The entries of a domain's version pool on another module: job, domain and module (R252, R256).
(DESIGN CHOICE: log entry 93) -/
opaque remotePool : Nat → Nat → Nat → Nat
/-- BEST3's choice among its three candidates where err has no value, from the words of the block and the parameters of the rounding
(R62, R138). (DESIGN CHOICE: log entry 36) -/
opaque bestOpen : List (BitVec 32) → List Nat → Nat
/-- The place on its die where the mesh reaches a UALink port (R354). (DESIGN CHOICE: log entry 97) -/
opaque portTile : Nat → Nat
/-- Where a work-list's first entry lies in its areas (R344). (DESIGN CHOICE: log entry 49) -/
opaque ringStart : Nat
/-- The firmware image the module is shipped with (R437). (DESIGN CHOICE: log entry 6) -/
opaque shippedImage : List Byte
/-- Whether one more memory key has room when the given number are held (R388). (DESIGN CHOICE: log entry 6) -/
opaque keyRoom : Nat → Bool
/-- Whether one more queue pair has room when the given number are held (R388). (DESIGN CHOICE: log entry 6) -/
opaque pairRoom : Nat → Bool

end Sys2Proof.Config
end

