-- ==== Sys2Proof/Machine/Num.lean ====
section
/-! DEFINITION. Number formats, exact values, rounding, stochastic draws and the special functions (R62–R86). Real values are exact rationals; a value that is no rational is held as a rational strictly between the same two neighbours of every rounding boundary. -/

namespace Sys2Proof.Machine

/-- The rounding modes (R73), in the order of their codes. -/
inductive Rm where
  | rne | rtz | rup | rdn | sr
deriving DecidableEq, Repr

/-- The code of a mode (R73). -/
def Rm.code : Rm → Nat
  | .rne => 0 | .rtz => 1 | .rup => 2 | .rdn => 3 | .sr => 4

/-- The mode an RM field names; codes 5–15 are reserved. -/
def Rm.ofCode : Nat → Option Rm
  | 0 => some .rne | 1 => some .rtz | 2 => some .rup | 3 => some .rdn | 4 => some .sr | _ => none

/-- The element formats of a channel binding (R69), in the order of their FMT codes. -/
inductive Fmt where
  | fp32 | bf16 | fp16 | e4m3 | e5m2 | e3m2 | e2m3 | e2m1 | int4 | int8 | uint8 | int16 | int32
deriving DecidableEq, Repr

/-- The format an FMT code names; codes 13–15 are reserved (R69). -/
def Fmt.ofCode : Nat → Option Fmt
  | 0 => some .fp32 | 1 => some .bf16 | 2 => some .fp16 | 3 => some .e4m3 | 4 => some .e5m2
  | 5 => some .e3m2 | 6 => some .e2m3 | 7 => some .e2m1 | 8 => some .int4 | 9 => some .int8
  | 10 => some .uint8 | 11 => some .int16 | 12 => some .int32 | _ => none

/-- Width in bits of one element as it stands in a beat; FP6 is held in 8-bit containers (R67, R69). -/
def Fmt.width : Fmt → Nat
  | .fp32 | .int32 => 32
  | .bf16 | .fp16 | .int16 => 16
  | .e4m3 | .e5m2 | .e3m2 | .e2m3 | .int8 | .uint8 => 8
  | .e2m1 | .int4 => 4

/-- Elements per beat (R69). -/
def Fmt.perBeat (f : Fmt) : Nat := 128 / f.width

/-- Bytes of memory per beat: 12 for the FP6 formats, else 16 (R69). -/
def Fmt.beatBytes : Fmt → Nat
  | .e3m2 | .e2m3 => 12
  | _ => 16

/-- Whether the format is one of R66's integers. -/
def Fmt.isInt : Fmt → Bool
  | .int4 | .int8 | .uint8 | .int16 | .int32 => true
  | _ => false

/-- The format in which an FP6 element stands in its 8-bit container (R67). -/
def Fmt.container : Fmt → Fmt
  | .e3m2 => .e5m2
  | .e2m3 => .e4m3
  | f => f

/-- The shape of a floating-point format (R65). -/
structure Flt where
  /-- exponent bits -/
  ebits : Nat
  /-- mantissa bits -/
  mbits : Nat
  /-- exponent bias -/
  bias : Nat
  /-- magnitude code of the largest finite value -/
  maxCode : Nat
  /-- whether the all-ones exponent with zero mantissa is an infinity -/
  hasInf : Bool
  /-- whether codes above maxCode (and above infinity) are NaN -/
  hasNan : Bool
  /-- magnitude code of the canonical NaN (R63); 0 where the format has none -/
  nan : Nat
deriving DecidableEq, Repr

/-- The layouts of R65. The integer formats are given fp32's, which no rule reads. -/
def Fmt.flt : Fmt → Flt
  | .bf16 => ⟨8, 7, 127, 0x7F7F, true, true, 0x7FC0⟩
  | .fp16 => ⟨5, 10, 15, 0x7BFF, true, true, 0x7E00⟩
  | .e4m3 => ⟨4, 3, 7, 0x7E, false, true, 0x7F⟩
  | .e5m2 => ⟨5, 2, 15, 0x7B, true, true, 0x7F⟩
  | .e3m2 => ⟨3, 2, 3, 0x1F, false, false, 0⟩
  | .e2m3 => ⟨2, 3, 1, 0x1F, false, false, 0⟩
  | .e2m1 => ⟨2, 1, 1, 0x7, false, false, 0⟩
  | _ => ⟨8, 23, 127, 0x7F7FFFFF, true, true, 0x7FC00000⟩

/-- A decoded value: a finite number with its sign (zero has one), an infinity, or NaN. -/
inductive Fv where
  | fin (neg : Bool) (mag : Rat)
  | inf (neg : Bool)
  | nan
deriving DecidableEq, Repr

/-- 2 to an integer power, exactly. -/
def pow2 (k : Int) : Rat := if 0 ≤ k then ((2 ^ k.toNat : Nat) : Rat) else mkRat 1 (2 ^ (-k).toNat)

/-- The greatest k with 2^k at most a positive x. -/
def floorLog2 (x : Rat) : Int :=
  let k : Int := (Nat.log2 x.num.natAbs : Int) - (Nat.log2 x.den : Int)
  if pow2 k ≤ x then k else k - 1

/-- The signed value of a finite number. -/
def Fv.rat : Fv → Rat
  | .fin true m => -m
  | .fin false m => m
  | _ => 0

/-- A rational as a finite value; zero takes the sign given. -/
def Fv.ofRat (x : Rat) (zneg : Bool) : Fv :=
  if x = 0 then .fin zneg 0 else if x < 0 then .fin true (-x) else .fin false x

/-- The value of a floating-point code (R65). -/
def Flt.decode (f : Flt) (bits : Nat) : Fv :=
  let neg := (bits >>> (f.ebits + f.mbits)) % 2 == 1
  let mag := bits % 2 ^ (f.ebits + f.mbits)
  if mag ≤ f.maxCode then
    let e := mag >>> f.mbits
    let m := mag % 2 ^ f.mbits
    if e = 0 then .fin neg ((m : Rat) * pow2 (1 - (f.bias : Int) - f.mbits))
    else .fin neg (((2 ^ f.mbits + m : Nat) : Rat) * pow2 ((e : Int) - f.bias - f.mbits))
  else if f.hasInf && mag == f.maxCode + 1 then .inf neg
  else .nan

/-- A two's complement reading of the low w bits. -/
def sintOf (w bits : Nat) : Int := (BitVec.ofNat w bits).toInt

/-- The value of an element of a beat in its (container) format (R65, R66, R72). -/
def Fmt.decode (f : Fmt) (bits : Nat) : Fv :=
  if f.isInt then
    let v : Int := if f = .uint8 then (bits % 256 : Nat) else sintOf f.width bits
    Fv.ofRat (v : Rat) false
  else f.container.flt.decode bits

/-- Whether rounding in a mode moves a magnitude away from zero: n is the integer part in units of the last place and r
the rest, 0 ≤ r < 1 (R73). -/
def roundsUp (rm : Rm) (neg : Bool) (n : Nat) (r : Rat) (u : Word) : Bool :=
  if r = 0 then false
  else match rm with
    | .rne => decide (r > 1 / 2) || (decide (r = 1 / 2) && n % 2 == 1)
    | .rtz => false
    | .rup => !neg
    | .rdn => neg
    | .sr =>
      if neg then !decide ((u.toNat : Int) < ((1 - r) * 4294967296).floor)
      else decide ((u.toNat : Int) < (r * 4294967296).floor)

/-- The magnitude code of a positive x rounded with an exponent range unbounded above (R73). -/
def Flt.roundCode (f : Flt) (rm : Rm) (neg : Bool) (x : Rat) (u : Word) : Nat :=
  let emin : Int := 1 - (f.bias : Int)
  let e := max (floorLog2 x) emin
  let q := x / pow2 (e - f.mbits)
  let n := q.floor.toNat
  let up := roundsUp rm neg n (q - n) u
  (e + f.bias - 1).toNat * 2 ^ f.mbits + n + up.toNat

/-- A code with its sign bit set. -/
def Flt.sign (f : Flt) (neg : Bool) (mag : Nat) : Nat := if neg then mag + 2 ^ (f.ebits + f.mbits) else mag

/-- Whether the format is one of fp32, bf16 and fp16, whose overflow is IEEE 754's (R74). -/
def Flt.ieee (f : Flt) : Bool := decide (8 ≤ f.ebits + f.mbits) && f.hasInf

/-- A value rounded or converted to a format: its code and whether it is flagged (R73, R74). -/
def Flt.encode (f : Flt) (rm : Rm) (v : Fv) (u : Word) : Nat × Bool :=
  match v with
  | .nan => if f.hasNan then (f.nan, false) else (0, true)
  | .inf neg => if f.hasInf then (f.sign neg (f.maxCode + 1), false) else (f.sign neg f.maxCode, true)
  | .fin neg m =>
    if m = 0 then (f.sign neg 0, false)
    else
      let c := f.roundCode rm neg m u
      if c ≤ f.maxCode then (f.sign neg c, false)
      else if f.ieee then
        let toInf := match rm with
          | .rne | .sr => true
          | .rtz => false
          | .rup => !neg
          | .rdn => neg
        (f.sign neg (if toInf then f.maxCode + 1 else f.maxCode), false)
      else (f.sign neg f.maxCode, true)

/-- A value rounded to fp32 (R6 rnd(x, fp32)). -/
def toF32 (rm : Rm) (v : Fv) (u : Word) : Word := BitVec.ofNat 32 (Fmt.fp32.flt.encode rm v u).1

/-- The value of an fp32 word. -/
def ofF32 (w : Word) : Fv := Fmt.fp32.flt.decode w.toNat

/-- The integer a rational rounds to in a mode (R75). -/
def roundInt (rm : Rm) (x : Rat) (u : Word) : Int :=
  let neg := decide (x < 0)
  let m := if neg then -x else x
  let n := m.floor.toNat
  let k : Int := n + (roundsUp rm neg n (m - n) u).toNat
  if neg then -k else k

/-- Least and greatest value of an integer type (R66). -/
def Fmt.intRange : Fmt → Int × Int
  | .int4 => (-8, 7)
  | .int8 => (-128, 127)
  | .uint8 => (0, 255)
  | .int16 => (-32768, 32767)
  | _ => (-2147483648, 2147483647)

/-- x clamped to a range, and whether it was clamped (R6 sat). -/
def clamp (x lo hi : Int) : Int × Bool := if x < lo then (lo, true) else if hi < x then (hi, true) else (x, false)

/-- A floating-point value converted to an integer type: the value and the flag (R75). -/
def toIntType (f : Fmt) (rm : Rm) (v : Fv) (u : Word) : Int × Bool :=
  match v with
  | .nan => (0, true)
  | .inf neg => (if neg then f.intRange.1 else f.intRange.2, true)
  | .fin neg m => clamp (roundInt rm (if neg then -m else m) u) f.intRange.1 f.intRange.2

/-! ### Exact arithmetic on values, with IEEE 754's special cases (R73, R82) -/

/-- The exact sum; an exact zero is +0, or −0 under RDN, and two zeros of one sign keep it (R73). -/
def Fv.add (rm : Rm) : Fv → Fv → Fv
  | .nan, _ => .nan
  | _, .nan => .nan
  | .inf a, .inf b => if a = b then .inf a else .nan
  | .inf a, .fin _ _ => .inf a
  | .fin _ _, .inf b => .inf b
  | .fin a x, .fin b y =>
    if x = 0 ∧ y = 0 ∧ a = b then .fin a 0
    else Fv.ofRat ((if a then -x else x) + (if b then -y else y)) (rm == .rdn)

/-- The value with its sign inverted. -/
def Fv.neg : Fv → Fv
  | .nan => .nan
  | .inf a => .inf !a
  | .fin a x => .fin (!a) x

/-- The value with its sign cleared. -/
def Fv.abs : Fv → Fv
  | .nan => .nan
  | .inf _ => .inf false
  | .fin _ x => .fin false x

/-- The exact product; a zero takes the exclusive OR of the signs (R73). -/
def Fv.mul : Fv → Fv → Fv
  | .nan, _ => .nan
  | _, .nan => .nan
  | .inf a, .inf b => .inf (a != b)
  | .inf a, .fin b y => if y = 0 then .nan else .inf (a != b)
  | .fin a x, .inf b => if x = 0 then .nan else .inf (a != b)
  | .fin a x, .fin b y => .fin (a != b) (x * y)

/-- The exact quotient with IEEE 754's special values (R288). -/
def Fv.div : Fv → Fv → Fv
  | .nan, _ => .nan
  | _, .nan => .nan
  | .inf _, .inf _ => .nan
  | .inf a, .fin b _ => .inf (a != b)
  | .fin a _, .inf b => .fin (a != b) 0
  | .fin a x, .fin b y =>
    if y = 0 then (if x = 0 then .nan else .inf (a != b)) else .fin (a != b) (x / y)

/-- Whether a is less than b; −0 counts as less than +0 only when zeros are told apart. -/
def Fv.lt (zeros : Bool) : Fv → Fv → Bool
  | .nan, _ => false
  | _, .nan => false
  | .inf a, .inf b => a && !b
  | .inf a, .fin _ _ => a
  | .fin _ _, .inf b => !b
  | .fin a x, .fin b y =>
    if x = 0 ∧ y = 0 then zeros && a && !b
    else decide ((if a then -x else x) < (if b then -y else y))

/-- FADD in a mode with a draw (R128). -/
def fadd (rm : Rm) (u : Word) (a b : Word) : Word := toF32 rm ((ofF32 a).add rm (ofF32 b)) u
/-- FMUL. -/
def fmul (rm : Rm) (u : Word) (a b : Word) : Word := toF32 rm ((ofF32 a).mul (ofF32 b)) u
/-- FSUB. -/
def fsub (rm : Rm) (u : Word) (a b : Word) : Word := toF32 rm ((ofF32 a).add rm (ofF32 b).neg) u
/-- FFMA: one rounding. -/
def ffma (rm : Rm) (u : Word) (a b c : Word) : Word := toF32 rm (((ofF32 a).mul (ofF32 b)).add rm (ofF32 c)) u
/-- Correctly rounded division (R288). -/
def fdiv (a b : Word) : Word := toF32 .rne ((ofF32 a).div (ofF32 b)) 0
/-- FMIN: canonical NaN if either operand is NaN; −0 is less than +0 (R128). -/
def fmin (a b : Word) : Word :=
  if ofF32 a = .nan ∨ ofF32 b = .nan then 0x7FC00000
  else if (ofF32 b).lt true (ofF32 a) then b else a
/-- FMAX. -/
def fmax (a b : Word) : Word :=
  if ofF32 a = .nan ∨ ofF32 b = .nan then 0x7FC00000
  else if (ofF32 a).lt true (ofF32 b) then b else a
/-- FABS; a NaN gives the canonical NaN. -/
def fabs (a : Word) : Word := toF32 .rne (ofF32 a).abs 0
/-- FNEG. -/
def fneg (a : Word) : Word := toF32 .rne (ofF32 a).neg 0

/-! ### Special functions (R83, R84) -/

/-- The integer square root of n, by deciding bits k−1 … 0 above acc. -/
def isqrtBits (n : Nat) : Nat → Nat → Nat
  | 0, acc => acc
  | k + 1, acc => isqrtBits n k (if (acc + 2 ^ k) ^ 2 ≤ n then acc + 2 ^ k else acc)

/-- The square root of a positive rational, exact or strictly between the same rounding boundaries. -/
def sqrtRat (x : Rat) : Rat :=
  let k := floorLog2 x / 2
  let m := x / pow2 (2 * k)
  let n := (m * pow2 160).floor.toNat
  let s := isqrtBits n 82 0
  let r := (s : Rat) * pow2 (-80)
  (if r * r = m then r else r + pow2 (-81)) * pow2 k

/-- Fractional bits of the series below. -/
def fixBits : Nat := 256

/-- Σ z^(2i+1)/(2i+1) over the next k terms, in units of 2^-fixBits: the area tangent of z. -/
def atanhSum (zsq : Nat) : Nat → Nat → Nat → Nat → Nat
  | 0, _, _, acc => acc
  | k + 1, i, t, acc => atanhSum zsq k (i + 1) (t * zsq / 2 ^ fixBits) (acc + t / (2 * i + 1))

/-- The natural logarithm of m, 1 ≤ m < 2, in units of 2^-fixBits. -/
def lnFix (m : Rat) : Nat :=
  let z := ((m - 1) / (m + 1) * pow2 fixBits).floor.toNat
  2 * atanhSum (z * z / 2 ^ fixBits) 100 0 z 0

/-- ln 2 in units of 2^-fixBits, as twice the area tangent of 1/3. -/
def ln2Fix : Nat :=
  let z := 2 ^ fixBits / 3
  2 * atanhSum (z * z / 2 ^ fixBits) 100 0 z 0

/-- Σ t^i/i! over the next k terms, in units of 2^-fixBits. -/
def expSum (t : Nat) : Nat → Nat → Nat → Nat → Nat
  | 0, _, _, acc => acc
  | k + 1, i, term, acc => expSum t k (i + 1) (term * t / 2 ^ fixBits / (i + 1)) (acc + term)

/-- A fixed-point number cut to 232 fractional bits with the next bit set: it lies strictly between the same rounding
boundaries of binary32 as the number it stands for. -/
def stick (n : Nat) : Rat := ((n / 2 ^ 24 : Nat) : Rat) * pow2 (-232) + pow2 (-233)

/-- 2^x for a rational that is no integer. -/
def exp2Rat (x : Rat) : Rat :=
  if x > 200 then pow2 200
  else if x < -200 then pow2 (-200)
  else
    let k := x.floor
    let f := ((x - k) * pow2 fixBits).floor.toNat
    stick (expSum (f * ln2Fix / 2 ^ fixBits) 90 0 (2 ^ fixBits) 0) * pow2 k

/-- log2 of a positive rational that is no power of two. -/
def log2Rat (x : Rat) : Rat :=
  let k := floorLog2 x
  let r := lnFix (x / pow2 k) * 2 ^ fixBits / ln2Fix
  stick r + k

/-- FRCP (R83, R84). -/
def frcp (rm : Rm) (a : Word) : Word := toF32 rm ((Fv.fin false 1).div (ofF32 a)) 0

/-- FRSQ. -/
def frsq (rm : Rm) (a : Word) : Word :=
  match ofF32 a with
  | .nan => 0x7FC00000
  | .inf neg => if neg then 0x7FC00000 else 0
  | .fin neg m =>
    if m = 0 then toF32 rm (.inf neg) 0
    else if neg then 0x7FC00000 else toF32 rm (.fin false (sqrtRat (1 / m))) 0

/-- FSQRT. -/
def fsqrt (rm : Rm) (a : Word) : Word :=
  match ofF32 a with
  | .nan => 0x7FC00000
  | .inf neg => if neg then 0x7FC00000 else a
  | .fin neg m =>
    if m = 0 then a
    else if neg then 0x7FC00000 else toF32 rm (.fin false (sqrtRat m)) 0

/-- FEXP2. An integer operand gives its exact power. -/
def fexp2 (rm : Rm) (a : Word) : Word :=
  match ofF32 a with
  | .nan => 0x7FC00000
  | .inf neg => if neg then 0 else a
  | .fin neg m =>
    let x := if neg then -m else m
    let y := if x.den = 1 ∧ -200 ≤ x ∧ x ≤ 200 then pow2 x.num else exp2Rat x
    toF32 rm (.fin false y) 0

/-- FLOG2. A power of two gives its exact exponent; x = 1 gives +0. -/
def flog2 (rm : Rm) (a : Word) : Word :=
  match ofF32 a with
  | .nan => 0x7FC00000
  | .inf neg => if neg then 0x7FC00000 else a
  | .fin neg m =>
    if m = 0 then 0xFF800000
    else if neg then 0x7FC00000
    else
      let k := floorLog2 m
      toF32 rm (Fv.ofRat (if m = pow2 k then k else log2Rat m) false) 0

/-! ### Stochastic rounding (R76) -/

/-- draw(key, idx, site). -/
def draw (key idx : Dword) (site : Word) : Word :=
  let z := key ^^^ (idx * 0x9E3779B97F4A7C15#64) ^^^ (site.zeroExtend 64 * 0xD6E8FEB86659FD93#64)
  let z := (z ^^^ (z >>> 30)) * 0xBF58476D1CE4E5B9#64
  let z := (z ^^^ (z >>> 27)) * 0x94D049BB133111EB#64
  let z := z ^^^ (z >>> 31)
  (z >>> 32).setWidth 32

/-! ### Block scales (R68) -/

/-- The value of a scale byte: kind SE8 (false) or SQ8 (true); none is NaN. -/
def scaleVal (sq8 : Bool) (b : Byte) : Option Rat :=
  if sq8 then
    if b.toNat ≤ 0x7E then some (Fmt.e4m3.flt.decode b.toNat).rat else none
  else if b = 0xFF then none else some (pow2 ((b.toNat : Int) - 127))

/-- An element's value times its block's scale (R68): a NaN scale gives NaN, and an infinity times a zero scale is NaN. -/
def Fv.scaled (v : Fv) (sc : Option Rat) : Fv :=
  match sc with
  | none => .nan
  | some s => v.mul (.fin false s)

/-- An FP6 code widened to its container's code of the same value (R67). -/
def widenFp6 (f : Fmt) (code : Nat) : Nat := (f.container.flt.encode .rne (f.flt.decode code) 0).1

/-- A container's code narrowed to the 6-bit code of the same value (R67, R135). -/
def narrowFp6 (f : Fmt) (code : Nat) : Nat := (f.flt.encode .rne (f.container.flt.decode code) 0).1

end Sys2Proof.Machine
end

