-- ==== Sys2Proof/Syntax.lean ====
section
/-! DEFINITION. The steps of the machine as terms: every row of the operation table is one constructor of Instr. Control words carry their common fields (Hdr) and the operands of their entry; events carry the names of the parts they act on; host commands carry the command of R387. -/

namespace Sys2Proof

/-- The fields every control word has (R28): the WAIT byte, the SIGNAL byte, N and PRED. -/
structure Hdr where
  /-- [63:62] of the word: the mode of the WAIT byte (R8). -/
  waitMode : BitVec 2
  /-- [61:56]: the counter waited for. -/
  waitK : BitVec 6
  /-- [55:54]: the mode of the SIGNAL byte (R8). -/
  sigMode : BitVec 2
  /-- [53:48]: the counter signalled. -/
  sigK : BitVec 6
  /-- [47]: negate the predicate. -/
  neg : Bool
  /-- [46:44]: the predicate index. -/
  pred : BitVec 3
deriving DecidableEq, Repr

/-- The header with no wait, no signal and predicate p0. -/
def Hdr.plain : Hdr := ⟨0, 0, 0, 0, false, 0⟩

/-- The operands every stream word shares (R37): slot, shape, base and view. -/
structure StOps where
  /-- stream slot s0–s15 -/
  slot : BitVec 4
  /-- shape register h0–h15 -/
  shape : BitVec 4
  /-- g register holding the address form -/
  base : Reg
  /-- view register v0–v7 -/
  view : BitVec 3
deriving DecidableEq, Repr

/-- A host command as it stands in the command window, less its OP (R387). -/
structure Cmd where
  /-- dword 0 [63:32] -/
  tag : BitVec 32
  /-- dword 0 [31:16], reserved -/
  rsvd : BitVec 16
  /-- dword 0 [15:8] -/
  job : BitVec 8
  /-- dwords 1–7 -/
  d1 : Dword
  d2 : Dword
  d3 : Dword
  d4 : Dword
  d5 : Dword
  d6 : Dword
  d7 : Dword
deriving DecidableEq, Repr

/-- What one member of a dispatch group sends in the exchange of R283. -/
structure ExchangeMsg where
  /-- the job of the sending engine, its module, and which configuration of the job it is, counted at the engine that receives it (R278) -/
  job : Nat
  src : Nat
  config : Nat
  /-- the sending member -/
  member : Nat
  /-- the dispatch number of the member (R278) -/
  number : Nat
  /-- 0 plain, 1 REUSE, 2 REUSE.GATE -/
  form : Nat
  /-- E, K, R, POLICY, SPILLROWS and the CRC of the placement table, in this order -/
  values : List Nat
  /-- the counts L[member][0..E−1]; empty under REUSE -/
  counts : List Nat
  /-- the member's rows: expert, position and the bytes of the row -/
  rows : List (Nat × Nat × List Byte)
  /-- whether the dispatch has failed at the member (R295) -/
  failed : Bool
  /-- whether it failed before the member placed a row -/
  early : Bool
  /-- the rows of others the member has written: expert and position (R287) -/
  written : List (Nat × Nat)
deriving DecidableEq, Repr

/-- A release that arrives (R236): the RSIG of a frieze of this module; or one of a station of another module, with the writes it releases,
each a GLOBAL address and its bytes in the order they take effect, and then the increment of an RSIG with its signal address and amount, or
the update of a RATOM with its address form, OP, size and operands. -/
inductive Release where
  | own (fz : Nat)
  | signal (writes : List (Nat × List Byte)) (target : Dword) (amount : Word)
  | update (writes : List (Nat × List Byte)) (form : Dword) (op : Nat) (wide : Bool) (val cmp : Dword)
deriving DecidableEq, Repr

/-- Why a dispatch fails (R295). -/
inductive DispatchFailure where
  /-- a link is lost after the link-level retry is exhausted -/
  | linkLost
  /-- a member does not join, or does not complete, within WAIT_LIMIT -/
  | timeout
deriving DecidableEq, Repr

/-- Where a detected error struck (R405). -/
inductive ErrorSite where
  /-- registers or queues of a tile, whose values carry no poison -/
  | tile (t : Nat)
  /-- lane l of the n-th token of a link buffer of a tile, by its key -/
  | link (t key n l : Nat)
  /-- lane l of the n-th table vector waiting in an operator of a tile, by its key -/
  | table (t key n l : Nat)
  /-- a value an operator holds, by the operator's key: lane l of the i-th vector of a DELAY or of the bank i of a STEER, lane l gathered by a
  MERGEORD, carry word l of a scan, entry l of a table -/
  | opState (t key i l : Nat)
  /-- the operand latch of a cell, of the B side or of the A side -/
  | latch (t lane col : Nat) (b : Bool)
  /-- the value a cell has captured for emission, and the n-th control beat waiting there -/
  | capture (t lane col : Nat)
  | ctlBeat (t lane col n : Nat)
  /-- the beat at a place of an in-port or an out-port of a tile, and an accumulator of one of its cells -/
  | inBeat (t port k : Nat)
  | outBeat (t port k : Nat)
  | acc (t lane col a : Nat)
  /-- a 128-byte line of a tile scratchpad -/
  | localLine (t line : Nat)
  /-- a 128-byte line of a shared-scratchpad bank -/
  | sharedLine (bank line : Nat)
  /-- a 128-byte line of HBM, by physical address div 128 -/
  | hbmLine (line : Nat)
  /-- a link of the message or stream plane between two die rows (16·die + row) -/
  | planeLink (rowA rowB : Nat)
  /-- a UALink port's lane -/
  | ualink (port lane : Nat)
  /-- the configuration network, while the named frieze is saved or restored -/
  | configNet (fz : Nat)
  /-- a PCIe lane -/
  | pcie (lane : Nat)
  /-- an Ethernet lane -/
  | ethernet (lane : Nat)
deriving DecidableEq, Repr

/-- Every row of the operation table. -/
inductive Instr where
  -- group 0x0: system and trap
  | nop (h : Hdr)
  | trap (h : Hdr) (code : BitVec 20)
  | resume (h : Hdr) (a : Reg)
  | csrr (h : Hdr) (g : Reg) (csr : BitVec 12)
  | csrw (h : Hdr) (g : Reg) (csr : BitVec 12)
  | csrx (h : Hdr) (g : Reg) (csr : BitVec 12)
  | codeinv (h : Hdr) (a b : Reg)
  | yield (h : Hdr)
  | brk (h : Hdr) (code : BitVec 20)
  | freeze (h : Hdr) (a : Reg)
  | thaw (h : Hdr) (a : Reg)
  | launch (h : Hdr) (a b : Reg)
  -- group 0x1: integer, register to register
  | add (h : Hdr) (d a b : Reg)
  | sub (h : Hdr) (d a b : Reg)
  | mul (h : Hdr) (d a b : Reg)
  | mulh (h : Hdr) (d a b : Reg) (u : Bool)
  | and (h : Hdr) (d a b : Reg)
  | or (h : Hdr) (d a b : Reg)
  | xor (h : Hdr) (d a b : Reg)
  | shl (h : Hdr) (d a b : Reg)
  | shr (h : Hdr) (d a b : Reg)
  | sar (h : Hdr) (d a b : Reg)
  | min (h : Hdr) (d a b : Reg) (u : Bool)
  | max (h : Hdr) (d a b : Reg) (u : Bool)
  | clz (h : Hdr) (d a : Reg)
  | popc (h : Hdr) (d a : Reg)
  | sel (h : Hdr) (d a b c : Reg)
  | cmp (h : Hdr) (d a b : Reg) (cond : BitVec 4)
  -- group 0x2: integer, register and immediate
  | addi (h : Hdr) (d a : Reg) (imm : BitVec 26)
  | subi (h : Hdr) (d a : Reg) (imm : BitVec 26)
  | muli (h : Hdr) (d a : Reg) (imm : BitVec 26)
  | andi (h : Hdr) (d a : Reg) (imm : BitVec 26)
  | ori (h : Hdr) (d a : Reg) (imm : BitVec 26)
  | xori (h : Hdr) (d a : Reg) (imm : BitVec 26)
  | shli (h : Hdr) (d a : Reg) (n : BitVec 6)
  | shri (h : Hdr) (d a : Reg) (n : BitVec 6)
  | sari (h : Hdr) (d a : Reg) (n : BitVec 6)
  | mini (h : Hdr) (d a : Reg) (imm : BitVec 26)
  | maxi (h : Hdr) (d a : Reg) (imm : BitVec 26)
  | cmpi (h : Hdr) (d a : Reg) (cond : BitVec 4) (imm : BitVec 22)
  | movhi (h : Hdr) (d a : Reg) (imm : BitVec 26)
  -- group 0x3: control
  | br (h : Hdr) (c : BitVec 5) (kind : BitVec 3) (off : BitVec 28)
  | brany (h : Hdr) (p : BitVec 3) (off : BitVec 28)
  | brall (h : Hdr) (p : BitVec 3) (off : BitVec 28)
  | loop (h : Hdr) (c : Reg) (off : BitVec 28)
  | call (h : Hdr) (c : Reg) (off : BitVec 28)
  | ret (h : Hdr) (c : Reg)
  | pset (h : Hdr) (d : BitVec 3) (a b : BitVec 5) (cond : BitVec 4)
  | trig (h : Hdr)
  | exit (h : Hdr)
  | waite (h : Hdr) (g : Reg) (sub : Bool) (k : BitVec 6)
  | sige (h : Hdr) (g : Reg) (set : Bool) (k : BitVec 6)
  -- group 0x4: scalar accesses, shapes, views, ports
  | lds (h : Hdr) (d a : Reg) (imm : BitVec 26)
  | sts (h : Hdr) (d a : Reg) (imm : BitVec 26)
  | ldq (h : Hdr) (d a : Reg) (imm : BitVec 26)
  | stq (h : Hdr) (d a : Reg) (imm : BitVec 26)
  | ldg (h : Hdr) (d a : Reg) (imm : BitVec 26)
  | stg (h : Hdr) (d a : Reg) (imm : BitVec 26)
  | atomg (h : Hdr) (d a b c : Reg) (op : BitVec 4) (size : Bool)
  | shape (h : Hdr) (x : BitVec 4) (a b c d : Reg)
  | viewld (h : Hdr) (x : BitVec 3) (a b : Reg)
  | viewldGet (h : Hdr) (x : BitVec 3) (a b : Reg)
  | portrd (h : Hdr) (d a : Reg) (o : BitVec 5)
  | portwr (h : Hdr) (d a : Reg) (i : BitVec 5)
  | portspc (h : Hdr) (d a : Reg) (port : BitVec 6)
  -- group 0x5: affine streams
  | srd (h : Hdr) (s : StOps) (i : BitVec 5) (eos bnd : Bool) (sidew : BitVec 2)
  | swr (h : Hdr) (s : StOps) (o : BitVec 5) (endeos bnd : Bool) (sidew : BitVec 2) (p6 : Bool)
  | scp (h : Hdr) (s : StOps) (dst : Reg)
  | sfill (h : Hdr) (s : StOps) (fill : Reg)
  | swin (h : Hdr) (s : StOps) (i : BitVec 5) (sidew : BitVec 2)
  | smc (h : Hdr) (s : StOps) (i : BitVec 5) (root : BitVec 4) (eos bnd : Bool) (sidew : BitVec 2)
  -- group 0x6: indirect streams
  | sgath (h : Hdr) (s : StOps) (i idx : BitVec 5) (eos bnd : Bool) (sidew : BitVec 2) (i64 : Bool)
  | sscat (h : Hdr) (s : StOps) (o idx : BitVec 5) (endeos bnd : Bool) (sidew : BitVec 2) (p6 i64 : Bool)
  | sscata (h : Hdr) (s : StOps) (o idx : BitVec 5) (op : BitVec 3) (endeos bnd i64 : Bool)
  -- group 0x7: recurrence and port configuration
  | srec (h : Hdr) (slot shape : BitVec 4) (i o : BitVec 5) (eos : Bool)
  | sportcfg (h : Hdr) (port : BitVec 6) (t : BitVec 5) (k : BitVec 6)
  | sportcfgOff (h : Hdr) (port : BitVec 6)
  -- group 0x8: ordering
  | sbar (h : Hdr) (mask : BitVec 16)
  | fence (h : Hdr) (pred succ : BitVec 7) (scope : BitVec 3)
  | swaits (h : Hdr) (mask : BitVec 16)
  | sabort (h : Hdr) (g : Reg) (slot : BitVec 4)
  -- group 0xC, remote atomics and signals
  | ratom (h : Hdr) (a b c d : Reg) (op : BitVec 4) (size acq : Bool) (rel : BitVec 7)
  | rsig (h : Hdr) (a b : Reg) (rel : BitVec 7)
  /-- of a frieze here, by its station and slot; else by the source's module and its job -/
  | remoteReleaseArrival (r : Release) (a b : Nat)
  -- group 0x9: array control
  | maqld (h : Hdr) (m : BitVec 2) (a b : Reg)
  | maqldComplete (tile ctx : Nat)
  | maqgo (h : Hdr) (m : BitVec 2)
  | maqdrn (h : Hdr) (m : BitVec 2)
  | accsave (h : Hdr) (k : BitVec 2) (a : Reg) (first last : BitVec 4)
  | accload (h : Hdr) (k : BitVec 2) (a : Reg) (first last : BitVec 4)
  | chbind (h : Hdr) (x : BitVec 5) (a : Reg) (n : BitVec 5)
  | srseed (h : Hdr) (m : BitVec 2) (a : Reg)
  -- group 0xA: versioned memory
  | snap (h : Hdr) (v : BitVec 3) (a : Reg)
  | unsnap (h : Hdr) (v : BitVec 3)
  | txbegin (h : Hdr) (v : BitVec 3) (a : Reg)
  | txbeginAge (h : Hdr) (v : BitVec 3) (a : Reg)
  | txclaim (h : Hdr) (v : BitVec 3) (a : Reg) (shape : BitVec 4)
  | txcommit (h : Hdr) (v : BitVec 3) (a : Reg)
  | txabort (h : Hdr) (v : BitVec 3)
  | txstat (h : Hdr) (v : BitVec 3) (a : Reg)
  | commitRequest (job dom txid : Nat)
  | publish (job dom txid ctrl : Nat)
  | commitComplete (job dom txid : Nat)
  | voidCommit (job dom txid : Nat)
  | lwmBroadcast (job dom : Nat)
  | poolWaitExpiry (job dom ctrl : Nat)
  -- group 0xB: expert routing
  | ercfg (h : Hdr) (a : Reg)
  | ercfgOff (h : Hdr)
  | erdisp (h : Hdr) (a b c : Reg)
  | erdispReuse (h : Hdr) (a b c : Reg) (gate : Bool)
  | dispatchExchange (die : Nat) (msg : ExchangeMsg)
  | dispatchFail (die : Nat) (why : DispatchFailure)
  | ercomb (h : Hdr) (a b c d : Reg) (renorm nogate : Bool)
  | erstat (h : Hdr) (a : Reg)
  | erdrops (h : Hdr) (d : Reg)
  | engineResponse (req : Nat)
  -- group 0xC: fabric
  | route (h : Hdr) (a : Reg) (o : BitVec 5) (b : Reg) (mc : Bool)
  | unroute (h : Hdr) (o : BitVec 5)
  | owncfg (h : Hdr) (a b c : Reg)
  | mcjoin (h : Hdr) (a : Reg) (i : BitVec 5) (b : Reg)
  | mcjoinLeave (h : Hdr) (a : Reg) (i : BitVec 5) (b : Reg)
  | routeBeat (tile o : Nat)
  | routeRebindTimeout (fz : Nat)
  -- group 0xD: work-lists
  | wlnew (h : Hdr) (a b : Reg)
  | wlpush (h : Hdr) (a b : Reg)
  | wlpop (h : Hdr) (i : BitVec 5) (a : Reg) (n : BitVec 6)
  | wlins (h : Hdr) (a b : Reg)
  | wlcnt (h : Hdr) (a b : Reg)
  | wlfree (h : Hdr) (a : Reg)
  | worklistHomeServe (req : Nat)
  -- group 0xE: monitoring
  | smpcfg (h : Hdr) (a b : Reg)
  | smpon (h : Hdr)
  | smpoff (h : Hdr)
  | cntrd (h : Hdr) (d a : Reg) (num : BitVec 12) (clr : Bool)
  | mark (h : Hdr) (m : BitVec 2) (g : Reg)
  | sampleInstant
  -- the control core's own steps
  | decodeWord (fz : Nat)
  | codeFetch (fz : Nat)
  | issueSelect (tile : Nat)
  | voteResult (fz : Nat)
  | waitTimeout (fz st : Nat)
  | holdTimeout (fz st slot : Nat)
  | streamElementPerformed (fz st slot : Nat)
  | faultDelivery (fz st : Nat)
  | atomicApply (fz st slot : Nat)
  | retry (node src : Nat)
  | forwardingSlotFree (node : Nat)
  -- the array's own steps
  | inportBeatArrival (tile port : Nat)
  | operatorFire (tile col slot : Nat)
  | outportWordFire (tile o : Nat)
  | alignmentMarkerTaken (tile col slot : Nat)
  | systolicDescriptorHandshake (tile col : Nat)
  | controlBeatCheck (tile col : Nat)
  | systolicStep (tile lane col : Nat)
  | accop (tile lane col : Nat)
  | emit (tile col : Nat)
  | regionMarkerTaken (tile col : Nat)
  -- kernels, scheduling and recovery
  | trigger (fz : Nat)
  | recordCheck (queue : Nat)
  | recordStart (queue : Nat)
  | placeFrieze (fz : Nat)
  | preempt (fz : Nat)
  | kernelEnd (kernel : Nat)
  | trapTaken (fz : Nat)
  | handlerEnd (fz : Nat)
  -- the host
  | hostAppend (queue : Nat) (record : List Dword)
  | apertureRead (off len : Nat)
  | apertureWrite (off : Nat) (data : List Byte)
  | jobCreate (c : Cmd)
  | jobKill (c : Cmd)
  | setPartition (c : Cmd)
  | setShared (c : Cmd)
  | setJobreg (c : Cmd)
  | invalidate (c : Cmd)
  | queueSet (c : Cmd)
  | queueReset (c : Cmd)
  | domainSet (c : Cmd)
  | mqSet (c : Cmd)
  | freezeCmd (c : Cmd)
  | thawCmd (c : Cmd)
  | aperture (c : Cmd)
  | scrub (c : Cmd)
  | torusSet (c : Cmd)
  | linkTrain (c : Cmd)
  | ethKey (c : Cmd)
  | ethQp (c : Cmd)
  | attest (c : Cmd)
  | ctxPool (c : Cmd)
  | cast (c : Cmd)
  | restore (c : Cmd)
  | castEnd (cause : BitVec 8)
  | lifetime (c : Cmd)
  | power (c : Cmd)
  | fwLoad (c : Cmd)
  | thermalEmergencyClamp
  | clampRelease
  | moduleReset
  | bringUp
  | portLost (port : Nat)
  | lastingError (site : ErrorSite)
  | rdmaWriteWithImmediate (qp key va : Nat) (data : List Byte) (imm : BitVec 32)
  | ethernetPacketDrop (port : Nat)
  | transientError (site : ErrorSite)
  | lifetimeRecordHourlyWrite
  | launchRingTimeout (req : Nat)
  | powerLoss
  | rdmaWrite (qp key va : Nat) (data : List Byte)
  | rdmaRead (qp key va len : Nat)
  | reservedOpCommand (op : BitVec 8) (c : Cmd)
deriving DecidableEq, Repr

end Sys2Proof
end

