-- ==== Sys2Proof/Machine/State.lean ====
section
/-! DEFINITION. The state of one module as plain data: every register, memory, queue, port, context, record and table the manual names, and the state after reset. -/

namespace Sys2Proof.Machine

/-- Why the machine stops. -/
inductive Fault where
  /-- raised by a control word executed in a state that names no station to issue it on; safe: step never does so -/
  | noStation
deriving DecidableEq, Repr

/-- Why an instruction has no meaning here. -/
inductive Refusal where
  /-- raised by an arm of exec whose instruction is not modelled; safe: the machine stops -/
  | notModelled (mnemonic : String)
deriving DecidableEq, Repr

/-! ### Memory -/

/-- Bytes by address, in the canonical form (addresses rising, no zero listed), and the poisoned 128-byte lines (R406). -/
structure Memory where
  cells : List Host.Cell
  bad : List Nat
deriving DecidableEq, Repr

/-- Memory with nothing listed: every byte reads zero. (DESIGN CHOICE: log entry 1) -/
def Memory.empty : Memory := ⟨[], []⟩

/-! ### Beats, records and ports -/

/-- What the bits of a record say (R113). -/
inductive Form where
  | w32f | w32i
  | packed (f : Fmt)
  | loose (f : Fmt)
  | p6 (f : Fmt)
deriving DecidableEq, Repr

/-- The scaled attribute (R113): the scale kind and, for a per-port scale, its byte. -/
structure Scl where
  sq8 : Bool
  port : Option Byte
deriving DecidableEq, Repr

/-- A record with its attributes (R15, R113). -/
structure Rec where
  data : Data
  side : Side
  chan : BitVec 5
  poison : Bool
  /-- the SR beat index (R77) -/
  idx : Dword
  form : Form
  scaled : Option Scl
  sparse : Bool
  epos : Nat
deriving DecidableEq, Repr

/-- A beat standing in a port: KIND and the record with the binding it entered under (R21, R71). -/
structure Beat where
  kind : BitVec 2
  r : Rec
  /-- DATA as it entered, before any widening: what a control beat is read from (R149) -/
  bits : Data
deriving DecidableEq, Repr

/-- A beat on its way to an in-port, before it takes a channel, a binding and a beat index. -/
structure RawBeat where
  kind : BitVec 2
  data : Data
  side : Side
  poison : Bool
deriving DecidableEq, Repr

/-- A token of the array (R90, R99): a vector or an alignment marker. -/
inductive Tok where
  | vec (lanes : List (Option Rec)) (eos : Bool)
  | sweep (target : Nat)
  | drain
  | mark (tag : Word)
deriving DecidableEq, Repr

/-- A channel binding (R69). -/
structure Binding where
  pscale : Byte
  sparse : Bool
  smode : Nat
  fmt : Fmt
deriving DecidableEq, Repr

/-- The binding's reset value (R69). -/
def Binding.reset : Binding := ⟨0x7F, false, 0, .fp32⟩

/-- An in-port: FIFO, entries promised to outstanding requests, beats on their way, binding, SR element counter. -/
structure InPort where
  fifo : List Beat
  /-- entries promised to beats of routes and of WLPOPs -/
  promised : Nat
  /-- entries promised to requests that read streams and SMCs have sent, by access number (R185) -/
  sent : Tab Nat
  /-- markers injected while no entry was free; they take the next entries (R165) -/
  waiting : List RawBeat
  flight : List RawBeat
  binding : Binding
  srCount : Dword
  /-- entries at the head that stand there until the last of several readers has consumed them (R93) -/
  lent : Nat
deriving DecidableEq, Repr

/-- A port configuration of SPORTCFG (R225). -/
structure PortCfg where
  fz : Nat
  level : Nat
  k : Nat
deriving DecidableEq, Repr

/-! ### Maquettes and the array -/

/-- A selector (R51). -/
inductive Sel where
  | inport (i : Nat)
  | out0 (col slot : Nat)
  | out1 (col slot : Nat)
  | none
deriving DecidableEq, Repr

/-- A stage or out-port word, decoded (R50, R52). -/
structure StageOp where
  op : Nat
  sel : List Sel
  d : List Nat
  rm : Rm
  p : Nat
  /-- layout K: MODE and VALUE -/
  mode : Nat
  value : Nat
deriving DecidableEq, Repr

/-- A systolic word, decoded (R52). -/
structure SysWord where
  mmanm : Bool
  a : Nat
  b : Nat
  c : Nat
  out : Nat
  int32 : Bool
  rm : Rm
deriving DecidableEq, Repr

/-- A region descriptor (R49). -/
structure Region where
  first : Nat
  last : Nat
  systolic : Bool
  east : Nat
  south : Nat
deriving DecidableEq, Repr

/-- A maquette that passed MAQLD's checks. Stages are keyed by 4·column + slot, out-port words by port, systolic words
by region. -/
structure Maq where
  regions : List Region
  stages : Tab StageOp
  outs : Tab StageOp
  sys : Tab SysWord
deriving DecidableEq, Repr

/-- A signal to add when something completes: frieze, station, mode (01 or 10) and counter. -/
structure Sig where
  fz : Nat
  st : Nat
  mode : BitVec 2
  k : BitVec 6
deriving DecidableEq, Repr

/-- The state of a maquette context (R101). -/
inductive CtxState where
  | empty | loading | loaded | active
deriving DecidableEq, Repr

/-- A MAQLD in progress (R164): address form, words available, its signal, and its access number and predecessors. -/
structure Load where
  form : Dword
  avail : Dword
  fz : Nat
  st : Nat
  sigMode : BitVec 2
  sigK : BitVec 6
  uid : Nat
  waits : List Nat
  /-- the context was LOADED before -/
  was : Bool
deriving DecidableEq, Repr

/-- A maquette context m0–m3 (R101). -/
structure MaqCtx where
  state : CtxState
  owner : Option Nat
  maq : Maq
  /-- the SR key of its regions (R76) -/
  key : Dword
  /-- the load in progress -/
  load : Option Load
  goSigs : List Sig
  /-- columns, and out-ports from 32 on, that have not switched to it since its MAQGO -/
  await : List Nat
  /-- DRAINs under way: the out-ports each has still to leave by, and its signal -/
  drains : List (List Nat × Option Sig)
deriving DecidableEq, Repr

/-- The empty context. -/
def MaqCtx.reset : MaqCtx := ⟨.empty, none, ⟨[], [], [], []⟩, 0, none, [], [], []⟩

/-- State an operator holds beyond its links (R120–R144). -/
inductive OpState where
  | steer (p0 p1 : List Rec)
  | merge (turn first0 first1 : Bool)
  /-- records read of the head vectors, and the lanes of the head entry gathered so far -/
  | mergeOrd (pos0 pos1 : Nat) (got : List (Option Rec))
  | delay (fifo : List Tok)
  | recirc (loop : Bool)
  | scan (carry : List (Option (Word × Bool)))
  | bins (vals : List (Word × Bool × Bool)) (touched : Bool)
  | count (n : Nat) (fired : Bool)
deriving DecidableEq, Repr

/-- An entry of a decision queue (R121). -/
structure DqEntry where
  valid : List Bool
  decision : List Bool
  eos : Bool
deriving DecidableEq, Repr

/-- A column of the array. -/
structure Col where
  /-- the context it is active under -/
  active : Option Nat
  /-- slots parked on a SWEEP (R103) -/
  parked : List Nat
  /-- the target of the SWEEP being taken -/
  target : Option Nat
  /-- markers injected for a column whose operators have no forward input (R99) -/
  injected : List Tok
  /-- the column status word (R116) -/
  status : BitVec 16
  /-- the region was stopped by a fault (R100) -/
  stopped : Bool
deriving DecidableEq, Repr

/-- The reset column. -/
def Col.reset : Col := ⟨none, [], none, [], 0, false⟩

/-- What passes a cell of a systolic region: operand words and control beats waiting, the operation in progress. -/
structure Cell where
  a : List Rec
  b : List Rec
  ctl : List Beat
  /-- steps done of the operation at the head of ctl -/
  done : Nat
  /-- the value captured for emission (R156), with the control beat that captured it -/
  cap : Option (Word × Bool × Beat)
deriving DecidableEq, Repr

/-- The cell with nothing in it. -/
def Cell.empty : Cell := ⟨[], [], [], 0, none⟩

/-- Run state of a systolic region that has switched in on one tile, by its first column. -/
structure SysRun where
  /-- matching descriptors received from the west and from the north: the rectangle identity they carry, as this tile's places east
  and south of the north-west tile (R108, R439) -/
  west : Option (Nat × Nat)
  north : Option (Nat × Nat)
  /-- every tile of the rectangle has switched and every handshake has passed (R108) -/
  ready : Bool
  /-- the tile's place in its rectangle since then (R76) -/
  site : Option (Nat × Nat)
  /-- A words lane 0 has still to take for the operations whose control beats have entered -/
  need : Nat
  /-- markers the west and the north neighbour have taken and forwarded here (R159) -/
  westMarks : List Tok
  northMarks : List Tok
  /-- the next beat of the capture being written -/
  emitPos : Nat
  /-- the ACCSAVEs and ACCLOADs that wait at the next operation boundary, by request; no operation begins while one of them is
  outstanding (R168) -/
  held : List Nat
deriving DecidableEq, Repr

/-- The state of a region that has just switched in. -/
def SysRun.reset : SysRun := ⟨none, none, false, none, 0, [], [], 0, []⟩

/-- One tile (R11, R25). -/
structure Tile where
  mem : Memory
  /-- e32–e63 -/
  e : Vector Word 32
  inp : Vector InPort 32
  outp : Vector (List Beat) 32
  /-- port configurations, in-ports then out-ports -/
  cfg : Tab PortCfg
  ctxs : Vector MaqCtx 4
  cols : Vector Col 16
  /-- the context each out-port word is active under -/
  outAct : Tab Nat
  /-- link buffers, by consumer: 2048·context + 16·column + 4·slot + input, out-port words at 2048·context + 1024 + port -/
  links : Tab (List Tok)
  /-- table vectors waiting in a BINACC or CNTACC, by 4·column + slot, each with its output number (R142) -/
  pend : Tab (List (Nat × Tok))
  ops : Tab OpState
  /-- decision queues, by 64·context + 4·first column of the region + queue -/
  dqs : Tab (List DqEntry)
  /-- accumulators and poison flags, by 64·lane + 4·column + accumulator; absent is +0 and clear -/
  acc : Tab (Word × Bool)
  cells : Tab Cell
  sys : Tab SysRun
  /-- the context slot that issued last on this head tile (R302) -/
  pointer : Nat
  /-- the multicast group each in-port has joined: group and the frieze that joined (R360) -/
  member : Tab (Nat × Nat)
  /-- the job whose data the tile holds -/
  job : Option Nat
deriving DecidableEq, Repr

/-- The in-port after reset. -/
def InPort.reset : InPort := ⟨[], 0, [], [], [], Binding.reset, 0, 0⟩

/-- The tile after module reset or a hand-over (R369). (DESIGN CHOICE: log entry 2) -/
def Tile.reset : Tile :=
  { mem := Memory.empty, e := Vector.replicate 32 0, inp := Vector.replicate 32 InPort.reset,
    outp := Vector.replicate 32 [], cfg := [], ctxs := Vector.replicate 4 MaqCtx.reset,
    cols := Vector.replicate 16 Col.reset, outAct := [], links := [], pend := [], ops := [], dqs := [],
    acc := [], cells := [], sys := [], pointer := 3, member := [], job := none }

/-! ### Stations and friezes -/

/-- A shape or bounds register: four doublewords (R175, R178). -/
abbrev Shape := Vector Dword 4

/-- A view register (R209). -/
structure View where
  datum : BitVec 48
  txn : Bool
  live : Bool
  latest : Bool
  txid : BitVec 24
deriving DecidableEq, Repr

/-- The zero view. -/
def View.zero : View := ⟨0, false, false, false, 0⟩
/-- The view of v0 at a plain launch (R209). -/
def View.launch : View := ⟨0, false, false, true, 0⟩

/-- What a slot holds. -/
inductive SKind where
  | rd | wr | cp | fill | win | mc | gath | scat | scata | recur
  | ldg | stg | atomg | ratom | rsig
deriving DecidableEq, Repr

/-- The state of a slot (R173). -/
inductive SlotState where
  | idle
  | running
  | faulted (cause : BitVec 8)
deriving DecidableEq, Repr

/-- A stream slot with its copies and its progress (R172, R193). -/
structure Slot where
  state : SlotState
  kind : SKind
  /-- the access number of its instruction on the station -/
  uid : Nat
  inport : Nat
  outport : Nat
  idxport : Nat
  shape : Shape
  bounds : Option Shape
  /-- the destination shape of SCP -/
  shape2 : Shape
  base : Dword
  /-- the destination base of SCP, or the side base under SIDEW -/
  base2 : Dword
  view : View
  /-- the view register it was copied from -/
  viewNo : BitVec 3
  /-- EOS or ENDEOS -/
  eos : Bool
  sideBytes : Nat
  /-- bytes of a beat (R180) -/
  q : Nat
  i64 : Bool
  /-- atomic operation, operand size, operand and compare value; the fill pattern of SFILL -/
  op : Nat
  wide : Bool
  val : Dword
  cmp : Dword
  /-- the g register a load or atomic writes -/
  dst : Reg
  /-- the root of an SMC and whether this station is it -/
  root : Nat
  /-- the element to perform next, and the number of elements once an end is known -/
  next : Nat
  stopAt : Option Nat
  /-- the beats delivered or taken -/
  beats : Nat
  /-- bytes of the out-port's head beat already taken -/
  taken : Nat
  /-- the sector of the last performed element and whether its run is open -/
  sector : Option Nat
  /-- the position of the first index of the head index beat -/
  idxBase : Nat
  /-- elements read ahead of their turn: their bytes and their poison (R177, R228) -/
  early : Tab (List Byte × Bool)
  /-- it has looked at indices of the head beat of its index port, which is then its own (R188) -/
  claims : Bool
  /-- bytes SCP has overwritten, with their values before (R188) -/
  snap : Tab Byte
  sigMode : BitVec 2
  sigK : BitVec 6
  /-- access numbers whose completion it waits for (R235, R236) -/
  waits : List Nat
  /-- those of them an SBAR or FENCE holds it for, and the c-cycle from which that hold counts (R235) -/
  barred : List Nat
  acq : Bool
  hold : Nat
  /-- the RATOM update was applied (R397) -/
  applied : Bool
  /-- address form of the faulting element -/
  faultAt : Dword
  /-- the order in which faults were found -/
  faultNo : Nat
  /-- 1 while the slot is frozen by FREEZE (R378) -/
  frozen : Bool
  /-- SABORTs that wait for the completion of an access that is never cut short: destination and signal (R247) -/
  aborts : List (Reg × BitVec 2 × BitVec 6)
deriving DecidableEq, Repr

/-- The idle slot. -/
def Slot.idle : Slot :=
  { state := .idle, kind := .rd, uid := 0, inport := 0, outport := 0, idxport := 0, shape := Vector.replicate 4 0,
    bounds := none, shape2 := Vector.replicate 4 0, base := 0, base2 := 0, view := View.zero, viewNo := 0, eos := false, sideBytes := 0,
    q := 16, i64 := false, op := 0, wide := false, val := 0, cmp := 0, dst := 0, root := 0, next := 0, stopAt := none,
    beats := 0, taken := 0, sector := none, idxBase := 0, early := [],
    claims := false, snap := [], sigMode := 0, sigK := 0, waits := [], barred := [], acq := false, hold := 0, applied := false, faultAt := 0,
    faultNo := 0, frozen := false, aborts := [] }

/-- A hold of SBAR, FENCE or RATOM.ACQ (R244, R245, R249): the accesses waited for, the classes held, whether only the
instructions SBAR names are held, whether it is a RATOM's, and FENCE's completion signal. -/
structure Hold where
  preds : List Nat
  succ : BitVec 7
  sbar : Bool
  acq : Bool
  sig : Option Sig
deriving DecidableEq, Repr

/-- A scalar access held by a FENCE: it is performed when its hold ends (R245). (DESIGN CHOICE: log entry 79) -/
structure PendScalar where
  uid : Nat
  store : Bool
  quad : Bool
  dst : Reg
  form : Dword
  addr : Nat
  vals : List Dword
  waits : List Nat
  sigMode : BitVec 2
  sigK : BitVec 6
deriving DecidableEq, Repr

/-- A fault found after issue, waiting for the station's next boundary (R196). -/
structure PendFault where
  /-- the slot it was found in -/
  slot : Option Nat
  cause : BitVec 8
  no : Nat
  d0 : Dword
  d1 : Dword
  d2 : Dword
deriving DecidableEq, Repr

/-- One station of a frieze (R24, R297). -/
structure Station where
  g : Vector Dword 32
  p : Vector Bool 8
  e : Vector Word 32
  quant : Vector Word 64
  shapes : Vector Shape 16
  views : Vector View 8
  slots : Vector Slot 16
  srSeed : Dword
  nextIndex : BitVec 52
  trapCause : BitVec 8
  /-- lane number of the next word it issues -/
  pos : Nat
  /-- c-cycles in which the words of its queue entered it (R301) -/
  entered : List Nat
  issued : Dword
  held : Dword
  notsel : Dword
  /-- the hold count of R305 -/
  hold : Nat
  markTag : Word
  holds : List Hold
  pend : List PendScalar
  /-- it has issued TRIG with a true predicate; the accesses its trigger covers -/
  trig : Option (List Nat)
  /-- it has issued EXIT, and the completion signal of the EXIT -/
  exiting : Bool
  exitSig : Option Sig
  /-- it issues no further word of a stop in progress (R394) -/
  stopped : Bool
  faults : List PendFault
  /-- when a stream of it last completed: the c-cycle, the slot, and the element it ended before (R251) -/
  ended : Option (Nat × Nat × Nat)
deriving DecidableEq, Repr

/-- The station as the scheduler loads it (R24). -/
def Station.launch (entry : BitVec 52) (v0 : View) : Station :=
  { g := Vector.replicate 32 0, p := Vector.replicate 8 false, e := Vector.replicate 32 0,
    quant := Vector.replicate 64 1, shapes := Vector.replicate 16 (Vector.replicate 4 0),
    views := (Vector.replicate 8 View.zero).set 0 v0, slots := Vector.replicate 16 Slot.idle,
    srSeed := 0, nextIndex := entry, trapCause := 0, pos := 0, entered := [], issued := 0, held := 0, notsel := 0,
    hold := 0, markTag := 0, holds := [], pend := [], trig := none, exiting := false, exitSig := none,
    stopped := false, faults := [], ended := none }

/-- A word of the lane (R298): the word, its instruction index, what the head decided, and the vote contributions. -/
structure LaneWord where
  word : Dword
  index : BitVec 52
  /-- the head's predicate, for the words decided at the head -/
  headTrue : Bool
deriving DecidableEq, Repr

/-- An undecided vote (R313): the lane number, BRALL, the target, and the contributions so far. -/
structure Vote where
  lane : Nat
  all : Bool
  target : BitVec 52
  votes : List Bool
deriving DecidableEq, Repr

/-- A register result of a word decided at the head or of an engine: which g and v register gets what. -/
structure Result where
  g : Option (Reg × Dword)
  v : Option (BitVec 3 × View)
deriving DecidableEq, Repr

/-- A word decided at the head whose result every station receives at its own issue (R270, R277). -/
structure HeadReq where
  lane : Nat
  /-- the registers it will write -/
  dstG : Option Reg
  dstV : Option (BitVec 3)
  /-- the result, once the request has completed -/
  res : Option Result
  /-- the result came while the frieze was not resident: it is applied at the resume (R292) -/
  late : Bool
  sigMode : BitVec 2
  sigK : BitVec 6
  /-- the accesses of class EN it stands for on each station -/
  uid : Nat
  /-- the tiles on which stations issued the word, where their frieze has moved since (R292) -/
  tiles : Tab Nat
deriving DecidableEq, Repr

/-- Why a frieze's head has stopped (R302). -/
inductive Stop where
  | no
  | trap
  | preempt
  | freeze
  | yield
  | exit
deriving DecidableEq, Repr

/-- A trap found and not yet taken (R393). -/
structure Trap where
  cause : BitVec 8
  /-- the slot whose fault is delivered -/
  slot : Option Nat
  station : Nat
  /-- lane position of the trap word -/
  at_ : Nat
  d0 : Dword
  d1 : Dword
  d2 : Dword
deriving DecidableEq, Repr

/-- Where a frieze stands. -/
inductive FzState where
  /-- resident on its span -/
  | resident
  /-- saved, waiting for a context (R340) -/
  | suspended
  /-- saved and frozen (R378) -/
  | frozen
  /-- trapped, its image written and its handler placed (R399) -/
  | handled
  /-- exited or ended -/
  | ended
deriving DecidableEq, Repr

/-- What a save holds of the array and ports of one tile (R404). -/
structure TileSave where
  inp : Tab InPort
  outp : Tab (List Beat)
  cfg : Tab PortCfg
  ctxs : Tab MaqCtx
  cols : Tab Col
  outAct : Tab Nat
  links : Tab (List Tok)
  pend : Tab (List (Nat × Tok))
  ops : Tab OpState
  dqs : Tab (List DqEntry)
  acc : Tab (Word × Bool)
  cells : Tab Cell
  sys : Tab SysRun
  member : Tab (Nat × Nat)
  /-- saved routes: out-port and target word, multicast -/
  routes : Tab (Dword × Bool)
deriving DecidableEq, Repr

/-- A candidate of the scheduler (R335): an unplaced frieze, the next new frieze of a started kernel, a record. -/
inductive Cand where
  | frieze (fz : Nat)
  /-- with the FRIEZE_ID it will take -/
  | kernel (k n : Nat)
  /-- with its sequence number -/
  | record (q : Nat) (seq : Word)
deriving DecidableEq, Repr

/-- One frieze (R13, R24). -/
structure Frieze where
  job : Nat
  kernel : Nat
  id : Word
  /-- tile number of station 0, and the context slot -/
  head : Nat
  ctx : Nat
  state : FzState
  entry : BitVec 52
  arg : Dword
  stations : List Station
  /-- instruction index of the next word the head fetches -/
  fetchIndex : BitVec 52
  /-- the fetch buffer: the fetched words that follow, oldest first, each with its index -/
  fetched : List (BitVec 52 × Dword)
  /-- the oldest fetched word has been decoded -/
  decoded : Bool
  /-- the words the head keeps for replay (R299), oldest first, and the lane number of the first -/
  lane : List LaneWord
  laneBase : Nat
  vote : Option Vote
  reqs : List HeadReq
  stop : Stop
  trap : Option Trap
  /-- the position discarded after a resume of MODE 01 (R403) -/
  skip : Option Nat
  sampling : Bool
  triggered : Bool
  /-- the frieze this handler serves, or the handler of this frieze -/
  handlerOf : Option Nat
  handler : Option Nat
  /-- the bytes of the image a handler has read with RESUME (R403) -/
  resuming : Option (List Byte)
  /-- the candidate its context is being freed for (R338) -/
  victimFor : Option Cand
  /-- its entry of the context pool -/
  image : Option Nat
  save : List TileSave
  /-- the c-cycle before which its head may not issue its first word (R336) -/
  startAt : Nat
  frozen : Bool
  /-- its pre-emption has injected the DRAINs of R404: the stream engine delivers nothing more -/
  draining : Bool
  /-- freeze by violation: cause and address of its record -/
  freezeRec : Option (BitVec 8 × Dword)
  /-- saved routes not yet bound again, by 32 · station + out-port, and memberships, by 512 + 32 · station + in-port with their group;
  and the c-cycle of the resume (R362) -/
  rebind : Tab (Dword × Bool)
  /-- while it is saved, the friezes of the rectangle group it was in (R341) -/
  rect : List Nat
  resumeAt : Nat
  placedNo : Nat
deriving DecidableEq, Repr

/-! ### Kernels, queues and jobs -/

/-- One started kernel (R14, R331). -/
structure Kernel where
  queue : Nat
  seq : Word
  job : Nat
  prio : Nat
  vdom : Nat
  entry : BitVec 52
  f : Nat
  l : Nat
  ord : Bool
  stagger : Bool
  snapshot : Bool
  txn : Bool
  sstep : Nat
  arg : Dword
  /-- FRIEZE_ID of the next frieze to create -/
  nextId : Nat
  exited : Nat
  cause : BitVec 8
  byHandler : Bool
  /-- v0 of its friezes -/
  v0 : View
  /-- the transaction of a TXN launch; 0 for none (R265) -/
  txid : Nat
  startNo : Nat
  /-- handler kernels belong to no queue (R399) -/
  isHandler : Bool
deriving DecidableEq, Repr

/-- One launch queue (R329). -/
structure Queue where
  enable : Bool
  job : Option Nat
  prio : Nat
  vdom : Nat
  base : Nat
  cbase : Nat
  cap : Nat
  appended : Word
  started : Word
  done : Word
  doneMask : BitVec 64
  ovf : Word
  /-- sequence numbers refused, for PREDFAIL (R332) -/
  refused : List Word
  /-- what the check of the record at STARTED found when it came to the front: 0 where it stands, else its refusal code (R332) -/
  verdict : Option Nat
  frozen : Bool
deriving DecidableEq, Repr

/-- The queue after module reset: of no job, disabled (R387). (DESIGN CHOICE: log entry 2) -/
def Queue.reset : Queue := ⟨false, none, 0, 0, 0, 0, 4, 0, 0, 0, 0, 0, [], none, false⟩

/-- A sample buffer (R324). -/
structure SampleBuf where
  base : Dword
  cap : Nat
  written : Nat
  dropped : Nat
deriving DecidableEq, Repr

/-- A work-list at its home (R344). (DEDUCED: log entry 49) -/
structure WorkList where
  cap : Nat
  wide : Bool
  kb : Nat
  home : Nat
  res : Dword
  spill : Dword
  bitmap : Dword
  /-- entries popped and entries pushed since WLNEW: entry n of the list is the one numbered n, held in RES or SPILL -/
  popped : Nat
  pushed : Nat
  /-- entries that carried an uncorrectable error when the home moved them (R346) -/
  bad : List Nat
deriving DecidableEq, Repr

/-- An owner range (R363): its start, a physical address or, of a SHARED range, an offset in the job's allocation as its banks then stood;
length, kind and node. -/
structure OwnerRange where
  shared : Bool
  start : Nat
  len : Nat
  kind : Nat
  node : Nat
  /-- the GLOBAL address the range was named by -/
  va : Nat
  /-- the banks of the allocation a SHARED range was named in -/
  banks : List Nat
deriving DecidableEq, Repr

/-- An RDMA memory key (R365, R387). -/
structure MemKey where
  va : Nat
  len : Nat
  r : Bool
  w : Bool
deriving DecidableEq, Repr

/-- A queue pair (R387). -/
structure QueuePair where
  port : Nat
  remote : Nat
  psn : Nat
  gid : Nat
  udp : Nat
  tclass : Nat
  mtu : Nat
  rate : Nat
  error : Bool
deriving DecidableEq, Repr

/-- A management ring (R379). -/
structure MgmtRing where
  base : Nat
  cap : Nat
deriving DecidableEq, Repr


/-- One span of a partition: head tile and length. -/
abbrev Span := Nat × Nat

/-- One job on this module (R367). -/
structure Job where
  troot : BitVec 52
  mbox : BitVec 20
  partition : List Span
  banks : List Nat
  trapVec : Dword
  waitLimit : Dword
  poolWaitLimit : Dword
  smpPeriod : Word
  mq : Option MgmtRing
  mqDrop : Nat
  mqSeq : Nat
  /-- the context pool: VA base, entries, entries in use (R396) -/
  poolBase : Nat
  poolCount : Nat
  poolUsed : List Nat
  buf : Option SampleBuf
  worklists : Tab WorkList
  owners : List OwnerRange
  keys : Tab MemKey
  qps : Tab QueuePair
  /-- senders frozen out (R378) -/
  blocked : List Nat
  /-- routes the host installs for the job, by 32 · tile + out-port: their target words, and whether they go to a group (R358) -/
  hostRoutes : Tab (Dword × Bool)
  /-- saved LOCAL images, by tile (R19) -/
  localSaves : Tab Memory
deriving DecidableEq, Repr

/-- A job with the resets of R367. (DESIGN CHOICE: log entry 2) -/
def Job.reset (troot : BitVec 52) (mbox : BitVec 20) : Job :=
  { troot := troot, mbox := mbox, partition := [], banks := [], trapVec := 0, waitLimit := 0x100000000,
    poolWaitLimit := 0x10000000, smpPeriod := 0, mq := none, mqDrop := 0, mqSeq := 0, poolBase := 0, poolCount := 0,
    poolUsed := [], buf := none, worklists := [], owners := [], keys := [], qps := [], blocked := [], hostRoutes := [], localSaves := [] }

/-! ### Versioned memory -/

/-- The state of a transaction record (R258). -/
inductive TxState where
  | active | doomed | committing | finished
deriving DecidableEq, Repr

/-- A transaction record (R257). -/
structure TxRec where
  datum : BitVec 48
  age : BitVec 48
  cl : Bool
  /-- CL was cleared by a write and stays 0 for the rest of the attempt (R260) -/
  clOff : Bool
  state : TxState
  code : Nat
  cnum : BitVec 48
  /-- the owning frieze, or the kernel of a TXN launch -/
  ownerFz : Option Nat
  ownerK : Option Nat
  /-- controllers registered for it, 16 times the module plus the number of the HBM controller, those that have acknowledged and those that
  refused -/
  ctrls : List Nat
  acked : List Nat
  refusedBy : List Nat
  /-- COMMITTING: waiting to be asked, or PUBLISH sent -/
  sent : Bool
  expired : Bool
deriving DecidableEq, Repr

/-- Live datum registrations (R266): who holds them, the datum, whether they have expired, and how many they are: more than one
only for the friezes of a kernel that are not placed yet (R265). -/
structure Reg48 where
  fz : Nat
  view : Nat
  datum : BitVec 48
  expired : Bool
  n : Nat
deriving DecidableEq, Repr

/-- One versioning domain of a job (R252, R253). -/
structure Domain where
  home : Nat
  poolBase : Nat
  poolSize : Nat
  counter : BitVec 48
  published : BitVec 48
  recs : Tab TxRec
  regs : List Reg48
  /-- commit numbers completed or voided above PUBLISHED -/
  settled : List (BitVec 48)
  /-- the low-water mark the controllers last received -/
  lwm : BitVec 48
  /-- modules where a write waits for pool room, with the c-cycle from which the pool-wait count runs (R268) -/
  waitSince : Tab Nat
  /-- writes and claims that waited for pool room, by access number: the line and the TXID (R256, R268) -/
  waiters : Tab (Nat × Nat)
  /-- the c-cycle in which the next broadcast of the low-water mark is due (R266) -/
  nextLwm : Nat
  /-- the versioned pages known at the last advance of PUBLISHED: physical start, size, and PUBLISHED when each became versioned
  (R252) -/
  pages : List (Nat × Nat × BitVec 48)
deriving DecidableEq, Repr

/-- An intent on a line (R256): the record, the 128 bytes and whether they are poisoned (R406), and the commit number while
PUBLISHING. -/
structure Intent where
  txid : Nat
  bytes : List Byte
  bad : Bool
  publishing : Option (BitVec 48)
  claimed : Bool
deriving DecidableEq, Repr

/-- The version chain of a line beyond the bytes in place: the number of the in-place version, the older versions newest
first, each with its bytes and whether they are poisoned (R406), and the intent (R256). -/
structure Chain where
  job : Nat
  dom : Nat
  number : BitVec 48
  older : List (BitVec 48 × List Byte × Bool)
  intent : Option Intent
deriving DecidableEq, Repr

/-! ### Engines, fabric and requests -/

/-- The expert routing engine's place in a dispatch (R293). -/
inductive EngState where
  | unconfigured | ready | exchange | finish | done
deriving DecidableEq, Repr

/-- A configuration of an expert routing engine (R279, R280). -/
structure ErCfg where
  k : Nat
  spill : Bool
  ifmt : Nat
  ofmt : Nat
  e : Nat
  m : Nat
  me : Nat
  group : Nat
  rowBytes : Nat
  spillRows : Nat
  d : Nat
  dlcap : Nat
  gaz : Dword
  drop : Dword
  /-- member table: module and die -/
  members : List (Nat × Nat)
  /-- placement table: base, module, capacity -/
  place : List (Dword × Nat × Nat)
  /-- CRC-32C of the placement table -/
  crc : Nat
deriving DecidableEq, Repr

/-- One expert routing engine (R277, R290, R293). -/
structure Engine where
  state : EngState
  job : Nat
  cfg : Option ErCfg
  /-- dispatches requested since the last ERCFG (R278) -/
  count : Nat
  /-- how many configurations of each job it has had; the end of a job adds 1 (R278, R391) -/
  configs : Tab Nat
  /-- requests waiting or in progress, oldest first -/
  queue : List Nat
  /-- messages received for the dispatch in progress and for those to come -/
  msgs : List ExchangeMsg
  totals : List Nat
  overflow : List Nat
  drops : Nat
  failed : Bool
  frozen : Bool
  /-- the c-cycle from which the dispatch in progress waits for members (R293) -/
  since : Nat
  /-- L of step 1 of the dispatch in progress (R283) -/
  own : List Nat
  /-- the rows it has sent to other members: gazetteer index, expert, position and bytes (R295) -/
  sent : List (Nat × Nat × Nat × List Byte)
  /-- the rows of others it has written: expert and position (R287) -/
  wrote : List (Nat × Nat)
deriving DecidableEq, Repr

/-- The engine after reset. (DESIGN CHOICE: log entry 2) -/
def Engine.reset : Engine := ⟨.unconfigured, 0, none, 0, [], [], [], [], [], 0, false, false, 0, [], [], []⟩

/-- What an engine request asks for. -/
inductive ReqKind where
  | snap (dom : Nat) (v : BitVec 3)
  | txbegin (dom : Nat) (v : BitVec 3) (age : Bool)
  | unsnap (v : BitVec 3)
  | txcommit (dom txid : Nat) (v : BitVec 3)
  | txabort (dom txid : Nat) (v : BitVec 3)
  | txstat (dom txid : Nat)
  /-- the next element to claim, and whether a versioned line has been claimed -/
  | claim (v : View) (base : Dword) (shape : Shape) (next : Nat) (any : Bool)
  | ercfg (a : Dword)
  | ercfgOff
  | erdisp (choice rows : Dword) (t : Nat) (form : Nat)
  | ercomb (out choice : Dword) (t : Nat) (renorm nogate : Bool)
  | erstat (a : Dword)
  | erdrops
  /-- the queue, the record's address form, v0, and the c-cycle from which the request has been held on a full ring -/
  | launch (queue : Nat) (a : Dword) (v : View) (since : Option Nat)
  | accsave (k first last : Nat) (a : Dword)
  | accload (k first last : Nat) (a : Dword)
  | wlnew (id : Nat) (desc : Dword)
  | wlpush (id : Nat) (v : Dword)
  | wlpop (id port n : Nat)
  | wlins (id : Nat) (k : Word)
  | wlcnt (id : Nat) (a : Dword)
  | wlfree (id : Nat)
  | route (o : Nat) (target : Dword) (mc : Bool)
  /-- the in-ports of this module its beats were sent to, and whether it led to another module -/
  | unroute (o : Nat) (sent : Option (List (Nat × Nat) × Bool))
  | mcjoin (i group : Nat) (leave : Bool)
  | owncfg (range : OwnerRange)
  | smpoff
  | smpcfg
  /-- FREEZE or THAW of the master a descriptor names (R385), and the frieze it acts on once known -/
  | master (d : Dword) (thaw : Bool) (fz : Option Nat)
deriving DecidableEq, Repr

/-- An engine request of class EN in progress (R237). -/
structure Req where
  fz : Nat
  st : Nat
  tile : Nat
  job : Nat
  uid : Nat
  kind : ReqKind
  /-- the g register its response writes on the station; the lane number when it was decided at the head -/
  dst : Option Reg
  lane : Option Nat
  sigMode : BitVec 2
  sigK : BitVec 6
  waits : List Nat
  hold : Nat
  /-- the result of one that has taken effect before an earlier one's has been returned (R270) -/
  res : Option Result
deriving DecidableEq, Repr

/-- A stream-plane route (R358), by source: 32·tile + out-port. -/
structure Route where
  fz : Nat
  st : Nat
  module : Nat
  tile : Nat
  port : Nat
  mc : Bool
  target : Dword
  /-- links of its path, for a loss: torus ports used -/
  ports : List Nat
  /-- the in-ports of this module it has sent beats to -/
  sent : List (Nat × Nat)
  job : Nat
  /-- installed by the host for the job, of no frieze (R358) -/
  host : Bool
deriving DecidableEq, Repr

/-- Whether a route belongs to a frieze. -/
def Route.isOf (r : Route) (id : Nat) : Bool := !r.host && r.fz == id

/-- A message handed to another module or to the outside. -/
inductive Out where
  | rsig (target : Dword) (amount : Word)
  | beat (module tile port : Nat) (b : RawBeat)
  | exchange (die : Nat) (msg : ExchangeMsg)
  | publish (ctrl job dom txid : Nat)
  | read (data : List Byte)
  | rdma (qp addr : Nat) (data : List Byte)
deriving DecidableEq, Repr

/-- A forwarding slot of a target: the access that has it, and where it was granted to a re-send the c-cycle from which that may come;
the sources of its RETRYs with the c-cycle of the last, oldest first; and those refused without being listed (R356, R357). -/
structure FwdNode where
  taken : Option Nat
  granted : Option Nat
  listed : List (Nat × Nat)
  refused : List (Nat × Nat)
deriving DecidableEq, Repr

/-- A forwarding slot that is free. -/
def FwdNode.free : FwdNode := ⟨none, none, [], []⟩

/-- The cast engine's work (R409, R411). -/
structure CastWork where
  job : Nat
  restore : Bool
  segments : List (Nat × Nat)
  qpn : Nat
  addr : Nat
  rkey : Nat
  datums : List (Nat × BitVec 48)
  tag : BitVec 32
deriving DecidableEq, Repr

/-- How far the running host command has come: not begun, a freeze or thaw of a frieze under way, the new spans of a partition,
the sequence number a QUEUE_RESET discards up to, an image being written to flash. -/
inductive CmdWork where
  | fresh
  | frieze (fz : Nat)
  | spans (l : List Span)
  | queue (upto : Word)
  | flash (image : List Byte)
deriving DecidableEq, Repr

/-- The lifetime record's counters (R413). -/
structure Lifetime where
  hours : Nat
  clamps : Nat
  fenced : BitVec 64
  checks : Nat
  replays : Tab Nat
  losses : Tab Nat
  transient : Tab Nat
  lasting : Tab Nat
  /-- hours by junction band of 5 °C, by band of 125 W of module power and by core voltage step -/
  junction : Tab Nat
  power : Tab Nat
  steps : Tab Nat
deriving DecidableEq, Repr

/-- The lifetime record of a module as shipped. (DESIGN CHOICE: log entry 2) -/
def Lifetime.reset : Lifetime := ⟨0, 0, 0, 0, [], [], [], [], [], [], []⟩

/-- The station whose word issues next: frieze and station number, and whether a scalar access of the word takes effect after its
issue rather than at it (R203, R228). (DESIGN CHOICE: log entry 79) -/
structure Cur where
  fz : Nat
  st : Nat
  late : Bool
deriving DecidableEq, Repr

/-- One module. -/
structure State where
  /-- c-cycles since module reset (R322); every step is one -/
  cycles : Dword
  /-- the station selected to issue in this step -/
  cur : Option Cur
  /-- what happens next besides: events of the engines, the array, the fabric and the host, in order -/
  agenda : List Instr
  /-- the model's own turn counter, for when nothing is on the agenda -/
  turn : Nat
  /-- the model's own count of open values taken -/
  free : Nat
  /-- the model's own counter of things found, placed and requested -/
  serial : Nat
  /-- HBM by physical address: this module's and every module's it can reach (R186, R187) -/
  hbm : Memory
  /-- shared-scratchpad banks: bank·2^20 + byte (R184) -/
  sram : Memory
  /-- the job whose data a shared-scratchpad bank holds (R369) -/
  bankJob : Tab Nat
  tiles : Tab Tile
  friezes : Tab Frieze
  kernels : Tab Kernel
  queues : Tab Queue
  jobs : Tab Job
  /-- versioning domains, by 64·job + domain -/
  domains : Tab Domain
  /-- version chains, by physical address div 128 -/
  chains : Tab Chain
  engines : Vector Engine 4
  reqs : Tab Req
  routes : Tab Route
  nodes : Tab FwdNode
  /-- messages handed out, newest last -/
  out : List Out
  /-- contexts being freed or freed by a pre-emption, by 4·head tile + slot, and for whom (R335, R338) -/
  reserved : Tab Cand
  /-- round-robin positions of the eight priority levels (R335) -/
  rr : Vector Nat 8
  -- torus and links
  moduleId : BitVec 10
  torus : Nat × Nat × Nat
  /-- UALink ports lost, failed at training, and trained (R351, R352) -/
  portsLost : List Nat
  portsFailed : List Nat
  portsTrained : List Nat
  -- host interface
  result : BitVec 32 × BitVec 8
  /-- the host command that has not finished, those that wait, and whether the running one is served in this step (R387) -/
  command : Option Instr
  waiting : List Instr
  serving : Bool
  /-- how far the running command has come -/
  cmdWork : CmdWork
  cmdOvf : Word
  apBase : Nat
  apJob : Nat
  apPhys : Bool
  /-- how often each MSI-X vector has been raised (R379, R434): the posted writes upstream (R386) -/
  msix : Tab Nat
  ethDropped : Nat
  -- cast, power, bring-up
  castWork : Option CastWork
  castFrozen : Bool
  /-- the job for which the cast engine was frozen -/
  castFrozenBy : Nat
  life : Lifetime
  /-- the lifetime record as flash holds it (R413) -/
  lifeFlash : Lifetime
  boot : BitVec 8
  standby : Bool
  vstep : BitVec 4
  clamp : Bool
  /-- the firmware image in flash and the one staged through BAR4 (R438) -/
  flash : List Byte
  flashBroken : Bool
  staged : Memory
deriving DecidableEq, Repr

/-- The management job 0 (R367). -/
def Job.management : Job := Job.reset 0 0

/-- The module after a module reset and the ROM's start: program-visible state at its reset values, BOOT in the ROM, the
image in flash as the module was shipped. (DESIGN CHOICE: log entry 2) -/
def State.reset : State :=
  { cycles := 0, cur := none, agenda := [], turn := 0, free := 0, serial := 0, hbm := Memory.empty, sram := Memory.empty, bankJob := [],
    tiles := [], friezes := [], kernels := [], queues := [], jobs := [], domains := [], chains := [],
    engines := Vector.replicate 4 Engine.reset, reqs := [], routes := [], nodes := [], out := [], reserved := [],
    rr := Vector.replicate 8 65535, moduleId := 0, torus := (1, 1, 1), portsLost := [], portsFailed := [],
    portsTrained := [], result := (0, 0), command := none, waiting := [], serving := false, cmdWork := .fresh, cmdOvf := 0, apBase := 0, apJob := 0, apPhys := false, msix := [],
    ethDropped := 0, castWork := none, castFrozen := false, castFrozenBy := 0,
    life := Lifetime.reset, lifeFlash := Lifetime.reset, boot := 0, standby := false, vstep := Config.defaultVstep,
    clamp := false, flash := Config.shippedImage, flashBroken := false, staged := Memory.empty }

end Sys2Proof.Machine
end

