-- ==== Sys2Proof/Machine/Flags.lean ====
section
/-! DEFINITION. The conditions of CMP, CMPI and PSET (R307, R315), the integer results of groups 0x1 and 0x2 (R308, R309) and the bits of the column status word (R116). The control core keeps no arithmetic flag (R308). -/

namespace Sys2Proof.Machine

/-- The condition of a code 0–9; codes 10–15 are refused at decode (R307). -/
def condHolds (c : BitVec 4) (a b : Dword) : Bool :=
  match c.toNat with
  | 0 => a == b
  | 1 => a != b
  | 2 => a.slt b
  | 3 => a.sle b
  | 4 => b.slt a
  | 5 => b.sle a
  | 6 => a.ult b
  | 7 => a.ule b
  | 8 => b.ult a
  | 9 => b.ule a
  | _ => false

/-- A truth value as a register value. -/
def ofBool64 (b : Bool) : Dword := if b then 1 else 0

/-- Bits [127:64] of the exact product, signed or unsigned (R308). -/
def mulHigh (u : Bool) (a b : Dword) : Dword :=
  if u then BitVec.ofNat 64 (a.toNat * b.toNat / 2 ^ 64)
  else BitVec.ofInt 64 (a.toInt * b.toInt / 2 ^ 64)

/-- The lesser, signed or unsigned. -/
def minBv (u : Bool) (a b : Dword) : Dword :=
  if u then (if a.ule b then a else b) else (if a.sle b then a else b)

/-- The greater, signed or unsigned. -/
def maxBv (u : Bool) (a b : Dword) : Dword :=
  if u then (if a.ule b then b else a) else (if a.sle b then b else a)

/-- Leading zero bits of a doubleword, counted down from bit k − 1. -/
def leadingZeros (a : Dword) : Nat → Nat
  | 0 => 0
  | k + 1 => if a.getLsbD k then 0 else leadingZeros a k + 1

/-- One bits among bits k − 1 … 0. -/
def onesBelow (a : Dword) : Nat → Nat
  | 0 => 0
  | k + 1 => (a.getLsbD k).toNat + onesBelow a k

/-- The predicate PSET writes, for the codes that compare g registers (R315). -/
def psetG (c : BitVec 4) (a b : Dword) : Bool :=
  if c = 14 then a.getLsbD (b.toNat % 64) else condHolds c a b

/-- The predicate PSET writes, for the codes that combine predicates (R315). -/
def psetP (c : BitVec 4) (a b : Bool) : Bool :=
  match c.toNat with
  | 10 => a && b
  | 11 => a || b
  | 12 => a != b
  | 13 => a && !b
  | _ => false

/-- A column status word with one bit set (R116). -/
def stickBit (w : BitVec 16) (k : Nat) : BitVec 16 := w ||| (1#16 <<< k)

end Sys2Proof.Machine
end

