-- ==== Sys2Proof/WellFormed.lean ====
section
/-! DEFINITION. Which instructions the encodings admit: the checks of R43 that depend only on the bits of a word. -/

namespace Sys2Proof

/-- The CSR numbers R42 assigns. -/
def csrAssigned (n : BitVec 12) : Bool :=
  let k := n.toNat
  decide (k ≤ 0x06) || (decide (0x10 ≤ k) && decide (k ≤ 0x12)) || (decide (0x20 ≤ k) && decide (k ≤ 0x22)) ||
    decide (k = 0x30) || (decide (0x40 ≤ k) && decide (k ≤ 0x7F))

/-- The CSRs only the management context may write: TRAP_VEC, WAIT_LIMIT, POOL_WAIT_LIMIT and SMP_PERIOD (R41, R42). -/
def csrPrivileged (n : BitVec 12) : Bool :=
  n == 0x012 || n == 0x020 || n == 0x021 || n == 0x022

/-- The instructions whose entries define sector delivery, on which SIGNAL mode 10 is legal (R32, R163). -/
def Instr.deliversSectors : Instr → Bool
  | .ldg .. | .stg .. | .atomg .. => true
  | .srd .. | .swr .. | .scp .. | .sfill .. | .swin .. | .smc .. => true
  | .sgath .. | .sscat .. | .sscata .. => true
  | .maqld .. | .accsave .. | .accload .. => true
  | _ => false

/-- The header of a control word; events and host commands have none. -/
def Instr.hdr? : Instr → Option Hdr
  | .nop h | .trap h _ | .resume h _ | .csrr h _ _ | .csrw h _ _ | .csrx h _ _ | .codeinv h _ _ | .yield h
  | .brk h _ | .freeze h _ | .thaw h _ | .launch h _ _ => some h
  | .add h _ _ _ | .sub h _ _ _ | .mul h _ _ _ | .mulh h _ _ _ _ | .and h _ _ _ | .or h _ _ _ | .xor h _ _ _
  | .shl h _ _ _ | .shr h _ _ _ | .sar h _ _ _ | .min h _ _ _ _ | .max h _ _ _ _ | .clz h _ _ | .popc h _ _
  | .sel h _ _ _ _ | .cmp h _ _ _ _ => some h
  | .addi h _ _ _ | .subi h _ _ _ | .muli h _ _ _ | .andi h _ _ _ | .ori h _ _ _ | .xori h _ _ _ | .shli h _ _ _
  | .shri h _ _ _ | .sari h _ _ _ | .mini h _ _ _ | .maxi h _ _ _ | .cmpi h _ _ _ _ | .movhi h _ _ _ => some h
  | .br h _ _ _ | .brany h _ _ | .brall h _ _ | .loop h _ _ | .call h _ _ | .ret h _ | .pset h _ _ _ _ | .trig h
  | .exit h | .waite h _ _ _ | .sige h _ _ _ => some h
  | .lds h _ _ _ | .sts h _ _ _ | .ldq h _ _ _ | .stq h _ _ _ | .ldg h _ _ _ | .stg h _ _ _ | .atomg h _ _ _ _ _ _
  | .shape h _ _ _ _ _ | .viewld h _ _ _ | .viewldGet h _ _ _ | .portrd h _ _ _ | .portwr h _ _ _
  | .portspc h _ _ _ => some h
  | .srd h _ _ _ _ _ | .swr h _ _ _ _ _ _ | .scp h _ _ | .sfill h _ _ | .swin h _ _ _ | .smc h _ _ _ _ _ _ => some h
  | .sgath h _ _ _ _ _ _ _ | .sscat h _ _ _ _ _ _ _ _ | .sscata h _ _ _ _ _ _ _ => some h
  | .srec h _ _ _ _ _ | .sportcfg h _ _ _ | .sportcfgOff h _ => some h
  | .sbar h _ | .fence h _ _ _ | .swaits h _ | .sabort h _ _ | .ratom h _ _ _ _ _ _ _ _ | .rsig h _ _ _ => some h
  | .maqld h _ _ _ | .maqgo h _ | .maqdrn h _ | .accsave h _ _ _ _ | .accload h _ _ _ _ | .chbind h _ _ _
  | .srseed h _ _ => some h
  | .snap h _ _ | .unsnap h _ | .txbegin h _ _ | .txbeginAge h _ _ | .txclaim h _ _ _ | .txcommit h _ _ | .txabort h _
  | .txstat h _ _ => some h
  | .ercfg h _ | .ercfgOff h | .erdisp h _ _ _ | .erdispReuse h _ _ _ _ | .ercomb h _ _ _ _ _ _ | .erstat h _
  | .erdrops h _ => some h
  | .route h _ _ _ _ | .unroute h _ | .owncfg h _ _ _ | .mcjoin h _ _ _ | .mcjoinLeave h _ _ _ => some h
  | .wlnew h _ _ | .wlpush h _ _ | .wlpop h _ _ _ | .wlins h _ _ | .wlcnt h _ _ | .wlfree h _ => some h
  | .smpcfg h _ _ | .smpon h | .smpoff h | .cntrd h _ _ _ _ | .mark h _ _ => some h
  | _ => none

/-- An ATOMG or RATOM operation code with its size and compare field (R205, R249, R250). -/
def atomOk (op : BitVec 4) (wide : Bool) (cmp : Reg) : Bool :=
  decide (op.toNat ≤ 10) && !(op == 10 && wide) && (op == 1 || cmp == 0)

/-- The field checks of R43 that are not reserved bits: values outside a field's range, and R46's register groups. -/
def Instr.fieldsOk : Instr → Bool
  | .csrr _ _ n | .csrw _ _ n | .csrx _ _ n => csrAssigned n
  | .cmp _ _ _ _ c => decide (c.toNat ≤ 9)
  | .cmpi _ _ _ c _ => decide (c.toNat ≤ 9)
  | .br _ c kind _ =>
    decide (kind.toNat ≤ 4) && (kind != 0 || c == 0) && (!(kind == 1 || kind == 2) || decide (c.toNat < 8))
  | .loop _ c _ => c != 0
  | .pset _ _ a b c =>
    decide (c.toNat ≤ 14) &&
      (!(decide (10 ≤ c.toNat) && decide (c.toNat ≤ 13)) || (decide (a.toNat < 8) && decide (b.toNat < 8)))
  | .ldq _ d _ _ | .stq _ d _ _ => decide (d.toNat + 3 ≤ 31)
  | .atomg _ _ _ _ c op size => atomOk op size c
  | .viewldGet _ _ a b => a != b || a == 0
  | .portrd _ d a _ => d != a || a == 0
  | .srd _ s _ _ _ w | .swr _ s _ _ _ w _ | .swin _ s _ w | .smc _ s _ _ _ _ w => w == 0 || s.base != 31
  | .sgath _ s _ _ _ _ w _ => w == 0 || s.base != 31
  | .sscat _ s o x _ _ w _ _ => (w == 0 || s.base != 31) && o != x
  | .sscata _ _ o x _ _ _ _ => o != x
  | .sportcfg _ _ t _ => t != 0
  | .fence _ _ _ scope => decide (scope.toNat ≤ 4)
  | .ratom _ _ _ _ d op size _ _ => atomOk op size d
  | .accsave _ _ _ first last | .accload _ _ _ first last => decide (first.toNat ≤ last.toNat)
  | .chbind _ x _ n => decide (x.toNat + n.toNat ≤ 31)
  | .ercomb _ _ _ _ _ renorm nogate => !(renorm && nogate)
  | .reservedOpCommand op _ => decide (op.toNat = 0) || decide (0x19 < op.toNat)
  | .hostAppend q r => decide (q < 65536) && decide (r.length = 8)
  | .engineResponse _ => true
  | _ => true

/-- The header checks of R43: N with p0, SIGNAL mode 10 where R32 forbids it, a WAIT byte on WAITE. -/
def Instr.hdrOk (i : Instr) : Bool :=
  match i.hdr? with
  | none => true
  | some h =>
    !(h.neg && h.pred == 0) && (h.sigMode != 2 || i.deliversSectors) &&
      (match i with
        | .waite .. => h.waitMode == 0
        | _ => true)

/-- A well-formed instruction: one the encodings admit. -/
def Instr.wf (i : Instr) : Bool := i.hdrOk && i.fieldsOk

/-- The encodings only the management context may execute (R41). -/
def Instr.privileged : Instr → Bool
  | .freeze .. | .thaw .. => true
  | .csrw _ _ n | .csrx _ _ n => csrPrivileged n
  | _ => false

end Sys2Proof
end

