-- ==== Sys2Proof/Decode.lean ====
section
/-! DEFINITION. The decoder of control words and host commands, total and rejecting by name (R28–R46, R387), and the encoder written from the same tables. -/

namespace Sys2Proof

/-- Why a word is no instruction (R43) or no command (R388). -/
inductive Reject where
  /-- GROUP = 0xF -/
  | reservedGroup
  /-- FUNC unassigned in its group -/
  | unassignedFunction
  /-- N = 1 with PRED = 0 -/
  | negatedP0
  /-- a WAIT mode on WAITE, or SIGNAL mode 10 where R32 forbids it -/
  | badMode
  /-- a nonzero RSVD bit, or a selector value the entry does not name -/
  | reservedBits
  /-- a field value outside its range -/
  | fieldRange
  /-- fewer bytes than one word -/
  | tooShort
deriving DecidableEq, Repr

/-! ### The common fields of a control word (R28) -/

/-- The OPCODE byte: GROUP·16 + FUNC. -/
def opcodeOf (w : Dword) : BitVec 8 := w.extractLsb' 36 8
/-- The OPERAND field. -/
def operandOf (w : Dword) : BitVec 36 := w.extractLsb' 0 36
/-- The header fields. -/
def hdrOf (w : Dword) : Hdr :=
  { waitMode := w.extractLsb' 62 2, waitK := w.extractLsb' 56 6, sigMode := w.extractLsb' 54 2,
    sigK := w.extractLsb' 48 6, neg := w.getLsbD 47, pred := w.extractLsb' 44 3 }

/-- A word from its parts. -/
def wordOf (h : Hdr) (op : BitVec 8) (x : BitVec 36) : Dword :=
  h.waitMode ++ h.waitK ++ h.sigMode ++ h.sigK ++ BitVec.ofBool h.neg ++ h.pred ++ op ++ x

/-! ### The operand formats (R34–R39) -/

/-- RR: D, A, B, C, MOD, RSVD (R34). -/
def packRR (d a b c : Reg) (m : BitVec 8) : BitVec 36 := d ++ a ++ b ++ c ++ m ++ (0 : BitVec 8)
/-- RI: D, A, IMM (R35). -/
def packRI (d a : Reg) (imm : BitVec 26) : BitVec 36 := d ++ a ++ imm
/-- BR: C, KIND, OFF (R36). -/
def packBR (c : BitVec 5) (kind : BitVec 3) (off : BitVec 28) : BitVec 36 := c ++ kind ++ off
/-- ST: SLOT, PORT, SHAPE, BASE, VIEW, MODE, FLAGS (R37). -/
def packST (s : StOps) (port : BitVec 6) (mode : BitVec 5) (flags : BitVec 8) : BitVec 36 :=
  (0 : BitVec 1) ++ s.slot ++ port ++ s.shape ++ s.base ++ s.view ++ mode ++ flags
/-- EN: A, B, C, D, X, MOD (R38). -/
def packEN (a b c d : Reg) (x : BitVec 6) (m : BitVec 10) : BitVec 36 := a ++ b ++ c ++ d ++ x ++ m
/-- SY: G, X, OPERAND (R39). -/
def packSY (g : Reg) (x : BitVec 11) (v : BitVec 20) : BitVec 36 := g ++ x ++ v

/-- The field of w bits from bit k up. -/
def fld (x : BitVec 36) (k w : Nat) : BitVec w := x.extractLsb' k w
/-- One bit of the operand. -/
def bitOf (x : BitVec 36) (k : Nat) : Bool := x.getLsbD k
/-- The operand fields every stream word shares. -/
def stOf (x : BitVec 36) : StOps := { slot := fld x 31 4, shape := fld x 21 4, base := fld x 16 5, view := fld x 13 3 }

/-- One bit as a bit vector. -/
def b1 (b : Bool) : BitVec 1 := BitVec.ofBool b

/-! ### The encoder -/

/-- OPCODE byte and OPERAND of a control word (R40 and the entries); none for what is no control word. -/
def Instr.code? : Instr → Option (BitVec 8 × BitVec 36)
  | .nop _ => some (0x00, packSY 0 0 0)
  | .trap _ code => some (0x01, packSY 0 0 code)
  | .resume _ a => some (0x02, packEN a 0 0 0 0 0)
  | .csrr _ g n => some (0x03, packSY g 0 ((0 : BitVec 8) ++ n))
  | .csrw _ g n => some (0x04, packSY g 0 ((0 : BitVec 8) ++ n))
  | .csrx _ g n => some (0x05, packSY g 0 ((0 : BitVec 8) ++ n))
  | .codeinv _ a b => some (0x06, packEN a b 0 0 0 0)
  | .yield _ => some (0x07, packSY 0 0 0)
  | .brk _ code => some (0x08, packSY 0 0 code)
  | .freeze _ a => some (0x09, packEN a 0 0 0 0 0)
  | .thaw _ a => some (0x0A, packEN a 0 0 0 0 0)
  | .launch _ a b => some (0x0B, packEN a b 0 0 0 0)
  | .add _ d a b => some (0x10, packRR d a b 0 0)
  | .sub _ d a b => some (0x11, packRR d a b 0 0)
  | .mul _ d a b => some (0x12, packRR d a b 0 0)
  | .mulh _ d a b u => some (0x13, packRR d a b 0 ((0 : BitVec 7) ++ b1 u))
  | .and _ d a b => some (0x14, packRR d a b 0 0)
  | .or _ d a b => some (0x15, packRR d a b 0 0)
  | .xor _ d a b => some (0x16, packRR d a b 0 0)
  | .shl _ d a b => some (0x17, packRR d a b 0 0)
  | .shr _ d a b => some (0x18, packRR d a b 0 0)
  | .sar _ d a b => some (0x19, packRR d a b 0 0)
  | .min _ d a b u => some (0x1A, packRR d a b 0 ((0 : BitVec 7) ++ b1 u))
  | .max _ d a b u => some (0x1B, packRR d a b 0 ((0 : BitVec 7) ++ b1 u))
  | .clz _ d a => some (0x1C, packRR d a 0 0 0)
  | .popc _ d a => some (0x1D, packRR d a 0 0 0)
  | .sel _ d a b c => some (0x1E, packRR d a b c 0)
  | .cmp _ d a b cond => some (0x1F, packRR d a b 0 (cond ++ (0 : BitVec 4)))
  | .addi _ d a imm => some (0x20, packRI d a imm)
  | .subi _ d a imm => some (0x21, packRI d a imm)
  | .muli _ d a imm => some (0x22, packRI d a imm)
  | .andi _ d a imm => some (0x23, packRI d a imm)
  | .ori _ d a imm => some (0x24, packRI d a imm)
  | .xori _ d a imm => some (0x25, packRI d a imm)
  | .shli _ d a n => some (0x26, packRI d a ((0 : BitVec 20) ++ n))
  | .shri _ d a n => some (0x27, packRI d a ((0 : BitVec 20) ++ n))
  | .sari _ d a n => some (0x28, packRI d a ((0 : BitVec 20) ++ n))
  | .mini _ d a imm => some (0x29, packRI d a imm)
  | .maxi _ d a imm => some (0x2A, packRI d a imm)
  | .cmpi _ d a cond imm => some (0x2B, packRI d a (cond ++ imm))
  | .movhi _ d a imm => some (0x2C, packRI d a imm)
  | .br _ c kind off => some (0x30, packBR c kind off)
  | .brany _ p off => some (0x31, packBR ((0 : BitVec 2) ++ p) 0 off)
  | .brall _ p off => some (0x32, packBR ((0 : BitVec 2) ++ p) 0 off)
  | .loop _ c off => some (0x33, packBR c 0 off)
  | .call _ c off => some (0x34, packBR c 0 off)
  | .ret _ c => some (0x35, packBR c 0 0)
  | .pset _ d a b cond => some (0x36, packRR ((0 : BitVec 2) ++ d) a b 0 (cond ++ (0 : BitVec 4)))
  | .trig _ => some (0x37, packSY 0 0 0)
  | .exit _ => some (0x38, packSY 0 0 0)
  | .waite _ g sb k => some (0x39, packSY g ((0 : BitVec 10) ++ b1 sb) ((0 : BitVec 14) ++ k))
  | .sige _ g set k => some (0x3A, packSY g ((0 : BitVec 10) ++ b1 set) ((0 : BitVec 14) ++ k))
  | .lds _ d a imm => some (0x40, packRI d a imm)
  | .sts _ d a imm => some (0x41, packRI d a imm)
  | .ldq _ d a imm => some (0x42, packRI d a imm)
  | .stq _ d a imm => some (0x43, packRI d a imm)
  | .ldg _ d a imm => some (0x44, packRI d a imm)
  | .stg _ d a imm => some (0x45, packRI d a imm)
  | .atomg _ d a b c op size => some (0x46, packRR d a b c (op ++ b1 size ++ (0 : BitVec 3)))
  | .shape _ x a b c d => some (0x47, packEN a b c d ((0 : BitVec 2) ++ x) 0)
  | .viewld _ x a b => some (0x48, packEN a b 0 0 ((0 : BitVec 3) ++ x) 0)
  | .viewldGet _ x a b => some (0x48, packEN a b 0 0 ((0 : BitVec 3) ++ x) 1)
  | .portrd _ d a o => some (0x49, packRI d a ((0 : BitVec 20) ++ (1 : BitVec 1) ++ o))
  | .portwr _ d a i => some (0x4A, packRI d a ((0 : BitVec 21) ++ i))
  | .portspc _ d a port => some (0x4B, packRI d a ((0 : BitVec 20) ++ port))
  | .srd _ s i eos bnd sidew => some (0x50, packST s ((0 : BitVec 1) ++ i) 0 ((0 : BitVec 4) ++ sidew ++ b1 bnd ++ b1 eos))
  | .swr _ s o eos bnd sidew p6 =>
    some (0x51, packST s ((1 : BitVec 1) ++ o) 0 ((0 : BitVec 2) ++ b1 p6 ++ (0 : BitVec 1) ++ sidew ++ b1 bnd ++ b1 eos))
  | .scp _ s dst => some (0x52, packST s ((0 : BitVec 1) ++ dst) 0 0)
  | .sfill _ s f => some (0x53, packST s ((0 : BitVec 1) ++ f) 0 0)
  | .swin _ s i sidew => some (0x54, packST s ((0 : BitVec 1) ++ i) 0 ((0 : BitVec 4) ++ sidew ++ (0 : BitVec 2)))
  | .smc _ s i root eos bnd sidew =>
    some (0x55, packST s ((0 : BitVec 1) ++ i) ((0 : BitVec 1) ++ root) ((0 : BitVec 4) ++ sidew ++ b1 bnd ++ b1 eos))
  | .sgath _ s i idx eos bnd sidew i64 =>
    some (0x60, packST s ((0 : BitVec 1) ++ i) idx ((0 : BitVec 3) ++ b1 i64 ++ sidew ++ b1 bnd ++ b1 eos))
  | .sscat _ s o idx eos bnd sidew p6 i64 =>
    some (0x61, packST s ((1 : BitVec 1) ++ o) idx ((0 : BitVec 2) ++ b1 p6 ++ b1 i64 ++ sidew ++ b1 bnd ++ b1 eos))
  | .sscata _ s o idx op eos bnd i64 =>
    some (0x62, packST s ((1 : BitVec 1) ++ o) idx (op ++ b1 i64 ++ (0 : BitVec 2) ++ b1 bnd ++ b1 eos))
  | .srec _ slot shp i o eos =>
    some (0x70, packST ⟨slot, shp, 0, 0⟩ ((0 : BitVec 1) ++ i) o ((0 : BitVec 7) ++ b1 eos))
  | .sportcfg _ port t k => some (0x71, packST ⟨0, 0, 0, 0⟩ port t ((0 : BitVec 2) ++ k))
  | .sportcfgOff _ port => some (0x71, packST ⟨0, 0, 0, 0⟩ port 0 ((1 : BitVec 1) ++ (0 : BitVec 7)))
  | .sbar _ mask => some (0x80, packSY 0 0 ((0 : BitVec 4) ++ mask))
  | .fence _ pred succ scope =>
    some (0x81, packSY 0 0 ((0 : BitVec 1) ++ scope ++ (0 : BitVec 1) ++ succ ++ (0 : BitVec 1) ++ pred))
  | .swaits _ mask => some (0x82, packSY 0 0 ((0 : BitVec 4) ++ mask))
  | .sabort _ g slot => some (0x83, packSY g 0 ((0 : BitVec 16) ++ slot))
  | .ratom _ a b c d op size acq rel => some (0xC3, packEN a b c d (op ++ b1 size ++ b1 acq) ((0 : BitVec 3) ++ rel))
  | .rsig _ a b rel => some (0xC4, packEN a b 0 0 0 ((0 : BitVec 3) ++ rel))
  | .maqld _ m a b => some (0x90, packEN a b 0 0 ((0 : BitVec 4) ++ m) 0)
  | .maqgo _ m => some (0x91, packEN 0 0 0 0 ((0 : BitVec 4) ++ m) 0)
  | .maqdrn _ m => some (0x92, packEN 0 0 0 0 ((0 : BitVec 4) ++ m) 0)
  | .accsave _ k a first last => some (0x93, packEN a 0 0 0 0 (k ++ first ++ last))
  | .accload _ k a first last => some (0x94, packEN a 0 0 0 0 (k ++ first ++ last))
  | .chbind _ x a n => some (0x95, packEN a 0 0 0 ((0 : BitVec 1) ++ x) ((0 : BitVec 5) ++ n))
  | .srseed _ m a => some (0x96, packEN a 0 0 0 ((0 : BitVec 4) ++ m) 0)
  | .snap _ v a => some (0xA0, packEN a 0 0 0 ((0 : BitVec 3) ++ v) 0)
  | .unsnap _ v => some (0xA1, packEN 0 0 0 0 ((0 : BitVec 3) ++ v) 0)
  | .txbegin _ v a => some (0xA2, packEN a 0 0 0 ((0 : BitVec 3) ++ v) 0)
  | .txbeginAge _ v a => some (0xA2, packEN a 0 0 0 ((0 : BitVec 3) ++ v) 1)
  | .txclaim _ v a shp => some (0xA3, packEN a 0 0 0 ((0 : BitVec 3) ++ v) ((0 : BitVec 6) ++ shp))
  | .txcommit _ v a => some (0xA4, packEN a 0 0 0 ((0 : BitVec 3) ++ v) 0)
  | .txabort _ v => some (0xA5, packEN 0 0 0 0 ((0 : BitVec 3) ++ v) 0)
  | .txstat _ v a => some (0xA6, packEN a 0 0 0 ((0 : BitVec 3) ++ v) 0)
  | .ercfg _ a => some (0xB0, packEN a 0 0 0 0 0)
  | .ercfgOff _ => some (0xB0, packEN 0 0 0 0 0 1)
  | .erdisp _ a b c => some (0xB1, packEN a b c 0 0 0)
  | .erdispReuse _ a b c gate => some (0xB1, packEN a b c 0 0 ((0 : BitVec 8) ++ b1 gate ++ (1 : BitVec 1)))
  | .ercomb _ a b c d renorm nogate => some (0xB2, packEN a b c d 0 ((0 : BitVec 8) ++ b1 nogate ++ b1 renorm))
  | .erstat _ a => some (0xB3, packEN a 0 0 0 0 0)
  | .erdrops _ d => some (0xB4, packEN 0 0 0 d 0 0)
  | .route _ a o b mc => some (0xC0, packEN a b 0 0 ((0 : BitVec 1) ++ o) ((0 : BitVec 9) ++ b1 mc))
  | .unroute _ o => some (0xC1, packEN 0 0 0 0 ((0 : BitVec 1) ++ o) 0)
  | .owncfg _ a b c => some (0xC2, packEN a b c 0 0 0)
  | .mcjoin _ a i b => some (0xC5, packEN a b 0 0 ((0 : BitVec 1) ++ i) 0)
  | .mcjoinLeave _ a i b => some (0xC5, packEN a b 0 0 ((0 : BitVec 1) ++ i) 1)
  | .wlnew _ a b => some (0xD0, packEN a b 0 0 0 0)
  | .wlpush _ a b => some (0xD1, packEN a b 0 0 0 0)
  | .wlpop _ i a n => some (0xD2, packEN a 0 0 0 ((0 : BitVec 1) ++ i) ((0 : BitVec 4) ++ n))
  | .wlins _ a b => some (0xD3, packEN a b 0 0 0 0)
  | .wlcnt _ a b => some (0xD4, packEN a b 0 0 0 0)
  | .wlfree _ a => some (0xD5, packEN a 0 0 0 0 0)
  | .smpcfg _ a b => some (0xE0, packEN a b 0 0 0 0)
  | .smpon _ => some (0xE1, packSY 0 0 0)
  | .smpoff _ => some (0xE2, packSY 0 0 0)
  | .cntrd _ d a num clr => some (0xE3, packRI d a ((0 : BitVec 13) ++ b1 clr ++ num))
  | .mark _ m g => some (0xE4, packSY g ((0 : BitVec 9) ++ m) 0)
  | _ => none

/-- The control word of an instruction; none for what is no control word. -/
def Instr.encode? (i : Instr) : Option Dword :=
  match i.hdr?, i.code? with
  | some h, some (op, x) => some (wordOf h op x)
  | _, _ => none

/-! ### The decoder -/

/-- The instruction an OPCODE byte and OPERAND select, its RSVD bits not yet looked at; none where FUNC is unassigned. -/
def select (h : Hdr) (op : BitVec 8) (x : BitVec 36) : Option Instr :=
  let A := fld x 31 5
  let B := fld x 26 5
  let C := fld x 21 5
  let D := fld x 16 5
  let imm := fld x 0 26
  let s := stOf x
  match op.toNat with
  | 0x00 => some (.nop h)
  | 0x01 => some (.trap h (fld x 0 20))
  | 0x02 => some (.resume h A)
  | 0x03 => some (.csrr h A (fld x 0 12))
  | 0x04 => some (.csrw h A (fld x 0 12))
  | 0x05 => some (.csrx h A (fld x 0 12))
  | 0x06 => some (.codeinv h A B)
  | 0x07 => some (.yield h)
  | 0x08 => some (.brk h (fld x 0 20))
  | 0x09 => some (.freeze h A)
  | 0x0A => some (.thaw h A)
  | 0x0B => some (.launch h A B)
  | 0x10 => some (.add h A B C)
  | 0x11 => some (.sub h A B C)
  | 0x12 => some (.mul h A B C)
  | 0x13 => some (.mulh h A B C (bitOf x 8))
  | 0x14 => some (.and h A B C)
  | 0x15 => some (.or h A B C)
  | 0x16 => some (.xor h A B C)
  | 0x17 => some (.shl h A B C)
  | 0x18 => some (.shr h A B C)
  | 0x19 => some (.sar h A B C)
  | 0x1A => some (.min h A B C (bitOf x 8))
  | 0x1B => some (.max h A B C (bitOf x 8))
  | 0x1C => some (.clz h A B)
  | 0x1D => some (.popc h A B)
  | 0x1E => some (.sel h A B C D)
  | 0x1F => some (.cmp h A B C (fld x 12 4))
  | 0x20 => some (.addi h A B imm)
  | 0x21 => some (.subi h A B imm)
  | 0x22 => some (.muli h A B imm)
  | 0x23 => some (.andi h A B imm)
  | 0x24 => some (.ori h A B imm)
  | 0x25 => some (.xori h A B imm)
  | 0x26 => some (.shli h A B (fld x 0 6))
  | 0x27 => some (.shri h A B (fld x 0 6))
  | 0x28 => some (.sari h A B (fld x 0 6))
  | 0x29 => some (.mini h A B imm)
  | 0x2A => some (.maxi h A B imm)
  | 0x2B => some (.cmpi h A B (fld x 22 4) (fld x 0 22))
  | 0x2C => some (.movhi h A B imm)
  | 0x30 => some (.br h A (fld x 28 3) (fld x 0 28))
  | 0x31 => some (.brany h (fld x 31 3) (fld x 0 28))
  | 0x32 => some (.brall h (fld x 31 3) (fld x 0 28))
  | 0x33 => some (.loop h A (fld x 0 28))
  | 0x34 => some (.call h A (fld x 0 28))
  | 0x35 => some (.ret h A)
  | 0x36 => some (.pset h (fld x 31 3) B C (fld x 12 4))
  | 0x37 => some (.trig h)
  | 0x38 => some (.exit h)
  | 0x39 => some (.waite h A (bitOf x 20) (fld x 0 6))
  | 0x3A => some (.sige h A (bitOf x 20) (fld x 0 6))
  | 0x40 => some (.lds h A B imm)
  | 0x41 => some (.sts h A B imm)
  | 0x42 => some (.ldq h A B imm)
  | 0x43 => some (.stq h A B imm)
  | 0x44 => some (.ldg h A B imm)
  | 0x45 => some (.stg h A B imm)
  | 0x46 => some (.atomg h A B C D (fld x 12 4) (bitOf x 11))
  | 0x47 => some (.shape h (fld x 10 4) A B C D)
  | 0x48 => some (if bitOf x 0 then .viewldGet h (fld x 10 3) A B else .viewld h (fld x 10 3) A B)
  | 0x49 => some (.portrd h A B (fld x 0 5))
  | 0x4A => some (.portwr h A B (fld x 0 5))
  | 0x4B => some (.portspc h A B (fld x 0 6))
  | 0x50 => some (.srd h s (fld x 25 5) (bitOf x 0) (bitOf x 1) (fld x 2 2))
  | 0x51 => some (.swr h s (fld x 25 5) (bitOf x 0) (bitOf x 1) (fld x 2 2) (bitOf x 5))
  | 0x52 => some (.scp h s (fld x 25 5))
  | 0x53 => some (.sfill h s (fld x 25 5))
  | 0x54 => some (.swin h s (fld x 25 5) (fld x 2 2))
  | 0x55 => some (.smc h s (fld x 25 5) (fld x 8 4) (bitOf x 0) (bitOf x 1) (fld x 2 2))
  | 0x60 => some (.sgath h s (fld x 25 5) (fld x 8 5) (bitOf x 0) (bitOf x 1) (fld x 2 2) (bitOf x 4))
  | 0x61 => some (.sscat h s (fld x 25 5) (fld x 8 5) (bitOf x 0) (bitOf x 1) (fld x 2 2) (bitOf x 5) (bitOf x 4))
  | 0x62 => some (.sscata h s (fld x 25 5) (fld x 8 5) (fld x 5 3) (bitOf x 0) (bitOf x 1) (bitOf x 4))
  | 0x70 => some (.srec h s.slot s.shape (fld x 25 5) (fld x 8 5) (bitOf x 0))
  | 0x71 => some (if bitOf x 7 then .sportcfgOff h (fld x 25 6) else .sportcfg h (fld x 25 6) (fld x 8 5) (fld x 0 6))
  | 0x80 => some (.sbar h (fld x 0 16))
  | 0x81 => some (.fence h (fld x 0 7) (fld x 8 7) (fld x 16 3))
  | 0x82 => some (.swaits h (fld x 0 16))
  | 0x83 => some (.sabort h A (fld x 0 4))
  | 0x90 => some (.maqld h (fld x 10 2) A B)
  | 0x91 => some (.maqgo h (fld x 10 2))
  | 0x92 => some (.maqdrn h (fld x 10 2))
  | 0x93 => some (.accsave h (fld x 8 2) A (fld x 4 4) (fld x 0 4))
  | 0x94 => some (.accload h (fld x 8 2) A (fld x 4 4) (fld x 0 4))
  | 0x95 => some (.chbind h (fld x 10 5) A (fld x 0 5))
  | 0x96 => some (.srseed h (fld x 10 2) A)
  | 0xA0 => some (.snap h (fld x 10 3) A)
  | 0xA1 => some (.unsnap h (fld x 10 3))
  | 0xA2 => some (if bitOf x 0 then .txbeginAge h (fld x 10 3) A else .txbegin h (fld x 10 3) A)
  | 0xA3 => some (.txclaim h (fld x 10 3) A (fld x 0 4))
  | 0xA4 => some (.txcommit h (fld x 10 3) A)
  | 0xA5 => some (.txabort h (fld x 10 3))
  | 0xA6 => some (.txstat h (fld x 10 3) A)
  | 0xB0 => some (if bitOf x 0 then .ercfgOff h else .ercfg h A)
  | 0xB1 => some (if bitOf x 0 then .erdispReuse h A B C (bitOf x 1) else .erdisp h A B C)
  | 0xB2 => some (.ercomb h A B C D (bitOf x 0) (bitOf x 1))
  | 0xB3 => some (.erstat h A)
  | 0xB4 => some (.erdrops h D)
  | 0xC0 => some (.route h A (fld x 10 5) B (bitOf x 0))
  | 0xC1 => some (.unroute h (fld x 10 5))
  | 0xC2 => some (.owncfg h A B C)
  | 0xC3 => some (.ratom h A B C D (fld x 12 4) (bitOf x 11) (bitOf x 10) (fld x 0 7))
  | 0xC4 => some (.rsig h A B (fld x 0 7))
  | 0xC5 => some (if bitOf x 0 then .mcjoinLeave h A (fld x 10 5) B else .mcjoin h A (fld x 10 5) B)
  | 0xD0 => some (.wlnew h A B)
  | 0xD1 => some (.wlpush h A B)
  | 0xD2 => some (.wlpop h (fld x 10 5) A (fld x 0 6))
  | 0xD3 => some (.wlins h A B)
  | 0xD4 => some (.wlcnt h A B)
  | 0xD5 => some (.wlfree h A)
  | 0xE0 => some (.smpcfg h A B)
  | 0xE1 => some (.smpon h)
  | 0xE2 => some (.smpoff h)
  | 0xE3 => some (.cntrd h A B (fld x 0 12) (bitOf x 12))
  | 0xE4 => some (.mark h (fld x 20 2) A)
  | _ => none

/-- The decoder of control words: R43's rows in order. A RSVD bit is one whose value the selected instruction's encoding
does not leave at zero, so the word must be the encoding of what it selects. -/
def decodeControl (w : Dword) : Except Reject Instr :=
  if w.extractLsb' 40 4 = (0xF : BitVec 4) then .error .reservedGroup
  else match select (hdrOf w) (opcodeOf w) (operandOf w) with
    | none => .error .unassignedFunction
    | some i =>
      if w.getLsbD 47 && w.extractLsb' 44 3 == (0 : BitVec 3) then .error .negatedP0
      else if !i.hdrOk then .error .badMode
      else if i.encode? ≠ some w then .error .reservedBits
      else if !i.fieldsOk then .error .fieldRange
      else .ok i

/-! ### Host commands (R387) -/

/-- The command of an OP byte; a reserved OP gives RESERVED_OP_COMMAND (R388, R408, R433, R438). -/
def commandOf (op : BitVec 8) (c : Cmd) : Instr :=
  match op.toNat with
  | 0x01 => .jobCreate c
  | 0x02 => .jobKill c
  | 0x03 => .setPartition c
  | 0x04 => .setShared c
  | 0x05 => .setJobreg c
  | 0x06 => .invalidate c
  | 0x07 => .queueSet c
  | 0x08 => .queueReset c
  | 0x09 => .domainSet c
  | 0x0A => .mqSet c
  | 0x0B => .freezeCmd c
  | 0x0C => .thawCmd c
  | 0x0D => .aperture c
  | 0x0E => .scrub c
  | 0x0F => .torusSet c
  | 0x10 => .linkTrain c
  | 0x11 => .ethKey c
  | 0x12 => .ethQp c
  | 0x13 => .attest c
  | 0x14 => .ctxPool c
  | 0x15 => .cast c
  | 0x16 => .restore c
  | 0x17 => .lifetime c
  | 0x18 => .power c
  | 0x19 => .fwLoad c
  | _ => .reservedOpCommand op c

/-- OP and command of a host-command instruction. -/
def Instr.command? : Instr → Option (BitVec 8 × Cmd)
  | .jobCreate c => some (0x01, c)
  | .jobKill c => some (0x02, c)
  | .setPartition c => some (0x03, c)
  | .setShared c => some (0x04, c)
  | .setJobreg c => some (0x05, c)
  | .invalidate c => some (0x06, c)
  | .queueSet c => some (0x07, c)
  | .queueReset c => some (0x08, c)
  | .domainSet c => some (0x09, c)
  | .mqSet c => some (0x0A, c)
  | .freezeCmd c => some (0x0B, c)
  | .thawCmd c => some (0x0C, c)
  | .aperture c => some (0x0D, c)
  | .scrub c => some (0x0E, c)
  | .torusSet c => some (0x0F, c)
  | .linkTrain c => some (0x10, c)
  | .ethKey c => some (0x11, c)
  | .ethQp c => some (0x12, c)
  | .attest c => some (0x13, c)
  | .ctxPool c => some (0x14, c)
  | .cast c => some (0x15, c)
  | .restore c => some (0x16, c)
  | .lifetime c => some (0x17, c)
  | .power c => some (0x18, c)
  | .fwLoad c => some (0x19, c)
  | .reservedOpCommand op c => some (op, c)
  | _ => none

/-- The command in the eight doublewords written to the command window. -/
def decodeCommand (d0 d1 d2 d3 d4 d5 d6 d7 : Dword) : Instr :=
  commandOf (d0.extractLsb' 0 8)
    { tag := d0.extractLsb' 32 32, rsvd := d0.extractLsb' 16 16, job := d0.extractLsb' 8 8,
      d1 := d1, d2 := d2, d3 := d3, d4 := d4, d5 := d5, d6 := d6, d7 := d7 }

/-- The doublewords of an instruction: one for a control word, eight for a host command, none for an event. -/
def Instr.encode (i : Instr) : List Dword :=
  match i.encode?, i.command? with
  | some w, _ => [w]
  | none, some (op, c) => [c.tag ++ c.rsvd ++ c.job ++ op, c.d1, c.d2, c.d3, c.d4, c.d5, c.d6, c.d7]
  | none, none => []

/-- Decoding doublewords: one is a control word, eight are a host command. -/
def decodeDwords : List Dword → Except Reject Instr
  | [w] => decodeControl w
  | [d0, d1, d2, d3, d4, d5, d6, d7] => .ok (decodeCommand d0 d1 d2 d3 d4 d5 d6 d7)
  | _ => .error .tooShort

/-! ### Bytes -/

/-- A little-endian number from bytes, the lowest address first (R18, R28). -/
def leNat : List Byte → Nat
  | [] => 0
  | b :: rest => b.toNat + 256 * leNat rest

/-- The k bytes of a number, little-endian. -/
def leBytes (n : Nat) : Nat → List Byte
  | 0 => []
  | k + 1 => BitVec.ofNat 8 n :: leBytes (n / 256) k

/-- Decoding bytes as the control core fetches them: the control word in the first eight and the bytes that follow. -/
def decodeBytes (bs : List Byte) : Except Reject (Instr × List Byte) :=
  if bs.length < 8 then .error .tooShort
  else match decodeControl (BitVec.ofNat 64 (leNat (bs.take 8))) with
    | .ok i => .ok (i, bs.drop 8)
    | .error r => .error r

/-- The instruction of a word numbered as the opcode table numbers it: up to 64 bits a control word, up to 512 a host
command; the bits above nbits are zero. -/
def decodeTableWord (nbits w : Nat) : Option Instr :=
  let v := w % 2 ^ nbits
  if nbits ≤ 64 then
    match decodeBytes (leBytes v 8) with
    | .ok (i, _) => some i
    | .error _ => none
  else if nbits ≤ 512 then
    let d (k : Nat) : Dword := BitVec.ofNat 64 (v / 2 ^ (64 * k))
    some (decodeCommand (d 0) (d 1) (d 2) (d 3) (d 4) (d 5) (d 6) (d 7))
  else none

end Sys2Proof
end

