-- ==== Sys2Proof/Machine/Memory.lean ====
section
/-! DEFINITION. Memory: the named operations over bytes, the three spaces, translation and the checks of an access (R16–R18, R182–R186, R367–R373, R406). -/

namespace Sys2Proof.Machine

/-! ### Bytes -/

/-- The byte at an address; an unlisted one reads zero. (DESIGN CHOICE: log entry 1) -/
def Memory.read (m : Memory) (a : Nat) : Byte := (Tab.find m.cells a).getD 0

/-- One byte written; a zero is not listed. (DESIGN CHOICE: log entry 1) -/
def Memory.write (m : Memory) (a : Nat) (b : Byte) : Memory :=
  { m with cells := if b = 0 then Tab.del m.cells a else Tab.put m.cells a b }

/-- The n bytes from an address up. -/
def Memory.readBytes (m : Memory) (a : Nat) : Nat → List Byte
  | 0 => []
  | n + 1 => m.read a :: m.readBytes (a + 1) n

/-- Bytes stored one by one from an address up, poison left as it is. -/
def Memory.storeBytes (m : Memory) (a : Nat) : List Byte → Memory
  | [] => m
  | b :: rest => (m.write a b).storeBytes (a + 1) rest

/-- A write: its bytes are stored, and a line it covers whole is no longer poisoned (R406). -/
def Memory.writeBytes (m : Memory) (a : Nat) (bs : List Byte) : Memory :=
  { m.storeBytes a bs with bad := m.bad.filter fun l => !(decide (a ≤ 128 * l) && decide (128 * l + 128 ≤ a + bs.length)) }

/-- Whether one of the n bytes at an address lies in a poisoned line (R406). -/
def Memory.poisoned (m : Memory) (a n : Nat) : Bool :=
  m.bad.any fun l => decide (128 * l < a + n) && decide (a < 128 * l + 128)

/-- A line poisoned (R405, R406). -/
def Memory.poison (m : Memory) (l : Nat) : Memory :=
  { m with bad := if m.bad.contains l then m.bad else m.bad ++ [l] }

/-- The canonical form: addresses strictly rising, no zero listed. -/
abbrev Memory.wf (m : Memory) : Prop := Tab.Sorted m.cells ∧ ∀ c ∈ m.cells, c.2 ≠ 0

/-- The little-endian doubleword at an address. -/
def Memory.read64 (m : Memory) (a : Nat) : Dword := BitVec.ofNat 64 (leNat (m.readBytes a 8))

/-- Bytes of a bit vector, the lowest address first. -/
def bytesOf {w : Nat} (v : BitVec w) : List Byte := leBytes v.toNat (w / 8)

/-- A number from bytes as a bit vector. -/
def bvOf (w : Nat) (bs : List Byte) : BitVec w := BitVec.ofNat w (leNat bs)

/-! ### The memories of the machine -/

/-- Which memory holds a byte. -/
inductive MemId where
  | tile (t : Nat)
  | sram
  | hbm
deriving DecidableEq, Repr

/-- A byte address in one of the memories, and the domain of a versioned page (R252). -/
structure Place where
  mem : MemId
  addr : Nat
  ver : Option Nat
deriving DecidableEq, Repr

/-- A tile; one never touched stands as after reset. -/
def State.tile (s : State) (t : Nat) : Tile := (s.tiles.find t).getD Tile.reset

/-- A tile replaced. -/
def State.setTile (s : State) (t : Nat) (x : Tile) : State := { s with tiles := s.tiles.put t x }

/-- A tile changed. -/
def State.updTile (s : State) (t : Nat) (g : Tile → Tile) : State := s.setTile t (g (s.tile t))

/-- One of the memories. -/
def State.mem (s : State) : MemId → Memory
  | .tile t => (s.tile t).mem
  | .sram => s.sram
  | .hbm => s.hbm

/-- One of the memories replaced. -/
def State.setMem (s : State) (k : MemId) (m : Memory) : State :=
  match k with
  | .tile t => s.updTile t fun x => { x with mem := m }
  | .sram => { s with sram := m }
  | .hbm => { s with hbm := m }

/-- The n bytes at a place. -/
def State.bytesAt (s : State) (p : Place) (n : Nat) : List Byte := (s.mem p.mem).readBytes p.addr n

/-- Bytes written at a place. -/
def State.putBytes (s : State) (p : Place) (bs : List Byte) : State :=
  s.setMem p.mem ((s.mem p.mem).writeBytes p.addr bs)

/-- Whether a byte of the n at a place is poisoned. -/
def State.badAt (s : State) (p : Place) (n : Nat) : Bool := (s.mem p.mem).poisoned p.addr n

/-! ### Trap causes (R392) -/

abbrev Cause := BitVec 8
def causeIllegal : Cause := 0x01
def causePrivileged : Cause := 0x02
def causeMisaligned : Cause := 0x03
def causeBounds : Cause := 0x04
def causeTranslation : Cause := 0x05
def causeProtection : Cause := 0x06
def causeWaitTimeout : Cause := 0x07
def causeStreamFault : Cause := 0x08
def causePoison : Cause := 0x09
def causeMaquette : Cause := 0x0A
def causeSnapshot : Cause := 0x0B
def causeRouting : Cause := 0x0C
def causeFabric : Cause := 0x0D
def causeWorklist : Cause := 0x0E
def causeBreakpoint : Cause := 0x0F
def causeTrapInstr : Cause := 0x10
def causeMachineCheck : Cause := 0x1F

/-- Why an access fails: its cause, and whether it freezes its master (R376). -/
structure Viol where
  cause : Cause
  freeze : Bool
deriving DecidableEq, Repr

/-! ### Address forms (R17) -/

/-- SPACE of an address form. -/
def formSpace (f : Dword) : BitVec 2 := f.extractLsb' 62 2
/-- RSVD of an address form. -/
def formRsvd (f : Dword) : BitVec 7 := f.extractLsb' 55 7
/-- ADDR of an address form. -/
def formAddr (f : Dword) : Nat := (f.extractLsb' 0 55).toNat
/-- An address form of a space and an address. -/
def mkForm (space : BitVec 2) (a : Nat) : Dword := (space ++ (0 : BitVec 62)) ||| BitVec.ofNat 64 (a % 2 ^ 55)
/-- SPACE codes. -/
def spLocal : BitVec 2 := 0
def spShared : BitVec 2 := 1
def spGlobal : BitVec 2 := 2

/-! ### Translation (R370–R373) -/

/-- The kinds of access R373 tells apart. -/
inductive Access where
  | read | write | atomic | fetch | aperture
deriving DecidableEq, Repr

/-- A job of this module, if it exists. -/
def State.job? (s : State) (j : Nat) : Option Job := s.jobs.find j

/-- Whether a leaf's R, W and X bits allow an access (R373). -/
def leafAllows (e : Dword) : Access → Bool
  | .read => e.getLsbD 60
  | .write => e.getLsbD 59
  | .atomic => e.getLsbD 60 && e.getLsbD 59
  | .fetch => e.getLsbD 58
  | .aperture => true

/-- A valid leaf at a level: the page's physical address, its domain if versioned, and its size. -/
def leafOf (s : State) (job : Nat) (lvl : Nat) (e : Dword) : Option (Nat × Option Nat × Nat) :=
  let pa := (e.extractLsb' 16 36).toNat * 65536
  let dom := (e.extractLsb' 0 6).toNat
  let ver := e.getLsbD 57
  if lvl = 1 then none
  else if lvl = 2 ∧ e.extractLsb' 16 13 ≠ (0 : BitVec 13) then none
  else if e.extractLsb' 40 2 ≠ (0 : BitVec 2) then none
  else if !ver ∧ dom ≠ 0 then none
  else if ver ∧ (s.domains.find (64 * job + dom)).isNone then none
  else some (pa, if ver then some dom else none, if lvl = 2 then 2 ^ 29 else 2 ^ 16)

/-- The walk of R372 from a table at a level, with the levels still to go. -/
def walk (s : State) (job : Nat) (va : Nat) (k : Access) : Nat → Nat → Nat → Except Viol (Place × Nat)
  | 0, _, _ => .error ⟨causeTranslation, false⟩
  | n + 1, lvl, t =>
    let idx := va / 2 ^ (55 - 13 * lvl) % 8192
    let e := s.hbm.read64 (t + 8 * idx)
    if !e.getLsbD 63 || e.getLsbD 62 || e.extractLsb' 52 5 ≠ (0 : BitVec 5) || e.extractLsb' 6 10 ≠ (0 : BitVec 10) then
      .error ⟨causeTranslation, false⟩
    else if !e.getLsbD 61 then
      if lvl = 3 || e.extractLsb' 57 4 ≠ (0 : BitVec 4) || e.extractLsb' 0 6 ≠ (0 : BitVec 6)
          || e.extractLsb' 42 10 ≠ s.moduleId then .error ⟨causeTranslation, false⟩
      else walk s job va k n (lvl + 1) ((e.extractLsb' 16 36).toNat * 65536)
    else match leafOf s job lvl e with
      | none => .error ⟨causeTranslation, false⟩
      | some (pa, ver, size) =>
        if !leafAllows e k then .error ⟨causeProtection, true⟩
        else .ok (⟨.hbm, pa + va % size, ver⟩, size)

/-- The entries of a table that are not zero, by their index. -/
def tableEntries (m : Memory) (t : Nat) : List Nat :=
  (m.cells.foldl (init := []) fun l c =>
    if c.1 < t ∨ t + 65536 ≤ c.1 ∨ l.head? = some ((c.1 - t) / 8) then l else (c.1 - t) / 8 :: l).reverse

/-- The versioned pages of a domain of a job under a table at a level, with the levels still to go: physical start and size
(R252, R372). -/
def versionedUnder (s : State) (job dom : Nat) : Nat → Nat → Nat → List (Nat × Nat)
  | 0, _, _ => []
  | n + 1, lvl, t =>
    (tableEntries s.hbm t).flatMap fun i =>
      let e := s.hbm.read64 (t + 8 * i)
      if !e.getLsbD 63 || e.getLsbD 62 || e.extractLsb' 52 5 ≠ (0 : BitVec 5) || e.extractLsb' 6 10 ≠ (0 : BitVec 10) then []
      else if !e.getLsbD 61 then
        if lvl = 3 || e.extractLsb' 57 4 ≠ (0 : BitVec 4) || e.extractLsb' 0 6 ≠ (0 : BitVec 6)
            || e.extractLsb' 42 10 ≠ s.moduleId then []
        else versionedUnder s job dom n (lvl + 1) ((e.extractLsb' 16 36).toNat * 65536)
      else match leafOf s job lvl e with
        | some (pa, some d, size) => if d = dom then [(pa, size)] else []
        | _ => []

/-- The versioned pages of a domain of a job, as the job's tables on this module map them. -/
def versionedPages (s : State) (job dom : Nat) : List (Nat × Nat) :=
  match s.job? job with
  | none => []
  | some j => versionedUnder s job dom 3 1 j.troot.toNat

/-- The translation of a GLOBAL address of a job for an access, with the size of its page (R372). -/
def translatePage (s : State) (job : Nat) (va : Nat) (k : Access) : Except Viol (Place × Nat) :=
  match s.job? job with
  | none => .error ⟨causeTranslation, false⟩
  | some j => walk s job va k 3 1 j.troot.toNat

/-- The translation of a GLOBAL address of a job for an access (R372). (DEDUCED: log entry 22) -/
def translate (s : State) (job : Nat) (va : Nat) (k : Access) : Except Viol Place :=
  match translatePage s job va k with
  | .ok p => .ok p.1
  | .error e => .error e

/-! ### Modules (R350, R351, R367) -/

/-- Torus coordinates of a module id. -/
def coords (m : Nat) : Nat × Nat × Nat := (m % 16, m / 16 % 8, m / 128)

/-- Whether a module id lies inside the grid of the torus. -/
def State.inGrid (s : State) (m : Nat) : Bool :=
  decide ((coords m).1 < s.torus.1) && decide ((coords m).2.1 < s.torus.2.1) && decide ((coords m).2.2 < s.torus.2.2)

/-- The step a ring of n positions takes from x to y: none when there, else whether it goes up (R354). -/
def ringDir (n x y : Nat) : Option Bool :=
  let d := (y + n - x) % n
  if d = 0 then none else some (decide (d ≤ n - d))

/-- The first torus direction toward a module, in the order A−, A+, B−, B+, C−, C+ (R350, R354). -/
def State.firstDir (s : State) (m : Nat) : Option Nat :=
  let h := coords s.moduleId.toNat
  let t := coords m
  match ringDir s.torus.1 h.1 t.1, ringDir s.torus.2.1 h.2.1 t.2.1, ringDir s.torus.2.2 h.2.2 t.2.2 with
  | some up, _, _ => some (if up then 1 else 0)
  | none, some up, _ => some (if up then 3 else 2)
  | none, none, some up => some (if up then 5 else 4)
  | none, none, none => none

/-- Whether a UALink port carries traffic: trained, not failed and not lost (R351, R352). -/
def State.portLive (s : State) (p : Nat) : Bool :=
  s.portsTrained.contains p && !s.portsFailed.contains p && !s.portsLost.contains p

/-- The port a source tile uses in a direction: port (s mod 4) of its four, or the next live one (R354). -/
def State.portFor (s : State) (dir tile : Nat) : Option Nat :=
  ((List.range 4).map fun k => 4 * dir + (tile + k) % 4).find? s.portLive

/-- Whether a module can be reached from here (R223, R264, R354). (DESIGN CHOICE: log entry 8) -/
def State.reachable (s : State) (m : Nat) : Bool :=
  m == s.moduleId.toNat || (match s.firstDir m with
    | some d => (s.portFor d 0).isSome
    | none => false)

/-- Whether a module id lies in a module set: the box a0–a1, b0–b1, c0–c1. -/
def inBox (b : BitVec 20) (m : Nat) : Bool :=
  let f (lo n : Nat) : Nat := (b.extractLsb' lo n).toNat
  decide (f 0 4 ≤ (coords m).1) && decide ((coords m).1 ≤ f 4 4) &&
    decide (f 8 3 ≤ (coords m).2.1) && decide ((coords m).2.1 ≤ f 11 3) &&
    decide (f 14 3 ≤ (coords m).2.2) && decide ((coords m).2.2 ≤ f 17 3)

/-- Whether an access of a job may name a module: this one, or one of its module set inside the grid. -/
def State.jobModule (s : State) (job m : Nat) : Bool :=
  m == s.moduleId.toNat || (s.inGrid m && (match s.job? job with
    | some j => inBox j.mbox m
    | none => false))

/-- The pseudo-channel of a line (R186). -/
def channelOf (line : Nat) : Nat :=
  let l := line % 2 ^ 33
  Nat.xor (Nat.xor (l % 8192) (l / 8192 % 8192)) (l / 2 ^ 26)

/-! ### The checks of an access -/

/-- Bank and byte of a SHARED offset (R184), as one address: bank·2^20 + byte. -/
def sharedPlace (j : Job) (o : Nat) : Nat :=
  let nb := j.banks.length
  let line := o / 128
  (j.banks[line % nb]?.getD 0) * 2 ^ 20 + (line / nb) * 128 + o % 128

/-- The rows of R17 from the third on, for z bytes at a. (DEDUCED: log entry 21) -/
def spaceCheck (s : State) (job tile : Nat) (space : BitVec 2) (a z : Nat) (k : Access) : Except Viol Place :=
  if space = spLocal then
    if 2 ^ 19 < a + z then .error ⟨causeBounds, false⟩ else .ok ⟨.tile tile, a, none⟩
  else if space = spShared then
    match s.job? job with
    | none => .error ⟨causeBounds, true⟩
    | some j =>
      if 2 ^ 29 ≤ a then .error ⟨causeBounds, true⟩
      else if j.banks.length * 2 ^ 20 < a + z then .error ⟨causeBounds, true⟩
      else .ok ⟨.sram, sharedPlace j a, none⟩
  else
    match translate s job a k with
    | .error e => .error e
    | .ok p =>
      if !s.jobModule job (p.addr / 2 ^ 42) then .error ⟨causeProtection, true⟩
      else if k = .atomic ∧ p.ver.isSome then .error ⟨causeProtection, false⟩
      else .ok p

/-- The first two rows of R17. -/
def formCheck (f : Dword) : Option Viol :=
  if formSpace f = 3 then some ⟨causeProtection, false⟩
  else if formRsvd f ≠ 0 then some ⟨causeBounds, false⟩
  else none

/-- The check of an element of z bytes at the exact address a under an address form (R182). -/
def elementCheck (s : State) (job tile : Nat) (f : Dword) (a : Int) (z : Nat) (k : Access) : Except Viol Place :=
  match formCheck f with
  | some v => .error v
  | none =>
    if a < 0 ∨ a + z > 2 ^ 55 then
      .error ⟨if formSpace f = spGlobal then causeTranslation else causeBounds, false⟩
    else if a.toNat % z ≠ 0 then .error ⟨causeMisaligned, false⟩
    else spaceCheck s job tile (formSpace f) a.toNat z k

/-- The places of n bytes in a row from an address form, cut at lines (R17, R182); the first failing line decides. -/
def rangeCheck (s : State) (job tile : Nat) (f : Dword) (a : Nat) (k : Access) : Nat → Nat → Except Viol (List (Place × Nat))
  | _, 0 => .ok []
  | n, fuel + 1 =>
    if n = 0 then .ok []
    else
      let z := min n (128 - a % 128)
      match formCheck f with
      | some v => .error v
      | none =>
        if a + z > 2 ^ 55 then .error ⟨if formSpace f = spGlobal then causeTranslation else causeBounds, false⟩
        else match spaceCheck s job tile (formSpace f) a z k with
          | .error e => .error e
          | .ok p =>
            match rangeCheck s job tile f (a + z) k (n - z) fuel with
            | .error e => .error e
            | .ok ps => .ok ((p, z) :: ps)

/-- The places of n bytes from an address form. -/
def rangeOf (s : State) (job tile : Nat) (f : Dword) (n : Nat) (k : Access) : Except Viol (List (Place × Nat)) :=
  rangeCheck s job tile f (formAddr f) k n (n / 128 + 2)

/-- The bytes of places. -/
def State.gather (s : State) (ps : List (Place × Nat)) : List Byte := ps.flatMap fun (p, z) => s.bytesAt p z

/-- Whether any of the bytes of places is poisoned. -/
def State.anyBad (s : State) (ps : List (Place × Nat)) : Bool := ps.any fun (p, z) => s.badAt p z

/-- Bytes written over places, in order. -/
def State.scatter (s : State) : List (Place × Nat) → List Byte → State
  | [], _ => s
  | (p, z) :: ps, bs => (s.putBytes p (bs.take z)).scatter ps (bs.drop z)

end Sys2Proof.Machine
end

