-- ==== Sys2Proof/Machine/Operands.lean ====
section
/-! DEFINITION. Operands: the registers a word reads and writes, register files, shapes, bounds, views and the element walk (R33–R46, R175–R182, R195, R209, R221). -/

namespace Sys2Proof

/-! ### Which registers a word reads and writes (R195, R303) -/

/-- d to d + 3. -/
def regs4 (d : Reg) : List Reg := [d, d + 1, d + 2, d + 3]

/-- The g registers a word reads or writes on a station. -/
def Instr.regs : Instr → List Reg
  | .resume _ a | .freeze _ a | .thaw _ a => [a]
  | .csrr _ g _ | .csrw _ g _ | .csrx _ g _ => [g]
  | .codeinv _ a b | .launch _ a b => [a, b]
  | .add _ d a b | .sub _ d a b | .mul _ d a b | .mulh _ d a b _ | .and _ d a b | .or _ d a b | .xor _ d a b
  | .shl _ d a b | .shr _ d a b | .sar _ d a b | .min _ d a b _ | .max _ d a b _ | .cmp _ d a b _ => [d, a, b]
  | .clz _ d a | .popc _ d a => [d, a]
  | .sel _ d a b c => [d, a, b, c]
  | .addi _ d a _ | .subi _ d a _ | .muli _ d a _ | .andi _ d a _ | .ori _ d a _ | .xori _ d a _ | .shli _ d a _
  | .shri _ d a _ | .sari _ d a _ | .mini _ d a _ | .maxi _ d a _ | .cmpi _ d a _ _ | .movhi _ d a _ => [d, a]
  | .br _ c kind _ => if kind = 3 ∨ kind = 4 then [c] else []
  | .loop _ c _ | .call _ c _ | .ret _ c => [c]
  | .pset _ _ a b c => if c.toNat ≤ 9 ∨ c.toNat = 14 then [a, b] else []
  | .waite _ g _ _ | .sige _ g _ _ => [g]
  | .lds _ d a _ | .sts _ d a _ | .ldg _ d a _ | .stg _ d a _ => [d, a]
  | .ldq _ d a _ | .stq _ d a _ => a :: regs4 d
  | .atomg _ d a b c op _ => if op = 1 then [d, a, b, c] else [d, a, b]
  | .shape _ _ a b c d => [a, b, c, d]
  | .viewld _ _ a b | .viewldGet _ _ a b => [a, b]
  | .portrd _ d a _ | .portwr _ d a _ | .portspc _ d a _ => [d, a]
  | .srd _ s _ _ _ w | .swr _ s _ _ _ w _ | .swin _ s _ w | .smc _ s _ _ _ _ w | .sgath _ s _ _ _ _ w _
  | .sscat _ s _ _ _ _ w _ _ => if w = 0 then [s.base] else [s.base, s.base + 1]
  | .sscata _ s _ _ _ _ _ _ => [s.base]
  | .scp _ s d | .sfill _ s d => [s.base, d]
  | .sabort _ g _ => [g]
  | .ratom _ a b c d op _ _ _ => if op = 1 then [a, b, c, d] else [a, b, c]
  | .rsig _ a b _ => [a, b]
  | .maqld _ _ a b => [a, b]
  | .accsave _ _ a _ _ | .accload _ _ a _ _ | .chbind _ _ a _ | .srseed _ _ a => [a]
  | .snap _ _ a | .txbegin _ _ a | .txbeginAge _ _ a | .txclaim _ _ a _ | .txcommit _ _ a | .txstat _ _ a => [a]
  | .ercfg _ a | .erstat _ a => [a]
  | .erdisp _ a b c | .erdispReuse _ a b c _ => [a, b, c]
  | .ercomb _ a b c d _ _ => [a, b, c, d]
  | .erdrops _ d => [d]
  | .route _ a _ b _ | .mcjoin _ a _ b | .mcjoinLeave _ a _ b => [a, b]
  | .owncfg _ a b c => [a, b, c]
  | .wlnew _ a b | .wlpush _ a b | .wlins _ a b | .wlcnt _ a b => [a, b]
  | .wlpop _ _ a _ | .wlfree _ a => [a]
  | .smpcfg _ a b => [a, b]
  | .cntrd _ d a _ _ => [d, a]
  | .mark _ _ g => [g]
  | _ => []

/-- The g registers a word reads or writes on a station that is not the head: of a word decided at the head, only those its entry
lets every station read or write (R298, R311). -/
def Instr.regsAway (i : Instr) : List Reg :=
  match i with
  | .br .. | .ret .. | .resume .. | .codeinv .. | .freeze .. | .thaw .. | .smpcfg .. => []
  | .snap .. | .txbegin .. | .txbeginAge .. | .ercfg .. | .erdisp .. | .erdispReuse .. | .erstat .. => []
  | .ercomb _ _ _ _ d _ _ => [d]
  | i => i.regs

/-- The v registers a word reads or writes on a station (R202, R270). -/
def Instr.viewsUsed : Instr → List (BitVec 3)
  | .launch .. | .ldg .. | .stg .. => [0]
  | .viewld _ x _ _ | .viewldGet _ x _ _ => [x]
  | .srd _ s _ _ _ _ | .swr _ s _ _ _ _ _ | .scp _ s _ | .sfill _ s _ | .swin _ s _ _ | .smc _ s _ _ _ _ _
  | .sgath _ s _ _ _ _ _ _ | .sscat _ s _ _ _ _ _ _ _ | .sscata _ s _ _ _ _ _ _ => [s.view]
  | .snap _ v _ | .unsnap _ v | .txbegin _ v _ | .txbeginAge _ v _ | .txclaim _ v _ _ | .txcommit _ v _ | .txabort _ v
  | .txstat _ v _ => [v]
  | _ => []

/-- The stream slot a word names (R174). -/
def Instr.namedSlot : Instr → Option (BitVec 4)
  | .srd _ s _ _ _ _ | .swr _ s _ _ _ _ _ | .scp _ s _ | .sfill _ s _ | .swin _ s _ _ | .smc _ s _ _ _ _ _
  | .sgath _ s _ _ _ _ _ _ | .sscat _ s _ _ _ _ _ _ _ | .sscata _ s _ _ _ _ _ _ => some s.slot
  | .srec _ k _ _ _ _ => some k
  | _ => none

/-- Whether a word takes the lowest IDLE slot (R195, R248, R249). -/
def Instr.takesSlot : Instr → Bool
  | .ldg .. | .stg .. | .atomg .. | .ratom .. | .rsig .. => true
  | _ => false

/-- Whether a word is decided at the head (R298). -/
def Instr.headDecided : Instr → Bool
  | .br .. | .brany .. | .brall .. | .loop .. | .call .. | .ret .. | .exit .. => true
  | .trap .. | .resume .. | .codeinv .. | .yield .. | .freeze .. | .thaw .. => true
  | .smpcfg .. | .smpon .. | .smpoff .. => true
  | .snap .. | .unsnap .. | .txbegin .. | .txbeginAge .. | .txcommit .. | .txabort .. | .txstat .. => true
  | .ercfg .. | .ercfgOff .. | .erdisp .. | .erdispReuse .. | .ercomb .. | .erstat .. | .erdrops .. => true
  | _ => false

/-- Whether a word's request is sent by the head and its result given to every station (R270, R277, R324, R385). -/
def Instr.asksHead : Instr → Bool
  | .freeze .. | .thaw .. | .smpcfg .. | .smpoff .. => true
  | .snap .. | .unsnap .. | .txbegin .. | .txbeginAge .. | .txcommit .. | .txabort .. | .txstat .. => true
  | .ercfg .. | .ercfgOff .. | .erdisp .. | .erdispReuse .. | .ercomb .. | .erstat .. | .erdrops .. => true
  | _ => false

end Sys2Proof

namespace Sys2Proof.Machine

/-! ### Register files of a station -/

/-- g[r]; g0 reads zero (R24). -/
def Station.rg (x : Station) (r : Reg) : Dword := if r = 0 then 0 else x.g[r.toNat]'(r.isLt)
/-- g[r] written; a write to g0 is dropped (R24). -/
def Station.setG (x : Station) (r : Reg) (v : Dword) : Station :=
  if r = 0 then x else { x with g := x.g.set r.toNat v r.isLt }
/-- p[k]; p0 reads 1 (R24). -/
def Station.rp (x : Station) (k : BitVec 3) : Bool := if k = 0 then true else x.p[k.toNat]'(k.isLt)
/-- p[k] written; a write to p0 is dropped (R24). -/
def Station.setP (x : Station) (k : BitVec 3) (b : Bool) : Station :=
  if k = 0 then x else { x with p := x.p.set k.toNat b k.isLt }
/-- h[k]. -/
def Station.rh (x : Station) (k : BitVec 4) : Shape := x.shapes[k.toNat]'(k.isLt)
/-- h[k] written. -/
def Station.setH (x : Station) (k : BitVec 4) (v : Shape) : Station := { x with shapes := x.shapes.set k.toNat v k.isLt }
/-- v[k]. -/
def Station.rv (x : Station) (k : BitVec 3) : View := x.views[k.toNat]'(k.isLt)
/-- v[k] written. -/
def Station.setV (x : Station) (k : BitVec 3) (v : View) : Station := { x with views := x.views.set k.toNat v k.isLt }
/-- QUANT[k]. -/
def Station.rq (x : Station) (k : BitVec 6) : Word := x.quant[k.toNat]'(k.isLt)
/-- QUANT[k] written. -/
def Station.setQ (x : Station) (k : BitVec 6) (v : Word) : Station := { x with quant := x.quant.set k.toNat v k.isLt }
/-- Slot s[k]. -/
def Station.slot (x : Station) (k : BitVec 4) : Slot := x.slots[k.toNat]'(k.isLt)
/-- Slot s[k] replaced; a freeze of the slot stands whatever it holds (R378). -/
def Station.setSlot (x : Station) (k : BitVec 4) (v : Slot) : Station :=
  { x with slots := x.slots.set k.toNat { v with frozen := (x.slot k).frozen } k.isLt }
/-- Slot s[k] frozen or thawed. (DEDUCED: log entry 60) -/
def Station.freezeSlot (x : Station) (k : BitVec 4) (b : Bool) : Station :=
  { x with slots := x.slots.set k.toNat { x.slot k with frozen := b } k.isLt }
/-- The lowest-numbered IDLE slot (R195). -/
def Station.freeSlot (x : Station) : Option (BitVec 4) :=
  (List.range 16).findSome? fun k => if (x.slot (BitVec.ofNat 4 k)).state = .idle then some (BitVec.ofNat 4 k) else none

/-- Whether the predicate selects the station (R29). -/
def Station.selected (x : Station) (h : Hdr) : Bool := x.rp h.pred != h.neg

/-! ### Shapes, bounds and the element walk (R175–R180) -/

/-- EXTENT_d. -/
def Shape.extent (h : Shape) (d : Fin 4) : Nat := (h[d].extractLsb' 44 20).toNat
/-- STRIDE_d. -/
def Shape.stride (h : Shape) (d : Fin 4) : Int := (h[d].extractLsb' 4 40).toInt
/-- ESIZE. -/
def Shape.esize (h : Shape) : Nat := (h[(0 : Fin 4)].extractLsb' 0 4).toNat
/-- The element size S. -/
def Shape.size (h : Shape) : Nat := 2 ^ h.esize
/-- N = EXTENT_0 × EXTENT_1 × EXTENT_2 × EXTENT_3 (R177). -/
def Shape.count (h : Shape) : Nat := h.extent 0 * h.extent 1 * h.extent 2 * h.extent 3
/-- ESIZE not reserved, RSVD fields zero (R176). -/
def Shape.plain (h : Shape) : Bool :=
  decide (h.esize ≤ 4) && h[(1 : Fin 4)].extractLsb' 0 4 == (0 : BitVec 4) &&
    h[(2 : Fin 4)].extractLsb' 0 4 == (0 : BitVec 4) && h[(3 : Fin 4)].extractLsb' 0 4 == (0 : BitVec 4)
/-- ORIGIN_d of a bounds shape (R178). -/
def Shape.origin (h : Shape) (d : Fin 4) : Int := (h[d].extractLsb' 24 24).toInt
/-- LIMIT_d of a bounds shape. -/
def Shape.limit (h : Shape) (d : Fin 4) : Nat := (h[d].extractLsb' 0 24).toNat
/-- RSVD fields of a bounds shape zero. -/
def Shape.boundsPlain (h : Shape) : Bool :=
  h[(2 : Fin 4)].extractLsb' 48 16 == (0 : BitVec 16) && h[(3 : Fin 4)].extractLsb' 48 16 == (0 : BitVec 16)
/-- PAD. -/
def Shape.pad (h : Shape) : BitVec 32 :=
  (h[(1 : Fin 4)].extractLsb' 48 16 : BitVec 16) ++ (h[(0 : Fin 4)].extractLsb' 48 16 : BitVec 16)
/-- The bytes of a pad element of size S (R178). -/
def Shape.padBytes (h : Shape) (size : Nat) : List Byte :=
  let p := bytesOf h.pad
  if size ≤ 4 then p.take size else (List.replicate (size / 4) p).flatten

/-- The loop indices of element n (R177). -/
def Shape.index (h : Shape) (n : Nat) (d : Fin 4) : Nat :=
  match d with
  | 0 => n % h.extent 0
  | 1 => n / h.extent 0 % h.extent 1
  | 2 => n / (h.extent 0 * h.extent 1) % h.extent 2
  | 3 => n / (h.extent 0 * h.extent 1 * h.extent 2)

/-- The exact address of element n of an affine walk (R177). -/
def elementAddr (base : Dword) (h : Shape) (b : Option Shape) (n : Nat) : Int :=
  let c (d : Fin 4) : Int := h.index n d + ((b.map (·.origin d)).getD 0)
  formAddr base + c 0 * h.stride 0 + c 1 * h.stride 1 + c 2 * h.stride 2 + c 3 * h.stride 3

/-- Where an element stands against the bounds (R179). -/
inductive Inside where
  | inside
  /-- outside, with c_3 ≥ LIMIT_3 -/
  | beyond
  | outside
deriving DecidableEq, Repr

/-- The class of element n, with the coordinate of dimension 3 given (R179, R221). -/
def Shape.classify (h : Shape) (b : Option Shape) (n : Nat) (c3 : Int) : Inside :=
  match b with
  | none => .inside
  | some b =>
    let ok (d : Fin 4) (c : Int) : Bool := decide (0 ≤ c) && decide (c < b.limit d)
    if c3 ≥ b.limit 3 then .beyond
    else if ok 0 (h.index n 0 + b.origin 0) && ok 1 (h.index n 1 + b.origin 1) && ok 2 (h.index n 2 + b.origin 2)
      && ok 3 c3 then .inside
    else .outside

/-- The checks of R176 in order: a cause, or none when the stream runs or is empty. SHAPE = 15 on a word that needs h(SHAPE + 1) is
met here, at issue, as R176 and R216 say, and not at decode, where R43 puts every check on the bits of the word alone.
(DEDUCED: log entry 87) -/
def shapeCheck (h : Shape) (b : Option Shape) (second : Option Shape) (needSecond : Bool) (k : BitVec 4) (q12 : Bool) :
    Option Cause :=
  if !h.plain || !((b.map (·.boundsPlain)).getD true) || !((second.map (·.plain)).getD true) then some causeIllegal
  else if needSecond && k == 15 then some causeIllegal
  else if 2 ^ 48 ≤ h.count then some causeIllegal
  else if q12 && decide (8 ≤ h.size) then some causeIllegal
  else none

/-- h(k + 1), where it exists (R178). -/
def Station.nextShape (x : Station) (k : BitVec 4) : Option Shape := if k = 15 then none else some (x.rh (k + 1))

/-! ### Views (R209, R210) -/

/-- A view as its two doublewords. -/
def View.dword0 (v : View) : Dword :=
  v.datum ++ (0 : BitVec 13) ++ BitVec.ofBool v.txn ++ BitVec.ofBool v.live ++ BitVec.ofBool v.latest
def View.dword1 (v : View) : Dword := (0 : BitVec 40) ++ v.txid

/-- The view VIEWLD writes: RSVD bits and LIVE zero (R210). -/
def View.ofDwords (a b : Dword) : View :=
  { datum := a.extractLsb' 16 48, txn := a.getLsbD 2, live := false, latest := a.getLsbD 0, txid := b.extractLsb' 0 24 }

end Sys2Proof.Machine
end

