-- ==== Sys2Proof/Machine/Ops.lean ====
section
/-! DEFINITION. The named operations every meaning is written over: friezes and stations, counters and signals, ports, outstanding accesses and holds, freezing, and taking an exception; and the one way a control word issues (R29–R31, R85–R92, R190–R196, R226–R249, R297–R305, R376–R379, R393–R400). -/

namespace Sys2Proof.Machine

/-- The result of an arm that goes on. -/
abbrev Res := Host.Outcome State Fault Refusal

/-! ### Friezes and stations -/

/-- A frieze changed, if it exists. -/
def State.updFz (s : State) (id : Nat) (g : Frieze → Frieze) : State :=
  match s.friezes.find id with
  | none => s
  | some f => { s with friezes := s.friezes.put id (g f) }

/-- A station of a frieze changed. -/
def Frieze.updSt (f : Frieze) (st : Nat) (g : Station → Station) : Frieze := { f with stations := f.stations.modify st g }

/-- A station changed. -/
def State.updSt (s : State) (id st : Nat) (g : Station → Station) : State := s.updFz id (·.updSt st g)

/-- A station of a frieze. -/
def State.station? (s : State) (id st : Nat) : Option Station := (s.friezes.find id).bind (·.stations[st]?)

/-- The tile a station stands on (R13). -/
def Frieze.tileOf (f : Frieze) (st : Nat) : Nat := f.head + st
/-- Span length L. -/
def Frieze.len (f : Frieze) : Nat := f.stations.length
/-- The lane number of the next word of a station; past the last station, that of the last. -/
def Frieze.posOf (f : Frieze) (st : Nat) : Nat := ((f.stations[st]?).map (·.pos)).getD 0
/-- The lane number of the next word of station L − 1. -/
def Frieze.lastPos (f : Frieze) : Nat := f.posOf (f.len - 1)
/-- A word the head keeps, by lane number. -/
def Frieze.laneWord? (f : Frieze) (n : Nat) : Option LaneWord := if n < f.laneBase then none else f.lane[n - f.laneBase]?

/-- A free number the manual leaves to the 840, and the state that has taken it. (DESIGN CHOICE: log entry 5) -/
def State.takeFree (s : State) : Nat × State := (Config.freeNat s.free, { s with free := s.free + 1 })
/-- A free bit the manual leaves to the 840, and the state that has taken it. (DESIGN CHOICE: log entry 5) -/
def State.takeBit (s : State) : Bool × State := (Config.freeBit s.free, { s with free := s.free + 1 })
/-- The die of a tile (R9). -/
def dieOf (t : Nat) : Nat := 2 * (t / 32 / 16) + t % 32 / 16

/-- An expert routing engine, by its die (R277). -/
def State.engine (s : State) (die : Nat) : Engine := if h : die < 4 then s.engines[die] else Engine.reset
/-- An engine changed. -/
def State.updEngine (s : State) (die : Nat) (g : Engine → Engine) : State :=
  if h : die < 4 then { s with engines := s.engines.set die (g s.engines[die]) h } else s

/-- A message handed out. -/
def State.emit (s : State) (m : Out) : State := { s with out := s.out ++ [m] }
/-- The next serial number. (DESIGN CHOICE: log entry 17) -/
def State.bump (s : State) : State := { s with serial := s.serial + 1 }

/-! ### Counters and signals (R8, R304) -/

/-- Event counter e[k] of a tile's shared half (R25). -/
def Tile.ctr (x : Tile) (k : Nat) : Word := if h : k < 32 then x.e[k] else 0
/-- The event counter e[k] as a station names it (R31). -/
def State.counter (s : State) (id st : Nat) (k : BitVec 6) : Word :=
  match s.friezes.find id with
  | none => 0
  | some f =>
    if h : k.toNat < 32 then ((f.stations[st]?).map fun x => x.e[k.toNat]).getD 0
    else (s.tile (f.tileOf st)).ctr (k.toNat - 32)

/-- A tile's shared counter changed. -/
def State.updCtr (s : State) (t k : Nat) (g : Word → Word) : State :=
  s.updTile t fun x => if h : k < 32 then { x with e := x.e.set k (g x.e[k]) h } else x

/-- The event counter e[k] of a station changed (R31). -/
def State.updCounter (s : State) (id st : Nat) (k : BitVec 6) (g : Word → Word) : State :=
  match s.friezes.find id with
  | none => s
  | some f =>
    if h : k.toNat < 32 then s.updSt id st fun x => { x with e := x.e.set k.toNat (g x.e[k.toNat]) h }
    else s.updCtr (f.tileOf st) (k.toNat - 32) g

/-- An amount added to e[k]; additions wrap (R304). -/
def State.addCount (s : State) (id st : Nat) (k : BitVec 6) (n : Word) : State := s.updCounter id st k (· + n)

/-- A completion signal: 1 added under mode 01 (R8, R31). -/
def State.sigDone (s : State) (id st : Nat) (mode : BitVec 2) (k : BitVec 6) : State :=
  if mode = 1 then s.addCount id st k 1 else s

/-- A sector increment: 1 added under mode 10 (R190). -/
def State.sigSector (s : State) (id st : Nat) (mode : BitVec 2) (k : BitVec 6) (n : Nat) : State :=
  if mode = 2 then s.addCount id st k (BitVec.ofNat 32 n) else s

/-! ### Ports (R89, R225) -/

/-- In-ports a selector names. -/
def Sel.inPorts : Sel → List Nat
  | .inport i => [i]
  | _ => []

/-- The in-ports of a systolic word: the A group, the B group of its W columns, and the control port (R146). -/
def SysWord.inPorts (w : SysWord) (r : Option Region) : List Nat :=
  (List.range 16).map (w.a + ·) ++ (List.range ((r.map fun r => r.last + 1 - r.first).getD 0)).map (w.b + ·) ++ [w.c]

/-- Every port of a systolic word. -/
def SysWord.ports (w : SysWord) (r : Option Region) : List Nat := w.inPorts r ++ [32 + w.out]

/-- The ports a maquette names: in-ports 0–31, out-ports 32–63 (R88, R89). -/
def Maq.ports (m : Maq) : List Nat :=
  m.stages.vals.flatMap (fun o => o.sel.flatMap Sel.inPorts) ++
  m.outs.flatMap (fun (p, o) => (32 + p) :: o.sel.flatMap Sel.inPorts) ++
  m.sys.flatMap (fun (k, w) => w.ports (m.regions[k]?))

/-- A context's frieze and maquette while it owns its ports: LOADED or ACTIVE (R89). (DEDUCED: log entry 39) -/
def MaqCtx.owns (c : MaqCtx) : Option (Nat × Maq) :=
  match c.state, c.owner with
  | .loaded, some o => some (o, c.maq)
  | .active, some o => some (o, c.maq)
  | _, _ => none

/-- The owner of a port of a tile, numbered 0–63 (R89). (DEDUCED: log entry 39) -/
def Tile.portOwner (x : Tile) (p : Nat) : Option Nat :=
  x.ctxs.toList.findSome? fun c =>
    match c.owns with
    | some (o, m) => if m.ports.contains p then some o else none
    | none => none

/-- Whether a port is owned by another frieze. -/
def State.foreignPort (s : State) (t p id : Nat) : Bool :=
  match (s.tile t).portOwner p with
  | none => false
  | some o => o != id

/-- An in-port of a tile. -/
def Tile.inPort (x : Tile) (p : Nat) : InPort := if h : p < 32 then x.inp[p] else InPort.reset
/-- An in-port replaced. -/
def Tile.setIn (x : Tile) (p : Nat) (v : InPort) : Tile := if h : p < 32 then { x with inp := x.inp.set p v h } else x
/-- An out-port of a tile. -/
def Tile.outPort (x : Tile) (p : Nat) : List Beat := if h : p < 32 then x.outp[p] else []
/-- An out-port replaced. -/
def Tile.setOut (x : Tile) (p : Nat) (v : List Beat) : Tile := if h : p < 32 then { x with outp := x.outp.set p v h } else x

/-- Free entries of an in-port: neither held nor promised (R89). -/
def InPort.free (q : InPort) : Nat := 64 - (q.fifo.length + q.promised + q.sent.vals.sum)

/-- The space count PORTSPC returns: free entries of an in-port, beats held by an out-port (R89, R213). -/
def Tile.portCount (x : Tile) (p : Nat) : Nat := if p < 32 then (x.inPort p).free else (x.outPort (p - 32)).length

/-- The increments of SPORTCFG: 1 for each configured port of a tile whose COUNT rose to its level (R225). -/
def State.portLevels (s0 s1 : State) (t : Nat) : State :=
  (s1.tile t).cfg.foldl (init := s1) fun s (p, c) =>
    if (s0.tile t).portCount p < c.level ∧ c.level ≤ (s1.tile t).portCount p then
      if c.k < 32 then
        match s.friezes.find c.fz with
        | none => s
        | some f => s.addCount c.fz (t - f.head) (BitVec.ofNat 6 c.k) 1
      else s.updCtr t (c.k - 32) (· + 1)
    else s

/-! ### Beats (R21, R22) -/

/-- KIND codes. -/
def kindData : BitVec 2 := 0
def kindEos : BitVec 2 := 1
def kindSweep : BitVec 2 := 2
def kindCtrl : BitVec 2 := 3

/-- The DATA[15:0] codes of control markers. -/
def mkDrain : BitVec 16 := 1
def mkMark : BitVec 16 := 2
def mkBareEos : BitVec 16 := 3

/-- DATA[15:0] of a beat. -/
def low16 (d : Data) : BitVec 16 := d.extractLsb' 0 16

/-- A control marker. -/
def RawBeat.ctrl (code : BitVec 16) (tag : Word) : RawBeat :=
  { kind := kindCtrl, data := (0 : BitVec 80) ++ tag ++ code, side := 0, poison := false }
/-- The bare EOS marker. -/
def RawBeat.bareEos : RawBeat := .ctrl mkBareEos 0
/-- The SWEEP to a context. -/
def RawBeat.sweep (target : Nat) : RawBeat :=
  { kind := kindSweep, data := BitVec.ofNat 128 (target % 4), side := 0, poison := false }

/-- Whether a beat is data: KIND 00 or 01 (R77). -/
def isData (k : BitVec 2) : Bool := k == kindData || k == kindEos
/-- Whether a beat is a bare EOS marker. -/
def isBareEos (k : BitVec 2) (d : Data) : Bool := k == kindCtrl && low16 d == mkBareEos

/-- A beat as it leaves the array (R91, R113). -/
def Beat.raw (b : Beat) : RawBeat := { kind := b.kind, data := b.r.data, side := b.r.side, poison := b.r.poison }

/-! ### Entering an in-port (R67, R71, R77, R113) -/

/-- Sixteen 6-bit codes of DATA[95:0] widened to 8-bit containers (R67). -/
def widenBeat (f : Fmt) (d : Data) : Data :=
  bvOf 128 ((List.range 16).map fun i => BitVec.ofNat 8 (widenFp6 f (d.extractLsb' (6 * i) 6).toNat))

/-- The form a record takes from its binding (R113). -/
def Binding.form (b : Binding) : Form :=
  match b.fmt with
  | .fp32 => .w32f
  | .int32 => .w32i
  | f => .packed f

/-- The scaled attribute a record takes from its binding (R69, R113). -/
def Binding.scl (b : Binding) : Option Scl :=
  match b.smode with
  | 1 => some ⟨false, none⟩
  | 2 => some ⟨true, none⟩
  | 3 => some ⟨false, some b.pscale⟩
  | 4 => some ⟨true, some b.pscale⟩
  | _ => none

/-- The record of a beat that enters in-port p under a binding. -/
def enterRec (b : Binding) (p : Nat) (idx : Dword) (w : RawBeat) : Rec :=
  { data := if isData w.kind ∧ (b.fmt = .e3m2 ∨ b.fmt = .e2m3) then widenBeat b.fmt w.data else w.data
    side := if isData w.kind ∧ (b.fmt = .fp32 ∨ b.fmt = .int32) then 0 else w.side
    chan := BitVec.ofNat 5 p
    poison := w.poison
    idx := idx
    form := b.form
    scaled := b.scl
    sparse := b.sparse
    epos := 0 }

/-- A beat takes an entry: data takes a beat index, a marker none (R77). -/
def InPort.enter (q : InPort) (p : Nat) (w : RawBeat) : InPort :=
  { q with
    fifo := q.fifo ++ [⟨w.kind, enterRec q.binding p q.srCount w, w.data⟩]
    srCount := if isData w.kind then q.srCount + 1 else q.srCount }

/-- Injected markers take the entries that are free (R89, R165). -/
def InPort.settle (q : InPort) (p : Nat) : InPort :=
  let ws := q.waiting.take q.free
  ws.foldl (fun q w => q.enter p w) { q with waiting := q.waiting.drop ws.length }

/-- A marker injected at an in-port (R89, R165). -/
def InPort.inject (q : InPort) (p : Nat) (w : RawBeat) : InPort :=
  ({ q with waiting := q.waiting ++ [w] }).settle p

/-- The entries promised to some accesses given up (R89, R185). -/
def InPort.letGo (q : InPort) (p : Nat) (uids : List Nat) : InPort :=
  if q.sent.keys.any uids.contains then ({ q with sent := q.sent.filter fun (u, _) => !uids.contains u }).settle p else q

/-- An entry promised to an access filled, if one was (R89, R185). -/
def InPort.useSent (q : InPort) (u : Nat) : InPort :=
  match q.sent.find u with
  | none => q
  | some n => { q with sent := if n ≤ 1 then q.sent.del u else q.sent.put u (n - 1) }

/-- An in-port after its reader has taken n entries. -/
def InPort.takeN (q : InPort) (p n : Nat) : InPort := ({ q with fifo := q.fifo.drop n }).settle p

/-- A tile changed, with the increments of SPORTCFG that its port counts now bring (R225). -/
def State.updPorts (s : State) (t : Nat) (g : Tile → Tile) : State := s.portLevels (s.updTile t g) t

/-- A beat stands in in-port p of a tile. -/
def State.enterPort (s : State) (t p : Nat) (w : RawBeat) : State :=
  s.updPorts t fun x => x.setIn p ((x.inPort p).enter p w)

/-- A beat of access u stands in in-port p of a tile, in the entry promised to it if one was. -/
def State.deliverPort (s : State) (t p u : Nat) (w : RawBeat) : State :=
  s.updPorts t fun x => x.setIn p (((x.inPort p).useSent u).enter p w)

/-- The entries of a tile's in-ports promised to some accesses given up. -/
def State.unsend (s : State) (t : Nat) (uids : List Nat) : State :=
  if (s.tile t).inp.toList.all fun q => !q.sent.keys.any uids.contains then s
  else s.updPorts t fun x => { x with inp := Vector.ofFn fun p => (x.inp[p]).letGo p.val uids }

/-- The entries promised to the accesses of a frieze given up. -/
def State.unsendFz (s : State) (id : Nat) : State :=
  match s.friezes.find id with
  | none => s
  | some f => f.stations.zipIdx.foldl (fun s (x, st) => s.unsend (f.tileOf st) (x.slots.toList.map (·.uid))) s

/-- The head of an out-port popped. -/
def State.popOut (s : State) (t o : Nat) : State :=
  s.updPorts t fun x => x.setOut o (x.outPort o).tail

/-! ### The taker of a beat (R188, R194) -/

/-- Whether a slot takes indices. -/
def SKind.indirect : SKind → Bool
  | .gath | .scat | .scata => true
  | _ => false
/-- Whether a slot delivers to an in-port. -/
def SKind.reads : SKind → Bool
  | .rd | .win | .mc | .gath => true
  | _ => false
/-- Whether a slot takes the bytes of its elements from an out-port. -/
def SKind.takes : SKind → Bool
  | .wr | .scat | .scata => true
  | _ => false

/-- Elements per index: the row of dimensions 0–2 (R221). -/
def Slot.row (q : Slot) : Nat := q.shape.extent 0 * q.shape.extent 1 * q.shape.extent 2

/-- Whether a RUNNING stream is inside the head beat of an out-port: bytes of it are taken, or indices of it are looked at or rows of
them performed, and the rest is to come. -/
def Slot.inBeat (q : Slot) (o : Nat) : Bool :=
  q.state == .running &&
    ((q.kind.takes && q.outport == o && q.taken != 0) ||
      (q.kind.indirect && q.idxport == o && (q.claims || !q.early.isEmpty || decide (q.idxBase * q.row < q.next))))

/-- The stream that is inside the head beat of an out-port of a tile: frieze, station and slot. -/
def State.takerOf (s : State) (t o : Nat) : Option (Nat × Nat × Nat) :=
  s.friezes.findSome? fun (id, f) =>
    if f.state = .resident ∧ f.head ≤ t then
      (f.stations[t - f.head]?).bind fun x => (List.range 16).findSome? fun k =>
        if (x.slot (BitVec.ofNat 4 k)).inBeat o then some (id, t - f.head, k) else none
    else none

/-- Whether the head beat of an out-port is nobody's, or the given slot's: each beat goes to one taker (R188). -/
def State.mayTake (s : State) (t o : Nat) (me : Nat × Nat × Nat) : Bool :=
  match s.takerOf t o with
  | none => true
  | some p => p == me

/-! ### Classes, outstanding accesses and holds (R226, R234–R245) -/

/-- The class bits of R226. -/
def clSR : BitVec 7 := 1
def clSW : BitVec 7 := 2
def clLR : BitVec 7 := 4
def clLW : BitVec 7 := 8
def clAT : BitVec 7 := 16
def clEN : BitVec 7 := 32
def clRS : BitVec 7 := 64

/-- The classes of what a slot holds (R226). -/
def SKind.classes : SKind → BitVec 7
  | .rd | .win | .mc | .gath => clSR
  | .wr | .fill | .scat => clSW
  | .cp => clSR ||| clSW
  | .scata | .atomg | .ratom => clAT
  | .ldg => clLR
  | .stg => clLW
  | .rsig => clRS
  | .recur => 0

/-- The outstanding accesses of a station in the classes of a mask (R234). (DEDUCED: log entry 80) -/
def State.outstanding (s : State) (id st : Nat) (mask : BitVec 7) : List Nat :=
  match s.friezes.find id with
  | none => []
  | some f =>
    match f.stations[st]? with
    | none => []
    | some x =>
      x.slots.toList.filterMap (fun k =>
        if k.state = .running ∧ k.kind.classes &&& mask ≠ 0 then some k.uid else none) ++
      x.pend.filterMap (fun p => if (if p.store then clLW else clLR) &&& mask ≠ 0 then some p.uid else none) ++
      (if mask &&& clEN = 0 then [] else
        s.reqs.vals.filterMap (fun r => if r.fz = id ∧ r.st = st ∧ r.lane = none then some r.uid else none) ++
        f.reqs.filterMap (fun r => if r.res = none ∧ r.lane < x.pos then some r.uid else none) ++
        (s.tile (f.tileOf st)).ctxs.toList.filterMap (fun c =>
          c.load.bind fun l => if l.fz = id ∧ l.st = st then some l.uid else none))

/-- The accesses an access of the given classes waits for (R244, R245, R249); streamy for what SBAR names.
(DEDUCED: log entry 80) -/
def Station.waitsFor (x : Station) (cls : BitVec 7) (streamy : Bool) : List Nat :=
  (x.holds.filter fun h => if h.sbar then streamy else h.succ &&& cls != 0).flatMap (·.preds)

/-- Those of them that an SBAR or FENCE holds the access for: WAIT_LIMIT bounds these waits, and neither the wait for a RATOM
with ACQ nor that for a release set (R235, R236, R249). -/
def Station.barredFor (x : Station) (cls : BitVec 7) (streamy : Bool) : List Nat :=
  (x.holds.filter fun h => !h.acq && if h.sbar then streamy else h.succ &&& cls != 0).flatMap (·.preds)

/-- An access struck from a list, wherever it stands: an access may stand there under several holds, which add up (R244). -/
def without (l : List Nat) (u : Nat) : List Nat := l.filter (· != u)

/-- An access retired from a station's lists; the signals of fences that now complete. -/
def Station.retire (x : Station) (u : Nat) : Station × List Sig :=
  let hs := x.holds.map fun h => { h with preds := without h.preds u }
  ({ x with
      holds := hs.filter fun h => !h.preds.isEmpty
      slots := x.slots.map fun k => { k with
        waits := without k.waits u
        barred := without k.barred u }
      pend := x.pend.map fun p => { p with waits := without p.waits u }
      trig := x.trig.map fun l => without l u },
   hs.filterMap fun h => if h.preds.isEmpty then h.sig else none)

/-- One station's part of a retirement. -/
def State.retireAt (s : State) (id u st : Nat) : State :=
  match s.station? id st with
  | none => s
  | some x => (x.retire u).2.foldl (fun s g => s.addCount g.fz g.st g.k 1) (s.updSt id st fun _ => (x.retire u).1)

/-- An access of a frieze takes effect, or is known never to: nothing waits for it any longer (R234). (DEDUCED: log entry 80) -/
def State.retire (s : State) (id u : Nat) : State :=
  match s.friezes.find id with
  | none => s
  | some f =>
    let s := (List.range f.len).foldl (fun s st => s.retireAt id u st) s
    { s with
      reqs := s.reqs.map fun (k, r) => (k, { r with waits := without r.waits u })
      tiles := s.tiles.map fun (k, t) =>
        (k, { t with ctxs := t.ctxs.map fun c => { c with load := c.load.map fun l => { l with waits := without l.waits u } } }) }

/-! ### Records of the management ring (R377, R379) -/

/-- A master descriptor of a frieze or of a slot of it. -/
def friezeMaster (s : State) (f : Frieze) : Dword :=
  (0 : BitVec 4) ++ BitVec.ofNat 8 f.job ++ s.moduleId ++ BitVec.ofNat 10 f.head ++ BitVec.ofNat 2 f.ctx ++ (0 : BitVec 30)

/-- A job changed, if it exists. -/
def State.updJob (s : State) (j : Nat) (g : Job → Job) : State :=
  match s.jobs.find j with
  | none => s
  | some x => { s with jobs := s.jobs.put j (g x) }

/-- MSI-X vector v raised (R379, R386). (DEDUCED: log entry 78) -/
def State.raiseMsix (s : State) (v : Nat) : State := { s with msix := s.msix.put v ((s.msix.find v).getD 0 + 1) }

/-- A record generated for a job: written to its ring with MSI-X vector JOB raised, or dropped and counted. -/
def State.mqRecord (s : State) (job : Nat) (event : BitVec 8) (cause : Cause) (master addr : Dword) : State :=
  match s.jobs.find job with
  | none => s
  | some j =>
    let s1 := s.updJob job fun j => { j with mqSeq := j.mqSeq + 1 }
    match j.mq with
    | none => s1.updJob job fun j => { j with mqDrop := j.mqDrop + 1 }
    | some r =>
      let d0 : Dword := event ++ cause ++ BitVec.ofNat 32 j.mqSeq ++ (0 : BitVec 16)
      let a := r.base + 32 * (j.mqSeq % 2 ^ r.cap)
      let s2 := s1.putBytes ⟨.hbm, a, none⟩ (bytesOf d0 ++ bytesOf master ++ bytesOf addr ++ bytesOf s.cycles)
      s2.raiseMsix job

/-! ### Exceptions (R393–R396) -/

/-- Whether a trap precedes another: the earlier lane position, the westmost station on equal ones (R414). -/
def Trap.before (a b : Trap) : Bool :=
  decide (a.at_ < b.at_) || (decide (a.at_ = b.at_) && decide (a.station < b.station))

/-- Two traps found in one drain: the earlier stands; breakpoints of one BRK join their masks (R402, R414). -/
def Trap.meet (old : Option Trap) (new : Trap) : Trap :=
  match old with
  | none => new
  | some o =>
    let w := if new.before o then new else o
    if o.cause = causeBreakpoint ∧ new.cause = causeBreakpoint ∧ o.at_ = new.at_ then { w with d1 := o.d1 ||| new.d1 } else w

/-- Taking an exception: the trap is found at a station's next word, the head issues no further word, and the station stops
there (R393, R394). TRAP_TAKEN writes NEXT_INDEX, TRAP_CAUSE and the image and starts the handler once every station has
stopped. While the frieze is being frozen, a fault found at issue arises again on resume. -/
def State.raise (s : State) (id st : Nat) (cause : Cause) (slot : Option Nat) (d0 d1 d2 : Dword) : State :=
  s.updFz id fun f =>
    let f := f.updSt st fun x => { x with stopped := true }
    if f.stop = .freeze then f
    else { f with
      stop := .trap
      victimFor := none
      trap := some (Trap.meet f.trap ⟨cause, slot, st, f.posOf st, d0, d1, d2⟩) }

/-- A fault found after issue, kept for the station's next boundary (R196). -/
def State.addFault (s : State) (id st : Nat) (slot : Option Nat) (cause : Cause) (d0 d1 d2 : Dword) : State :=
  (s.updSt id st fun x => { x with faults := x.faults ++ [⟨slot, cause, s.serial, d0, d1, d2⟩] }).bump

/-- A violation that reaches outside the job freezes its frieze: the head stops, and the record is written when the save is
done. A trap found before stays pending only where no word would raise it again: one of TRAP or BRK (R376, R378). -/
def State.freezeFz (s : State) (id : Nat) (cause : Cause) (addr : Dword) : State :=
  s.updFz id fun f =>
    if f.frozen then f
    else { f with
      frozen := true
      freezeRec := some (cause, addr)
      trap := f.trap.filter fun t => t.cause == causeTrapInstr || t.cause == causeBreakpoint
      stop := .freeze }

/-- DETAIL1 of a fault found in a slot (R397). -/
def slotDetail (applied : Bool) (slot : Nat) (next : Nat) : Dword :=
  (0 : BitVec 10) ++ BitVec.ofBool applied ++ BitVec.ofNat 5 slot ++ BitVec.ofNat 48 next

/-- The tile of a station. -/
def State.tileAt (s : State) (id st : Nat) : Nat := ((s.friezes.find id).map (·.tileOf st)).getD 0

/-- A slot becomes FAULTED with a cause and the address form of the element at fault; what its port has promised it is given up (R173,
R185, R196). -/
def State.faultSlot (s : State) (id st k : Nat) (v : Viol) (form : Dword) : State :=
  match s.station? id st with
  | none => s
  | some x =>
    let q := x.slot (BitVec.ofNat 4 k)
    let s1 := s.updSt id st fun x => x.setSlot (BitVec.ofNat 4 k) { q with state := .faulted v.cause, faultAt := form, faultNo := s.serial }
    let s2 := s1.addFault id st (some k) v.cause form (slotDetail q.applied k q.next)
      (match q.kind with
        | .gath | .scat | .scata => BitVec.ofNat 64 (q.next / (q.shape.extent 0 * q.shape.extent 1 * q.shape.extent 2))
        | _ => 0)
    let s3 := (s2.retire id q.uid).unsend (s.tileAt id st) [q.uid]
    if v.freeze then s3.freezeFz id v.cause form else s3

/-! ### The context of a word -/

/-- Why a station is held (R303). -/
inductive Why where
  /-- a WAIT byte or WAITE on counter k, with its threshold -/
  | counter (k : BitVec 6) (need : Word)
  /-- a port event (R92), with PORTSPC's threshold -/
  | port (p : Nat) (need : Dword)
  /-- a register an incomplete instruction will write -/
  | reg (r : Nat)
  /-- slots not IDLE -/
  | slots (mask : BitVec 16)
  /-- no room, not chosen, or the head has stopped: rows the watchdog does not count -/
  | room
deriving DecidableEq, Repr

/-- The word a station issues next, and the station. -/
structure Ctx where
  id : Nat
  f : Frieze
  st : Nat
  x : Station
  tile : Nat
  lane : Nat
  index : BitVec 52
  word : Dword
  h : Hdr
  /-- the predicate, from the station's own registers or from the head (R29, R298) -/
  on : Bool
  /-- a scalar access of the word takes effect after its issue -/
  late : Bool
deriving DecidableEq, Repr

/-- The next word of a station: at the head the oldest fetched word, elsewhere the oldest word of its queue (R298, R299). -/
def Frieze.nextWord (f : Frieze) (st : Nat) : Option (LaneWord) :=
  if st = 0 then f.fetched.head?.map fun (i, w) => ⟨w, i, true⟩
  else if f.posOf st < f.posOf (st - 1) then f.laneWord? (f.posOf st)
  else none

/-- The context in which an instruction issues: that of the selected station's next word. -/
def ctxOf (s : State) (i : Instr) (h : Hdr) : Option Ctx :=
  match s.cur with
  | none => none
  | some c =>
    match s.friezes.find c.fz with
    | none => none
    | some f =>
      match f.stations[c.st]?, f.nextWord c.st with
      | some x, some w =>
        some { id := c.fz, f := f, st := c.st, x := x, tile := f.tileOf c.st, lane := x.pos, index := w.index,
               word := w.word, h := h,
               on := if i.headDecided && c.st != 0 then w.headTrue else x.selected h, late := c.late }
      | _, _ => none

/-- Whether the station acts as head. -/
def Ctx.isHead (c : Ctx) : Bool := c.st == 0
/-- g[r] of the station. -/
def Ctx.g (c : Ctx) (r : Reg) : Dword := c.x.rg r
/-- g[r] written on the station. -/
def Ctx.setG (c : Ctx) (s : State) (r : Reg) (v : Dword) : State := s.updSt c.id c.st (·.setG r v)
/-- The station changed. -/
def Ctx.upd (c : Ctx) (s : State) (g : Station → Station) : State := s.updSt c.id c.st g
/-- The frieze's job. -/
def Ctx.job (c : Ctx) : Nat := c.f.job

/-! ### What holds a word (R303) -/

/-- The g registers an incomplete instruction of the station will write (R195, R247, R270, R292, R359). -/
def State.pendingG (s : State) (id st : Nat) (f : Frieze) (x : Station) : List Reg :=
  x.pend.flatMap (fun p => if p.store then [] else if p.quad then regs4 p.dst else [p.dst]) ++
  x.slots.toList.flatMap (fun k =>
    (if k.state = .running ∧ (k.kind = .ldg ∨ k.kind = .atomg ∨ k.kind = .ratom) then [k.dst] else []) ++
    k.aborts.map (·.1)) ++
  s.reqs.vals.filterMap (fun r => if r.fz = id ∧ r.st = st ∧ r.lane = none then r.dst else none) ++
  f.reqs.filterMap (fun r => if (r.res = none ∨ r.late) ∧ r.lane < x.pos then r.dstG else none)

/-- The v registers an incomplete instruction will write (R270). -/
def pendingV (f : Frieze) (x : Station) : List (BitVec 3) :=
  f.reqs.filterMap fun r => if (r.res = none ∨ r.late) ∧ r.lane < x.pos then r.dstV else none

/-- The slots of a mask that are not IDLE. -/
def Station.busyOf (x : Station) (mask : BitVec 16) : BitVec 16 :=
  (List.range 16).foldl (init := 0) fun m k =>
    if mask.getLsbD k ∧ (x.slot (BitVec.ofNat 4 k)).state ≠ .idle then m ||| (1#16 <<< k) else m

/-- The slot wait of a word (R174, R195, R246). -/
def slotWait (x : Station) (i : Instr) : Option Why :=
  match i with
  | .swaits _ mask => if x.busyOf mask = 0 then none else some (.slots (x.busyOf mask))
  | _ =>
    match i.namedSlot with
    | some k => if (x.slot k).state = .idle then none else some (.slots (1#16 <<< k.toNat))
    | none => if i.takesSlot && x.freeSlot.isNone then some (.slots 0xFFFF) else none

/-- The port events of R92; a port another frieze owns is a fault, not a wait (R214). -/
def portWait (s : State) (c : Ctx) (i : Instr) : Option Why :=
  let t := s.tile c.tile
  match i with
  | .portrd _ _ _ o =>
    if s.foreignPort c.tile (32 + o.toNat) c.id then none
    else if (t.outPort o.toNat).isEmpty || (s.takerOf c.tile o.toNat).isSome then some (.port (32 + o.toNat) 0) else none
  | .portwr _ _ _ p =>
    if s.foreignPort c.tile p.toNat c.id then none
    else if (t.inPort p.toNat).free = 0 then some (.port p.toNat 0) else none
  | .portspc _ _ a p =>
    if s.foreignPort c.tile p.toNat c.id then none
    else if t.portCount p.toNat < (c.g a).toNat then some (.port p.toNat (c.g a)) else none
  | _ => none

/-- The counter wait of a word: its WAIT byte (R8), or a WAITE's threshold (R319). -/
def counterWait (s : State) (c : Ctx) (i : Instr) : Option Why :=
  let v := s.counter c.id c.st c.h.waitK
  let need : Word := if c.h.waitMode = 0 then 0 else if c.h.waitMode = 1 then 1 else c.x.rq c.h.waitK
  if v.ult need then some (.counter c.h.waitK need)
  else match i with
    | .waite _ g _ k =>
      let n : Word := (c.g g).setWidth 32
      if c.on && (s.counter c.id c.st k).ult n then some (.counter k n) else none
    | _ => none

/-- A register dependency; a word under a false predicate reads and writes none (R303). -/
def regWait (s : State) (c : Ctx) (i : Instr) : Option Why :=
  let pend := s.pendingG c.id c.st c.f c.x
  match (if c.isHead then i.regs else i.regsAway).find? fun r => r != 0 && pend.contains r with
  | some r => some (.reg r.toNat)
  | none => if i.viewsUsed.any (pendingV c.f c.x).contains then some (.reg 0) else none

/-- Whether a stop ends the issue of every station, and not only of the head (R394). -/
def Stop.drains : Stop → Bool
  | .no | .exit => false
  | _ => true

/-- Whether a station stands at its stop position: it is held, the trap word is next, or it has issued EXIT (R394). -/
def Frieze.standsStill (f : Frieze) (st : Nat) : Bool :=
  match f.stations[st]? with
  | none => true
  | some x => x.stopped || x.exiting || (match f.trap with
      | some t => decide (t.station ≤ st) && decide (t.at_ ≤ x.pos)
      | none => false)

/-- Whether the frieze of a gang to the north of one that has issued nothing has itself still to issue its first word (R336). -/
def northWaits (s : State) (c : Ctx) : Bool :=
  c.x.pos == 0 && ((s.kernels.find c.f.kernel).map fun k => k.stagger && !k.isHandler).getD false &&
    s.friezes.any fun (_, g) => g.kernel == c.f.kernel && g.id + 1 == c.f.id && g.posOf 0 == 0 && g.state != .ended

/-- No room in the lane: the next station's queue is full, the replay window is closed, or the head waits for its start or for
its routes (R299, R336, R362). In a stop the words queued for a station beyond its stop position are discarded, and its queue
takes more (R394). -/
def roomWait (s : State) (c : Ctx) : Bool :=
  (decide (c.st + 1 < c.f.len) && decide (32 ≤ c.x.pos - c.f.posOf (c.st + 1)) && !(c.f.stop.drains && c.f.standsStill (c.st + 1))) ||
  (c.isHead && (decide (64 ≤ c.x.pos - c.f.lastPos) || decide (s.cycles.toNat < c.f.startAt) || northWaits s c || !c.f.rebind.isEmpty))

/-- A stop for a pre-emption, a YIELD or a freeze: a fault found in it is delivered after the resume (R196). -/
def Stop.saves : Stop → Bool
  | .preempt | .freeze | .yield => true
  | _ => false

/-- A station that issues no word now: its frieze is not resident or its head has stopped, a trap or a fault stands there, or it
has issued EXIT (R196, R302, R313, R318, R394). -/
def haltWait (c : Ctx) : Bool :=
  (c.isHead && (c.f.vote.isSome || c.f.stop != .no)) || c.f.standsStill c.st || (!c.x.faults.isEmpty && !c.f.stop.saves) ||
  c.f.state != .resident

/-- The first row of R303 marked yes that holds a word at a station. -/
def rowWait (s : State) (c : Ctx) (i : Instr) : Option Why :=
  match counterWait s c i with
  | some w => some w
  | none =>
    if !c.on then none
    else match regWait s c i with
      | some w => some w
      | none =>
        match slotWait c.x i with
        | some w => some w
        | none => portWait s c i

/-- What holds a word at a station: a row of R303 that the watchdog counts stands before one that it does not (R305). -/
def holdOf (s : State) (c : Ctx) (i : Instr) : Option Why :=
  if haltWait c then some .room
  else match rowWait s c i with
    | some w => some w
    | none => if roomWait s c then some .room else none

/-- Whether the watchdog counts a hold (R303, R305). -/
def Why.counted : Why → Bool
  | .room => false
  | _ => true

/-! ### Issuing a word -/

/-- What a word does once it issues: its effects and whether it is complete at issue, or a trap found at issue. -/
inductive Eff where
  | done (s : State) (now : Bool)
  | trap (cause : Cause) (d0 : Dword)
  /-- a violation found at issue, which also freezes the frieze (R376) -/
  | viol (cause : Cause) (addr : Dword)
deriving DecidableEq, Repr

/-- No station is selected any longer. -/
def State.deselect (s : State) : State := { s with cur := none }

/-- A held station: the hold is counted, and during a stop the station issues nothing more (R305, R394). -/
def heldAt (c : Ctx) (w : Why) (s : State) : State :=
  (s.updSt c.id c.st fun x => { x with
    hold := if w.counted then x.hold + 1 else x.hold
    held := if w.counted then x.held + 1 else x.held
    stopped := x.stopped || (w.counted && c.f.stop.drains) }).deselect

/-- The wait's consumption (R8, R31). -/
def consumeWait (c : Ctx) (i : Instr) (s : State) : State :=
  let s := if c.h.waitMode = 1 then s.addCount c.id c.st c.h.waitK (-1)
    else if c.h.waitMode = 2 then s.addCount c.id c.st c.h.waitK (-(c.x.rq c.h.waitK)) else s
  match i with
  | .waite _ g sub k => if c.on && sub then s.addCount c.id c.st k (-((c.g g).setWidth 32)) else s
  | _ => s

/-- A station past the word it has issued. -/
def Station.moved (x : Station) : Station :=
  { x with pos := x.pos + 1, issued := x.issued + 1, hold := 0, entered := x.entered.tail }

/-- The word counted as issued: the station moves past it, the next station's queue takes it, and at the head the word
passes from the fetch buffer into the lane, whose words every station has issued are dropped; an EXIT is kept, since a fault
found after it makes it the trap word (R298, R299, R318, R322). (DEDUCED: log entry 50) -/
def advance (c : Ctx) (s : State) : State :=
  let s := s.updFz c.id fun f =>
    let f := f.updSt c.st (·.moved)
    let f := f.updSt (c.st + 1) fun x => { x with entered := x.entered ++ [s.cycles.toNat] }
    let f := if c.isHead then
        { f with lane := f.lane ++ [⟨c.word, c.index, c.on⟩], fetched := f.fetched.tail, decoded := false }
      else f
    if f.stations.any (·.exiting) then f
    else { f with lane := f.lane.drop (f.lastPos - f.laneBase), laneBase := max f.laneBase f.lastPos }
  s.deselect

/-- A word discarded under resume mode 01: the station moves past it without having issued it (R403). Of a vote the head has begun, the
station's part is left out of the count. (DEDUCED: log entry 51) -/
def discardWord (c : Ctx) (s : State) : State :=
  ((advance c s).updSt c.id c.st fun x => { x with issued := c.x.issued }).updFz c.id fun f => { f with
    vote := f.vote.map fun v => if v.lane = c.lane then { v with votes := v.votes ++ [v.all] } else v }

/-- The result of a head request applied on a station (R270, R292). -/
def applyResult (s : State) (id st : Nat) (r : Result) : State :=
  s.updSt id st fun x =>
    let x := match r.g with
      | some (d, v) => x.setG d v
      | none => x
    match r.v with
    | some (k, v) => x.setV k v
    | none => x

/-- A station that issues a head-decided word takes its part of the request: the result if it has come (R270). -/
def takeHeadPart (c : Ctx) (s : State) : State :=
  match s.friezes.find c.id with
  | none => s
  | some f =>
    match f.reqs.find? fun r => r.lane == c.lane with
    | none => s
    | some r =>
      match r.res with
      | none => s
      | some v =>
        let s := (applyResult s c.id c.st v).sigDone c.id c.st r.sigMode r.sigK
        if c.st + 1 = f.len then s.updFz c.id fun f => { f with reqs := f.reqs.filter fun q => q.lane != c.lane } else s

/-- A trap found at issue: nothing is consumed, and the station stops at the word (R6, R393). -/
def trapAt (c : Ctx) (cause : Cause) (d0 : Dword) (s : State) : State :=
  (s.raise c.id c.st cause none d0 0 0).deselect

/-- A violation found at issue: the fault waits for the resume, the station stops there and the frieze freezes (R376, R378). -/
def violAt (c : Ctx) (cause : Cause) (addr : Dword) (s : State) : State :=
  (((s.addFault c.id c.st none cause addr 0 0).updSt c.id c.st fun x => { x with stopped := true }).freezeFz c.id cause addr).deselect

/-- The state in which the effects of a word run: its wait is consumed, and its mode 11 signal added (R31). -/
def beforeEffect (c : Ctx) (i : Instr) (s : State) : State :=
  let s1 := consumeWait c i s
  if c.h.sigMode = 3 then s1.addCount c.id c.st c.h.sigK 1 else s1

/-- A word with its effects done: its completion signal where it is complete at issue, its part of a request of the head, and
the station past it (R31, R270). -/
def completeWord (c : Ctx) (i : Instr) (s : State) (now : Bool) : State :=
  let s1 := if now then s.sigDone c.id c.st c.h.sigMode c.h.sigK else s
  advance c (if i.asksHead then takeHeadPart c s1 else s1)

/-- A word under a false predicate: it waits, consumes its wait and adds its mode 01 or 11 signal (R29, R31). -/
def skipWord (c : Ctx) (i : Instr) (s : State) : State :=
  let s1 := consumeWait c i s
  advance c (if c.h.sigMode = 1 ∨ c.h.sigMode = 3 then s1.addCount c.id c.st c.h.sigK 1 else s1)

/-- One control word at the selected station: refused encodings and privilege first (R43, R41), then what holds it (R303),
then the parts of R31 in order. -/
def issueWord (i : Instr) (h : Hdr) (s : State) (body : Ctx → State → Eff) : Res :=
  match ctxOf s i h with
  | none => .fault .noStation
  | some c =>
    if c.f.skip = some c.lane then .next (discardWord c s)
    else if !i.wf then .next (trapAt c causeIllegal 0 s)
    else if i.privileged && c.job != 0 then .next (trapAt c causePrivileged 0 s)
    else match holdOf s c i with
      | some w => .next (heldAt c w s)
      | none =>
        if !c.on then .next (skipWord c i s)
        else
          match body c (beforeEffect c i s) with
          | .done t now => .next (completeWord c i t now)
          | .trap cause d0 => .next (trapAt c cause d0 s)
          | .viol cause addr => .next (violAt c cause addr s)

/-- The word of a violation found by an access check, or a plain trap (R376). -/
def Viol.eff (v : Viol) (addr : Dword) : Eff := if v.freeze then .viol v.cause addr else .trap v.cause addr

/-- A request of class EN issued by a station (R237). The serial number is its key and its access number. -/
def Ctx.request (c : Ctx) (s : State) (kind : ReqKind) (dst : Option Reg) : State :=
  { s with
    reqs := (s.reqs.put s.serial
      { fz := c.id, st := c.st, tile := c.tile, job := c.job, uid := s.serial, kind := kind, dst := dst, lane := none,
        sigMode := c.h.sigMode, sigK := c.h.sigK, waits := c.x.waitsFor clEN false, hold := 0, res := none })
    serial := s.serial + 1 }

/-- A request decided at the head: at station 0 it is made, and every station will take its result and signal; the other
stations only issue the word (R270, R277, R298). -/
def Ctx.headRequest (c : Ctx) (s : State) (kind : ReqKind) (dstG : Option Reg) (dstV : Option (BitVec 3)) : State :=
  if !c.isHead then s
  else
    let s1 := s.updFz c.id fun f => { f with
      reqs := f.reqs ++ [⟨c.lane, dstG, dstV, none, false, c.h.sigMode, c.h.sigK, s.serial, []⟩] }
    { s1 with
      reqs := (s.reqs.put s.serial
        { fz := c.id, st := 0, tile := c.tile, job := c.job, uid := s.serial, kind := kind, dst := none,
          lane := some c.lane, sigMode := c.h.sigMode, sigK := c.h.sigK, waits := c.x.waitsFor clEN false, hold := 0,
          res := none })
      serial := s.serial + 1 }

/-! ### The end of a request (R237, R270, R292) -/

/-- The stations of a frieze that have issued the word of a lane number. -/
def Frieze.issuedOf (f : Frieze) (lane : Nat) : List Nat := (List.range f.len).filter fun st => decide (lane < f.posOf st)

/-- The completion signal of a head request on a station that has issued its word: one to a tile counter goes to the tile that
issued it (R292). -/
def headSignal (s : State) (id : Nat) (f : Frieze) (r : HeadReq) (st : Nat) : State :=
  if r.sigMode = 1 then
    if r.sigK.toNat < 32 then s.addCount id st r.sigK 1
    else s.updCtr ((r.tiles.find st).getD (f.tileOf st)) (r.sigK.toNat - 32) (· + 1)
  else s

/-- The result of a head request: applied with its signals on the stations that have issued the word, or kept while the
frieze is not resident; a signal to a tile counter is added at once, and the results for a frieze that has exited are dropped
(R292). -/
def headResult (s : State) (id lane : Nat) (v : Result) : State :=
  match s.friezes.find id with
  | none => s
  | some f =>
    match f.reqs.find? fun r => r.lane == lane with
    | none => s
    | some r =>
      let here := f.issuedOf lane
      if f.state = .ended then s
      else if f.state = .resident then
        let s1 := here.foldl (fun s st => headSignal (applyResult s id st v) id f r st) s
        s1.updFz id fun f => { f with
          reqs := if here.length = f.len then f.reqs.filter fun q => q.lane != lane
            else f.reqs.map fun q => if q.lane = lane then { q with res := some v } else q }
      else
        let s1 := if 32 ≤ r.sigK.toNat then here.foldl (fun s st => headSignal s id f r st) s else s
        s1.updFz id fun f => { f with
          reqs := f.reqs.map fun q => if q.lane = lane then { q with res := some v, late := true } else q }

/-- The results kept for a frieze, applied before its first issue after a resume; the signals to tile counters were added when they
came (R292). -/
def applyLate (s : State) (id : Nat) : State :=
  match s.friezes.find id with
  | none => s
  | some f =>
    let s1 := f.reqs.foldl (init := s) fun s r =>
      match r.res with
      | some v => if r.late then
          (f.issuedOf r.lane).foldl (fun s st =>
            let s1 := applyResult s id st v
            if 32 ≤ r.sigK.toNat then s1 else headSignal s1 id f r st) s else s
      | none => s
    s1.updFz id fun f => { f with
      reqs := (f.reqs.filter fun r => !(r.late && decide ((f.issuedOf r.lane).length = f.len))).map fun r =>
        { r with late := false } }

/-- A request completes: its register is written, its signal added and its accesses are no longer outstanding. -/
def State.finishReq (s : State) (k : Nat) (v : Result) : State :=
  match s.reqs.find k with
  | none => s
  | some r =>
    let s0 := { s with reqs := s.reqs.del k }
    let s1 := match r.lane with
      | some n => headResult s0 r.fz n v
      | none =>
        let s1 := applyResult s0 r.fz r.st v
        if r.sigMode = 1 then
          if r.sigK.toNat < 32 then s1.addCount r.fz r.st r.sigK 1 else s1.updCtr r.tile (r.sigK.toNat - 32) (· + 1)
        else s1
    s1.retire r.fz r.uid

/-- A request ends with a fault found after issue: no register is written and no signal added; the fault waits for the
station's next boundary (R196, R270, R292). -/
def State.failReq (s : State) (k : Nat) (v : Viol) (addr : Dword) : State :=
  match s.reqs.find k with
  | none => s
  | some r =>
    let s0 := { s with reqs := s.reqs.del k }
    let s1 := match r.lane with
      | some n => s0.updFz r.fz fun f => { f with reqs := f.reqs.filter fun q => q.lane != n }
      | none => s0
    let s2 := (s1.addFault r.fz r.st none v.cause addr 0 0).retire r.fz r.uid
    if v.freeze then s2.freezeFz r.fz v.cause addr else s2

end Sys2Proof.Machine
end

