-- ==== Sys2Proof/Machine/Versions.lean ====
section
/-! DEFINITION. Versioned memory: domains, records, version chains, reads and writes through a view, the words of group 0xA and the events of commit, reclamation and expiry (R252–R276). -/

namespace Sys2Proof.Machine

/-! ### Domains and records -/

/-- The key of a domain of a job. -/
def domKey (job dom : Nat) : Nat := 64 * job + dom

/-- A domain of a job. -/
def State.dom? (s : State) (job dom : Nat) : Option Domain := s.domains.find (domKey job dom)

/-- A domain changed, if it exists. -/
def State.updDom (s : State) (job dom : Nat) (g : Domain → Domain) : State :=
  match s.dom? job dom with
  | none => s
  | some d => { s with domains := s.domains.put (domKey job dom) (g d) }

/-- The domain number of a datum (R253). -/
def datumDom (d : BitVec 48) : Nat := (d.extractLsb' 42 6).toNat

/-- A record of a domain. -/
def State.rec? (s : State) (job dom txid : Nat) : Option TxRec := (s.dom? job dom).bind (·.recs.find txid)

/-- A record changed, if it exists. -/
def State.updRec (s : State) (job dom txid : Nat) (g : TxRec → TxRec) : State :=
  s.updDom job dom fun d =>
    match d.recs.find txid with
    | none => d
    | some r => { d with recs := d.recs.put txid (g r) }

/-- The module that holds a line, from its physical address (R10). -/
def lineModule (line : Nat) : Nat := line * 128 / 2 ^ 42

/-- The controller of a line: 16 times its module, plus the HBM controller there that serves it (R186, R255). -/
def lineCtrl (line : Nat) : Nat := 16 * lineModule line + channelOf line % 16

/-- The number of the one version a line holds that no transaction has written: PUBLISHED when its page became versioned (R252).
PUBLISHED has not moved since for a page that is not noted. (DEDUCED: log entry 19) -/
def State.firstNumber (s : State) (job dom line : Nat) : BitVec 48 :=
  match s.dom? job dom with
  | none => BitVec.ofNat 48 (dom * 2 ^ 42)
  | some d =>
    match d.pages.find? fun p => decide (p.1 ≤ 128 * line) && decide (128 * line < p.1 + p.2.1) with
    | some p => p.2.2
    | none => d.published

/-- The versioned pages of a domain noted with their numbers, before PUBLISHED moves on (R252). (DEDUCED: log entry 19) -/
def State.notePages (s : State) (job dom : Nat) : State :=
  s.updDom job dom fun d => { d with
    pages := (versionedPages s job dom).map fun p =>
      (p.1, p.2, ((d.pages.find? fun q => q.1 == p.1 && q.2.1 == p.2).map (·.2.2)).getD d.published) }

/-- Whether a line lies on one of some pages. -/
def onPage (line : Nat) (ps : List (Nat × Nat)) : Bool := ps.any fun p => decide (p.1 ≤ 128 * line) && decide (128 * line < p.1 + p.2)

/-- The versions, intents and notes of pages that the tables no longer mark as versioned are gone: a page that becomes versioned again starts
with one version a line (R252). (DEDUCED: log entry 19) -/
def State.dropUnversioned (s : State) : State :=
  s.domains.foldl (init := s) fun s (k, _) =>
    let ps := versionedPages s (k / 64) (k % 64)
    ({ s with chains := s.chains.filter fun (l, c) => !(c.job == k / 64 && c.dom == k % 64) || onPage l ps }).updDom (k / 64) (k % 64)
      fun d => { d with pages := d.pages.filter fun p => ps.contains (p.1, p.2.1) }

/-- The chain of a versioned line; a line no transaction has written holds the one version it held when its page became
versioned (R252). -/
def State.chainOf (s : State) (job dom line : Nat) : Chain :=
  match s.chains.find line with
  | some c => if c.job = job ∧ c.dom = dom then c else ⟨job, dom, s.firstNumber job dom line, [], none⟩
  | none => ⟨job, dom, s.firstNumber job dom line, [], none⟩

/-- A chain replaced. -/
def State.setChain (s : State) (line : Nat) (c : Chain) : State := { s with chains := s.chains.put line c }

/-- Pool entries a domain uses on a module: one for each older version and each intent of the module's lines (R256). -/
def State.poolUsed (s : State) (job dom m : Nat) : Nat :=
  (s.chains.filter fun (l, c) => c.job = job ∧ c.dom = dom ∧ lineModule l = m).foldl
    (fun n p => n + p.2.older.length + (if p.2.intent.isSome then 1 else 0)) 0

/-- The entries of a domain's pool on a module: on this one those DOMAIN_SET gave it. (DESIGN CHOICE: log entry 93) -/
def State.poolSizeAt (s : State) (job dom : Nat) (d : Domain) (m : Nat) : Nat :=
  if m = s.moduleId.toNat then d.poolSize else Config.remotePool job dom m

/-- A transaction's intents discarded everywhere, or on the lines of one module (R256, R258). -/
def State.dropIntents (s : State) (job dom txid : Nat) (which : Nat → Bool) : State :=
  { s with chains := s.chains.map fun (l, c) =>
      if c.job = job ∧ c.dom = dom ∧ which l then
        match c.intent with
        | some i => if i.txid = txid then (l, { c with intent := none }) else (l, c)
        | none => (l, c)
      else (l, c) }

/-- The claims under way of a transaction end: they claim no further line and set no CL (R260, R273). -/
def State.endClaims (s : State) (job dom txid : Nat) : State :=
  { s with reqs := s.reqs.map fun (k, r) => (k, match r.kind with
      | .claim v base sh _ _ =>
        if r.job = job ∧ datumDom v.datum = dom ∧ v.txid.toNat = txid then { r with kind := .claim v base sh sh.count false } else r
      | _ => r) }

/-- A record dooms: its intents are discarded at once and its claims end, its datum stays registered (R258, R260, R261). A record
that is not ACTIVE is not doomed. -/
def State.doom (s : State) (job dom txid : Nat) (code : Nat) : State :=
  match s.rec? job dom txid with
  | none => s
  | some r =>
    if r.state = .active then
      ((s.updRec job dom txid fun r => { r with state := .doomed, code := code }).dropIntents job dom txid fun _ => true).endClaims
        job dom txid
    else s

/-- Rank: (1 − CL, AGE, TXID), the smaller being the older (R257). -/
def older (ra : TxRec) (ta : Nat) (rb : TxRec) (tb : Nat) : Bool :=
  if ra.cl != rb.cl then ra.cl
  else if ra.age ≠ rb.age then ra.age.ult rb.age
  else decide (ta < tb)

/-- Whether the registration of view x of a frieze, from which a LIVE view was copied, has expired: the view's own, or where it
holds none of that datum its record's (R254, R265, R268). (DEDUCED: log entry 18) -/
def viewExpired (s : State) (job fz : Nat) (x : BitVec 3) (v : View) : Bool :=
  match s.dom? job (datumDom v.datum) with
  | none => false
  | some d =>
    match d.regs.find? fun r => r.fz == fz && r.view == x.toNat && r.datum == v.datum with
    | some r => r.expired
    | none => v.txn && ((d.recs.find v.txid.toNat).map (·.expired)).getD false

/-- The live datum registrations of a domain, expired ones included: those of views, and those of open records that no view of
their owner stands for (R257, R266, R268). (DEDUCED: log entry 94) -/
def Domain.regCount (d : Domain) : Nat :=
  (d.regs.map (·.n)).sum +
    (d.recs.filter fun (_, r) => r.state ≠ .finished ∧ !d.regs.any fun g =>
      g.datum == r.datum && (r.ownerFz == some g.fz || r.ownerK.isSome)).length

/-- A registration taken, one per frieze and view (R266). (DEDUCED: log entry 18) -/
def State.register (s : State) (job dom fz view : Nat) (datum : BitVec 48) : State :=
  s.updDom job dom fun d => { d with regs := (d.regs.filter fun r => !(r.fz == fz && r.view == view)) ++ [⟨fz, view, datum, false, 1⟩] }

/-- One of the registrations a kernel holds for its unplaced friezes passes to v0 of a frieze (R265). -/
def Domain.passReg (d : Domain) (keep fz : Nat) : Domain :=
  match d.regs.find? fun r => r.fz == keep with
  | none => d
  | some r => { d with regs := d.regs.filterMap (fun q => if q.fz = keep then (if q.n ≤ 1 then none else some { q with n := q.n - 1 }) else some q) ++
      [⟨fz, 0, r.datum, r.expired, 1⟩] }

/-- The registration of a view of a frieze released (R271, R272, R274). (DEDUCED: log entry 18) -/
def State.unregister (s : State) (job fz view : Nat) : State :=
  { s with domains := s.domains.map fun (k, d) =>
      if k / 64 = job then (k, { d with regs := d.regs.filter fun r => !(r.fz == fz && r.view == view) }) else (k, d) }

/-- The record a view names: its domain and record (R254). -/
def viewRec (s : State) (job : Nat) (v : View) : Option TxRec := s.rec? job (datumDom v.datum) v.txid.toNat

/-! ### The order of requests (R237, R270) -/

/-- Whether a request is one of group 0xB. -/
def ReqKind.routing : ReqKind → Bool
  | .ercfg _ | .ercfgOff | .erdisp .. | .ercomb .. | .erstat _ | .erdrops => true
  | _ => false

/-- Whether a request is one of group 0xA. -/
def ReqKind.versions : ReqKind → Bool
  | .snap .. | .unsnap _ | .txbegin .. | .txcommit .. | .txabort .. | .txstat .. | .claim .. => true
  | _ => false

/-- The head's view register. -/
def headView (s : State) (fz : Nat) (v : BitVec 3) : View := ((s.station? fz 0).map (·.rv v)).getD View.zero

/-- The domain of a request of group 0xA. -/
def Req.dom (s : State) (r : Req) : Nat :=
  match r.kind with
  | .snap dom _ | .txbegin dom _ _ | .txcommit dom _ _ | .txabort dom _ _ | .txstat dom _ => dom
  | .unsnap v => datumDom (headView s r.fz v).datum
  | .claim v .. => datumDom v.datum
  | _ => 0

/-- The module of the home of a domain. -/
def homeOf (s : State) (job dom : Nat) : Nat := ((s.dom? job dom).map (·.home)).getD 0

/-- Where a work-list request goes: the home bank of a live list; before the list is live its id stands for it. -/
def listUnit (s : State) (job id : Nat) : Nat := (((s.job? job).bind (·.worklists.find id)).map (·.home)).getD (512 + id)

/-- The unit a request is addressed to: a home of versions, a routing engine, the configuration network, the queues, the fabric, an
owner table, the monitor, a frieze's master, or a work-list's home. -/
def Req.unit (s : State) (r : Req) : Nat × Nat :=
  match r.kind with
  | .snap .. | .unsnap _ | .txbegin .. | .txcommit .. | .txabort .. | .txstat .. | .claim .. => (0, homeOf s r.job (r.dom s))
  | .ercfg _ | .ercfgOff | .erdisp .. | .ercomb .. | .erstat _ | .erdrops => (1, dieOf r.tile)
  | .accsave .. | .accload .. => (2, 0)
  | .launch .. => (3, 0)
  | .route .. | .unroute .. | .mcjoin .. => (4, 0)
  | .owncfg g => (5, if g.shared then s.moduleId.toNat else g.start / 2 ^ 42)
  | .smpoff | .smpcfg => (6, 0)
  | .master .. => (7, 0)
  | .wlnew id _ | .wlpush id _ | .wlpop id _ _ | .wlins id _ | .wlcnt id _ | .wlfree id => (8, listUnit s r.job id)

/-- Whether a TXCOMMIT is not sent yet: a station has still to issue it, or a write before it has still to take effect (R274). -/
def Req.unsent (s : State) (r : Req) : Bool :=
  match r.kind, r.lane with
  | .txcommit .., some n => !r.waits.isEmpty || (match s.friezes.find r.fz with
    | some f => decide ((f.issuedOf n).length < f.len)
    | none => false)
  | _, _ => false

/-- The requests of a station made before another to the same unit and not yet complete; one not yet sent is none of them (R237,
R274). -/
def Req.ahead (s : State) (k : Nat) (r : Req) : Tab Req :=
  s.reqs.filter fun (j, q) => decide (j < k) && q.fz == r.fz && q.st == r.st && q.unit s == r.unit s && !q.unsent s

/-- Whether a request has taken effect at its unit, although it is not complete: its result waits to be returned, its commit has
begun, its engine has it in its queue, or its route sends no more. (DEDUCED: log entry 95) -/
def Req.effective (s : State) (k : Nat) (r : Req) : Bool :=
  r.res.isSome ||
  (match r.kind with
    | .txcommit dom t _ => (match s.rec? r.job dom t with
      | some x => x.state == .committing || x.state == .finished
      | none => true)
    | .unroute _ sent => sent.isSome
    | k' => k'.routing && (s.engine (dieOf r.tile)).queue.contains k)

/-- The loads of maquettes a station issued before an access number and that are still at work: they go over the configuration
network with ACCSAVE and ACCLOAD (R237). -/
def loadsBefore (s : State) (fz st u : Nat) : Bool :=
  match s.friezes.find fz with
  | none => false
  | some f => (s.tile (f.tileOf st)).ctxs.toList.any fun c => match c.load with
      | some l => l.fz == fz && l.st == st && decide (l.uid < u)
      | none => false

/-- Whether a request is a TXCLAIM. -/
def ReqKind.claims : ReqKind → Bool
  | .claim .. => true
  | _ => false

/-- Whether an earlier request of the station has still to take effect at the unit of a request, or, for a TXCLAIM, an earlier TXCLAIM of the
station is still at work at any home (R237, R273). (DEDUCED: log entry 95) -/
def Req.behind (s : State) (k : Nat) (r : Req) : Bool :=
  (r.ahead s k).any (fun (j, q) => !q.effective s j) ||
    (match r.kind with
      | .accsave .. | .accload .. => loadsBefore s r.fz r.st k
      | .claim .. => s.reqs.any fun (j, q) => decide (j < k) && q.fz == r.fz && q.st == r.st && q.kind.claims && q.res.isNone
      | _ => false)

/-- Whether an ACCSAVE or ACCLOAD that the station of a load issued before it is still at work. -/
def Load.behind (s : State) (l : Load) : Bool :=
  loadsBefore s l.fz l.st l.uid || s.reqs.any fun (j, q) => decide (j < l.uid) && q.fz == l.fz && q.st == l.st &&
    (match q.kind with
      | .accsave .. | .accload .. => true
      | _ => false)

/-- The response to a request of group 0xA, which has taken effect: it is returned after those to the earlier ones (R270). -/
def State.returnReq (s : State) (k : Nat) (v : Result) : State :=
  match s.reqs.find k with
  | none => s
  | some r => if (r.ahead s k).isEmpty then s.finishReq k v else { s with reqs := s.reqs.put k { r with res := some v } }

/-! ### Reading and writing a line through a view -/

/-- The outcome of reading a line (R254): its 128 bytes, and whether they carry an uncorrectable error (R406). -/
inductive LineRead where
  | bytes (bs : List Byte) (bad : Bool)
  | wait
  | fault (v : Viol)
deriving DecidableEq, Repr

/-- The newest committed version numbered at most a bound, with its poison (R254, R406). -/
def versionAt (c : Chain) (inPlace : List Byte) (bad : Bool) (bound : BitVec 48) : Option LineRead :=
  if c.number.ule bound then some (.bytes inPlace bad)
  else (c.older.find? fun v => v.1.ule bound).map fun v => .bytes v.2.1 v.2.2

/-- The 128 bytes of a versioned line as a copy of view x of a frieze sees it (R254). (DEDUCED: log entry 82) -/
def readLine (s : State) (job fz : Nat) (x : BitVec 3) (v : View) (dom line : Nat) : LineRead :=
  let c := s.chainOf job dom line
  let inPlace := s.hbm.readBytes (128 * line) 128
  let bad := s.hbm.bad.contains line
  let bounded : LineRead :=
    if datumDom v.datum ≠ dom then .fault ⟨causeProtection, false⟩
    else (versionAt c inPlace bad v.datum).getD (.fault ⟨causeSnapshot, false⟩)
  if v.live && viewExpired s job fz x v then .fault ⟨causeSnapshot, false⟩
  else if v.txn then
    match viewRec s job v with
    | none => .fault ⟨causeProtection, false⟩
    | some r =>
      if r.state = .finished then .fault ⟨causeProtection, false⟩
      else match c.intent with
        | some i => if i.txid = v.txid.toNat ∧ datumDom v.datum = dom ∧ r.state ≠ .doomed then .bytes i.bytes i.bad else bounded
        | none => bounded
  else if v.latest then
    match c.intent with
    | some i => if i.publishing.isSome then .wait else .bytes inPlace bad
    | none => .bytes inPlace bad
  else bounded

/-- Replaces bytes of a line from an offset on. -/
def patch (line : List Byte) (off : Nat) (bs : List Byte) : List Byte :=
  line.take off ++ bs ++ line.drop (off + bs.length)

/-- The outcome of a write or claim at a line (R255, R260). -/
inductive LineWrite where
  /-- applied, or discarded for a doomed transaction; and whether the transaction goes on -/
  | done (s : State) (live : Bool)
  | wait (s : State)
  | fault (v : Viol)
deriving DecidableEq, Repr

/-- Whether an intent can be created at a line: a pool entry is free and the line holds at most 14 versions (R256). -/
def State.poolRoom (s : State) (job dom line : Nat) : Bool :=
  match s.dom? job dom with
  | none => false
  | some d => decide ((s.chainOf job dom line).older.length + 1 ≤ 14) && decide (s.poolUsed job dom (lineModule line) < s.poolSizeAt job dom d (lineModule line))

/-- Whether an access of a resident frieze has not been completed. -/
def State.underWay (s : State) (u : Nat) : Bool :=
  s.friezes.any (fun (_, f) => f.state == .resident &&
    f.stations.any fun x => (x.slots.toList.any fun q => q.uid == u && q.state == .running) || x.pend.any fun p => p.uid == u) ||
  s.reqs.any fun (_, r) => r.uid == u

/-! ### Forwarding targets (R356, R357) -/

/-- The number of a bank of a module among the forwarding targets, and of an HBM controller (R9, R186). -/
def bankNode (m bank : Nat) : Nat := 528 * m + bank
def ctrlNode (m line : Nat) : Nat := 528 * m + 512 + channelOf line % 16

/-- A target answers RETRY: the source is listed, or refused while 64 are; a source that has waited fewer than 16 c-cycles has not
sent again. -/
def FwdNode.retry (n : FwdNode) (src now : Nat) : FwdNode :=
  match n.listed.find? fun p => p.1 == src with
  | some p => if now < p.2 + 16 then n else { n with listed := n.listed.map fun q => if q.1 = src then (src, now) else q }
  | none =>
    match n.refused.find? fun p => p.1 == src && decide (now < p.2 + 16) with
    | some _ => n
    | none =>
      let rest := n.refused.filter fun p => p.1 != src
      if n.listed.length < 64 then { n with
        listed := n.listed ++ [(src, now)]
        refused := rest }
      else { n with refused := rest ++ [(src, now)] }

/-- A forwarding slot changed. -/
def State.putNode (s : State) (k : Nat) (n : FwdNode) : State := { s with nodes := s.nodes.put k n }

/-- A request that needs forwarding reaches a target: whether the forwarding slot of its class takes it. While the access has the slot
its requests go on. -/
def State.forward (s : State) (node cls src : Nat) : Bool × State :=
  let k := 4 * node + cls
  let n := (s.nodes.find k).getD FwdNode.free
  let now := s.cycles.toNat
  match n.taken with
  | none => (true, s.putNode k { n with
      taken := some src
      granted := none })
  | some x =>
    if x = src then
      match n.granted with
      | none => (true, s)
      | some t => if now < t then (false, s) else (true, s.putNode k { n with granted := none })
    else (false, s.putNode k (n.retry src now))

/-- Whether a write or claim of a domain waits on a module for pool room (R256, R268). -/
def State.poolWaits (s : State) (job dom m : Nat) : Bool :=
  match s.dom? job dom with
  | none => false
  | some d => d.waiters.any fun (u, l, t) => lineModule l == m && s.underWay u && !s.poolRoom job dom l &&
      (match d.recs.find t with
        | some r => r.state == .active || r.state == .committing
        | none => false)

/-- An access waits for pool room: the module's pool-wait count runs, from now where none waited before (R268). -/
def State.poolWait (s : State) (job dom line txid u : Nat) : State :=
  let m := lineModule line
  s.updDom job dom fun d => { d with
    waiters := Tab.put (d.waiters.filter fun p => s.underWay p.1) u (line, txid)
    waitSince := if s.poolWaits job dom m && (d.waitSince.find m).isSome then d.waitSince else d.waitSince.put m s.cycles.toNat }

/-- An access waits no longer. -/
def State.poolGo (s : State) (job dom u : Nat) : State :=
  s.updDom job dom fun d => { d with waiters := d.waiters.del u }

/-- The transaction's first intent at a line: the newest committed version copied and written into; the controller
registers with the home; an intent on an unclaimed line made by a write clears CL (R255, R260). -/
def makeIntent (s : State) (job dom txid line off : Nat) (bs : List Byte) (claim : Bool) (u : Nat) : State :=
  let c := s.chainOf job dom line
  let m := lineCtrl line
  let s1 := s.setChain line
    { c with intent := some ⟨txid, patch (s.hbm.readBytes (128 * line) 128) off bs, s.hbm.bad.contains line, none, claim⟩ }
  (s1.updRec job dom txid fun r => { r with
    ctrls := if r.ctrls.contains m then r.ctrls else r.ctrls ++ [m]
    cl := r.cl && claim
    clOff := r.clOff || (r.cl && !claim) }).poolGo job dom u

/-- A write of bytes, or a claim, by a view's transaction at a line, for access u (R255, R256, R259, R260). -/
def writeLine (s : State) (job : Nat) (v : View) (dom line off : Nat) (bs : List Byte) (claim : Bool) (u : Nat) : LineWrite :=
  let txid := v.txid.toNat
  if !v.txn then .fault ⟨causeProtection, false⟩
  else match viewRec s job v with
    | none => .fault ⟨causeProtection, false⟩
    | some r =>
      if r.state = .finished ∨ datumDom v.datum ≠ dom then .fault ⟨causeProtection, false⟩
      else if r.state = .doomed then .done s false
      else
        let c := s.chainOf job dom line
        let m := lineCtrl line
        let create (s : State) : LineWrite :=
          if s.poolRoom job dom line then
            let g := if r.ctrls.contains m then (true, s) else s.forward (ctrlNode (lineModule line) line) 0 u
            if g.1 then .done (makeIntent g.2 job dom txid line off bs claim u) true else .wait g.2
          else .wait (s.poolWait job dom line txid u)
        match c.intent with
        | some i =>
          if i.txid = txid then
            .done (s.setChain line { c with
              intent := some { i with bytes := patch i.bytes off bs, claimed := i.claimed || claim } }) true
          else if i.publishing.isSome then .wait s
          else if r.datum.ult c.number then .done (s.doom job dom txid 2) false
          else match s.rec? job dom i.txid with
            | none => create (s.setChain line { c with intent := none })
            | some h =>
              if older h i.txid r txid then .done (s.doom job dom txid 3) false
              else
                let s1 := s.doom job dom i.txid 3
                let s2 := s1.setChain line { s1.chainOf job dom line with intent := none }
                create (if h.state = .committing then
                  s2.updRec job dom i.txid fun h => { h with refusedBy := h.refusedBy ++ [m] } else s2)
        | none =>
          if r.datum.ult c.number then .done (s.doom job dom txid 2) false
          else create s

/-! ### The end of a record -/

/-- A record's intents discarded and its registrations released, the record freed (R258). -/
def State.freeRec (s : State) (job dom txid : Nat) : State :=
  (s.dropIntents job dom txid fun _ => true).updDom job dom fun d => { d with recs := d.recs.del txid }

/-- A record reaches FINISHED with a code; its intents not committed are gone, its datum no longer registered. A record
whose owner has exited is freed (R258, R276). -/
def State.finishRec (s : State) (job dom txid : Nat) (code : Nat) (cnum : BitVec 48) : State :=
  let s1 := (s.dropIntents job dom txid fun _ => true).updRec job dom txid fun r =>
    { r with state := .finished, code := code, cnum := cnum }
  match s1.rec? job dom txid with
  | none => s1
  | some r =>
    match r.ownerFz with
    | some o =>
      (match s1.friezes.find o with
        | some f => if f.state = .ended then s1.freeRec job dom txid else s1
        | none => s1.freeRec job dom txid)
    | none => s1

/-- PUBLISHED advances over every number that has completed or been voided (R253). -/
def settle (published : BitVec 48) (settled : List (BitVec 48)) : Nat → BitVec 48 × List (BitVec 48)
  | 0 => (published, settled)
  | n + 1 =>
    if settled.contains (published + 1) then settle (published + 1) (settled.erase (published + 1)) n
    else (published, settled)

/-- A commit number completed or voided (R253, R262, R264). -/
def State.settleNum (s : State) (job dom : Nat) (c : BitVec 48) : State :=
  (s.notePages job dom).updDom job dom fun d =>
    let r := settle d.published (d.settled ++ [c]) (d.settled.length + 1)
    { d with published := r.1, settled := r.2 }

/-- COMPLETE(c): every intent of the transaction becomes the in-place version numbered c, the version it replaces taking
over its pool entry, each with its poison (R256, R262, R406). -/
def completeChains (s : State) (job dom txid : Nat) (c : BitVec 48) : State :=
  s.chains.foldl (init := s) fun s (l, ch) =>
    match ch.intent with
    | some i =>
      if ch.job = job ∧ ch.dom = dom ∧ i.txid = txid then
        let old := s.hbm.readBytes (128 * l) 128
        let new := s.hbm.writeBytes (128 * l) i.bytes
        { s.setChain l { ch with number := c, older := (ch.number, old, s.hbm.bad.contains l) :: ch.older, intent := none } with
          hbm := if i.bad then new.poison l else new }
      else s
    | none => s

/-- COMMIT_REQUEST: once every station has issued its TXCOMMIT and the writes before it have taken effect, the home moves
the record (R258, R262, R274). -/
def commitAtHome (s : State) (job dom txid : Nat) : State :=
  match s.dom? job dom, s.rec? job dom txid with
  | some d, some r =>
    match r.state with
    | .active =>
      if r.ctrls = [] then s.finishRec job dom txid 1 0
      else if d.counter.extractLsb' 0 42 = (-1 : BitVec 42) then s.finishRec job dom txid 6 0
      else
        let c := d.counter + 1
        ((s.updDom job dom fun d => { d with counter := c }).updRec job dom txid fun r =>
          { r with state := .committing, code := 0, cnum := c, acked := [], sent := true })
    | .doomed => s.finishRec job dom txid r.code 0
    | _ => s
  | _, _ => s

/-- The TXCOMMIT request that names a record and has gathered its stations, or the ended kernel that owns it (R265, R274). -/
def commitReady (s : State) (job dom txid : Nat) : Bool :=
  s.reqs.any fun (k, r) =>
    r.job == job && !r.unsent s && !r.behind s k && s.reachable (homeOf s job dom) &&
    (match r.kind with
      | .txcommit d t _ => d == dom && t == txid
      | _ => false)

def execCommitRequest (job dom txid : Nat) (s : State) : Res :=
  .next (if commitReady s job dom txid then commitAtHome s job dom txid else s)

/-- One chain as its controller marks it on PUBLISH(c). -/
def Chain.mark (c : Chain) (job dom txid : Nat) (here : Bool) (n : BitVec 48) : Chain :=
  match c.intent with
  | some i =>
    if c.job = job ∧ c.dom = dom ∧ i.txid = txid ∧ here then { c with intent := some { i with publishing := some n } } else c
  | none => c

/-- The transaction's intents on a controller's lines marked PUBLISHING (R262). -/
def markPublishing (s : State) (job dom txid ctrl : Nat) (n : BitVec 48) : State :=
  { s with chains := s.chains.map fun (l, c) => (l, c.mark job dom txid (lineCtrl l == ctrl) n) }

/-- Whether the home of a domain reaches a module: its own, or this one where this one reaches it; of a third module what this one reaches
stands for it. (DESIGN CHOICE: log entry 108) -/
def State.homeReaches (s : State) (job dom m : Nat) : Bool :=
  m == homeOf s job dom || s.reachable (if m = s.moduleId.toNat then homeOf s job dom else m)

/-- PUBLISH at one controller that can be reached: it marks the transaction's intents and acknowledges, or refuses if it has
discarded one (R262, R264, R276). -/
def execPublish (job dom txid ctrl : Nat) (s : State) : Res :=
  .next (match s.rec? job dom txid with
    | none => s
    | some r =>
      if r.state = .committing ∧ r.ctrls.contains ctrl ∧ !r.acked.contains ctrl ∧ !r.refusedBy.contains ctrl ∧ s.homeReaches job dom (ctrl / 16) then
        (markPublishing s job dom txid ctrl r.cnum).updRec job dom txid fun r => { r with acked := r.acked ++ [ctrl] }
      else s)

/-- COMMIT_COMPLETE: every controller has acknowledged; the commit instant (R262). -/
def execCommitComplete (job dom txid : Nat) (s : State) : Res :=
  .next (match s.rec? job dom txid with
    | none => s
    | some r =>
      if r.state = .committing ∧ r.refusedBy = [] ∧ r.ctrls.all r.acked.contains then
        ((completeChains s job dom txid r.cnum).settleNum job dom r.cnum).finishRec job dom txid 1 r.cnum
      else s)

/-- VOID: a controller refused or cannot be reached before every acknowledgement (R264). -/
def execVoidCommit (job dom txid : Nat) (s : State) : Res :=
  .next (match s.rec? job dom txid with
    | none => s
    | some r =>
      if r.state = .committing then
        if r.refusedBy ≠ [] then (s.settleNum job dom r.cnum).finishRec job dom txid 3 0
        else if r.ctrls.any fun m => !s.homeReaches job dom (m / 16) && !r.acked.contains m then
          (s.settleNum job dom r.cnum).finishRec job dom txid 6 0
        else s
      else s)

/-! ### Low-water mark, reclamation and expiry (R266–R268) -/

/-- The least of some numbers. -/
def least48 : List (BitVec 48) → Option (BitVec 48)
  | [] => none
  | a :: rest =>
    match least48 rest with
    | none => some a
    | some b => some (if a.ule b then a else b)

/-- The datums held live in a domain: views' registrations and open records, not expired (R266). -/
def liveDatums (d : Domain) : List (BitVec 48) :=
  (d.regs.filter fun r => !r.expired).map (·.datum) ++
  (d.recs.vals.filter fun r => r.state ≠ .finished ∧ !r.expired).map (·.datum)

/-- The low-water mark of a domain (R266). -/
def lwmOf (d : Domain) : BitVec 48 := (least48 (liveDatums d)).getD d.published

/-- The older versions of a line that survive a low-water mark: those before which no newer committed version is numbered
at or below it (R267). Newest first. -/
def surviving (newer : BitVec 48) (lwm : BitVec 48) : List (BitVec 48 × List Byte × Bool) → List (BitVec 48 × List Byte × Bool)
  | [] => []
  | (n, bs) :: rest => if newer.ule lwm then [] else (n, bs) :: surviving n lwm rest

/-- The reclaimer's work in a domain (R267). (DESIGN CHOICE: log entry 20) (DEDUCED: log entry 82) -/
def reclaim (s : State) (job dom : Nat) (lwm : BitVec 48) : State :=
  { s with chains := s.chains.map fun (l, c) =>
      if c.job = job ∧ c.dom = dom then (l, { c with older := surviving c.number lwm c.older }) else (l, c) }

def execLwmBroadcast (job dom : Nat) (s : State) : Res :=
  .next (match s.dom? job dom with
    | none => s
    | some d =>
      let l := lwmOf d
      reclaim (s.updDom job dom fun d => { d with lwm := l, nextLwm := s.cycles.toNat + 65536 }) job dom l)

/-- The ACTIVE claimed transaction of least rank, whose datum is never expired (R260). -/
def shielded (d : Domain) : Option Nat :=
  (d.recs.filter fun (_, r) => r.state = .active ∧ r.cl).foldl (init := none) fun best (t, r) =>
    match best.bind fun b => (d.recs.find b).map fun rb => (b, rb) with
    | none => some t
    | some (b, rb) => if older r t rb b then some t else some b

/-- The oldest live datum, leaving out the shielded transaction's (R268). -/
def oldestLive (d : Domain) : Option (BitVec 48) :=
  let t := shielded d
  let sd := (t.bind d.recs.find).map (·.datum)
  least48 (((d.regs.filter fun r => !r.expired).map (·.datum) ++
    (d.recs.filter fun (k, r) => r.state ≠ .finished ∧ !r.expired ∧ some k ≠ t).map (·.2.datum)).filter fun x => some x ≠ sd)

/-- The expiry of a datum: every registration of the value expires, and ACTIVE records that hold one are doomed (R268). -/
def expire (s : State) (job dom : Nat) (x : BitVec 48) : State :=
  let s1 := s.updDom job dom fun d => { d with
    regs := d.regs.map fun r => if r.datum = x then { r with expired := true } else r
    recs := d.recs.map fun (k, r) => if r.datum = x ∧ r.state ≠ .finished then (k, { r with expired := true }) else (k, r)
    nextLwm := s.cycles.toNat }
  match s1.dom? job dom with
  | none => s1
  | some d => d.recs.foldl (fun s (k, r) => if r.datum = x ∧ r.state = .active then s.doom job dom k 5 else s) s1

/-- POOL_WAIT_EXPIRY: writes have waited POOL_WAIT_LIMIT c-cycles for pool room on a module; where none waits, the count is 0
(R268). -/
def execPoolWaitExpiry (job dom ctrl : Nat) (s : State) : Res :=
  .next (match s.dom? job dom, s.job? job with
    | some d, some j =>
      match d.waitSince.find ctrl with
      | none => s
      | some t =>
        if !s.poolWaits job dom ctrl then s.updDom job dom fun d => { d with waitSince := d.waitSince.del ctrl }
        else if s.cycles.toNat < t + j.poolWaitLimit.toNat then s
        else
          let s1 := s.updDom job dom fun d => { d with waitSince := d.waitSince.put ctrl s.cycles.toNat }
          match oldestLive d with
          | none => s1
          | some x => expire s1 job dom x
    | _, _ => s)

/-! ### The words of group 0xA -/

/-- Whether a view names the transaction of a TXN launch: the record belongs to a kernel (R265, R275). -/
def namesKernelTxn (s : State) (job : Nat) (v : View) : Bool :=
  v.txid != 0 && ((viewRec s job v).map (·.ownerK.isSome)).getD false

/-- Whether a record belongs to a frieze. -/
def ownedBy (r : TxRec) (fz : Nat) : Bool := r.ownerFz == some fz

/-- The domain a g register names (R269). -/
def domOf (g : Dword) : Nat := g.toNat % 64

def execSnap (h : Hdr) (v : BitVec 3) (a : Reg) (s : State) : Res :=
  issueWord (.snap h v a) h s fun c s =>
    if c.isHead && ((s.dom? c.job (domOf (c.g a))).isNone || namesKernelTxn s c.job (c.x.rv v)) then .trap causeProtection 0
    else .done (c.headRequest s (.snap (domOf (c.g a)) v) none (some v)) false

def execUnsnap (h : Hdr) (v : BitVec 3) (s : State) : Res :=
  issueWord (.unsnap h v) h s fun c s =>
    let open_ := match viewRec s c.job (c.x.rv v) with
      | some r => ownedBy r c.id && r.state != .finished
      | none => false
    if c.isHead && (open_ || namesKernelTxn s c.job (c.x.rv v)) then .trap causeProtection 0
    else .done (c.headRequest s (.unsnap v) none (some v)) false

/-- TXBEGIN and TXBEGIN.AGE at issue (R272, R275). -/
def txbeginWord (i : Instr) (h : Hdr) (v : BitVec 3) (a : Reg) (age : Bool) (s : State) : Res :=
  issueWord i h s fun c s =>
    let w := c.x.rv v
    let bad := match viewRec s c.job w with
      | some r =>
        if ownedBy r c.id then
          r.state != .finished ||
            (age && !(decide (2 ≤ r.code) && decide (r.code ≤ 6) && datumDom w.datum == domOf (c.g a)))
        else age
      | none => age
    if c.isHead && ((s.dom? c.job (domOf (c.g a))).isNone || namesKernelTxn s c.job w || bad) then .trap causeProtection 0
    else .done (c.headRequest s (.txbegin (domOf (c.g a)) v age) none (some v)) false

def execTxbegin (h : Hdr) (v : BitVec 3) (a : Reg) (s : State) : Res := txbeginWord (.txbegin h v a) h v a false s
def execTxbeginAge (h : Hdr) (v : BitVec 3) (a : Reg) (s : State) : Res := txbeginWord (.txbeginAge h v a) h v a true s

/-- Whether a view names a record of the job (R275). -/
def namesRecord (s : State) (job : Nat) (v : View) : Bool := v.txid != 0 && (viewRec s job v).isSome

def execTxclaim (h : Hdr) (v : BitVec 3) (a : Reg) (shape : BitVec 4) (s : State) : Res :=
  issueWord (.txclaim h v a shape) h s fun c s =>
    let w := c.x.rv v
    let sh := c.x.rh shape
    if !namesRecord s c.job w then .trap causeProtection 0
    else match shapeCheck sh none none false 0 false with
      | some e => .trap e 0
      | none =>
        if !w.txn || ((viewRec s c.job w).map (·.state)) != some .active then .trap causeProtection 0
        else .done (c.request s (.claim w (c.g a) sh 0 false) none) false

/-- The writes of a station through a view that carries a transaction, not yet effective (R274). -/
def writesOf (x : Station) (txid : BitVec 24) : List Nat :=
  x.slots.toList.filterMap fun k =>
    if k.state = .running ∧ k.view.txn ∧ k.view.txid = txid ∧
      (k.kind = .wr ∨ k.kind = .cp ∨ k.kind = .fill ∨ k.kind = .scat ∨ k.kind = .stg) then some k.uid else none

/-- A station's arrival at a TXCOMMIT: the writes it issued before are waited for (R274). -/
def gatherWrites (c : Ctx) (txid : BitVec 24) (s : State) : State :=
  { s with reqs := s.reqs.map fun (k, r) =>
      if r.fz = c.id ∧ r.lane = some c.lane then (k, { r with waits := r.waits ++ writesOf c.x txid }) else (k, r) }

def execTxcommit (h : Hdr) (v : BitVec 3) (a : Reg) (s : State) : Res :=
  issueWord (.txcommit h v a) h s fun c s =>
    let w := c.x.rv v
    if c.isHead && (!namesRecord s c.job w || namesKernelTxn s c.job w) then .trap causeProtection 0
    else .done (gatherWrites c w.txid
      (c.headRequest s (.txcommit (datumDom w.datum) w.txid.toNat v) (some a) (some v))) false

def execTxabort (h : Hdr) (v : BitVec 3) (s : State) : Res :=
  issueWord (.txabort h v) h s fun c s =>
    let w := c.x.rv v
    if c.isHead && !namesRecord s c.job w then .trap causeProtection 0
    else .done (c.headRequest s (.txabort (datumDom w.datum) w.txid.toNat v) none (some v)) false

def execTxstat (h : Hdr) (v : BitVec 3) (a : Reg) (s : State) : Res :=
  issueWord (.txstat h v a) h s fun c s =>
    let w := c.x.rv v
    if c.isHead && !namesRecord s c.job w then .trap causeProtection 0
    else .done (c.headRequest s (.txstat (datumDom w.datum) w.txid.toNat) (some a) none) false

/-! ### The home's answers -/

/-- The result word of TXCOMMIT and TXSTAT (R274). -/
def txResult (r : TxRec) : Dword :=
  let code := if r.state = .active ∨ r.state = .committing then 0 else r.code
  (if code = 1 then r.cnum else 0) ++ (0 : BitVec 8) ++ BitVec.ofNat 8 code

/-- The view after a record of the frieze has finished, or after UNSNAP (R271, R274). -/
def View.released (v : View) : View := { v with latest := true, live := false, txn := false }

/-- SNAP at the home: it waits while the registration table is full (R257, R271). -/
def respondSnap (s : State) (k : Nat) (r : Req) (dom : Nat) (v : BitVec 3) : State :=
  let w := headView s r.fz v
  let s1 := if w.live then s.unregister r.job r.fz v.toNat else s
  match s1.dom? r.job dom with
  | none => s.failReq k ⟨causeProtection, false⟩ 0
  | some d =>
    if 16384 ≤ d.regCount then s1
    else (s1.register r.job dom r.fz v.toNat d.published).returnReq k
      ⟨none, some (v, ⟨d.published, false, true, false, 0⟩)⟩

def respondUnsnap (s : State) (k : Nat) (r : Req) (v : BitVec 3) : State :=
  (s.unregister r.job r.fz v.toNat).returnReq k ⟨none, some (v, (headView s r.fz v).released)⟩

/-- The new record of a TXBEGIN. -/
def newRec (d : BitVec 48) (ownerFz ownerK : Option Nat) : TxRec :=
  { datum := d, age := d, cl := false, clOff := false, state := .active, code := 0, cnum := 0, ownerFz := ownerFz, ownerK := ownerK,
    ctrls := [], acked := [], refusedBy := [], sent := false, expired := false }

/-- TXBEGIN at the home: a new record takes the lowest TXID that no record holds (DESIGN CHOICE: log entry 112), a retry keeps its TXID and
AGE; either waits, as SNAP does, while the domain holds 16,384 registrations (R257, R272). (DESIGN CHOICE: log entry 113) -/
def respondTxbegin (s : State) (k : Nat) (r : Req) (dom : Nat) (v : BitVec 3) (age : Bool) : State :=
  let w := headView s r.fz v
  let mine := match viewRec s r.job w with
    | some x => ownedBy x r.fz
    | none => false
  let s0 := if mine && !age then s.freeRec r.job (datumDom w.datum) w.txid.toNat else s
  let s1 := if w.live then s0.unregister r.job r.fz v.toNat else s0
  match s1.dom? r.job dom with
  | none => s.failReq k ⟨causeProtection, false⟩ 0
  | some d =>
    let t := if age then w.txid.toNat else firstFree d.recs 1 4097
    if (!age && decide (4096 ≤ d.recs.length)) || decide (16384 ≤ d.regCount) then s1
    else
      let s2 := if age then
          s1.updRec r.job dom t fun x => { newRec d.published x.ownerFz x.ownerK with age := x.age }
        else s1.updDom r.job dom fun d => { d with recs := d.recs.put t (newRec d.published (some r.fz) none) }
      (s2.register r.job dom r.fz v.toNat d.published).returnReq k
        ⟨none, some (v, ⟨d.published, true, true, false, BitVec.ofNat 24 t⟩)⟩

/-- The view and registration after TXCOMMIT or TXABORT of a record (R274). -/
def afterFinish (s : State) (r : Req) (v : BitVec 3) (x : TxRec) : State × Option (BitVec 3 × View) :=
  if ownedBy x r.fz then (s.unregister r.job r.fz v.toNat, some (v, (headView s r.fz v).released)) else (s, none)

/-- TXCOMMIT returns once its record is FINISHED (R270, R274). -/
def respondTxcommit (s : State) (k : Nat) (r : Req) (dom txid : Nat) (v : BitVec 3) (a : Option Reg) : State :=
  match s.rec? r.job dom txid with
  | none => s.failReq k ⟨causeProtection, false⟩ 0
  | some x =>
    if x.state ≠ .finished then s
    else
      let p := afterFinish s r v x
      p.1.returnReq k ⟨a.map fun d => (d, txResult x), p.2⟩

/-- TXABORT at the home: an ACTIVE record ends with code 4, a DOOMED one with its own; others stand (R258, R274). -/
def respondTxabort (s : State) (k : Nat) (r : Req) (dom txid : Nat) (v : BitVec 3) : State :=
  match s.rec? r.job dom txid with
  | none => s.failReq k ⟨causeProtection, false⟩ 0
  | some x =>
    match x.state with
    | .active =>
      let p := afterFinish (s.finishRec r.job dom txid 4 0) r v x
      p.1.returnReq k ⟨none, p.2⟩
    | .doomed =>
      let p := afterFinish (s.finishRec r.job dom txid x.code 0) r v x
      p.1.returnReq k ⟨none, p.2⟩
    | _ => s.returnReq k ⟨none, none⟩

def respondTxstat (s : State) (k : Nat) (r : Req) (dom txid : Nat) (a : Option Reg) : State :=
  match s.rec? r.job dom txid with
  | none => s.failReq k ⟨causeProtection, false⟩ 0
  | some x => s.returnReq k ⟨a.map fun d => (d, txResult x), none⟩

/-- TXCLAIM claims the next element's line, or ends; a claim that dooms its own transaction has ended (R260, R273). -/
def respondClaim (s : State) (k : Nat) (r : Req) (v : View) (base : Dword) (sh : Shape) (n : Nat) (any : Bool) : State :=
  let next (s : State) (any : Bool) : State :=
    { s with reqs := s.reqs.put k { r with kind := .claim v base sh (n + 1) any } }
  let dom := datumDom v.datum
  match viewRec s r.job v with
    | none => s.failReq k ⟨causeProtection, false⟩ base
    | some x =>
      if x.state = .doomed then s.returnReq k ⟨none, none⟩
      else if sh.count ≤ n then
        (if any && x.state == .active && !x.clOff then s.updRec r.job dom v.txid.toNat fun x => { x with cl := true } else s).returnReq k
          ⟨none, none⟩
      else
        let a := elementAddr base sh none n
        match elementCheck s r.job r.tile base a sh.size .write with
        | .error e => s.failReq k e (mkForm (formSpace base) a.toNat)
        | .ok p =>
          match p.ver with
          | none => next s any
          | some d =>
            if x.state ≠ .active then s.failReq k ⟨causeProtection, false⟩ (mkForm (formSpace base) a.toNat)
            else if !s.reachable (p.addr / 2 ^ 42) then s.failReq k ⟨causeFabric, false⟩ (mkForm (formSpace base) a.toNat)
            else match writeLine s r.job v d (p.addr / 128) 0 [] true r.uid with
            | .done s1 live => if live then next s1 true else s1
            | .wait s1 => s1
            | .fault e => s.failReq k e (mkForm (formSpace base) a.toNat)

end Sys2Proof.Machine
end

