-- ==== Sys2Proof/Machine/Ports.lean ====
section
/-! DEFINITION. Ports: how a beat enters an in-port and leaves an out-port, PORTRD, PORTWR, PORTSPC, SPORTCFG, and the words that load shape and view registers (R67, R71, R77, R89–R92, R113, R208–R214, R225). -/

namespace Sys2Proof.Machine

/-! ### Port access -/

/-- PORTRD (R211, R214). -/
def execPortrd (h : Hdr) (d a : Reg) (o : BitVec 5) (s : State) : Res :=
  issueWord (.portrd h d a o) h s fun c s =>
    if s.foreignPort c.tile (32 + o.toNat) c.id then .trap causeProtection 0
    else match (s.tile c.tile).outPort o.toNat with
      | [] => .done s true
      | b :: _ =>
        if b.r.poison then .trap causePoison 0
        else
          let s1 := s.popOut c.tile o.toNat
          .done (c.setG (c.setG s1 d (b.r.data.extractLsb' 0 64)) a (b.r.data.extractLsb' 64 64)) true

/-- PORTWR (R212, R214). -/
def execPortwr (h : Hdr) (d a : Reg) (i : BitVec 5) (s : State) : Res :=
  issueWord (.portwr h d a i) h s fun c s =>
    if s.foreignPort c.tile i.toNat c.id then .trap causeProtection 0
    else .done (s.enterPort c.tile i.toNat
      { kind := kindData, data := c.g a ++ c.g d, side := 0, poison := false }) true

/-- The word PORTSPC writes (R213). -/
def portStatus (x : Tile) (p : Nat) : Dword :=
  let count := BitVec.ofNat 64 (x.portCount p)
  if p < 32 then count
  else match x.outPort (p - 32) with
    | [] => count
    | b :: _ =>
      count ||| (b.kind.zeroExtend 64 <<< 7) ||| (if b.r.poison then 0x200 else 0) ||| 0x400 |||
        (if b.kind = kindCtrl then (low16 b.r.data).zeroExtend 64 <<< 16 else 0)

def execPortspc (h : Hdr) (d a : Reg) (port : BitVec 6) (s : State) : Res :=
  issueWord (.portspc h d a port) h s fun c s =>
    if s.foreignPort c.tile port.toNat c.id then .trap causeProtection 0
    else .done (c.setG s d (portStatus (s.tile c.tile) port.toNat)) true

/-! ### Port configuration (R225) -/

/-- Whether a port is configured by another frieze. -/
def State.foreignCfg (s : State) (t p id : Nat) : Bool :=
  match (s.tile t).cfg.find p with
  | none => false
  | some c => c.fz != id

/-- SPORTCFG: 1 is added at issue if COUNT already stands at the level. -/
def execSportcfg (h : Hdr) (port : BitVec 6) (t : BitVec 5) (k : BitVec 6) (s : State) : Res :=
  issueWord (.sportcfg h port t k) h s fun c s =>
    let p := port.toNat
    if s.foreignPort c.tile p c.id || s.foreignCfg c.tile p c.id then .trap causeProtection 0
    else
      let s1 := s.updTile c.tile fun x => { x with cfg := x.cfg.put p ⟨c.id, 2 * t.toNat, k.toNat⟩ }
      .done (if 2 * t.toNat ≤ (s.tile c.tile).portCount p then s1.addCount c.id c.st k 1 else s1) true

def execSportcfgOff (h : Hdr) (port : BitVec 6) (s : State) : Res :=
  issueWord (.sportcfgOff h port) h s fun c s =>
    let p := port.toNat
    if s.foreignPort c.tile p c.id || s.foreignCfg c.tile p c.id then .trap causeProtection 0
    else .done (s.updTile c.tile fun x => { x with cfg := x.cfg.del p }) true

/-! ### Shape and view registers (R208, R210) -/

def execShape (h : Hdr) (x : BitVec 4) (a b e d : Reg) (s : State) : Res :=
  issueWord (.shape h x a b e d) h s fun c s =>
    .done (c.upd s (·.setH x #v[c.g a, c.g b, c.g e, c.g d])) true

/-- View x of the station loaded; the frieze's registration of that view goes with its last LIVE copy (R210, R266). -/
def loadView (s : State) (c : Ctx) (x : BitVec 3) (v : View) : State :=
  let s1 := c.upd s (·.setV x v)
  if (c.x.rv x).live && !(((s1.friezes.find c.id).map fun f => f.stations.any fun y => (y.rv x).live).getD false) then
    s1.unregister c.f.job c.id x.toNat
  else s1

def execViewld (h : Hdr) (x : BitVec 3) (a b : Reg) (s : State) : Res :=
  issueWord (.viewld h x a b) h s fun c s =>
    .done (loadView s c x (View.ofDwords (c.g a) (c.g b))) true

def execViewldGet (h : Hdr) (x : BitVec 3) (a b : Reg) (s : State) : Res :=
  issueWord (.viewldGet h x a b) h s fun c s =>
    .done (c.setG (c.setG s a (c.x.rv x).dword0) b (c.x.rv x).dword1) true

end Sys2Proof.Machine
end

