-- ==== Sys2Proof/Machine/Release.lean ====
section
/-! DEFINITION. What an exited or ended frieze gives back, and the completion of a slot (R89, R101, R190, R225, R247, R258, R276, R318, R358, R360). -/

namespace Sys2Proof.Machine

/-! ### Maquette contexts given back (R101) -/

/-- The contexts of a tile a frieze owns. -/
def Tile.ctxsOf (x : Tile) (id : Nat) : List Nat :=
  (List.range 4).filter fun k => (x.ctxs.toList[k]?.bind (·.owner)) == some id

/-- The columns active under one of some contexts. -/
def Tile.colsUnder (x : Tile) (ks : List Nat) : List Nat :=
  (List.range 16).filter fun j => match x.cols.toList[j]?.bind (·.active) with
    | some k => ks.contains k
    | none => false

/-- The out-port words active under one of some contexts. -/
def Tile.outsUnder (x : Tile) (ks : List Nat) : List Nat :=
  x.outAct.filterMap fun (o, k) => if ks.contains k then some o else none

/-- Columns and out-port words made idle, and the links and decision queues of some contexts discarded; accumulators and
column status words keep what they hold (R101, R109, R116). -/
def Tile.idle (x : Tile) (cols outs ks : List Nat) : Tile :=
  { x with
    cols := Vector.ofFn fun j => if cols.contains j.val then { Col.reset with status := x.cols[j].status } else x.cols[j]
    outAct := x.outAct.filter fun (o, _) => !outs.contains o
    links := x.links.filter fun (k, _) => !ks.contains (k / 2048)
    pend := x.pend.filter fun (k, _) => !cols.contains (k / 4)
    ops := x.ops.filter fun (k, _) => !cols.contains (k / 4)
    dqs := x.dqs.filter fun (k, _) => !ks.contains (k / 64)
    cells := x.cells.filter fun (k, _) => !cols.contains (k % 16)
    sys := x.sys.filter fun (k, _) => !cols.contains k }

/-- The contexts of a frieze on a tile become EMPTY, its columns and out-ports idle, its port configurations and
memberships end (R101, R225, R360). -/
def Tile.release (x : Tile) (id : Nat) : Tile :=
  let ks := x.ctxsOf id
  let y := x.idle (x.colsUnder ks) (x.outsUnder ks) ks
  { y with
    ctxs := y.ctxs.map fun c => if c.owner = some id then MaqCtx.reset else c
    cfg := y.cfg.filter fun (_, c) => c.fz != id
    member := y.member.filter fun (_, m) => m.2 != id }

/-! ### Registrations and records given back (R258, R265, R276) -/

/-- A record of an owner that has gone is freed, but for one that is COMMITTING: its commit completes first. -/
def releaseRecs (s : State) (job : Nat) (mine : TxRec → Bool) : State :=
  s.domains.foldl (init := s) fun s (k, d) =>
    if k / 64 = job then
      d.recs.foldl (fun s (t, r) =>
        if mine r ∧ r.state ≠ .committing then s.freeRec job (k % 64) t else s) s
    else s

/-- The registrations of a frieze's views released. -/
def releaseRegs (s : State) (job id : Nat) : State :=
  { s with domains := s.domains.map fun (k, d) =>
      if k / 64 = job then (k, { d with regs := d.regs.filter fun r => r.fz != id }) else (k, d) }

/-! ### Exit (R318) -/

/-- Whether a station has nothing running: every slot IDLE and no scalar access held. -/
def Station.quiet (x : Station) : Bool := x.slots.toList.all (fun k => k.state == .idle) && x.pend.isEmpty

/-- Everything a frieze gives back when it has exited or is ended. -/
def State.releaseFz (s : State) (id : Nat) : State :=
  match s.friezes.find id with
  | none => s
  | some f =>
    if f.state = .ended then s else
    let s0 := { s with reqs := s.reqs.filter fun (_, r) => r.fz != id || !r.unsent s }
    let s1 := s0.unsendFz id |>.updFz id fun f => { f with state := .ended, sampling := false, save := [], lane := [], fetched := [], stop := .no }
    let s2 := (List.range f.len).foldl (fun s k =>
      if (s.tiles.find (f.tileOf k)).isSome then s.updTile (f.tileOf k) (·.release id) else s) s1
    let s3 := { s2 with
      routes := s2.routes.filter fun (_, r) => !r.isOf id
      cur := if (s2.cur.map (·.fz)) = some id then none else s2.cur }
    let s4 := releaseRegs (releaseRecs s3 f.job fun r => r.ownerFz == some id) f.job id
    { s4 with kernels := s4.kernels.map fun (k, q) => if k = f.kernel then (k, { q with exited := q.exited + 1 }) else (k, q) }

/-- The mode 01 signal of EXIT on each station whose slots are all IDLE (R318). -/
def exitSignals (s : State) (id : Nat) : State :=
  match s.friezes.find id with
  | none => s
  | some f => f.stations.zipIdx.foldl (init := s) fun s (x, st) =>
      match x.exitSig with
      | some g => if x.quiet then
          (s.addCount g.fz g.st g.k 1).updSt id st fun x => { x with exitSig := none } else s
      | none => s

/-- A frieze exits once every station has issued EXIT and every slot is IDLE; a fault still to be delivered keeps it. A handler
ends by HANDLER_END instead (R400). -/
def settleExit (s : State) (id : Nat) : State :=
  match s.friezes.find id with
  | none => s
  | some f =>
    if f.state ≠ .resident ∨ !f.stations.any (·.exiting) then s
    else
      let s1 := exitSignals s id
      if f.handlerOf.isNone && f.stations.all fun x => x.exiting && x.quiet && x.faults.isEmpty then s1.releaseFz id else s1

/-! ### The end of a slot's work (R190, R247) -/

/-- Whether a slot holds an access that is never cut short (R247). -/
def SKind.whole : SKind → Bool
  | .ldg | .stg | .atomg | .ratom | .rsig => true
  | _ => false

/-- A slot whose work is complete: IDLE, its completion signal added, its access no longer outstanding, the SABORTs that
waited for it answered with 1. -/
def State.completeSlot (s : State) (id st k : Nat) : State :=
  match s.station? id st with
  | none => s
  | some x =>
    let q := x.slot (BitVec.ofNat 4 k)
    let s1 := s.updSt id st fun x => { x.setSlot (BitVec.ofNat 4 k) Slot.idle with
      ended := some (s.cycles.toNat, k, if q.kind.whole then 1 else q.next) }
    let s2 := ((s1.sigDone id st q.sigMode q.sigK).retire id q.uid).unsend (s.tileAt id st) [q.uid]
    let s3 := q.aborts.foldl (fun s (g, m, c) => (s.updSt id st (·.setG g 1)).sigDone id st m c) s2
    settleExit s3 id

end Sys2Proof.Machine
end

