-- ==== Sys2Proof/Machine/Access.lean ====
section
/-! DEFINITION. One element's access through a view, atomic updates, and the scalar accesses of group 0x4 (R177, R181, R182, R187, R195, R201–R207, R254, R255). -/

namespace Sys2Proof.Machine

/-- An address form with the ADDR of an exact address. -/
def formAt (f : Dword) (a : Int) : Dword := (f &&& 0xFF80000000000000) ||| (BitVec.ofInt 64 a &&& 0x007FFFFFFFFFFFFF)

/-- Whether the memory of a place can be reached (R187, R223). (DESIGN CHOICE: log entry 8) -/
def State.placeUp (s : State) (p : Place) : Bool :=
  match p.mem with
  | .hbm => s.reachable (p.addr / 2 ^ 42)
  | _ => true

/-! ### Owner nodes (R206, R363) -/

/-- The rows of a bank, 128 bytes each, that a SHARED range takes in: from the first to before the second (R184). -/
def OwnerRange.rows (r : OwnerRange) (bank : Nat) : Nat × Nat :=
  match r.banks.findIdx? (· == bank) with
  | none => (0, 0)
  | some i =>
    let n := r.banks.length
    let upto (line : Nat) : Nat := (line - i + n - 1) / n
    let p := (upto (r.start / 128), upto ((r.start + r.len) / 128))
    if p.1 < p.2 then p else (0, 0)

/-- Whether a byte lies in a range: of a bank for a SHARED one, else of HBM. -/
def OwnerRange.holds (r : OwnerRange) (addr : Nat) : Bool :=
  if r.shared then
    let p := r.rows (addr / 2 ^ 20)
    decide (p.1 ≤ addr % 2 ^ 20 / 128) && decide (addr % 2 ^ 20 / 128 < p.2)
  else decide (r.start ≤ addr) && decide (addr < r.start + r.len)

/-- The owner range the bytes at a place lie in, by physical address, of any job (R363). -/
def ownerRange? (s : State) (p : Place) : Option OwnerRange :=
  match p.mem with
  | .tile _ => none
  | m => s.jobs.findSome? fun (_, j) => j.owners.find? fun r => r.shared == (m == .sram) && r.holds p.addr

/-- The owner node of a place, where the bytes lie at another memory: it has to forward (R356, R363). -/
def ownerForward (s : State) (p : Place) : Option Nat :=
  (ownerRange? s p).bind fun r =>
    let m := if r.shared then s.moduleId.toNat else r.start / 2 ^ 42
    let node := 528 * m + (if r.kind = 1 then r.node else 512 + r.node)
    let home := match p.mem with
      | .hbm => ctrlNode m (p.addr / 128)
      | _ => bankNode m (p.addr / 2 ^ 20)
    if node = home then none else some node

/-- An access of a list, each an address form, an exact address, a size and a kind, reaches the memory or its owner node: whether no
owner node answers RETRY (R356, R357, R363). (DEDUCED: log entry 103) -/
def State.enterNodes (s : State) (u job tile : Nat) : List (Dword × Int × Nat × Access) → Bool × State
  | [] => (true, s)
  | (f, a, z, k) :: rest =>
    match elementCheck s job tile f a z k with
    | .error _ => s.enterNodes u job tile rest
    | .ok p =>
      match ownerForward s p with
      | none => s.enterNodes u job tile rest
      | some n =>
        let g := s.forward n (if k = .atomic then 2 else 0) u
        if g.1 then g.2.enterNodes u job tile rest else g

/-- The outcome of reading an element. -/
inductive Got where
  | ok (bs : List Byte) (bad : Bool)
  | wait
  | err (v : Viol)
deriving DecidableEq, Repr

/-- The z bytes of an element at an exact address, through a copy of view x of frieze fz (R181, R182, R254). -/
def fetchElem (s : State) (job fz : Nat) (x : BitVec 3) (tile : Nat) (v : View) (form : Dword) (a : Int) (z : Nat) : Got :=
  match elementCheck s job tile form a z .read with
  | .error e => .err e
  | .ok p =>
    if !s.placeUp p then .err ⟨causeFabric, false⟩
    else match p.ver with
      | none => .ok (s.bytesAt p z) (s.badAt p z)
      | some d =>
        match readLine s job fz x v d (p.addr / 128) with
        | .bytes bs bad => .ok ((bs.drop (p.addr % 128)).take z) bad
        | .wait => .wait
        | .fault e => .err e

/-- The outcome of writing an element. -/
inductive PutRes where
  | done (s : State)
  | wait (s : State)
  | err (v : Viol)
deriving DecidableEq, Repr

/-- An element's bytes written at an exact address, through a view, for access u (R181, R182, R255). -/
def storeElem (s : State) (u job tile : Nat) (v : View) (form : Dword) (a : Int) (bs : List Byte) : PutRes :=
  match elementCheck s job tile form a bs.length .write with
  | .error e => .err e
  | .ok p =>
    if !s.placeUp p then .err ⟨causeFabric, false⟩
    else match p.ver with
      | none => .done (s.putBytes p bs)
      | some d =>
        match writeLine s job v d (p.addr / 128) (p.addr % 128) bs false u with
        | .done s' _ => .done s'
        | .wait s' => .wait s'
        | .fault e => .err e

/-! ### Atomic updates (R206) -/

/-- The new value of an update of w bits, none for a CAS that fails. -/
def atomNew (op w : Nat) (old b c : Dword) : Option Dword :=
  let o := old.toNat % 2 ^ w
  let x := b.toNat % 2 ^ w
  let so := (BitVec.ofNat w o).toInt
  let sx := (BitVec.ofNat w x).toInt
  let out (n : Nat) : Option Dword := some (BitVec.ofNat 64 (n % 2 ^ w))
  match op with
  | 0 => out x
  | 1 => if o = c.toNat % 2 ^ w then out x else none
  | 2 => out (o + x)
  | 3 => out (o &&& x)
  | 4 => out (o ||| x)
  | 5 => out (o ^^^ x)
  | 6 => out (if so ≤ sx then o else x)
  | 7 => out (if so ≤ sx then x else o)
  | 8 => out (min o x)
  | 9 => out (max o x)
  | _ => out (fadd .rne 0 (BitVec.ofNat 32 o) (BitVec.ofNat 32 x)).toNat

/-- One indivisible update of z bytes at an exact address: the state after it and the old value (R206, R207). -/
def atomicAt (s : State) (job tile : Nat) (form : Dword) (a : Int) (z op : Nat) (b c : Dword) : Except Viol (State × Dword) :=
  match elementCheck s job tile form a z .atomic with
  | .error e => .error e
  | .ok p =>
    if !s.placeUp p then .error ⟨causeFabric, false⟩
    else if s.badAt p z then .error ⟨causePoison, false⟩
    else
      let old := bvOf 64 (s.bytesAt p z)
      match atomNew op (8 * z) old b c with
      | none => .ok (s, old)
      | some v => .ok (s.putBytes p (leBytes v.toNat z), old)

/-! ### Traffic of other modules (R376–R378) -/

/-- The master descriptor of the traffic of a job from a module (R377). -/
def remoteMaster (s : State) (job m : Nat) : Dword :=
  (5 : BitVec 4) ++ BitVec.ofNat 8 job ++ s.moduleId ++ (0 : BitVec 16) ++ BitVec.ofNat 10 m ++ (0 : BitVec 16)

/-- The traffic of a job from a module is frozen by a message of it that this module's translation refuses (R376). -/
def State.blockTraffic (s : State) (job m : Nat) (v : Viol) (addr : Dword) : State :=
  if ((s.job? job).map (·.blocked.contains m)).getD true then s
  else (s.updJob job fun x => { x with blocked := m :: x.blocked }).mqRecord job 0x01 v.cause (remoteMaster s job m) addr

/-! ### Slots -/

/-- A slot changed. -/
def State.updSlot (s : State) (id st k : Nat) (g : Slot → Slot) : State :=
  s.updSt id st fun x => x.setSlot (BitVec.ofNat 4 k) (g (x.slot (BitVec.ofNat 4 k)))

/-- A slot taken by an instruction: RUNNING with its access number, signal and the accesses it waits for (R172, R235). -/
def Ctx.takeSlot (c : Ctx) (s : State) (k : BitVec 4) (q : Slot) (extra : List Nat) : State :=
  (c.upd s (·.setSlot k { q with
    state := .running
    uid := s.serial
    sigMode := c.h.sigMode
    sigK := c.h.sigK
    waits := c.x.waitsFor q.kind.classes (q.kind != .recur) ++ extra
    barred := c.x.barredFor q.kind.classes (q.kind != .recur)
    hold := s.cycles.toNat })).bump

/-! ### Scalar accesses (R201–R205) -/

/-- The exact address of a scalar access. -/
def scalarAddr (f : Dword) (imm : BitVec 26) : Int := formAddr f + imm.toInt

/-- The check at issue: the spaces allowed, alignment, and for the accesses that hold no slot the rest of R182 and R17 (R204). -/
def scalarCheck (s : State) (c : Ctx) (f : Dword) (a : Int) (z : Nat) (global : Bool) (k : Access) : Option Viol :=
  if global != (formSpace f == spGlobal) || formSpace f == 3 then some ⟨causeProtection, false⟩
  else if a % z ≠ 0 then some ⟨causeMisaligned, false⟩
  else if global then none
  else match elementCheck s c.job c.tile f a z k with
    | .error e => some e
    | .ok _ => none

/-- Whether two ranges of bytes of a station overlap: by address, or by the memory their addresses translate to (R203). -/
def overlaps (s : State) (job : Nat) (f1 : Dword) (a1 : Int) (z1 : Nat) (f2 : Dword) (a2 : Int) (z2 : Nat) : Bool :=
  let cross (x : Int) (n : Nat) (y : Int) (m : Nat) : Bool := decide (x < y + m) && decide (y < x + n)
  formSpace f1 == formSpace f2 &&
    (cross a1 z1 a2 z2 ||
      (formSpace f1 == spGlobal && (match translate s job a1.toNat .aperture, translate s job a2.toNat .aperture with
        | .ok p, .ok q => cross p.addr z1 q.addr z2
        | _, _ => false)))

/-- The outstanding scalar accesses of the station that overlap some bytes: a later one waits for them (R203). -/
def overlapping (s : State) (c : Ctx) (f : Dword) (a : Int) (z : Nat) : List Nat :=
  c.x.slots.toList.filterMap (fun q =>
    if q.state = .running ∧ (q.kind = .ldg ∨ q.kind = .stg ∨ q.kind = .atomg) ∧
      overlaps s c.job q.base (formAddr q.base + q.base2.toInt) q.q f a z then some q.uid else none) ++
  c.x.pend.filterMap (fun p =>
    if overlaps s c.job p.form p.addr (if p.quad then 32 else 8) f a z then some p.uid else none)

/-- Doublewords written to d, d + 1, … -/
def setGs (x : Station) (d : Reg) : List Dword → Station
  | [] => x
  | v :: vs => setGs (x.setG d v) (d + 1) vs

/-- The doublewords of bytes. -/
def dwordsOf (bs : List Byte) (n : Nat) : List Dword := (List.range n).map fun j => bvOf 64 ((bs.drop (8 * j)).take 8)

/-- A scalar access of LOCAL or SHARED space takes effect: its registers are written, or its bytes; a load of poisoned bytes
leaves its registers and faults at the next boundary (R202, R204). (DESIGN CHOICE: log entry 79) -/
def scalarNow (s : State) (job id st tile : Nat) (p : PendScalar) : State × Bool :=
  let n := if p.quad then 4 else 1
  let form := formAt p.form p.addr
  if p.store then
    match storeElem s p.uid job tile View.zero p.form p.addr (p.vals.flatMap bytesOf) with
    | .done s' => (s', true)
    | .wait s' => (s', false)
    | .err e => (s.addFault id st none e.cause form 0 0, false)
  else
    match fetchElem s job id 0 tile View.zero p.form p.addr (8 * n) with
    | .ok bs bad =>
      if bad then (s.addFault id st none causePoison form 0 0, false)
      else (s.updSt id st fun x => setGs x p.dst (dwordsOf bs n), true)
    | .wait => (s, false)
    | .err e => (s.addFault id st none e.cause form 0 0, false)

/-- The bytes of a store of the station that is not performed yet, which a load that issued after it may return ahead of the
store's instant (R203, R228): the one store that the load's bytes overlap, and that covers them. -/
def forwarded (x : Station) (prior : List Nat) (form : Dword) (a z : Nat) : Option (List Byte) :=
  match prior, x.pend.find? fun p => prior.contains p.uid with
  | [_], some p =>
    if p.store ∧ formSpace p.form = formSpace form ∧ p.addr ≤ a ∧ a + z ≤ p.addr + (if p.quad then 32 else 8) then
      some (((p.vals.flatMap bytesOf).drop (a - p.addr)).take z)
    else none
  | _, _ => none

/-- LDS, STS, LDQ and STQ: performed at issue, or, where the 840 so chooses, where a FENCE holds them or an earlier access to the
same bytes is outstanding, later. A load may return the bytes of a store that still waits. -/
def scalarWord (i : Instr) (h : Hdr) (store quad : Bool) (d a : Reg) (imm : BitVec 26) (s : State) : Res :=
  issueWord i h s fun c s =>
    let f := c.g a
    let ad := scalarAddr f imm
    let z := if quad then 32 else 8
    match scalarCheck s c f ad z false (if store then .write else .read) with
    | some v => v.eff (formAt f ad)
    | none =>
      let held := c.x.waitsFor (if store then clLW else clLR) false
      let prior := overlapping s c f ad z
      let p : PendScalar :=
        { uid := s.serial, store := store, quad := quad, dst := d, form := f, addr := ad.toNat,
          vals := if store then (if quad then (regs4 d).map c.g else [c.g d]) else [],
          waits := held ++ prior,
          sigMode := h.sigMode, sigK := h.sigK }
      let near := match elementCheck s c.job c.tile f ad z (if store then .write else .read) with
        | .ok w => (ownerForward s w).isNone
        | .error _ => true
      if p.waits.isEmpty && !c.late && near then
        let r := scalarNow s c.job c.id c.st c.tile p
        .done r.1 r.2
      else match (if store || c.late || !held.isEmpty then none else forwarded c.x prior f ad.toNat z) with
      | some bs => .done (c.upd s fun x => setGs x d (dwordsOf bs (z / 8))) true
      | none => .done (c.upd s (fun x => { x with pend := x.pend ++ [p] })).bump false

def execLds (h : Hdr) (d a : Reg) (imm : BitVec 26) (s : State) : Res := scalarWord (.lds h d a imm) h false false d a imm s
def execSts (h : Hdr) (d a : Reg) (imm : BitVec 26) (s : State) : Res := scalarWord (.sts h d a imm) h true false d a imm s
def execLdq (h : Hdr) (d a : Reg) (imm : BitVec 26) (s : State) : Res := scalarWord (.ldq h d a imm) h false true d a imm s
def execStq (h : Hdr) (d a : Reg) (imm : BitVec 26) (s : State) : Res := scalarWord (.stq h d a imm) h true true d a imm s

/-- The slot of a one-element access: the address form, its offset and its size. -/
def oneSlot (kind : SKind) (f : Dword) (off : Int) (z : Nat) (view : View) : Slot :=
  { Slot.idle with kind := kind, base := f, base2 := BitVec.ofInt 64 off, q := z, view := view }

/-- The STG of the station that is not performed yet, by its access number, whose value an LDG of the same address through the same
view, of no transaction, may return ahead of the store's instant (R203, R228). -/
def forwardedG (x : Station) (prior : List Nat) (f : Dword) (a : Int) : Option Nat :=
  match prior with
  | [u] => (x.slots.toList.find? fun q => q.state == .running && q.uid == u && q.kind == .stg && q.view == x.rv 0 && !q.view.txn &&
      decide (formAt q.base (formAddr q.base + q.base2.toInt) = formAt f a)).map (·.uid)
  | _ => none

/-- LDG and STG: one-element streams of view v0 (R202). An LDG that nothing holds may go ahead of the one STG it would wait for, whose
value it then returns (R203, R228). -/
def globalWord (i : Instr) (h : Hdr) (kind : SKind) (d a : Reg) (imm : BitVec 26) (s : State) : Res :=
  issueWord i h s fun c s =>
    let f := c.g a
    let ad := scalarAddr f imm
    match scalarCheck s c f ad 8 true .read, c.x.freeSlot with
    | some v, _ => v.eff (formAt f ad)
    | none, none => .done s false
    | none, some k =>
      let prior := overlapping s c f ad 8
      let early := if kind = .ldg ∧ !c.late ∧ (c.x.waitsFor kind.classes true).isEmpty then forwardedG c.x prior f ad else none
      let q := { oneSlot kind f imm.toInt 8 (c.x.rv 0) with
        dst := d
        val := c.g d
        applied := early.isSome
        cmp := BitVec.ofNat 64 (early.getD 0) }
      .done (c.takeSlot s k q (if early.isSome then [] else prior)) false

def execLdg (h : Hdr) (d a : Reg) (imm : BitVec 26) (s : State) : Res := globalWord (.ldg h d a imm) h .ldg d a imm s
def execStg (h : Hdr) (d a : Reg) (imm : BitVec 26) (s : State) : Res := globalWord (.stg h d a imm) h .stg d a imm s

/-- The faults of ATOMG found at issue: alignment, SPACE and RSVD (R207). A BOUNDS fault of a LOCAL or SHARED offset is found in the slot, as
R196 states. (DESIGN CHOICE: log entry 110) -/
def atomCheck (f : Dword) (z : Nat) : Option Viol :=
  if formAddr f % z ≠ 0 then some ⟨causeMisaligned, false⟩ else formCheck f

def execAtomg (h : Hdr) (d a b e : Reg) (op : BitVec 4) (size : Bool) (s : State) : Res :=
  issueWord (.atomg h d a b e op size) h s fun c s =>
    let f := c.g a
    let z := if size then 8 else 4
    match atomCheck f z, c.x.freeSlot with
    | some v, _ => v.eff f
    | none, none => .done s false
    | none, some k =>
      let q := { oneSlot .atomg f 0 z View.zero with
        op := op.toNat
        wide := size
        val := c.g b
        cmp := c.g e
        dst := d }
      .done (c.takeSlot s k q (overlapping s c f (formAddr f) z)) false

end Sys2Proof.Machine
end

