-- ==== Sys2Proof/Machine/LaneOps.lean ====
section
/-! DEFINITION. Lane operators: what one firing of a stage computes from the vectors it consumes (R82–R84, R98, R111–R145, R160, R161). -/

namespace Sys2Proof.Machine

/-! ### Records (R113) -/

/-- Lanes of a vector. -/
abbrev Lanes := List (Option Rec)

/-- Word w of a record. -/
def Rec.word (r : Rec) (w : Nat) : Word := r.data.extractLsb' (32 * w) 32
/-- Four words as data. -/
def ofWords (f : Nat → Word) : Data := f 3 ++ f 2 ++ f 1 ++ f 0

/-- A record an operator forms: CHAN and beat index of its first input, no scale, EPOS 0 (R21, R77, R113). -/
def Rec.formed (r : Rec) (form : Form) (poison : Bool) (data : Data) : Rec :=
  { data := data, side := 0, chan := r.chan, poison := poison, idx := r.idx, form := form, scaled := none, sparse := false, epos := 0 }

/-- A record formed from no input record (R21). -/
def Rec.fresh (form : Form) (data : Data) (side : Side) (poison : Bool) : Rec :=
  { data := data, side := side, chan := 0, poison := poison, idx := 0, form := form, scaled := none, sparse := false, epos := 0 }

/-- Whether a form is one of W32F and W32I. -/
def Form.isW32 : Form → Bool
  | .w32f | .w32i => true
  | _ => false
/-- The format of a PACKED or LOOSE record. -/
def Form.narrow? : Form → Option Fmt
  | .packed f | .loose f => some f
  | _ => none

/-- The code of element i of a PACKED or LOOSE record. -/
def Rec.code (r : Rec) (f : Fmt) (i : Nat) : Nat :=
  match r.form with
  | .loose _ => (r.word i).toNat % 2 ^ f.width
  | _ => (r.data.toNat / 2 ^ (f.width * i)) % 2 ^ f.width

/-- The scale byte of block b of a record: byte b of SIDE, of a LOOSE record byte 0, or PSCALE (R68, R70, R113). -/
def Rec.scaleByte (r : Rec) (b : Nat) : Byte :=
  match r.scaled with
  | some ⟨_, some p⟩ => p
  | _ => match r.form with
    | .loose _ => r.side.extractLsb' 0 8
    | _ => r.side.extractLsb' (8 * b) 8

/-- The scale of block b; 1 where the record has none (R68, R70). -/
def Rec.scale (r : Rec) (b : Nat) : Option Rat :=
  match r.scaled with
  | none => some 1
  | some k => scaleVal k.sq8 (r.scaleByte b)

/-- The valid lanes of a vector. -/
def validOf (v : Lanes) : List Nat := (List.range 16).filter fun l => (v[l]?.join).isSome
/-- A record of a vector. -/
def recAt (v : Lanes) (l : Nat) : Option Rec := v[l]?.join
/-- Some records in lanes 0, 1 and onward. -/
def compacted (rs : List Rec) : Lanes := (List.range 16).map fun l => rs[l]?
/-- A vector with no valid lane. -/
def noLanes : Lanes := List.replicate 16 none

/-! ### Which operators there are (R53, R118–R144, R160) -/

/-- Whether an operator uses layout K (R52). -/
def layoutK (op : Nat) : Bool := op == 0x05 || op == 0x06 || op == 0xB0 || op == 0xB1

/-- Inputs an operator uses; none for a reserved opcode. IMM takes the second input of an integer operator (R126). -/
def opInputs (op p : Nat) : Option Nat :=
  if op = 0x06 then some 0
  else if op = 0x00 ∨ op = 0x01 ∨ op = 0x05 ∨ op = 0x1F ∨ op = 0xB0 ∨ op = 0xB1 ∨ op = 0x81 ∨ op = 0xA0 then some 1
  else if op = 0x02 ∨ op = 0x03 ∨ op = 0x04 ∨ op = 0x07 ∨ op = 0x70 ∨ op = 0x71 ∨ op = 0x80 then some 2
  else if 0x10 ≤ op ∧ op ≤ 0x1E then some (if 128 ≤ p then 1 else 2)
  else if op = 0x23 ∨ op = 0x42 ∨ op = 0x43 ∨ op = 0x44 then some 3
  else if (0x20 ≤ op ∧ op ≤ 0x25) ∨ op = 0x40 ∨ op = 0x41 then some 2
  else if op = 0x26 ∨ op = 0x27 ∨ (0x30 ≤ op ∧ op ≤ 0x34) ∨ op = 0x45 ∨ (0x50 ≤ op ∧ op ≤ 0x55) ∨
      (0x60 ≤ op ∧ op ≤ 0x65) then some 1
  else none

/-- Whether an operator has an output 1. -/
def hasOut1 (op : Nat) : Bool := op == 0x01 || op == 0x02 || op == 0x60 || op == 0xB1

/-- Whether an operator takes its inputs independently (R94). -/
def independent (op : Nat) : Bool := op == 0x03 || op == 0x04 || op == 0x07

/-- Whether an operator rounds, so that RM may be other than 0; group 0x3 may not hold SR (R83, R117). -/
def rmOk (op p : Nat) (rm : Rm) : Bool :=
  if rm = .rne then true
  else if (0x20 ≤ op ∧ op ≤ 0x23) ∨ op = 0x50 ∨ op = 0x54 ∨ (0x60 ≤ op ∧ op ≤ 0x63) ∨ op = 0x70 ∨ op = 0x71 then true
  else if 0x30 ≤ op ∧ op ≤ 0x34 then rm != .sr
  else op == 0x80 && p % 4 == 2

/-- Whether the parameter of a layout G operator is one its entry allows. -/
def paramOk (op p : Nat) : Bool :=
  let b (k : Nat) : Bool := p / 2 ^ k % 2 == 1
  if op = 0x02 then decide (p < 32)
  else if op = 0x04 then decide (p < 4)
  else if op = 0x1F then p == 0
  else if 0x10 ≤ op ∧ op ≤ 0x1E then
    128 ≤ p || (p / 2 == 0 && (!b 0 || (0x13 ≤ op && op ≤ 0x16) || op == 0x1D || op == 0x1E))
  else if op = 0x40 then decide (p < 16) && decide (p % 8 ≤ 5)
  else if op = 0x41 then decide (p ≤ 6)
  else if op = 0x50 then decide (p ≤ 4)
  else if op = 0x51 ∨ op = 0x52 then decide (p < 16) && decide (p % 8 ≤ 4)
  else if op = 0x53 then (p / 8 == 0 || p / 8 == 2) && decide (p % 8 ≤ 4)
  else if op = 0x54 ∨ op = 0x55 then decide (p < 4)
  else if op = 0x60 then decide (1 ≤ p) && decide (p ≤ 7)
  else if op = 0x61 ∨ op = 0x65 then decide (p < 8)
  else if op = 0x62 ∨ op = 0x64 ∨ op = 0xA0 then decide (p < 2)
  else if op = 0x63 then decide (p ≤ 4)
  else if op = 0x70 then decide (p < 64) && decide (3 ≤ p % 16) && decide (p % 16 ≤ 7) && !(b 4 && b 5)
  else if op = 0x71 then decide (p < 16)
  else if op = 0x80 then decide (2 ≤ p / 16) && decide (p / 16 ≤ 10) && p / 4 % 4 == 0 && p % 4 != 3
  else if op = 0x81 then decide (2 ≤ p / 16) && decide (p / 16 ≤ 10) && p % 16 == 0
  else p == 0

/-- Whether MODE and VALUE of a layout K operator are ones its entry allows. -/
def modeOk (op mode value : Nat) : Bool :=
  decide (mode ≤ 1) && (if op = 0x05 then decide (1 ≤ value) && decide (value ≤ 32) else if op = 0x06 then true else value != 0)

/-! ### Accepted forms (R114, R133, R160) -/

/-- Parts of a record for WIDEN, UNPACK and DQBLK. (DEDUCED: log entry 34) -/
def Form.parts : Form → Nat
  | .packed f => if f.width = 16 then 2 else if f.width = 4 then 8 else 4
  | _ => 1

/-- The rule a record breaks at an input of an operator; none if it is accepted. -/
def formFault (o : StageOp) (input : Nat) (r : Rec) : Option Nat :=
  if o.op / 16 = 0 ∨ o.op = 0xB0 ∨ o.op = 0xB1 then none
  else if r.sparse then some 114
  else if o.op = 0x61 ∨ o.op = 0x65 ∨ (o.op = 0x71 ∧ input = 0) then
    if r.form.narrow?.isNone then some 114 else if r.form.parts ≤ o.p % 8 then some 133 else none
  else if o.op = 0x64 then
    match r.form with
    | .loose f => if o.p = 1 ∧ f ≠ .e3m2 ∧ f ≠ .e2m3 then some 114 else none
    | _ => some 114
  else if o.op = 0xA0 then
    match r.form, r.scaled with
    | .packed f, sc =>
      if [Fmt.e4m3, Fmt.e5m2, Fmt.e3m2, Fmt.e2m3, Fmt.int8, Fmt.e2m1, Fmt.int4].contains f ∧
        (sc = none ∨ (sc.bind (·.port)).isSome) then none else some 114
    | _, _ => some 114
  else if r.form.isW32 then none else some 114

/-! ### Draws (R76) -/

/-- Where an operator rounds: its key, column and slot. -/
structure Site where
  key : Dword
  col : Nat
  slot : Nat
deriving DecidableEq, Repr

/-- The draw of a rounding at a lane and level, for element j of a beat. -/
def Site.draw (x : Site) (lane level : Nat) (idx : Dword) (j : Nat) : Word :=
  Machine.draw x.key (32 * idx + BitVec.ofNat 64 j) (BitVec.ofNat 32 (64 * x.col + 16 * x.slot + lane + 1024 * level))

/-- The draw of word w of a record in a lane. -/
def Site.of (x : Site) (lane : Nat) (r : Rec) (w : Nat) : Word := x.draw lane 0 r.idx (r.epos + w)

/-! ### Word by word: groups 0x1 to 0x4 (R127, R128) -/

/-- An integer operator: its result and whether it was clamped. -/
def intOp (f : Nat) (u : Bool) (a b : Word) : Word × Bool :=
  let ea : Int := if u then a.toNat else a.toInt
  let eb : Int := if u then b.toNat else b.toInt
  let sat (x : Int) : Word × Bool :=
    let c := if u then clamp x 0 4294967295 else clamp x (-2147483648) 2147483647
    (BitVec.ofInt 32 c.1, c.2)
  match f with
  | 0 => (a + b, false)
  | 1 => (a - b, false)
  | 2 => (a * b, false)
  | 3 => (BitVec.ofInt 32 (ea * eb / 4294967296), false)
  | 4 => sat (ea + eb)
  | 5 => sat (ea - eb)
  | 6 => sat (ea * eb)
  | 7 => (a &&& b, false)
  | 8 => (a ||| b, false)
  | 9 => (a ^^^ b, false)
  | 10 => (a <<< (b.toNat % 32), false)
  | 11 => (a >>> (b.toNat % 32), false)
  | 12 => (a.sshiftRight (b.toNat % 32), false)
  | 13 => (if ea ≤ eb then a else b, false)
  | 14 => (if ea ≤ eb then b else a, false)
  | _ => (if a.toInt < 0 then -a else a, false)

/-- All ones for true. -/
def maskOf (b : Bool) : Word := if b then 0xFFFFFFFF else 0

/-- ICMP's condition. -/
def icmp (cond : Nat) (u : Bool) (a b : Word) : Bool :=
  let lt := if u then a.ult b else a.slt b
  match cond with
  | 0 => a == b
  | 1 => a != b
  | 2 => lt
  | 3 => lt || a == b
  | 4 => !lt && a != b
  | _ => !lt

/-- FCMP's condition: with a NaN only NE and UN hold. -/
def fcmp (cond : Nat) (a b : Word) : Bool :=
  let x := ofF32 a
  let y := ofF32 b
  if x = .nan ∨ y = .nan then cond == 1 || cond == 6
  else
    let lt := x.lt false y
    let gt := y.lt false x
    match cond with
    | 0 => !lt && !gt
    | 1 => lt || gt
    | 2 => lt
    | 3 => !gt
    | 4 => gt
    | 5 => !lt
    | _ => false

/-- FCLASS's mask. -/
def fclass (a : Word) : Word :=
  let neg := a.getLsbD 31
  let e := a.extractLsb' 23 8
  let m := a.extractLsb' 0 23
  if e = (0xFF : BitVec 8) then (if m ≠ (0 : BitVec 23) then 0x100 else if neg then 1 else 0x80)
  else if e = (0 : BitVec 8) then
    (if m = (0 : BitVec 23) then (if neg then 8 else 0x10) else if neg then 4 else 0x20)
  else if neg then 2 else 0x40

/-- One word of an operator of groups 0x1 to 0x4 from its operands: the result and whether ISAT is set. -/
def wordOp (o : StageOp) (u a b c : Word) : Word × Bool :=
  if o.op / 16 = 1 then
    if 128 ≤ o.p then intOp (o.op % 16) false a ((BitVec.ofNat 7 o.p).signExtend 32) else intOp (o.op % 16) (o.p % 2 == 1) a b
  else
    (match o.op with
      | 0x20 => fadd o.rm u a b
      | 0x21 => fsub o.rm u a b
      | 0x22 => fmul o.rm u a b
      | 0x23 => ffma o.rm u a b c
      | 0x24 => fmin a b
      | 0x25 => fmax a b
      | 0x26 => fabs a
      | 0x27 => fneg a
      | 0x30 => frcp o.rm a
      | 0x31 => frsq o.rm a
      | 0x32 => fsqrt o.rm a
      | 0x33 => fexp2 o.rm a
      | 0x34 => flog2 o.rm a
      | 0x40 => maskOf (icmp (o.p % 8) (o.p / 8 % 2 == 1) a b)
      | 0x41 => maskOf (fcmp o.p a b)
      | 0x42 => if a ≠ 0 then b else c
      | 0x43 => (intOp 13 false (intOp 14 false a b).1 c).1
      | 0x44 => fmin (fmax a b) c
      | _ => fclass a, false)

/-- The form of the result of groups 0x1 to 0x4. -/
def wordForm (o : StageOp) (second : Option Rec) : Form :=
  if o.op / 16 = 2 ∨ o.op / 16 = 3 ∨ o.op = 0x44 then .w32f
  else if o.op = 0x42 then (match second with
    | some r => if r.form = .w32f then .w32f else .w32i
    | none => .w32i)
  else .w32i

/-- What a firing makes: a vector, and the status bits it sets. -/
abbrev Made := Lanes × BitVec 16

/-- Status bits as a word (R116). -/
def bitIf (b : Bool) (k : Nat) : BitVec 16 := if b then 1#16 <<< k else 0

/-- Words 0 to 3 computed in a lane. -/
def perWord (o : StageOp) (x : Site) (l : Nat) (a : Rec) (b c : Option Rec) : Rec × Bool :=
  let w (k : Nat) : Word × Bool :=
    wordOp o (x.of l a k) (a.word k) ((b.map (·.word k)).getD 0) ((c.map (·.word k)).getD 0)
  (a.formed (wordForm o b) (a.poison || (b.map (·.poison)).getD false || (c.map (·.poison)).getD false)
    (ofWords fun k => (w k).1), (w 0).2 || (w 1).2 || (w 2).2 || (w 3).2)

/-! ### Reductions and scans: group 0x5 (R111, R112, R129, R130) -/

/-- tree() of R111 over 2^level terms from lo on; op is told the first term and the level of its node. -/
def treeOf {α : Type} (op : Nat → Nat → α → α → α) (x : Nat → Option α) : Nat → Nat → Option α
  | 0, lo => x lo
  | k + 1, lo =>
    match treeOf op x k lo, treeOf op x k (lo + 2 ^ k) with
    | none, b => b
    | a, none => a
    | some a, some b => some (op lo (k + 1) a b)

/-- The node operation of a reduction: the result and whether ISAT is set. -/
def reduceNode (o : StageOp) (u : Word) (a b : Word × Bool) : Word × Bool :=
  match o.op with
  | 0x50 => (fadd o.rm u a.1 b.1, false)
  | 0x51 => (fmax a.1 b.1, false)
  | 0x52 => (fmin a.1 b.1, false)
  | _ =>
    let r := intOp (if o.p / 16 % 2 = 1 then 4 else 0) false a.1 b.1
    (r.1, a.2 || b.2 || r.2)

/-- The reduction of the group of lanes from g on. A node whose term lo lies in an invalid lane has no record of term lo to take EPOS
from: EPOS is 0 there, with the lane of lo (R76, R129). (DESIGN CHOICE: log entry 99) -/
def reduceGroup (o : StageOp) (x : Site) (v : Lanes) (g size : Nat) : Option (Word × Bool) :=
  let n : Dword := (((validOf v).find? fun l => decide (g ≤ l)).bind (recAt v)).elim 0 (·.idx)
  let term (t : Nat) : Option (Word × Bool) :=
    (recAt v (g + t / 4)).map fun r =>
      (if (o.op = 0x51 ∨ o.op = 0x52) ∧ o.p / 8 % 2 = 1 then fabs (r.word (t % 4)) else r.word (t % 4), false)
  let node (lo level : Nat) (a b : Word × Bool) : Word × Bool :=
    reduceNode o (x.draw (g + lo / 4) level n (((recAt v (g + lo / 4)).map (·.epos)).getD 0 + lo % 4)) a b
  treeOf node term (2 + size) 0

/-- A reduction of a vector. -/
def reduceVec (o : StageOp) (x : Site) (v : Lanes) : Made :=
  let gs := o.p % 8
  let rs := (List.range 16).map fun l => reduceGroup o x v (l / 2 ^ gs * 2 ^ gs) gs
  let bad (l : Nat) : Bool := (List.range (2 ^ gs)).any fun k => ((recAt v (l / 2 ^ gs * 2 ^ gs + k)).map (·.poison)).getD false
  ((List.range 16).map fun l => match recAt v l, rs[l]?.join with
    | some r, some w => some (r.formed (if o.op = 0x53 then .w32i else .w32f) (bad l) (ofWords fun _ => w.1))
    | _, _ => none,
   bitIf (rs.any fun r => (r.map (·.2)).getD false) 0)

/-- One step of R112. -/
def scanStep (op : Nat → Word → Word → Word) (d : Nat) (x : List (Option Word)) : List (Option Word) :=
  (List.range 16).map fun k =>
    if k < d then x[k]?.join
    else match x[k - d]?.join, x[k]?.join with
      | none, y => y
      | some a, none => some a
      | some a, some b => some (op k a b)

/-- The greatest valid lane below k. -/
def validBelow (v : Lanes) (k : Nat) : Option Nat := ((validOf v).filter fun l => decide (l < k)).getLast?

/-- One word of a scan over the lanes: the words by lane, and the carry after it. -/
def scanWord (o : StageOp) (x : Site) (v : Lanes) (w : Nat) (carry : Option Word) : List (Option Word) × Option Word :=
  let low := (validOf v).head?.bind (recAt v)
  let op (level k : Nat) (a b : Word) : Word :=
    if o.op = 0x55 then a + b
    else match recAt v k with
      | some r => fadd o.rm (x.draw k level r.idx (r.epos + w)) a b
      | none => fadd o.rm (x.draw k level (low.elim 0 (·.idx)) w) a b
  let x0 := (List.range 16).map fun k => (recAt v k).map (·.word w)
  let y0 := scanStep (op 4) 8 (scanStep (op 3) 4 (scanStep (op 2) 2 (scanStep (op 1) 1 x0)))
  let y := y0.mapIdx fun k a => match carry, a with
    | some c, some a => some (op 5 k c a)
    | _, a => a
  let at_ (k : Nat) : Option Word := y[k]?.join
  ((List.range 16).map fun k =>
      if (recAt v k).isNone then none
      else if o.p % 2 = 1 then (match validBelow v k with
        | some j => at_ j
        | none => some (carry.getD 0))
      else at_ k,
   match (validOf v).getLast? with
   | some k => at_ k
   | none => carry)

/-- A scan of a vector, with the carries and their poison before and after it. -/
def scanVec (o : StageOp) (x : Site) (v : Lanes) (eos : Bool) (carry : List (Option (Word × Bool))) :
    Lanes × List (Option (Word × Bool)) :=
  let carries := o.p / 2 % 2 = 1
  let c (w : Nat) : Option (Word × Bool) := if carries then carry[w]?.join else none
  let s (w : Nat) := scanWord o x v w ((c w).map (·.1))
  let badTo (k : Nat) : Bool := (validOf v).any fun l => decide (l < k) && ((recAt v l).map (·.poison)).getD false
  let old := (List.range 4).any fun w => ((c w).map (·.2)).getD false
  ((List.range 16).map fun k => (recAt v k).map fun r =>
      r.formed (if o.op = 0x55 then .w32i else .w32f) ((if o.p % 2 = 1 then badTo k else badTo (k + 1)) || old)
        (ofWords fun w => ((s w).1[k]?.join).getD 0),
   if !carries || eos then List.replicate 4 none
   else (List.range 4).map fun w => ((s w).2).map fun a => (a, badTo 16 || ((c w).map (·.2)).getD false))

/-! ### Conversions: group 0x6 (R132–R136) -/

/-- A code of a floating-point format, FP6 in its container (R67). -/
def Fmt.codeOf (f : Fmt) (rm : Rm) (v : Fv) (u : Word) : Nat × Bool :=
  let r := f.flt.encode rm v u
  (if f = .e3m2 ∨ f = .e2m3 then widenFp6 f r.1 else r.1, r.2)

/-- CVT in a lane: the LOOSE record, and the overflow record if a word is flagged (R132). -/
def cvtLane (o : StageOp) (x : Site) (l : Nat) (r : Rec) : Rec × Option Rec :=
  let f := (Fmt.ofCode o.p).getD .bf16
  let c (w : Nat) : Nat × Bool := f.codeOf o.rm (ofF32 (r.word w)) (x.of l r w)
  let mask : Nat := ((List.range 4).filter fun w => (c w).2).foldl (fun m w => m + 2 ^ w) 0
  (r.formed (.loose f) r.poison (ofWords fun w => BitVec.ofNat 32 (c w).1),
   if mask = 0 then none
   else some { r.formed .w32f r.poison (ofWords fun w => if (c w).2 then r.word w else 0) with side := BitVec.ofNat 32 mask })

/-- The first element of part k of a record, and its SR position (R133). -/
def partStart (r : Rec) (k : Nat) : Nat := match r.form with
  | .packed _ => 4 * k
  | _ => 0

/-- WIDEN in a lane (R133). -/
def widenLane (o : StageOp) (x : Site) (l : Nat) (r : Rec) : Rec :=
  let f := r.form.narrow?.getD .e4m3
  let st := partStart r o.p
  let raw := f.isInt && r.scaled.isNone
  let w (j : Nat) : Word :=
    let v := f.decode (r.code f (st + j))
    if raw then BitVec.ofInt 32 v.rat.num
    else toF32 o.rm (v.scaled (r.scale ((st + j) / 8))) (x.draw l 0 r.idx (r.epos + st + j))
  { r.formed (if raw then .w32i else .w32f) r.poison (ofWords w) with epos := r.epos + st }

/-- I2F in a lane (R134). -/
def i2fLane (o : StageOp) (x : Site) (l : Nat) (r : Rec) : Rec :=
  r.formed .w32f r.poison (ofWords fun w =>
    toF32 o.rm (Fv.ofRat (if o.p % 2 = 1 then ((r.word w).toNat : Rat) else ((r.word w).toInt : Rat)) false) (x.of l r w))

/-- F2I's target types (R131). -/
def f2iType (p : Nat) : Fmt := [Fmt.int32, Fmt.int16, Fmt.int8, Fmt.uint8, Fmt.int4][p]?.getD .int32

/-- F2I in a lane, and whether an element is flagged (R134). -/
def f2iLane (o : StageOp) (x : Site) (l : Nat) (r : Rec) : Rec × Bool :=
  let f := f2iType o.p
  let c (w : Nat) : Int × Bool := toIntType f o.rm (ofF32 (r.word w)) (x.of l r w)
  (r.formed (if f = .int32 then .w32i else .loose f) r.poison
    (ofWords fun w => BitVec.ofNat 32 ((BitVec.ofInt 32 (c w).1).toNat % 2 ^ f.width)),
   (List.range 4).any fun w => (c w).2)

/-- Records gathered into one packed record: the record and whether PKMIX is set (R135). -/
def packGroup (p6 : Bool) (f : Fmt) (rs : List Rec) : Option (Rec × Bool) :=
  match rs.head? with
  | none => none
  | some r0 =>
    let width := if p6 then 6 else f.width
    let code (e : Nat) : Nat := match rs[e / 4]? with
      | none => 0
      | some r => let c := r.code f (e % 4); if p6 then narrowFp6 f c else c
    let data := (List.range (4 * rs.length)).foldl (fun n e => n + code e * 2 ^ (width * e)) 0
    let byte (i : Nat) : Byte := ((rs[i]?).map (·.scaleByte 0)).getD 0
    let scaled := r0.scaled.isSome
    let side : Side := if scaled then byte 6 ++ byte 4 ++ byte 2 ++ byte 0 else 0
    let mix := scaled && (List.range 4).any fun b => match rs[2 * b]?, rs[2 * b + 1]? with
      | some a, some c => a.scaleByte 0 != c.scaleByte 0
      | _, _ => false
    some ({ r0.formed (if p6 then .p6 f else .packed f) (rs.any (·.poison)) (BitVec.ofNat 128 data) with
              side := side
              scaled := r0.scaled.map fun k => ⟨k.sq8, none⟩ }, mix)

/-- A list cut into pieces of r. -/
def piecesOf {α : Type} (r : Nat) (xs : List α) : Nat → List (List α)
  | 0 => []
  | n + 1 => if xs.isEmpty then [] else xs.take r :: piecesOf r (xs.drop r) n

/-- PACK of a vector (R135). (DEDUCED: log entry 34) -/
def packVec (o : StageOp) (v : Lanes) : Made :=
  let rs := (validOf v).filterMap (recAt v)
  match rs.head?.bind (·.form.narrow?) with
  | none => (noLanes, 0)
  | some f =>
    let gs := (piecesOf (if f.width = 16 then 2 else if f.width = 4 then 8 else 4) rs 16).filterMap (packGroup (o.p % 2 == 1) f)
    (compacted (gs.map (·.1)), bitIf (gs.any (·.2)) 4)

/-- UNPACK in a lane (R136). (DEDUCED: log entry 34) -/
def unpackLane (o : StageOp) (r : Rec) : Rec :=
  let f := r.form.narrow?.getD .e4m3
  let st := partStart r o.p
  { r.formed (.loose f) r.poison (ofWords fun j => BitVec.ofNat 32 (r.code f (st + j))) with
    side := if r.scaled.isSome then (r.scaleByte (st / 8)).setWidth 32 else 0
    scaled := r.scaled.map fun k => ⟨k.sq8, none⟩
    epos := r.epos + st }

/-! ### Quantisers: group 0x7 (R138, R139) -/

/-- emax(f) of R138. -/
def emaxOf (f : Fmt) : Int := floorLog2 (f.flt.decode f.flt.maxCode).rat

/-- The elements of a block: lane, record and word of each. -/
def blockElems (v : Lanes) (b : Nat) : List (Nat × Rec × Nat) :=
  [2 * b, 2 * b + 1].flatMap fun l => match recAt v l with
    | some r => (List.range 4).map fun w => (l, r, w)
    | none => []

/-- One element divided by a scale and rounded: the format's own code and the flag. -/
def quantOne (f : Fmt) (rm : Rm) (x : Site) (sigma : Rat) (e : Nat × Rec × Nat) : Nat × Bool :=
  f.flt.encode rm ((ofF32 (e.2.1.word e.2.2)).mul (.fin false (1 / sigma))) (x.of e.1 e.2.1 e.2.2)

/-- err(c) of R138; none when an element or its code is no number, for which the manual gives no value. -/
def blockErr (f : Fmt) (rm : Rm) (x : Site) (es : List (Nat × Rec × Nat)) (c : Int) : Option Rat :=
  es.foldl (init := some 0) fun acc e =>
    match acc, f.flt.decode (quantOne f rm x (pow2 c) e).1, ofF32 (e.2.1.word e.2.2) with
    | some t, .fin n m, .fin n' m' =>
      let d := (Fv.fin n m).rat * pow2 c - (Fv.fin n' m').rat
      some (t + d * d)
    | _, _, _ => none

/-- BEST3's choice: the candidate of least err, on equal err the larger; where err has no value the choice is the 840's, by the
inputs of the rounding alone (R62). (DESIGN CHOICE: log entry 36) -/
def bestOf (err : Int → Option Rat) (free : Nat) (e : Int) : Int :=
  let at_ (c : Int) : Int := max (-127) (min 127 c)
  let cs := [at_ (e - 1), at_ e, at_ (e + 1)]
  match err (at_ (e - 1)), err (at_ e), err (at_ (e + 1)) with
  | some a, some b, some c => if c ≤ a ∧ c ≤ b then at_ (e + 1) else if b ≤ a then at_ e else at_ (e - 1)
  | _, _, _ => cs[free % 3]?.getD e

/-- What a block's rounding depends on: its words, the operator's parameters and, under SR, the SR key, the site and the beat indices
(R62). -/
def blockOpen (o : StageOp) (x : Site) (es : List (Nat × Rec × Nat)) : Nat :=
  Config.bestOpen (es.map fun e => e.2.1.word e.2.2)
    ([o.p, o.rm.code] ++ if o.rm = .sr then [x.key.toNat, x.col, x.slot] ++ es.flatMap fun e => [e.1, e.2.1.idx.toNat] else [])

/-- The scale of a block: its value and byte; none for a maximum that is NaN or infinite (R138). -/
def blockScale (o : StageOp) (x : Site) (v : Lanes) (b : Nat) (amax : Word) : Option (Rat × Byte) :=
  let f := (Fmt.ofCode (o.p % 16)).getD .e4m3
  let sq8 := o.p / 32 % 2 = 1
  match ofF32 amax with
  | .fin _ m =>
    if m = 0 then some (1, if sq8 then 0x38 else 0)
    else
      let e := max (-127) (min 127 (floorLog2 m - emaxOf f))
      if sq8 then
        let c := (Fmt.e4m3.flt.encode .rup (.fin false (m / (f.flt.decode f.flt.maxCode).rat)) 0).1
        let c := max 1 (min 0x7E c)
        some ((Fmt.e4m3.flt.decode c).rat, BitVec.ofNat 8 c)
      else
        let c := if o.p / 16 % 2 = 0 then e else bestOf (blockErr f o.rm x (blockElems v b)) (blockOpen o x (blockElems v b)) e
        some (pow2 c, BitVec.ofInt 8 (c + 127))
  | _ => none

/-- QBLK in a lane, and whether QSAT is set (R138). -/
def qblkLane (o : StageOp) (x : Site) (v : Lanes) (l : Nat) (r mx : Rec) : Rec × Bool :=
  let f := (Fmt.ofCode (o.p % 16)).getD .e4m3
  let sq8 := o.p / 32 % 2 = 1
  let bad := r.poison || mx.poison ||
    (o.p / 16 % 2 == 1 && ((recAt v (l - l % 2)).elim false (·.poison) || (recAt v (l - l % 2 + 1)).elim false (·.poison)))
  let out (byte : Byte) (code : Nat → Nat) : Rec :=
    { r.formed (.loose f) bad (ofWords fun w => BitVec.ofNat 32 (code w)) with side := byte.setWidth 32, scaled := some ⟨sq8, none⟩ }
  match blockScale o x v (l / 2) (mx.word 0) with
  | none => (out (if sq8 then 0x7F else 0xFF) fun _ => if f = .e4m3 ∨ f = .e5m2 then 0x7F else 0, true)
  | some (sigma, byte) =>
    if ofF32 (mx.word 0) = .fin false 0 ∨ ofF32 (mx.word 0) = .fin true 0 then (out byte fun _ => 0, false)
    else
      let q (w : Nat) : Nat × Bool := quantOne f o.rm x sigma (l, r, w)
      (out byte fun w => if f = .e3m2 ∨ f = .e2m3 then widenFp6 f (q w).1 else (q w).1, (List.range 4).any fun w => (q w).2)

/-- DQBLK in a lane (R139). -/
def dqblkLane (o : StageOp) (x : Site) (l : Nat) (r sc : Rec) : Rec :=
  let f := r.form.narrow?.getD .e4m3
  let st := partStart r (o.p % 8)
  let w (j : Nat) : Word :=
    let b : Byte := (sc.word 0).extractLsb' (8 * ((st + j) / 8)) 8
    toF32 o.rm ((f.decode (r.code f (st + j))).scaled (scaleVal (o.p / 8 % 2 == 1) b)) (x.draw l 0 r.idx (r.epos + st + j))
  r.formed .w32f (r.poison || sc.poison) (ofWords w)

/-! ### Binning: group 0x8 (R141, R142) -/

/-- A bin: value, overflow and poison. -/
abbrev Bin := Word × Bool × Bool

/-- One term applied to its bin: the bin, and whether it was clamped. -/
def binTerm (o : StageOp) (u : Word) (b : Bin) (v : Word) (poison : Bool) : Bin × Bool :=
  if o.op = 0x81 then
    if b.1 = 0xFFFFFFFF then ((b.1, true, b.2.2), true) else ((b.1 + 1, b.2.1, b.2.2), false)
  else match o.p % 4 with
    | 0 => ((b.1 + v, b.2.1, b.2.2 || poison), false)
    | 1 => let r := intOp 4 false b.1 v; ((r.1, b.2.1 || r.2, b.2.2 || poison), r.2)
    | _ => ((fadd o.rm u b.1 v, b.2.1, b.2.2 || poison), false)

/-- The terms of one lane applied in order. -/
def binLane (o : StageOp) (x : Site) (l : Nat) (key : Rec) (val : Option Rec) (t : List Bin × BitVec 16) : List Bin × BitVec 16 :=
  (List.range 4).foldl (init := t) fun t w =>
    let bins := if key.poison then t.1.map fun b => (b.1, b.2.1, true) else t.1
    let k := (key.word w).toNat
    match bins[k]? with
    | none => (bins, stickBit t.2 7)
    | some b =>
      let r := binTerm o ((val.map fun v => x.of l v w).getD 0) b ((val.map (·.word w)).getD 0) ((val.map (·.poison)).getD false)
      (bins.set k r.1, if r.2 then stickBit t.2 6 else t.2)

/-- The empty table. -/
def noBins (o : StageOp) : List Bin := List.replicate (2 ^ (o.p / 16)) (0, false, false)

/-- The vectors of a table, the last one with EOS (R142). -/
def tableVecs (o : StageOp) (bins : List Bin) : List Tok :=
  let rs : List Rec := (piecesOf 4 bins bins.length).map fun g =>
    let b (k : Nat) : Bin := g[k]?.getD (0, false, false)
    Rec.fresh (if o.op = 0x80 ∧ o.p % 4 = 2 then .w32f else .w32i) (ofWords fun w => (b w).1)
      ((0 : BitVec 28) ++ BitVec.ofBool (b 3).2.1 ++ BitVec.ofBool (b 2).2.1 ++ BitVec.ofBool (b 1).2.1 ++ BitVec.ofBool (b 0).2.1)
      (g.any (·.2.2))
  let vs := piecesOf 16 rs rs.length
  vs.mapIdx fun i v => Tok.vec (compacted v) (decide (i + 1 = vs.length))

/-! ### Stream control: group 0xB (R143, R144) -/

/-- The pieces of a vector EOSGEN makes, the records still to place in lanes; the count after them. (DEDUCED: log entry 37) -/
def eosPieces (n : Nat) (eos : Bool) : Nat → Lanes → Nat → List Tok × Nat
  | 0, v, c => ([.vec v eos], c)
  | fuel + 1, v, c =>
    let ls := validOf v
    if c + ls.length < n then ([.vec v eos], c + ls.length)
    else
      let k := n - c
      let last := ls[k - 1]?.getD 15
      let first : Lanes := v.mapIdx fun l r => if l ≤ last then r else none
      let rest := (ls.drop k).filterMap (recAt v)
      if rest.isEmpty then ([.vec first true], 0)
      else
        let r := eosPieces n eos fuel (compacted rest) 0
        (.vec first true :: r.1, r.2)

/-- The trigger records of COUNTFIRE in a vector: one for each multiple passed (R144). The count has no width, and word 0 holds the
multiple modulo 2^32. (DESIGN CHOICE: log entry 102) -/
def triggers (n c : Nat) (v : Lanes) : List Rec :=
  ((validOf v).zipIdx).filterMap fun (l, i) =>
    if (c + i + 1) % n = 0 then
      (recAt v l).map fun r => { r.formed .w32i false (BitVec.ofNat 128 ((c + i + 1) % 2 ^ 32)) with epos := 0 }
    else none

/-! ### NMSEL (R161) -/

/-- The key of a code: its magnitude, a NaN above every number. -/
def nmKey (f : Fmt) (code : Nat) : Option Rat :=
  match f.decode code with
  | .fin _ m => some m
  | .inf _ => some (pow2 200)
  | .nan => none

/-- Whether element i of a block precedes element j: the greater key, on equal keys the lower element. -/
def nmBefore (f : Fmt) (code : Nat → Nat) (i j : Nat) : Bool :=
  match nmKey f (code i), nmKey f (code j) with
  | none, none => decide (i < j)
  | none, some _ => true
  | some _, none => false
  | some a, some b => decide (b < a) || (decide (a = b) && decide (i < j))

/-- The kept positions of a block. -/
def nmKept (f : Fmt) (code : Nat → Nat) (n : Nat) : List Nat :=
  (List.range 8).filter fun i => decide (((List.range 8).filter fun j => nmBefore f code j i).length < n)

/-- The record NMSEL makes of 32 codes. -/
def nmRec (o : StageOp) (f : Fmt) (r : Rec) (poison : Bool) (code : Nat → Nat) : Rec :=
  let kept (b : Nat) : List Nat := nmKept f (fun i => code (8 * b + i)) (if o.p % 2 = 1 then 2 else 4)
  let codes := (List.range 4).flatMap fun b => (kept b).map fun i => code (8 * b + i)
  let mask (b : Nat) : Byte := BitVec.ofNat 8 ((kept b).foldl (fun m i => m + 2 ^ i) 0)
  { r.formed (.packed f) poison (BitVec.ofNat 128 ((codes.zipIdx).foldl (fun n (c, i) => n + c * 2 ^ (f.width * i)) 0)) with
    side := mask 3 ++ mask 2 ++ mask 1 ++ mask 0
    scaled := r.scaled
    sparse := true }

/-- NMSEL of a vector. Two lanes of a 16-element format take the format and scale of the first valid one. -/
def nmVec (o : StageOp) (v : Lanes) : Lanes :=
  (List.range 16).map fun l =>
    match recAt v l with
    | some r =>
      let f := r.form.narrow?.getD .e4m3
      if f.width = 4 then some (nmRec o f r r.poison fun i => r.code f i)
      else if l % 2 = 1 then none
      else
        let r1 := recAt v (l + 1)
        some (nmRec o f r (r.poison || (r1.map (·.poison)).getD false) fun i =>
          if i < 16 then r.code f i else (r1.map fun q => q.code f (i - 16)).getD 0)
    | none =>
      if l % 2 = 1 then none
      else match recAt v (l + 1) with
        | some q =>
          let f := q.form.narrow?.getD .e4m3
          if f.width = 4 then none
          else some (nmRec o f q q.poison fun i => if i < 16 then 0 else q.code f (i - 16))
        | none => none

end Sys2Proof.Machine
end

