-- ==== Sys2Proof/Machine/Maquette.lean ====
section
/-! DEFINITION. Maquettes: the decoding of their words and every check MAQLD makes of them (R47–R54, R88, R93, R95, R107, R117–R121, R137, R140, R146, R151). -/

namespace Sys2Proof.Machine

/-! ### Fields of a maquette word (R47) -/

/-- The n-bit field of a word from bit lo up. -/
def mqField (w : Dword) (lo n : Nat) : Nat := w.toNat / 2 ^ lo % 2 ^ n
/-- TARGET. -/
def mqTarget (w : Dword) : Nat := mqField w 56 8
/-- The class of a word. -/
def mqClass (w : Dword) : Nat := mqField w 62 2
/-- OPCODE. -/
def mqOpcode (w : Dword) : Nat := mqField w 48 8

/-- The header's NREG, NWORD and COLMASK, if R48 and the words given allow it. -/
def mqHeader (w : Dword) (given : Nat) : Option (Nat × Nat × Nat) :=
  let nreg := mqField w 48 4
  let nword := mqField w 32 16
  if mqField w 56 8 = 0xA5 ∧ mqField w 52 4 = 1 ∧ 1 ≤ nreg ∧ 3 ≤ nword ∧ nword ≤ 129 ∧ mqField w 0 16 = 0 ∧ nword ≤ given then
    some (nreg, nword, mqField w 16 16)
  else none

/-- A region descriptor (R49). -/
def mqRegion (w : Dword) : Option Region :=
  let r : Region := ⟨mqField w 44 4, mqField w 40 4, mqField w 38 2 == 1, mqField w 33 5, mqField w 28 5⟩
  if mqOpcode w = 0 ∧ mqField w 60 2 = 0 ∧ r.first ≤ r.last ∧ mqField w 38 2 ≤ 1 ∧ r.east ≤ 15 ∧ r.south ≤ 15 ∧
     (r.systolic ∨ (r.east = 0 ∧ r.south = 0)) ∧ mqField w 0 28 = 0 then some r else none

/-- A selector byte (R51). -/
def mqSel (b : Nat) : Option Sel :=
  match b / 64 with
  | 0 => if b < 32 then some (.inport b) else none
  | 1 => some (.out0 (b / 4 % 16) (b % 4))
  | 2 => some (.out1 (b / 4 % 16) (b % 4))
  | _ => if b = 255 then some .none else none

/-- Inputs used select something, the others none with a D field of zero (R51). -/
def inputsOk : Nat → List Sel → List Nat → Bool
  | _, [], _ => true
  | _, _, [] => true
  | 0, s :: ss, d :: ds => s == .none && d == 0 && inputsOk 0 ss ds
  | n + 1, s :: ss, _ :: ds => s != .none && inputsOk n ss ds

/-- A stage or out-port word's operator, in layout G or K, with the checks of its own fields (R50–R53, R117). -/
def mqStage (w : Dword) : Option StageOp :=
  let op := mqOpcode w
  if layoutK op then
    match mqSel (mqField w 40 8), opInputs op 0 with
    | some s, some n =>
      let o : StageOp := ⟨op, [s], [mqField w 36 4], .rne, 0, mqField w 32 4, mqField w 0 32⟩
      if inputsOk n o.sel o.d && modeOk op o.mode o.value then some o else none
    | _, _ => none
  else
    match mqSel (mqField w 40 8), mqSel (mqField w 32 8), mqSel (mqField w 24 8), Rm.ofCode (mqField w 8 4), opInputs op (mqField w 0 8) with
    | some a, some b, some c, some rm, some n =>
      let o : StageOp := ⟨op, [a, b, c], [mqField w 20 4, mqField w 16 4, mqField w 12 4], rm, mqField w 0 8, 0, 0⟩
      if inputsOk n o.sel o.d && paramOk op o.p && rmOk op o.p rm then some o else none
    | _, _, _, _, _ => none

/-- A systolic word of a region (R52, R146). -/
def mqSys (w : Dword) (r : Region) : Option SysWord :=
  let op := mqOpcode w
  match mqSel (mqField w 40 8), mqSel (mqField w 32 8), mqSel (mqField w 24 8), Rm.ofCode (mqField w 8 4) with
  | some (.inport a), some (.inport b), some (.inport c), some rm =>
    let width := r.last + 1 - r.first
    let inA (p : Nat) : Bool := decide (a ≤ p) && decide (p < a + 16)
    let inB (p : Nat) : Bool := decide (b ≤ p) && decide (p < b + width)
    if (op = 0x90 ∨ op = 0x91) ∧ mqField w 60 2 = 0 ∧ mqField w 21 3 = 0 ∧ mqField w 12 4 ≤ 1 ∧ mqField w 0 8 = 0 ∧ a ≤ 16 ∧
       b + width ≤ 32 ∧ (List.range 32).all (fun p => !(inA p && inB p)) ∧ (c = a ∨ (!inA c && !inB c)) then
      some ⟨op == 0x91, a, b, c, mqField w 16 5, mqField w 12 4 == 1, rm⟩
    else none
  | _, _, _, _ => none

/-- An out-port word: PASS with one input (R47). -/
def mqOut (w : Dword) : Option StageOp :=
  if mqOpcode w = 0 ∧ mqField w 61 1 = 0 then mqStage w else none

/-! ### The graph (R88, R93, R95) -/

/-- The region a column belongs to, by number. -/
def Maq.regionOf (m : Maq) (c : Nat) : Option Nat := m.regions.findIdx? fun r => decide (r.first ≤ c) && decide (c ≤ r.last)

/-- The producer a selector names: column and slot. -/
def Sel.producer : Sel → Option (Nat × Nat)
  | .out0 c s | .out1 c s => some (c, s)
  | _ => Option.none

/-- Whether a selector of a consumer in a column is fed by a forward link; out-port words stand in column 16 (R95). -/
def Sel.forward (s : Sel) (col : Nat) : Bool :=
  match s with
  | .inport _ => true
  | .out0 c _ | .out1 c _ => decide (c < col)
  | .none => false

/-- The region an out-port word belongs to (R88). -/
def Maq.outRegion (m : Maq) (o : StageOp) : Option Nat := (o.sel.findSome? Sel.producer).bind fun p => m.regionOf p.1

/-- Every selector of the maquette with the column and the region of the word that holds it. -/
def Maq.selectors (m : Maq) : List (Sel × Nat × Option Nat) :=
  m.stages.flatMap (fun (k, o) => o.sel.map fun s => (s, k / 4, m.regionOf (k / 4))) ++
  m.outs.flatMap (fun (_, o) => o.sel.map fun s => (s, 16, m.outRegion o))

/-- Selectors name outputs that exist, in their own region; output 0 of every operator is named once, output 1 at most once
(R54, R93, R95). -/
def Maq.linksOk (m : Maq) : Bool :=
  let ss := m.selectors
  ss.all (fun (s, _, r) => match s with
    | .out0 c k => (m.stages.find (4 * c + k)).isSome && m.regionOf c == r
    | .out1 c k => ((m.stages.find (4 * c + k)).map fun o => hasOut1 o.op).getD false && m.regionOf c == r
    | _ => true) &&
  m.stages.all fun (k, _) =>
    (ss.filter fun q => q.1 == .out0 (k / 4) (k % 4)).length == 1 &&
      decide ((ss.filter fun q => q.1 == .out1 (k / 4) (k % 4)).length ≤ 1)

/-- The stages left after those that no stage left feeds by a zero-slot link are taken away, so often. -/
def zeroCore (m : Maq) : Nat → List Nat → List Nat
  | 0, ks => ks
  | n + 1, ks => zeroCore m n (ks.filter fun k => match m.stages.find k with
      | none => false
      | some o => (o.sel.zip o.d).any fun (s, d) => d == 0 && (match s.producer with
        | some (c, j) => ks.contains (4 * c + j)
        | none => false))

/-- No directed cycle of links whose D fields add up to zero (R95). -/
def Maq.noZeroLoop (m : Maq) : Bool := (zeroCore m 64 m.stages.keys).isEmpty

/-- The in-ports with the region of each word that names them. -/
def Maq.inUses (m : Maq) : List (Nat × Option Nat) :=
  m.stages.flatMap (fun (k, o) => (o.sel.flatMap Sel.inPorts).map fun p => (p, m.regionOf (k / 4))) ++
  m.sys.flatMap (fun (r, w) => (w.inPorts m.regions[r]?).map fun p => (p, some r)) ++
  m.outs.flatMap (fun (_, o) => (o.sel.flatMap Sel.inPorts).map fun p => (p, none))

/-- No in-port of two regions, or of a region and of an out-port word of none; no out-port written by two words (R54). -/
def Maq.portsOk (m : Maq) : Bool :=
  let us := m.inUses
  us.all (fun (p, r) => us.all fun (q, t) => p != q || r == t) &&
    (let os := m.outs.keys ++ m.sys.vals.map (·.out); os.dedup.length == os.length)

/-! ### The checks of the operators' entries -/

/-- RECIRC and QBLK (R118, R137). -/
def Maq.entryOk (m : Maq) (k : Nat) (o : StageOp) : Bool :=
  let s (i : Nat) : Sel := o.sel[i]?.getD Sel.none
  let src (i : Nat) : Option (Nat × StageOp) := match s i with
    | .out0 c j => (m.stages.find (4 * c + j)).map fun p => (c, p)
    | _ => none
  if o.op = 0x07 then (s 0).forward (k / 4) && !(s 1).forward (k / 4)
  else if o.op = 0x70 then
    (match src 0, src 1 with
      | some (c, d), some (_, l) =>
        d.op == 0x05 && d.mode == 0 && d.value == 1 && (d.sel[0]?.getD Sel.none).forward c && l.op == 0x51 && l.p == 9
      | _, _ => false)
  else true

/-- A column holds at most one BINACC or CNTACC (R140). -/
def Maq.binsOk (m : Maq) : Bool :=
  (List.range 16).all fun c =>
    decide ((m.stages.filter fun (k, o) => k / 4 = c ∧ (o.op = 0x80 ∨ o.op = 0x81)).length ≤ 1)

/-- Every decision queue of a region has one writer and one reader, or neither (R121). -/
def Maq.queuesOk (m : Maq) : Bool :=
  (List.range m.regions.length).all fun r => (List.range 4).all fun q =>
    let ops := m.stages.filter fun (k, _) => m.regionOf (k / 4) == some r
    let w := (ops.filter fun (_, o) => o.op == 0x02 && o.p / 4 % 2 == 1 && o.p / 8 == q).length
    let d := (ops.filter fun (_, o) => o.op == 0x04 && o.p == q).length
    w == d && decide (w ≤ 1)

/-- Whether region descriptors of a tile stay on its die (R101, R107). -/
def Maq.onDie (m : Maq) (tile : Nat) : Bool :=
  m.regions.all fun r => decide (tile % 32 % 16 + r.east ≤ 15) && decide (tile / 32 % 16 + r.south ≤ 15)

/-! ### The whole check (R54) -/

/-- Columns of the regions. -/
def regionCols (rs : List Region) : List Nat := rs.flatMap fun r => (List.range 16).filter fun c => decide (r.first ≤ c) && decide (c ≤ r.last)

/-- The regions of words 1 to NREG, in order, not overlapping, their union COLMASK. -/
def mqRegions (nreg mask : Nat) (ws : List Dword) : Option (List Region) :=
  let ds := (ws.drop 1).take nreg
  let rs := ds.filterMap mqRegion
  let cs := regionCols rs
  if rs.length = nreg ∧ ds.zipIdx.all (fun (w, i) => mqTarget w == 128 + i) ∧ (ws.drop (1 + nreg)).all (fun w => mqClass w != 2) ∧
     cs.dedup.length = cs.length ∧ (List.range 16).all (fun c => cs.contains c == (mask / 2 ^ c % 2 == 1)) then some rs else none

/-- One word after the descriptors put into the maquette; none if it is refused. -/
def Maq.add (m : Maq) (w : Dword) : Option Maq :=
  match mqClass w with
  | 0 =>
    let key := 4 * (mqTarget w % 16) + mqTarget w / 16
    (match mqStage w, (m.regionOf (key / 4)).bind fun r => m.regions[r]? with
      | some o, some r => if r.systolic then none else some { m with stages := m.stages.put key o }
      | _, _ => none)
  | 1 =>
    let n := mqTarget w % 16
    (match m.regions[n]? with
      | some r => if !r.systolic then none else (mqSys w r).map fun x => { m with sys := m.sys.put n x }
      | none => none)
  | 3 => (mqOut w).map fun o => { m with outs := m.outs.put (mqTarget w % 32) o }
  | _ => none

/-- The words put in one after another. -/
def Maq.addAll : Maq → List Dword → Option Maq
  | m, [] => some m
  | m, w :: ws => (m.add w).bind fun m => m.addAll ws

/-- A maquette from its words, the header first and the header's NWORD of them; none where a check of R54 fails. -/
def buildMaq (nreg mask : Nat) (ws : List Dword) : Option Maq :=
  let ts := (ws.drop 1).map mqTarget
  match mqRegions nreg mask ws with
  | none => none
  | some rs =>
    if ts.dedup.length ≠ ts.length then none
    else match (⟨rs, [], [], []⟩ : Maq).addAll (ws.drop (1 + nreg)) with
      | none => none
      | some m =>
        if rs.zipIdx.all (fun (r, i) => !r.systolic || (m.sys.find i).isSome) && m.linksOk && m.noZeroLoop && m.portsOk &&
           m.stages.all (fun (k, o) => m.entryOk k o) && m.binsOk && m.queuesOk then some m else none

end Sys2Proof.Machine
end

