-- ==== Sys2Proof/Machine/Firing.lean ====
section
/-! DEFINITION. One firing of a stage operator: what it consumes, emits and keeps, from the tokens at its inputs (R94, R98–R100, R114, R115, R118–R145). -/

namespace Sys2Proof.Machine

/-- What a firing sees: the operator, where it rounds, which inputs are fed forward, the tokens at each input oldest first, its
state, the decision queue it names, and whether output 1 is named. -/
structure FireIn where
  o : StageOp
  site : Site
  fwd : List Bool
  ins : List (List Tok)
  st : Option OpState
  dq : List DqEntry
  named1 : Bool
deriving DecidableEq, Repr

/-- A firing: the inputs popped (one entry for each token), the tokens emitted with their output numbers, the state after,
status bits, and what it does to its decision queue; a table to be written out. -/
structure Fired where
  pops : List Nat
  outs : List (Nat × Tok)
  st : Option OpState
  status : BitVec 16
  push : Option DqEntry
  popDq : Bool
  table : List Tok
deriving DecidableEq, Repr

/-- A firing that only consumes and emits. -/
def Fired.plain (pops : List Nat) (outs : List (Nat × Tok)) (st : Option OpState) : Fired :=
  ⟨pops, outs, st, 0, none, false, []⟩

/-- What an operator can do now. -/
inductive Fire where
  | wait
  /-- MAQUETTE_FAULT by a rule (R100, R397) -/
  | fault (rule : Nat)
  | go (f : Fired)
deriving DecidableEq, Repr

/-- Whether a token is a marker. -/
def Tok.isMark : Tok → Bool
  | .vec .. => false
  | _ => true
/-- The vector a token is. -/
def Tok.vec? : Tok → Option (Lanes × Bool)
  | .vec v e => some (v, e)
  | _ => none

/-! ### Heads (R100, R114, R115) -/

/-- The rule a record at the head of an input breaks. -/
def headFault (o : StageOp) (input : Nat) (t : Option Tok) : Option Nat :=
  match t.bind Tok.vec? with
  | some (v, _) => ((validOf v).filterMap (recAt v)).findSome? (formFault o input)
  | none => none

/-- The heads of the inputs. -/
def FireIn.heads (f : FireIn) : List (Option Tok) := f.ins.map List.head?

/-- The head of an input. -/
def FireIn.head (f : FireIn) (i : Nat) : Option Tok := (f.ins[i]?).bind List.head?

/-- The faults at the heads of an operator (R100, R114, R133). -/
def FireIn.fault? (f : FireIn) : Option Nat :=
  match f.heads.zipIdx.findSome? fun (t, i) => headFault f.o i t with
  | some r => some r
  | none =>
    let fw := (f.heads.zip f.fwd).filterMap fun (t, b) => if b then t else none
    if !independent f.o.op && fw.any Tok.isMark && fw.any (fun t => !t.isMark) then some 100
    else if fw.any fun a => fw.any fun b => a.isMark && b.isMark && a != b then some 100
    else none

/-- The vectors at every head, cut to the lanes valid in all, with EOS and whether a record was dropped (R98, R115). -/
def FireIn.vectors (f : FireIn) : Option (List Lanes × Bool × Bool) :=
  let vs := f.heads.filterMap fun t => t.bind Tok.vec?
  if vs.length ≠ f.ins.length then none
  else
    let all (l : Nat) : Bool := vs.all fun v => (recAt v.1 l).isSome
    let some_ (l : Nat) : Bool := vs.any fun v => (recAt v.1 l).isSome
    some (vs.map fun v => v.1.mapIdx fun l r => if all l then r else none, vs.any (·.2), (List.range 16).any fun l => some_ l && !all l)

/-! ### Operators that make one vector of one firing -/

/-- A function of the records of a lane. -/
def laneMap (g : Nat → Rec → Rec × Bool) (v : Lanes) : Lanes × Bool :=
  let r := v.mapIdx fun l r => r.map (g l)
  (r.map fun q => q.map (·.1), r.any fun q => (q.map (·.2)).getD false)

/-- The vector of output 0 and the status bits, for the operators that keep no state. -/
def makeVec (f : FireIn) (vs : List Lanes) : Made :=
  let o := f.o
  let a : Lanes := vs[0]?.getD noLanes
  let b (l : Nat) : Option Rec := (vs[1]?).bind fun v => recAt v l
  let c (l : Nat) : Option Rec := (vs[2]?).bind fun v => recAt v l
  let lanes (g : Nat → Rec → Rec × Bool) (bit : Nat) : Made := let r := laneMap g a; (r.1, bitIf r.2 bit)
  if o.op / 16 = 0 then (a, 0)
  else if o.op / 16 ≤ 4 then lanes (fun l r => perWord o f.site l r (b l) (c l)) 0
  else if o.op ≤ 0x53 then reduceVec o f.site a
  else match o.op with
    | 0x60 => lanes (fun l r => ((cvtLane o f.site l r).1, false)) 0
    | 0x61 => lanes (fun l r => (widenLane o f.site l r, false)) 0
    | 0x62 => lanes (fun l r => (i2fLane o f.site l r, false)) 0
    | 0x63 => lanes (fun l r => f2iLane o f.site l r) 1
    | 0x64 => packVec o a
    | 0x65 => lanes (fun _ r => (unpackLane o r, false)) 0
    | 0x70 => lanes (fun l r => match b l with
        | some mx => qblkLane o f.site a l r mx
        | none => (r, false)) 3
    | 0x71 => lanes (fun l r => match b l with
        | some sc => (dqblkLane o f.site l r sc, false)
        | none => (r, false)) 0
    | _ => (nmVec o a, 0)

/-- Whether the valid records of one PACK firing are of one format and one scaled attribute (R114). -/
def packAlike (v : Lanes) : Bool :=
  let rs := (validOf v).filterMap (recAt v)
  rs.all fun a => rs.all fun b => a.form == b.form && a.scaled == b.scaled

/-! ### Operators with state or with their own way of taking inputs -/

/-- STEER (R120). With output 1 unnamed, its records are discarded at once and fill no pending buffer. (DEDUCED: log entry 35)
(DESIGN CHOICE: log entry 101) -/
def fireSteer (f : FireIn) (data ctl : Lanes) (deos : Bool) : Fire :=
  let p := match f.st with
    | some (.steer p0 p1) => (p0, p1)
    | _ => ([], [])
  let ls := validOf data
  let d (l : Nat) : Bool := match recAt ctl l with
    | some r => r.word (f.o.p % 4) != 0
    | none => false
  let rec1 (l : Nat) : Option Rec := (recAt data l).map fun r => { r with poison := r.poison || ((recAt ctl l).map (·.poison)).getD false }
  let p0 := p.1 ++ (ls.filter fun l => !d l).filterMap rec1
  let p1 := if f.named1 then p.2 ++ (ls.filter d).filterMap rec1 else []
  let entry : DqEntry := ⟨(List.range 16).map fun l => ls.contains l, (List.range 16).map fun l => ls.contains l && d l, deos⟩
  let dq := f.o.p / 4 % 2 = 1
  let last (o : Nat) (rs : List Rec) : List (Nat × Tok) :=
    if 16 < rs.length then [(o, Tok.vec (compacted (rs.take 16)) false), (o, Tok.vec (compacted (rs.drop 16)) true)]
    else [(o, Tok.vec (compacted rs) true)]
  let part (o : Nat) (rs : List Rec) : List (Nat × Tok) :=
    if rs.isEmpty then [] else [(o, Tok.vec (compacted (rs.take 16)) false)]
  let full := decide (16 ≤ p0.length) || decide (16 ≤ p1.length)
  if dq ∧ 64 ≤ f.dq.length then .wait
  else
    let outs := if deos then last 0 p0 ++ (if f.named1 then last 1 p1 else [])
      else if full then part 0 p0 ++ part 1 p1 else []
    let st := if deos then OpState.steer [] [] else if full then OpState.steer (p0.drop 16) (p1.drop 16) else OpState.steer p0 p1
    .go { Fired.plain [0, 1] outs (some st) with push := if dq then some entry else none }

/-- MERGE (R122). -/
def fireMerge (f : FireIn) : Fire :=
  let s := match f.st with
    | some (.merge t a b) => (t, a, b)
    | _ => (false, false, false)
  let t0 := s.1
  let ended (i : Bool) : Bool := if i then s.2.2 else s.2.1
  let head (i : Bool) : Option Tok := f.head (if i then 1 else 0)
  let skip (i : Bool) : Bool := ended i || ((head i).map Tok.isMark).getD false
  let t := if skip t0 then !t0 else t0
  if skip t then .wait
  else match (head t).bind Tok.vec? with
    | none => .wait
    | some (v, eos) =>
      let firstEos := eos && !ended (!t)
      let st := if eos && ended (!t) then OpState.merge false false false
        else OpState.merge (!t) (s.2.1 || (eos && !t)) (s.2.2 || (eos && t))
      .go (Fired.plain [if t then 1 else 0] [(0, Tok.vec v (eos && !firstEos))] (some st))

/-- An input of MERGEORD being read: its tokens, the records read of the first, and the vectors read to their end. -/
structure Branch where
  toks : List Tok
  pos : Nat
  pops : Nat
deriving DecidableEq, Repr

/-- Vectors read to their end popped; one without a record is read to its end as it comes to the head. -/
def Branch.settled : List Tok → Nat → Nat → Branch
  | [], _, n => ⟨[], 0, n⟩
  | .vec v e :: rest, pos, n => if (validOf v).length ≤ pos then Branch.settled rest 0 (n + 1) else ⟨.vec v e :: rest, pos, n⟩
  | t :: rest, pos, n => ⟨t :: rest, pos, n⟩

/-- The branch with what is read to its end popped. -/
def Branch.settle (b : Branch) : Branch := Branch.settled b.toks b.pos b.pops

/-- The next record of a branch; none when it has not arrived. Its vector is popped with its last record; a vector without records
that stands behind it stays until a record of the branch is needed. -/
def Branch.next (b : Branch) : Option (Rec × Branch) :=
  match b.settle with
  | ⟨.vec v e :: rest, pos, n⟩ => ((validOf v)[pos]?.bind (recAt v)).map fun r =>
      (r, if (validOf v).length ≤ pos + 1 then ⟨rest, 0, n + 1⟩ else ⟨.vec v e :: rest, pos + 1, n⟩)
  | _ => none

/-- Whether a marker heads a branch. -/
def Branch.marked (b : Branch) : Bool := (b.toks.head?.map Tok.isMark).getD false

/-- Whether a marker heads a branch from which some lane of an entry from the n-th on needs a record (R121). -/
def lacks (e : DqEntry) (n : Nat) (second : Bool) (br : Branch) : Bool :=
  br.settle.marked && (List.range 16).any fun l => decide (n ≤ l) && e.valid[l]?.getD false && (e.decision[l]?.getD false) == second

/-- The lanes of an entry gathered as far as their records have arrived. (DEDUCED: log entry 33) -/
def gatherLanes (e : DqEntry) : Nat → List (Option Rec) → Branch → Branch → List (Option Rec) × Branch × Branch
  | 0, got, a, b => (got, a, b)
  | n + 1, got, a, b =>
    let l := got.length
    if 16 ≤ l then (got, a, b)
    else if !(e.valid[l]?.getD false) then gatherLanes e n (got ++ [none]) a b
    else
      let second := e.decision[l]?.getD false
      let br := if second then b else a
      match br.next with
      | none => if second then (got, a, b.settle) else (got, a.settle, b)
      | some (r, br') => if second then gatherLanes e n (got ++ [some r]) a br' else gatherLanes e n (got ++ [some r]) br' b

/-- MERGEORD (R121). Records are taken as they arrive; the vector leaves once it has them all. (DEDUCED: log entry 33) -/
def fireMergeOrd (f : FireIn) : Fire :=
  let s := match f.st with
    | some (.mergeOrd p q g) => (p, q, g)
    | _ => (0, 0, [])
  let a : Branch := ⟨f.ins[0]?.getD [], s.1, 0⟩
  let b : Branch := ⟨f.ins[1]?.getD [], s.2.1, 0⟩
  let pops (a b : Branch) : List Nat := List.replicate a.pops 0 ++ List.replicate b.pops 1
  match f.dq with
  | [] =>
    let a := a.settle
    let b := b.settle
    if a.pops + b.pops = 0 then .wait else .go (Fired.plain (pops a b) [] (some (.mergeOrd a.pos b.pos s.2.2)))
  | e :: _ =>
    let r := gatherLanes e 16 s.2.2 a b
    if (a.marked && b.marked) || lacks e r.1.length false r.2.1 || lacks e r.1.length true r.2.2 then .fault 121
    else if r.1.length = 16 then
      .go { Fired.plain (pops r.2.1 r.2.2) [(0, Tok.vec r.1 e.eos)] (some (.mergeOrd r.2.1.pos r.2.2.pos [])) with popDq := true }
    else if r.1.length = s.2.2.length ∧ r.2.1.pops + r.2.2.pops = 0 then .wait
    else .go (Fired.plain (pops r.2.1 r.2.2) [] (some (.mergeOrd r.2.1.pos r.2.2.pos r.1)))

/-- DELAY: its oldest vector leaves, else it takes one while it has room (R123). -/
def fireDelay (f : FireIn) : Fire :=
  let q := match f.st with
    | some (.delay q) => q
    | _ => []
  match q, f.head 0 with
  | t :: rest, _ => .go (Fired.plain [] [(0, t)] (some (.delay rest)))
  | [], some (.vec v e) => .go (Fired.plain [0] [] (some (.delay [.vec v e])))
  | _, _ => .wait

/-- DELAY takes a vector into its FIFO while its output is blocked and it holds fewer than VALUE (R123). -/
def delayTake (f : FireIn) : Fire :=
  let q := match f.st with
    | some (.delay q) => q
    | _ => []
  match f.head 0 with
  | some (.vec v e) => if q.length < f.o.value then .go (Fired.plain [0] [] (some (.delay (q ++ [.vec v e])))) else .wait
  | _ => .wait

/-- CONST (R124). -/
def fireConst (f : FireIn) : Fire :=
  let w : Word := BitVec.ofNat 32 f.o.value
  .go (Fired.plain [] [(0, Tok.vec (List.replicate 16 (some (Rec.fresh (if f.o.mode = 1 then .w32f else .w32i) (ofWords fun _ => w) 0 false)))
    false)] none)

/-- RECIRC (R125). -/
def fireRecirc (f : FireIn) : Fire :=
  let loop := f.st == some (.recirc true)
  match f.head (if loop then 1 else 0) with
  | some (.vec v e) => .go (Fired.plain [if loop then 1 else 0] [(0, Tok.vec v e)] (some (.recirc (if loop then !e else true))))
  | _ => .wait

/-- SCANF and SCANI (R130). -/
def fireScan (f : FireIn) (v : Lanes) (eos : Bool) : Fire :=
  let carry := match f.st with
    | some (.scan c) => c
    | _ => List.replicate 4 none
  let r := scanVec f.o f.site v eos carry
  .go (Fired.plain [0] [(0, Tok.vec r.1 eos)] (some (.scan r.2)))

/-- BINACC and CNTACC (R141, R142). -/
def fireBins (f : FireIn) (keys : Lanes) (vals : Option Lanes) (eos : Bool) : Fire :=
  let s := match f.st with
    | some (.bins b t) => (b, t)
    | _ => (noBins f.o, false)
  let r := (validOf keys).foldl (init := (s.1, (0 : BitVec 16))) fun t l => match recAt keys l with
    | some k => binLane f.o f.site l k (vals.bind fun v => recAt v l) t
    | none => t
  let pops := if f.o.op = 0x81 then [0] else [0, 1]
  .go { Fired.plain pops [] (some (if eos then .bins (noBins f.o) false else .bins r.1 (s.2 || !(validOf keys).isEmpty))) with
          status := r.2
          table := if eos then tableVecs f.o r.1 else [] }

/-- EOSGEN (R143). (DEDUCED: log entry 37) -/
def fireEosgen (f : FireIn) (v : Lanes) (eos : Bool) : Fire :=
  let c := match f.st with
    | some (.count n _) => n
    | _ => 0
  let keep := f.o.mode = 0
  let r := eosPieces f.o.value (eos && keep) 17 v c
  .go (Fired.plain [0] (r.1.map fun t => (0, t)) (some (.count (if eos && keep then 0 else r.2) false)))

/-- COUNTFIRE (R144). -/
def fireCount (f : FireIn) (v : Lanes) (eos : Bool) : Fire :=
  let s := match f.st with
    | some (.count n d) => (n, d)
    | _ => (0, false)
  let ts := triggers f.o.value s.1 v
  let ts := if f.o.mode = 1 then (if s.2 then [] else ts.take 1) else ts
  let out1 : List (Nat × Tok) := if ts.isEmpty || !f.named1 then [] else [(1, Tok.vec (compacted ts) false)]
  .go (Fired.plain [0] ((0, Tok.vec v eos) :: out1)
    (some (if eos then .count 0 false else .count (s.1 + (validOf v).length) (s.2 || !ts.isEmpty))))

/-- CVT with its overflow output (R132). -/
def fireCvt (f : FireIn) (vs : List Lanes) (v : Lanes) (eos : Bool) : Fired :=
  let m := makeVec f vs
  let spill : Lanes := v.mapIdx fun l r => r.bind fun r => (cvtLane f.o f.site l r).2
  let any := spill.any Option.isSome
  { Fired.plain [0] ((0, Tok.vec m.1 eos) :: (if f.named1 && (any || eos) then [(1, Tok.vec spill eos)] else [])) none with
    status := bitIf (any && !f.named1) 2 }

/-- What an operator does with what stands at its inputs. -/
def fireOp (f : FireIn) : Fire :=
  match f.fault? with
  | some r => .fault r
  | none =>
    match f.o.op with
    | 0x03 => fireMerge f
    | 0x04 => fireMergeOrd f
    | 0x05 => fireDelay f
    | 0x06 => fireConst f
    | 0x07 => fireRecirc f
    | _ =>
      match f.vectors with
      | none => .wait
      | some (vs, eos, mis) =>
        let a : Lanes := vs[0]?.getD noLanes
        let r : Fire := match f.o.op with
          | 0x01 => .go (Fired.plain [0] ((0, Tok.vec a eos) :: (if f.named1 then [(1, Tok.vec a eos)] else [])) none)
          | 0x02 => fireSteer f a (vs[1]?.getD noLanes) (((f.head 0).bind Tok.vec?).elim false (·.2))
          | 0x54 | 0x55 => fireScan f a eos
          | 0x60 => .go (fireCvt f vs a eos)
          | 0x64 => if packAlike a then .go { Fired.plain [0] [(0, Tok.vec (packVec f.o a).1 eos)] none with status := (packVec f.o a).2 }
            else .fault 114
          | 0x80 => fireBins f a vs[1]? eos
          | 0x81 => fireBins f a none eos
          | 0xB0 => fireEosgen f a eos
          | 0xB1 => fireCount f a eos
          | _ =>
            let m := makeVec f vs
            .go { Fired.plain (List.range f.ins.length) [(0, Tok.vec m.1 eos)] none with status := m.2 }
        match r with
        | .go g => .go { g with status := g.status ||| bitIf mis 5 }
        | r => r

/-! ### Markers (R145) -/

/-- What an operator emits ahead of the copies of a marker, and its state after taking it: a MERGE's is unchanged at a DRAIN or MARK.
(DEDUCED: log entry 27) -/
def markerOut (o : StageOp) (st : Option OpState) : List (Nat × Tok) × Option OpState :=
  match st with
  | some (.steer p0 p1) =>
    let out (k : Nat) (rs : List Rec) : List (Nat × Tok) := if rs.isEmpty then [] else [(k, Tok.vec (compacted rs) false)]
    (out 0 p0 ++ out 1 p1, some (.steer [] []))
  | st => if o.op = 0x02 then ([], some (.steer [] [])) else ([], st)

/-- The state an operator starts with when its column switches in: a primed DELAY holds its initial tokens (R123). -/
def startState (o : StageOp) : Option OpState :=
  if o.op = 0x05 ∧ o.mode = 1 then
    some (.delay (List.replicate o.value (Tok.vec (List.replicate 16 (some (Rec.fresh .w32i 0 0 false))) false)))
  else none

end Sys2Proof.Machine
end

