-- ==== Sys2Proof/Machine/Array.lean ====
section
/-! DEFINITION. The cell array of a tile: links, in-port vectors, firing, markers, the switch of columns and out-port words, and the injection of markers (R87–R105, R145, R165). -/

namespace Sys2Proof.Machine

/-! ### Vectors of an in-port (R90) -/

/-- The alignment marker a beat is; none for data and bare EOS. -/
def Beat.mark? (b : Beat) : Option Tok :=
  if b.kind = kindSweep then some (.sweep (b.r.data.toNat % 4))
  else if b.kind = kindCtrl then
    if low16 b.r.data = mkDrain then some .drain
    else if low16 b.r.data = mkBareEos then none
    else some (.mark (b.r.data.extractLsb' 16 32))
  else none

/-- The vector or marker that heads an in-port once it is closed, with the beats it takes; rs are the open lanes. -/
def closedFrom : List Beat → List Rec → Option (Tok × Nat)
  | [], _ => none
  | b :: rest, rs =>
    match b.mark? with
    | some m => if rs.isEmpty then some (m, 1) else some (.vec (compacted rs) false, rs.length)
    | none =>
      if b.kind = kindCtrl then some (.vec (compacted rs) true, rs.length + 1)
      else if b.kind = kindEos then some (.vec (compacted (rs ++ [b.r])) true, rs.length + 1)
      else if rs.length = 15 then some (.vec (compacted (rs ++ [b.r])) false, 16)
      else closedFrom rest (rs ++ [b.r])

/-- What heads an in-port, behind the entries its readers have still to consume. -/
def InPort.closed (q : InPort) : Option (Tok × Nat) := closedFrom (q.fifo.drop q.lent) []

/-- An in-port whose head, n entries behind the lent ones, has been consumed. -/
def InPort.consume (q : InPort) (p n : Nat) : InPort := { q.takeN p (q.lent + n) with lent := 0 }

/-! ### Links (R93, R104) -/

/-- The key of a link under a context. -/
def linkKey (k idx : Nat) : Nat := 2048 * k + idx

/-- The consumer of an output, as the index of its link, and the link's slots. -/
def Maq.consumer (m : Maq) (sel : Sel) : Option (Nat × Nat) :=
  (m.stages.findSome? fun (k, o) => (o.sel.findIdx? (· == sel)).map fun i => (4 * k + i, o.d[i]?.getD 0)).or
    (m.outs.findSome? fun (p, o) => (o.sel.findIdx? (· == sel)).map fun i => (1024 + p, o.d[i]?.getD 0))

/-- The context a column is active under. -/
def Tile.activeOf (x : Tile) (c : Nat) : Option Nat := (x.cols.toList[c]?).bind (·.active)
/-- A maquette context. -/
def Tile.ctx (x : Tile) (k : Nat) : MaqCtx := (x.ctxs.toList[k]?).getD MaqCtx.reset
/-- A maquette context changed. -/
def Tile.updCtx (x : Tile) (k : Nat) (g : MaqCtx → MaqCtx) : Tile :=
  if h : k < 4 then { x with ctxs := x.ctxs.set k (g x.ctxs[k]) h } else x
/-- A column. -/
def Tile.col (x : Tile) (c : Nat) : Col := (x.cols.toList[c]?).getD Col.reset
/-- A column changed. -/
def Tile.updCol (x : Tile) (c : Nat) (g : Col → Col) : Tile :=
  if h : c < 16 then { x with cols := x.cols.set c (g x.cols[c]) h } else x
/-- The tokens on a link. -/
def Tile.link (x : Tile) (key : Nat) : List Tok := (x.links.find key).getD []
/-- The tokens on a link replaced. -/
def Tile.setLink (x : Tile) (key : Nat) (ts : List Tok) : Tile :=
  { x with links := if ts.isEmpty then x.links.del key else x.links.put key ts }

/-- Whether the consumer of a link is active under a context. -/
def Tile.consumerOn (x : Tile) (k idx : Nat) : Bool :=
  if idx < 1024 then x.activeOf (idx / 16) == some k else x.outAct.find (idx - 1024) == some k

/-- Whether a link from a column is a forward link (R95). -/
def forwardIdx (col idx : Nat) : Bool := decide (1024 ≤ idx) || decide (col < idx / 16)

/-- Where n tokens of an output of a column may go now: a full link holds the producer; under D = 0, and while the consumer has
still to switch, the result waits in the producer and only one firing's stands there, or one copy of a marker, which R99 gives a
slot that such a link has not; a back link into a column of another context takes and loses them (R93, R99, R103, R104).
(DESIGN CHOICE: log entry 104) -/
def Tile.room (x : Tile) (k col : Nat) (to_ : Option (Nat × Nat)) (n : Nat) : Bool :=
  match to_ with
  | none => true
  | some (idx, d) =>
    let len := (x.link (linkKey k idx)).length
    if x.consumerOn k idx then (if d = 0 then decide (len = 0) else decide (len + n ≤ d))
    else !forwardIdx col idx || len == 0

/-- Tokens put on the link of an output, or discarded. (DEDUCED: log entry 30) -/
def Tile.send (x : Tile) (k col : Nat) (to_ : Option (Nat × Nat)) (ts : List Tok) : Tile :=
  match to_ with
  | none => x
  | some (idx, _) =>
    if x.consumerOn k idx || forwardIdx col idx then x.setLink (linkKey k idx) (x.link (linkKey k idx) ++ ts) else x

/-- The output of a slot, as a selector. -/
def outSel (col slot o : Nat) : Sel := if o = 0 then .out0 col slot else .out1 col slot

/-! ### Readers of an in-port (R89, R93) -/

/-- The readers of an in-port among the active lane operators and out-port words: context, link and slots, and whether it is
parked. (DEDUCED: log entry 30) -/
def Tile.readers (x : Tile) (p : Nat) : List (Nat × Nat × Nat × Bool) :=
  (List.range 16).flatMap (fun c =>
    match x.activeOf c with
    | none => []
    | some k => ((x.ctx k).maq.stages.filter fun (key, _) => key / 4 = c).flatMap fun (key, o) =>
        (o.sel.zip o.d).zipIdx.filterMap fun ((s, d), i) =>
          if s = .inport p then some (k, 4 * key + i, d, (x.col c).parked.contains (key % 4)) else none) ++
  x.outAct.flatMap fun (o, k) =>
    match (x.ctx k).maq.outs.find o with
    | none => []
    | some w => (w.sel.zip w.d).filterMap fun (s, d) => if s = .inport p then some (k, 1024 + o, d, false) else none

/-- Whether a reader may take one more token: it has room, is not parked, and has no SWEEP still to take. -/
def Tile.readerRoom (x : Tile) (r : Nat × Nat × Nat × Bool) : Bool :=
  let ts := x.link (linkKey r.1 r.2.1)
  !r.2.2.2 && decide (ts.length < max 1 r.2.2.1) && !ts.any fun t => match t with
    | .sweep _ => true
    | _ => false

/-- The lent entries of an in-port leave it once no reader whose link has no slot has its token still to consume (R93). -/
def releasePort (s : State) (t p : Nat) : State :=
  let x := s.tile t
  if (x.inPort p).lent ≠ 0 ∧ (x.readers p).all fun r => r.2.2.1 != 0 || (x.link (linkKey r.1 r.2.1)).isEmpty then
    s.updPorts t fun x => x.setIn p ((x.inPort p).consume p 0)
  else s

/-- The head of an in-port goes to every reader's link, when each has room; its entries stay in the port while a reader whose link
has no slot has not consumed it. A single reader whose link has no slot takes it from the port itself (R93).
(DEDUCED: log entry 31) -/
def pullPort (s : State) (t p : Nat) : State :=
  let s := releasePort s t p
  let x := s.tile t
  match (x.inPort p).closed, x.readers p with
  | some (tok, n), r :: rest =>
    if (x.inPort p).lent ≠ 0 ∨ (rest.isEmpty && r.2.2.1 == 0) ∨ !(r :: rest).all x.readerRoom then s
    else s.updPorts t fun x =>
      let y := (r :: rest).foldl (fun y q => y.setLink (linkKey q.1 q.2.1) (y.link (linkKey q.1 q.2.1) ++ [tok])) x
      y.setIn p (if (r :: rest).any fun q => q.2.2.1 == 0 then { y.inPort p with lent := n } else (y.inPort p).takeN p n)
  | _, _ => s

/-- The tokens at an input of a consumer. (DEDUCED: log entry 31) -/
def Tile.inputToks (x : Tile) (k idx : Nat) (sel : Sel) (d : Nat) : List Tok :=
  match x.link (linkKey k idx), sel with
  | [], .inport p =>
    if d = 0 ∧ (x.readers p).length = 1 then ((x.inPort p).closed.map fun c => [c.1]).getD [] else []
  | ts, _ => ts

/-- One token popped from an input: from its link, or from the port itself. (DEDUCED: log entry 31) -/
def popInput (s : State) (t k idx : Nat) (sel : Sel) : State :=
  let x := s.tile t
  match x.link (linkKey k idx), sel with
  | [], .inport p =>
    match (x.inPort p).closed with
    | some (_, n) => s.updPorts t fun x => x.setIn p ((x.inPort p).consume p n)
    | none => s
  | ts, _ => sel.inPorts.foldl (fun s p => releasePort s t p) (s.updTile t fun x => x.setLink (linkKey k idx) ts.tail)

/-! ### Faults of a running region (R100, R397) -/

/-- MAQUETTE_FAULT of a region: its operators stop, and the frieze that owns it has the fault. -/
def regionFault (s : State) (t k col slot rule : Nat) : State :=
  let x := s.tile t
  let c := x.ctx k
  match (c.maq.regionOf col).bind fun r => c.maq.regions[r]? with
  | none => s
  | some r =>
    let s1 := s.updTile t fun x => (List.range 16).foldl (init := x) fun x j =>
      if r.first ≤ j ∧ j ≤ r.last then x.updCol j fun q => { q with stopped := true } else x
    match c.owner.bind fun o => (s.friezes.find o).map fun f => (o, t - f.head) with
    | none => s1
    | some (o, st) => s1.addFault o st none causeMaquette (BitVec.ofNat 64 (col + 16 * slot)) (BitVec.ofNat 64 rule) 0

/-! ### Switching (R101–R105) -/

/-- Whether a SWEEP aimed at a context is in flight on a tile. -/
def Tile.sweepTo (x : Tile) (j : Nat) : Bool :=
  let is (t : Tok) : Bool := t == .sweep j
  x.links.any (fun (_, ts) => ts.any is) || x.cols.toList.any (fun c => c.target == some j || c.injected.any is) ||
    x.inp.toList.any (fun q => q.fifo.any (fun b => b.mark? == some (.sweep j)) || q.waiting.any fun w => w == RawBeat.sweep j) ||
    x.sys.any fun (_, r) => (r.westMarks ++ r.northMarks).any is

/-- A context with no column and no out-port under it and no SWEEP on its way is LOADED again (R101). -/
def Tile.settleCtx (x : Tile) (k : Nat) : Tile :=
  if (x.ctx k).state = .active ∧ !x.cols.toList.any (fun c => c.active == some k) ∧ !x.outAct.any (fun (_, j) => j == k) ∧
     !x.sweepTo k then x.updCtx k fun c => { c with state := .loaded } else x

/-- Every context settled. -/
def Tile.settleAll (x : Tile) : Tile := (List.range 4).foldl (fun x k => x.settleCtx k) x

/-- The mode 01 signals of some completed instructions. -/
def addSigs (s : State) (sigs : List Sig) : State := sigs.foldl (fun s g => s.addCount g.fz g.st g.k 1) s

/-- A column, or an out-port from 32 on, has switched to a context; MAQGO is complete when none is left (R105, R163). -/
def switchedTo (s : State) (t k part : Nat) : State :=
  let s1 := s.updTile t fun x => x.updCtx k fun c => { c with await := c.await.erase part }
  let c := (s1.tile t).ctx k
  if c.await.isEmpty then addSigs (s1.updTile t fun x => x.updCtx k fun c => { c with goSigs := [] }) c.goSigs else s1

/-- Whether a maquette holds a column. -/
def Maq.hasCol (m : Maq) (c : Nat) : Bool := (m.regionOf c).isSome

/-- Whether an operator has a forward input. -/
def StageOp.hasForward (o : StageOp) (col : Nat) : Bool := o.sel.any fun s => s.forward col

/-- The operators of a column under a context. -/
def Maq.colOps (m : Maq) (c : Nat) : List (Nat × StageOp) := m.stages.filterMap fun (k, o) => if k / 4 = c then some (k % 4, o) else none

/-- The links, operators and cells of a column as it leaves one context and enters another, or goes idle: its back links start
empty, and operators take their starting state (R103, R123). A column of operators without a forward input keeps the markers injected
for it (R99). -/
def Tile.turnCol (x : Tile) (c : Nat) (new : Option Nat) : Tile :=
  let mine (key : Nat) : Bool := decide (key % 2048 < 1024) && decide (key % 2048 / 16 = c)
  let old := x.activeOf c
  let m := (new.map fun j => (x.ctx j).maq).getD ⟨[], [], [], []⟩
  let starts : Tab OpState := m.stages.filterMap fun (k, o) => if k / 4 = c then (startState o).map fun st => (k, st) else none
  let back (key : Nat) : Bool := match m.stages.find (key % 2048 / 4) with
    | some o => !((o.sel[key % 4]?.getD .none).forward c)
    | none => true
  let alone := new.isSome && !(m.colOps c).isEmpty && !(m.colOps c).any fun q => q.2.hasForward c
  { x.updCol c fun q => { q with
      active := new
      parked := []
      target := none
      injected := if alone then q.injected else []
      stopped := false } with
    links := x.links.filter fun (key, _) => !(mine key && (some (key / 2048) == old || (some (key / 2048) == new && back key)))
    pend := x.pend.filter fun (k, _) => k / 4 != c
    ops := starts.foldl (fun t (k, st) => t.put k st) (x.ops.filter fun (k, _) => k / 4 != c)
    cells := x.cells.filter fun (k, _) => k % 16 != c
    sys := x.sys.filter fun (k, _) => k != c }

/-- A systolic region whose columns have all switched to its context begins: its handshakes are still to come (R108). -/
def Tile.beginSys (x : Tile) (k c : Nat) : Tile :=
  match ((x.ctx k).maq.regionOf c).bind fun r => (x.ctx k).maq.regions[r]? with
  | none => x
  | some r =>
    if r.systolic ∧ (List.range 16).all (fun j => !(decide (r.first ≤ j) && decide (j ≤ r.last)) || x.activeOf j == some k) ∧
       (x.sys.find r.first).isNone then
      { x with sys := x.sys.put r.first SysRun.reset }
    else x

/-- A column switches to a context, or goes idle where the context does not hold it (R102, R103). -/
def switchCol (s : State) (t c target : Nat) : State :=
  let new := if ((s.tile t).ctx target).maq.hasCol c then some target else none
  let s1 := s.updTile t fun x => x.turnCol c new
  let s2 := match new with
    | some k => switchedTo (s1.updTile t fun x => x.beginSys k c) t k c
    | none => s1
  s2.updTile t Tile.settleAll

/-- An out-port word switches (R91, R103). -/
def switchOut (s : State) (t o target : Nat) : State :=
  let new := (((s.tile t).ctx target).maq.outs.find o).isSome
  let s1 := s.updTile t fun x => { x with outAct := if new then x.outAct.put o target else x.outAct.del o }
  let s2 := if new then switchedTo s1 t target (32 + o) else s1
  s2.updTile t Tile.settleAll

/-! ### OPERATOR_FIRE (R94) -/

/-- What an operator of an active column sees. -/
def Tile.fireIn (x : Tile) (k col slot : Nat) (o : StageOp) : FireIn :=
  let c := x.ctx k
  let used := o.sel.filter (· != .none)
  let first := (((c.maq.regionOf col).bind fun r => c.maq.regions[r]?).map (·.first)).getD 0
  { o := o, site := ⟨c.key, col, slot⟩, fwd := used.map fun s => s.forward col,
    ins := (used.zip o.d).zipIdx.map fun ((s, d), i) => x.inputToks k (16 * col + 4 * slot + i) s d,
    st := x.ops.find (4 * col + slot),
    dq := (x.dqs.find (64 * k + 4 * first + (if o.op = 0x02 then o.p / 8 % 4 else o.p % 4))).getD [],
    named1 := (c.maq.consumer (.out1 col slot)).isSome }

/-- Whether every output of a firing has its free slots. -/
def Tile.roomFor (x : Tile) (k col slot : Nat) (m : Maq) (outs : List (Nat × Tok)) : Bool :=
  [0, 1].all fun o => x.room k col (m.consumer (outSel col slot o)) (outs.filter fun q => q.1 == o).length

/-- What an operator can do now, its outputs' slots considered; a DELAY whose output is blocked may still take a vector. -/
def tryFire (s : State) (t k col slot : Nat) (o : StageOp) : Fire :=
  let x := s.tile t
  let f := x.fireIn k col slot o
  match fireOp f with
  | .go g =>
    if x.roomFor k col slot (x.ctx k).maq g.outs then .go g
    else if o.op = 0x05 then delayTake f else .wait
  | r => r

/-- A firing carried out. -/
def applyFire (s : State) (t k col slot : Nat) (o : StageOp) (g : Fired) : State :=
  let used := o.sel.filter (· != .none)
  let s1 := g.pops.foldl (fun s i => popInput s t k (16 * col + 4 * slot + i) (used[i]?.getD .none)) s
  s1.updTile t fun x =>
    let m := (x.ctx k).maq
    let key := 4 * col + slot
    let first := (((m.regionOf col).bind fun r => m.regions[r]?).map (·.first)).getD 0
    let dk := 64 * k + 4 * first + (if o.op = 0x02 then o.p / 8 % 4 else o.p % 4)
    let q := (x.dqs.find dk).getD []
    let q := (if g.popDq then q.tail else q) ++ g.push.toList
    let x := [0, 1].foldl (fun x i => x.send k col (m.consumer (outSel col slot i)) ((g.outs.filter fun q => q.1 == i).map (·.2))) x
    { x.updCol col fun c => { c with status := c.status ||| g.status } with
      ops := match g.st with
        | some st => x.ops.put key st
        | none => x.ops
      dqs := if g.popDq || g.push.isSome then (if q.isEmpty then x.dqs.del dk else x.dqs.put dk q) else x.dqs
      pend := if g.table.isEmpty then x.pend else x.pend.put key (g.table.map fun v => (0, v)) }

/-- The oldest vector of a table written, once its link has room (R142). A SWEEP that stands behind the last is the one the operator
takes next: it fires no more before that (R145). -/
def writePend (s : State) (t k col slot : Nat) : State :=
  let key := 4 * col + slot
  match (s.tile t).pend.find key with
  | some ((_, .sweep _) :: _) => s
  | some ((i, v) :: rest) =>
    s.updTile t fun x =>
      let to_ := (x.ctx k).maq.consumer (outSel col slot i)
      if x.room k col to_ 1 then
        { x.send k col to_ [v] with pend := if rest.isEmpty then x.pend.del key else x.pend.put key rest }
      else x
  | _ => s

/-- The in-ports an operator reads, their closed heads taken in. -/
def pullFor (s : State) (t : Nat) (o : StageOp) : State := (o.sel.flatMap Sel.inPorts).foldl (fun s p => pullPort s t p) s

/-- An operator of an active column that is neither parked nor stopped: its context and its word. -/
def Tile.live (x : Tile) (col slot : Nat) : Option (Nat × StageOp) :=
  match x.activeOf col with
  | none => none
  | some k =>
    if (x.col col).stopped || (x.col col).parked.contains slot then none
    else ((x.ctx k).maq.stages.find (4 * col + slot)).map fun o => (k, o)

/-- Whether a lower slot of the column could fire now (R94). -/
def lowerFires (s : State) (t col slot : Nat) : Bool :=
  (List.range slot).any fun j => match (s.tile t).live col j with
    | some (k, o) => ((s.tile t).pend.find (4 * col + j)).isNone && (match tryFire s t k col j o with
      | .go _ => true
      | _ => false)
    | none => false

/-- OPERATOR_FIRE. -/
def execOperatorFire (tile col slot : Nat) (s : State) : Res :=
  .next (match (s.tile tile).live col slot with
    | none => s
    | some (k, o) =>
      let s := pullFor s tile o
      if ((s.tile tile).pend.find (4 * col + slot)).isSome then writePend s tile k col slot
      else if !((s.tile tile).col col).injected.isEmpty then s
      else if lowerFires s tile col slot then s
      else match tryFire s tile k col slot o with
        | .wait => s
        | .fault r => regionFault s tile k col slot r
        | .go g => applyFire s tile k col slot o g)

/-! ### ALIGNMENT_MARKER_TAKEN (R99, R100, R103, R145) -/

/-- Whether what an operator emits and its copies of the marker have slots. -/
def Tile.markRoom (x : Tile) (k col slot : Nat) (o : StageOp) : Bool :=
  let m := (x.ctx k).maq
  let outs := (markerOut o (x.ops.find (4 * col + slot))).1
  [0, 1].all fun i =>
    let to_ := m.consumer (outSel col slot i)
    let copy := match to_ with
      | some (idx, _) => if forwardIdx col idx then 1 else 0
      | none => 0
    x.room k col to_ ((outs.filter fun q => q.1 == i).length + copy)

/-- An operator takes a marker: what it emits, then the copies on the forward links. -/
def Tile.takeMark (x : Tile) (k col slot : Nat) (o : StageOp) (mk : Tok) : Tile :=
  let m := (x.ctx k).maq
  let key := 4 * col + slot
  let r := markerOut o (x.ops.find key)
  let y := [0, 1].foldl (init := x) fun x i =>
    let to_ := m.consumer (outSel col slot i)
    let copy := match to_ with
      | some (idx, _) => if forwardIdx col idx then [mk] else []
      | none => []
    let ts := (r.1.filter fun q => q.1 == i).map (·.2) ++ copy
    if ts.isEmpty then x else x.send k col to_ ts
  { y.updCol col fun c => match mk with
      | .sweep j => { c with parked := c.parked ++ [slot], target := some j }
      | _ => c with
    ops := match r.2 with
      | some st => y.ops.put key st
      | none => y.ops
    pend := y.pend.del key }

/-- Some operators of a column take a marker, and the column switches once all are parked on a SWEEP. -/
def columnTakes (s : State) (t k col : Nat) (ops : List (Nat × StageOp)) (mk : Tok) : State :=
  let s1 := s.updTile t fun x => ops.foldl (fun x q => x.takeMark k col q.1 q.2 mk) x
  match mk with
  | .sweep j =>
    if (((s1.tile t).ctx k).maq.colOps col).all fun q => ((s1.tile t).col col).parked.contains q.1 then switchCol s1 t col j else s1
  | _ => s1

/-- Whether a SWEEP's target is LOADED or ACTIVE (R100). -/
def Tile.targetOk (x : Tile) : Tok → Bool
  | .sweep j => (x.ctx j).state == .loaded || (x.ctx j).state == .active
  | _ => true

/-- Whether an operator may take a marker that stands at every forward input: nothing of an earlier firing is still inside it, and
RECIRC is in FIRST (R99, R125, R142). -/
def Tile.markReady (x : Tile) (col slot : Nat) (o : StageOp) (mk : Tok) : Bool :=
  (match x.pend.find (4 * col + slot) with
    | none => true
    | some p => p == [(0, mk)]) &&
  (match x.ops.find (4 * col + slot) with
    | some (.delay q) => q.isEmpty || !o.hasForward col
    | some (.recirc loop) => !loop
    | _ => true)

/-- Whether a SWEEP makes an operator emit its table first (R145). -/
def Tile.tableDue (x : Tile) (col slot : Nat) : Tok → Bool
  | .sweep _ => match x.ops.find (4 * col + slot) with
    | some (.bins _ touched) => touched
    | _ => false
  | _ => false

/-- A BINACC or CNTACC that takes a SWEEP emits its table first and consumes nothing more (R145). -/
def flushBins (s : State) (t col slot : Nat) (o : StageOp) (mk : Tok) : State :=
  match (s.tile t).ops.find (4 * col + slot), mk with
  | some (.bins b true), .sweep _ =>
    s.updTile t fun x => { x with
      ops := x.ops.put (4 * col + slot) (.bins (noBins o) false)
      pend := x.pend.put (4 * col + slot) ((tableVecs o b).map (fun v => (0, v)) ++ [(0, mk)]) }
  | _, _ => s

/-- What comes of a marker that stands at every forward input of some operators of a column: it waits, tables are emitted, the region
faults, or the operators may take it (R99, R100, R145). -/
inductive MarkStep where
  | wait
  | flush
  | fault
  | take
deriving DecidableEq, Repr

/-- The same, from what the operators hold and the room at their outputs. -/
def Tile.markStep (x : Tile) (k col : Nat) (ops : List (Nat × StageOp)) (mk : Tok) : MarkStep :=
  if !ops.all fun q => x.markReady col q.1 q.2 mk then .wait
  else if x.targetOk mk && ops.any fun q => x.tableDue col q.1 mk then .flush
  else if !ops.all fun q => x.markRoom k col q.1 q.2 then .wait
  else if !x.targetOk mk then .fault
  else .take

/-- The lowest slot of a column with a forward input: the operators without one take a marker with it (R99).
(DEDUCED: log entry 32) -/
def Maq.leadSlot (m : Maq) (c : Nat) : Option Nat := ((m.colOps c).find? fun q => q.2.hasForward c).map (·.1)

/-- A marker injected for a column of operators without a forward input is taken once their outputs have room.
(DEDUCED: log entry 32) -/
def injectedTaken (s : State) (t k col : Nat) : State :=
  let x := s.tile t
  match (x.col col).injected with
  | [] => s
  | mk :: rest =>
    let ops := (x.ctx k).maq.colOps col
    match x.markStep k col ops mk with
    | .wait => s
    | .flush => ops.foldl (fun s q => flushBins s t col q.1 q.2 mk) s
    | .fault => regionFault s t k col ((ops.head?.map (·.1)).getD 0) 100
    | .take => columnTakes (s.updTile t fun x => x.updCol col fun c => { c with injected := rest }) t k col ops mk

/-- The marker at the forward inputs of an operator is taken, or refused (R100). -/
def markerAt (s : State) (t k col slot : Nat) (o : StageOp) : State :=
  let x := s.tile t
  let f := x.fireIn k col slot o
  let fw := (f.heads.zip f.fwd).filterMap fun (h, b) => if b then some h else none
  match f.fault? with
  | some r => regionFault s t k col slot r
  | none =>
    match fw.head?.join with
    | none => s
    | some mk =>
      if !mk.isMark || !fw.all (fun h => h == some mk) then s
      else if o.op = 0x04 ∧ !f.dq.isEmpty then
        if f.heads.all fun h => (h.map Tok.isMark).getD false then regionFault s t k col slot 121 else s
      else
        let with_ : List (Nat × StageOp) :=
          if (x.ctx k).maq.leadSlot col = some slot then ((x.ctx k).maq.colOps col).filter fun q => !q.2.hasForward col else []
        let ops := (slot, o) :: with_
        match x.markStep k col ops mk with
        | .wait => s
        | .flush => ops.foldl (fun s q => flushBins s t col q.1 q.2 mk) s
        | .fault => regionFault s t k col slot 100
        | .take =>
          let used := o.sel.filter (· != .none)
          let s1 := (used.zip f.fwd).zipIdx.foldl (init := s) fun s ((sel, b), i) =>
            if b then popInput s t k (16 * col + 4 * slot + i) sel else s
          columnTakes s1 t k col ops mk

/-- ALIGNMENT_MARKER_TAKEN. (DEDUCED: log entry 32) -/
def execAlignmentMarkerTaken (tile col slot : Nat) (s : State) : Res :=
  .next (match (s.tile tile).activeOf col with
    | none => s
    | some k =>
      if ((s.tile tile).col col).stopped then s
      else if !((s.tile tile).col col).injected.isEmpty then injectedTaken s tile k col
      else match (s.tile tile).live col slot with
        | none => s
        | some (_, o) =>
          let s := pullFor s tile o
          markerAt s tile k col slot o)

/-! ### OUTPORT_WORD_FIRE (R91) -/

/-- A beat formed in the array: its bits are those of its record. -/
def Beat.of (k : BitVec 2) (r : Rec) : Beat := ⟨k, r, r.data⟩

/-- The beats of a vector, in lane order, the last one marked under EOS; one bare EOS for an empty vector with EOS. -/
def vecBeats (v : Lanes) (eos : Bool) : List Beat :=
  let rs := (validOf v).filterMap (recAt v)
  if rs.isEmpty then
    (if eos then [Beat.of kindCtrl (Rec.fresh .w32i RawBeat.bareEos.data 0 false)] else [])
  else rs.mapIdx fun i r => Beat.of (if eos ∧ i + 1 = rs.length then kindEos else kindData) r

/-- The beat of a DRAIN or MARK. -/
def markBeat : Tok → List Beat
  | .drain => [Beat.of kindCtrl (Rec.fresh .w32i (RawBeat.ctrl mkDrain 0).data 0 false)]
  | .mark tag => [Beat.of kindCtrl (Rec.fresh .w32i (RawBeat.ctrl mkMark tag).data 0 false)]
  | _ => []

/-- Beats appended to an out-port. -/
def State.pushOut (s : State) (t o : Nat) (bs : List Beat) : State := s.updPorts t fun x => x.setOut o (x.outPort o ++ bs)

/-- A DRAIN has left through an out-port of a context: the oldest MAQDRN that waits for it counts it (R105, R163). -/
def drainLeft (ds : List (List Nat × Option Sig)) (o : Nat) : List (List Nat × Option Sig) :=
  match ds with
  | [] => []
  | d :: rest => if d.1.contains o then (d.1.erase o, d.2) :: rest else d :: drainLeft rest o

/-- The MAQDRNs that are complete, with their signals. -/
def settleDrains (s : State) (t k : Nat) : State :=
  let ds := ((s.tile t).ctx k).drains
  addSigs (s.updTile t fun x => x.updCtx k fun c => { c with drains := ds.filter fun d => !d.1.isEmpty })
    (ds.filterMap fun d => if d.1.isEmpty then d.2 else none)

/-- A DRAIN written to an out-port. -/
def drainOut (s : State) (t k o : Nat) : State :=
  settleDrains (s.updTile t fun x => x.updCtx k fun c => { c with drains := drainLeft c.drains o }) t k

/-- Whether the region an out-port word belongs to has stopped. -/
def Tile.outStopped (x : Tile) (m : Maq) (w : StageOp) : Bool :=
  match (m.outRegion w).bind fun r => m.regions[r]? with
  | none => false
  | some r => (x.col r.first).stopped

/-- OUTPORT_WORD_FIRE. A SWEEP whose target is neither LOADED nor ACTIVE stands at the word, which raises no fault (R100 speaks of
operators). (DESIGN CHOICE: log entry 100) -/
def execOutportWordFire (tile o : Nat) (s : State) : Res :=
  .next (match (s.tile tile).outAct.find o with
    | none => s
    | some k =>
      match ((s.tile tile).ctx k).maq.outs.find o with
      | none => s
      | some w =>
        let s := pullFor s tile w
        let x := s.tile tile
        let sel := w.sel[0]?.getD .none
        if x.outStopped (x.ctx k).maq w then s
        else match (x.inputToks k (1024 + o) sel (w.d[0]?.getD 0)).head? with
          | none => s
          | some (.sweep j) => if x.targetOk (.sweep j) then switchOut (popInput s tile k (1024 + o) sel) tile o j
            else s
          | some tok =>
            let bs := match tok with
              | .vec v e => vecBeats v e
              | m => markBeat m
            if 64 < (x.outPort o).length + bs.length then s
            else
              let s1 := (popInput s tile k (1024 + o) sel).pushOut tile o bs
              if tok = .drain then drainOut s1 tile k o else s1)

/-! ### Injection (R99, R102, R165, R166, R327) -/

/-- The in-ports a region's columns read: those of its lane operators in the columns asked for, every named one of a systolic
region (R159). -/
def Maq.readPorts (m : Maq) (cols : List Nat) : List Nat :=
  (m.stages.flatMap (fun (k, o) => if cols.contains (k / 4) then o.sel.flatMap Sel.inPorts else []) ++
    m.sys.flatMap fun (r, w) => match m.regions[r]? with
      | some g => if cols.any fun c => decide (g.first ≤ c) && decide (c ≤ g.last) then w.inPorts (some g) else []
      | none => []).dedup

/-- The raw beat of a marker. -/
def Tok.raw : Tok → RawBeat
  | .sweep j => RawBeat.sweep j
  | .mark tag => RawBeat.ctrl mkMark tag
  | _ => RawBeat.ctrl mkDrain 0

/-- A marker appended to in-ports, and given to the columns whose operators have no forward input (R99, R165).
(DEDUCED: log entry 28) -/
def injectMark (s : State) (t k : Nat) (ports cols : List Nat) (mk : Tok) : State :=
  let s1 := ports.foldl (fun s p => s.updPorts t fun x => x.setIn p ((x.inPort p).inject p mk.raw)) s
  s1.updTile t fun x => cols.foldl (init := x) fun x c =>
    let ops := (x.ctx k).maq.colOps c
    if x.activeOf c = some k ∧ !ops.isEmpty ∧ !ops.any (fun q => q.2.hasForward c) then
      x.updCol c fun q => { q with injected := q.injected ++ [mk] } else x

/-- The columns active under a context. -/
def Tile.colsOn (x : Tile) (k : Nat) : List Nat := (List.range 16).filter fun c => x.activeOf c == some k

/-- The in-ports that active out-port words of a context read directly. -/
def Tile.directPorts (x : Tile) (k : Nat) (outs : Nat → Bool) : List Nat :=
  x.outAct.flatMap fun (o, j) => if j = k ∧ outs o then (((x.ctx k).maq.outs.find o).map fun w => w.sel.flatMap Sel.inPorts).getD [] else []

/-- A marker for everything active under a context. (DEDUCED: log entry 28) -/
def injectAll (s : State) (t k : Nat) (mk : Tok) : State :=
  let x := s.tile t
  injectMark s t k (((x.ctx k).maq.readPorts (x.colsOn k) ++ x.directPorts k fun _ => true).dedup) (x.colsOn k) mk

end Sys2Proof.Machine
end

