-- ==== Sys2Proof/Machine/ArrayControl.lean ====
section
/-! DEFINITION. The array-control words MAQLD, MAQGO, MAQDRN, ACCSAVE, ACCLOAD, CHBIND and SRSEED, the end of a load, and the accumulator images (R69, R70, R101–R105, R162–R171). -/

namespace Sys2Proof.Machine

/-! ### Reading words one by one (R17, R164, R182, R406) -/

/-- The fault of R17 at some byte of a range, whatever its alignment (R171). -/
def addressFault (s : State) (job tile : Nat) (form : Dword) (a n : Nat) (k : Access) : Option Viol :=
  match rangeCheck s job tile form a k n (n / 128 + 2) with
  | .error v => some v
  | .ok _ => none

/-- A doubleword read by the fabric: the faults of its address, an unreachable module, an uncorrectable error. -/
def loadWord (s : State) (job tile : Nat) (form : Dword) (a : Int) : Except Viol Dword :=
  match addressFault s job tile form a.toNat 8 .read, elementCheck s job tile form a 8 .read with
  | some v, _ => .error v
  | none, .error v => .error v
  | none, .ok p =>
    if !s.placeUp p then .error ⟨causeFabric, false⟩
    else if s.badAt p 8 then .error ⟨causePoison, false⟩
    else .ok (bvOf 64 (s.bytesAt p 8))

/-- n doublewords from an exact address up, the i-th of a load first; where one fails, its cause, its address and its number. -/
def loadWords (s : State) (job tile : Nat) (form : Dword) (a : Int) (i : Nat) : Nat → Except (Viol × Int × Nat) (List Dword)
  | 0 => .ok []
  | n + 1 =>
    match loadWord s job tile form a with
    | .error v => .error (v, a, i)
    | .ok w =>
      match loadWords s job tile form (a + 8) (i + 1) n with
      | .error e => .error e
      | .ok ws => .ok (w :: ws)

/-- The sectors n words at an address lie in (R163). (DESIGN CHOICE: log entry 38) -/
def sectorsOf (a n : Nat) : Nat := if n = 0 then 0 else (a + 8 * n - 1) / 32 + 1 - a / 32

/-! ### MAQLD (R101, R164, R171) -/

/-- MAQLD. The load is at work from here on; MAQLD_COMPLETE ends it. -/
def execMaqld (h : Hdr) (m : BitVec 2) (a b : Reg) (s : State) : Res :=
  issueWord (.maqld h m a b) h s fun c s =>
    let x := (s.tile c.tile).ctx m.toNat
    let form := c.g a
    let free := x.state == .empty || (x.state == .loaded && x.owner == some c.id)
    match addressFault s c.job c.tile form (formAddr form) 8 .read with
    | some v => if free then .done (begin_ c s x form) false else v.eff form
    | none =>
      if formAddr form % 8 ≠ 0 then .trap causeMisaligned form
      else if free then .done (begin_ c s x form) false
      else .trap causeMaquette 0
where
  /-- the context is LOADING -/
  begin_ (c : Ctx) (s : State) (x : MaqCtx) (form : Dword) : State :=
    (s.updTile c.tile fun t => t.updCtx m.toNat fun q => { q with
      state := .loading
      owner := some c.id
      load := some { form := form, avail := c.g b, fz := c.id, st := c.st, sigMode := c.h.sigMode, sigK := c.h.sigK,
                     uid := s.serial, waits := c.x.waitsFor clEN false, was := x.state == .loaded } }).bump

/-- The end of a load, successful or not: its signal, its sector increments, its access retired (R163, R164). -/
def endLoad (s : State) (l : Load) (sectors : Nat) : State :=
  ((s.sigDone l.fz l.st l.sigMode l.sigK).sigSector l.fz l.st l.sigMode l.sigK sectors).retire l.fz l.uid

/-- A load that fails: the context is EMPTY, or what it was, and the fault goes to the frieze (R101, R171).
(DESIGN CHOICE: log entry 38) -/
def failLoad (s : State) (t k : Nat) (l : Load) (sectors : Nat) (back : Bool) (v : Viol) (d0 : Dword) : State :=
  let s1 := s.updTile t fun x => x.updCtx k fun c =>
    if back ∧ l.was then { c with
      state := .loaded
      load := none } else MaqCtx.reset
  let s2 := (endLoad s1 l sectors).addFault l.fz l.st none v.cause d0 0 0
  if v.freeze then s2.freezeFz l.fz v.cause d0 else s2

/-- Whether a maquette names a column or a port that a LOADED or ACTIVE context of another frieze names (R101).
(DEDUCED: log entry 29) -/
def Tile.conflicts (x : Tile) (id : Nat) (m : Maq) : Bool :=
  x.ctxs.toList.any fun c => match c.owns with
    | some (o, n) => o != id &&
        ((regionCols m.regions).any (regionCols n.regions).contains || m.ports.any n.ports.contains)
    | none => false

/-- A maquette that has passed every check stands in its context: SR key zero; ports that were not the frieze's own start their
element counters anew and lose another frieze's configuration (R76, R77, R225). -/
def Tile.loaded (x : Tile) (k id : Nat) (m : Maq) : Tile :=
  let mine (p : Nat) : Bool := x.portOwner p == some id
  let new := m.ports.dedup.filter fun p => !mine p
  let y := x.updCtx k fun c => { MaqCtx.reset with
    state := .loaded
    owner := c.owner
    maq := m }
  let y := (new.filter (· < 32)).foldl (fun y p => y.setIn p { y.inPort p with srCount := 0 }) y
  { y with cfg := y.cfg.filter fun (p, c) => !(new.contains p && c.fz != id) }

/-- MAQLD_COMPLETE: the words are read in order and checked (R54, R101, R164). (DEDUCED: log entry 29) -/
def execMaqldComplete (tile ctx : Nat) (s : State) : Res :=
  .next (
    let c := (s.tile tile).ctx ctx
    match c.load with
    | none => s
    | some l =>
      if !l.waits.isEmpty || l.behind s then s
      else
        let job := ((s.friezes.find l.fz).map (·.job)).getD 0
        let base : Int := formAddr l.form
        let maqFault : Viol := ⟨causeMaquette, false⟩
        -- sectors read before a failure in a later word, n words read: a number the 840 chooses
        let f := s.takeFree
        let part (n : Nat) : Nat := 1 + f.1 % sectorsOf (formAddr l.form) n
        match loadWord s job tile l.form base with
        | .error v => failLoad s tile ctx l 1 false v l.form
        | .ok h =>
          match mqHeader h l.avail.toNat with
          | none => failLoad s tile ctx l 1 false maqFault 0
          | some (nreg, nword, mask) =>
            match loadWords s job tile l.form (base + 8) 1 (nword - 1) with
            | .error (v, a, i) => failLoad f.2 tile ctx l (part i) false v (formAt l.form a)
            | .ok ws =>
              match buildMaq nreg mask (h :: ws) with
              | none => failLoad f.2 tile ctx l (part nword) false maqFault 0
              | some m =>
                if !m.onDie tile || (s.tile tile).conflicts l.fz m then failLoad f.2 tile ctx l (part nword) true maqFault 0
                else endLoad (s.updTile tile fun x => x.loaded ctx l.fz m) l (sectorsOf (formAddr l.form) nword))

/-! ### MAQGO (R101–R104, R165) -/

/-- The columns of a context, and its out-ports from 32 on. -/
def Maq.parts (m : Maq) : List Nat := (List.range 16).filter (fun c => m.hasCol c) ++ m.outs.keys.map (32 + ·)

/-- The columns of a maquette that are active under a context: its part of the old configuration of a MAQGO (R102). -/
def Tile.oldCols (x : Tile) (k : Nat) (m : Maq) : List Nat := (x.colsOn k).filter m.hasCol

/-- The in-ports a MAQGO's SWEEP goes into for one old context: those its columns of the maquette read and, of the out-port words that
read an in-port directly, those whose out-port the maquette names; other such words stay active. (DEDUCED: log entry 28) (DESIGN CHOICE: log entry 100) -/
def Tile.sweepPorts (x : Tile) (m : Maq) (k : Nat) : List Nat :=
  (x.ctx k).maq.readPorts (x.oldCols k m) ++ x.directPorts k fun o => (m.outs.find o).isSome

/-- The SWEEP of a MAQGO from some old contexts: one into each in-port of sweepPorts, and one for each column without a forward input.
(DESIGN CHOICE: log entry 100) -/
def sweepFrom (s : State) (t j : Nat) (m : Maq) (ks : List Nat) : State :=
  let x := s.tile t
  let s1 := injectMark s t j (ks.flatMap fun k => x.sweepPorts m k).dedup [] (.sweep j)
  ks.foldl (fun s k => injectMark s t k [] (x.oldCols k m) (.sweep j)) s1

/-- The lane columns of an old context that hold no operator, in a region that shares a column with a maquette: their last operator
has parked as soon as the SWEEP is injected (R103). (DEDUCED: log entry 28) -/
def Tile.bareCols (x : Tile) (k : Nat) (m : Maq) : List Nat :=
  let old := (x.ctx k).maq
  (x.colsOn k).filter fun c => (old.colOps c).isEmpty && (match (old.regionOf c).bind fun r => old.regions[r]? with
    | some r => !r.systolic && (List.range 16).any fun j => decide (r.first ≤ j) && decide (j ≤ r.last) && m.hasCol j
    | none => false)

/-- MAQGO's effect: SWEEPs for what is active under other contexts of the owner, and what is idle switches at once. -/
def goCtx (s : State) (t j : Nat) (sig : Option Sig) : State :=
  let m := ((s.tile t).ctx j).maq
  let s1 := s.updTile t fun x => { x.updCtx j fun c => { c with
      state := .active
      goSigs := c.goSigs ++ sig.toList
      await := m.parts
      drains := [] } with
    links := x.links.filter fun (k, _) => k / 2048 != j
    dqs := x.dqs.filter fun (k, _) => k / 64 != j }
  let others := ((s1.tile t).ctxsOf ((((s1.tile t).ctx j).owner).getD 0)).filter (· != j)
  let bare := others.flatMap fun k => (s1.tile t).bareCols k m
  let s2 := sweepFrom s1 t j m others
  let s3 := (List.range 16).foldl (init := s2) fun s c =>
    if bare.contains c ∨ (m.hasCol c ∧ ((s.tile t).activeOf c).isNone) then switchCol s t c j else s
  m.outs.keys.foldl (init := s3) fun s o =>
    if ((s.tile t).outAct.find o).isNone then switchOut s t o j else s

/-- The completion signal of a word under mode 01. -/
def Ctx.sig (c : Ctx) : Option Sig := if c.h.sigMode = 1 then some ⟨c.id, c.st, c.h.sigMode, c.h.sigK⟩ else none

/-- MAQGO. -/
def execMaqgo (h : Hdr) (m : BitVec 2) (s : State) : Res :=
  issueWord (.maqgo h m) h s fun c s =>
    let x := (s.tile c.tile).ctx m.toNat
    if x.owner ≠ some c.id ∨ x.state ≠ .loaded then .trap causeMaquette 0
    else .done (goCtx s c.tile m.toNat c.sig) false

/-! ### MAQDRN (R105, R166) -/

/-- The out-ports a DRAIN of a context has to leave by: those of its out-port words and of its systolic regions, switched or not
(R105, R163). -/
def Tile.drainOuts (x : Tile) (k : Nat) : List Nat :=
  let m := (x.ctx k).maq
  m.outs.keys ++ m.sys.vals.map (·.out)

/-- MAQDRN. -/
def execMaqdrn (h : Hdr) (m : BitVec 2) (s : State) : Res :=
  issueWord (.maqdrn h m) h s fun c s =>
    let k := m.toNat
    let x := (s.tile c.tile).ctx k
    if x.owner ≠ some c.id ∨ x.state ≠ .active then .trap causeMaquette 0
    else
      let outs := (s.tile c.tile).drainOuts k
      let s1 := injectAll s c.tile k .drain
      .done (settleDrains (s1.updTile c.tile fun x => x.updCtx k fun q => { q with drains := q.drains ++ [(outs, c.sig)] }) c.tile k) false

/-! ### ACCSAVE and ACCLOAD (R167, R168, R171) -/

/-- Whether a column is active under, or named by, a context of another frieze. -/
def State.foreignCol (s : State) (t col id : Nat) : Bool :=
  let x := s.tile t
  x.ctxs.toList.zipIdx.any fun (c, k) =>
    (match c.owner with
      | some o => o != id
      | none => false) &&
    (x.activeOf col == some k || (match c.owns with
      | some (_, m) => m.hasCol col
      | none => false))

/-- The first columns of the systolic regions of a tile that share a column with a range. -/
def Tile.sysOver (x : Tile) (first last : Nat) : List Nat :=
  x.sys.keys.filter fun f =>
    match (x.activeOf f).bind fun k => ((x.ctx k).maq.regionOf f).bind fun r => (x.ctx k).maq.regions[r]? with
    | some r => decide (r.first ≤ last) && decide (first ≤ r.last)
    | none => false

/-- Whether no cell of a tile's systolic region from a first column on has an operation queued or in progress. -/
def Tile.sysIdle (x : Tile) (f : Nat) : Bool :=
  match (x.activeOf f).bind fun k => ((x.ctx k).maq.regionOf f).bind fun r => (x.ctx k).maq.regions[r]? with
  | some r => x.cells.all fun (key, c) => !(decide (r.first ≤ key % 16) && decide (key % 16 ≤ r.last)) || c.ctl.isEmpty
  | none => true

/-- The regions of a range held back for a request. -/
def Tile.hold (x : Tile) (fs : List Nat) (u : Nat) : Tile :=
  { x with sys := x.sys.map fun (f, r) => if fs.contains f then (f, { r with held := u :: r.held.erase u }) else (f, r) }

/-- The regions of a tile let go by a request that has taken effect. -/
def Tile.letGo (x : Tile) (u : Nat) : Tile := { x with sys := x.sys.map fun (f, r) => (f, { r with held := r.held.erase u }) }

/-- Whether the west tile of a region's tile row has a control beat at hand: an operation is queued (R168). -/
def ctlQueued (s : State) (t f : Nat) : Bool :=
  match (s.tile t).activeOf f, (s.tile t).sys.find f with
  | some k, some run =>
    let m := ((s.tile t).ctx k).maq
    (match (m.regionOf f).bind m.sys.find with
    | none => false
    | some w => ((s.tile (t - (((run.site.or run.west).or run.north).getD (0, 0)).1)).inPort w.c).fifo.any fun b => isData b.kind)
  | _, _ => false

/-- ACCSAVE or ACCLOAD: a request of class EN that takes effect at a common operation boundary. -/
def accWord (i : Instr) (h : Hdr) (a : Reg) (first last : BitVec 4) (load : Bool) (kind : Dword → ReqKind) (s : State) : Res :=
  issueWord i h s fun c s =>
    let form := c.g a
    if (List.range 16).any fun j => decide (first.toNat ≤ j) && decide (j ≤ last.toNat) && s.foreignCol c.tile j c.id then
      .trap causeProtection 0
    else if formAddr form % 128 ≠ 0 ∧ (addressFault s c.job c.tile form (formAddr form) (64 * (last.toNat + 1 - first.toNat) + 32)
        (if load then .read else .write)).isNone then .trap causeMisaligned form
    else
      -- with nothing queued or in progress, the boundary is the issue
      let fs := (s.tile c.tile).sysOver first.toNat last.toNat
      let s1 := c.request s (kind form) none
      .done (if fs.all fun f => (s.tile c.tile).sysIdle f && !ctlQueued s c.tile f then s1.updTile c.tile fun x => x.hold fs s.serial else s1)
        false

def execAccsave (h : Hdr) (k : BitVec 2) (a : Reg) (first last : BitVec 4) (s : State) : Res :=
  accWord (.accsave h k a first last) h a first last false (fun f => .accsave k.toNat first.toNat last.toNat f) s
def execAccload (h : Hdr) (k : BitVec 2) (a : Reg) (first last : BitVec 4) (s : State) : Res :=
  accWord (.accload h k a first last) h a first last true (fun f => .accload k.toNat first.toNat last.toNat f) s

/-- An accumulator of a cell and its poison flag. -/
def Tile.accOf (x : Tile) (lane col k : Nat) : Word × Bool := (x.acc.find (64 * lane + 4 * col + k)).getD (0, false)
/-- An accumulator of a cell written; +0 with a clear flag is not listed. -/
def Tile.setAcc (x : Tile) (lane col k : Nat) (v : Word × Bool) : Tile :=
  { x with acc := if v = (0, false) then x.acc.del (64 * lane + 4 * col + k) else x.acc.put (64 * lane + 4 * col + k) v }

/-- The image of acc K over columns first to last: the values lane by lane, then one halfword of poison flags a lane (R167). -/
def Tile.accImage (x : Tile) (k first last : Nat) : List Byte :=
  let cols := (List.range 16).filter fun c => decide (first ≤ c) && decide (c ≤ last)
  (List.range 16).flatMap (fun l => cols.flatMap fun c => bytesOf (x.accOf l c k).1) ++
    (List.range 16).flatMap fun l =>
      leBytes ((cols.map fun c => if (x.accOf l c k).2 then 2 ^ (c - first) else 0).sum) 2

/-- The cells an image gives. -/
def Tile.setImage (x : Tile) (k first last : Nat) (bs : List Byte) : Tile :=
  let w := last + 1 - first
  (List.range 16).foldl (init := x) fun x l => (List.range w).foldl (init := x) fun x c =>
    x.setAcc l (first + c) k (bvOf 32 ((bs.drop (4 * (w * l + c))).take 4), leNat ((bs.drop (64 * w + 2 * l)).take 2) / 2 ^ c % 2 == 1)

/-- An image written sector by sector until an address fails: the state, the sectors written, and the failure. -/
def saveImage (s : State) (r : Req) (form : Dword) (a : Nat) : List (List Byte) → Nat → State × Nat × Option (Viol × Dword)
  | [], n => (s, n, none)
  | bs :: rest, n =>
    match rangeCheck s r.job r.tile form a .write 32 2 with
    | .error v => (s, n, some (v, formAt form a))
    | .ok ps =>
      if ps.any fun p => !s.placeUp p.1 then (s, n, some (⟨causeFabric, false⟩, formAt form a))
      else saveImage (s.scatter ps bs) r form (a + 32) rest (n + 1)

/-- An image read sector by sector: the bytes up to a failure, and the failure. -/
def readImage (s : State) (r : Req) (form : Dword) (a : Nat) : Nat → List Byte × Option (Viol × Dword)
  | 0 => ([], none)
  | n + 1 =>
    match rangeCheck s r.job r.tile form a .read 32 2 with
    | .error v => ([], some (v, formAt form a))
    | .ok ps =>
      if ps.any fun p => !s.placeUp p.1 then ([], some (⟨causeFabric, false⟩, formAt form a))
      else if s.anyBad ps then ([], some (⟨causePoison, false⟩, formAt form a))
      else
        let more := readImage s r form (a + 32) n
        (s.gather ps ++ more.1, more.2)

/-- The sectors of an image, the last one padded by nothing: 64W + 32 bytes are 2W + 1 whole sectors (R163, R167). -/
def imageSectors (bs : List Byte) : Nat → List (List Byte)
  | 0 => []
  | n + 1 => bs.take 32 :: imageSectors (bs.drop 32) n

/-- An ACCSAVE or ACCLOAD comes to its columns: it waits for the operations in progress, holding back those that arrive, then
takes effect in every cell at once. -/
def respondAcc (s : State) (k : Nat) (r : Req) (load : Bool) (acc first last : Nat) (form : Dword) : State :=
  let x := s.tile r.tile
  let fs := x.sysOver first last
  let w := last + 1 - first
  if !fs.all x.sysIdle then s.updTile r.tile fun x => x.hold fs r.uid
  else
    let s := s.updTile r.tile fun x => x.letGo r.uid
    let sectors (s : State) (n : Nat) : State :=
      if r.sigMode = 2 then
        (if r.sigK.toNat < 32 then s.addCount r.fz r.st r.sigK (BitVec.ofNat 32 n)
         else s.updCtr r.tile (r.sigK.toNat - 32) (· + BitVec.ofNat 32 n)) else s
    if load then
      match readImage s r form (formAddr form) (2 * w + 1) with
      | (bs, some (v, d)) => (sectors s (bs.length / 32)).failReq k v d
      | (bs, none) => (sectors (s.updTile r.tile fun x => x.setImage acc first last bs) (2 * w + 1)).finishReq k ⟨none, none⟩
    else
      match saveImage s r form (formAddr form) (imageSectors (x.accImage acc first last) (2 * w + 1)) 0 with
      | (s1, n, some (v, d)) => (sectors s1 n).failReq k v d
      | (s1, n, none) => (sectors s1 n).finishReq k ⟨none, none⟩

/-! ### CHBIND and SRSEED (R69, R70, R169, R170) -/

/-- The binding a register word gives; none if it is illegal. -/
def Binding.ofWord (w : Word) : Option Binding :=
  let sm := (w.extractLsb' 16 3).toNat
  let sp := w.getLsbD 19
  match Fmt.ofCode (w.extractLsb' 0 4).toNat with
  | none => none
  | some f =>
    if w.extractLsb' 20 4 ≠ 0 ∨ w.extractLsb' 4 12 ≠ 0 ∨ 5 ≤ sm then none
    else if sm ≠ 0 ∧ (f = .fp32 ∨ f = .int32) then none
    else if (sm = 1 ∨ sm = 2) ∧ sp then none
    else if sp ∧ (f = .fp32 ∨ f = .bf16 ∨ f = .fp16 ∨ f = .int16 ∨ f = .int32 ∨ f = .uint8) then none
    else some ⟨w.extractLsb' 24 8, sp, sm, f⟩

/-- CHBIND: channels X to X + n (the field holds the number less one). -/
def execChbind (h : Hdr) (x : BitVec 5) (a : Reg) (n : BitVec 5) (s : State) : Res :=
  issueWord (.chbind h x a n) h s fun c s =>
    let ps := (List.range (n.toNat + 1)).map (x.toNat + ·)
    match Binding.ofWord ((c.g a).setWidth 32) with
    | none => .trap causeIllegal 0
    | some b =>
      if ps.any fun p => s.foreignPort c.tile p c.id then .trap causeProtection 0
      else .done (s.updTile c.tile fun t => ps.foldl (fun t p => t.setIn p { t.inPort p with binding := b }) t) true

/-- SRSEED. -/
def execSrseed (h : Hdr) (m : BitVec 2) (a : Reg) (s : State) : Res :=
  issueWord (.srseed h m a) h s fun c s =>
    let ps := (List.range 32).filter fun p => (c.g a).getLsbD p
    let x := (s.tile c.tile).ctx m.toNat
    if ps.any fun p => s.foreignPort c.tile p c.id then .trap causeProtection 0
    else if x.owner ≠ some c.id ∨ x.state ≠ .loaded then .trap causeMaquette 0
    else .done (s.updTile c.tile fun t =>
      ps.foldl (fun t p => t.setIn p { t.inPort p with srCount := 0 }) (t.updCtx m.toNat fun q => { q with key := c.x.srSeed })) true

end Sys2Proof.Machine
end

