-- ==== Sys2Proof/Machine/Control.lean ====
section
/-! DEFINITION. Group 0x3: control transfer, PSET, TRIG, EXIT, WAITE and SIGE, and the result of a vote (R311–R320). -/

namespace Sys2Proof.Machine

/-- The target of a transfer: (index of the word + OFF) modulo 2^52 (R311). -/
def branchTarget (index : BitVec 52) (off : BitVec 28) : BitVec 52 := index + off.signExtend 52

/-- The head fetches from a target next; what it had fetched ahead is not on the path (R311). The word itself stands first
in the fetch buffer until it has issued. -/
def takeBranch (c : Ctx) (target : BitVec 52) (s : State) : State :=
  s.updFz c.id fun f => { f with fetched := f.fetched.take 1, fetchIndex := target }

/-- Whether BR is taken, from the head's registers (R36). -/
def brTaken (c : Ctx) (r : BitVec 5) (kind : BitVec 3) : Bool :=
  match kind.toNat with
  | 0 => true
  | 1 => c.x.rp (r.setWidth 3)
  | 2 => !c.x.rp (r.setWidth 3)
  | 3 => c.g r == 0
  | 4 => c.g r != 0
  | _ => false

def execBr (h : Hdr) (r : BitVec 5) (kind : BitVec 3) (off : BitVec 28) (s : State) : Res :=
  issueWord (.br h r kind off) h s fun c s =>
    .done (if c.isHead && brTaken c r kind then takeBranch c (branchTarget c.index off) s else s) true

/-- A vote word: every station contributes p[C]; the head opens the vote (R313). (DEDUCED: log entry 51) -/
def voteWord (i : Instr) (h : Hdr) (all : Bool) (p : BitVec 3) (off : BitVec 28) (s : State) : Res :=
  issueWord i h s fun c s =>
    .done (s.updFz c.id fun f =>
      if c.isHead then { f with vote := some ⟨c.lane, all, branchTarget c.index off, [c.x.rp p]⟩ }
      else { f with vote := f.vote.map fun v => { v with votes := v.votes ++ [c.x.rp p] } }) true

def execBrany (h : Hdr) (p : BitVec 3) (off : BitVec 28) (s : State) : Res := voteWord (.brany h p off) h false p off s
def execBrall (h : Hdr) (p : BitVec 3) (off : BitVec 28) (s : State) : Res := voteWord (.brall h p off) h true p off s

/-- VOTE_RESULT: once every station has contributed, the head takes the branch or goes on (R313). -/
def execVoteResult (fz : Nat) (s : State) : Res :=
  .next (s.updFz fz fun f =>
    match f.vote with
    | none => f
    | some v =>
      if v.votes.length < f.len then f
      else if (if v.all then v.votes.all id else v.votes.any id) then
        { f with vote := none, fetched := [], decoded := false, fetchIndex := v.target }
      else { f with vote := none })

def execLoop (h : Hdr) (r : Reg) (off : BitVec 28) (s : State) : Res :=
  issueWord (.loop h r off) h s fun c s =>
    let s1 := c.setG s r (c.g r - 1)
    .done (if c.isHead && c.g r - 1 != 0 then takeBranch c (branchTarget c.index off) s1 else s1) true

def execCall (h : Hdr) (r : Reg) (off : BitVec 28) (s : State) : Res :=
  issueWord (.call h r off) h s fun c s =>
    let s1 := c.setG s r ((c.index + 1).zeroExtend 64)
    .done (if c.isHead then takeBranch c (branchTarget c.index off) s1 else s1) true

def execRet (h : Hdr) (r : Reg) (s : State) : Res :=
  issueWord (.ret h r) h s fun c s =>
    .done (if c.isHead then takeBranch c ((c.g r).setWidth 52) s else s) true

def execPset (h : Hdr) (d : BitVec 3) (a b : BitVec 5) (cond : BitVec 4) (s : State) : Res :=
  issueWord (.pset h d a b cond) h s fun c s =>
    let v := if 10 ≤ cond.toNat ∧ cond.toNat ≤ 13 then psetP cond (c.x.rp (a.setWidth 3)) (c.x.rp (b.setWidth 3))
      else psetG cond (c.g a) (c.g b)
    .done (c.upd s (·.setP d v)) true

/-- TRIG: the station counts toward the trigger with the accesses outstanding now; a later TRIG adds nothing (R240, R317). -/
def execTrig (h : Hdr) (s : State) : Res :=
  issueWord (.trig h) h s fun c s =>
    .done (if c.x.trig.isSome then s
      else c.upd s fun x => { x with trig := some (s.outstanding c.id c.st 0x7F) }) true

/-- EXIT: the station issues no later word; its mode 01 signal waits until every slot is IDLE (R318). -/
def execExit (h : Hdr) (s : State) : Res :=
  issueWord (.exit h) h s fun c s =>
    let out := s.outstanding c.id c.st 0x7F
    let s1 := c.upd s fun x => { x with
      exiting := true
      exitSig := if h.sigMode = 1 then some ⟨c.id, c.st, h.sigMode, h.sigK⟩ else none
      trig := if x.trig.isSome then x.trig else some out }
    let s2 := if c.isHead then s1.updFz c.id fun f => { f with stop := if f.stop = .no then .exit else f.stop } else s1
    .done (settleExit s2 c.id) false

/-- WAITE: its threshold is met and, under SUB, consumed before it issues (R319). -/
def execWaite (h : Hdr) (g : Reg) (sub : Bool) (k : BitVec 6) (s : State) : Res :=
  issueWord (.waite h g sub k) h s fun _ s => .done s true

/-- SIGE: e[K] is added to, or set, after the word's own mode 11 signal (R320). -/
def execSige (h : Hdr) (g : Reg) (set : Bool) (k : BitVec 6) (s : State) : Res :=
  issueWord (.sige h g set k) h s fun c s =>
    let v : Word := (c.g g).setWidth 32
    .done (s.updCounter c.id c.st k fun e => if set then v else e + v) true

end Sys2Proof.Machine
end

