-- ==== Sys2Proof/Machine/Streams.lean ====
section
/-! DEFINITION. The stream instructions of groups 0x5 to 0x7 and the performing of their elements (R172–R200, R215–R224). -/

namespace Sys2Proof.Machine

/-! ### Elements (R177–R179, R220, R221) -/

/-- The number of elements as far as the end is known. -/
def Slot.limit (q : Slot) : Nat :=
  match q.stopAt with
  | none => q.shape.count
  | some n => min n q.shape.count

/-- The outcome of looking for an index. -/
inductive IdxRes where
  | val (k : Int)
  | unknown
  | ended
  | poison
deriving DecidableEq, Repr

/-- Indices in one beat. -/
def perBeat (i64 : Bool) : Nat := if i64 then 2 else 4

/-- Index word m of a beat, sign-extended (R220). -/
def idxOf (i64 : Bool) (d : Data) (m : Nat) : Int :=
  if i64 then (d.extractLsb' (64 * m) 64).toInt else (d.extractLsb' (32 * m) 32).toInt

/-- Index position j in the beats of the index port, the first of which holds position base (R220). -/
def indexAt (i64 : Bool) : List Beat → Nat → Nat → IdxRes
  | [], _, _ => .unknown
  | b :: rest, base, j =>
    if isBareEos b.kind b.r.data then .ended
    else if !isData b.kind then indexAt i64 rest base j
    else if b.r.poison then .poison
    else if j < base + perBeat i64 then .val (idxOf i64 b.r.data (j - base))
    else if b.kind = kindEos then .ended
    else indexAt i64 rest (base + perBeat i64) j

/-- What element n of a slot is (R179, R220, R221). -/
inductive ElemAt where
  | mem (a : Int)
  | pad
  | over
  | unknown
  | poison
deriving DecidableEq, Repr

/-- ORIGIN_3 of a slot's bounds; 0 without. -/
def Slot.origin3 (q : Slot) : Int := (q.bounds.map (·.origin 3)).getD 0

/-- Element n, given the beats of the index port. -/
def Slot.elem (q : Slot) (idx : List Beat) (n : Nat) : ElemAt :=
  if q.kind.indirect then
    match indexAt q.i64 idx q.idxBase (n / q.row) with
    | .unknown => .unknown
    | .ended => .over
    | .poison => .poison
    | .val k =>
      let a : Int := formAddr q.base + q.shape.index n 0 * q.shape.stride 0 + q.shape.index n 1 * q.shape.stride 1 +
        q.shape.index n 2 * q.shape.stride 2 + k * q.shape.stride 3
      match q.shape.classify q.bounds n (k + q.origin3) with
      | .inside => .mem a
      | _ => .pad
  else
    match q.shape.classify q.bounds n (q.shape.index n 3 + q.origin3) with
    | .inside => .mem (if q.kind = .cp then elementAddr q.base2 q.shape2 none n else elementAddr q.base q.shape q.bounds n)
    | .beyond => if q.kind = .win then .over else .pad
    | .outside => .pad

/-! ### Sector runs (R189, R190) -/

/-- What the next performed element from n on is. -/
inductive NextEl where
  | at (a : Int)
  | stop
  | unknown
deriving DecidableEq, Repr

/-- The next element from n on that will be performed, pads and clipped elements passed over. -/
def Slot.nextInside (q : Slot) (idx : List Beat) : Nat → Nat → NextEl
  | 0, _ => .stop
  | fuel + 1, n =>
    if q.limit ≤ n then .stop
    else match q.elem idx n with
      | .mem a => .at a
      | .pad => q.nextInside idx fuel (n + 1)
      | .over => .stop
      | _ => .unknown

/-- The sector of an exact address; the addresses below 0, where no element is performed, are a sector of their own. -/
def sectorOf (a : Int) : Nat := if a < 0 then 2 ^ 60 else a.toNat / 32

/-- An element performed: the run goes on, or the one before it ends and a new one begins. The increments it brings. -/
def Slot.perform (q : Slot) (a : Int) : Slot × Nat :=
  ({ q with sector := some (sectorOf a) },
   match q.sector with
   | some x => if x = sectorOf a then 0 else 1
   | none => 0)

/-- An open run whose last element is performed ends, once the walk of the stream's elements shows it (R190). Of a stream that
will end at a poisoned index beat the next element is never known, and the open run is not counted. (DESIGN CHOICE: log entry 86) -/
def Slot.closeRun (q walk : Slot) (idx : List Beat) : Slot × Nat :=
  match q.sector with
  | none => (q, 0)
  | some x =>
    match walk.nextInside idx (walk.limit - q.next) q.next with
    | .stop => ({ q with sector := none }, 1)
    | .at a => if sectorOf a = x then (q, 0) else ({ q with sector := none }, 1)
    | .unknown => (q, 0)

/-- The slot replaced, with increments of mode 10 added. -/
def State.putSlot (s : State) (id st k : Nat) (p : Slot × Nat) : State :=
  (s.updSlot id st k fun _ => p.1).sigSector id st p.1.sigMode p.1.sigK p.2

/-- A slot that is performed to its end: an open run ends with it, and the rest of a beat it has begun is discarded (R180). -/
def State.endSlot (s : State) (id st k : Nat) : State :=
  match s.station? id st with
  | none => s
  | some x =>
    let q := x.slot (BitVec.ofNat 4 k)
    let s1 := if q.kind.takes && q.taken != 0 then s.popOut (s.tileAt id st) q.outport else s
    (if q.sector.isSome then s1.sigSector id st q.sigMode q.sigK 1 else s1).completeSlot id st k

/-! ### Index beats (R194, R220) -/

/-- Index beats whose every index has its rows performed or discarded leave the index port; a beat that ends the sequence
fixes the end of the stream. A DRAIN or MARK right behind the last index beat the stream needs leaves with it.
(DESIGN CHOICE: log entry 111) -/
def popIdx (s : State) (id st k tile : Nat) : Nat → State
  | 0 => s
  | fuel + 1 =>
    match s.station? id st with
    | none => s
    | some x =>
      let q := x.slot (BitVec.ofNat 4 k)
      if !q.kind.indirect || q.state != .running then s
      else match (s.tile tile).outPort q.idxport with
        | [] => s
        | b :: _ =>
          let taken := q.next / q.row
          let done := decide (q.limit ≤ q.next)
          if isBareEos b.kind b.r.data then
            if q.shape.extent 3 ≤ q.idxBase then s
            else ((s.updSlot id st k fun q => { q with stopAt := some (min q.limit (q.idxBase * q.row)), idxBase := q.shape.extent 3, claims := false }).popOut
              tile q.idxport)
          else if !isData b.kind then popIdx (s.popOut tile q.idxport) id st k tile fuel
          else if b.r.poison then s
          else if q.shape.extent 3 ≤ q.idxBase then s
          else if q.idxBase + perBeat q.i64 ≤ taken ∨ (done ∧ q.idxBase < taken ∧ q.shape.extent 3 ≤ taken) then
            let s1 := (s.updSlot id st k fun q => { q with
              claims := false
              idxBase := if b.kind = kindEos then q.shape.extent 3 else q.idxBase + perBeat q.i64
              stopAt := if b.kind = kindEos then some (min q.limit ((q.idxBase + perBeat q.i64) * q.row)) else q.stopAt })
            popIdx (s1.popOut tile q.idxport) id st k tile fuel
          else s

/-! ### Reads (R180, R185, R198, R215) -/

/-- What stops the filling of a beat. -/
inductive FillEnd where
  | full
  | over
  | wait
  | fault (v : Viol)
deriving DecidableEq, Repr

/-- A beat being filled: its bytes, their poison, the addresses performed, and the next element. -/
structure Fill where
  bytes : List Byte
  bad : Bool
  mems : List Int
  next : Nat
  why : FillEnd
deriving DecidableEq, Repr

/-- The bytes of element n, which a stream reads at an address: those read ahead of its turn, or those memory holds now (R228). -/
def Slot.source (q : Slot) (s : State) (job fz tile : Nat) (form : Dword) (a : Int) (n : Nat) : Got :=
  match q.early.find n with
  | some e => .ok e.1 e.2
  | none => fetchElem s job fz q.viewNo tile q.view form a q.shape.size

/-- The elements of one beat from n on. -/
def fillBeat (s : State) (job fz tile : Nat) (q : Slot) (idx : List Beat) : Nat → Fill → Fill
  | 0, f => { f with why := .full }
  | fuel + 1, f =>
    if q.limit ≤ f.next then { f with why := .over }
    else match q.elem idx f.next with
      | .over => { f with why := .over }
      | .unknown => { f with why := .wait }
      | .poison => { f with why := .fault ⟨causePoison, false⟩ }
      | .pad => fillBeat s job fz tile q idx fuel
          { f with bytes := f.bytes ++ ((q.bounds.map (·.padBytes q.shape.size)).getD []), next := f.next + 1 }
      | .mem a =>
        match q.source s job fz tile q.base a f.next with
        | .ok bs bad => fillBeat s job fz tile q idx fuel
            { bytes := f.bytes ++ bs, bad := f.bad || bad, mems := f.mems ++ [a], next := f.next + 1, why := f.why }
        | .wait => { f with why := .wait }
        | .err e => { f with why := .fault e }

/-- Whether the element after a filled beat is known to be the end; none while it is not known. -/
def Slot.endsAt (q : Slot) (idx : List Beat) (n : Nat) : Option Bool :=
  if q.limit ≤ n then some true
  else match q.elem idx n with
    | .over => some true
    | .unknown => none
    | _ => some false

/-- The address form an element faults at. -/
def Slot.formOf (q : Slot) (idx : List Beat) (n : Nat) : Dword :=
  match q.elem idx n with
  | .mem a => formAt q.base a
  | _ => q.base

/-- The stations an SMC of a slot delivers to: those of the span that hold the slot for the same word (R218). -/
def joined (f : Frieze) (k lane : Nat) : List Nat :=
  (List.range f.len).filter fun st => match f.stations[st]? with
    | some x => decide ((x.slot (BitVec.ofNat 4 k)).state = .running ∧ (x.slot (BitVec.ofNat 4 k)).kind = .mc ∧
        (x.slot (BitVec.ofNat 4 k)).op = lane)
    | none => false

/-- One beat, with the runs it performs, delivered to a station's in-port. -/
def deliver (s : State) (id st k tile : Nat) (w : RawBeat) (f : Fill) : State :=
  match s.station? id st with
  | none => s
  | some x =>
    let q := x.slot (BitVec.ofNat 4 k)
    let p := f.mems.foldl (init := (q, 0)) fun p a => ((p.1.perform a).1, p.2 + (p.1.perform a).2)
    let s1 := s.deliverPort tile q.inport q.uid w
    s1.putSlot id st k ({ p.1 with
      next := f.next
      early := p.1.early.filter fun e => decide (f.next ≤ e.1)
      beats := q.beats + 1 }, p.2)

/-- The slot whose shape the elements of a slot's stream follow: the root's for an SMC's other stations (R218). -/
def State.walkOf (s : State) (id k : Nat) (q : Slot) : Option Slot :=
  if q.kind ≠ .mc then some q
  else match s.station? id q.root with
    | none => none
    | some x =>
      let r := x.slot (BitVec.ofNat 4 k)
      if r.state = .running ∧ r.kind = .mc ∧ r.op = q.op then some r else none

/-- A station's open run closed if it is known to be whole. A look at the indices of a beat makes the beat the slot's own, and none is
taken of a beat that is another's (R188). -/
def settleRun (s : State) (id st k tile : Nat) : State :=
  match s.station? id st with
  | none => s
  | some x =>
    let q := x.slot (BitVec.ofNat 4 k)
    if q.state ≠ .running then s
    else match s.walkOf id k q with
      | none => s
      | some r =>
      let p := q.closeRun r (if !q.kind.indirect || s.mayTake tile q.idxport (id, st, k) then (s.tile tile).outPort q.idxport else [])
      s.putSlot id st k ({ p.1 with claims := p.1.claims || (q.kind.indirect && p.2 != 0 && decide (q.next < q.limit)) }, p.2)

/-- A fault of a read: the root of an SMC takes it with every joined station ending as well (R218). -/
def readFault (s : State) (id st k : Nat) (sts : List Nat) (v : Viol) (form : Dword) : State :=
  sts.foldl (fun s t => if t = st then s else s.faultSlot id t k ⟨causeStreamFault, false⟩ 0) (s.faultSlot id st k v form)

/-- One beat of a read stream for the stations it goes to. Where the side bytes of a beat and its first element both fault, the side's
cause is taken, since a side fault ends the stream before that element (R198; DEDUCED: log entry 106). A station whose port is SPARSE
ends with STREAM_FAULT after a beat of bad metadata; the root's end takes every station with it (R85, R218). -/
def readBeat (s : State) (f : Frieze) (id st k : Nat) (q : Slot) (sts : List Nat) : State :=
  let tile := f.tileOf st
  let idx := (s.tile tile).outPort q.idxport
  let r := fillBeat s f.job id tile q idx (q.q / q.shape.size) ⟨[], false, [], q.next, .full⟩
  let ends := q.endsAt idx r.next
  let room := sts.all fun t =>
    let p := (s.tile (f.tileOf t)).inPort q.inport
    decide (0 < p.free) || (((f.stations[t]?).bind fun x => p.sent.find (x.slot (BitVec.ofNat 4 k)).uid)).isSome
  let fin (s : State) (sts : List Nat) : State := match r.why with
    | .fault v => readFault s id st k sts v (q.formOf idx r.next)
    | _ => if ends = some true then sts.foldl (fun s t => s.endSlot id t k) s else s
  let sideAt := formAddr q.base2 + q.sideBytes * q.beats
  let side : Got := if q.sideBytes = 0 then .ok [] false
    else fetchElem s f.job id q.viewNo tile q.view q.base2 sideAt q.sideBytes
  match r.why with
  | .wait => s
  | _ =>
    let faulted := match r.why with
      | .fault _ => true
      | _ => false
    if !faulted && q.eos && ends.isNone then s
    else if r.bytes.isEmpty then
      if !faulted && q.eos && q.next = 0 then
        if room then fin (sts.foldl (fun s t => s.enterPort (f.tileOf t) q.inport .bareEos) s) sts else s
      else match faulted, side with
        | true, .err v => readFault s id st k sts v (formAt q.base2 sideAt)
        | _, _ => fin s sts
    else if !room then s
    else
      match side with
      | .wait => s
      | .err v => readFault s id st k sts v (formAt q.base2 sideAt)
      | .ok sb sbad =>
        let w : RawBeat := { kind := if q.eos && !faulted && ends == some true then kindEos else kindData,
                             data := bvOf 128 r.bytes, side := bvOf 32 sb, poison := r.bad || sbad }
        let s1 := sts.foldl (fun s t => settleRun (popIdx (deliver s id t k (f.tileOf t) w r) id t k (f.tileOf t) 64) id t k
          (f.tileOf t)) s
        let sparse (t : Nat) : Bool := sbad && ((s.tile (f.tileOf t)).inPort q.inport).binding.sparse
        if sparse st then readFault s1 id st k sts ⟨causeStreamFault, false⟩ (q.formOf idx r.next)
        else fin ((sts.filter sparse).foldl (fun s t => s.faultSlot id t k ⟨causeStreamFault, false⟩ 0) s1) (sts.filter fun t => !sparse t)

/-! ### Writes, copies, fills and recurrence (R199, R215–R217, R224) -/

/-- The bytes of element n of a fill (R217). -/
def Slot.fillBytes (q : Slot) : List Byte :=
  let p := bytesOf q.val
  if q.shape.size ≤ 8 then p.take q.shape.size else p ++ p

/-- The slot past an element: taken bytes and, once its beat is used up or the stream needs no more of it, the beat popped. -/
def passElem (s : State) (id st k tile : Nat) (q : Slot) : State :=
  let n := q.next + 1
  let t := q.taken + q.shape.size
  if q.kind.takes && (decide (q.q ≤ t) || decide (q.limit ≤ n)) then
    (s.updSlot id st k fun q => { q with
      next := n
      taken := 0
      beats := q.beats + 1 }).popOut tile q.outport
  else s.updSlot id st k fun q => { q with
    next := n
    taken := if q.kind.takes then t else 0 }

/-- An element performed or discarded: the run, the index beats, and the end. -/
def afterElem (s : State) (id st k tile : Nat) (q : Slot) (a : Option Int) : State :=
  let s0 := match a with
    | some a => s.putSlot id st k (q.perform a)
    | none => s.updSlot id st k fun _ => q
  let s1 := settleRun (popIdx (passElem s0 id st k tile q) id st k tile 64) id st k tile
  match s1.station? id st with
  | none => s1
  | some x =>
    let q := x.slot (BitVec.ofNat 4 k)
    if q.state = .running ∧ q.limit ≤ q.next then s1.endSlot id st k else s1

/-- The update of an SSCATA OP code in the codes of R205 (R222). -/
def scataOp (op : Nat) : Nat := [2, 10, 6, 7, 8, 9, 4, 3][op]?.getD 2

/-- The bytes of an element written, or applied as an atomic update (R222). -/
def Slot.apply (q : Slot) (s : State) (job tile : Nat) (a : Int) (bs : List Byte) : PutRes :=
  if q.kind = .scata then
    match atomicAt s job tile q.base a bs.length (scataOp q.op) (bvOf 64 bs) 0 with
    | .ok r => .done r.1
    | .error e => .err e
  else storeElem s q.uid job tile q.view q.base a bs

/-- One element of a stream that takes its bytes from the head beat of its out-port (R199). -/
def takeElem (s : State) (f : Frieze) (id st k : Nat) (q : Slot) (b : Beat) : State :=
  let tile := f.tileOf st
  let idx := (s.tile tile).outPort q.idxport
  if b.r.poison then s.faultSlot id st k ⟨causePoison, false⟩ (q.formOf idx q.next)
  else if isBareEos b.kind b.r.data then
    let s1 := s.popOut tile q.outport
    if q.eos then (s1.updSlot id st k fun q => { q with stopAt := some q.next }).endSlot id st k else s1
  else if !isData b.kind then s.popOut tile q.outport
  else
    let q := if q.taken = 0 ∧ b.kind = kindEos ∧ q.eos then
        { q with stopAt := some (min q.limit (q.next + q.q / q.shape.size)) } else q
    match q.elem idx q.next with
    | .unknown => s
    | .over => (s.updSlot id st k fun _ => { q with stopAt := some q.next }).endSlot id st k
    | .poison => s.faultSlot id st k ⟨causePoison, false⟩ q.base
    | e =>
      let sa : Int := formAddr q.base2 + q.sideBytes * q.beats
      match (if q.taken = 0 ∧ q.sideBytes ≠ 0 then storeElem s q.uid f.job tile q.view q.base2 sa ((bytesOf b.r.side).take q.sideBytes)
          else .done s) with
      | .err v => s.faultSlot id st k v (formAt q.base2 sa)
      | .wait s1 => s1
      | .done s1 =>
        match e with
        | .mem a =>
          (match q.apply s1 f.job tile a (((bytesOf b.r.data).drop q.taken).take q.shape.size) with
          | .err v => (s1.updSlot id st k fun _ => q).faultSlot id st k v (formAt q.base a)
          | .wait s2 => s2
          | .done s2 => afterElem s2 id st k tile q (some a))
        | _ => afterElem s1 id st k tile q none

/-- One element of SFILL. -/
def fillElem (s : State) (f : Frieze) (id st k : Nat) (q : Slot) : State :=
  let tile := f.tileOf st
  let a := elementAddr q.base q.shape none q.next
  match storeElem s q.uid f.job tile q.view q.base a q.fillBytes with
  | .err v => s.faultSlot id st k v (formAt q.base a)
  | .wait s1 => s1
  | .done s1 => afterElem s1 id st k tile q (some a)

/-- The bytes a copy reads where an earlier element of it has written: before or after, byte by byte, as the 840 chooses
(R188). (DESIGN CHOICE: log entry 81) -/
def oldOrNew (snap : Tab Byte) : State → Nat → List Byte → List Byte × State
  | s, _, [] => ([], s)
  | s, a, b :: bs =>
    match snap.find a with
    | none => let r := oldOrNew snap s (a + 1) bs; (b :: r.1, r.2)
    | some old =>
      let p := s.takeBit
      let r := oldOrNew snap p.2 (a + 1) bs
      ((if p.1 then old else b) :: r.1, r.2)

/-- A key for a byte of a place: the memory and the address. -/
def placeKey (p : Place) : Nat :=
  match p.mem with
  | .tile t => 2 ^ 60 + t * 2 ^ 20 + p.addr
  | .sram => 2 ^ 59 + p.addr
  | .hbm => p.addr

/-- One element of SCP (R216). (DESIGN CHOICE: log entry 81) -/
def copyElem (s : State) (f : Frieze) (id st k : Nat) (q : Slot) : State :=
  let tile := f.tileOf st
  let a := elementAddr q.base q.shape none q.next
  let b := elementAddr q.base2 q.shape2 none q.next
  let z := q.shape.size
  match q.source s f.job id tile q.base a q.next with
  | .err v => s.faultSlot id st k v (formAt q.base a)
  | .wait => s
  | .ok bs bad =>
    let src := match elementCheck s f.job tile q.base a z .read with
      | .ok p => placeKey p
      | .error _ => 0
    let r := oldOrNew q.snap s src bs
    if bad then s.faultSlot id st k ⟨causePoison, false⟩ (formAt q.base a)
    else match elementCheck r.2 f.job tile q.base2 b z .write with
      | .error v => s.faultSlot id st k v (formAt q.base2 b)
      | .ok p =>
        match storeElem r.2 q.uid f.job tile q.view q.base2 b r.1 with
        | .err v => s.faultSlot id st k v (formAt q.base2 b)
        | .wait s1 => s1
        | .done s1 =>
          let before := match fetchElem s f.job id q.viewNo tile q.view q.base2 b z with
            | .ok old _ => old
            | _ => []
          let snap := (before.zipIdx).foldl (init := q.snap) fun m (o, j) =>
            if (m.find (placeKey p + j)).isSome then m else m.put (placeKey p + j) o
          afterElem s1 id st k tile { q with
            snap := snap
            early := q.early.del q.next } (some b)

/-- One beat of SREC (R224). -/
def recurBeat (s : State) (f : Frieze) (id st k : Nat) (q : Slot) : State :=
  let tile := f.tileOf st
  match (s.tile tile).outPort q.outport with
  | [] => s
  | b :: _ =>
    if !isData b.kind then s.popOut tile q.outport
    else if ((s.tile tile).inPort q.inport).free = 0 then s
    else
      let last := decide (q.limit ≤ q.next + 1)
      let kind := if q.eos then (if last then kindEos else kindData) else b.kind
      let s1 := (s.popOut tile q.outport).enterPort tile q.inport { b.raw with kind := kind }
      let s2 := s1.updSlot id st k fun q => { q with next := q.next + 1 }
      if last then s2.completeSlot id st k else s2

/-! ### STREAM_ELEMENT_PERFORMED -/

/-- Whether a running slot that stands before its next beat uses a port another frieze has come to own (R200). -/
def Slot.lostPort (q : Slot) (s : State) (t id : Nat) : Bool :=
  q.taken == 0 &&
  (  ((q.kind.reads || q.kind == .recur) && s.foreignPort t q.inport id) ||
  ((q.kind.takes || q.kind == .recur) && s.foreignPort t (32 + q.outport) id) ||
  (q.kind.indirect && s.foreignPort t (32 + q.idxport) id))

/-- Whether a joined station's slot gives the root credit: nothing holds it (R218, R235). -/
def Frieze.letsCast (f : Frieze) (k st : Nat) : Bool :=
  match f.stations[st]? with
  | some x => (x.slot (BitVec.ofNat 4 k)).waits.isEmpty
  | none => false

/-- Whether a station will not join an SMC any more: it has issued the word, or a trap at the word stands there or west of it
(R218, R393). -/
def Frieze.settledAt (f : Frieze) (lane t : Nat) : Bool :=
  decide (lane < f.posOf t) || (match f.trap with
    | some p => decide (p.at_ = lane) && decide (p.station ≤ t)
    | none => false)

/-- An SMC on one station: the root forms beats once every station has issued the word or is trapped at it; where the root has not
joined, the station completes as an empty stream (R218). -/
def castStep (s : State) (f : Frieze) (id st k : Nat) (q : Slot) : State :=
  if !(List.range f.len).all (f.settledAt q.op) || !decide (q.op < f.posOf q.root) then s
  else
    let sts := joined f k q.op
    if sts.contains q.root then
      if st = q.root then
        match sts.find? fun t => t != st && s.foreignPort (f.tileOf t) q.inport id with
        | some t => s.faultSlot id t k ⟨causeProtection, false⟩ 0
        | none => if sts.all (f.letsCast k) then readBeat s f id st k q sts else s
      else s
    else if q.stopAt.isSome then s
    else if !q.eos then s.completeSlot id st k
    else if 0 < ((s.tile (f.tileOf st)).inPort q.inport).free then
      (s.enterPort (f.tileOf st) q.inport .bareEos).completeSlot id st k
    else s

/-- What has become of the STG whose value an LDG may return. -/
inductive StgNow where
  /-- it is still to be performed, and could be now -/
  | value (v : Dword)
  | wait
  | gone
deriving DecidableEq, Repr

/-- The STG of a station whose value an LDG at an address may return: while it cannot be performed the LDG waits for it, and once it
is over the LDG reads memory (R203). -/
def pendingStg (s : State) (f : Frieze) (id st : Nat) (q : Slot) (a : Int) : StgNow :=
  match (s.station? id st).bind fun x => x.slots.toList.find? fun p => p.state == .running && p.kind == .stg && p.uid == q.cmp.toNat with
  | none => .gone
  | some p => match storeElem s p.uid f.job (f.tileOf st) p.view p.base a (bytesOf p.val) with
    | .done _ => .value p.val
    | _ => .wait

/-- One-element accesses LDG and STG (R202). -/
def scalarElem (s : State) (f : Frieze) (id st k : Nat) (q : Slot) : State :=
  let tile := f.tileOf st
  let a : Int := formAddr q.base + q.base2.toInt
  let form := formAt q.base a
  let fin (s : State) : State := (s.sigSector id st q.sigMode q.sigK 1).completeSlot id st k
  if q.kind = .stg then
    match storeElem s q.uid f.job tile q.view q.base a (bytesOf q.val) with
    | .err v => s.faultSlot id st k v form
    | .wait s1 => s1
    | .done s1 => fin s1
  else
    match fetchElem s f.job id q.viewNo tile q.view q.base a 8 with
    | .err v => s.faultSlot id st k v form
    | .wait => s
    | .ok bs bad =>
      match (if q.applied then pendingStg s f id st q a else .gone) with
      | .value v => fin (s.updSt id st (·.setG q.dst v))
      | .wait => s
      | .gone => if bad then s.faultSlot id st k ⟨causePoison, false⟩ form
      else fin (s.updSt id st (·.setG q.dst (bvOf 64 bs)))

/-- A slot that ends at a fault of no element: an SMC's root takes the other joined stations with it (R218). (DEDUCED: log entry 84) -/
def endAt (s : State) (f : Frieze) (id st k : Nat) (q : Slot) (cause : BitVec 8) : State :=
  readFault s id st k (if q.kind = .mc ∧ st = q.root then joined f k q.op else []) ⟨cause, false⟩ 0

/-- What the next element of a slot accesses: address form, exact address, size and kind. -/
def Slot.touches (q : Slot) (idx : List Beat) (st : Nat) : List (Dword × Int × Nat × Access) :=
  let z := q.shape.size
  let one (k : Access) : List (Dword × Int × Nat × Access) := if q.limit ≤ q.next then [] else match q.elem idx q.next with
    | .mem a => [(q.base, a, z, k)]
    | _ => []
  match q.kind with
  | .rd | .win | .gath => one .read
  | .mc => if st = q.root then one .read else []
  | .wr | .scat => one .write
  | .scata => one .atomic
  | .fill => [(q.base, elementAddr q.base q.shape none q.next, z, .write)]
  | .cp => [(q.base, elementAddr q.base q.shape none q.next, z, .read), (q.base2, elementAddr q.base2 q.shape2 none q.next, z, .write)]
  | .ldg => [(q.base, formAddr q.base + q.base2.toInt, 8, .read)]
  | .stg => [(q.base, formAddr q.base + q.base2.toInt, 8, .write)]
  | _ => []

/-- A running slot that nothing holds does its next part. -/
def slotStep (s : State) (f : Frieze) (id st k : Nat) (q : Slot) : State :=
  let t := f.tileOf st
  if q.lostPort s t id then endAt s f id st k q causeProtection
  else if (q.kind.indirect && !s.mayTake t q.idxport (id, st, k)) ||
      ((q.kind.takes || q.kind == .recur) && !s.mayTake t q.outport (id, st, k)) then s
  else
    let s := popIdx s id st k t 64
    let s := settleRun s id st k t
    match s.station? id st with
    | none => s
    | some x =>
      let q := x.slot (BitVec.ofNat 4 k)
      let g := s.enterNodes q.uid f.job t (q.touches ((s.tile t).outPort q.idxport) st)
      let s := g.2
      if !g.1 then s else
      match q.kind with
      | .rd | .win | .gath => readBeat s f id st k q [st]
      | .mc => castStep s f id st k q
      | .wr | .scat | .scata =>
        if q.limit ≤ q.next then s.endSlot id st k
        else match (s.tile t).outPort q.outport with
          | [] => s
          | b :: _ => takeElem s f id st k q b
      | .fill => fillElem s f id st k q
      | .cp => copyElem s f id st k q
      | .recur => recurBeat s f id st k q
      | .ldg | .stg => scalarElem s f id st k q
      | _ => s

/-- A scalar access that has issued and is not performed: it takes effect once no FENCE and no earlier access holds it.
(DESIGN CHOICE: log entry 79) -/
def pendStep (s : State) (f : Frieze) (id st j : Nat) : State :=
  match f.stations[st]? with
  | none => s
  | some x =>
    match x.pend[j]? with
    | none => s
    | some p =>
      let g := s.enterNodes p.uid f.job (f.tileOf st)
        [(p.form, (p.addr : Int), if p.quad then 32 else 8, if p.store then .write else .read)]
      if !p.waits.isEmpty then s
      else if !g.1 then g.2
      else
        let s := g.2
        let s1 := s.updSt id st fun x => { x with pend := x.pend.eraseIdx j }
        let r := scalarNow s1 f.job id st (f.tileOf st) p
        settleExit ((if r.2 then r.1.sigDone id st p.sigMode p.sigK else r.1).retire id p.uid) id

/-- The part of a slot that nothing holds, for the events of the slot: the elements of SSCATA and the updates of ATOMG and
RATOM belong to ATOMIC_APPLY, the increment of RSIG to REMOTE_RELEASE_ARRIVAL. -/
def runSlot (s : State) (fz st slot : Nat) (mine : SKind → Bool) (go : State → Frieze → Slot → State) : State :=
  match s.friezes.find fz with
  | none => s
  | some f =>
    match f.stations[st]? with
    | none => s
    | some x =>
      let q := x.slot (BitVec.ofNat 4 slot)
      if f.state = .resident ∧ f.draining = false ∧ slot < 16 ∧ mine q.kind ∧ q.state = .running ∧ q.waits.isEmpty ∧ q.frozen = false then go s f q
      else s

/-- The kinds whose elements STREAM_ELEMENT_PERFORMED performs. -/
def SKind.plain : SKind → Bool
  | .scata | .atomg | .ratom | .rsig => false
  | _ => true

/-- A stream has sent its requests up to a beat, which lies so many beats ahead: their entries are promised to it (R89, R185). -/
def InPort.promise (q : InPort) (u n : Nat) : InPort := { q with sent := q.sent.put u (max n ((q.sent.find u).getD 0)) }

/-- An element some places after the next one is read ahead: the requests up to its own leave, the entries of their beats in the
in-ports promised to them, and memory supplies its bytes before those of earlier elements (R177, R185, R228). The index beat it
belongs to is then the stream's own (R188). -/
def readAhead (s : State) (f : Frieze) (id st k : Nat) (q : Slot) (d : Nat) : State :=
  let tile := f.tileOf st
  let n := q.next + d
  let dsts : List Nat := if q.kind = .mc then
      (if st = q.root ∧ (List.range f.len).all (f.settledAt q.op) then joined f k q.op else []) else [st]
  let uid (t : Nat) : Nat := ((f.stations[t]?).map fun x => (x.slot (BitVec.ofNat 4 k)).uid).getD 0
  let beats := d * q.shape.size / q.q + 1
  let room := q.kind == .cp || (q.kind.reads && !dsts.isEmpty && dsts.all fun t =>
    let p := (s.tile (f.tileOf t)).inPort q.inport
    decide (beats ≤ p.free + (p.sent.find (uid t)).getD 0))
  if !room || (q.kind.indirect && !s.mayTake tile q.idxport (id, st, k)) || decide (q.limit ≤ n) || (q.early.find n).isSome then s
  else
    let at? : Option Int := if q.kind = .cp then some (elementAddr q.base q.shape none n)
      else match q.elem ((s.tile tile).outPort q.idxport) n with
        | .mem a => some a
        | _ => none
    match at?.map fun a => fetchElem s f.job id q.viewNo tile q.view q.base a q.shape.size with
    | some (.ok bs bad) =>
      let s1 := s.updSlot id st k fun q => { q with early := q.early.put n (bs, bad) }
      if q.kind = .cp then s1
      else dsts.foldl (fun s t => s.updPorts (f.tileOf t) fun x => x.setIn q.inport ((x.inPort q.inport).promise (uid t) beats)) s1
    | _ => s

/-- STREAM_ELEMENT_PERFORMED: the next part of a slot's stream takes effect, or of a scalar access that has issued and is not
performed (numbers from 16 on), or an element of a slot's stream is read ahead (numbers from 2^16 on: how many places, and the
slot). Nothing moves while the frieze is not resident, the slot is held or frozen. -/
def execStreamElementPerformed (fz st slot : Nat) (s : State) : Res :=
  .next (if 2 ^ 16 ≤ slot then
      runSlot s fz st (slot % 16) SKind.plain fun s f q => readAhead s f fz st (slot % 16) q (slot / 2 ^ 16)
    else if 16 ≤ slot then
      match s.friezes.find fz with
      | none => s
      | some f => if f.state = .resident then pendStep s f fz st (slot - 16) else s
    else runSlot s fz st slot SKind.plain fun s f q => slotStep s f fz st slot q)

/-- HOLD_TIMEOUT: a slot held by SBAR or FENCE for WAIT_LIMIT c-cycles becomes FAULTED (R235). An access held without a slot, a scalar one or
a request of class EN, waits without limit. (DESIGN CHOICE: log entry 117) -/
def execHoldTimeout (fz st slot : Nat) (s : State) : Res :=
  .next (match s.friezes.find fz, s.station? fz st with
    | some f, some x =>
      let q := x.slot (BitVec.ofNat 4 slot)
      if f.state ≠ .resident ∨ q.state ≠ .running ∨ q.barred.isEmpty ∨ 16 ≤ slot then s
      else
        let limit := ((s.job? f.job).map (·.waitLimit.toNat)).getD 0
        if q.hold + limit ≤ s.cycles.toNat then endAt s f fz st slot q causeWaitTimeout
        else s
    | _, _ => s)

/-! ### The stream words -/

/-- The in-port format's Q at issue (R180). -/
def portQ (s : State) (t p : Nat) : Nat := ((s.tile t).inPort p).binding.fmt.beatBytes

/-- Side bytes per beat of a SIDEW code (R197). -/
def sideOf (w : BitVec 2) : Nat := if w = 0 then 0 else if w = 1 then 1 else if w = 2 then 2 else 4

/-- Whether every element of a bounded affine write is clipped: in some dimension no index lies within its bounds (R179). -/
def Slot.allClipped (q : Slot) : Bool :=
  q.kind == .wr && match q.bounds with
    | none => false
    | some b => [(0 : Fin 4), 1, 2, 3].any fun d => decide (min (q.shape.extent d : Int) (b.limit d - b.origin d) ≤ max 0 (-b.origin d))

/-- A slot whose stream is complete at issue, its bytes still to be taken and discarded: it signals no more, and nothing waits for its
access (R190). (DEDUCED: log entry 91) -/
def Ctx.takeDone (c : Ctx) (s : State) (k : BitVec 4) (q : Slot) : State :=
  ((c.takeSlot s k q []).updSlot c.id c.st k.toNat fun q => { q with sigMode := 0 }).retire c.id s.serial

/-- The checks of R176 and R200 at issue, and the start of a stream. An empty stream meets the later rows of R200 before it
completes (DEDUCED: log entry 89); a write stream of which every element is clipped is complete at issue, and its slot goes on to take
and discard its bytes (DEDUCED: log entry 91). -/
def startStream (c : Ctx) (s : State) (o : StOps) (q : Slot) (second : Option Shape) (needSecond bounded : Bool)
    (limits : Bool) (ports : List Nat) (atIssue : Bool) : Eff :=
  let b := if bounded then second else none
  match shapeCheck q.shape b (if needSecond && !bounded then second else none) needSecond o.shape (q.q == 12) with
  | some e => .trap e 0
  | none =>
    if !limits then .trap causeIllegal 0
    else if ports.any fun p => s.foreignPort c.tile p c.id then .trap causeProtection 0
    else if atIssue && q.shape.count = 0 then .done s true
    else if ({ q with bounds := b } : Slot).allClipped then .done (c.takeDone s o.slot { q with bounds := b }) true
    else .done (c.takeSlot s o.slot { q with bounds := b } []) false

/-- The part of a slot every stream word fills alike. -/
def stSlot (c : Ctx) (o : StOps) (kind : SKind) (sidew : BitVec 2) : Slot :=
  { Slot.idle with
    kind := kind
    shape := c.x.rh o.shape
    base := c.g o.base
    base2 := c.g (o.base + 1)
    view := c.x.rv o.view
    viewNo := o.view
    sideBytes := sideOf sidew }

def execSrd (h : Hdr) (o : StOps) (i : BitVec 5) (eos bnd : Bool) (sidew : BitVec 2) (s : State) : Res :=
  issueWord (.srd h o i eos bnd sidew) h s fun c s =>
    startStream c s o { stSlot c o .rd sidew with
      inport := i.toNat
      q := portQ s c.tile i.toNat
      eos := eos } (c.x.nextShape o.shape) bnd bnd true [i.toNat] (!eos)

def execSwr (h : Hdr) (o : StOps) (p : BitVec 5) (endeos bnd : Bool) (sidew : BitVec 2) (p6 : Bool) (s : State) : Res :=
  issueWord (.swr h o p endeos bnd sidew p6) h s fun c s =>
    startStream c s o { stSlot c o .wr sidew with
      outport := p.toNat
      q := if p6 then 12 else 16
      eos := endeos } (c.x.nextShape o.shape) bnd bnd true [32 + p.toNat] true

def execScp (h : Hdr) (o : StOps) (dst : Reg) (s : State) : Res :=
  issueWord (.scp h o dst) h s fun c s =>
    let d := (c.x.nextShape o.shape).getD (Vector.replicate 4 0)
    let src := c.x.rh o.shape
    startStream c s o { stSlot c o .cp 0 with
      base2 := c.g dst
      shape2 := d } (c.x.nextShape o.shape) true false
      (decide (src.count = d.count) && decide (src.esize = d.esize)) [] true

def execSfill (h : Hdr) (o : StOps) (fill : Reg) (s : State) : Res :=
  issueWord (.sfill h o fill) h s fun c s =>
    startStream c s o { stSlot c o .fill 0 with val := c.g fill } none false false true [] true

def execSwin (h : Hdr) (o : StOps) (i : BitVec 5) (sidew : BitVec 2) (s : State) : Res :=
  issueWord (.swin h o i sidew) h s fun c s =>
    startStream c s o { stSlot c o .win sidew with
      inport := i.toNat
      q := portQ s c.tile i.toNat
      eos := true } (c.x.nextShape o.shape) true true true [i.toNat] false

/-- SMC: its slot carries the lane number of the word, by which the stations of the span know one another. A station other than the
root joins whatever N its own shape gives, since the root performs the elements (R190, R218). (DESIGN CHOICE: log entry 105) -/
def execSmc (h : Hdr) (o : StOps) (i : BitVec 5) (root : BitVec 4) (eos bnd : Bool) (sidew : BitVec 2) (s : State) : Res :=
  issueWord (.smc h o i root eos bnd sidew) h s fun c s =>
    startStream c s o { stSlot c o .mc sidew with
      inport := i.toNat
      q := portQ s c.tile i.toNat
      eos := eos
      root := root.toNat
      op := c.lane } (c.x.nextShape o.shape) bnd bnd (decide (root.toNat < c.f.len)) [i.toNat] (!eos && c.st == root.toNat)

def execSgath (h : Hdr) (o : StOps) (i idx : BitVec 5) (eos bnd : Bool) (sidew : BitVec 2) (i64 : Bool) (s : State) : Res :=
  issueWord (.sgath h o i idx eos bnd sidew i64) h s fun c s =>
    startStream c s o { stSlot c o .gath sidew with
      inport := i.toNat
      idxport := idx.toNat
      q := portQ s c.tile i.toNat
      eos := eos
      i64 := i64 } (c.x.nextShape o.shape) bnd bnd true [i.toNat, 32 + idx.toNat] (!eos)

def execSscat (h : Hdr) (o : StOps) (p idx : BitVec 5) (endeos bnd : Bool) (sidew : BitVec 2) (p6 i64 : Bool) (s : State) : Res :=
  issueWord (.sscat h o p idx endeos bnd sidew p6 i64) h s fun c s =>
    startStream c s o { stSlot c o .scat sidew with
      outport := p.toNat
      idxport := idx.toNat
      q := if p6 then 12 else 16
      eos := endeos
      i64 := i64 } (c.x.nextShape o.shape) bnd bnd true [32 + p.toNat, 32 + idx.toNat] true

def execSscata (h : Hdr) (o : StOps) (p idx : BitVec 5) (op : BitVec 3) (endeos bnd i64 : Bool) (s : State) : Res :=
  issueWord (.sscata h o p idx op endeos bnd i64) h s fun c s =>
    let z := (c.x.rh o.shape).size
    startStream c s o { stSlot c o .scata 0 with
      outport := p.toNat
      idxport := idx.toNat
      eos := endeos
      op := op.toNat
      i64 := i64 } (c.x.nextShape o.shape) bnd bnd (decide (z = 4) || (decide (z = 8) && op != 1))
      [32 + p.toNat, 32 + idx.toNat] true

/-- SREC: into a port whose beat holds 12 bytes it traps, by R176's row for S = 16 (DEDUCED: log entry 88); with N = 0 it delivers nothing, .EOS or not
(DEDUCED: log entry 90). -/
def execSrec (h : Hdr) (slot shape : BitVec 4) (i o : BitVec 5) (eos : Bool) (s : State) : Res :=
  issueWord (.srec h slot shape i o eos) h s fun c s =>
    let ops : StOps := ⟨slot, shape, 0, 0⟩
    startStream c s ops { Slot.idle with
      kind := .recur
      shape := c.x.rh shape
      inport := i.toNat
      outport := o.toNat
      q := portQ s c.tile i.toNat
      eos := eos } none false false (decide ((c.x.rh shape).esize = 4)) [i.toNat, 32 + o.toNat] true

end Sys2Proof.Machine
end

