-- ==== Sys2Proof/Machine/Ordering.lean ====
section
/-! DEFINITION. The ordering instructions of group 0x8, RATOM and RSIG, and the events that apply an atomic update and add a remote increment (R206, R207, R222, R236, R243–R251). -/

namespace Sys2Proof.Machine

/-- A hold added to the station, unless it waits for nothing. (DEDUCED: log entry 80) -/
def Ctx.addHold (c : Ctx) (s : State) (h : Hold) : State :=
  if h.preds.isEmpty then s else c.upd s fun x => { x with holds := x.holds ++ [h] }

/-- The access numbers of the RUNNING slots of a mask. -/
def Station.runningOf (x : Station) (mask : BitVec 16) : List Nat :=
  (List.range 16).filterMap fun k =>
    if mask.getLsbD k ∧ (x.slot (BitVec.ofNat 4 k)).state = .running then some (x.slot (BitVec.ofNat 4 k)).uid else none

/-- SBAR (R244). -/
def execSbar (h : Hdr) (mask : BitVec 16) (s : State) : Res :=
  issueWord (.sbar h mask) h s fun c s => .done (c.addHold s ⟨c.x.runningOf mask, 0, true, false, none⟩) true

/-- FENCE: complete at issue when no predecessor is outstanding (R245). -/
def execFence (h : Hdr) (pred succ : BitVec 7) (scope : BitVec 3) (s : State) : Res :=
  issueWord (.fence h pred succ scope) h s fun c s =>
    let ps := s.outstanding c.id c.st pred
    .done (c.addHold s ⟨ps, succ, false, false, if h.sigMode = 1 then some ⟨c.id, c.st, h.sigMode, h.sigK⟩ else none⟩) ps.isEmpty

/-- SWAITS issues once every slot of MASK is IDLE (R246). -/
def execSwaits (h : Hdr) (mask : BitVec 16) (s : State) : Res :=
  issueWord (.swaits h mask) h s fun _ s => .done s true

/-- The element before which a slot's stream ended, where it completed in the c-cycle before this one (R251). -/
def Station.justEnded (x : Station) (now : Nat) (slot : BitVec 4) : Option Nat :=
  match x.ended with
  | some (t, k, n) => if t + 1 = now ∧ k = slot.toNat then some n else none
  | none => none

/-- What SABORT of an IDLE slot answers: bit 63, or, for a stream that completes in its own c-cycle, N. Of a stream that
completed in the step before, the model cannot tell whether it was that c-cycle, and leaves it open (R247, R251).
(DESIGN CHOICE: log entry 83) -/
def abortIdle (s : State) (x : Station) (slot : BitVec 4) : Dword × State :=
  match x.justEnded s.cycles.toNat slot with
  | none => (0x8000000000000000, s)
  | some n => (if s.takeBit.1 then BitVec.ofNat 64 n else 0x8000000000000000, s.takeBit.2)

/-- The stream of an SMC's root is aborted: the other joined stations get no more beats, and hold their slots until they are
aborted or their frieze ends (R218, R247). (DESIGN CHOICE: log entry 84) -/
def abortCast (s : State) (f : Frieze) (id st k : Nat) (q : Slot) : State :=
  if q.kind = .mc ∧ st = q.root then
    (joined f k q.op).foldl (fun s t => (s.updSlot id t k fun q => { q with
      stopAt := some q.next
      sector := none }).unsend (f.tileOf t) (((f.stations[t]?).map fun x => (x.slot (BitVec.ofNat 4 k)).uid).toList)) s
  else s

/-- SABORT (R247). The model performs elements one by one, so that none is sent and undecided. -/
def execSabort (h : Hdr) (g : Reg) (slot : BitVec 4) (s : State) : Res :=
  issueWord (.sabort h g slot) h s fun c s =>
    let q := c.x.slot slot
    if q.state = .idle then .done (c.setG (abortIdle s c.x slot).2 g (abortIdle s c.x slot).1) true
    else if q.kind.whole then
      .done (c.upd s (·.setSlot slot { q with aborts := q.aborts ++ [(g, h.sigMode, h.sigK)] })) false
    else
      let s1 := c.upd (abortCast s c.f c.id c.st slot.toNat q) fun x => (x.setSlot slot Slot.idle).setG g (BitVec.ofNat 64 q.next)
      .done ((s1.retire c.id q.uid).unsend c.tile [q.uid]) true

/-! ### RATOM and RSIG -/

/-- RATOM (R249, R250). -/
def execRatom (h : Hdr) (a b e d : Reg) (op : BitVec 4) (size acq : Bool) (rel : BitVec 7) (s : State) : Res :=
  issueWord (.ratom h a b e d op size acq rel) h s fun c s =>
    let f := c.g b
    let z := if size then 8 else 4
    match atomCheck f z, c.x.freeSlot with
    | some v, _ => v.eff f
    | none, none => .done s false
    | none, some k =>
      let q := { oneSlot .ratom f 0 z View.zero with
        op := op.toNat
        wide := size
        val := c.g e
        cmp := c.g d
        dst := a
        acq := acq }
      let s1 := c.takeSlot s k q (s.outstanding c.id c.st rel)
      .done (if acq then c.addHold s1 ⟨[s.serial], 0x7F, false, true, none⟩ else s1) false

/-- TILE, MODULE and CTR of a signal address (R248). -/
def sigTile (w : Dword) : Nat := (w.extractLsb' 12 10).toNat
def sigModule (w : Dword) : Nat := (w.extractLsb' 22 10).toNat
def sigCtr (w : Dword) : Nat := (w.extractLsb' 0 4).toNat
/-- Whether the RSVD fields of a signal address are zero. -/
def sigPlain (w : Dword) : Bool := w.extractLsb' 32 32 == (0 : BitVec 32) && w.extractLsb' 4 8 == (0 : BitVec 8)

/-- Whether a tile lies in the partition of a job on this module. -/
def inPartition (s : State) (job t : Nat) : Bool :=
  match s.job? job with
  | none => false
  | some j => j.partition.any fun p => decide (p.1 ≤ t) && decide (t < p.1 + p.2)

/-- Whether a job may name a tile of a module: a tile of its partition there (R250). Another module's partition is that module's
state: whether the tile lies in it is a free value. (DESIGN CHOICE: log entry 92) -/
def nameable (s : State) (job m t : Nat) : Bool :=
  s.jobModule job m &&
    (if m = s.moduleId.toNat then inPartition s job t else Config.remoteTile job m t s.cycles.toNat)

/-- RSIG (R248, R250). -/
def execRsig (h : Hdr) (a b : Reg) (rel : BitVec 7) (s : State) : Res :=
  issueWord (.rsig h a b rel) h s fun c s =>
    let w := c.g a
    match c.x.freeSlot with
    | none => .done s false
    | some k =>
      if !sigPlain w then .trap causeBounds w
      else if !nameable s c.job (sigModule w) (sigTile w) then .viol causeProtection w
      else
        let q := { oneSlot .rsig w 0 8 View.zero with val := if b = 0 then 1 else c.g b }
        .done (c.takeSlot s k q (s.outstanding c.id c.st rel)) false

/-- The RSIG of a slot: its increment is added here, or handed to the module it names (R248, R250). -/
def releaseSlot (fz st slot : Nat) (s : State) : State :=
  runSlot s fz st slot (fun k => k == SKind.rsig) fun s _ q =>
    let amount : Word := q.val.setWidth 32
    if sigModule q.base = s.moduleId.toNat then
      (s.updCtr (sigTile q.base) (16 + sigCtr q.base) (· + amount)).completeSlot fz st slot
    else if s.reachable (sigModule q.base) then
      (s.emit (.rsig q.base amount)).completeSlot fz st slot
    else s.faultSlot fz st slot ⟨causeFabric, false⟩ q.base

/-- Writes of another module in this module's translation, and what goes on from there; the first that the translation refuses freezes the
traffic, and nothing goes on (R376). A versioned line takes no such write (R255). -/
def farWrites (src job : Nat) (k : State → State) : List (Nat × List Byte) → State → State
  | [], s => k s
  | (va, bs) :: rest, s =>
    match rangeOf s job 0 (mkForm spGlobal va) bs.length .write with
    | .error v => s.blockTraffic job src v (mkForm spGlobal va)
    | .ok ps => farWrites src job k rest (if ps.any fun p => p.1.ver.isSome then s else s.scatter ps bs)

/-- A release of another module: of a job that is here and whose traffic from there is not frozen, its writes take effect and then the release
(R236, R378, R391). (DEDUCED: log entry 109) -/
def farRelease (src job : Nat) (writes : List (Nat × List Byte)) (k : State → State) (s : State) : State :=
  if src = s.moduleId.toNat ∨ !s.jobModule job src ∨ ((s.job? job).map (·.blocked.contains src)).getD true then s
  else farWrites src job k writes s

/-- REMOTE_RELEASE_ARRIVAL: the increment of an RSIG is added, or the update of a RATOM applied, once everything it releases has taken
effect; one that names a tile outside the job's partition here, or bytes its translation refuses, freezes the traffic (R236, R248, R249,
R376). -/
def execRemoteReleaseArrival (r : Release) (a b : Nat) (s : State) : Res :=
  .next (match r with
    | .own fz => releaseSlot fz a b s
    | .signal ws target amount => farRelease a b ws (s := s) fun s =>
        if sigModule target ≠ s.moduleId.toNat ∨ !inPartition s b (sigTile target) then
          s.blockTraffic b a ⟨causeProtection, true⟩ target
        else s.updCtr (sigTile target) (16 + sigCtr target) (· + amount)
    | .update ws form op wide val cmp => farRelease a b ws (s := s) fun s =>
        match atomicAt s b 0 form (formAddr form) (if wide then 8 else 4) op val cmp with
        | .ok p => p.1
        | .error v => if v.cause = causeFabric ∨ v.cause = causePoison then s else s.blockTraffic b a v form)

/-! ### ATOMIC_APPLY (R206, R222, R249) -/

/-- Whether the bytes of a one-element access lie on another module. -/
def remotePlace (s : State) (job : Nat) (f : Dword) : Bool :=
  formSpace f == spGlobal && (match translate s job (formAddr f) .aperture with
    | .ok p => p.addr / 2 ^ 42 != s.moduleId.toNat
    | .error _ => false)

/-- The old value returned: the register written, the increment of mode 10, and the slot complete. -/
def atomReturn (s : State) (id st k : Nat) (q : Slot) (old : Dword) : State :=
  ((s.updSt id st (·.setG q.dst old)).sigSector id st q.sigMode q.sigK 1).completeSlot id st k

/-- The update of ATOMG or RATOM. A RATOM applied on another module is reported by a second message (R250). -/
def atomStep (s : State) (f : Frieze) (id st k : Nat) (q : Slot) : State :=
  if q.applied then
    if remotePlace s f.job q.base && !(match translate s f.job (formAddr q.base) .aperture with
        | .ok p => s.placeUp p
        | .error _ => true) then s.faultSlot id st k ⟨causeFabric, false⟩ q.base
    else atomReturn s id st k q q.cmp
  else
    let z := if q.wide then 8 else 4
    let g := s.enterNodes q.uid f.job (f.tileOf st) [(q.base, (formAddr q.base : Int), z, .atomic)]
    if !g.1 then g.2 else
    let s := g.2
    match atomicAt s f.job (f.tileOf st) q.base (formAddr q.base) z q.op q.val q.cmp with
    | .error v => s.faultSlot id st k v q.base
    | .ok r =>
      if q.kind = .ratom ∧ remotePlace s f.job q.base then
        r.1.updSlot id st k fun q => { q with
          applied := true
          cmp := r.2 }
      else atomReturn r.1 id st k q r.2

def execAtomicApply (fz st slot : Nat) (s : State) : Res :=
  .next (runSlot s fz st slot (fun k => k == .atomg || k == .ratom || k == .scata) fun s f q =>
    if q.kind = .scata then slotStep s f fz st slot q else atomStep s f fz st slot q)

end Sys2Proof.Machine
end

