-- ==== Sys2Proof/Machine/Fabric.lean ====
section
/-! DEFINITION. The fabric: routes, multicast groups, owner ranges, and forwarding with RETRY (R354–R364). -/

namespace Sys2Proof.Machine

/-! ### Paths and lane groups (R354, R358) -/

/-- The tiles along a row or column from x to y. -/
def towards (x y : Nat) : Nat → List Nat
  | 0 => []
  | n + 1 => if x = y then [] else
    let z := if x < y then x + 1 else x - 1
    z :: towards z y n

/-- The mesh links of a path inside the package, each as 1024·from + to: first along x, then along y (R354). -/
def meshPath (a b : Nat) : List Nat :=
  let xs := (towards (a % 32) (b % 32) 32).map fun x => 32 * (a / 32) + x
  let ys := (towards (a / 32) (b / 32) 32).map fun y => 32 * y + b % 32
  let nodes := a :: xs ++ ys
  (nodes.zip nodes.tail).map (fun (p, q) => 1024 * p + q)

/-- One torus hop of a path: its direction, the module it reaches, and whether it is then on VC1 (R354). -/
structure Hop where
  dir : Nat
  module : Nat
  vc1 : Bool
deriving DecidableEq, Repr

/-- The coordinates along a ring of n positions from x in steps of one direction, each with whether the dateline, the link between
n − 1 and 0, has been crossed. -/
def ringSteps (n : Nat) (up : Bool) : Nat → Nat → Bool → List (Nat × Bool)
  | 0, _, _ => []
  | k + 1, x, crossed =>
    let y := if up then (x + 1) % n else (x + n - 1) % n
    let c := crossed || decide (x = if up then n - 1 else 0)
    (y, c) :: ringSteps n up k y c

/-- The steps along one dimension: the shorter way around, the + direction where both are equal (R354). -/
def ringPath (n x y : Nat) : List (Nat × Bool) × Bool :=
  match ringDir n x y with
  | none => ([], true)
  | some up => (ringSteps n up (if up then (y + n - x) % n else (x + n - y) % n) x false, up)

/-- The torus hops from a module to another: dimension A, then B, then C (R354). -/
def torusPath (size : Nat × Nat × Nat) (src dst : Nat) : List Hop :=
  let h := coords src
  let t := coords dst
  let a := ringPath size.1 h.1 t.1
  let b := ringPath size.2.1 h.2.1 t.2.1
  let c := ringPath size.2.2 h.2.2 t.2.2
  a.1.map (fun (x, v) => ⟨if a.2 then 1 else 0, x + 16 * h.2.1 + 128 * h.2.2, v⟩) ++
  b.1.map (fun (y, v) => ⟨if b.2 then 3 else 2, t.1 + 16 * y + 128 * h.2.2, v⟩) ++
  c.1.map (fun (z, v) => ⟨if c.2 then 5 else 4, t.1 + 16 * t.2.1 + 128 * z, v⟩)

/-- The in-ports of a job's multicast group: tile and port (R360). -/
def groupMembers (s : State) (job g : Nat) : List (Nat × Nat) :=
  s.tiles.flatMap fun (t, x) => x.member.filterMap fun (p, m) =>
    if m.1 = g ∧ ((s.friezes.find m.2).map (·.job)) = some job then some (t, p) else none

/-- The in-ports of this module a route serves. -/
def Route.dests (s : State) (r : Route) (job : Nat) : List (Nat × Nat) :=
  if r.mc then groupMembers s job r.port
  else if r.module = s.moduleId.toNat then [(r.tile, r.port)] else []

/-- The tile at which the mesh reaches a UALink port: on the die that carries the port (R350, R354). (DESIGN CHOICE: log entry 97) -/
def portNode (p : Nat) : Nat :=
  let die := [0, 0, 2, 2, 1, 1, 3, 3, 0, 0, 1, 1, 2, 2, 3, 3, 0, 1, 2, 3, 0, 1, 2, 3][p]?.getD 0
  let v := Config.portTile p % 256
  32 * (16 * (die / 2) + v / 16) + 16 * (die % 2) + v % 16

/-- The mesh links a route binds on this module: those of the paths to its in-ports, or to the port it leaves by (R354, R358). -/
def routeLinks (s : State) (src : Nat) (r : Route) : List Nat :=
  ((r.dests s r.job).flatMap (fun d => meshPath (src / 32) d.1) ++
    r.ports.flatMap fun p => meshPath (src / 32) (portNode p)).dedup

/-- Whether every link of a route has a free lane group: 16 on a mesh link, 8 in a torus direction (R358). -/
def linksFree (s : State) (src : Nat) (r : Route) : Bool :=
  (routeLinks s src r).all (fun l =>
    decide ((s.routes.filter fun (k, q) => (routeLinks s k q).contains l).length < 16)) &&
  r.ports.all (fun p => decide ((s.routes.filter fun (_, q) => q.ports.any fun o => o / 4 = p / 4).length < 8))

/-- The route a target word names, from a station's tile (R359). -/
def routeOf (s : State) (fz st job tile : Nat) (w : Dword) (mc : Bool) : Route :=
  let m := if mc then s.moduleId.toNat else (w.extractLsb' 22 10).toNat
  { fz := fz, st := st, module := m, tile := (w.extractLsb' 12 10).toNat,
    port := if mc then (w.extractLsb' 0 8).toNat else (w.extractLsb' 0 5).toNat, mc := mc, target := w,
    ports := (match s.firstDir m with
      | none => []
      | some d => (s.portFor d tile).toList)
    sent := []
    job := job
    host := false }

/-- Whether a route of another module may serve an in-port here: the tile is in the partition of a job whose module set names another
module, and no route of this module serves the port. -/
def farFed (s : State) (tile port : Nat) : Bool :=
  s.torus != (1, 1, 1) && s.jobs.any (fun (j, x) => inPartition s j tile &&
    (List.range 1024).any fun m => m != s.moduleId.toNat && s.inGrid m && inBox x.mbox m) &&
  !s.routes.any fun (_, r) => (r.dests s r.job).contains (tile, port)

/-- The status of binding a route, and the state after it (R359). What is not known here is the 840's own answer: of a route to another
module, whether its in-port has a route and whether the links beyond have a free lane group; of an in-port here, whether a route of
another module serves it. (DEDUCED: log entry 77) -/
def bindRoute (s : State) (src : Nat) (r : Route) : Nat × State :=
  let job := r.job
  let taken (d : Nat × Nat) : Bool := s.routes.any fun (_, q) => (q.dests s q.job).contains d
  let away := r.module != s.moduleId.toNat
  if (s.routes.find src).isSome then (4, s)
  else if r.mc && (groupMembers s job r.port).isEmpty then (3, s)
  else if (r.dests s job).any taken || (away && s.routes.any fun (_, q) =>
      q.module == r.module && q.tile == r.tile && q.port == r.port && !q.mc) then (2, s)
  else if !linksFree s src r || (away && r.ports.isEmpty) then (1, s)
  else
    let b := if away then (let c := s.takeFree; (c.1 % 3, c.2))
      else if (r.dests s job).any fun d => farFed s d.1 d.2 then (let c := s.takeBit; (if c.1 then 2 else 0, c.2))
      else (0, s)
    (b.1, if b.1 = 0 then { b.2 with routes := b.2.routes.put src r } else b.2)

/-! ### The words -/

/-- The RSVD fields of a target word (R359). -/
def targetPlain (w : Dword) (mc : Bool) : Bool :=
  w.extractLsb' 32 32 == (0 : BitVec 32) && w.extractLsb' 8 4 == (0 : BitVec 4) &&
    (if mc then w.extractLsb' 12 20 == (0 : BitVec 20) else w.extractLsb' 5 3 == (0 : BitVec 3))

/-- The routes the host has installed for a job on the tiles of a span, bound as a kernel of the job starts there; one that cannot be
bound now waits for the next (R358). (DEDUCED: log entry 85) -/
def bindHostRoutes (s : State) (job head l : Nat) : State :=
  match s.job? job with
  | none => s
  | some j => j.hostRoutes.foldl (init := s) fun s (k, (w, mc)) =>
      if head ≤ k / 32 ∧ k / 32 < head + l ∧ (s.routes.find k).isNone then
        (bindRoute s k { routeOf s 0 0 job (k / 32) w mc with host := true }).2
      else s

/-- Whether a route on an out-port belongs to another frieze, or to the host. -/
def foreignRoute (s : State) (src id : Nat) : Bool :=
  match s.routes.find src with
  | none => false
  | some r => !r.isOf id

def execRoute (h : Hdr) (a : Reg) (o : BitVec 5) (b : Reg) (mc : Bool) (s : State) : Res :=
  issueWord (.route h a o b mc) h s fun c s =>
    let w := c.g b
    let r := routeOf s c.id c.st c.job c.tile w mc
    if !targetPlain w mc then .trap causeBounds w
    else if !mc && !nameable s c.job r.module r.tile then .viol causeProtection w
    else if s.foreignPort c.tile (32 + o.toNat) c.id || foreignRoute s (32 * c.tile + o.toNat) c.id then .trap causeProtection w
    else .done (c.request s (.route o.toNat w mc) (some a)) false

def respondRoute (s : State) (k : Nat) (r : Req) (o : Nat) (w : Dword) (mc : Bool) : State :=
  let p := bindRoute s (32 * r.tile + o) (routeOf s r.fz r.st r.job r.tile w mc)
  p.2.finishReq k ⟨r.dst.map fun d => (d, BitVec.ofNat 64 p.1), none⟩

/-- Whether the station has a ROUTE of an out-port that is not yet answered. -/
def Ctx.routing (c : Ctx) (s : State) (o : Nat) : Bool :=
  s.reqs.any fun (_, r) => r.fz == c.id && r.st == c.st && r.res.isNone &&
    (match r.kind with
      | .route p _ _ => p == o
      | _ => false)

/-- UNROUTE at issue: with no route on the out-port, and none asked for, it is complete (R361). -/
def execUnroute (h : Hdr) (o : BitVec 5) (s : State) : Res :=
  issueWord (.unroute h o) h s fun c s =>
    let src := 32 * c.tile + o.toNat
    if foreignRoute s src c.id || s.foreignPort c.tile (32 + o.toNat) c.id then .trap causeProtection 0
    else if (s.routes.find src).isNone && !c.routing s o.toNat then .done s true
    else .done (c.request s (.unroute o.toNat none) none) false

/-- UNROUTE takes effect: the route sends no more, in request order (R237). It completes once every beat the route sent stands in its
destination; of another module's in-port a free bit says it (R359). (DEDUCED: log entry 77) -/
def respondUnroute (s : State) (k : Nat) (r : Req) (o : Nat) (sent : Option (List (Nat × Nat) × Bool)) : State :=
  match sent with
  | none =>
    (match s.routes.find (32 * r.tile + o) with
      | none => s.finishReq k ⟨none, none⟩
      | some q =>
        { s with
          routes := s.routes.del (32 * r.tile + o)
          reqs := s.reqs.put k { r with kind := .unroute o (some (q.sent, !q.mc && q.module != s.moduleId.toNat)) } })
  | some (ds, away) =>
    if ds.all fun d => ((s.tile d.1).inPort d.2).flight.isEmpty then
      let b := if away then s.takeBit else (true, s)
      if b.1 then b.2.finishReq k ⟨none, none⟩ else b.2
    else s

/-- MCJOIN and MCJOIN.LEAVE at issue (R360, R361). -/
def mcjoinWord (i : Instr) (h : Hdr) (a : Reg) (p : BitVec 5) (b : Reg) (leave : Bool) (s : State) : Res :=
  issueWord i h s fun c s =>
    let w := c.g b
    if w.extractLsb' 8 56 ≠ (0 : BitVec 56) then .trap causeBounds w
    else if s.foreignPort c.tile p.toNat c.id then .trap causeProtection w
    else .done (c.request s (.mcjoin p.toNat (w.toNat % 256) leave) (some a)) false

def execMcjoin (h : Hdr) (a : Reg) (i : BitVec 5) (b : Reg) (s : State) : Res := mcjoinWord (.mcjoin h a i b) h a i b false s
def execMcjoinLeave (h : Hdr) (a : Reg) (i : BitVec 5) (b : Reg) (s : State) : Res :=
  mcjoinWord (.mcjoinLeave h a i b) h a i b true s

/-- An in-port of a frieze's tile joins a multicast group: the status, and the state after it (R359, R360). -/
def joinGroup (s : State) (job tile i g fz : Nat) : Nat × State :=
  if ((s.tile tile).member.find i).isSome then (2, s)
  else if 64 ≤ (groupMembers s job g).length then (1, s)
  else (0, s.updTile tile fun x => { x with member := x.member.put i (g, fz) })

def respondMcjoin (s : State) (k : Nat) (r : Req) (i g : Nat) (leave : Bool) : State :=
  let now := (s.tile r.tile).member.find i
  let p : Nat × State :=
    if leave then
      (match now with
        | some m => if m.1 = g then (0, s.updTile r.tile fun x => { x with member := x.member.del i }) else (3, s)
        | none => (3, s))
    else joinGroup s r.job r.tile i g r.fz
  p.2.finishReq k ⟨r.dst.map fun d => (d, BitVec.ofNat 64 p.1), none⟩

/-! ### Owner ranges (R363, R364) -/

/-- The place of a range and what is wrong with it. -/
def ownerPlace (s : State) (job : Nat) (base len : Dword) : Except Viol (Bool × Nat) :=
  let a := formAddr base
  let n := len.toNat
  match formCheck base with
  | some v => .error v
  | none =>
    if formSpace base = spShared then
      match s.job? job with
      | none => .error ⟨causeBounds, true⟩
      | some j => if j.banks.length * 2 ^ 20 < a + n then .error ⟨causeBounds, true⟩ else .ok (true, a)
    else
      match translatePage s job a .aperture with
      | .error e => .error e
      | .ok (p, size) =>
        if size < a % size + n then .error ⟨causeBounds, false⟩
        else if !s.jobModule job (p.addr / 2 ^ 42) then .error ⟨causeProtection, true⟩
        else if p.ver.isSome then .error ⟨causeProtection, false⟩
        else .ok (false, p.addr)

/-- Whether two ranges overlap, by physical address. -/
def OwnerRange.meets (a b : OwnerRange) : Bool :=
  a.shared == b.shared &&
    (if a.shared then a.banks.any fun k => decide (max (a.rows k).1 (b.rows k).1 < min (a.rows k).2 (b.rows k).2)
    else decide (a.start < b.start + b.len) && decide (b.start < a.start + a.len))

/-- Whether two ranges hold the same bytes. -/
def OwnerRange.same (a b : OwnerRange) : Bool :=
  a.shared == b.shared && (if a.shared then (a.banks ++ b.banks).all fun k => a.rows k == b.rows k else a.start == b.start && a.len == b.len)

/-- The module whose table holds a range: this one for a SHARED range (R363). -/
def OwnerRange.module (s : State) (r : OwnerRange) : Nat := if r.shared then s.moduleId.toNat else r.start / 2 ^ 42

/-- Whether a range cannot enter the tables: it overlaps an unequal range of the job, or its module's table holds 64 of the job
(R363, R364). -/
def ownerFull (s : State) (job : Nat) (r : OwnerRange) : Bool :=
  let held := ((s.job? job).map (·.owners)).getD []
  let equal := held.any (·.same r)
  !equal && (held.any (·.meets r) || decide (64 ≤ (held.filter fun q => q.module s == r.module s).length))

def execOwncfg (h : Hdr) (a b e : Reg) (s : State) : Res :=
  issueWord (.owncfg h a b e) h s fun c s =>
    let base := c.g a
    let len := c.g b
    let o := c.g e
    let kind := (o.extractLsb' 10 2).toNat
    let node := (o.extractLsb' 0 9).toNat
    if o.extractLsb' 12 52 ≠ (0 : BitVec 52) ∨ o.getLsbD 9 ∨ kind = 3 ∨ (kind = 2 ∧ 16 ≤ node) then .trap causeIllegal base
    else if formSpace base = spLocal then .trap causeProtection base
    else if formAddr base % 128 ≠ 0 ∨ len.toNat % 128 ≠ 0 then .trap causeMisaligned base
    else if len.toNat < 128 ∨ 2 ^ 29 < len.toNat then .trap causeBounds base
    else match ownerPlace s c.job base len with
      | .error v => v.eff base
      | .ok (sh, start) =>
        let r : OwnerRange := ⟨sh, start, len.toNat, kind, node, formAddr base, if sh then ((s.job? c.job).map (·.banks)).getD [] else []⟩
        if ownerFull s c.job r then .trap causeProtection base
        else .done (c.request s (.owncfg r) none) false

def respondOwncfg (s : State) (k : Nat) (r : Req) (g : OwnerRange) : State :=
  if !g.shared && !s.reachable (g.start / 2 ^ 42) then s.failReq k ⟨causeFabric, false⟩ 0
  else if ownerFull s r.job g then s.failReq k ⟨causeProtection, false⟩ (mkForm (if g.shared then spShared else spGlobal) g.va)
  else
    let s1 := s.updJob r.job fun j =>
      let rest := j.owners.filter fun q => !q.same g
      { j with owners := if g.kind = 0 then rest else rest ++ [g] }
    s1.finishReq k ⟨none, none⟩

/-! ### Beats on a route (R358, R360) -/

/-- A route ends at the loss of a link of its path: its frieze has the fault with the out-port (R361). A route of the host is of no
frieze. -/
def endRoute (s : State) (k : Nat) (r : Route) : State :=
  let s1 := { s with routes := s.routes.del k }
  if r.host then s1 else s1.addFault r.fz r.st none causeFabric (BitVec.ofNat 64 (k % 32)) 0 0

/-- A link of some routes is lost: each route through the port ends (R361). -/
def loseRoutes (s : State) (port : Nat) : State :=
  (s.routes.filter fun (_, r) => r.ports.contains port).foldl (init := s) fun s (k, r) => endRoute s k r

/-- Whether a route sends: its frieze is not pre-empted, and the port it leaves by carries traffic (R351, R358, R362). -/
def Route.live (s : State) (r : Route) : Bool :=
  r.ports.all s.portLive && (r.host || (match s.friezes.find r.fz with
    | some f => (f.state = .resident ∨ f.state = .handled) ∧ f.draining = false
    | none => false))

/-- A beat of a route to another module, b at its out-port: it leaves where the in-port there has a free entry, which is not known here.
(DEDUCED: log entry 77) -/
def farBeat (s : State) (k : Nat) (r : Route) (b : Beat) : State :=
  let c := s.takeBit
  if c.1 then
    let s1 := c.2.popOut (k / 32) (k % 32)
    { s1 with out := s1.out ++ [.beat r.module r.tile r.port b.raw] }
  else c.2

/-- One beat of a route to in-ports of this module: it leaves once each has a free entry. -/
def nearBeat (s : State) (k : Nat) (r : Route) (b : Beat) : State :=
  let ds := r.dests s r.job
  if ds.isEmpty || ds.any (fun d => decide (((s.tile d.1).inPort d.2).free = 0)) then s
  else
    let s1 := s.popOut (k / 32) (k % 32)
    ds.foldl (init := { s1 with routes := s1.routes.put k { r with sent := (r.sent ++ ds).dedup } }) fun s d =>
      s.updPorts d.1 fun x =>
        let q := x.inPort d.2
        x.setIn d.2 { q with
          promised := q.promised + 1
          flight := q.flight ++ [b.raw] }

/-- The beat at an out-port on its route, if it may leave (R358, R362). -/
def routeBeat (s : State) (k : Nat) (r : Route) : State :=
  match (s.tile (k / 32)).outPort (k % 32) with
  | [] => s
  | b :: _ =>
    if !r.live s || (s.takerOf (k / 32) (k % 32)).isSome then s
    else if r.mc || r.module == s.moduleId.toNat then nearBeat s k r b
    else farBeat s k r b

/-- Whether the path of a route has torus links beyond this module's own ports. -/
def Route.further (s : State) (r : Route) : Bool :=
  !r.mc && decide (1 < (torusPath s.torus s.moduleId.toNat r.module).length)

/-- One beat leaves an out-port for every in-port its route serves, once each has a free entry (R358, R362). Of a path of several torus
links one of the further ones may be lost, which ends the route whether or not a beat stands at the port (R361): a free bit.
(DEDUCED: log entry 77) -/
def execRouteBeat (tile o : Nat) (s : State) : Res :=
  .next (match s.routes.find (32 * tile + o) with
    | none => s
    | some r =>
      if r.further s then
        let c := s.takeBit
        if c.1 then endRoute c.2 (32 * tile + o) r else routeBeat c.2 (32 * tile + o) r
      else routeBeat s (32 * tile + o) r)

/-- One saved route or membership bound again: its status, and the state after it (R362). -/
def rebindOne (s : State) (id : Nat) (f : Frieze) (k : Nat) (w : Dword) (mc : Bool) : Nat × State :=
  if k < 512 then
    let tile := f.tileOf (k / 32)
    bindRoute s (32 * tile + k % 32) (routeOf s id (k / 32) f.job tile w mc)
  else joinGroup s f.job (f.tileOf ((k - 512) / 32)) (k % 32) w.toNat id

/-- The saved routes and memberships of a resumed frieze bound again, those that can be (R362). -/
def rebindRoutes (s : State) (id : Nat) : State :=
  match s.friezes.find id with
  | none => s
  | some f => f.rebind.foldl (init := s) fun s (k, (w, mc)) =>
      let p := rebindOne s id f k w mc
      if p.1 = 0 then p.2.updFz id fun f => { f with rebind := f.rebind.del k } else p.2

/-- ROUTE_REBIND_TIMEOUT: a route or membership is not bound again in time; the station it belongs to traps (R362, R393). -/
def execRouteRebindTimeout (fz : Nat) (s : State) : Res :=
  .next (match s.friezes.find fz with
    | none => s
    | some f =>
      let limit := ((s.job? f.job).map (·.waitLimit.toNat)).getD 0
      if f.state ≠ .resident ∨ f.rebind = [] ∨ s.cycles.toNat < f.resumeAt + limit then s
      else f.rebind.foldl (fun s (k, _) => s.raise fz (k % 512 / 32) causeFabric none 0 0 0) (s.updFz fz fun f => { f with rebind := [] }))

/-! ### Forwarding targets (R356, R357) -/

/-- RETRY: a request that needs forwarding reaches the slot of a target, by four times its number and its class. A free slot is the
source's; otherwise it is answered RETRY. -/
def execRetry (node src : Nat) (s : State) : Res :=
  .next (let n := (s.nodes.find node).getD FwdNode.free
    match n.taken with
    | none => s.putNode node { n with
        taken := some src
        granted := some s.cycles.toNat }
    | some x => if x = src then s else s.putNode node (n.retry src s.cycles.toNat))

/-- Whether a slot waits for the re-send it was granted to. -/
def FwdNode.awaits (n : FwdNode) (s : State) : Bool :=
  n.granted.isSome && (match n.taken with
    | some u => s.underWay u
    | none => false)

/-- FORWARDING_SLOT_FREE: the response of the forwarded request arrives; the slot goes to the re-send of the oldest source listed.
A source whose access has ended re-sends nothing. -/
def execForwardingSlotFree (node : Nat) (s : State) : Res :=
  .next (match s.nodes.find node with
    | none => s
    | some n =>
      if n.awaits s then s
      else
        let l := n.listed.filter fun p => s.underWay p.1
        let m : FwdNode := { taken := (l.head?).map (·.1), granted := (l.head?).map (·.2 + 16), listed := l.tail,
                             refused := n.refused.filter fun p => s.underWay p.1 }
        if m = FwdNode.free then { s with nodes := s.nodes.del node } else s.putNode node m)

/-! ### Beats of other modules' routes (R358, R360) -/

/-- A beat of a route of another module: data or the last of a stream, or a marker of R22 that an out-port can hold (a DRAIN, a MARK, a bare
EOS); what it holds is free. A SWEEP is no beat of an out-port. (DEDUCED: log entry 77) -/
def freeBeat (s : State) : RawBeat × State :=
  let k := s.takeFree
  let d := k.2.takeFree
  let e := d.2.takeFree
  let p := e.2.takeBit
  (match k.1 % 5 with
    | 0 => ⟨kindData, BitVec.ofNat 128 d.1, BitVec.ofNat 32 e.1, p.1⟩
    | 1 => ⟨kindEos, BitVec.ofNat 128 d.1, BitVec.ofNat 32 e.1, p.1⟩
    | 2 => .ctrl mkDrain 0
    | 3 => .ctrl mkMark (BitVec.ofNat 32 d.1)
    | _ => .bareEos, p.2)

/-- INPORT_BEAT_ARRIVAL: the oldest beat on its way stands in the port, in the entry promised to it. Where none is on its way and a route
of another module may serve the port, a beat of that route may arrive in a free entry: what it holds is free. (DEDUCED: log entry 77) -/
def execInportBeatArrival (tile port : Nat) (s : State) : Res :=
  .next (match ((s.tile tile).inPort port).flight with
    | w :: rest =>
      s.updPorts tile fun x =>
        let q := x.inPort port
        x.setIn port (({ q with flight := rest, promised := q.promised - 1 }).enter port w)
    | [] =>
      if 32 ≤ port ∨ !farFed s tile port ∨ ((s.tile tile).inPort port).free = 0 then s
      else
        let c := s.takeBit
        if !c.1 then c.2
        else
          let w := freeBeat c.2
          w.2.enterPort tile port w.1)

end Sys2Proof.Machine
end

