-- ==== Sys2Proof/Machine/Routing.lean ====
section
/-! DEFINITION. Group 0xB: the expert routing engines, their configuration, dispatch, combine and results (R277–R296). -/

namespace Sys2Proof.Machine

/-! ### The engines' accesses -/

/-- What ends an engine's access: the cause, and the address form of the access (R379). -/
abbrev EngErr := Viol × Dword

/-- The address form of an access at an offset from a base. -/
def formOff (form : Dword) (off : Nat) : Dword := form + BitVec.ofNat 64 off

/-- n bytes read by an engine at an offset from an address form: the bytes and whether they carry an error (R294).
(DEDUCED: log entry 21) -/
def engRead (s : State) (job tile : Nat) (form : Dword) (off n : Nat) : Except EngErr (List Byte × Bool) :=
  match rangeCheck s job tile form (formAddr form + off) .read n (n / 128 + 2) with
  | .error e => .error (e, formOff form off)
  | .ok ps => if ps.any (fun p => !s.placeUp p.1) then .error (⟨causeFabric, false⟩, formOff form off) else .ok (s.gather ps, s.anyBad ps)

/-- Bytes written by an engine; a versioned page refuses (R207, R294). -/
def engWrite (s : State) (job tile : Nat) (form : Dword) (off : Nat) (bs : List Byte) : Except EngErr State :=
  match rangeCheck s job tile form (formAddr form + off) .write bs.length (bs.length / 128 + 2) with
  | .error e => .error (e, formOff form off)
  | .ok ps =>
    if ps.any (fun p => p.1.ver.isSome) then .error (⟨causeProtection, false⟩, formOff form off)
    else if ps.any (fun p => !s.placeUp p.1) then .error (⟨causeFabric, false⟩, formOff form off)
    else .ok (s.scatter ps bs)

/-- A doubleword read by an engine. -/
def engRead64 (s : State) (job tile : Nat) (form : Dword) (off : Nat) : Except EngErr (Dword × Bool) :=
  match engRead s job tile form off 8 with
  | .error e => .error e
  | .ok (bs, bad) => .ok (bvOf 64 bs, bad)

/-- The master descriptor of an engine (R377). -/
def engineMaster (s : State) (job die : Nat) : Dword :=
  (2 : BitVec 4) ++ BitVec.ofNat 8 job ++ s.moduleId ++ (0 : BitVec 26) ++ BitVec.ofNat 16 die

/-- A violation by an engine's own access freezes the engine and not the frieze (R376, R378). -/
def State.freezeEngine (s : State) (job die : Nat) (v : Viol) (addr : Dword) : State :=
  if !v.freeze || (s.engine die).frozen then s
  else (s.updEngine die fun g => { g with
    frozen := true
    job := job }).mqRecord job 0x01 v.cause (engineMaster s job die) addr

/-- A request of the engine ends with a fault (R294). -/
def endEngine (s : State) (k die : Nat) (v : Viol) (addr : Dword) : State :=
  ((s.freezeEngine (((s.reqs.find k).map (·.job)).getD (s.engine die).job) die v addr).updEngine die fun g => { g with queue := g.queue.erase k }).failReq k ⟨v.cause, false⟩ addr

/-- A request of the engine completes. -/
def doneEngine (s : State) (k die : Nat) (res : Option (Reg × Dword)) : State :=
  (s.updEngine die fun g => { g with queue := g.queue.erase k }).finishReq k ⟨res, none⟩

def violRouting : Viol := ⟨causeRouting, false⟩

/-! ### Configuration (R279–R281) -/

/-- CRC-32C of bytes (PRESUMED: the Castagnoli polynomial, reflected, initial value and final inversion all ones).
(PRESUMED: log entry 23) -/
def crcByte (c : Nat) (b : Byte) : Nat :=
  (List.range 8).foldl (fun c _ => if c % 2 = 1 then Nat.xor (c / 2) 0x82F63B78 else c / 2) (Nat.xor c b.toNat)
def crc32c (bs : List Byte) : Nat := Nat.xor (bs.foldl crcByte 0xFFFFFFFF) 0xFFFFFFFF

/-- The element format of an IFMT or OFMT code (R279). -/
def erFmt : Nat → Option Fmt
  | 0 => some .fp32 | 1 => some .bf16 | 2 => some .fp16 | _ => none

/-- Bytes of an element of a format code. -/
def erSize (c : Nat) : Nat := if c = 0 then 4 else 2

/-- The configuration of a block, with the field checks of R279; its tables still empty. MEMB may name any space and any alignment.
(DESIGN CHOICE: log entry 115) -/
def blockCfg (d : Nat → Dword) : Option ErCfg :=
  let f (j lo n : Nat) : Nat := (d j).toNat / 2 ^ lo % 2 ^ n
  let c : ErCfg :=
    { k := f 0 48 4, spill := f 0 46 2 == 1, ifmt := f 0 42 4, ofmt := f 0 38 4, e := f 0 0 13, m := f 1 55 9, me := f 1 47 8,
      group := f 1 31 16, rowBytes := 32 * f 1 0 12, spillRows := f 2 44 20, d := f 2 0 15, dlcap := f 3 32 32, gaz := d 5,
      drop := d 6, members := [], place := [], crc := 0 }
  let shared (x : Dword) (n : Nat) : Bool := formRsvd x == 0 && (formSpace x == spShared || formSpace x == spGlobal) && formAddr x % n == 0
  if f 0 56 8 = 0xE7 ∧ f 0 52 4 = 1 ∧ 1 ≤ c.k ∧ c.k ≤ 8 ∧ f 0 46 2 ≤ 1 ∧ c.ifmt ≤ 2 ∧ c.ofmt ≤ 2 ∧ f 0 13 25 = 0 ∧
     1 ≤ c.e ∧ c.e ≤ 4096 ∧ 1 ≤ c.m ∧ c.m ≤ 256 ∧ c.me < c.m ∧ f 1 12 19 = 0 ∧ 1 ≤ f 1 0 12 ∧ f 1 0 12 ≤ 2048 ∧
     (c.spill = true ∨ c.spillRows = 0) ∧ f 2 15 29 = 0 ∧ 1 ≤ c.d ∧ c.d ≤ 16384 ∧ c.d * erSize c.ifmt ≤ c.rowBytes ∧
     f 3 0 32 = 0 ∧ formRsvd (d 7) = 0 ∧ formSpace (d 7) ≠ 3 ∧ shared (d 5) 8 ∧ shared (d 6) 16 ∧ shared (d 4) 8 then some c
  else none

/-- The doublewords of a table. -/
def tableDwords (bs : List Byte) : List Dword := dwordsOf bs (bs.length / 8)

/-- The member table of R280, checked (R281). -/
def memberTable (s : State) (die : Nat) (c : ErCfg) (ws : List Dword) : Option (List (Nat × Nat)) :=
  let ms := ws.map fun w => (w.toNat % 1024, w.toNat / 1024 % 4)
  let here := ms.map fun p => p.1 == s.moduleId.toNat && p.2 == die
  if (ws.all fun w => w.extractLsb' 12 52 == (0 : BitVec 52)) && (ms.map (·.1)).dedup.length == ms.length &&
     here.zipIdx.all (fun p => p.1 == (p.2 == c.me)) then some ms else none

/-- One entry of the placement table, checked (R280, R281). -/
def placeOk (c : ErCfg) (ms : List (Nat × Nat)) (b w : Dword) : Bool :=
  w.extractLsb' 24 30 == (0 : BitVec 30) && (ms.map (·.1)).contains (w.toNat / 2 ^ 54) &&
    decide (w.toNat % 2 ^ 24 + c.spillRows ≤ 2 ^ 24 - 1) && formRsvd b == 0 && formSpace b == spGlobal && decide (formAddr b % c.rowBytes = 0)

/-- The pairs of doublewords of the placement table. -/
def pairUp : List Dword → List (Dword × Dword)
  | a :: b :: rest => (a, b) :: pairUp rest
  | _ => []

/-- The number of the last configuration of a job. -/
def Engine.config (g : Engine) (j : Nat) : Nat := (g.configs.find j).getD 0

/-- Whether a message waits for a configuration to come. -/
def Engine.early (g : Engine) (m : ExchangeMsg) : Bool := decide (g.config m.job < m.config)

/-- An engine without a configuration; its requests stay, and the messages that wait for a configuration to come (R278, R281).
(DEDUCED: log entry 26) -/
def Engine.cleared (g : Engine) : Engine :=
  { Engine.reset with queue := g.queue, frozen := g.frozen, configs := g.configs, msgs := g.msgs.filter g.early }

/-- An engine once a job has ended: what it held of the job is gone, and messages of the job are of no configuration to come (R293,
R391). -/
def Engine.killed (g : Engine) (j : Nat) (keep : Nat → Bool) : Engine :=
  let h := if g.job == j then g.cleared else g
  { h with
    queue := g.queue.filter keep
    frozen := g.frozen && g.job != j
    configs := g.configs.put j (g.config j + 1)
    msgs := h.msgs.filter fun m => m.job != j }

/-- ERCFG at the engine: the block and both tables are read and checked, and the configuration replaced (R281). A fault or an
uncorrectable error while they are read ends the request with its cause, and the configuration stands. (DESIGN CHOICE: log entry 114) -/
def serveErcfg (s : State) (k die : Nat) (r : Req) (a : Dword) : State :=
  let bad (s : State) : State := endEngine (s.updEngine die Engine.cleared) k die violRouting a
  match engRead s r.job r.tile a 0 64 with
  | .error e => endEngine s k die e.1 e.2
  | .ok (bs, pb) =>
    if pb then endEngine s k die ⟨causePoison, false⟩ a
    else
      let d (j : Nat) : Dword := bvOf 64 ((bs.drop (8 * j)).take 8)
      match blockCfg d with
      | none => bad s
      | some c =>
        match engRead s r.job r.tile (d 7) 0 (8 * c.m), engRead s r.job r.tile (d 4) 0 (16 * c.e) with
        | .error e, _ => endEngine s k die e.1 e.2
        | _, .error e => endEngine s k die e.1 e.2
        | .ok (mb, mbad), .ok (pbs, pbad) =>
          if mbad || pbad then endEngine s k die ⟨causePoison, false⟩ (if mbad then d 7 else d 4)
          else match memberTable s die c (tableDwords mb) with
            | none => bad s
            | some ms =>
              let ps := pairUp (tableDwords pbs)
              if !ps.all (fun p => placeOk c ms p.1 p.2) then bad s
              else
                let cfg := { c with
                  members := ms
                  place := ps.map fun p => (p.1, p.2.toNat / 2 ^ 54, p.2.toNat % 2 ^ 24)
                  crc := crc32c pbs }
                doneEngine (s.updEngine die fun g => { g.cleared with
                  state := .ready
                  job := r.job
                  cfg := some cfg
                  configs := g.configs.put r.job (g.config r.job + 1)
                  totals := List.replicate c.e 0
                  overflow := List.replicate c.e 0 }) k die none

/-! ### Choices (R282) -/

/-- The class of a choice. -/
inductive Choice where
  | unused
  | invalid (gate : Word) (expert : Nat)
  | valid (gate : Word) (expert : Nat)
deriving DecidableEq, Repr

def ErCfg.classify (c : ErCfg) (w : Dword) : Choice :=
  let gate : Word := w.extractLsb' 32 32
  let e := w.toNat % 65536
  if w.getLsbD 16 then .unused
  else if w.extractLsb' 17 15 ≠ (0 : BitVec 15) ∨ c.e ≤ e then .invalid gate e
  else .valid gate e

/-- The choices of a tensor, one doubleword after another, up to the first that cannot be read. -/
def readChoices (s : State) (job tile : Nat) (form : Dword) : Nat → Nat → List Dword × Option EngErr
  | _, 0 => ([], none)
  | j, n + 1 =>
    match engRead64 s job tile form (8 * j) with
    | .error e => ([], some e)
    | .ok (w, bad) =>
      if bad then ([], some (⟨causePoison, false⟩, formOff form (8 * j)))
      else
        let r := readChoices s job tile form (j + 1) n
        (w :: r.1, r.2)

/-- The choices that can be read, with their places: those a failed dispatch still settles. (DEDUCED: log entry 62) -/
def readable (s : State) (job tile : Nat) (form : Dword) (n : Nat) : List (Nat × Dword) :=
  (List.range n).filterMap fun j => match engRead64 s job tile form (8 * j) with
    | .ok (w, false) => some (j, w)
    | _ => none

/-- L[m]: the valid choices of each expert, as 32-bit counts (R283). -/
def countChoices (c : ErCfg) (ws : List Dword) : List Nat :=
  (List.range c.e).map fun e => (ws.filter fun w => match c.classify w with
    | .valid _ x => x == e
    | _ => false).length % 2 ^ 32

/-- Expert e's base, module and capacity. -/
def ErCfg.expert (c : ErCfg) (e : Nat) : Dword × Nat × Nat := c.place[e]?.getD (0, 0, 0)

/-- Rows expert e's buffer may hold (R284). -/
def ErCfg.rows (c : ErCfg) (e : Nat) : Nat := (c.expert e).2.2 + (if c.spill then c.spillRows else 0)

/-- A gazetteer entry (R285). -/
def gazWord (module expert pos status : Nat) : Dword :=
  BitVec.ofNat 10 module ++ BitVec.ofNat 12 expert ++ BitVec.ofNat 24 (min pos 0xFFFFFF) ++ BitVec.ofNat 2 status ++ (0 : BitVec 16)

/-! ### The exchange (R283) -/

/-- The values every member compares. -/
def ErCfg.values (c : ErCfg) : List Nat := [c.e, c.k, c.rowBytes, c.spill.toNat, c.spillRows, c.crc]

/-- A message handed to the other members, if there are any. -/
def State.tellGroup (s : State) (die : Nat) (c : ErCfg) (m : ExchangeMsg) : State :=
  if c.m = 1 then s else s.emit (.exchange die m)

/-- The messages of one member for a dispatch, oldest first: its counts, its rows, and what it has written. -/
def Engine.from (g : Engine) (n member : Nat) : List ExchangeMsg :=
  g.msgs.filter fun m => m.job == g.job && m.config == g.config g.job && m.number == n && m.member == member

/-- The other members of a group. -/
def ErCfg.others (c : ErCfg) : List Nat := (List.range c.m).filter (· != c.me)

/-- The number of the dispatch in progress. -/
def Engine.number (g : Engine) : Nat := g.count - 1

/-- The counts of member j: this engine's own, those of its first message, or those received. -/
def Engine.countsOf (g : Engine) (c : ErCfg) (j : Nat) : List Nat :=
  if j = c.me then g.own else ((g.from g.number j).head?.map (·.counts)).getD []

/-- Σ over some members of their 32-bit counts of expert e. -/
def Engine.total (g : Engine) (c : ErCfg) (js : List Nat) (e : Nat) : Nat :=
  js.foldl (fun n j => n + ((g.countsOf c j)[e]?.getD 0) % 2 ^ 32) 0

/-- A message of the dispatch in progress, with nothing in it yet but its form and the values compared. -/
def State.message (s : State) (die : Nat) (c : ErCfg) (form : Nat) : ExchangeMsg :=
  let g := s.engine die
  { job := g.job, src := s.moduleId.toNat, config := g.config g.job, member := c.me, number := g.number, form := form, values := c.values,
    counts := [], rows := [], failed := false, early := false, written := [] }

/-- The messages that stay once the dispatch in progress has ended: those of dispatches and configurations to come. -/
def Engine.later (g : Engine) : List ExchangeMsg :=
  g.msgs.filter fun m => g.early m || decide (g.count ≤ m.number)

/-! ### Placing rows (R283–R286, R289) -/

/-- Progress through the choices of a dispatch: the state, the positions taken of each expert, drop records counted, rows for other
members with their gazetteer indices, and the failure once there is one. -/
structure Placing where
  s : State
  next : Tab Nat
  drops : Nat
  sent : List (Nat × Nat × Nat × List Byte)
  fail : Option EngErr
deriving DecidableEq, Repr

/-- A failure; the first one stands. -/
def Placing.failed (p : Placing) (e : EngErr) : Placing := { p with fail := some (p.fail.getD e) }

/-- A row written at its expert's module: it fails if its address leaves that module or faults (R284). -/
def writeRow (s : State) (r : Req) (c : ErCfg) (e pos : Nat) (bs : List Byte) : Except EngErr State :=
  let base := (c.expert e).1
  let at_ := formOff base (pos * c.rowBytes)
  match rangeCheck s r.job r.tile base (formAddr base + pos * c.rowBytes) .write bs.length (bs.length / 128 + 2) with
  | .error v => .error (v, at_)
  | .ok ps =>
    if ps.any fun p => p.1.ver.isSome then .error (⟨causeProtection, false⟩, at_)
    else if ps.any fun p => p.1.addr / 2 ^ 42 != (c.expert e).2.1 then .error (violRouting, at_)
    else .ok (s.scatter ps bs)

/-- The cause of a failed row: a violation or a versioned page names its own (R207, R295, R376). -/
def rowCause (v : Viol) : Viol := if v.freeze || v.cause == causeProtection then v else violRouting

/-- The token row of token t, gated under REUSE.GATE: the first D elements times the gate, rounded once (R289). -/
def tokenRow (s : State) (r : Req) (c : ErCfg) (rows : Dword) (t : Nat) (gate : Option Word) : Except EngErr (List Byte) :=
  match engRead s r.job r.tile rows (t * c.rowBytes) c.rowBytes with
  | .error v => .error v
  | .ok (bs, bad) =>
    if bad then .error (⟨causePoison, false⟩, formOff rows (t * c.rowBytes))
    else match gate, erFmt c.ifmt with
      | some g, some f =>
        let z := erSize c.ifmt
        let elem (j : Nat) : List Byte :=
          let x := f.flt.decode (leNat ((bs.drop (z * j)).take z))
          leBytes (f.flt.encode .rne ((ofF32 g).mul x) 0).1 z
        .ok ((List.range c.d).flatMap elem ++ bs.drop (c.d * z))
      | _, _ => .ok bs

/-- The row of a placed entry goes to its destination: written here, or sent to the member on its module. -/
def Placing.putRow (p : Placing) (r : Req) (c : ErCfg) (j e pos : Nat) (row : Except EngErr (List Byte)) : Placing :=
  if p.fail.isSome then p
  else match row with
    | .error v => p.failed v
    | .ok bs =>
      if (c.expert e).2.1 = p.s.moduleId.toNat then
        match writeRow p.s r c e pos bs with
        | .error v => p.failed (rowCause v.1, v.2)
        | .ok s => { p with s := s }
      else { p with sent := p.sent ++ [(j, e, pos, bs)] }

/-- A gazetteer entry written. -/
def Placing.putGaz (p : Placing) (r : Req) (c : ErCfg) (j : Nat) (w : Dword) : Placing :=
  match engWrite p.s r.job r.tile c.gaz (8 * j) (bytesOf w) with
  | .error v => p.failed v
  | .ok s => { p with s := s }

/-- A drop record counted, and written while the list has room (R286). -/
def Placing.putDrop (p : Placing) (r : Req) (c : ErCfg) (j : Nat) (gate : Word) (reason expert : Nat) : Placing :=
  let d0 : Dword := gate ++ BitVec.ofNat 32 (j / c.k)
  let d1 : Dword := BitVec.ofNat 8 reason ++ p.s.moduleId ++ BitVec.ofNat 3 (j % c.k) ++ (0 : BitVec 27) ++ BitVec.ofNat 16 expert
  let q := { p with drops := p.drops + 1 }
  if c.dlcap ≤ p.drops then q
  else match engWrite p.s r.job r.tile c.drop (16 * p.drops) (bytesOf d0 ++ bytesOf d1) with
    | .error v => q.failed v
    | .ok s => { q with s := s }

/-- One choice of a plain dispatch: its place, its gazetteer entry and any drop record. After a failure the rows still to be
written are failed and the other entries keep their status (R283–R286, R295). -/
def Placing.choice (p : Placing) (r : Req) (c : ErCfg) (rows : Dword) (j : Nat) (w : Dword) : Placing :=
  match c.classify w with
  | .unused => p.putGaz r c j (gazWord 0 0 0 3)
  | .invalid gate e => (p.putDrop r c j gate 2 e).putGaz r c j (gazWord 0 0 0 1)
  | .valid gate e =>
    let pos := (p.next.find e).getD 0
    let p1 := { p with next := p.next.put e (pos + 1) }
    let m := (c.expert e).2.1
    if pos < c.rows e then
      let p2 := p1.putRow r c j e pos (tokenRow p.s r c rows (j / c.k) none)
      p2.putGaz r c j (gazWord m e pos (if p2.fail.isSome then 2 else 0))
    else (p1.putDrop r c j gate 1 e).putGaz r c j (gazWord m e pos 1)

/-- One entry of a REUSE: the row goes where the gazetteer says; after a failure the entry becomes failed (R289, R295).
(DEDUCED: log entry 24) -/
def Placing.reuse (p : Placing) (r : Req) (c : ErCfg) (rows : Dword) (gate : Nat → Option Word) (j : Nat) : Placing :=
  match engRead64 p.s r.job r.tile c.gaz (8 * j) with
  | .error v => p.failed v
  | .ok (g, bad) =>
    if bad then p.failed (⟨causePoison, false⟩, formOff c.gaz (8 * j))
    else if g.toNat / 2 ^ 16 % 4 ≠ 0 then p
    else
      let e := g.toNat / 2 ^ 42 % 2 ^ 12
      let pos := g.toNat / 2 ^ 18 % 2 ^ 24
      let fits := decide (e < c.e) && decide (g.toNat / 2 ^ 54 = (c.expert e).2.1) && decide (pos < (c.expert e).2.2 + c.spillRows)
      let q := if !fits then p.failed (violRouting, 0) else p.putRow r c j e pos (tokenRow p.s r c rows (j / c.k) (gate j))
      if q.fail.isSome then q.putGaz r c j (g ||| 0x20000) else q

/-- The choices of a dispatch that placed nothing: every valid one failed, with no drop record (R295). -/
def allFailed (s : State) (r : Req) (c : ErCfg) (ws : List (Nat × Dword)) : State :=
  (ws.foldl (init := (⟨s, [], 0, [], none⟩ : Placing)) fun p w =>
    match c.classify w.2 with
    | .unused => p.putGaz r c w.1 (gazWord 0 0 0 3)
    | .invalid _ _ => p.putGaz r c w.1 (gazWord 0 0 0 1)
    | .valid _ e => p.putGaz r c w.1 (gazWord (c.expert e).2.1 e 0 2)).s

/-! ### How a dispatch fails (R295) -/

/-- The gazetteer entry of a placed row becomes failed. -/
def failEntry (s : State) (r : Req) (c : ErCfg) (j : Nat) : State :=
  match engRead64 s r.job r.tile c.gaz (8 * j) with
  | .error _ => s
  | .ok (g, _) => (match engWrite s r.job r.tile c.gaz (8 * j) (bytesOf (g ||| 0x20000)) with
    | .error _ => s
    | .ok s => s)

/-- What the member on a module has told of the rows of others it has written, in its last message or in that of its failure. -/
def Engine.told (g : Engine) (c : ErCfg) (m : Nat) : Option (List (Nat × Nat)) :=
  let ms := g.from g.number (c.members.findIdx fun p => p.1 == m)
  if ms.any (·.failed) || decide (3 ≤ ms.length) then some (ms.flatMap (·.written)) else none

/-- A row that the member on another module has written, seen in that module's memory. (DEDUCED: log entry 26) -/
def putFar (s : State) (r : Req) (c : ErCfg) (e pos : Nat) (bs : List Byte) : State :=
  match writeRow s r c e pos bs with
  | .error _ => s
  | .ok s => s

/-- The rows sent to other members: each stands where its member says it is written, and its entry fails where it is not; where the
member says nothing, which of the two holds is the 840's own. (DEDUCED: log entry 25) -/
def settleSent (r : Req) (c : ErCfg) (g : Engine) : List (Nat × Nat × Nat × List Byte) → State → State
  | [], s => s
  | (j, e, pos, bs) :: rest, s =>
    settleSent r c g rest (match g.told c (c.expert e).2.1 with
      | some ws => if ws.contains (e, pos) then putFar s r c e pos bs else failEntry s r c j
      | none =>
        let b := s.takeBit
        if b.1 then putFar b.2 r c e pos bs else failEntry b.2 r c j)

/-- The entries of a REUSE that fail before any row is written. (DEDUCED: log entry 24) -/
def reuseFailed (s : State) (r : Req) (c : ErCfg) (t : Nat) : State :=
  ((List.range (c.k * t)).foldl (fun p j => p.reuse r c 0 (fun _ => none) j) (⟨s, [], 0, [], some (violRouting, 0)⟩ : Placing)).s

/-- What a failure before step 4 leaves: the entries failed and, of a plain dispatch, totals that nothing states and no drops
(R290, R295). (DESIGN CHOICE: log entry 62) -/
def beforePlacing (s : State) (die : Nat) (r : Req) (c : ErCfg) (choice : Dword) (t form : Nat) : State :=
  if form = 0 then
    let tot := (List.range c.e).map fun e => Config.freeNat (s.free + e)
    (allFailed { s with free := s.free + c.e } r c (readable s r.job r.tile choice (c.k * t))).updEngine die fun g => { g with
      totals := tot
      overflow := tot.zipIdx.map fun n => n.1 - (c.expert n.2).2.2
      drops := 0 }
  else reuseFailed s r c t

/-- A dispatch ends with a failure: FAILED is set, the other members are told, and the request ends; a module that cannot be reached is a
lost link (R295). (DEDUCED: log entry 26) -/
def failDispatch (s : State) (k die : Nat) (c : ErCfg) (form : Nat) (early : Bool) (written : List (Nat × Nat)) (e : EngErr) : State :=
  endEngine ((s.updEngine die fun g => { g with
    state := .ready
    failed := true
    sent := []
    wrote := []
    msgs := g.later }).tellGroup die c
      { s.message die c form with
        failed := true
        early := early
        written := written }) k die (if e.1.cause = causeFabric then violRouting else e.1) e.2

/-- A dispatch fails before any row is written. -/
def failEarly (s : State) (k die : Nat) (r : Req) (c : ErCfg) (choice : Dword) (t form : Nat) (e : EngErr) : State :=
  failDispatch (beforePlacing s die r c choice t form) k die c form true [] e

/-- A dispatch fails while its rows are on their way; the rows of others it has written stand. -/
def failLate (s : State) (k die : Nat) (r : Req) (c : ErCfg) (form : Nat) (e : EngErr) : State :=
  failDispatch (settleSent r c (s.engine die) (s.engine die).sent s) k die c form false (s.engine die).wrote e

/-- The request in progress at an engine fails: a dispatch as R295 states, any other with its cause. -/
def failCurrent (s : State) (die : Nat) (v : Viol) (addr : Dword) : State :=
  let g := s.engine die
  match g.cfg, g.queue.head? with
  | some c, some k =>
    match s.reqs.find k with
    | none => s
    | some r =>
      match r.kind, g.state with
      | .erdisp choice _ t form, .exchange => failEarly s k die r c choice t form (v, addr)
      | .erdisp _ _ _ form, .finish | .erdisp _ _ _ form, .done => failLate s k die r c form (v, addr)
      | _, _ => s
  | _, _ => s

/-- The request at the head of an engine's queue fails, whatever it is. -/
def failHead (s : State) (die k : Nat) (v : Viol) : State :=
  if (s.engine die).state = .ready ∨ (s.engine die).state = .unconfigured then endEngine s k die v 0 else failCurrent s die v 0

/-- Whether every other member has sent n messages of the dispatch in progress. -/
def Engine.heard (g : Engine) (c : ErCfg) (n : Nat) : Bool := c.others.all fun j => decide (n ≤ (g.from g.number j).length)

/-- Whether the dispatch in progress waits for a member (R293). -/
def Engine.awaits (g : Engine) (c : ErCfg) : Bool :=
  match g.state with
  | .exchange => !g.heard c 1
  | .finish => !g.heard c 2
  | .done => !g.heard c 3
  | _ => false

/-- A link to the group is lost: the dispatch in progress fails, but one whose members have all told its completion stands
(R295, R296). (DEDUCED: log entry 62) -/
def loseDispatch (s : State) (die : Nat) : State :=
  let g := s.engine die
  match g.cfg with
  | none => s
  | some c => if c.others.isEmpty || (g.state == .done && !g.awaits c) then s else failCurrent s die violRouting 0

/-! ### The course of a dispatch (R283, R287, R293) -/

/-- COUNT: the member's own choices are counted and the first exchange begins; a member that cannot be reached is a lost link
(R295, R296). -/
def startDispatch (s : State) (k die : Nat) (r : Req) (c : ErCfg) (choice : Dword) (t form : Nat) : State :=
  let n := (s.engine die).count
  let s1 := s.updEngine die fun g => { g with
    count := n + 1
    own := []
    wrote := []
    since := s.cycles.toNat }
  let ws := if form = 0 then readChoices s r.job r.tile choice 0 (c.k * t) else ([], none)
  match ws.2 with
  | some e => failEarly s1 k die r c choice t form e
  | none =>
    if c.members.any fun p => !s.reachable p.1 then failEarly s1 k die r c choice t form (violRouting, 0)
    else
      let own := if form = 0 then countChoices c ws.1 else []
      (s1.updEngine die fun g => { g with
        state := .exchange
        own := own }).tellGroup die c { s1.message die c form with counts := own }

/-- Whether an exchanged message differs from this member's own form and values. -/
def mismatch (c : ErCfg) (form : Nat) (m : ExchangeMsg) : Bool := m.form != form || m.values != c.values

/-- PLACE: every member's counts are here; the rows, the gazetteer and the drop list are written. -/
def placeDispatch (s : State) (k die : Nat) (r : Req) (c : ErCfg) (choice rows : Dword) (t form : Nat) : State :=
  let g := s.engine die
  let firsts := c.others.filterMap fun j => (g.from g.number j).head?
  if firsts.any (mismatch c form) then failEarly s k die r c choice t form (violRouting, 0)
  else
    let ws := if form = 1 then ([], none) else readChoices s r.job r.tile choice 0 (c.k * t)
    match ws.2 with
    | some e => failEarly s k die r c choice t form e
    | none =>
      let pre : Tab Nat := (List.range c.e).map fun e => (e, g.total c ((List.range c.m).filter (· < c.me)) e)
      let p0 : Placing := ⟨s, pre, 0, [], none⟩
      let gate (j : Nat) : Option Word := if form = 2 then (ws.1[j]?).map fun w => w.extractLsb' 32 32 else none
      let p := if form = 0 then ws.1.zipIdx.foldl (fun p w => p.choice r c rows w.2 w.1) p0
        else (List.range (c.k * t)).foldl (fun p j => p.reuse r c rows gate j) p0
      let tot := (List.range c.e).map fun e => g.total c (List.range c.m) e
      let s1 := p.s.updEngine die fun g => { g with
        state := .finish
        since := s.cycles.toNat
        sent := p.sent
        totals := if form = 0 then tot else g.totals
        overflow := if form = 0 then tot.zipIdx.map fun n => n.1 - (c.expert n.2).2.2 else g.overflow
        drops := if form = 0 then min p.drops 0xFFFFFFFF else g.drops }
      match p.fail with
      | some e => failDispatch ((p.sent.map (·.1)).foldl (fun s j => failEntry s r c j) s1) k die c form false [] e
      | none => s1.tellGroup die c { s.message die c form with rows := p.sent.map (·.2) }

/-- Received rows written in their order up to the first that fails: the state, what is written, and the failure with the module
the row came from. -/
def writeRows (r : Req) (c : ErCfg) : List (Nat × Nat × Nat × List Byte) → State → List (Nat × Nat) → State × List (Nat × Nat) × Option (EngErr × Nat)
  | [], s, done => (s, done, none)
  | (m, e, pos, bs) :: rest, s, done =>
    match writeRow s r c e pos bs with
    | .error x => (s, done, some (x, m))
    | .ok t => writeRows r c rest t (done ++ [(e, pos)])

/-- DONE begins: the rows received for the experts of this module are written, and the members are told (R284, R287).
(DEDUCED: log entry 26) -/
def receiveRows (s : State) (k die : Nat) (r : Req) (c : ErCfg) (form : Nat) : State :=
  let g := s.engine die
  let rows := c.others.flatMap fun j =>
    ((((g.from g.number j)[1]?).map (·.rows)).getD []).map fun x => (((c.members[j]?).map (·.1)).getD 0, x)
  let p := writeRows r c (rows.filter fun x => (c.expert x.2.1).2.1 == s.moduleId.toNat) s []
  match p.2.2 with
  | some (e, m) =>
    let t := if e.1.cause == causeRouting || e.1.cause == causeProtection && !e.1.freeze then p.1 else p.1.blockTraffic r.job m e.1 e.2
    failLate (t.updEngine die fun g => { g with wrote := p.2.1 }) k die r c form (violRouting, 0)
  | none => (p.1.updEngine die fun g => { g with
      state := .done
      wrote := p.2.1
      since := s.cycles.toNat }).tellGroup die c { s.message die c form with written := p.2.1 }

/-- Every member has told what it has written: the dispatch is complete (R287). -/
def finishDispatch (s : State) (k die : Nat) (r : Req) (c : ErCfg) (form : Nat) : State :=
  let g := s.engine die
  doneEngine ((settleSent r c g g.sent s).updEngine die fun g => { g with
    state := .ready
    sent := []
    wrote := []
    failed := if form = 0 then false else g.failed
    msgs := g.later }) k die none

/-- Whether another member has told a failure that ends the dispatch in progress now: in EXCHANGE one of a member that placed no row, since
a failed row is learned after step 4 (R287, R295); later any. -/
def Engine.heardFailure (g : Engine) (c : ErCfg) : Bool :=
  c.others.any fun j => (g.from g.number j).any fun m => m.failed && (m.early || g.state != .exchange)

/-- An ERDISP at the head of its engine's queue does what its state allows; it fails once another member tells its failure, but one whose
members have all told its completion stands (R295, R296). (DEDUCED: log entry 62) -/
def serveDispatch (s : State) (k die : Nat) (r : Req) (c : ErCfg) (choice rows : Dword) (t form : Nat) : State :=
  let g := s.engine die
  match g.state with
  | .unconfigured => endEngine s k die violRouting choice
  | .ready => startDispatch s k die r c choice t form
  | .exchange => if g.heardFailure c then failCurrent s die violRouting 0
    else if g.awaits c then s else placeDispatch s k die r c choice rows t form
  | .finish => if g.heardFailure c then failCurrent s die violRouting 0 else if g.awaits c then s else receiveRows s k die r c form
  | .done => if !g.awaits c then finishDispatch s k die r c form else if g.heardFailure c then failCurrent s die violRouting 0 else s

/-! ### Combine and results (R288, R290, R291) -/

/-- A slot of a token in ERCOMB: kept with its row and weight, failed, or skipped. -/
inductive Slotted where
  | kept (w : Word) (e pos : Nat)
  | failed
  | skipped
deriving DecidableEq, Repr

/-- The slots of token t from s on. -/
def tokenSlots (s : State) (r : Req) (c : ErCfg) (choice : Dword) (nogate : Bool) (t : Nat) : Nat → Nat → Except EngErr (List Slotted)
  | _, 0 => .ok []
  | j, n + 1 =>
    match engRead64 s r.job r.tile c.gaz (8 * (c.k * t + j)), engRead64 s r.job r.tile choice (8 * (c.k * t + j)) with
    | .error v, _ => .error v
    | _, .error v => .error v
    | .ok (g, gb), .ok (w, wb) =>
      if gb || wb then .error (⟨causePoison, false⟩, formOff (if gb then c.gaz else choice) (8 * (c.k * t + j)))
      else
        let st := g.toNat / 2 ^ 16 % 4
        let e := g.toNat / 2 ^ 42 % 2 ^ 12
        let pos := g.toNat / 2 ^ 18 % 2 ^ 24
        let fits := decide (e < c.e) && decide (g.toNat / 2 ^ 54 = (c.expert e).2.1) && decide (pos < (c.expert e).2.2 + c.spillRows)
        let x : Slotted :=
          if st = 0 then (if fits then .kept (if nogate then 0x3F800000 else w.extractLsb' 32 32) e pos else .failed)
          else if st = 2 then .failed else .skipped
        match tokenSlots s r c choice nogate t (j + 1) n with
        | .error v => .error v
        | .ok rest => .ok (x :: rest)

/-- The expert rows of the kept slots, in slot order. An access fault at an expert buffer ends the request with its cause.
(DESIGN CHOICE: log entry 116) -/
def keptRows (s : State) (r : Req) (c : ErCfg) : List Slotted → Except EngErr (List (Word × List Byte))
  | [] => .ok []
  | .kept w e pos :: rest =>
    match engRead s r.job r.tile (c.expert e).1 (pos * c.rowBytes) (c.d * erSize c.ifmt) with
    | .error v => .error v
    | .ok (bs, bad) =>
      if bad then .error (⟨causePoison, false⟩, formOff (c.expert e).1 (pos * c.rowBytes))
      else match keptRows s r c rest with
        | .error v => .error v
        | .ok xs => .ok ((w, bs) :: xs)
  | _ :: rest => keptRows s r c rest

/-- The weights divided by their sum, rounded at each step (R288). -/
def renormed (ws : List Word) : List Word :=
  let g := ws.foldl (fadd .rne 0) 0
  ws.map fun w => fdiv w g

/-- The output row of one token. -/
def combineRow (c : ErCfg) (renorm : Bool) (xs : List (Word × List Byte)) : List Byte :=
  let ws := if renorm then renormed (xs.map (·.1)) else xs.map (·.1)
  let ys := xs.map (·.2)
  let z := erSize c.ifmt
  match erFmt c.ifmt, erFmt c.ofmt with
  | some fi, some fo =>
    (List.range c.d).flatMap fun i =>
      let acc : Word := (ws.zip ys).foldl (init := 0) fun acc p =>
        ffma .rne 0 p.1 (toF32 .rne (fi.flt.decode (leNat ((p.2.drop (z * i)).take z))) 0) acc
      leBytes (fo.flt.encode .rne (ofF32 acc) 0).1 (erSize c.ofmt)
  | _, _ => []

/-- The kept and failed slots counted. -/
def slotCounts (xs : List Slotted) : Nat × Nat :=
  ((xs.filter fun x => match x with
    | .kept .. => true
    | _ => false).length, (xs.filter fun x => x == Slotted.failed).length)

/-- ERCOMB over tokens t onward: rows are written up to the first fault. -/
def combineTokens (s : State) (r : Req) (c : ErCfg) (out choice : Dword) (renorm nogate : Bool) :
    Nat → Nat → Nat × Nat → State × Except EngErr (Nat × Nat)
  | _, 0, cnt => (s, .ok cnt)
  | t, n + 1, cnt =>
    match tokenSlots s r c choice nogate t 0 c.k with
    | .error v => (s, .error v)
    | .ok xs =>
      match keptRows s r c xs with
      | .error v => (s, .error v)
      | .ok ys =>
        match engWrite s r.job r.tile out (t * c.d * erSize c.ofmt) (combineRow c renorm ys) with
        | .error v => (s, .error v)
        | .ok s1 =>
          combineTokens s1 r c out choice renorm nogate (t + 1) n (cnt.1 + (slotCounts xs).1, cnt.2 + (slotCounts xs).2)

def serveErcomb (s : State) (k die : Nat) (r : Req) (c : ErCfg) (out choice : Dword) (t : Nat) (renorm nogate : Bool) : State :=
  if formAddr out % erSize c.ofmt ≠ 0 then endEngine s k die ⟨causeMisaligned, false⟩ out
  else match combineTokens s r c out choice renorm nogate 0 t (0, 0) with
    | (s1, .error v) => endEngine s1 k die v.1 v.2
    | (s1, .ok (a, b)) => doneEngine s1 k die (((s.friezes.find r.fz).bind fun f =>
        (f.reqs.find? fun q => some q.lane == r.lane).bind (·.dstG)).map fun d =>
          (d, BitVec.ofNat 32 b ++ BitVec.ofNat 32 a))

/-- The doublewords ERSTAT writes (R290). -/
def statWord (n ov : Nat) : Dword := BitVec.ofNat 32 (min ov 0xFFFFFFFF) ++ BitVec.ofNat 32 (min n 0xFFFFFFFF)

/-- The doublewords written one after another from doubleword i on, up to the first fault (R294). -/
def putStats (r : Req) (a : Dword) : Nat → List (Nat × Nat) → State → State × Option EngErr
  | _, [], s => (s, none)
  | i, p :: rest, s =>
    match engWrite s r.job r.tile a (8 * i) (bytesOf (statWord p.1 p.2)) with
    | .error e => (s, some e)
    | .ok t => putStats r a (i + 1) rest t

def serveErstat (s : State) (k die : Nat) (r : Req) (a : Dword) : State :=
  let g := s.engine die
  match putStats r a 0 (g.totals.zip g.overflow) s with
  | (t, some e) => endEngine t k die e.1 e.2
  | (t, none) => doneEngine t k die none

/-- The word ERDROPS writes (R290). -/
def dropsWord (g : Engine) : Dword :=
  (0 : BitVec 30) ++ BitVec.ofBool g.failed ++ BitVec.ofBool (decide (((g.cfg.map (·.dlcap)).getD 0) < g.drops)) ++
    BitVec.ofNat 32 g.drops

/-! ### Serving (R277, R293) -/

/-- The register a head request writes. -/
def headDst (s : State) (r : Req) : Option Reg :=
  (s.friezes.find r.fz).bind fun f => (f.reqs.find? fun q => some q.lane == r.lane).bind (·.dstG)

/-- The request at the head of its engine's queue (R293). -/
def serveRouting (s : State) (k : Nat) (r : Req) : State :=
  let die := dieOf r.tile
  let g := s.engine die
  match g.cfg, r.kind with
  | none, .ercfg a => serveErcfg s k die r a
  | none, .ercfgOff => doneEngine s k die none
  | none, _ => endEngine s k die violRouting 0
  | some c, kind =>
    if g.job ≠ r.job then endEngine s k die ⟨causeProtection, false⟩ 0
    else match kind with
      | .ercfg a => serveErcfg s k die r a
      | .ercfgOff => doneEngine (s.updEngine die Engine.cleared) k die none
      | .erdisp choice rows t form => serveDispatch s k die r c choice rows t form
      | .ercomb out choice t renorm nogate => serveErcomb s k die r c out choice t renorm nogate
      | .erstat a => serveErstat s k die r a
      | .erdrops => doneEngine s k die ((headDst s r).map fun d => (d, dropsWord g))
      | _ => s

/-- A request reaches its engine, waits its turn there, and is served (R277, R292). -/
def respondRouting (s : State) (k : Nat) (r : Req) : State :=
  let die := dieOf r.tile
  let s1 := if (s.engine die).queue.contains k then s else s.updEngine die fun g => { g with queue := g.queue ++ [k] }
  if (s1.engine die).frozen || (s1.engine die).queue.head? != some k then s1 else serveRouting s1 k r

/-! ### The words (R291, R294) -/

/-- The checks of address forms at issue: LOCAL, then alignment. -/
def erCheck (f : Dword) (n : Nat) : Option Cause :=
  if formSpace f = spLocal then some causeProtection else if formAddr f % n ≠ 0 then some causeMisaligned else none

/-- A word of group 0xB: checked and requested at the head. -/
def erWord (i : Instr) (h : Hdr) (forms : Ctx → List (Dword × Nat)) (kind : Ctx → ReqKind) (dst : Option Reg) (s : State) : Res :=
  issueWord i h s fun c s =>
    match if c.isHead then (forms c).findSome? fun p => (erCheck p.1 p.2).map fun e => (e, p.1) else none with
    | some (e, f) => .trap e f
    | none => .done (c.headRequest s (kind c) dst none) false

def execErcfg (h : Hdr) (a : Reg) (s : State) : Res :=
  erWord (.ercfg h a) h (fun c => [(c.g a, 8)]) (fun c => .ercfg (c.g a)) none s

def execErcfgOff (h : Hdr) (s : State) : Res := erWord (.ercfgOff h) h (fun _ => []) (fun _ => .ercfgOff) none s

def execErdisp (h : Hdr) (a b e : Reg) (s : State) : Res :=
  erWord (.erdisp h a b e) h (fun c => [(c.g a, 8), (c.g b, 32)])
    (fun c => .erdisp (c.g a) (c.g b) ((c.g e).setWidth 32).toNat 0) none s

def execErdispReuse (h : Hdr) (a b e : Reg) (gate : Bool) (s : State) : Res :=
  erWord (.erdispReuse h a b e gate) h (fun c => [(c.g a, 8), (c.g b, 32)])
    (fun c => .erdisp (c.g a) (c.g b) ((c.g e).setWidth 32).toNat (if gate then 2 else 1)) none s

def execErcomb (h : Hdr) (a b e d : Reg) (renorm nogate : Bool) (s : State) : Res :=
  erWord (.ercomb h a b e d renorm nogate) h (fun c => [(c.g a, 1), (c.g b, 8)])
    (fun c => .ercomb (c.g a) (c.g b) ((c.g e).setWidth 32).toNat renorm nogate) (some d) s

def execErstat (h : Hdr) (a : Reg) (s : State) : Res :=
  erWord (.erstat h a) h (fun c => [(c.g a, 8)]) (fun c => .erstat (c.g a)) none s

def execErdrops (h : Hdr) (d : Reg) (s : State) : Res := erWord (.erdrops h d) h (fun _ => []) (fun _ => .erdrops) (some d) s

/-! ### Events -/

/-- Whether a message is one of the configuration in force: of its job, from another member by its index and module, and of no dispatch
before the last. -/
def Engine.belongs (g : Engine) (msg : ExchangeMsg) : Bool :=
  match g.cfg with
  | none => false
  | some c => msg.job == g.job && msg.config == g.config g.job && msg.member != c.me && (c.members[msg.member]?.map (·.1)) == some msg.src &&
      decide (g.count ≤ msg.number + 1)

/-- DISPATCH_EXCHANGE: a message of another member arrives, and waits for the dispatch it belongs to, or for a configuration to come. One of a
job that has ended, or from a module whose traffic is frozen for its job, is refused (R378, R391). (DEDUCED: log entry 26) -/
def execDispatchExchange (die : Nat) (msg : ExchangeMsg) (s : State) : Res :=
  .next (let g := s.engine die
    let refused := ((s.job? msg.job).map (·.blocked.contains msg.src)).getD true
    if !refused && (g.early msg || g.belongs msg) then s.updEngine die fun g => { g with msgs := g.msgs ++ [msg] } else s)

/-- DISPATCH_FAIL: a link is lost, or a member has not joined or completed for WAIT_LIMIT c-cycles (R293, R295). -/
def execDispatchFail (die : Nat) (why : DispatchFailure) (s : State) : Res :=
  .next (match why with
    | .linkLost => loseDispatch s die
    | .timeout =>
      let g := s.engine die
      if s.cycles.toNat < g.since + ((s.job? g.job).map (·.waitLimit.toNat)).getD 0 ∨ (g.cfg.map g.awaits) ≠ some true then s
      else failCurrent s die violRouting 0)

end Sys2Proof.Machine
end

