-- ==== Sys2Proof/Machine/Systolic.lean ====
section
/-! DEFINITION. Systolic regions: the descriptor exchange, control beats, steps, accumulator operations, emission and markers (R79–R81, R85, R106–R110, R146–R159, R439, R440). -/

namespace Sys2Proof.Machine

/-! ### The regions of a tile and their rectangle -/

/-- A systolic region that has switched in on a tile: its context, number, descriptor, word and run state. -/
structure SysAt where
  k : Nat
  n : Nat
  r : Region
  w : SysWord
  run : SysRun
deriving DecidableEq, Repr

/-- The systolic region at work on a column. (DEDUCED: log entry 43) -/
def Tile.sysAt (x : Tile) (c : Nat) : Option SysAt :=
  match x.activeOf c with
  | none => none
  | some k =>
    let m := (x.ctx k).maq
    match m.regionOf c with
    | none => none
    | some n =>
      match m.regions[n]?, m.sys.find n with
      | some r, some w => (x.sys.find r.first).map fun run => ⟨k, n, r, w, run⟩
      | _, _ => none

/-- A cell. -/
def Tile.cell (x : Tile) (l c : Nat) : Cell := (x.cells.find (16 * l + c)).getD Cell.empty
/-- A cell changed; one with nothing in it is not listed. -/
def Tile.updCell (x : Tile) (l c : Nat) (g : Cell → Cell) : Tile :=
  let q := g (x.cell l c)
  { x with cells := if q = Cell.empty then x.cells.del (16 * l + c) else x.cells.put (16 * l + c) q }
/-- The run state of a region changed. -/
def Tile.updRun (x : Tile) (f : Nat) (g : SysRun → SysRun) : Tile :=
  match x.sys.find f with
  | none => x
  | some r => { x with sys := x.sys.put f (g r) }

/-- A tile's place in its rectangle, east and south of the north-west tile: the one fixed when the handshakes passed, else the one
the descriptors received give; the north-west tile has received none. (DEDUCED: log entry 43) -/
def SysRun.place (r : SysRun) : Nat × Nat := ((r.site.or r.west).or r.north).getD (0, 0)

/-- Whether a tile takes A from its own in-ports, or B: it stands in the west column or the north row of its rectangle (R107). -/
def SysRun.westEdge (r : SysRun) : Bool := r.place.1 == 0
def SysRun.northEdge (r : SysRun) : Bool := r.place.2 == 0

/-- The north-west tile of the rectangle a region stands in, and its region. -/
def cornerSys (s : State) (t : Nat) (q : SysAt) : Option (Nat × SysAt) :=
  let p := q.run.place
  let c := t - p.1 - 32 * p.2
  ((s.tile c).sysAt (if p.1 = 0 then q.r.first else 15)).map fun o => (c, o)

/-- The tiles of a rectangle by its north-west tile: tile, first column, and place. -/
def rectTiles (c : Nat) (q : SysAt) : List (Nat × Nat × Nat × Nat) :=
  (List.range (q.r.east + 1)).flatMap fun dx => (List.range (q.r.south + 1)).map fun dy =>
    (c + dx + 32 * dy, if dx = 0 then q.r.first else 0, dx, dy)

/-- Whether a neighbour has taken a SWEEP and left the rectangle a region stands in: the region has still to switch (R108, R159). -/
def SysRun.left (r : SysRun) : Bool := (r.westMarks ++ r.northMarks).any fun m => match m with
  | .sweep _ => true
  | _ => false

/-- Whether every tile of a rectangle has switched and received every descriptor due to it (R108). -/
def rectPassed (s : State) (c : Nat) (q : SysAt) : Bool :=
  (rectTiles c q).all fun (u, g, dx, dy) => match (s.tile u).sysAt g with
    | none => false
    | some p => !p.run.left && p.run.west == (if 0 < dx then some (dx, dy) else none) && p.run.north == (if 0 < dy then some (dx, dy) else none)

/-- Whether a column waits for a switch some MAQGO has asked for. -/
def Tile.awaited (x : Tile) (c : Nat) : Bool := x.ctxs.toList.any fun q => q.await.contains c

/-- A rectangle whose last handshake has passed begins: every tile of it is ready at its place. -/
def settleRect (s : State) (t f : Nat) : State :=
  match (s.tile t).sysAt f with
  | none => s
  | some q =>
    if q.run.ready then s
    else match cornerSys s t q with
    | none => s
    | some (c, o) =>
      if !rectPassed s c o then s
      else (rectTiles c o).foldl (init := s) fun s (u, g, dx, dy) => s.updTile u fun x => x.updRun g fun r => { r with
        ready := true
        site := some (dx, dy) }

/-! ### SYSTOLIC_DESCRIPTOR_HANDSHAKE (R107, R108, R439, R440) -/

/-- Whether a sender's descriptor, sent east or south, matches the region that receives it. -/
def descriptorMatches (east : Bool) (a b : SysAt) : Bool :=
  a.w.int32 == b.w.int32 && a.w.rm == b.w.rm &&
    (if east then b.r.east + 1 == a.r.east && b.r.south == a.r.south && a.r.last == 15 && b.r.first == 0 &&
        (b.r.east == 0 || b.r.last == 15)
     else b.r.south + 1 == a.r.south && b.r.east == a.r.east && b.r.first == a.r.first && b.r.last == a.r.last)

/-- The systolic regions of a tile that have switched in or are about to: those of ACTIVE contexts and, if asked for, those of LOADED
contexts on columns that are idle. (DEDUCED: log entry 42) -/
def Tile.sysNamed (x : Tile) (loaded : Bool) : List (Region × SysWord) :=
  x.ctxs.toList.zipIdx.flatMap fun (c, k) => c.maq.sys.filterMap fun (n, w) => match c.maq.regions[n]? with
    | none => none
    | some r =>
      let every (p : Nat → Bool) : Bool := (List.range 16).all fun j => !(decide (r.first ≤ j) && decide (j ≤ r.last)) || p j
      if (c.state == .active && every fun j => x.activeOf j == some k || c.await.contains j) ||
          (loaded && c.state == .loaded && every fun j => (x.activeOf j).isNone) then some (r, w) else none

/-- Whether a neighbour to the west or to the north on the die holds a region whose descriptor would match: then the tile is not the
north-west tile of its rectangle. A tile that would send also waits for a neighbour of its job that is loading a context.
(DEDUCED: log entry 42) -/
def fedRegion (s : State) (t : Nat) (q : SysAt) : Bool :=
  let sends := q.r.east != 0 || q.r.south != 0
  let feeds (u : Nat) (east : Bool) : Bool :=
    ((s.tile u).sysNamed sends).any (fun (r, w) => descriptorMatches east { q with r := r, w := w } q) ||
      (sends && (s.tile u).job == (s.tile t).job && (s.tile u).ctxs.toList.any fun c => c.state == .loading)
  (t % 16 != 0 && feeds (t - 1) true) || (t / 32 % 16 != 0 && feeds (t - 32) false)

/-- The rectangle identity a tile sends, as its own place: the north-west tile its own, every other tile what a matching descriptor
carried to it (R439). -/
def identityOf (s : State) (t : Nat) (q : SysAt) : Option (Nat × Nat) :=
  (q.run.west.or q.run.north).or (if q.run.site.getD (0, 0) = (0, 0) ∧ !fedRegion s t q then some (0, 0) else none)

/-- The identity a tile would have, as its own place, if every descriptor already received were sent again from the north-west tile on:
the one it has, unless a tile before it has learnt since that it is no north-west tile. (DEDUCED: log entry 42) -/
def claimOf (s : State) : Nat → Nat → SysAt → Option (Nat × Nat)
  | 0, _, _ => none
  | n + 1, t, q =>
    if q.run.west.isSome then (((s.tile (t - 1)).sysAt 15).bind (claimOf s n (t - 1))).map fun o => (o.1 + 1, o.2)
    else if q.run.north.isSome then (((s.tile (t - 32)).sysAt q.r.first).bind (claimOf s n (t - 32))).map fun o => (o.1, o.2 + 1)
    else identityOf s t q

/-- Whether a station that has not issued EXIT stands on a tile for a job, or may still come to it: the job has a frieze to place or a
record to start. (DEDUCED: log entry 42) -/
def mayCome (s : State) (t job : Nat) : Bool :=
  s.friezes.vals.any (fun f => f.job == job && match f.state with
    | .resident => (List.range f.len).any fun st => f.tileOf st == t && ((f.stations[st]?).map fun x => !x.exiting).getD false
    | .ended => false
    | _ => true) ||
  s.kernels.vals.any (fun k => k.job == job && decide (k.nextId < k.f)) ||
  s.queues.vals.any fun q => q.job == some job && q.started != q.appended

/-- Whether a tile may still become the north-west tile of a rectangle that takes in two regions of a job: it is the job's, and
words may still be issued on it, a switch is outstanding, or a neighbour has still to receive. (DEDUCED: log entry 42) -/
def maySend (s : State) (t : Nat) (job : Option Nat) : Bool :=
  let x := s.tile t
  x.job == job &&
    ((job.map (mayCome s t)).getD false || (List.range 16).any x.awaited ||
      x.sys.keys.any fun f => match x.sysAt f with
        | none => true
        | some q =>
          (q.r.east != 0 && (((s.tile (t + 1)).sysAt 0).bind (·.run.west)).isNone) ||
          (q.r.south != 0 && (((s.tile (t + 32)).sysAt f).bind (·.run.north)).isNone))

/-- Two tile numbers' common north-west corner. (DEDUCED: log entry 42) -/
def cornerOf (a b : Nat) : Nat := 32 * min (a / 32) (b / 32) + min (a % 32) (b % 32)

/-- A descriptor that matches is received: the identity stands at the region, and the rectangle begins if it was the last due. -/
def receiveDescriptor (s : State) (u : Nat) (p : SysAt) (east : Bool) (id : Nat × Nat) : State :=
  settleRect (s.updTile u fun x => x.updRun p.r.first fun run =>
    if east then { run with
      west := some id
      ready := false
      site := none }
    else { run with
      north := some id
      ready := false
      site := none }) u p.r.first

/-- Whether a column waits for a switch to a context whose region there matches a descriptor too. (DEDUCED: log entry 42) -/
def Tile.awaitsMatch (x : Tile) (g : Nat) (east : Bool) (q : SysAt) : Bool :=
  x.ctxs.toList.any fun c => c.await.contains g && match c.maq.regionOf g with
    | none => false
    | some n => match c.maq.regions[n]?, c.maq.sys.find n with
      | some r, some w => descriptorMatches east q { q with r := r, w := w }
      | _, _ => false

/-- A descriptor with a rectangle identity reaches the east or the south neighbour of a region: it waits while the neighbour has not
switched; it matches; or both tiles fault (R108). A neighbour to which the sender's SWEEP has been forwarded, or whose awaited region
matches, has not switched. Of two identities that differ all three tiles fault (R440). (DEDUCED: log entry 42) -/
def sendDescriptor (s : State) (t : Nat) (q : SysAt) (east : Bool) (own : Nat × Nat) : State :=
  let u := if east then t + 1 else t + 32
  let g := if east then 0 else q.r.first
  let id := if east then (own.1 + 1, own.2) else (own.1, own.2 + 1)
  let y := s.tile u
  match y.activeOf g with
  | none => s
  | some k' =>
    let n' := (y.ctx k').maq.regionOf g
    let bad : State :=
      if y.awaited g then s else regionFault (regionFault s t q.k q.r.first q.n 108) u k' g (n'.getD 0) 108
    match y.sysAt g with
    | none => if ((n'.bind fun n => (y.ctx k').maq.regions[n]?).map (·.systolic)).getD false then s else bad
    | some p =>
      if p.run.left then s
      else if (if east then p.run.west else p.run.north) = some id then s
      else if !descriptorMatches east q p then bad
      else if y.awaitsMatch g east q then s
      else match if east then p.run.north else p.run.west with
        | none => receiveDescriptor s u p east id
        | some other =>
          if other = id then receiveDescriptor s u p east id
          else
            let v := if east then u - 32 else u - 1
            let from_ := ((s.tile v).sysAt (if east then p.r.first else 15)).bind (claimOf s 32 v)
            let settled := claimOf s 32 t q == some own &&
              from_.map (fun o => if east then (o.1, o.2 + 1) else (o.1 + 1, o.2)) == some other
            if !settled || maySend s (cornerOf (u - id.1 - 32 * id.2) (u - other.1 - 32 * other.2)) y.job then s
            else
              let s1 := regionFault (regionFault s t q.k q.r.first q.n 440) u p.k p.r.first p.n 440
              match (s.tile v).sysAt (if east then p.r.first else 15) with
              | some o => regionFault s1 v o.k o.r.first o.n 440
              | none => s1

/-- SYSTOLIC_DESCRIPTOR_HANDSHAKE: the region sends to the neighbours its EAST and SOUTH name, once it knows its rectangle. -/
def execSystolicDescriptorHandshake (tile col : Nat) (s : State) : Res :=
  .next (match (s.tile tile).sysAt col with
    | none => s
    | some q =>
      if ((s.tile tile).col q.r.first).stopped || q.run.left then s
      else match identityOf s tile q with
        | none => s
        | some own =>
          let s1 := if q.r.east = 0 then s else sendDescriptor s tile q true own
          let s2 := if q.r.south = 0 then s1 else sendDescriptor s1 tile q false own
          settleRect s2 tile q.r.first)

/-! ### Control beats (R149, R150) -/

/-- A control beat's fields. -/
structure Ctl where
  op : Nat
  hold : Bool
  emit : Bool
  acc : Bool
  clr : Bool
  acci : Nat
  from_ : Nat
  sub : Nat
  run : Nat
  opnd : Word
  rsvd : Nat
deriving DecidableEq, Repr

/-- The fields read as raw DATA bits (R149). -/
def Ctl.of (d : Data) : Ctl :=
  let f (lo n : Nat) : Nat := d.toNat / 2 ^ lo % 2 ^ n
  ⟨f 0 4, d.getLsbD 4, d.getLsbD 5, d.getLsbD 6, d.getLsbD 7, f 8 2, f 10 2, f 12 4, f 16 16, d.extractLsb' 32 32, f 64 64⟩

/-- The target of an emission; none where MMAOUT's SUB is not allowed (R157). -/
def Ctl.target (c : Ctl) (int32 : Bool) : Option Fmt :=
  if c.op ≠ 2 then some (if int32 then .int32 else .fp32)
  else match int32, c.sub with
    | false, 0 => some .fp32
    | false, 1 => some .bf16
    | false, 2 => some .fp16
    | true, 12 => some .int32
    | true, 11 => some .int16
    | true, 9 => some .int8
    | _, _ => none

/-- Whether a control beat sets no field its operation does not use. (DEDUCED: log entry 40) -/
def Ctl.fieldsOk (c : Ctl) : Bool :=
  c.rsvd == 0 &&
  (match c.op with
    | 0 | 1 => c.opnd == 0 && c.sub == 0 && c.from_ == 0
    | 2 => c.opnd == 0 && c.from_ == 0
    | _ => (c.sub == 2 || c.from_ == 0) && (c.sub != 2 && c.sub != 3 || c.opnd == 0))

/-- The checks of R150. -/
def Ctl.ok (c : Ctl) (w : SysWord) : Bool :=
  decide (c.op ≤ 3) && !(c.op == 0 && w.mmanm) && !(c.op == 1 && !w.mmanm) && c.fieldsOk &&
  (match c.op with
    | 0 | 1 => !(c.clr && c.acc) && !(!c.emit && c.hold) && (c.clr || c.acc || c.emit) && ((c.clr || c.acc) == (c.run != 0))
    | 2 => !c.clr && !c.acc && c.emit && c.run == 0 && (c.target w.int32).isSome
    | _ => !c.clr && !c.acc && !c.emit && !c.hold && c.run == 0 && decide (c.sub ≤ 3))

/-- The tiles of a region's tile row from its west tile on, with the first column and the last on each. (DEDUCED: log entry 41) -/
def rowTiles (s : State) (t : Nat) (q : SysAt) : List (Nat × Nat × Nat) :=
  (List.range (q.r.east + 1)).filterMap fun dx =>
    let g := if dx = 0 then q.r.first else 0
    ((s.tile (t + dx)).sysAt g).map fun p => (t + dx, p.r.first, p.r.last)

/-- The beat at the head of an in-port, if it is one of data: KIND 00 or 01. -/
def Tile.dataHead (x : Tile) (p : Nat) : Option Beat :=
  match (x.inPort p).fifo with
  | b :: _ => if isData b.kind then some b else none
  | [] => none

/-- Whether an ACCSAVE or ACCLOAD that waits at an operation boundary of a region is outstanding (R168). -/
def SysRun.heldIn (r : SysRun) (s : State) : Bool := r.held.any fun u => (s.reqs.find u).isSome

/-- The control beat that may enter a region now: at its west tile, with every handshake passed, no operation boundary awaited by
an ACCSAVE or ACCLOAD, and the cells of lane 0 free to take it. -/
def ctlHead (s : State) (t : Nat) (q : SysAt) : Option Beat :=
  let x := s.tile t
  if !q.run.westEdge || !q.run.ready || (x.col q.r.first).stopped || !(x.cell 0 q.r.first).ctl.isEmpty || (q.w.c == q.w.a && q.run.need != 0) then none
  else match x.dataHead q.w.c with
    | none => none
    | some b =>
      if (rowTiles s t q).all fun (u, g, _) => !(((s.tile u).sysAt g).map (·.run.heldIn s)).getD true then some b
      else none

/-- An in-port's head popped. -/
def State.popIn (s : State) (t p : Nat) : State := s.updPorts t fun x => x.setIn p ((x.inPort p).takeN p 1)

/-- CONTROL_BEAT_CHECK: the beat is checked on each tile of the tile row it reaches, and every cell there receives it.
(DEDUCED: log entry 41) -/
def execControlBeatCheck (tile col : Nat) (s : State) : Res :=
  .next (match (s.tile tile).sysAt col with
    | none => s
    | some q =>
      match ctlHead s tile q with
      | none => s
      | some b =>
        let c := Ctl.of b.bits
        if !c.ok q.w then regionFault s tile q.k q.r.first q.n 150
        else
          let s1 := (s.popIn tile q.w.c).updTile tile fun x => x.updRun q.r.first fun r => { r with need := r.need + c.run }
          (rowTiles s tile q).foldl (init := s1) fun s (u, g, l) =>
            match (s.tile u).sysAt g with
            | none => s
            | some p =>
              if !c.ok p.w then regionFault s u p.k p.r.first p.n 150
              else s.updTile u fun x =>
                (List.range 16).foldl (init := x) fun x lane => (List.range 16).foldl (init := x) fun x j =>
                  if g ≤ j ∧ j ≤ l then x.updCell lane j fun e => { e with ctl := e.ctl ++ [b] } else x)

/-! ### Steps (R79–R81, R152–R155) -/

/-- One product of a step: the two elements and their scales. -/
structure Term where
  a : Fv
  b : Fv
  sa : Option Rat
  sb : Option Rat
deriving DecidableEq, Repr

/-- The rule two operand formats break; none if they pair (R152). -/
def pairFault (int32 : Bool) (a b : Rec) : Option Nat :=
  match a.form, b.form with
  | .packed f, .packed g =>
    if b.sparse then some 152
    else if f.perBeat ≠ g.perBeat then some 152
    else if int32 ∧ (!f.isInt ∨ !g.isInt) then some 152
    else none
  | _, _ => some 152

/-- The format of an operand beat. -/
def Rec.opFmt (r : Rec) : Fmt := match r.form with
  | .packed f => f
  | _ => .fp32

/-- The terms of a dense step. -/
def denseTerms (a b : Rec) : List Term :=
  (List.range a.opFmt.perBeat).map fun i =>
    ⟨a.opFmt.decode (a.code a.opFmt i), b.opFmt.decode (b.code b.opFmt i), a.scale (i / 8), b.scale (i / 8)⟩

/-- The kept logical elements of a compressed beat, ascending (R154). -/
def keptOf (a : Rec) : List Nat := (List.range 32).filter fun e => a.side.getLsbD e

/-- The terms of an MMANM step: each kept A element with the B element of the same logical position (R155). -/
def sparseTerms (a : Rec) (bs : List Rec) : List Term :=
  (keptOf a).zipIdx.filterMap fun (e, i) =>
    let per := a.opFmt.perBeat
    (bs[e / per]?).map fun b =>
      ⟨a.opFmt.decode (a.code a.opFmt i), b.opFmt.decode (b.code b.opFmt (e % per)), a.scale (e / 8), b.scale (e % per / 8)⟩

/-- The accumulator after a step (R79, R80). -/
def stepF32 (acc : Word) (ts : List Term) : Word :=
  match ts.foldl (fun v t => v.add .rne (((t.a.mul t.b).scaled t.sa).scaled t.sb)) (ofF32 acc) with
  | .fin n m => toF32 .rne (Fv.ofRat (Fv.rat (.fin n m)) false) 0
  | v => toF32 .rne v 0

/-- The INT32 accumulator after a step: elements without scale, modulo 2^32 (R81). -/
def stepI32 (acc : Word) (ts : List Term) : Word :=
  acc + BitVec.ofInt 32 ((ts.map fun t => t.a.rat.num * t.b.rat.num).sum)

/-- The rule the operands of a step break (R152, R154, R155). -/
def stepFault (w : SysWord) (a : Rec) (bs : List Rec) : Option Nat :=
  if w.mmanm then
    if !a.sparse || bs.any (·.sparse) then some 155
    else if 16 < (keptOf a).length then some 154
    else bs.findSome? (pairFault w.int32 a)
  else if a.sparse then some 152
  else bs.findSome? (pairFault w.int32 a)

/-- The A word at a cell's west: from the in-port of its lane at the west edge, else from the cell or the tile to the west. -/
def aWord (x : Tile) (q : SysAt) (l c : Nat) : Option Rec :=
  if c = q.r.first ∧ q.run.westEdge then (x.dataHead (q.w.a + l)).map (·.r) else (x.cell l c).a.head?

/-- The first n operand words of an in-port and the entries they stand in; a bare EOS marker among them is dropped (R159). -/
def wordsOf : List Beat → Nat → Option (List Rec × Nat)
  | _, 0 => some ([], 0)
  | [], _ + 1 => none
  | b :: rest, n + 1 =>
    if isBareEos b.kind b.r.data then (wordsOf rest (n + 1)).map fun r => (r.1, r.2 + 1)
    else if isData b.kind then (wordsOf rest n).map fun r => (b.r :: r.1, r.2 + 1)
    else none

/-- Whether an alignment marker stands ahead of the n-th operand word of an in-port. -/
def markAhead : List Beat → Nat → Bool
  | _, 0 => false
  | [], _ + 1 => false
  | b :: rest, n + 1 =>
    if isBareEos b.kind b.r.data then markAhead rest (n + 1)
    else if isData b.kind then markAhead rest n
    else true

/-- The B words at a cell's north, n of them. -/
def bWords (x : Tile) (q : SysAt) (l c n : Nat) : Option (List Rec) :=
  if l = 0 ∧ q.run.northEdge then
    (wordsOf (x.inPort (q.w.b + (c - q.r.first))).fifo n).map (·.1)
  else if n ≤ (x.cell l c).b.length then some ((x.cell l c).b.take n) else none

/-- B beats an MMANM step of an A beat takes (R155). -/
def bCount (w : SysWord) (a : Rec) : Nat := if w.mmanm && a.opFmt.perBeat == 16 then 2 else 1

/-- The words of a step leave the cell: on to the east and the south, over the edge links where the region goes on (R147). -/
def passWords (s : State) (t : Nat) (q : SysAt) (l c : Nat) (a : Rec) (bs : List Rec) : State :=
  let s1 := if c = q.r.first ∧ q.run.westEdge then
      let s1 := s.popIn t (q.w.a + l)
      if l = 0 then s1.updTile t fun x => x.updRun q.r.first fun r => { r with need := r.need - 1 } else s1
    else s.updTile t fun x => x.updCell l c fun e => { e with a := e.a.tail }
  let s2 := if l = 0 ∧ q.run.northEdge then
      s1.updPorts t fun x => let p := q.w.b + (c - q.r.first); x.setIn p ((x.inPort p).takeN p (((wordsOf (x.inPort p).fifo bs.length).map (·.2)).getD 0))
    else s1.updTile t fun x => x.updCell l c fun e => { e with b := e.b.drop bs.length }
  let s3 := if c < q.r.last then s2.updTile t fun x => x.updCell l (c + 1) fun e => { e with a := e.a ++ [a] }
    else if q.r.east ≠ 0 then s2.updTile (t + 1) fun x => x.updCell l 0 fun e => { e with a := e.a ++ [a] }
    else s2
  if l < 15 then s3.updTile t fun x => x.updCell (l + 1) c fun e => { e with b := e.b ++ bs }
  else if q.r.south ≠ 0 then s3.updTile (t + 32) fun x => x.updCell 0 c fun e => { e with b := e.b ++ bs }
  else s3

/-- One step of an operation in a cell, once its words are there. -/
def takeStep (s : State) (t : Nat) (q : SysAt) (l c : Nat) (b : Beat) (o : Ctl) : State :=
  let x := s.tile t
  match aWord x q l c with
  | none => s
  | some a =>
    match bWords x q l c (bCount q.w a) with
    | none => s
    | some bs =>
      match stepFault q.w a bs with
      | some rule => regionFault s t q.k c q.n rule
      | none =>
        let first := decide ((x.cell l c).done = 0) && o.clr
        let old := if first then (0, false) else x.accOf l c o.acci
        let ts := if q.w.mmanm then sparseTerms a bs else bs.flatMap (denseTerms a)
        let v := if q.w.int32 then stepI32 old.1 ts else stepF32 old.1 ts
        let flag := old.2 || a.poison || bs.any (·.poison) || b.r.poison
        (passWords s t q l c a bs).updTile t fun x =>
          (x.setAcc l c o.acci (v, flag)).updCell l c fun e => { e with done := e.done + 1 }

/-- The end of an operation in a cell: its value is captured, and the accumulator kept or cleared (R110, R153). A capture waits
until the one before has been written (R156). -/
def endOp (s : State) (t l c : Nat) (b : Beat) (o : Ctl) : State :=
  let x := s.tile t
  if o.emit ∧ (x.cell l c).cap.isSome then s
  else s.updTile t fun x =>
    let v := x.accOf l c o.acci
    let v := (v.1, v.2 || b.r.poison)
    let x := x.setAcc l c o.acci (if o.emit ∧ !o.hold then (0, false) else v)
    x.updCell l c fun e => { e with
      ctl := e.ctl.tail
      done := 0
      cap := if o.emit then some (v.1, v.2, b) else e.cap }

/-- The operation at the head of a cell of a region at work, its handshakes passed. -/
def cellHead (s : State) (t l c : Nat) : Option (SysAt × Beat × Ctl) :=
  let x := s.tile t
  match x.sysAt c, (x.cell l c).ctl with
  | some q, b :: _ => if (x.col c).stopped || !q.run.ready then none else some (q, b, Ctl.of b.bits)
  | _, _ => none

/-- SYSTOLIC_STEP: the next step of the operation at the head of a cell, or its end. -/
def execSystolicStep (tile lane col : Nat) (s : State) : Res :=
  .next (match cellHead s tile lane col with
    | none => s
    | some (q, b, o) =>
      if o.op = 3 then s
      else if ((s.tile tile).cell lane col).done < o.run then takeStep s tile q lane col b o
      else endOp s tile lane col b o)

/-! ### ACCOP (R158) -/

/-- The site of a cell (R76). -/
def cellSite (q : SysAt) (l c : Nat) : Word :=
  BitVec.ofNat 32 (2 ^ 31 + (16 * q.run.place.2 + l) * 256 + (16 * q.run.place.1 + c))

/-- A saturating signed result, and whether it was clamped. -/
def satI32 (v : Int) : Word × Bool := let r := clamp v (-2147483648) 2147483647; (BitVec.ofInt 32 r.1, r.2)

/-- The column status bit ISAT set. -/
def Tile.isat (x : Tile) (c : Nat) (b : Bool) : Tile := if b then x.updCol c fun q => { q with status := q.status ||| 1 } else x

/-- ACCOP at the head of a cell. -/
def execAccop (tile lane col : Nat) (s : State) : Res :=
  .next (match cellHead s tile lane col with
    | none => s
    | some (q, b, o) =>
      if o.op ≠ 3 then s
      else
        let x := s.tile tile
        let a := x.accOf lane col o.acci
        let u := draw (x.ctx q.k).key (32 * b.r.idx + BitVec.ofNat 64 o.acci) (cellSite q lane col)
        let f := a.2 || b.r.poison
        let r : (Word × Bool) × Bool := match o.sub with
          | 0 => if q.w.int32 then let v := satI32 (a.1.toInt * o.opnd.toInt); ((v.1, f), v.2)
                 else ((fmul q.w.rm u a.1 o.opnd, f), false)
          | 1 => if q.w.int32 then let v := satI32 (a.1.toInt + o.opnd.toInt); ((v.1, f), v.2)
                 else ((fadd q.w.rm u a.1 o.opnd, f), false)
          | 2 => let v := x.accOf lane col o.from_; ((v.1, v.2 || b.r.poison), false)
          | _ => ((0, false), false)
        s.updTile tile fun x =>
          ((x.setAcc lane col o.acci r.1).isat col r.2).updCell lane col fun e => { e with
            ctl := e.ctl.tail
            done := 0 })

/-! ### EMIT (R156, R157) -/

/-- The code of a captured value, and whether it was clamped. -/
def emitCode (w : SysWord) (f : Fmt) (u v : Word) : Nat × Bool :=
  if w.int32 then
    let r := clamp v.toInt f.intRange.1 f.intRange.2
    ((BitVec.ofInt f.width r.1).toNat, r.2)
  else if f = .fp32 then (v.toNat, false)
  else ((f.flt.encode w.rm (ofF32 v) u).1, false)

/-- EMIT: the next beat of a capture, once its cells have captured and OUT has a free entry. -/
def execEmit (tile col : Nat) (s : State) : Res :=
  .next (match (s.tile tile).sysAt col with
    | none => s
    | some q =>
      let x := s.tile tile
      let width := q.r.last + 1 - q.r.first
      if (x.col q.r.first).stopped || decide (64 ≤ (x.outPort q.w.out).length) then s
      else
        -- the control beat, from any cell that holds its capture; all captures of a tile are of one operation
        match x.cells.findSome? fun (key, e) => if q.r.first ≤ key % 16 ∧ key % 16 ≤ q.r.last then e.cap.map (·.2.2) else none with
        | none => s
        | some b =>
          let o := Ctl.of b.bits
          let f := (o.target q.w.int32).getD .fp32
          let per := f.perBeat
          let n := (width + per - 1) / per
          let lane := q.run.emitPos / n
          let start := q.r.first + q.run.emitPos % n * per
          let cols := (List.range per).map (start + ·) |>.filter (· ≤ q.r.last)
          let caps := cols.map fun c => (x.cell lane c).cap
          if !caps.all (·.isSome) then s
          else
            let vals := caps.filterMap id
            let code (j : Nat) (v : Word) : Nat × Bool :=
              emitCode q.w f (draw (x.ctx q.k).key (32 * b.r.idx + BitVec.ofNat 64 j) (cellSite q lane (start + j))) v
            let codes := vals.mapIdx fun j v => code j v.1
            let data : Nat := (codes.mapIdx fun j v => v.1 * 2 ^ (f.width * j)).sum
            let lastBeat := decide (q.run.emitPos + 1 = 16 * n)
            let rec_ : Rec := { Rec.fresh .w32i (BitVec.ofNat 128 data) 0 (vals.any (·.2.1) || (o.op == 2 && b.r.poison)) with
              chan := b.r.chan
              idx := b.r.idx }
            let s1 := s.pushOut tile q.w.out [Beat.of (if lastBeat ∧ b.kind = kindEos then kindEos else kindData) rec_]
            s1.updTile tile fun x =>
              let x := (cols.zip codes).foldl (fun x (c, v) => x.isat c v.2) x
              if lastBeat then
                let x := (List.range 16).foldl (init := x) fun x l => (List.range 16).foldl (init := x) fun x c =>
                  if q.r.first ≤ c ∧ c ≤ q.r.last then x.updCell l c fun e => { e with cap := none } else x
                x.updRun q.r.first fun r => { r with emitPos := 0 }
              else x.updRun q.r.first fun r => { r with emitPos := r.emitPos + 1 })

/-! ### REGION_MARKER_TAKEN (R103, R109, R159) -/

/-- Whether an operation is between its control beat and its last step on a tile's part of a region. -/
def Tile.opRuns (x : Tile) (r : Region) : Bool :=
  x.cells.any fun (key, e) => decide (r.first ≤ key % 16) && decide (key % 16 ≤ r.last) && !e.ctl.isEmpty

/-- Whether an operation is between its control beat and its last step, or a captured value unwritten, on a tile's part of a region. -/
def Tile.opBusy (x : Tile) (r : Region) : Bool :=
  x.cells.any fun (key, e) => decide (r.first ≤ key % 16) && decide (key % 16 ≤ r.last) && (!e.ctl.isEmpty || e.cap.isSome)

/-- Whether a marker heads a port from which the operation in progress in an edge cell still needs a word: for a step that
takes two B words, also behind the first of them (R155, R159). -/
def starved (x : Tile) (q : SysAt) : Bool :=
  let needs (l c : Nat) : Bool := match (x.cell l c).ctl with
    | b :: _ => decide ((x.cell l c).done < (Ctl.of b.bits).run)
    | [] => false
  (q.run.westEdge && (List.range 16).any fun l => needs l q.r.first && markAhead (x.inPort (q.w.a + l)).fifo 1) ||
    (q.run.northEdge && (List.range (q.r.last + 1 - q.r.first)).any fun j => needs 0 (q.r.first + j) &&
      markAhead (x.inPort (q.w.b + j)).fifo ((aWord x q 0 (q.r.first + j)).elim 1 (bCount q.w)))

/-- Whether a compressed beat of more than 16 kept elements stands at the west edge of a region at work, as an A word: the head of an
A port, but for a control beat there (R146, R154). -/
def overfull (x : Tile) (q : SysAt) : Bool :=
  q.run.ready && q.run.westEdge && (List.range 16).any fun l =>
    !(l == 0 && q.w.c == q.w.a && q.run.need == 0) &&
      (match x.dataHead (q.w.a + l) with
        | some b => b.r.sparse && decide (16 < (keptOf b.r).length)
        | none => false)

/-- Whether an ACCSAVE or ACCLOAD is at work on the columns of a tile's part of a region (R159). -/
def accAtWork (s : State) (t : Nat) (r : Region) : Bool :=
  s.reqs.vals.any fun q => q.tile == t && (match q.kind with
    | .accsave _ f l _ | .accload _ f l _ => decide (f ≤ r.last) && decide (r.first ≤ l)
    | _ => false)

/-- The bare EOS markers at the heads of a region's ports popped and dropped. -/
def dropEos (s : State) (t : Nat) (ports : List Nat) : State :=
  ports.foldl (init := s) fun s p => match ((s.tile t).inPort p).fifo with
    | b :: _ => if isBareEos b.kind b.r.data then s.popIn t p else s
    | [] => s

/-- A marker taken by a tile's region: popped, forwarded over the edge links, written to OUT or absorbed in a switch (R159). -/
def regionTakes (s : State) (t : Nat) (q : SysAt) (ports : List Nat) (mk : Tok) : State :=
  let s1 := ports.foldl (fun s p => s.popIn t p) s
  let s2 := s1.updTile t fun x => x.updRun q.r.first fun r => { r with
    westMarks := r.westMarks.tail
    northMarks := r.northMarks.tail }
  let s3 := if q.r.east = 0 then s2 else s2.updTile (t + 1) fun x => x.updRun 0 fun r => { r with westMarks := r.westMarks ++ [mk] }
  let s4 := if q.r.south = 0 then s3
    else s3.updTile (t + 32) fun x => x.updRun q.r.first fun r => { r with northMarks := r.northMarks ++ [mk] }
  match mk with
  | .sweep j => (List.range 16).foldl (init := s4) fun s c => if q.r.first ≤ c ∧ c ≤ q.r.last then switchCol s t c j else s
  | m =>
    let s5 := s4.pushOut t q.w.out (markBeat m)
    if m = .drain then drainOut s5 t q.k q.w.out else s5

/-- REGION_MARKER_TAKEN: the rows of R159. (DEDUCED: log entry 44) -/
def execRegionMarkerTaken (tile col : Nat) (s : State) : Res :=
  .next (match (s.tile tile).sysAt col with
    | none => s
    | some q =>
      if ((s.tile tile).col q.r.first).stopped then s
      else
        let ports := (q.w.inPorts (some q.r)).dedup
        let s := dropEos s tile ports
        let x := s.tile tile
        let heads := ports.map fun p => (x.inPort p).fifo.head?
        let marks := heads.filterMap fun h => h.bind (·.mark?)
        let data := heads.any fun h => match h with
          | some b => isData b.kind
          | none => false
        if overfull x q then regionFault s tile q.k q.r.first q.n 154
        else if starved x q then regionFault s tile q.k q.r.first q.n 159
        else match marks with
        | [] => s
        | mk :: _ =>
          if marks.any (· != mk) then regionFault s tile q.k q.r.first q.n 159
          else if data && !x.opRuns q.r then regionFault s tile q.k q.r.first q.n 159
          else if marks.length ≠ ports.length || x.opBusy q.r || accAtWork s tile q.r then s
          else if (!q.run.westEdge && q.run.westMarks.head? != some mk) || (!q.run.northEdge && q.run.northMarks.head? != some mk) then s
          else if !x.targetOk mk then regionFault s tile q.k q.r.first q.n 100
          else match mk with
            | .sweep _ => regionTakes s tile q ports mk
            | _ => if 64 ≤ (x.outPort q.w.out).length then s else regionTakes s tile q ports mk)

end Sys2Proof.Machine
end

