-- ==== Sys2Proof/Machine/Saving.lean ====
section
/-! DEFINITION. Stopping, saving and restoring friezes: when a stop is complete, the DRAIN of a pre-emption, what a save holds of each tile, and which friezes move together (R338, R340, R341, R393–R395, R399, R404, R423). -/

namespace Sys2Proof.Machine

/-! ### The stop is complete (R193, R194, R247, R394, R399) -/

/-- Whether station st issues no further word of the stop: the head has stopped; a station is held, stands at the trap word, has
issued EXIT, or has nothing left that can still reach it. -/
def Frieze.stationDone (f : Frieze) : Nat → Bool
  | 0 => f.stop != .no
  | st + 1 =>
    match f.stations[st + 1]? with
    | none => true
    | some x => f.standsStill (st + 1) || (f.stationDone st && decide (f.posOf st ≤ x.pos))

/-- Whether every station of a frieze has stopped. -/
def Frieze.allDone (f : Frieze) : Bool := f.stop.drains && (List.range f.len).all f.stationDone

/-- The requests a stop waits for: those of groups 0xA, 0xC and 0xD, LAUNCH and the monitor's. (DEDUCED: log entry 47) -/
def ReqKind.drained : ReqKind → Bool
  | .accsave .. | .accload .. | .master .. => false
  | k => !k.routing

/-- Whether nothing a stop waits for is outstanding: held scalar accesses, loads of maquettes, RATOM updates applied and not yet
reported, SABORTs, and the requests sent: a TXCOMMIT that a station has still to issue is none (R270, R274). (DEDUCED: log entry 47) -/
def requestsDone (s : State) (id : Nat) (f : Frieze) : Bool :=
  f.stations.all (fun x => x.pend.isEmpty && x.slots.toList.all fun k => (k.aborts.isEmpty || k.state != .running) && !(k.kind == .ratom && k.applied && k.state == .running)) &&
  s.reqs.vals.all (fun r => r.fz != id || !r.kind.drained || r.unsent s) &&
  (List.range f.len).all fun st => (s.tile (f.tileOf st)).ctxs.toList.all fun c => c.owner != some id || c.load.isNone

/-- Whether a frieze's stations have stopped and nothing is outstanding. (DEDUCED: log entry 47) -/
def stopDone (s : State) (id : Nat) : Bool :=
  match s.friezes.find id with
  | none => false
  | some f => f.allDone && requestsDone s id f

/-! ### The DRAIN of a pre-emption (R404, R423) -/

/-- The lane columns active under some contexts of a tile. -/
def Tile.laneCols (x : Tile) (k : Nat) : List Nat :=
  (x.colsOn k).filter fun c => match ((x.ctx k).maq.regionOf c).bind fun r => (x.ctx k).maq.regions[r]? with
    | some r => !r.systolic
    | none => false

/-- DRAINs injected at one tile for the active contexts of a frieze: into the ports its lane regions and out-port words read. -/
def drainTile (s : State) (id t : Nat) : State :=
  ((s.tile t).ctxsOf id).foldl (init := s) fun s k =>
    let x := s.tile t
    if (x.ctx k).state ≠ .active then s
    else
      let cols := x.laneCols k
      let s1 := injectMark s t k (((x.ctx k).maq.readPorts cols ++ x.directPorts k fun _ => true).dedup) cols .drain
      let outs := x.outAct.filterMap fun (o, j) => if j = k then some o else none
      s1.updTile t fun x => x.updCtx k fun c => { c with drains := if outs.isEmpty then c.drains else c.drains ++ [(outs, none)] }

/-- The pre-emption's DRAINs injected for a frieze; its streams deliver nothing more. (DEDUCED: log entry 45) -/
def drainFz (s : State) (id : Nat) : State :=
  match s.friezes.find id with
  | none => s
  | some f => (List.range f.len).foldl (fun s st => drainTile s id (f.tileOf st)) (s.updFz id fun f => { f with draining := true })

/-- The state an event leaves. -/
def after (r : Res) (s : State) : State := match r with
  | .next t => t
  | _ => s

/-- Whether nothing of a frieze's columns and out-port words on a tile can move: a DRAIN that has not left by then stands behind a
full out-port, and is saved in place with the tokens before it. -/
def tileStill (s : State) (id t : Nat) : Bool :=
  let x := s.tile t
  let ks := x.ctxsOf id
  (x.colsUnder ks).all (fun c =>
    (List.range 4).all (fun k => after (execOperatorFire t c k s) s == s && after (execAlignmentMarkerTaken t c k s) s == s) &&
    (List.range 16).all (fun l => after (execSystolicStep t l c s) s == s && after (execAccop t l c s) s == s) &&
    after (execControlBeatCheck t c s) s == s && after (execEmit t c s) s == s && after (execRegionMarkerTaken t c s) s == s) &&
  (x.outsUnder ks).all fun o => after (execOutportWordFire t o s) s == s

/-- Whether a frieze's regions have taken the DRAIN, or can move no further. -/
def drainDone (s : State) (id : Nat) : Bool :=
  match s.friezes.find id with
  | none => true
  | some f => (List.range f.len).all fun st => tileStill s id (f.tileOf st)

/-- What becomes of a pre-emption's DRAIN at a systolic region (R404, R423). -/
inductive DrainFate where
  /-- the region has taken it -/
  | taken
  /-- it stands at the named ports, held behind a full out-port -/
  | stands
  /-- it is not taken, and the region is saved where it stands without it -/
  | left
deriving DecidableEq, Repr

/-- Whether a DRAIN would head every named port of a tile's part of a region, and R159 would not fault it: no beat is ahead of it but
bare EOS markers, and the operation in progress needs no further word of a port. -/
def drainHeads (x : Tile) (q : SysAt) : Bool :=
  let ports := (q.w.inPorts (some q.r)).dedup
  let y := ports.foldl (fun y p => y.setIn p { y.inPort p with fifo := markBeat .drain }) x
  ports.all (fun p => (x.inPort p).fifo.all (fun b => isBareEos b.kind b.r.data) && (x.inPort p).waiting.isEmpty) &&
    q.run.ready && !(x.col q.r.first).stopped && !starved y q

/-- What becomes of the DRAIN at a tile's part of a systolic region, the fates of its west and north neighbours given (R159, R423).
(DEDUCED: log entry 45) -/
def drainHere (s : State) (t : Nat) (q : SysAt) (before : List DrainFate) : DrainFate :=
  let x := s.tile t
  if !drainHeads x q || before.contains .left then .left
  else if before.contains .stands || decide (64 ≤ (x.outPort q.w.out).length) then .stands
  else if x.opBusy q.r || accAtWork s t q.r then .left
  else .taken

/-- The same, the neighbours' fates found in so many rounds. -/
def drainFate (s : State) : Nat → Nat → SysAt → DrainFate
  | 0, _, _ => .left
  | n + 1, t, q =>
    let of (u g : Nat) : List DrainFate := match (s.tile u).sysAt g with
      | none => [.left]
      | some p => [drainFate s n u p]
    drainHere s t q ((if q.run.westEdge then [] else of (t - 1) 15) ++ if q.run.northEdge then [] else of (t - 32) q.r.first)

/-- The systolic regions of some friezes, by tile, with what becomes of their DRAINs. -/
def sysFates (s : State) (ids : List Nat) : List (Nat × SysAt × DrainFate) :=
  ids.flatMap fun id => match s.friezes.find id with
    | none => []
    | some f => (List.range f.len).flatMap fun st =>
        let t := f.tileOf st
        (s.tile t).sys.keys.filterMap fun c => match (s.tile t).sysAt c with
          | some q => if ((s.tile t).ctx q.k).owner = some id then some (t, q, drainFate s 64 t q) else none
          | none => none

/-- The DRAINs the systolic regions take, written to their OUTs; those that stand behind a full OUT, with what the neighbours have
forwarded of them. (DEDUCED: log entry 45) -/
def sysDrain (s : State) (ids : List Nat) : State :=
  let fs := sysFates s ids
  let took (u : Nat) (g : Nat) : List Tok := if fs.any fun (t, q, d) => t == u && q.r.first ≤ g && g ≤ q.r.last && d == .taken then [.drain] else []
  fs.foldl (init := s) fun s (t, q, d) =>
    let ports := (q.w.inPorts (some q.r)).dedup
    match d with
    | .left => s
    | .taken => (ports.foldl (fun s p => s.updPorts t fun x => x.setIn p ((x.inPort p).takeN p (x.inPort p).fifo.length)) s).pushOut t q.w.out (markBeat .drain)
    | .stands => (injectMark s t q.k ports [] .drain).updTile t fun x => x.updRun q.r.first fun r => { r with
        westMarks := r.westMarks ++ (if q.run.westEdge then [] else took (t - 1) 15)
        northMarks := r.northMarks ++ (if q.run.northEdge then [] else took (t - 32) q.r.first) }

/-! ### What a save holds of a tile (R340, R362, R404) -/

/-- The columns named by a frieze's LOADED or ACTIVE contexts or active under one. -/
def Tile.heldCols (x : Tile) (id : Nat) : List Nat :=
  (List.range 16).filter fun c =>
    (x.colsUnder (x.ctxsOf id)).contains c || x.ctxs.toList.any fun q => match q.owns with
      | some (o, m) => o == id && m.hasCol c
      | none => false

/-- The part of a table some keys name. -/
def Tab.part {α : Type} (t : Tab α) (p : Nat → Bool) : Tab α := t.filter fun e => p e.1

/-- What a frieze's station holds of its tile. (DEDUCED: log entry 46) -/
def saveTile (s : State) (id t : Nat) : TileSave :=
  let x := s.tile t
  let ks := x.ctxsOf id
  let cols := x.heldCols id
  let mine (p : Nat) : Bool := x.portOwner p == some id
  { inp := (List.range 32).filterMap fun p => if mine p then some (p, x.inPort p) else none
    outp := (List.range 32).filterMap fun p => if mine (32 + p) then some (p, x.outPort p) else none
    cfg := x.cfg.filter fun (_, c) => c.fz == id
    ctxs := ks.map fun k => (k, x.ctx k)
    cols := cols.map fun c => (c, x.col c)
    outAct := x.outAct.filter fun (_, k) => ks.contains k
    links := Tab.part x.links fun k => ks.contains (k / 2048)
    pend := Tab.part x.pend fun k => cols.contains (k / 4)
    ops := Tab.part x.ops fun k => cols.contains (k / 4)
    dqs := Tab.part x.dqs fun k => ks.contains (k / 64)
    acc := Tab.part x.acc fun k => cols.contains (k % 64 / 4)
    cells := Tab.part x.cells fun k => cols.contains (k % 16)
    sys := Tab.part x.sys fun k => cols.contains k
    member := x.member.filter fun (_, m) => m.2 == id
    routes := s.routes.filterMap fun (k, r) => if k / 32 = t ∧ r.isOf id then some (k % 32, (r.target, r.mc)) else none }

/-- The routes and memberships of a saved part, to be bound again by 32 · station + out-port and 512 + 32 · station + in-port (R362). -/
def TileSave.bound (v : TileSave) (st : Nat) : Tab (Dword × Bool) :=
  v.routes.map (fun (o, r) => (32 * st + o, r)) ++ v.member.map fun (i, m) => (512 + 32 * st + i, (BitVec.ofNat 64 m.1, false))

/-- What of a station's routes and memberships has still to be bound again, put into what its save holds. -/
def TileSave.withUnbound (v : TileSave) (id st : Nat) (rebind : Tab (Dword × Bool)) : TileSave :=
  { v with
    routes := v.routes ++ rebind.filterMap fun (k, r) => if k < 512 ∧ k / 32 = st then some (k % 32, r) else none
    member := v.member ++ rebind.filterMap fun (k, r) =>
      if 512 ≤ k ∧ (k - 512) / 32 = st then some (k % 32, (r.1.toNat, id)) else none }

/-- The tile once a frieze's part of it is saved: its contexts EMPTY, its columns idle, its ports empty and of no one.
(DEDUCED: log entry 46) -/
def Tile.leave (x : Tile) (id : Nat) : Tile :=
  let ks := x.ctxsOf id
  let mine (p : Nat) : Bool := x.portOwner p == some id
  let y := x.idle (x.colsUnder ks) (x.outsUnder ks) ks
  { y with
    inp := Vector.ofFn fun p => if mine p.val then { y.inp[p] with
        fifo := []
        promised := 0
        sent := []
        waiting := []
        flight := [] } else y.inp[p]
    outp := Vector.ofFn fun p => if mine (32 + p.val) then [] else y.outp[p]
    ctxs := y.ctxs.map fun c => if c.owner = some id then MaqCtx.reset else c
    cfg := y.cfg.filter fun (_, c) => c.fz != id
    member := y.member.filter fun (_, m) => m.2 != id }

/-- Two tables with keys apart joined. -/
def Tab.join {α : Type} (t u : Tab α) : Tab α := u.foldl (fun t e => t.put e.1 e.2) t

/-- A saved region that makes its handshakes again; its place stays. Where a neighbour has left the rectangle by a SWEEP, they stand as
made (R423). (DEDUCED: log entry 43) -/
def SysRun.again (r : SysRun) : SysRun := if r.left then r else { r with
  west := none
  north := none
  ready := false }

/-- A saved part put back on a tile, but for its memberships, which are bound again (R362). The handshakes of systolic regions are made
again (R423). A configuration of another frieze ends where the port passes to this one (R225); where both have configured a port of
no owner, the one put back stands. (DESIGN CHOICE: log entry 107) -/
def Tile.restore (x : Tile) (v : TileSave) : Tile :=
  let y := v.inp.foldl (fun y e => y.setIn e.1 e.2) x
  let y := v.outp.foldl (fun y e => y.setOut e.1 e.2) y
  let y := v.ctxs.foldl (fun y e => y.updCtx e.1 fun _ => e.2) y
  let y := v.cols.foldl (fun y e => y.updCol e.1 fun _ => e.2) y
  { y with
    cfg := Tab.join (y.cfg.filter fun (p, _) => !(v.inp.keys.contains p || v.outp.keys.any fun o => 32 + o == p)) v.cfg
    outAct := Tab.join y.outAct v.outAct
    links := Tab.join y.links v.links
    pend := Tab.join y.pend v.pend
    ops := Tab.join y.ops v.ops
    dqs := Tab.join y.dqs v.dqs
    acc := Tab.join (y.acc.filter fun (k, _) => !v.cols.keys.contains (k % 64 / 4)) v.acc
    cells := Tab.join y.cells v.cells
    sys := Tab.join y.sys (v.sys.map fun (k, r) => (k, r.again)) }

/-- Whether a running stream of a tile's resident friezes delivers to an in-port, or takes from an out-port from 32 on. -/
def State.portStreams (s : State) (t p : Nat) : Bool :=
  s.friezes.any fun (_, f) => f.state == .resident && decide (f.head ≤ t) &&
    match f.stations[t - f.head]? with
    | none => false
    | some x => x.slots.toList.any fun q => q.state == .running &&
        (if p < 32 then (q.kind.reads || q.kind == .recur) && q.inport == p
         else ((q.kind.takes || q.kind == .recur) && q.outport == p - 32) || (q.kind.indirect && q.idxport == p - 32))

/-- Whether a port of a tile, out-ports from 32 on, is idle and unowned: it holds nothing, promises nothing and no stream uses it
(R89, R340). (DEDUCED: log entry 96) -/
def State.portIdle (s : State) (t p : Nat) : Bool :=
  let x := s.tile t
  (x.portOwner p).isNone && !s.portStreams t p &&
    (if p < 32 then
      let q := x.inPort p
      q.fifo.isEmpty && q.promised == 0 && q.sent.isEmpty && q.waiting.isEmpty && q.flight.isEmpty
    else (x.outPort (p - 32)).isEmpty && (s.routes.find (32 * t + (p - 32))).all (·.host))

/-- Whether a tile has room for a saved part: its context numbers EMPTY, its columns and ports idle and unowned (R340). -/
def State.admits (s : State) (t : Nat) (v : TileSave) : Bool :=
  let x := s.tile t
  v.ctxs.keys.all (fun k => (x.ctx k).state == .empty) &&
  v.cols.keys.all (fun c => (x.activeOf c).isNone && x.ctxs.toList.all fun q => match q.owns with
    | some (_, m) => !m.hasCol c
    | none => true) &&
  v.inp.keys.all (fun p => s.portIdle t p) && v.outp.keys.all fun p => s.portIdle t (32 + p)

/-! ### Rectangle groups (R341) -/

/-- The systolic regions of a frieze's LOADED and ACTIVE contexts where it stands: tile, region and word, and whether the context is
ACTIVE. -/
def sysRegionsOf (s : State) (f : Frieze) (id : Nat) : List (Nat × Region × SysWord × Bool) :=
  (List.range f.len).flatMap fun st =>
    ((s.tile (f.tileOf st)).ctxs.toList.filter fun c => c.owner == some id && (c.state == .loaded || c.state == .active)).flatMap fun c =>
      c.maq.sys.filterMap fun (n, w) => (c.maq.regions[n]?).map fun r => (f.tileOf st, r, w, c.state == .active)

/-- Whether the first region's descriptor, sent east or south, matches the second. -/
def adjoins (a b : Nat × Region × SysWord × Bool) : Bool :=
  let q (x : Nat × Region × SysWord × Bool) : SysAt := ⟨0, 0, x.2.1, x.2.2.1, SysRun.reset⟩
  (a.2.1.east != 0 && b.1 == a.1 + 1 && descriptorMatches true (q a) (q b)) ||
    (a.2.1.south != 0 && b.1 == a.1 + 32 && descriptorMatches false (q a) (q b))

/-- The friezes not yet ended. -/
def State.living (s : State) : Tab Frieze := s.friezes.filter fun (_, f) => f.state != .ended

/-- Every region of a rectangle that a frieze of a job holds where it stands: the frieze and the region. -/
def sysNodes (s : State) (job : Nat) : List (Nat × Nat × Region × SysWord × Bool) :=
  s.living.flatMap fun (id, f) => if f.job = job ∧ f.save = [] then (sysRegionsOf s f id).map fun x => (id, x) else []

/-- The regions of one rectangle, from some of them on, in so many rounds. -/
def rectFrom (ns : List (Nat × Nat × Region × SysWord × Bool)) :
    Nat → List (Nat × Nat × Region × SysWord × Bool) → List (Nat × Nat × Region × SysWord × Bool)
  | 0, l => l
  | n + 1, l =>
    let more := ns.filter fun b => !l.contains b && l.any fun a => adjoins a.2 b.2 || adjoins b.2 a.2
    if more.isEmpty then l else rectFrom ns n (l ++ more)

/-- The rectangle group of a frieze (R341): the friezes of each rectangle it holds a region of where it stands, where a context of the
rectangle is ACTIVE; and those it was in a group with when it, or they, were saved. -/
def rectGroup (s : State) (id : Nat) : List Nat :=
  match s.friezes.find id with
  | none => [id]
  | some f =>
    let ns := sysNodes s f.job
    let here := (ns.filter (·.1 == id)).flatMap fun n =>
      let rect := rectFrom ns ns.length [n]
      if rect.any (·.2.2.2.2) then rect.map (·.1) else []
    let saved := s.living.filterMap fun (k, g) => if f.rect.contains k ∨ g.rect.contains id then some k else none
    (id :: here ++ saved).dedup

/-! ### Saving and resuming one frieze -/

/-- A frieze's array state, ports and routes saved, its tiles left. -/
def saveParts (s : State) (id : Nat) : State :=
  match s.friezes.find id with
  | none => s
  | some f =>
    let s := s.unsendFz id
    let saves := (List.range f.len).map fun st => (saveTile s id (f.tileOf st)).withUnbound id st f.rebind
    let s1 := s.updFz id fun f => { f with
      save := saves
      rect := rectGroup s id
      rebind := []
      draining := false
      reqs := f.reqs.map fun r => { r with tiles := (f.issuedOf r.lane).foldl (fun t st =>
        if t.keys.contains st then t else t.put st (f.tileOf st)) r.tiles } }
    let s2 := (List.range f.len).foldl (fun s st => s.updTile (f.tileOf st) (·.leave id)) s1
    { s2 with
      routes := s2.routes.filter fun (_, r) => !r.isOf id
      cur := if (s2.cur.map (·.fz)) = some id then none else s2.cur }

/-- The fetch buffer of a head tile discarded: the friezes that fetch there fetch again (R242, R382). -/
def dropFetched (s : State) (head : Nat) : State :=
  { s with friezes := s.friezes.map fun (id, f) =>
      match f.fetched with
      | [] => (id, f)
      | (i, _) :: _ => if f.head = head then (id, { f with
          fetched := []
          fetchIndex := i
          decoded := false }) else (id, f) }

/-- A saved frieze stands in a context again (R193, R292, R340, R362, R395, R404): its positions, counters and slots go on, reads not
yet delivered are sent again and holds count anew, its routes are to be bound again, results that came meanwhile are applied,
but to a frieze whose handler still runs only when it resumes (R403). A
request of group 0xB stays at its engine. -/
def resumeFz (s : State) (id head slot : Nat) : State :=
  match s.friezes.find id with
  | none => s
  | some f =>
    let s := s.unsendFz id
    let exiting := ((f.stations[0]?).map (·.exiting)).getD false
    let rebind : Tab (Dword × Bool) := f.save.zipIdx.flatMap fun (v, st) => v.bound st
    let s1 := f.save.zipIdx.foldl (fun s (v, st) => s.updTile (head + st) (·.restore v)) s
    let s2 := s1.updFz id fun f => { f with
      state := if f.state = .handled then .handled else .resident
      head := head
      ctx := slot
      stations := f.stations.map fun x => { x with
        stopped := false
        hold := 0
        slots := x.slots.map fun q => { q with
          early := []
          hold := s.cycles.toNat } }
      stop := if f.trap.isSome then .trap else if exiting then .exit else .no
      save := []
      rect := []
      frozen := false
      victimFor := none
      rebind := if f.save.isEmpty then f.rebind else rebind
      resumeAt := s.cycles.toNat
      startAt := 0 }
    let s3 := { s2 with reqs := s2.reqs.map fun (k, r) => (k, if r.fz = id ∧ !r.kind.routing then { r with tile := head + r.st } else r) }
    if f.state = .handled then dropFetched s3 head else applyLate (dropFetched s3 head) id

/-! ### Friezes that move together (R338, R341, R399) -/

/-- The friezes reached from some by a relation, in so many rounds. -/
def reached (s : State) (rel : Nat → Nat → Bool) : Nat → List Nat → List Nat
  | 0, ids => ids
  | n + 1, ids =>
    let more := s.living.keys.filter fun b => !ids.contains b && ids.any fun a => rel a b
    if more.isEmpty then ids else reached s rel n (ids ++ more)

/-- Whether two friezes are of one gang (R336). -/
def sameGang (s : State) (a b : Nat) : Bool :=
  match s.friezes.find a, s.friezes.find b with
  | some f, some g => f.kernel == g.kernel && ((s.kernels.find f.kernel).map fun k => k.stagger && !k.isHandler).getD false
  | _, _ => false

/-- Whether two friezes are a handler and the frieze it serves (R399). -/
def samePair (s : State) (a b : Nat) : Bool :=
  match s.friezes.find a with
  | some f => f.handler == some b || f.handlerOf == some b
  | none => false

/-- The friezes saved and resumed with a frieze, itself among them. -/
def unitOf (s : State) (id : Nat) : List Nat :=
  reached s (fun a b => sameGang s a b || samePair s a b || (rectGroup s a).contains b) s.friezes.length [id]

end Sys2Proof.Machine
end

