-- ==== Sys2Proof/Machine/WorkLists.lean ====
section
/-! DEFINITION. Group 0xD: work-lists, their requests and the home that serves them (R344–R349). -/

namespace Sys2Proof.Machine

/-- The id a g register names (R345). -/
def listId (g : Dword) : Nat := g.toNat % 4096

def execWlnew (h : Hdr) (a b : Reg) (s : State) : Res :=
  issueWord (.wlnew h a b) h s fun c s =>
    if formAddr (c.g b) % 8 ≠ 0 then .trap causeMisaligned (c.g b)
    else .done (c.request s (.wlnew (listId (c.g a)) (c.g b)) none) false

def execWlpush (h : Hdr) (a b : Reg) (s : State) : Res :=
  issueWord (.wlpush h a b) h s fun c s => .done (c.request s (.wlpush (listId (c.g a)) (c.g b)) none) false

def execWlpop (h : Hdr) (i : BitVec 5) (a : Reg) (n : BitVec 6) (s : State) : Res :=
  issueWord (.wlpop h i a n) h s fun c s =>
    if s.foreignPort c.tile i.toNat c.id then .trap causeProtection 0
    else .done (c.request s (.wlpop (listId (c.g a)) i.toNat (n.toNat + 1)) none) false

def execWlins (h : Hdr) (a b : Reg) (s : State) : Res :=
  issueWord (.wlins h a b) h s fun c s =>
    .done (c.request s (.wlins (listId (c.g a)) ((c.g b).setWidth 32)) none) false

def execWlcnt (h : Hdr) (a b : Reg) (s : State) : Res :=
  issueWord (.wlcnt h a b) h s fun c s =>
    if formAddr (c.g b) % 8 ≠ 0 then .trap causeMisaligned (c.g b)
    else .done (c.request s (.wlcnt (listId (c.g a)) (c.g b)) none) false

def execWlfree (h : Hdr) (a : Reg) (s : State) : Res :=
  issueWord (.wlfree h a) h s fun c s => .done (c.request s (.wlfree (listId (c.g a))) none) false

/-! ### The home -/

/-- A live work-list of a job. -/
def State.list? (s : State) (job id : Nat) : Option WorkList := (s.job? job).bind (·.worklists.find id)

/-- A work-list replaced. -/
def State.setList (s : State) (job id : Nat) (w : WorkList) : State :=
  s.updJob job fun j => { j with worklists := j.worklists.put id w }

/-- Bytes of an entry. -/
def WorkList.esz (w : WorkList) : Nat := if w.wide then 8 else 4
/-- Entries the resident area holds. -/
def WorkList.resRoom (w : WorkList) : Nat := 65536 / w.esz
/-- size(Q). -/
def WorkList.size (w : WorkList) : Nat := w.pushed - w.popped
/-- Entries held in SPILL: those after the resident ones (R344). -/
def WorkList.spilled (w : WorkList) : Nat := w.size - w.resRoom
/-- The address of entry n in RES, and in SPILL: each is a ring. (DESIGN CHOICE: log entry 49) -/
def WorkList.resAt (w : WorkList) (n : Nat) : Int := formAddr w.res + (n + Config.ringStart) % w.resRoom * w.esz
def WorkList.spillAt (w : WorkList) (n : Nat) : Int := formAddr w.spill + (n + Config.ringStart) % w.cap * w.esz

/-- The violation of a request the home refuses (R348). -/
def wlFault : Viol := ⟨causeWorklist, false⟩

/-- The checks of a descriptor's fields (R344, R348). -/
def wlDescOk (s : State) (job : Nat) (d0 res spill bitmap : Dword) : Bool :=
  let nb := ((s.job? job).map (·.banks.length)).getD 0
  d0.extractLsb' 32 32 != (0 : BitVec 32) && !d0.getLsbD 30 && d0.extractLsb' 9 15 == (0 : BitVec 15) &&
    decide ((d0.extractLsb' 24 6).toNat ≤ 32) && decide ((d0.extractLsb' 0 9).toNat < nb) &&
    formSpace res == spShared && decide (formAddr res % 128 = 0) &&
    formSpace spill == spGlobal && decide (formAddr spill % 128 = 0) &&
    (d0.extractLsb' 24 6 == (0 : BitVec 6) || bitmap != 0 && formSpace bitmap != spLocal)

/-- The first fault of a descriptor's addresses: of their forms, then of the resident area (R17, R182, R348). -/
def wlDescFault (s : State) (r : Req) (d0 res spill bitmap : Dword) : Option (Viol × Dword) :=
  let forms := if d0.extractLsb' 24 6 = (0 : BitVec 6) then [res, spill] else [res, spill, bitmap]
  match forms.findSome? fun f => (formCheck f).map fun v => (v, f) with
  | some e => some e
  | none =>
    if formSpace res ≠ spShared then none
    else match spaceCheck s r.job r.tile spShared (formAddr res) 65536 .write with
      | .error e => some (e, res)
      | .ok _ => none

/-- WLNEW at the home. -/
def homeNew (s : State) (k : Nat) (r : Req) (id : Nat) (desc : Dword) : State :=
  match rangeOf s r.job r.tile desc 32 .read with
  | .error e => s.failReq k e desc
  | .ok ps =>
    if s.anyBad ps then s.failReq k ⟨causePoison, false⟩ desc
    else
      let bs := s.gather ps
      let d (j : Nat) : Dword := bvOf 64 ((bs.drop (8 * j)).take 8)
      match wlDescFault s r (d 0) (d 1) (d 2) (d 3) with
      | some e => s.failReq k e.1 e.2
      | none =>
        if (s.list? r.job id).isSome || !wlDescOk s r.job (d 0) (d 1) (d 2) (d 3) then s.failReq k wlFault desc
        else (s.setList r.job id
          { cap := ((d 0).extractLsb' 32 32).toNat, wide := (d 0).getLsbD 31, kb := ((d 0).extractLsb' 24 6).toNat,
            home := ((d 0).extractLsb' 0 9).toNat, res := d 1, spill := d 2, bitmap := d 3, popped := 0, pushed := 0, bad := [] }).finishReq k
          ⟨none, none⟩

/-- What came of a part of a request at the home: the state after it, a request to be served again, or a fault with its address. -/
inductive Served where
  | ok (s : State) (w : WorkList)
  | again (s : State)
  | err (v : Viol) (form : Dword)
deriving DecidableEq, Repr

/-- The forwarding target a list's home is (R356). -/
def homeNode (s : State) (job : Nat) (w : WorkList) : Nat :=
  bankNode s.moduleId.toNat ((((s.job? job).bind (·.banks[w.home]?))).getD 0)

/-- An entry appended to Q: in RES while that has room, else in SPILL, which needs the home's forwarding slot (R344, R346, R356). -/
def appendEntry (s : State) (r : Req) (w : WorkList) (v : Dword) : Served :=
  let form := if w.size < w.resRoom then w.res else w.spill
  let a := if w.size < w.resRoom then w.resAt w.pushed else w.spillAt w.pushed
  let bs := (bytesOf v).take w.esz
  match storeElem s r.uid r.job r.tile View.zero form a bs with
  | .err e => .err e (formAt form a)
  | .wait s1 => .again s1
  | .done _ =>
    let g := if w.size < w.resRoom then (true, s) else s.forward (homeNode s r.job w) 0 r.uid
    if !g.1 then .again g.2
    else match storeElem g.2 r.uid r.job r.tile View.zero form a bs with
      | .done s1 => .ok s1 { w with pushed := w.pushed + 1 }
      | .wait s1 => .again s1
      | .err e => .err e (formAt form a)

/-- The first m entries of Q, each with whether it carries an uncorrectable error, or the fault of their addresses (R346). -/
def takeEntries (s : State) (r : Req) (w : WorkList) : Nat → Nat → Except (Viol × Dword) (List (Dword × Bool))
  | _, 0 => .ok []
  | n, m + 1 =>
    match fetchElem s r.job r.fz 0 r.tile View.zero w.res (w.resAt n) w.esz with
    | .err e => .error (e, formAt w.res (w.resAt n))
    | .wait => .ok []
    | .ok bs bad =>
      match takeEntries s r w (n + 1) m with
      | .error e => .error e
      | .ok es => .ok ((bvOf 64 bs, bad || w.bad.contains n) :: es)

/-- Entries moved from SPILL to RES, from number n on (R344). An entry that carries an uncorrectable error keeps it. -/
def moveEntries (s : State) (r : Req) (w : WorkList) : Nat → Nat → Served
  | _, 0 => .ok s w
  | n, m + 1 =>
    match fetchElem s r.job r.fz 0 r.tile View.zero w.spill (w.spillAt n) w.esz with
    | .err e => .err e (formAt w.spill (w.spillAt n))
    | .wait => .again s
    | .ok bs bad =>
      match storeElem s r.uid r.job r.tile View.zero w.res (w.resAt n) bs with
      | .err e => .err e (formAt w.res (w.resAt n))
      | .wait s1 => .again s1
      | .done s1 => moveEntries s1 r { w with bad := if bad then w.bad ++ [n] else w.bad } (n + 1) m

/-- What a request's part at the home comes to: the list as it is then and the rest of the request, or its fault (R348). -/
def Served.go (o : Served) (s : State) (k : Nat) (r : Req) (id : Nat) (fin : State → State) : State :=
  match o with
  | .ok s1 w => fin (s1.setList r.job id w)
  | .again s1 => s1
  | .err e form => s.failReq k e form

/-- An entry appended (R346). -/
def homePush (s : State) (k : Nat) (r : Req) (id : Nat) (w : WorkList) (v : Dword) : State :=
  if w.cap ≤ w.size then s.failReq k wlFault 0
  else (appendEntry s r w v).go s k r id fun s => s.finishReq k ⟨none, none⟩

/-- WLINS: the presence bit and the push are one step (R346). -/
def homeIns (s : State) (k : Nat) (r : Req) (id : Nat) (w : WorkList) (key : Word) : State :=
  if w.kb = 0 ∨ 2 ^ w.kb ≤ key.toNat then s.failReq k wlFault 0
  else
    let a : Int := formAddr w.bitmap + key.toNat / 8
    match elementCheck s r.job r.tile w.bitmap a 1 .write, fetchElem s r.job r.fz 0 r.tile View.zero w.bitmap a 1 with
    | .error e, _ => s.failReq k e (formAt w.bitmap a)
    | _, .err e => s.failReq k e (formAt w.bitmap a)
    | _, .wait => s
    | .ok p, .ok bs bad =>
      if bad then s.failReq k ⟨causePoison, false⟩ (formAt w.bitmap a)
      else
        let b : Byte := bs.headD 0
        if b.getLsbD (key.toNat % 8) then s.finishReq k ⟨none, none⟩
        else if w.cap ≤ w.size then s.failReq k wlFault 0
        else (appendEntry s r w (key.setWidth 64)).go s k r id fun s =>
          (s.putBytes p [b ||| (1#8 <<< (key.toNat % 8))]).finishReq k ⟨none, none⟩

/-- The beats of a batch: entries packed, the last beat zero-filled and marked; one bare EOS for no entry (R346). -/
def batchBeats (per : Nat) (esz : Nat) (es : List (Dword × Bool)) : Nat → List RawBeat
  | 0 => []
  | fuel + 1 =>
    let now := es.take per
    let rest := es.drop per
    { kind := if rest.isEmpty then kindEos else kindData
      data := bvOf 128 (now.flatMap fun e => (bytesOf e.1).take esz)
      side := 0
      poison := now.any (·.2) } :: (if rest.isEmpty then [] else batchBeats per esz rest fuel)

/-- WLPOP: the request is sent once the in-port has room for a whole batch; as many entries as it takes of Q move from SPILL to RES,
which needs the home's forwarding slot (R344, R346, R356). (DESIGN CHOICE: log entry 48) -/
def homePop (s : State) (k : Nat) (r : Req) (id : Nat) (w : WorkList) (port n : Nat) : State :=
  if ((s.tile r.tile).inPort port).free < (n * w.esz + 15) / 16 then s
  else
    let m := min n w.size
    match takeEntries s r w w.popped m with
    | .error e => s.failReq k e.1 e.2
    | .ok es =>
      let back := min m w.spilled
      match moveEntries s r w (w.popped + w.resRoom) back with
      | .err e form => s.failReq k e form
      | .again s1 => s1
      | .ok _ _ =>
        let g := if back = 0 then (true, s) else s.forward (homeNode s r.job w) 0 r.uid
        if !g.1 then g.2
        else (moveEntries g.2 r { w with
            popped := w.popped + m
            bad := w.bad.filter fun i => decide (w.popped + m ≤ i) } (w.popped + w.resRoom) back).go s k r id fun s =>
          ((if es.isEmpty then [RawBeat.bareEos] else batchBeats (16 / w.esz) w.esz es es.length).foldl
            (fun s b => s.enterPort r.tile port b) s).finishReq k ⟨none, none⟩

/-- The doubleword of WLCNT (R346). -/
def WorkList.counts (w : WorkList) : Dword := BitVec.ofNat 32 w.spilled ++ BitVec.ofNat 32 w.size

/-- WLCNT: its address first, then the list (R346, R348). -/
def homeCnt (s : State) (k : Nat) (r : Req) (w : Option WorkList) (a : Dword) : State :=
  match elementCheck s r.job r.tile a (formAddr a) 8 .write, w with
  | .error e, _ => s.failReq k e a
  | .ok _, none => s.failReq k wlFault 0
  | .ok _, some w =>
    match storeElem s r.uid r.job r.tile View.zero a (formAddr a) (bytesOf w.counts) with
    | .err e => s.failReq k e a
    | .wait s1 => s1
    | .done s1 => s1.finishReq k ⟨none, none⟩

/-- The list a work-list request names; none for a request of another kind. -/
def ReqKind.listId : ReqKind → Option Nat
  | .wlnew id _ | .wlpush id _ | .wlpop id _ _ | .wlins id _ | .wlcnt id _ | .wlfree id => some id
  | _ => none

/-- WORKLIST_HOME_SERVE: the home serves one request (R344, R346, R348). -/
def execWorklistHomeServe (req : Nat) (s : State) : Res :=
  .next (match s.reqs.find req with
    | none => s
    | some r =>
      if !r.waits.isEmpty || r.behind s req then s
      else match r.kind with
        | .wlnew id desc => homeNew s req r id desc
        | .wlpush id v => (match s.list? r.job id with
          | some w => homePush s req r id w v
          | none => s.failReq req wlFault 0)
        | .wlpop id port n => (match s.list? r.job id with
          | some w => homePop s req r id w port n
          | none => s.failReq req wlFault 0)
        | .wlins id key => (match s.list? r.job id with
          | some w => homeIns s req r id w key
          | none => s.failReq req wlFault 0)
        | .wlcnt id a => homeCnt s req r (s.list? r.job id) a
        | .wlfree id => (match s.list? r.job id with
          | some _ => (s.updJob r.job fun j => { j with worklists := j.worklists.del id }).finishReq req ⟨none, none⟩
          | none => s.failReq req wlFault 0)
        | _ => s)

end Sys2Proof.Machine
end

