-- ==== Sys2Proof/Machine/Scheduling.lean ====
section
/-! DEFINITION. Queues, records, candidates, placement, pre-emption, triggers and kernel ends (R239, R240, R265, R329–R342, R384). -/

namespace Sys2Proof.Machine

/-! ### Records (R330–R333) -/

/-- Whether sequence number a lies below b, modulo 2^32. -/
def seqBefore (a b : Word) : Bool := a != b && (b - a).toNat < 2 ^ 31

/-- The launch record at a sequence number of a queue. -/
def recordAt (s : State) (q : Queue) (seq : Word) : List Dword :=
  (List.range 8).map fun j => s.hbm.read64 (q.base + 64 * (seq.toNat % 2 ^ q.cap) + 8 * j)

/-- A launch queue. -/
def State.queue (s : State) (n : Nat) : Queue := (s.queues.find n).getD Queue.reset
/-- A launch queue changed. -/
def State.updQueue (s : State) (n : Nat) (g : Queue → Queue) : State := { s with queues := s.queues.put n (g (s.queue n)) }

/-- A record, decoded (R331). -/
structure Record where
  entry : BitVec 52
  early : Bool
  txn : Bool
  snapshot : Bool
  stagger : Bool
  ord : Bool
  f : Nat
  l : Nat
  sstep : Nat
  arg : Dword
  preds : List Dword
  /-- every RSVD bit of dwords 0, 1 and 3 is zero -/
  plain : Bool
deriving DecidableEq, Repr

/-- The fields of a record. -/
def Record.of (ds : List Dword) : Record :=
  let d (k : Nat) : Dword := ds[k]?.getD 0
  { entry := (d 0).extractLsb' 12 52, early := (d 0).getLsbD 4, txn := (d 0).getLsbD 3, snapshot := (d 0).getLsbD 2,
    stagger := (d 0).getLsbD 1, ord := (d 0).getLsbD 0, f := ((d 1).extractLsb' 32 32).toNat, l := ((d 1).extractLsb' 27 5).toNat,
    sstep := ((d 1).extractLsb' 23 4).toNat, arg := d 2, preds := (ds.drop 4).take 4,
    plain := (d 0).extractLsb' 5 7 == 0 && (d 1).extractLsb' 0 23 == 0 && (d 3).extractLsb' 16 48 == 0 }

/-- A predecessor word: EARLY, queue and sequence number. -/
def predOf (w : Dword) : Bool × Nat × Word := (w.getLsbD 62, (w.extractLsb' 32 16).toNat, w.extractLsb' 0 32)

/-- The predecessors a record names. -/
def Record.named (r : Record) : List (Bool × Nat × Word) := (r.preds.filter fun w => w.getLsbD 63).map predOf

/-- Whether a record's fields are those R332 requires. -/
def Record.ok (r : Record) : Bool :=
  r.plain && r.f != 0 && decide (1 ≤ r.l) && decide (r.l ≤ 16) && !(r.snapshot && r.txn) && (r.stagger || r.sstep == 0) &&
  r.preds.all (fun w => if w.getLsbD 63 then w.extractLsb' 48 14 == (0 : BitVec 14) else w == 0) &&
  r.early == r.named.any (·.1)

/-- Whether a span of a partition is there. -/
def Job.hasSpan (j : Job) (head l : Nat) : Bool := j.partition.contains (head, l)

/-- The heads of a partition's spans of a length, ascending. -/
def Job.heads (j : Job) (l : Nat) : List Nat :=
  (List.range 1024).filter fun h => j.hasSpan h l

/-- Whether a partition has a column of n spans of a length from a head down. -/
def Job.column (j : Job) (l head n : Nat) : Bool := decide (n ≤ 32) && (List.range n).all fun y => j.hasSpan (head + 32 * y) l

/-- Whether a sequence number of a queue is one not yet appended (R333). -/
def Queue.future (q : Queue) (t : Word) : Bool := decide ((t - q.appended).toNat < 2 ^ 31)

/-- Whether a predecessor of a record has been refused, or discarded by QUEUE_RESET (R332, R387). -/
def predRefused (s : State) (r : Record) : Bool := r.named.any fun (_, p, t) => !(s.queue p).future t && (s.queue p).refused.contains t

/-- Why the record at the front of a queue is refused (R332). (DEDUCED: log entry 16) -/
def refusal (s : State) (n : Nat) (q : Queue) (j : Nat) (r : Record) : Option Nat :=
  let job := (s.job? j).getD (Job.reset 0 0)
  if !r.ok then some 1
  else if (job.heads r.l).isEmpty || (r.stagger && !(job.heads r.l).any fun h => job.column r.l h r.f) then some 2
  else if r.named.any fun (_, p, t) => (s.queue p).job != some j || (p == n && decide ((t - q.started).toNat < 2 ^ 31)) then some 3
  else if predRefused s r then some 4
  else if (r.snapshot || r.txn) && (s.dom? j q.vdom).isNone then some 5
  else none

/-- Whether an appended sequence number of a queue has ended: it is below DONE, or its bit in DONE's mask is set (R329, R333). -/
def Queue.hasEnded (q : Queue) (t : Word) : Bool :=
  decide ((q.appended - q.done).toNat ≤ (t - q.done).toNat) ||
    (t != q.done && decide ((t - q.done).toNat ≤ 64) && q.doneMask.getLsbD ((t - q.done).toNat - 1))

/-- Whether every frieze of a started kernel has triggered, or has gone (R240, R333). -/
def kernelTriggered (s : State) (k : Nat) (q : Kernel) : Bool :=
  decide (q.f ≤ q.exited + (s.friezes.filter fun (_, f) => f.kernel == k && f.state != .ended && f.triggered).length)

/-- Whether a predecessor is satisfied. -/
def predSatisfied (s : State) (p : Bool × Nat × Word) : Bool :=
  let q := s.queue p.2.1
  !q.future p.2.2 &&
    (q.hasEnded p.2.2 || (p.1 && s.kernels.any fun (k, x) => !x.isHandler && x.queue == p.2.1 && x.seq == p.2.2 && kernelTriggered s k x))

/-- The record at STARTED of a queue with its queue's job, where there is one. -/
def frontRecord (s : State) (n : Nat) : Option (Queue × Nat × Record) :=
  let q := s.queue n
  match q.job with
  | none => none
  | some j => if q.started = q.appended then none else some (q, j, Record.of (recordAt s q q.started))

/-- Whether the domain of a SNAPSHOT or TXN launch has room for what its start takes (R257, R265). (DEDUCED: log entry 15) -/
def launchRoom (s : State) (j : Nat) (q : Queue) (r : Record) : Bool :=
  match s.dom? j q.vdom with
  | none => true
  | some d => !(r.snapshot || r.txn) || (decide (d.regCount + r.f ≤ 16384) && (!r.txn || decide (d.recs.length < 4096)))

/-- Whether a queue's front record can start, but for its place (R333, R378). (DEDUCED: log entry 15) -/
def recordReady (s : State) (n : Nat) : Bool :=
  match frontRecord s n with
  | none => false
  | some (q, j, r) =>
    q.enable && !q.frozen && !s.standby && (q.started - q.done).toNat < 64 && q.verdict == some 0 && !predRefused s r &&
      r.named.all (predSatisfied s) && launchRoom s j q r

/-! ### The end of a record (R334, R337) -/

/-- DONE and its mask with a bit for every number that has ended, DONE at the lowest that has not. -/
def advanceDone : Nat → Word → BitVec 64 → Word × BitVec 64
  | 0, d, m => (d, m)
  | n + 1, d, m => if m.getLsbD 0 then advanceDone n (d + 1) (m >>> 1) else (d, m)

/-- A sequence number ends: DONE advances (R329, R337). -/
def Queue.end_ (q : Queue) (t : Word) : Queue :=
  if t = q.done then
    -- bit 0 of the mask stands for DONE + 1, which is the next DONE
    let r := advanceDone 64 (q.done + 1) q.doneMask
    { q with
      done := r.1
      doneMask := r.2 >>> 1 }
  else { q with doneMask := q.doneMask ||| (1#64 <<< ((t - q.done).toNat - 1)) }

/-- A completion entry written, and DONE advanced (R334). -/
def completeRecord (s : State) (n : Nat) (seq : Word) (txcode : Nat) (cause : BitVec 8) (state : Nat) (cnum : BitVec 48) : State :=
  let q := s.queue n
  let d0 : Dword := seq ++ BitVec.ofNat 8 txcode ++ cause ++ BitVec.ofNat 16 state
  let d1 : Dword := cnum ++ (0 : BitVec 16)
  (s.putBytes ⟨.hbm, q.cbase + 16 * (seq.toNat % 2 ^ q.cap), none⟩ (bytesOf d0 ++ bytesOf d1)).updQueue n (·.end_ seq)

/-- The record at STARTED leaves the front of its queue. -/
def Queue.pass (q : Queue) : Queue := { q with
  started := q.started + 1
  verdict := none }

/-- A record takes the next sequence number: what was said of an earlier record of that number is forgotten (R330, R332). -/
def Queue.append (q : Queue) : Queue := { q with
  appended := q.appended + 1
  refused := q.refused.filter (· != q.appended) }

/-- A sequence number refused, kept while its dependants may name it (R332, R333). -/
def Queue.refuse (q : Queue) (t : Word) : Queue := { q with refused := (q.refused.filter fun u => !q.future u) ++ [t] }

/-- RECORD_CHECK: a record is checked once, when it comes to the front of its queue, and refused later only where a predecessor it
waits for is. A refused one ends once the mask of DONE has a place for its number (R329, R332). (DEDUCED: log entry 16) -/
def execRecordCheck (queue : Nat) (s : State) : Res :=
  .next (match frontRecord s queue with
    | none => s
    | some (q, j, r) =>
      let c := if q.verdict = some 0 then (if predRefused s r then 4 else 0) else q.verdict.getD ((refusal s queue q j r).getD 0)
      if c = 0 ∨ 64 ≤ (q.started - q.done).toNat then s.updQueue queue fun q => { q with verdict := some c }
      else completeRecord (s.updQueue queue fun q => (q.refuse q.started).pass) queue q.started 0 (BitVec.ofNat 8 c) 2 0)

/-! ### Candidates (R335, R339) -/

/-- The priority of a frieze: that of its kernel. -/
def State.prioOf (s : State) (f : Frieze) : Nat := ((s.kernels.find f.kernel).map (·.prio)).getD 0

/-- Whether a frieze waits to be placed again. -/
def Frieze.waiting (f : Frieze) : Bool := f.state == .suspended

/-- Whether a unit's members that are not resident all wait, so that it can be placed. -/
def unitWaits (s : State) (ids : List Nat) : Bool :=
  ids.all fun a => match s.friezes.find a with
    | some f => f.state == .suspended || f.state == .resident ||
        (f.state == .handled && (f.handler.bind fun h => (s.friezes.find h).map fun g => g.state == .suspended || g.state == .resident).getD false)
    | none => true

/-- Whether a frieze is the first suspended member of its unit, and the unit waits. -/
def leadsUnit (s : State) (id : Nat) : Bool :=
  let ids := unitOf s id
  unitWaits s ids && ids.all fun a => decide (id ≤ a) || !((s.friezes.find a).map Frieze.waiting).getD false

/-- Whether a frieze stands in no context, or is being saved to leave its own. (DEDUCED: log entry 13) -/
def Frieze.unplaced (f : Frieze) : Bool :=
  f.state == .suspended || f.state == .frozen || (f.state == .handled && !f.save.isEmpty) ||
    (f.state == .resident && (f.stop == .preempt || f.stop == .yield))

/-- Whether an unfinished frieze of a kernel with a FRIEZE_ID below n is not placed (R335, R339). -/
def lowerUnplaced (s : State) (k : Nat) (n : Word) : Bool :=
  s.friezes.any fun (_, f) => f.kernel == k && f.id.toNat < n.toNat && f.unplaced

/-- The candidates of one kernel in order: its suspended friezes, then its next new one. -/
def kernelCands (s : State) (k : Nat) (q : Kernel) : List Cand :=
  let own := s.friezes.filter fun (id, f) => f.kernel == k && f.waiting && f.handlerOf.isNone && leadsUnit s id &&
    !(q.ord && lowerUnplaced s k f.id)
  own.map (fun (id, _) => Cand.frieze id) ++
    (if !q.isHandler && !q.stagger && decide (q.nextId < q.f) && !(q.ord && lowerUnplaced s k (BitVec.ofNat 32 q.nextId)) then [.kernel k q.nextId] else [])

/-- The ready queues of a priority, round-robin from a position on. -/
def readyQueues (s : State) (p : Nat) : List Nat :=
  let qs := Tab.keys (s.queues.filter fun (n, q) => q.prio == p && recordReady s n)
  let last := (s.rr.toList[p]?).getD 65535
  qs.filter (last < ·) ++ qs.filter (· ≤ last)

/-- Every candidate in the combined order of R335. -/
def cands (s : State) : List Cand :=
  (s.friezes.filter fun (id, f) => f.waiting && f.handlerOf.isSome && leadsUnit s id).map (fun (id, _) => Cand.frieze id) ++
    (List.range 8).reverse.flatMap fun p =>
      (s.kernels.filter fun (_, q) => q.prio == p).flatMap (fun (k, q) => kernelCands s k q) ++ (readyQueues s p).map fun n => Cand.record n (s.queue n).started

/-- The job, priority and span length of a candidate. -/
def candOf (s : State) : Cand → Option (Nat × Nat × Nat)
  | .frieze id => (s.friezes.find id).map fun f => (f.job, s.prioOf f, f.len)
  | .kernel k _ => (s.kernels.find k).map fun q => (q.job, q.prio, q.l)
  | .record n _ => (frontRecord s n).map fun (q, j, r) => (j, q.prio, r.l)

/-! ### Places (R336, R338, R340, R341) -/

/-- Whether a context slot of a head holds a resident frieze. -/
def State.ctxBusy (s : State) (head slot : Nat) : Bool :=
  s.friezes.any fun (_, f) => f.head == head && f.ctx == slot && (f.state == .resident || f.state == .handled && f.save.isEmpty)

/-- Whether a candidate that a context was freed for still waits. (DEDUCED: log entry 14) -/
def stillWaits (s : State) : Cand → Bool
  | .frieze id => ((s.friezes.find id).map Frieze.waiting).getD false
  | .kernel k n => ((s.kernels.find k).map fun q => q.nextId == n && decide (n < q.f)).getD false
  | .record n seq => (s.queue n).started == seq && recordReady s n

/-- Whether a context slot is free and open to a candidate. (DEDUCED: log entry 14) -/
def openTo (s : State) (c : Cand) (head slot : Nat) : Bool :=
  !s.ctxBusy head slot &&
  (match s.reserved.find (4 * head + slot) with
    | none => true
    | some d => d == c || !stillWaits s d)

/-- What has to be placed: the frieze, if it exists already, its place relative to the first member (columns, rows), its length,
and the parts it holds of its tiles. -/
structure Member where
  id : Option Nat
  dx : Int
  dy : Int
  l : Nat
  parts : List TileSave
deriving DecidableEq, Repr

/-- Tile coordinates. -/
def tileX (t : Nat) : Int := ((t % 32 : Nat) : Int)
def tileY (t : Nat) : Int := ((t / 32 : Nat) : Int)

/-- The head of a member when the first one's head is h; none off the module. -/
def Member.headAt (m : Member) (h : Nat) : Option Nat :=
  let x := tileX h + m.dx
  let y := tileY h + m.dy
  if 0 ≤ x ∧ x < 32 ∧ 0 ≤ y ∧ y < 32 then some (32 * y.toNat + x.toNat) else none

/-- The members of a candidate, whether they need one die, the head of the first where members that still stand fix it, and whether
it takes a column of R336. -/
structure Plan where
  members : List Member
  oneDie : Bool
  fixed : Option Nat
  gang : Bool
deriving DecidableEq, Repr

/-- A suspended unit's plan. A handler stands in for the frieze it serves. -/
def unitPlan (s : State) (id : Nat) : Option Plan :=
  match s.friezes.find id with
  | none => none
  | some f0 =>
    let ids := unitOf s id
    let ms := ids.filterMap fun a => match s.friezes.find a with
      | some f => if f.waiting then
          some { id := some a, dx := tileX f.head - tileX f0.head, dy := tileY f.head - tileY f0.head, l := f.len,
                 parts := f.save ++ ((f.handlerOf.bind s.friezes.find).map (·.save)).getD [] : Member }
        else none
      | none => none
    let stands := ids.any fun a => match s.friezes.find a with
      | some f => f.state == .resident
      | none => false
    some ⟨ms, decide (1 < (rectGroup s id).length), if stands then some f0.head else none, sameGang s id id⟩

/-- The plan of a candidate. -/
def planOf (s : State) : Cand → Option Plan
  | .frieze id => unitPlan s id
  | .kernel k _ => (s.kernels.find k).map fun q => ⟨[⟨none, 0, 0, q.l, []⟩], false, none, false⟩
  | .record n _ => (frontRecord s n).map fun (_, _, r) =>
      if r.stagger then ⟨(List.range r.f).map fun y => ⟨none, 0, (y : Int), r.l, []⟩, false, none, true⟩
      else ⟨[⟨none, 0, 0, r.l, []⟩], false, none, false⟩

/-- Whether the tiles of a span have room for what a member holds of its tiles. -/
def roomFor (s : State) (m : Member) (head : Nat) : Bool :=
  m.parts.zipIdx.all fun (v, i) => s.admits (head + i % m.l) v

/-- A place for every member with the first one's head at h, slots by slots; none if one has no free context. -/
def placeAll (s : State) (c : Cand) (j : Job) (h : Nat) : List Member → List (Nat × Nat) → Option (List (Nat × Nat))
  | [], done => some done
  | m :: ms, done =>
    match m.headAt h with
    | none => none
    | some g =>
      if !j.hasSpan g m.l || !roomFor s m g then none
      else match (List.range 4).find? fun k => openTo s c g k && !done.contains (g, k) with
        | none => none
        | some k => placeAll s c j h ms (done ++ [(g, k)])

/-- Whether places lie on one die. -/
def onOneDie (ps : List (Nat × Nat)) : Bool :=
  match ps with
  | [] => true
  | p :: _ => ps.all fun q => dieOf q.1 == dieOf p.1

/-- The places of a candidate's members, first-fit; none if it cannot be placed now. -/
def tryPlace (s : State) (c : Cand) : Option (List (Nat × Nat)) :=
  match candOf s c, planOf s c with
  | some (j, _, _), some p =>
    match s.job? j, p.members with
    | some job, m :: _ =>
      let hs := match p.fixed with
        | some h => [h]
        | none => job.heads m.l
      hs.findSome? fun h => (placeAll s c job h p.members []).bind fun ps => if p.oneDie && !onOneDie ps then none else some ps
    | _, _ => none
  | _, _ => none

/-- What the scheduler starts or places in this c-cycle (R335). -/
def chosen (s : State) : Option (Cand × List (Nat × Nat)) := (cands s).findSome? fun c => (tryPlace s c).map fun ps => (c, ps)

/-- A candidate's reservations given up. (DEDUCED: log entry 14) -/
def unreserve (s : State) (c : Cand) : State := { s with reserved := s.reserved.filter fun (_, d) => d != c }

/-! ### Starting and placing (R24, R265, R335, R336) -/

/-- The key under which a kernel holds the registrations of its friezes that are not placed yet. (DESIGN CHOICE: log entry 17) -/
def kernelReg (k : Nat) : Nat := 2 ^ 40 + k

/-- A new frieze of a kernel in a context. -/
def newFrieze (k : Nat) (q : Kernel) (n : Nat) (head slot startAt no : Nat) : Frieze :=
  { job := q.job, kernel := k, id := BitVec.ofNat 32 n, head := head, ctx := slot, state := .resident, entry := q.entry, arg := q.arg,
    stations := List.replicate q.l (Station.launch q.entry q.v0), fetchIndex := q.entry, fetched := [], decoded := false, lane := [],
    laneBase := 0, vote := none, reqs := [], stop := .no, trap := none, skip := none, sampling := false, triggered := false,
    handlerOf := none, handler := none, resuming := none, victimFor := none, image := none, save := [], startAt := startAt,
    frozen := false, draining := false, freezeRec := none, rebind := [], rect := [], resumeAt := 0, placedNo := no }

/-- The next frieze of a kernel placed. -/
def placeNew (s : State) (k head slot startAt : Nat) : State :=
  match s.kernels.find k with
  | none => s
  | some q =>
    let id := s.serial
    let s1 := dropFetched s head
    let s2 := { s1 with
      friezes := s1.friezes.put id (newFrieze k q q.nextId head slot startAt s.serial)
      kernels := s1.kernels.put k { q with nextId := q.nextId + 1 } }.bump
    let s3 := bindHostRoutes s2 q.job head q.l
    if q.snapshot || q.txn then s3.updDom q.job q.vdom fun d => d.passReg (kernelReg k) id else s3

/-- A record starts: its kernel, and what SNAPSHOT or TXN takes. -/
def startKernel (s : State) (n : Nat) (q : Queue) (j : Nat) (r : Record) : State × Nat :=
  let k := s.serial
  let s1 := { s.updQueue n (·.pass) with
    rr := if h : q.prio < 8 then s.rr.set q.prio n h else s.rr }.bump
  let d := s1.dom? j q.vdom
  let pub := (d.map (·.published)).getD 0
  let t := if r.txn then ((d.map fun d => firstFree d.recs 1 4097)).getD 0 else 0
  let v0 : View := if r.snapshot then ⟨pub, false, true, false, 0⟩
    else if r.txn then ⟨pub, true, true, false, BitVec.ofNat 24 t⟩ else View.launch
  let s2 := if r.snapshot || r.txn then s1.updDom j q.vdom fun d => { d with
      regs := d.regs ++ [⟨kernelReg k, 0, pub, false, r.f⟩]
      recs := if r.txn then d.recs.put t (newRec pub none (some k)) else d.recs } else s1
  let kern : Kernel :=
    { queue := n, seq := q.started, job := j, prio := q.prio, vdom := q.vdom, entry := r.entry, f := r.f, l := r.l, ord := r.ord,
      stagger := r.stagger, snapshot := r.snapshot, txn := r.txn, sstep := r.sstep, arg := r.arg, nextId := 0, exited := 0,
      cause := 0, byHandler := false, v0 := v0, txid := t, startNo := k, isHandler := false }
  ({ s2 with kernels := s2.kernels.put k kern }, k)

/-- RECORD_START: the record at the front of a queue starts with its first frieze, or its gang, placed. -/
def execRecordStart (queue : Nat) (s : State) : Res :=
  .next (if recordReady s queue then
      match chosen s, frontRecord s queue with
      | some (.record n seq, ps), some (q, j, r) =>
        if n ≠ queue then s
        else
          let p := startKernel s queue q j r
          let t0 := s.cycles.toNat + 1
          unreserve (ps.zipIdx.foldl (fun s (pl, y) => placeNew s p.2 pl.1 pl.2 (if r.stagger then t0 + y * (r.sstep + 1) else 0)) p.1)
            (.record queue seq)
      | _, _ => s
    else s)

/-- A unit placed again: the friezes handlers serve come with their handlers. -/
def placeUnit (s : State) (ms : List Member) (ps : List (Nat × Nat)) : State :=
  (ms.zip ps).foldl (init := s) fun s (m, p) => match m.id with
    | none => s
    | some id =>
      let served := (s.friezes.find id).bind (·.handlerOf)
      let s1 := match served with
        | some v => resumeFz s v p.1 p.2
        | none => s
      resumeFz s1 id p.1 p.2

/-- PLACE_FRIEZE: a suspended frieze (with its unit) resumes, or the next frieze of a kernel is placed (number 2^32 + kernel), if
the scheduler chooses it; routes of a resumed frieze are bound again. -/
def execPlaceFrieze (fz : Nat) (s : State) : Res :=
  .next (
    let own := decide (fz < 2 ^ 32)
    let c : Cand := if own then .frieze fz
      else .kernel (fz - 2 ^ 32) (((s.kernels.find (fz - 2 ^ 32)).map (·.nextId)).getD 0)
    match s.friezes.find fz with
    | some f => if own && f.state == .resident then rebindRoutes s fz else go own c
    | none => go own c)
where
  /-- the candidate is placed if it is the one chosen -/
  go (own : Bool) (c : Cand) : State :=
    match chosen s with
    | none => s
    | some (d, ps) =>
      if d ≠ c then s
      else if own then
        match planOf s c with
        | some p => unreserve (placeUnit s p.members ps) c
        | none => s
      else match ps with
        | (h, k) :: _ => unreserve (placeNew s (fz - 2 ^ 32) h k 0) c
        | [] => s

/-! ### Pre-emption (R338, R341, R342, R404) -/

/-- The lowest-indexed unfinished frieze of an ORD kernel. -/
def leadsOrd (s : State) (f : Frieze) : Bool :=
  ((s.kernels.find f.kernel).map (·.ord)).getD false &&
    !s.friezes.any fun (_, g) => g.kernel == f.kernel && g.state != .ended && g.id.toNat < f.id.toNat

/-- Whether a frieze by itself may be taken for a candidate of a priority. -/
def takeable (s : State) (prio : Nat) (f : Frieze) : Bool :=
  f.state == .resident && decide (s.prioOf f < prio) && (f.stop == .no || f.stop == .exit) && f.handlerOf.isNone && f.handler.isNone &&
    !leadsOrd s f

/-- Whether a frieze is eligible for a candidate of a job, length and priority: with its whole unit (R338). -/
def eligible (s : State) (j l prio id : Nat) : Bool :=
  match s.friezes.find id, s.job? j with
  | some f, some job =>
    f.job == j && f.len == l && job.hasSpan f.head l && (unitOf s id).all fun a => ((s.friezes.find a).map (takeable s prio)).getD false
  | _, _ => false

/-- Whether frieze a is younger than frieze b: of a later kernel, or of a higher FRIEZE_ID. -/
def younger (s : State) (a b : Nat) : Bool :=
  match s.friezes.find a, s.friezes.find b with
  | some f, some g => decide (g.kernel < f.kernel) || (f.kernel == g.kernel && decide (g.id.toNat < f.id.toNat))
  | _, _ => false

/-- The youngest of some friezes. -/
def youngest (s : State) : List Nat → Option Nat
  | [] => none
  | a :: rest => match youngest s rest with
    | none => some a
    | some b => some (if younger s a b then a else b)

/-- The friezes pre-empted for a candidate that no free context serves. A candidate of several members takes the first place whose
spans each hold a free context or an eligible frieze. -/
def victims (s : State) (c : Cand) : List Nat :=
  match candOf s c, planOf s c with
  | some (j, prio, l), some p =>
    let all := s.living.keys.filter fun id => eligible s j l prio id
    match s.job? j with
    | none => []
    | some job =>
      if p.members.length ≤ 1 ∧ !p.gang then (youngest s all).toList
      else
        let free (g : Nat) : Bool := (List.range 4).any fun k => openTo s c g k
        let here (g : Nat) : List Nat := all.filter fun id => ((s.friezes.find id).map (·.head)) == some g
        let hs := match p.fixed with
          | some h => [h]
          | none => job.heads l
        (hs.findSome? fun h =>
          let gs := p.members.map fun m => (m.headAt h).getD 2048
          if p.members.all (fun m => match m.headAt h with
              | some g => job.hasSpan g m.l && (free g || !(here g).isEmpty)
              | none => false)
          then some ((gs.filter fun g => !free g).filterMap fun g => youngest s (here g)) else none).getD []
  | _, _ => []

/-- Whether a candidate has a pre-emption under way, or a context freed for it. -/
def served (s : State) (c : Cand) : Bool :=
  s.friezes.any (fun (_, f) => f.victimFor == some c && f.state == .resident) || s.reserved.any fun (_, d) => d == c

/-- A frieze's head stopped to be pre-empted, with its whole unit. -/
def stopUnit (s : State) (id : Nat) (why : Stop) (c : Option Cand) : State :=
  (unitOf s id).foldl (init := s) fun s a => s.updFz a fun f =>
    if f.state = .resident ∧ (f.stop = .no ∨ f.stop = .exit) then { f with
      stop := why
      victimFor := if a = id then c else none } else f

/-- The candidate a frieze is to be pre-empted for now. -/
def wantedBy (s : State) (id : Nat) : Option (Cand × List Nat) :=
  (cands s).findSome? fun c =>
    if (tryPlace s c).isSome || served s c then none
    else let vs := victims s c; if vs.contains id then some (c, vs) else none

/-- The state of a frieze once it is saved: frozen, with its record, or suspended (R378, R379). -/
def settleSaved (s : State) (id : Nat) : State :=
  match s.friezes.find id with
  | none => s
  | some f =>
    if f.state = .handled then s
    else if f.frozen then
      let s1 := s.updFz id fun f => { f with
        state := .frozen
        freezeRec := none }
      match f.freezeRec with
      | some (cause, addr) => s1.mqRecord f.job 0x01 cause (friezeMaster s f) addr
      | none => s1.mqRecord f.job 0x02 0 (friezeMaster s f) 0
    else
      let s1 := s.updFz id fun f => { f with state := .suspended }
      match f.victimFor with
      | some c => { s1 with reserved := s1.reserved.put (4 * f.head + f.ctx) c }
      | none => s1

/-- Whether a frieze has issued EXIT on every station with no fault to deliver: it exits and is not saved (R342). -/
def Frieze.leaving (f : Frieze) : Bool := f.state == .resident && f.stations.all fun x => x.exiting && x.faults.isEmpty

/-- The friezes saved in one step with a frieze: its unit's resident members but for those that exit, and the friezes handlers among
them serve. A freeze takes its frieze alone, and a handler with the frieze it serves (R341, R342, R378, R399). -/
def savedWith (s : State) (id : Nat) (f : Frieze) : List Nat :=
  let ids := if f.stop = .freeze then id :: f.handlerOf.toList else unitOf s id
  ids.filter fun a => match s.friezes.find a with
    | some g => (g.state == .resident && !g.leaving) || g.state == .handled
    | none => false

/-- The die row of a tile: 16 · die + row within the die (R407). -/
def dieRow (t : Nat) : Nat := 16 * dieOf t + t / 32 % 16

/-- Whether a frieze stands where it may no longer: on a fenced die row, or on a span its job's partition does not hold. The
management job's friezes have no partition command (R367, R368, R407). -/
def offPartition (s : State) (f : Frieze) : Bool :=
  s.life.fenced.getLsbD (dieRow f.head) ||
    (f.job != 0 && !((s.job? f.job).map (·.hasSpan f.head f.len)).getD true)

/-- Whether some friezes that stop together are saved after another: it is younger than each of them and is pre-empted as well, by
the host like them, or as a frieze of the ORD kernel of one of them (R338, R339). -/
def savedAfter (s : State) (ids : List Nat) : Bool :=
  s.friezes.any fun (b, g) => g.state == .resident && g.stop == .preempt && !g.leaving && !ids.contains b && ids.all (younger s b) &&
    ids.any fun a => match s.friezes.find a with
      | some f => (offPartition s f && offPartition s g) || (f.kernel == g.kernel && ((s.kernels.find f.kernel).map (·.ord)).getD false)
      | none => false

/-- Whether a frieze is stopped for the scheduler or a YIELD with a unit of which a member has trapped: that one's trap is taken, and
the unit is no victim (R341, R342, R414). -/
def calledOff (s : State) (id : Nat) (f : Frieze) : Bool :=
  (f.stop == .preempt || f.stop == .yield) && !offPartition s f && (unitOf s id).any fun a => match s.friezes.find a with
    | some g => (g.state == .resident && g.stop == .trap) || g.state == .handled
    | none => false

/-- A stopped frieze goes on. -/
def Frieze.go (f : Frieze) : Frieze :=
  { f with
    stop := if f.frozen then .freeze else if ((f.stations[0]?).map (·.exiting)).getD false then .exit else .no
    stations := f.stations.map fun x => { x with stopped := false }
    draining := false
    victimFor := none }

/-- A stop for a pre-emption, a freeze or a YIELD: once every station of every member has stopped, the DRAINs go in; once the
regions have taken them, all is saved. Younger friezes pre-empted with them go first, and a trap of a
member is taken first (R414). -/
def saveUnit (s : State) (id : Nat) (f : Frieze) : State :=
  let ids := savedWith s id f
  let stops (a : Nat) : Bool := match s.friezes.find a with
    | some g => g.state == .handled || (g.stop != .trap && stopDone s a)
    | none => true
  if !ids.all stops || f.leaving || savedAfter s ids then s
  else if ids.any fun a => ((s.friezes.find a).map fun g => !g.draining).getD false then
    ids.foldl (fun s a => if ((s.friezes.find a).map (·.draining)).getD true then s else drainFz s a) s
  else if !ids.all (drainDone s) then s
  else ids.foldl (fun s a => settleSaved (saveParts s a) a) (sysDrain s ids)

/-- PREEMPT: the scheduler takes a frieze for a candidate, or a frieze whose head has stopped for a pre-emption, a freeze or a
YIELD is saved. One that has issued EXIT on every station exits (R342). -/
def execPreempt (fz : Nat) (s : State) : Res :=
  .next (match s.friezes.find fz with
    | none => s
    | some f =>
      if f.state ≠ .resident then s
      else if calledOff s fz f then s.updFz fz (·.go)
      else if f.stop.saves then saveUnit s fz f
      else if f.stop = .trap then s
      else if offPartition s f then (Tab.keys (s.friezes.filter fun (_, g) => offPartition s g)).foldl (fun s a => stopUnit s a .preempt none) s
      else match wantedBy s fz with
        | none => s
        | some (c, vs) => vs.foldl (fun s v => stopUnit s v .preempt (some c)) s)

/-! ### Triggers and kernel ends (R240, R265, R337) -/

/-- TRIGGER: every station has issued TRIG or reached EXIT, and the accesses before it have taken effect. -/
def execTrigger (fz : Nat) (s : State) : Res :=
  .next (match s.friezes.find fz with
    | none => s
    | some f => if f.state ≠ .ended ∧ f.stations.all fun x => x.trig == some [] then s.updFz fz fun f => { f with triggered := true } else s)

/-- What is left of a kernel that has ended: its friezes, its registration and its record's owner. -/
def purgeKernel (s : State) (k : Nat) (q : Kernel) : State :=
  let s1 := { s with
    friezes := s.friezes.filter fun (_, f) => f.kernel != k
    kernels := s.kernels.del k }
  releaseRegs (releaseRecs s1 q.job fun r => r.ownerK == some k) q.job (kernelReg k)

/-- Whether an engine request of one of a kernel's friezes is outstanding. -/
def kernelBusy (s : State) (k : Nat) : Bool :=
  s.reqs.vals.any fun r => ((s.friezes.find r.fz).map (·.kernel)) == some k

/-- KERNEL_END: every frieze has exited or been ended; under TXN the kernel's transaction is committed first. -/
def execKernelEnd (kernel : Nat) (s : State) : Res :=
  .next (match s.kernels.find kernel with
    | none => s
    | some q =>
      if q.isHandler ∨ q.nextId < q.f ∨ q.exited < q.f ∨ kernelBusy s kernel then s
      else
        let finish (code : Nat) (cnum : BitVec 48) : State :=
          completeRecord (purgeKernel s kernel q) q.queue q.seq code (if q.byHandler then q.cause else 0) (if q.byHandler then 3 else 1) cnum
        if !q.txn then finish 0 0
        else match s.rec? q.job q.vdom q.txid with
          | none => finish 0 0
          | some r => match r.state with
            | .finished => finish r.code (if r.code = 1 then r.cnum else 0)
            | .committing => s
            | _ => commitAtHome s q.job q.vdom q.txid)

/-! ### YIELD (R384) -/

/-- The candidate a YIELD gives its frieze's context to. -/
def yieldTo (s : State) (id : Nat) (f : Frieze) : Option Cand :=
  (cands s).find? fun c => match candOf s c with
    | some (j, p, l) => j == f.job && decide (s.prioOf f ≤ p) && l == f.len && (tryPlace s c).isNone && c != .frieze id
    | none => false

/-- YIELD. -/
def execYield (h : Hdr) (s : State) : Res :=
  issueWord (.yield h) h s fun c s =>
    .done (if !c.isHead || leadsOrd s c.f || sameGang s c.id c.id then s
      else match yieldTo s c.id c.f with
        | some d => stopUnit s c.id .yield (some d)
        | none => s) true

end Sys2Proof.Machine
end

