-- ==== Sys2Proof/Machine/System.lean ====
section
/-! DEFINITION. Group 0x0: NOP, the CSR instructions, CODEINV, FREEZE and THAW with what freezing does to each kind of master, and LAUNCH (R42, R343, R377–R385). -/

namespace Sys2Proof.Machine

/-- NOP (R383). -/
def execNop (h : Hdr) (s : State) : Res := issueWord (.nop h) h s fun _ s => .done s true

/-! ### CSRs (R24, R42, R381) -/

/-- The value of a job register of the frieze's job. -/
def jobReg (s : State) (c : Ctx) (g : Job → Dword) : Dword := ((s.job? c.job).map g).getD 0

/-- The value of a CSR at a station. -/
def csrRead (s : State) (c : Ctx) (n : BitVec 12) : Dword :=
  match n.toNat with
  | 0x000 => BitVec.ofNat 64 (c.tile / 32)
  | 0x001 => BitVec.ofNat 64 (c.tile % 32)
  | 0x002 => BitVec.ofNat 64 c.st
  | 0x003 => BitVec.ofNat 64 c.f.len
  | 0x004 => c.f.id.setWidth 64
  | 0x005 => c.f.arg
  | 0x006 => BitVec.ofNat 64 c.job
  | 0x010 => c.x.trapCause.setWidth 64
  | 0x011 => c.x.nextIndex.setWidth 64
  | 0x012 => jobReg s c (·.trapVec)
  | 0x020 => jobReg s c (·.waitLimit)
  | 0x021 => jobReg s c (·.poolWaitLimit)
  | 0x022 => jobReg s c fun j => j.smpPeriod.setWidth 64
  | 0x030 => c.x.srSeed
  | k => if 0x40 ≤ k ∧ k ≤ 0x7F then (c.x.rq (BitVec.ofNat 6 (k - 0x40))).setWidth 64 else 0

/-- A CSR written at a station; a read-only one stays, and TRAP_VEC[11:0] is RSVD (R4, R367). -/
def csrWrite (s : State) (c : Ctx) (n : BitVec 12) (v : Dword) : State :=
  match n.toNat with
  | 0x012 => s.updJob c.job fun j => { j with trapVec := v >>> 12 <<< 12 }
  | 0x020 => s.updJob c.job fun j => { j with waitLimit := v }
  | 0x021 => s.updJob c.job fun j => { j with poolWaitLimit := v }
  | 0x022 => s.updJob c.job fun j => { j with smpPeriod := v.setWidth 32 }
  | 0x030 => c.upd s fun x => { x with srSeed := v }
  | k => if 0x40 ≤ k ∧ k ≤ 0x7F then c.upd s (·.setQ (BitVec.ofNat 6 (k - 0x40)) (v.setWidth 32)) else s

def execCsrr (h : Hdr) (g : Reg) (csr : BitVec 12) (s : State) : Res :=
  issueWord (.csrr h g csr) h s fun c s => .done (c.setG s g (csrRead s c csr)) true

def execCsrw (h : Hdr) (g : Reg) (csr : BitVec 12) (s : State) : Res :=
  issueWord (.csrw h g csr) h s fun c s => .done (csrWrite s c csr (c.g g)) true

def execCsrx (h : Hdr) (g : Reg) (csr : BitVec 12) (s : State) : Res :=
  issueWord (.csrx h g csr) h s fun c s => .done (csrWrite (c.setG s g (csrRead s c csr)) c csr (c.g g)) true

/-! ### CODEINV (R382) -/

/-- Whether the word of an index has a byte in n bytes from an address. -/
def wordIn (a n : Nat) (i : BitVec 52) : Bool := n != 0 && decide (8 * i.toNat < a + n) && decide (a < 8 * i.toNat + 8)

/-- A fetch buffer cut before its first word in a range; the words from there on are fetched again. -/
def Frieze.cutFetched (f : Frieze) (a n : Nat) : Frieze :=
  match f.fetched.findIdx? fun w => wordIn a n w.1 with
  | none => f
  | some j =>
    match f.fetched[j]? with
    | none => f
    | some w => { f with
        fetched := f.fetched.take j
        fetchIndex := w.1
        decoded := f.decoded && j != 0 }

/-- CODEINV: its own frieze refetches every word that follows it; the other friezes of the head lose what lies in the range. -/
def execCodeinv (h : Hdr) (a b : Reg) (s : State) : Res :=
  issueWord (.codeinv h a b) h s fun c s =>
    if !c.isHead then .done s true
    else if formSpace (c.g a) ≠ spGlobal then .trap causeProtection (c.g a)
    else
      let s1 := { s with friezes := s.friezes.map fun (id, f) =>
        if id = c.id then (id, { f with
          fetched := f.fetched.take 1
          fetchIndex := c.index + 1 })
        else if f.head = c.f.head then (id, f.cutFetched (formAddr (c.g a)) (c.g b).toNat) else (id, f) }
      .done s1 true

/-! ### Masters (R377, R378) -/

/-- A field of a descriptor. -/
def descField (d : Dword) (lo n : Nat) : Nat := d.toNat / 2 ^ lo % 2 ^ n
def descKind (d : Dword) : Nat := descField d 60 4
def descJob (d : Dword) : Nat := descField d 52 8

/-- The bits a KIND uses below MODULE. -/
def descUsed : Nat → Dword
  | 0 => 0x000003FFC0000000
  | 1 => 0x000003FFFC000000
  | 2 => 3
  | 3 => 0
  | 4 => 0xFFFF
  | _ => 0x3FF0000

/-- Whether a descriptor's KIND is reserved, an unused field is not zero, or it names another module. -/
def descBad (s : State) (d : Dword) : Bool :=
  decide (6 ≤ descKind d) || (d &&& 0x000003FFFFFFFFFF &&& ~~~descUsed (descKind d)) != 0 || descField d 42 10 != s.moduleId.toNat

/-- The resident frieze a descriptor names, by job, head and context slot. (DEDUCED: log entry 59) -/
def namedFrieze (s : State) (d : Dword) (st : FzState) : Option (Nat × Frieze) :=
  (s.friezes.find? fun (_, f) => f.job == descJob d && f.head == descField d 32 10 && f.ctx == descField d 30 2 && f.state == st)

/-- A frieze frozen by command or instruction: its head stops, and it is saved. A pre-emption under way goes on. -/
def Frieze.freezeCmd (f : Frieze) : Frieze :=
  { f with
    frozen := true
    freezeRec := none
    trap := f.trap.filter fun t => t.cause == causeTrapInstr || t.cause == causeBreakpoint
    stop := if f.stop = .preempt ∨ f.stop = .yield then f.stop else .freeze }

/-- A freeze of a master other than a frieze, with its record. -/
def frozenNow (s : State) (d : Dword) (was : Bool) (g : State → State) : State × Option Nat :=
  if was then (s, none) else ((g s).mqRecord (descJob d) 0x02 0 d 0, none)

/-- What FREEZE or THAW comes to: the state, and what it waits for; none once it is complete. -/
abbrev Acted := State × Option Nat

/-- FREEZE of a frieze: the one begun with, or the resident one the descriptor names; complete once it is saved.
(DEDUCED: log entry 59) -/
def freezeFrieze (s : State) (d : Dword) (tgt : Option Nat) : Acted :=
  match tgt with
  | some id => (s, match s.friezes.find id with
      | some f => if f.state = .resident ∧ f.frozen then some id else none
      | none => none)
  | none => match namedFrieze s d .resident with
    | none => (s, none)
    | some (id, f) => (if f.frozen then s else s.updFz id (·.freezeCmd), some id)

/-- FREEZE of the master a descriptor names. (DEDUCED: log entry 60) (DEDUCED: log entry 61) (DEDUCED: log entry 62) -/
def freezeMaster (s : State) (d : Dword) (tgt : Option Nat) : Acted :=
  let j := descJob d
  match descKind d with
  | 0 => freezeFrieze s d tgt
  | 1 => (match namedFrieze s d .resident with
      | none => (s, none)
      | some (id, f) =>
        let k := BitVec.ofNat 4 (descField d 26 4)
        frozenNow s d (f.stations.all fun x => (x.slot k).frozen) fun s => s.updFz id fun f => { f with
          stations := f.stations.map (·.freezeSlot k true) })
  | 2 =>
    let g := s.engine (descField d 0 2)
    if g.cfg.isNone || g.job != j then (s, none)
    else frozenNow s d g.frozen fun s =>
      (failCurrent s (descField d 0 2) violRouting 0).updEngine (descField d 0 2) fun g => { g with frozen := true }
  | 3 => if (s.castWork.map (·.job)) != some j then (s, none)
    else frozenNow s d s.castFrozen fun s => { s with castFrozen := true, castFrozenBy := j }
  | 4 =>
    let q := s.queue (descField d 0 16)
    if q.job != some j then (s, none)
    else frozenNow s d q.frozen fun s => s.updQueue (descField d 0 16) fun q => { q with frozen := true }
  | _ =>
    let m := descField d 16 10
    frozenNow s d (((s.job? j).map (·.blocked.contains m)).getD true) fun s => s.updJob j fun x => { x with blocked := m :: x.blocked }

/-- A saved frozen frieze becomes a candidate again. -/
def thawSaved (s : State) (id : Nat) : State :=
  match s.friezes.find id with
  | some f => if f.state = .frozen then s.updFz id fun f => { f with
      state := .suspended
      frozen := false } else s
  | none => s

/-- THAW of a frieze: one whose freeze is not complete is thawed once it is. (DEDUCED: log entry 59) -/
def thawFrieze (s : State) (d : Dword) (tgt : Option Nat) : Acted :=
  match tgt with
  | some id => (match s.friezes.find id with
      | some f => if f.state = .resident ∧ f.frozen then (s, some id) else (thawSaved s id, none)
      | none => (s, none))
  | none => match namedFrieze s d .resident with
    | some (id, f) => if f.frozen then (s, some id) else (s, none)
    | none => match namedFrieze s d .frozen with
      | some (id, _) => (thawSaved s id, none)
      | none => (s, none)

/-- THAW of the master a descriptor names. (DEDUCED: log entry 61) -/
def thawMaster (s : State) (d : Dword) (tgt : Option Nat) : Acted :=
  let j := descJob d
  match descKind d with
  | 0 => thawFrieze s d tgt
  | 1 => (match namedFrieze s d .resident with
      | none => (s, none)
      | some (id, _) => (s.updFz id fun f => { f with
          stations := f.stations.map (·.freezeSlot (BitVec.ofNat 4 (descField d 26 4)) false) }, none))
  | 2 => (if (s.engine (descField d 0 2)).job = j then s.updEngine (descField d 0 2) fun g => { g with frozen := false } else s, none)
  | 3 => (if s.castFrozenBy = j then { s with castFrozen := false } else s, none)
  | 4 =>
    let q := s.queue (descField d 0 16)
    (if q.job = some j then s.updQueue (descField d 0 16) fun q => { q with frozen := false } else s, none)
  | _ => (s.updJob j fun x => { x with blocked := x.blocked.filter (· != descField d 16 10) }, none)

/-- FREEZE or THAW. -/
def actMaster (s : State) (d : Dword) (thaw : Bool) (tgt : Option Nat) : Acted :=
  if thaw then thawMaster s d tgt else freezeMaster s d tgt

/-- FREEZE and THAW: the checks at issue, then a request that completes with its row of R378 (R385). -/
def masterWord (i : Instr) (h : Hdr) (a : Reg) (thaw : Bool) (s : State) : Res :=
  issueWord i h s fun c s =>
    let d := c.g a
    if c.isHead && descBad s d then .trap causeBounds 0
    else if c.isHead && (descJob d == 0 || (s.job? (descJob d)).isNone) then .trap causeProtection 0
    else .done (c.headRequest s (.master d thaw none) none none) false

def execFreeze (h : Hdr) (a : Reg) (s : State) : Res := masterWord (.freeze h a) h a false s
def execThaw (h : Hdr) (a : Reg) (s : State) : Res := masterWord (.thaw h a) h a true s

/-- A FREEZE or THAW at its master. -/
def respondMaster (s : State) (k : Nat) (r : Req) (d : Dword) (thaw : Bool) (tgt : Option Nat) : State :=
  let p := actMaster s d thaw tgt
  match p.2 with
  | none => p.1.finishReq k ⟨none, none⟩
  | some id => { p.1 with reqs := p.1.reqs.put k { r with kind := .master d thaw (some id) } }

/-! ### LAUNCH (R239, R343) -/

/-- LAUNCH: the station's request; its append waits for the accesses issued before it. -/
def execLaunch (h : Hdr) (a b : Reg) (s : State) : Res :=
  issueWord (.launch h a b) h s fun c s =>
    if formAddr (c.g a) % 64 ≠ 0 then .trap causeMisaligned (c.g a)
    else
      let k := s.serial
      let before := s.outstanding c.id c.st (clSW ||| clLW ||| clAT ||| clEN)
      let s1 := c.request s (.launch ((c.g b).toNat % 65536) (c.g a) (c.x.rv 0) none) none
      .done { s1 with reqs := s1.reqs.map fun (j, r) => (j, if j = k then { r with waits := r.waits ++ before } else r) } false

end Sys2Proof.Machine
end

