-- ==== Sys2Proof/Machine/Engines.lean ====
section
/-! DEFINITION. The answer of an engine, a home, a queue or a master to a request, and the ring a LAUNCH waits for (R237, R270, R330, R343). -/

namespace Sys2Proof.Machine

/-! ### LAUNCH at its queue (R330, R343) -/

/-- Whether the ring of a queue holds 2^CAP unstarted records. -/
def Queue.full (q : Queue) : Bool := decide (2 ^ q.cap ≤ (q.appended - q.started).toNat)

/-- A record appended to a queue. -/
def appendRecord (s : State) (n : Nat) (bs : List Byte) : State :=
  let q := s.queue n
  (s.putBytes ⟨.hbm, q.base + 64 * (q.appended.toNat % 2 ^ q.cap), none⟩ bs).updQueue n (·.append)

/-- LAUNCH at its queue: the record is read, and stored once the ring has room. -/
def respondLaunch (s : State) (k : Nat) (r : Req) (n : Nat) (a : Dword) (v : View) (since : Option Nat) : State :=
  match fetchElem s r.job r.fz 0 r.tile v a (formAddr a) 64 with
    | .err e => s.failReq k e a
    | .wait => s
    | .ok bs bad =>
      let q := s.queue n
      if q.job ≠ some r.job then s.failReq k ⟨causeProtection, true⟩ a
      else if !q.enable then s.failReq k ⟨causeProtection, false⟩ a
      else if q.full then { s with reqs := s.reqs.put k { r with kind := .launch n a v (some (since.getD s.cycles.toNat)) } }
      else if bad then s.failReq k ⟨causePoison, false⟩ a
      else (appendRecord s n bs).finishReq k ⟨none, none⟩

/-- LAUNCH_RING_TIMEOUT: a LAUNCH has been held on a full ring for WAIT_LIMIT c-cycles (R343, R397). -/
def execLaunchRingTimeout (req : Nat) (s : State) : Res :=
  .next (match s.reqs.find req with
    | none => s
    | some r => match r.kind with
      | .launch n _ _ (some t) =>
        if s.cycles.toNat < t + ((s.job? r.job).map (·.waitLimit.toNat)).getD 0 ∨ !(s.queue n).full then s
        else s.failReq req ⟨causeWaitTimeout, false⟩ (0x0400000000000000 ||| BitVec.ofNat 64 n)
      | _ => s)

/-! ### The answers (R237) -/

/-- A request of group 0xA whose home cannot be reached ends with FABRIC_FAULT; an UNSNAP of a view that holds no datum asks no
home (R271, R275). The record's state stays as it is (R258, R264). -/
def homeLost (s : State) (k : Nat) (r : Req) : Option State :=
  let asks := match r.kind with
    | .unsnap v => (headView s r.fz v).live
    | _ => r.kind.versions
  if asks && (s.dom? r.job (r.dom s)).isSome && !s.reachable (homeOf s r.job (r.dom s)) then
    some (s.failReq k ⟨causeFabric, false⟩ 0)
  else none

/-- A request at the unit it is addressed to. -/
def answer (s : State) (k : Nat) (r : Req) : State :=
  match r.kind with
  | .snap dom v => respondSnap s k r dom v
  | .unsnap v => respondUnsnap s k r v
  | .txbegin dom v age => respondTxbegin s k r dom v age
  | .txcommit dom t v => respondTxcommit s k r dom t v (headDst s r)
  | .txabort dom t v => respondTxabort s k r dom t v
  | .txstat dom t => respondTxstat s k r dom t (headDst s r)
  | .claim v base sh n any => respondClaim s k r v base sh n any
  | .launch n a v since => respondLaunch s k r n a v since
  | .accsave acc first last a => respondAcc s k r false acc first last a
  | .accload acc first last a => respondAcc s k r true acc first last a
  | .route o w mc => respondRoute s k r o w mc
  | .unroute o sent => respondUnroute s k r o sent
  | .mcjoin i g leave => respondMcjoin s k r i g leave
  | .owncfg g => respondOwncfg s k r g
  | .smpoff | .smpcfg => s.finishReq k ⟨none, none⟩
  | .master d thaw tgt => respondMaster s k r d thaw tgt
  | .ercfg _ | .ercfgOff | .erdisp .. | .ercomb .. | .erstat _ | .erdrops => respondRouting s k r
  | .wlnew .. | .wlpush .. | .wlpop .. | .wlins .. | .wlcnt .. | .wlfree .. => s

/-- Whether a request acts on the tile of its frieze's station. (DEDUCED: log entry 76) -/
def ReqKind.atTile : ReqKind → Bool
  | .accsave .. | .accload .. | .route .. | .mcjoin .. => true
  | _ => false

/-- Whether a request binds a route or a membership, which a frieze that has exited no longer has. (DEDUCED: log entry 76) -/
def ReqKind.binds : ReqKind → Bool
  | .route .. | .mcjoin .. => true
  | _ => false

/-- Whether a frieze's part of its tiles stands on them. -/
def State.onTile (s : State) (id : Nat) : Bool :=
  match s.friezes.find id with
  | none => true
  | some f => match f.state with
    | .resident | .ended => true
    | .handled => f.save.isEmpty
    | _ => false

/-- ENGINE_RESPONSE: a request whose accesses before it have taken effect is served by its unit; it may wait there.
(DEDUCED: log entry 76) -/
def execEngineResponse (req : Nat) (s : State) : Res :=
  .next (match s.reqs.find req with
    | none => s
    | some r =>
      if !r.waits.isEmpty || r.unsent s then s
      else if r.behind s req then s
      else if let some v := r.res then s.returnReq req v
      else if let some t := homeLost s req r then t
      else if r.kind.atTile && !s.onTile r.fz then s
      else if r.kind.binds && ((s.friezes.find r.fz).map (·.state)).getD .ended == .ended then s.finishReq req ⟨none, none⟩
      else answer s req r)

end Sys2Proof.Machine
end

