-- ==== Sys2Proof/Machine/CoreSteps.lean ====
section
/-! DEFINITION. The control core's own steps: fetching and decoding at the head, the choice of the word a tile issues, the watchdog, and the delivery of faults found after issue (R43, R44, R196, R301–R305, R314). -/

namespace Sys2Proof.Machine

/-! ### Fetch and decode (R43, R44, R314) -/

/-- Words the fetch buffer holds for one frieze (DESIGN CHOICE: the manual gives no size). (DEDUCED: log entry 9) -/
def fetchRoom : Nat := 8

/-- Whether a frieze's head may still take words: resident, not stopped, and on a known path. -/
def Frieze.heading (f : Frieze) : Bool := f.state == .resident && f.stop == .no && f.vote.isNone

/-- Whether no fault waits for the head's next boundary (R196). -/
def Frieze.headClear (f : Frieze) : Bool := (f.stations[0]?.map (·.faults.isEmpty)).getD false

/-- CODE_FETCH: the head fetches the next word of its path. A fault stands until every word before it has issued, and is then
taken at that word's index, unless one found before is to be delivered there (R196, R314). (DEDUCED: log entry 9) -/
def execCodeFetch (fz : Nat) (s : State) : Res :=
  .next (match s.friezes.find fz with
    | none => s
    | some f =>
      if !f.heading || decide (fetchRoom ≤ f.fetched.length) then s
      else
        let a := 8 * f.fetchIndex.toNat
        let form := mkForm spGlobal a
        let fault (v : Viol) : State :=
          if !f.fetched.isEmpty || !f.headClear then s
          else if v.freeze then (s.addFault fz 0 none v.cause form 0 0).freezeFz fz v.cause form
          else s.raise fz 0 v.cause none form 0 0
        match elementCheck s f.job f.head form a 8 .fetch with
        | .error v => fault v
        | .ok p =>
          if !s.placeUp p then fault ⟨causeFabric, false⟩
          else if s.badAt p 8 then fault ⟨causePoison, false⟩
          else s.updFz fz fun f => { f with
            fetched := f.fetched ++ [(f.fetchIndex, bvOf 64 (s.bytesAt p 8))]
            fetchIndex := f.fetchIndex + 1 })

/-- What decoding makes of a word for a job: a trap cause, or none when the word is forwarded (R43). -/
def decodeCause (job : Nat) (w : Dword) : Option Cause :=
  match decodeBytes (bytesOf w) with
  | .error _ => some causeIllegal
  | .ok (i, _) => if !i.wf then some causeIllegal else if i.privileged && job != 0 then some causePrivileged else none

/-- DECODE: the head decodes the oldest fetched word before it forwards it (R43, R44). (DEDUCED: log entry 9) -/
def execDecodeWord (fz : Nat) (s : State) : Res :=
  .next (match s.friezes.find fz with
    | none => s
    | some f =>
      match f.fetched with
      | [] => s
      | (_, w) :: _ =>
        if !f.heading || f.decoded || !f.headClear then s
        else match decodeCause f.job w with
          | some c => (s.raise fz 0 c none 0 0 0).deselect
          | none => s.updFz fz fun f => { f with decoded := true })

/-! ### Issue selection (R301, R302, R305) -/

/-- How a frieze stands at one station in a c-cycle. -/
inductive Stand where
  /-- no word, or held by a row that is not counted -/
  | idle
  | held (w : Why)
  | ready
deriving DecidableEq, Repr

/-- The next word of a frieze at a station, decoded, with its context. -/
def wordAt (s : State) (id st : Nat) : Option (Ctx × Instr) :=
  (s.friezes.find id).bind fun f => (f.nextWord st).bind fun w =>
    if st = 0 ∧ f.decoded = false then none
    else match decodeBytes (bytesOf w.word) with
      | .error _ => none
      | .ok (i, _) => i.hdr?.bind fun h => (ctxOf { s with cur := some ⟨id, st, false⟩ } i h).map fun c => (c, i)

/-- Where a frieze stands at a station: its next word under R303. -/
def standAt (s : State) (id st : Nat) : Stand :=
  match wordAt s id st with
  | none => .idle
  | some (c, i) =>
    if c.f.skip = some c.lane then .ready
    else match holdOf s c i with
      | none => .ready
      | some .room => .idle
      | some w => .held w

/-- The row of R303 marked yes that holds the word of a station, also one that has stopped there (R394). -/
def rowAt (s : State) (id st : Nat) : Option Why :=
  (wordAt s id st).bind fun (c, i) =>
    if c.f.skip = some c.lane ∨ (st = 0 ∧ c.f.vote.isSome) then none else rowWait s c i

/-- The resident friezes with a station on a tile: key and station number. -/
def State.standing (s : State) (tile : Nat) : List (Nat × Nat) :=
  s.friezes.filterMap fun (id, f) =>
    if f.state = .resident ∧ f.head ≤ tile ∧ tile < f.head + f.len then some (id, tile - f.head) else none

/-- A c-cycle held under a counted row (R305, R322, R394). -/
def countHold (s : State) (id st : Nat) : State :=
  s.updFz id fun f => f.updSt st fun x => { x with
    hold := x.hold + 1
    held := x.held + 1
    stopped := x.stopped || f.stop.drains }

/-- The context slot of a frieze. -/
def State.slotOf (s : State) (id : Nat) : Nat := ((s.friezes.find id).map (·.ctx)).getD 0

/-- The frieze that issues at its head: the first ready one after the pointer (R302). -/
def headPick (s : State) (tile : Nat) (ready : List Nat) : Option Nat :=
  (List.range 4).findSome? fun k =>
    ready.find? fun id => decide (s.slotOf id = ((s.tile tile).pointer + 1 + k) % 4)

/-- The c-cycle in which the oldest queued word of a station entered. -/
def enteredAt (s : State) (p : Nat × Nat) : Nat := ((s.station? p.1 p.2).bind (·.entered.head?)).getD 0

/-- The first of some stations whose word entered earliest (R301). -/
def earliest (s : State) : List (Nat × Nat) → Option (Nat × Nat)
  | [] => none
  | p :: rest =>
    match earliest s rest with
    | none => some p
    | some q => some (if enteredAt s q < enteredAt s p then q else p)

/-- A station selected; whether a scalar access of its word takes effect at its issue is the 840's choice (R203, R228).
(DESIGN CHOICE: log entry 79) -/
def State.select (s : State) (id st : Nat) : State := { s.takeBit.2 with cur := some ⟨id, st, s.takeBit.1⟩ }

/-- ISSUE_SELECT: the holds of the c-cycle are counted, and the core of the tile chooses the word it issues next (R301, R302,
R305). -/
def execIssueSelect (tile : Nat) (s : State) : Res :=
  .next (
    let here := s.standing tile
    let s1 := here.foldl (fun t p => match standAt s p.1 p.2 with
      | .held _ => countHold t p.1 p.2
      | _ => t) s
    let ready := here.filter fun p => standAt s p.1 p.2 == .ready
    match headPick s tile ((ready.filter fun p => p.2 == 0).map (·.1)) with
    | some id =>
      let s2 := ready.foldl (fun t p => if p.2 = 0 ∧ p.1 ≠ id then
        t.updSt p.1 0 fun x => { x with notsel := x.notsel + 1 } else t) s1
      (s2.updTile tile fun x => { x with pointer := s.slotOf id }).select id 0
    | none =>
      match earliest s (ready.filter fun p => p.2 != 0) with
      | some p => s1.select p.1 p.2
      | none => s1)

/-! ### The watchdog (R305, R397) -/

/-- The DETAIL doublewords of a WAIT_TIMEOUT (R397). -/
def timeoutDetail (s : State) (id st tile : Nat) : Why → Dword × Dword × Dword
  | .counter k need => (k.setWidth 64, (s.counter id st k).setWidth 64, need.setWidth 64)
  | .port p need => (0x0100000000000000 ||| BitVec.ofNat 64 p, BitVec.ofNat 64 ((s.tile tile).portCount p), need)
  | .slots m => (0x0200000000000000 ||| m.setWidth 64, 0, 0)
  | .reg r => (0x0300000000000000 ||| BitVec.ofNat 64 r, 0, 0)
  | .room => (0, 0, 0)

/-- WAIT_TIMEOUT: a station whose hold count has reached WAIT_LIMIT while its word is still held traps (R305). -/
def execWaitTimeout (fz st : Nat) (s : State) : Res :=
  .next (match s.friezes.find fz, s.station? fz st with
    | some f, some x =>
      match standAt s fz st with
      | .held w =>
        if x.hold < ((s.job? f.job).map (·.waitLimit.toNat)).getD 0 ∨ f.state ≠ .resident ∨ f.stop.drains then s
        else
          let d := timeoutDetail s fz st (f.tileOf st) w
          (s.raise fz st causeWaitTimeout none d.1 d.2.1 d.2.2).deselect
      | _ => s
    | _, _ => s)

/-! ### Faults found after issue (R196, R318) -/

/-- The pending fault a station takes first: the earliest found. (DEDUCED: log entry 11) -/
def firstFault : List PendFault → Option PendFault
  | [] => none
  | p :: rest =>
    match firstFault rest with
    | none => some p
    | some q => some (if q.no < p.no then q else p)

/-- A station that has issued EXIT stands at it again, with every station east of it that had issued it: NEXT_INDEX holds the
EXIT's index (R318). At the head the word is the next one to issue. (DEDUCED: log entry 11) -/
def Frieze.unexit (f : Frieze) (st : Nat) : Frieze :=
  let f1 := { f with stations := f.stations.mapIdx fun j x =>
    if st ≤ j ∧ x.exiting then { x with
      exiting := false
      exitSig := none
      pos := x.pos - 1 } else x }
  if st ≠ 0 then f1
  else match f.lane.getLast? with
    | none => f1
    | some w => { f1 with
        lane := f.lane.dropLast
        fetched := [(w.index, w.word)]
        fetchIndex := w.index + 1
        decoded := true }

/-- FAULT_DELIVERY: the earliest pending fault of a station is delivered at its next boundary. During a pre-emption or a freeze
it waits for the resume; among the traps of one drain R414 decides. (DEDUCED: log entry 11) -/
def execFaultDelivery (fz st : Nat) (s : State) : Res :=
  .next (match s.friezes.find fz, s.station? fz st with
    | some f, some x =>
      match firstFault x.faults with
      | none => s
      | some p =>
        if f.state ≠ .resident ∨ f.stop = .preempt ∨ f.stop = .freeze ∨ f.stop = .yield then s
        else
          let s1 := if x.exiting then s.updFz fz (·.unexit st) else s
          let t : Trap := ⟨p.cause, p.slot, st, (s1.station? fz st).elim 0 (·.pos), p.d0, p.d1, p.d2⟩
          if f.trap = some t then s
          else (s1.raise fz st p.cause p.slot p.d0 p.d1 p.d2).deselect
    | _, _ => s)

end Sys2Proof.Machine
end

