-- ==== Sys2Proof/Machine/Fetch.lean ====
section
/-! DEFINITION. What a step runs: the clock, the word of the selected station, the events that come about of themselves, and a word placed for the very next step. -/

namespace Sys2Proof.Machine

/-- One c-cycle passes (DESIGN CHOICE: every step counts as one). (DESIGN CHOICE: log entry 3) -/
def State.tick (s : State) : State := { s with cycles := s.cycles + 1 }

/-- The word of the station selected to issue. -/
def State.currentWord (s : State) : Option Dword :=
  s.cur.bind fun c => (s.friezes.find c.fz).bind fun f => (f.nextWord c.st).map (·.word)

/-- What the step runs for the selected station: the instruction its word decodes to; where the decoder refuses the word, or
there is none, the head's decoding (R43, R44). -/
def State.currentInstr (s : State) (fz : Nat) : Instr :=
  match s.currentWord with
  | none => .decodeWord fz
  | some w =>
    match decodeBytes (bytesOf w) with
    | .ok (i, _) => i
    | .error _ => .decodeWord fz

/-- The events of slot j of a station. -/
def slotEvents (id st : Nat) (k : Slot) (j : Nat) : List Instr :=
  if k.state ≠ .running then []
  else
    let go : Instr := match k.kind with
      | .atomg | .ratom | .scata => .atomicApply id st j
      | .rsig => .remoteReleaseArrival (.own id) st j
      | _ => .streamElementPerformed id st j
    if k.barred.isEmpty then [go] else [go, .holdTimeout id st j]

/-- The events of one station. -/
def stationEvents (id st : Nat) (x : Station) : List Instr :=
  let held : List Instr := (List.range x.pend.length).map fun j => Instr.streamElementPerformed id st (16 + j)
  let slots : List Instr := x.slots.toList.zipIdx.flatMap fun p => slotEvents id st p.1 p.2
  Instr.waitTimeout id st :: Instr.faultDelivery id st :: List.append slots held

/-- The events of one frieze. -/
def friezeEvents (id : Nat) (f : Frieze) : List Instr :=
  let sts : List Instr := f.stations.zipIdx.flatMap fun p => stationEvents id p.2 p.1
  let stop : List Instr := if f.stop = .no ∨ f.stop = .exit then [Instr.preempt id] else [Instr.trapTaken id, Instr.preempt id]
  let place : List Instr := if f.state = .resident ∧ f.rebind = [] then [] else [Instr.placeFrieze id, Instr.routeRebindTimeout id]
  let hand : List Instr := if f.handlerOf.isSome then [Instr.handlerEnd id] else []
  let own : List Instr := [Instr.codeFetch id, Instr.decodeWord id, Instr.voteResult id, Instr.trigger id]
  List.flatten [own, stop, place, hand, sts]

/-- The events of one column of a tile under an active context. -/
def columnEvents (t c : Nat) (m : Maq) : List Instr :=
  match m.regions.find? fun r => decide (r.first ≤ c) && decide (c ≤ r.last) with
  | none => []
  | some r =>
    if r.systolic then
      let cells : List Instr := (List.range 16).flatMap fun l => [Instr.systolicStep t l c, Instr.accop t l c]
      if c = r.first then
        List.append [Instr.systolicDescriptorHandshake t c, Instr.controlBeatCheck t c, Instr.emit t c, Instr.regionMarkerTaken t c] cells
      else cells
    else (List.range 4).flatMap fun k =>
      if (m.stages.find (4 * c + k)).isSome then [Instr.operatorFire t c k, Instr.alignmentMarkerTaken t c k] else []

/-- The events of one tile. -/
def tileEvents (far : Bool) (t : Nat) (x : Tile) : List Instr :=
  let loads : List Instr := x.ctxs.toList.zipIdx.flatMap fun p => if p.1.state = .loading then [Instr.maqldComplete t p.2] else []
  let cols : List Instr := x.cols.toList.zipIdx.flatMap fun p =>
    match p.1.active.bind fun k => x.ctxs.toList[k]? with
    | none => []
    | some ctx => columnEvents t p.2 ctx.maq
  let outs : List Instr := x.outAct.map fun p => Instr.outportWordFire t p.1
  let ins : List Instr := x.inp.toList.zipIdx.flatMap fun p => if p.1.flight.isEmpty && !far then [] else [Instr.inportBeatArrival t p.2]
  Instr.issueSelect t :: List.flatten [loads, cols, outs, ins]

/-- The events of one request to an engine or a home. -/
def reqEvents (k : Nat) (r : Req) : List Instr :=
  match r.kind with
  | .wlnew .. | .wlpush .. | .wlpop .. | .wlins .. | .wlcnt .. | .wlfree .. => [Instr.worklistHomeServe k]
  | .launch .. => [Instr.engineResponse k, Instr.launchRingTimeout k]
  | .txcommit dom txid _ => [Instr.commitRequest r.job dom txid, Instr.engineResponse k]
  | _ => [Instr.engineResponse k]

/-- The events of one record of a domain. -/
def recEvents (job dom txid : Nat) (r : TxRec) : List Instr :=
  if r.state = .committing then
    List.append (r.ctrls.map fun m => Instr.publish job dom txid m) [Instr.commitComplete job dom txid, Instr.voidCommit job dom txid]
  else []

/-- The events of one domain's records, its broadcast when due (R266). -/
def domainEvents (now key : Nat) (d : Domain) : List Instr :=
  let lwm : List Instr := if d.nextLwm ≤ now then [Instr.lwmBroadcast (key / 64) (key % 64)] else []
  let recs : List Instr := d.recs.flatMap fun p => recEvents (key / 64) (key % 64) p.1 p.2
  let pool : List Instr := d.waitSince.map fun p => Instr.poolWaitExpiry (key / 64) (key % 64) p.1
  List.flatten [lwm, recs, pool]

/-- The events of a started kernel: the placing of its next frieze while it has friezes to create (the number is that of the
kernel, from 2^32 on), and its end. -/
def kernelEvents (k : Nat) (q : Kernel) : List Instr :=
  if q.nextId < q.f then [Instr.placeFrieze (2 ^ 32 + k), Instr.kernelEnd k] else [Instr.kernelEnd k]

/-- The events of an engine that waits for the other members of its group (R293). -/
def engineEvents (die : Nat) (g : Engine) : List Instr :=
  if g.state = .exchange ∨ g.state = .finish ∨ g.state = .done then [.dispatchFail die .timeout] else []

/-- Every event that may come about of itself. One that its rule does not enable changes nothing. (DESIGN CHOICE: log entry 4) -/
def events (s : State) : List Instr :=
  let fzs : List Instr := s.friezes.flatMap fun p => friezeEvents p.1 p.2
  let tiles : List Instr := s.tiles.flatMap fun p => tileEvents (s.torus != (1, 1, 1)) p.1 p.2
  let reqs : List Instr := s.reqs.flatMap fun p => reqEvents p.1 p.2
  let doms : List Instr := s.domains.flatMap fun p => domainEvents s.cycles.toNat p.1 p.2
  let kers : List Instr := s.kernels.flatMap fun p => kernelEvents p.1 p.2
  let ques : List Instr := s.queues.flatMap fun p => [Instr.recordCheck p.1, Instr.recordStart p.1]
  let rts : List Instr := s.routes.map fun p => Instr.routeBeat (p.1 / 32) (p.1 % 32)
  let fwd : List Instr := s.nodes.flatMap fun p => Instr.forwardingSlotFree p.1 :: p.2.listed.map fun r => Instr.retry p.1 r.1
  let engs : List Instr := s.engines.toList.zipIdx.flatMap fun p => engineEvents p.2 p.1
  let cast : List Instr := if s.castWork.isSome then [.castEnd 0] else []
  let boot : List Instr := if s.boot = 0 ∨ s.boot = 1 then [.bringUp] else []
  List.flatten [fzs, tiles, reqs, doms, kers, ques, rts, fwd, engs, cast, boot]

/-- What the step runs when no station is selected: the next item of the agenda, else the events in turn, the running host
command last. (DESIGN CHOICE: log entry 4) -/
def nextEvent (s : State) : Option (Instr × State) :=
  match s.agenda with
  | i :: rest => some (i, { s with agenda := rest })
  | [] =>
    let es := events s
    match (List.append es s.command.toList)[s.turn % (es.length + s.command.toList.length)]? with
    | none => none
    | some i => some (i, { s with
        turn := s.turn + 1
        serving := decide (s.turn % (es.length + s.command.toList.length) = es.length) })

/-- The period of a job's samples, if it takes any (R323). -/
def Job.period (j : Job) : Option Nat := if j.smpPeriod = 0 then none else some (max 1024 j.smpPeriod.toNat)

/-- Whether a job takes a sample instant in a c-cycle. -/
def Job.atInstant (j : Job) (now : Nat) : Bool :=
  match j.period with
  | none => false
  | some p => decide (now % p = 0)

/-- Whether a frieze gets a sample in this c-cycle (R323). -/
def State.samples (s : State) (f : Frieze) : Bool :=
  f.state == .resident && f.sampling && ((s.job? f.job).map (·.atInstant s.cycles.toNat)).getD false

/-- What happens in this c-cycle before anything else: the sample instant (R323). (DESIGN CHOICE: log entry 54) -/
def dueEvent (s : State) : Option Instr := if s.friezes.any (fun p => s.samples p.2) then some .sampleInstant else none

/-- A frieze of one station on tile 0, of the management job, with one word in its fetch buffer. (DESIGN CHOICE: log entry 7) -/
def placedFrieze (w : Dword) : Frieze :=
  { job := 0, kernel := 0, id := 0, head := 0, ctx := 0, state := .resident, entry := 0, arg := 0,
    stations := [Station.launch 0 View.launch], fetchIndex := 1, fetched := [(0, w)], decoded := true, lane := [],
    laneBase := 0, vote := none, reqs := [], stop := .no, trap := none, skip := none, sampling := false,
    triggered := false, handlerOf := none, handler := none, resuming := none, victimFor := none, image := none, save := [], startAt := 0, frozen := false, draining := false,
    freezeRec := none, rebind := [], rect := [], resumeAt := 0, placedNo := 0 }

/-- A control word placed as the next word of a station selected to issue. (DESIGN CHOICE: log entry 7) -/
def State.placeWord (s : State) (w : Dword) : State :=
  { s with
    jobs := s.jobs.put 0 ((s.jobs.find 0).getD Job.management)
    friezes := s.friezes.put 0 (placedFrieze w)
    tiles := s.tiles.put 0 (s.tile 0)
    boot := 2
    cur := some ⟨0, 0, false⟩ }

/-- A host command placed as the next thing that happens, on a module that serves commands. (DESIGN CHOICE: log entry 7) -/
def State.placeCommand (s : State) (i : Instr) : State := { s with boot := 2, cur := none, agenda := i :: s.agenda }

/-- The command of a table word of more than 64 bits. -/
def tableCommand (v : Nat) : Instr :=
  let d (k : Nat) : Dword := BitVec.ofNat 64 (v / 2 ^ (64 * k))
  decodeCommand (d 0) (d 1) (d 2) (d 3) (d 4) (d 5) (d 6) (d 7)

end Sys2Proof.Machine
end

