-- ==== Sys2Proof/Machine/Monitoring.lean ====
section
/-! DEFINITION. Group 0xE: the sample buffer and sampling, CNTRD, MARK, and the sample instant (R321–R328). -/

namespace Sys2Proof.Machine

/-- SMPCFG: the job's sample buffer on this module is replaced (R324, R327). -/
def execSmpcfg (h : Hdr) (a b : Reg) (s : State) : Res :=
  issueWord (.smpcfg h a b) h s fun c s =>
    if c.isHead && (formSpace (c.g a) == spLocal || formSpace (c.g a) == 3) then .trap causeProtection (c.g a)
    else if c.isHead && decide (formAddr (c.g a) % 32 ≠ 0) then .trap causeMisaligned (c.g a)
    else
      let s1 := if c.isHead then s.updJob c.job fun j => { j with buf := some ⟨c.g a, ((c.g b).setWidth 32).toNat, 0, 0⟩ } else s
      .done (c.headRequest s1 .smpcfg none none) false

/-- SMPON: sampling on for the frieze (R323). -/
def execSmpon (h : Hdr) (s : State) : Res :=
  issueWord (.smpon h) h s fun c s => .done (if c.isHead then s.updFz c.id fun f => { f with sampling := true } else s) true

/-- SMPOFF: sampling off; it completes once the frieze's samples are written (R323, R324). -/
def execSmpoff (h : Hdr) (s : State) : Res :=
  issueWord (.smpoff h) h s fun c s =>
    .done (c.headRequest (if c.isHead then s.updFz c.id fun f => { f with sampling := false } else s) .smpoff none none) false

/-! ### CNTRD (R322) -/

/-- The value of a counter at a station. -/
def cntValue (s : State) (c : Ctx) (n : Nat) : Dword :=
  let x := s.tile c.tile
  let buf := (s.job? c.job).bind (·.buf)
  if n = 0x000 then s.cycles
  else if n = 0x001 then c.x.issued
  else if n = 0x002 then c.x.held
  else if n = 0x003 then c.x.notsel
  else if n = 0x010 then BitVec.ofNat 64 ((buf.map (·.written)).getD 0)
  else if n = 0x011 then BitVec.ofNat 64 ((buf.map (·.dropped)).getD 0)
  else if 0x040 ≤ n ∧ n ≤ 0x07F then (s.counter c.id c.st (BitVec.ofNat 6 (n - 0x40))).setWidth 64
  else if 0x100 ≤ n ∧ n ≤ 0x10F then (x.col (n - 0x100)).status.setWidth 64
  else if 0x200 ≤ n ∧ n ≤ 0x21F then (x.inPort (n - 0x200)).srCount
  else 0

/-- A counter cleared, where the table allows it. -/
def cntClear (s : State) (c : Ctx) (n : Nat) : State :=
  if n = 0x001 then c.upd s fun x => { x with issued := 0 }
  else if n = 0x002 then c.upd s fun x => { x with held := 0 }
  else if n = 0x003 then c.upd s fun x => { x with notsel := 0 }
  else if 0x100 ≤ n ∧ n ≤ 0x10F then s.updTile c.tile fun x => x.updCol (n - 0x100) fun q => { q with status := 0 }
  else s

/-- CNTRD. The counter is read before the word itself is counted. (DEDUCED: log entry 50) -/
def execCntrd (h : Hdr) (d a : Reg) (num : BitVec 12) (clr : Bool) (s : State) : Res :=
  issueWord (.cntrd h d a num clr) h s fun c s =>
    let n := (num + (c.g a).setWidth 12).toNat
    let s1 := c.setG s d (cntValue s c n)
    .done (if clr then cntClear s1 c n else s1) true

/-! ### MARK (R327) -/

def execMark (h : Hdr) (m : BitVec 2) (g : Reg) (s : State) : Res :=
  issueWord (.mark h m g) h s fun c s =>
    let q := (s.tile c.tile).ctx m.toNat
    let tag : Word := (c.g g).setWidth 32
    if (match q.owner with
      | some o => o != c.id
      | none => false) then .trap causeProtection 0
    else if q.state ≠ .active then .trap causeMaquette 0
    else .done ((injectAll s c.tile m.toNat (.mark tag)).updFz c.id fun f => { f with
      stations := f.stations.map fun x => { x with markTag := tag } }) true

/-! ### Samples (R323–R326, R328) -/

/-- The friezes sampled in this c-cycle, by head tile number, then context slot. -/
def sampled (s : State) : List Nat :=
  let here := s.friezes.filter fun p => s.samples p.2
  (List.range 1024).flatMap fun h =>
    if here.any fun p => p.2.head == h then
      (List.range 4).flatMap fun k => here.filterMap fun (id, f) => if f.head = h ∧ f.ctx = k then some id else none
    else []

/-- The class of a hold (R303): STATE and K. -/
def Why.sample : Why → Option (Nat × Nat)
  | .counter k _ => some (2, k.toNat)
  | .port _ _ | .reg _ => some (3, 0)
  | .slots _ => some (4, 0)
  | .room => none

/-- The class under which a station holds a word of the frieze by a counted row, if it does. -/
def heldClass (s : State) (id st : Nat) : Option (Nat × Nat) :=
  match standAt s id st with
  | .held w => w.sample
  | _ => none

/-- Whether the head waits for a vote, the queue of station 1 or the replay window. -/
def headRoom (f : Frieze) : Bool :=
  f.vote.isSome || (decide (1 < f.len) && decide (32 ≤ f.posOf 0 - f.posOf 1)) || decide (64 ≤ f.posOf 0 - f.lastPos)

/-- STATE and K of a sample (R326). -/
def sampleState (s : State) (id : Nat) (f : Frieze) : Nat × Nat :=
  if f.stop ≠ .no then (6, 0)
  else if (s.cur.map fun c => (c.fz, c.st)) = some (id, 0) ∧ standAt s id 0 = .ready then (0, 0)
  else if f.fetched.isEmpty && f.vote.isNone then (5, 0)
  else if f.vote.isNone && (heldClass s id 0).isSome then (heldClass s id 0).getD (1, 0)
  else if headRoom f then ((List.range f.len).findSome? (heldClass s id)).getD (1, 0)
  else (1, 0)

/-- Bit s set for each station that holds a word under a counted row, also one that has stopped there. -/
def stallMask (s : State) (id : Nat) (f : Frieze) : BitVec 16 :=
  (List.range f.len).foldl (fun m st => if (rowAt s id st).isSome then m ||| (1#16 <<< st) else m) 0

/-- A sample record (R325). -/
def sampleRecord (s : State) (id : Nat) (f : Frieze) : List Byte :=
  let st := sampleState s id f
  let index : BitVec 52 := match f.fetched with
    | (i, _) :: _ => i
    | [] => f.fetchIndex
  let tag : Word := ((f.stations[0]?).map (·.markTag)).getD 0
  let d1 : Dword := index ++ BitVec.ofNat 4 st.1 ++ BitVec.ofNat 2 f.ctx ++ BitVec.ofNat 6 st.2
  let d2 : Dword := f.id ++ BitVec.ofNat 10 f.head ++ (0 : BitVec 6) ++ stallMask s id f
  let d3 : Dword := tag ++ BitVec.ofNat 16 (((s.kernels.find f.kernel).map (·.queue)).getD 0) ++ (0 : BitVec 16)
  [s.cycles, d1, d2, d3].flatMap bytesOf

/-- A sample counted as dropped. (DEDUCED: log entry 53) -/
def dropSample (s : State) (job : Nat) : State :=
  s.updJob job fun j => { j with buf := some (match j.buf with
    | none => ⟨0, 0, 0, 1⟩
    | some b => { b with dropped := b.dropped + 1 }) }

/-- One sample written to its job's buffer, or dropped (R324). -/
def writeSample (s0 s : State) (id : Nat) : State :=
  match s0.friezes.find id with
  | none => s
  | some f =>
    match (s.job? f.job).bind (·.buf) with
    | none => dropSample s f.job
    | some b =>
      if b.cap ≤ b.written then dropSample s f.job
      else
        let a := formAddr b.base + 32 * b.written
        match rangeCheck s f.job f.head b.base a .write 32 2 with
        | .error _ => dropSample s f.job
        | .ok ps => (s.scatter ps (sampleRecord s0 id f)).updJob f.job fun j => { j with buf := some { b with written := b.written + 1 } }

/-- SAMPLE_INSTANT: every frieze to be sampled in this c-cycle gets one sample, all taken before the first is written.
(DESIGN CHOICE: log entry 54) -/
def execSampleInstant (s : State) : Res := .next ((sampled s).foldl (writeSample s) s)

end Sys2Proof.Machine
end

