-- ==== Sys2Proof/Machine/Commands.lean ====
section
/-! DEFINITION. The host interface: the command window, the job, queue, memory and network commands of R387 with their STATUS, the append window and the aperture (R330, R368, R369, R375, R386–R388, R390, R408). -/

namespace Sys2Proof

/-- The operands of a command that must be zero, by number. -/
def Cmd.operands (c : Cmd) : List Dword := [c.d1, c.d2, c.d3, c.d4, c.d5, c.d6, c.d7]

/-- BADCMD by RSVD or an operand from number n + 1 on that the command does not use. -/
def Cmd.unusedSet (c : Cmd) (n : Nat) : Bool := c.rsvd != 0 || (c.operands.drop n).any (· != 0)

/-- JOB of a command. -/
def Cmd.j (c : Cmd) : Nat := c.job.toNat

end Sys2Proof

namespace Sys2Proof.Machine

/-! ### The command window (R387, R388, R438) -/

/-- What one turn of a command comes to: the state, and its STATUS once it has finished. -/
abbrev Turn := State × Option Nat

/-- The first row of R388 that matches. -/
def firstRow (rows : List (Bool × Nat)) : Option Nat := (rows.find? (·.1)).map (·.2)

/-- A turn under the boot state: the ROM serves FW_LOAD only, and nobody serves while the firmware is checked (R437, R438).
(DEDUCED: log entry 71) -/
def turnUnder (rom : Bool) (s : State) (body : State → Turn) : Turn :=
  if s.boot = 1 then (s, none)
  else if s.boot ≠ 2 ∧ !rom then (s, some 1)
  else body s

/-- A command arrives, or has its next turn: one runs at a time, up to 64 wait, and further ones are dropped and counted. A
finished command writes RESULT. -/
def runCommand (i : Instr) (tag : BitVec 32) (rom : Bool) (s : State) (body : State → Turn) : Res :=
  .next (
    if s.command.isSome && !s.serving then
      if s.waiting.length < 64 then { s with waiting := s.waiting ++ [i] } else { s with cmdOvf := s.cmdOvf + 1 }
    else
      let r := turnUnder rom { s with serving := false } body
      match r.2 with
      | none => { r.1 with command := some i }
      | some st => { r.1 with
          result := (tag, BitVec.ofNat 8 st)
          cmdWork := .fresh
          command := r.1.waiting.head?
          waiting := r.1.waiting.tail })

/-- Rows checked, then an effect that finishes at once. -/
def checked (rows : List (Bool × Nat)) (s : State) (effect : State) : Turn :=
  match firstRow rows with
  | some st => (s, some st)
  | none => (effect, some 0)

/-- A nonzero bit of a doubleword from bit n on. -/
def above (d : Dword) (n : Nat) : Bool := d >>> n != 0

/-- The BADJOB row of a job command. -/
def noJob (s : State) (c : Cmd) : Bool := c.job == 0 || (s.job? c.j).isNone

/-- Whether a physical address is not one of this module's 1 TiB, or not aligned. -/
def badPhys (s : State) (a : Dword) (n : Nat) : Bool :=
  decide (a.toNat / 2 ^ 42 ≠ s.moduleId.toNat) || decide (2 ^ 40 ≤ a.toNat % 2 ^ 42) || decide (a.toNat % n ≠ 0)

/-- Some bytes cut or filled to a length. -/
def fit (n : Nat) (bs : List Byte) : List Byte := (bs ++ List.replicate n 0).take n

/-- Bytes written to HBM of this module. -/
def State.putHbm (s : State) (a : Nat) (bs : List Byte) : State := s.putBytes ⟨.hbm, a, none⟩ bs

/-- Zeros over n bytes from an address; poisoned lines wholly inside are cleared (R406). -/
def Memory.clear (m : Memory) (a n : Nat) : Memory :=
  { cells := m.cells.filter fun c => !(decide (a ≤ c.1) && decide (c.1 < a + n))
    bad := m.bad.filter fun l => !(decide (a ≤ 128 * l) && decide (128 * l + 128 ≤ a + n)) }

/-- Zeros over n bytes of HBM (R387). -/
def State.scrubHbm (s : State) (a n : Nat) : State := { s with hbm := s.hbm.clear a n }

/-- A reserved OP: BADCMD, and nothing changes (R388). -/
def execReservedOpCommand (op : BitVec 8) (c : Cmd) (s : State) : Res :=
  runCommand (.reservedOpCommand op c) c.tag false s fun s => (s, some 1)

/-! ### Jobs (R367–R369, R387) -/

/-- Whether the box of a module set lies inside the grid (R350, R367). (DEDUCED: log entry 65) -/
def State.boxFits (s : State) (b : BitVec 20) : Bool :=
  decide ((b.extractLsb' 4 4).toNat < s.torus.1) && decide ((b.extractLsb' 11 3).toNat < s.torus.2.1) &&
    decide ((b.extractLsb' 17 3).toNat < s.torus.2.2)

/-- JOB_CREATE. (DEDUCED: log entry 65) -/
def execJobCreate (c : Cmd) (s : State) : Res :=
  runCommand (.jobCreate c) c.tag false s fun s =>
    checked [(c.unusedSet 2 || above c.d1 52 || above c.d2 20, 1), (c.job == 0 || (s.job? c.j).isSome, 2),
      (badPhys s c.d1 65536 || !inBox (c.d2.setWidth 20) s.moduleId.toNat || !s.boxFits (c.d2.setWidth 20), 6)] s
      { s with jobs := s.jobs.put c.j (Job.reset (c.d1.setWidth 52) (c.d2.setWidth 20)) }

/-- The master descriptor of the cast engine (R377). -/
def castMaster (s : State) (job : Nat) : Dword := (3 : BitVec 4) ++ BitVec.ofNat 8 job ++ s.moduleId ++ (0 : BitVec 42)

/-- The cast engine stopped, with its record (R409, R411). -/
def endCast (s : State) (w : CastWork) (event : BitVec 8) (cause : Cause) : State :=
  let castKey := 2 ^ 41
  (releaseRegs { s with castWork := none } w.job castKey).mqRecord w.job event cause (castMaster s w.job) (if w.restore then 0x16 else 0x15)

/-- The tiles and banks of a killed job cleared (R369). -/
def clearJob (s : State) (j : Nat) (job : Job) : State :=
  let mine (t : Nat) (x : Tile) : Bool := x.job == some j || job.partition.any fun p => decide (p.1 ≤ t) && decide (t < p.1 + p.2)
  let banks := s.bankJob.filterMap fun (b, k) => if k = j then some b else none
  { s with
    tiles := s.tiles.map fun (t, x) => if mine t x then (t, Tile.reset) else (t, x)
    sram := banks.foldl (fun m b => m.clear (b * 2 ^ 20) (2 ^ 20)) s.sram
    bankJob := s.bankJob.filter fun (_, k) => k != j }

/-- Everything a job holds ends (R387). -/
def killJob (s : State) (j : Nat) (job : Job) : State :=
  let s0 := match s.castWork with
    | some w => if w.job = j then endCast s w 0x16 0 else s
    | none => s
  let s1 := if s0.castFrozenBy = j then { s0 with castFrozen := false } else s0
  let s2 := s1.mqRecord j 0x04 0 0 0
  let gone (id : Nat) : Bool := ((s.friezes.find id).map (·.job)) == some j
  let keep (k : Nat) : Bool := ((s.reqs.find k).map (·.job)) != some j
  let s3 := { s2 with
    queues := s2.queues.map fun (n, q) => if q.job = some j then (n, Queue.reset) else (n, q)
    friezes := s2.friezes.filter fun (_, f) => f.job != j
    kernels := s2.kernels.filter fun (_, q) => q.job != j
    reqs := s2.reqs.filter fun (_, r) => r.job != j
    routes := s2.routes.filter fun (_, r) => r.job != j
    engines := s2.engines.map fun g => g.killed j keep
    domains := s2.domains.filter fun (k, _) => k / 64 != j
    chains := s2.chains.filter fun (_, ch) => ch.job != j
    cur := match s2.cur with
      | some c => if gone c.fz then none else s2.cur
      | none => none }
  let s4 := clearJob s3 j job
  { s4 with jobs := s4.jobs.del j }

/-- JOB_KILL. -/
def execJobKill (c : Cmd) (s : State) : Res :=
  runCommand (.jobKill c) c.tag false s fun s =>
    checked [(c.unusedSet 0, 1), (noJob s c, 2)] s (match s.job? c.j with
      | none => s
      | some job => killJob s c.j job)

/-! ### Partitions (R12, R19, R368, R369) -/

/-- The 16-bit entries of a list in memory. -/
def readList (s : State) (a n : Nat) : List Nat := (List.range n).map fun k => leNat (s.hbm.readBytes (a + 2 * k) 2)

/-- A span of a partition list. -/
def spanOf (e : Nat) : Span := (e % 1024, e / 1024 % 32)

/-- Whether a span lies inside one die and on no fenced die row (R12, R407). (DEDUCED: log entry 65) -/
def spanOk (s : State) (p : Span) : Bool :=
  decide (1 ≤ p.2) && decide (p.2 ≤ 16) && decide (p.1 % 32 / 16 = (p.1 % 32 + p.2 - 1) / 16) &&
    !s.life.fenced.getLsbD (dieRow p.1)

/-- Whether two spans share a tile. -/
def spansMeet (p q : Span) : Bool := decide (p.1 < q.1 + q.2) && decide (q.1 < p.1 + p.2)

/-- Whether no two spans of a list share a tile. -/
def apart : List Span → Bool
  | [] => true
  | p :: rest => rest.all (fun q => !spansMeet p q) && apart rest

/-- The BADSPAN row. -/
def badSpans (s : State) (j : Nat) (l : List Span) : Bool :=
  !l.all (spanOk s) || !apart l ||
    s.jobs.any fun (k, x) => k != j && x.partition.any fun q => l.any (spansMeet q)

/-- A tile passes to a job: the LOCAL image of the job that had it is kept, the tile is cleared, and the new owner's image is put
back (R19, R369). -/
def handOver (j : Nat) (s : State) (t : Nat) : State :=
  let x := s.tile t
  if x.job = some j then s
  else
    let s1 := match x.job with
      | some k => s.updJob k fun y => { y with localSaves := y.localSaves.put t x.mem }
      | none => s
    let m := ((s1.job? j).bind fun y => y.localSaves.find t).getD Memory.empty
    let s2 := s1.updJob j fun y => { y with localSaves := y.localSaves.del t }
    s2.setTile t { Tile.reset with
      mem := m
      job := some j }

/-- Whether a frieze of the job still stands on a span outside a list. -/
def stillThere (s : State) (j : Nat) (l : List Span) : Bool :=
  s.friezes.any fun (_, f) => f.job == j && (f.state == .resident || (f.state == .handled && f.save.isEmpty)) &&
    !l.contains (f.head, f.len)

/-- A partition command's later turns: it completes once the friezes on dropped spans are saved. -/
def settlePartition (s : State) (j : Nat) (l : List Span) : Turn :=
  if stillThere s j l then (s, none)
  else
    let s1 := s.updJob j fun x => { x with partition := l }
    ((l.flatMap fun p => (List.range p.2).map (p.1 + ·)).foldl (handOver j) s1, some 0)

/-- SET_PARTITION: while it runs the partition is what the old and the new one share; PREEMPT takes the friezes elsewhere.
(DEDUCED: log entry 65) -/
def execSetPartition (c : Cmd) (s : State) : Res :=
  runCommand (.setPartition c) c.tag false s fun s =>
    match s.cmdWork with
    | .spans l => settlePartition s c.j l
    | _ =>
      let n := c.d2.toNat
      let es := if n ≤ 1024 ∧ badPhys s c.d1 2 = false then readList s c.d1.toNat n else []
      let l := es.map spanOf
      match firstRow [(c.unusedSet 2 || above c.d1 52 || es.any (fun e => decide (32768 ≤ e)), 1), (noJob s c, 2),
          (badSpans s c.j l, 3), (decide (1024 < n) || badPhys s c.d1 2, 6)] with
      | some st => (s, some st)
      | none =>
        settlePartition { s.updJob c.j fun x => { x with partition := x.partition.filter l.contains } with cmdWork := .spans l } c.j l

/-- SET_SHARED. A bank that held another job's data is cleared (R369). (DEDUCED: log entry 65) -/
def execSetShared (c : Cmd) (s : State) : Res :=
  runCommand (.setShared c) c.tag false s fun s =>
    let n := c.d2.toNat
    let bs := if n ≤ 512 ∧ badPhys s c.d1 2 = false then readList s c.d1.toNat n else []
    let foreign := s.jobs.any fun (k, x) => k != c.j && x.banks.any bs.contains
    checked [(c.unusedSet 2 || above c.d1 52, 1), (noJob s c, 2), (bs.dedup.length != bs.length || foreign, 4),
      (s.kernels.any fun (_, q) => q.job == c.j, 5),
      (decide (512 < n) || badPhys s c.d1 2 || bs.any (fun b => decide (512 ≤ b)), 6)] s
      (bs.foldl (init := s.updJob c.j fun x => { x with banks := bs }) fun s b =>
        if (s.bankJob.find b).getD c.j = c.j then { s with bankJob := s.bankJob.put b c.j }
        else { s with
          sram := s.sram.clear (b * 2 ^ 20) (2 ^ 20)
          bankJob := s.bankJob.put b c.j })

/-- SET_JOBREG. -/
def execSetJobreg (c : Cmd) (s : State) : Res :=
  runCommand (.setJobreg c) c.tag false s fun s =>
    checked [(c.unusedSet 4 || c.d1.extractLsb' 0 12 != (0 : BitVec 12) || above c.d4 32, 1), (noJob s c, 2)] s
      (s.updJob c.j fun x => { x with
        trapVec := c.d1
        waitLimit := c.d2
        poolWaitLimit := c.d3
        smpPeriod := c.d4.setWidth 32 })

/-- Whether an owner range stands on a page that a GLOBAL address of the job still leads to (R363, R375). -/
def rangeMapped (s : State) (j : Nat) (r : OwnerRange) : Bool :=
  match translate s j r.va .aperture with
  | .ok p => p.addr == r.start
  | .error _ => false

/-- INVALIDATE: no translation is cached in the model; the owner ranges on pages no longer mapped are removed (R375), and the versions of
pages no longer versioned (R252).
(DEDUCED: log entry 22) -/
def execInvalidate (c : Cmd) (s : State) : Res :=
  runCommand (.invalidate c) c.tag false s fun s =>
    let hit (r : OwnerRange) : Bool := !r.shared && decide (c.d1.toNat < r.va + r.len) && decide (r.va < c.d1.toNat + c.d2.toNat)
    checked [(c.unusedSet 2 || above c.d1 55, 1), (noJob s c, 2), (decide (2 ^ 55 < c.d1.toNat + c.d2.toNat), 6)] s
      (s.updJob c.j fun x => { x with owners := x.owners.filter fun r => !hit r || rangeMapped s c.j r }).dropUnversioned

/-! ### Queues and domains (R252, R253, R329, R387) -/

/-- The queue as QUEUE_SET sets it; a change of BASE or CAP zeroes the counters. -/
def Queue.set (q : Queue) (c : Cmd) : Queue :=
  let moved := q.base != c.d2.toNat || q.cap != c.d4.toNat
  let r := if moved then { Queue.reset with frozen := q.frozen } else q
  { r with
    enable := c.d1.getLsbD 16
    job := some c.j
    prio := (c.d1.extractLsb' 17 3).toNat
    vdom := (c.d1.extractLsb' 20 6).toNat
    base := c.d2.toNat
    cbase := c.d3.toNat
    cap := c.d4.toNat }

/-- QUEUE_SET. -/
def execQueueSet (c : Cmd) (s : State) : Res :=
  runCommand (.queueSet c) c.tag false s fun s =>
    let n := (c.d1.extractLsb' 0 16).toNat
    let q := s.queue n
    let foreign := match q.job with
      | some k => k != c.j && (s.job? k).isSome
      | none => false
    let moves := q.base != c.d2.toNat || q.cap != c.d4.toNat
    checked [(c.unusedSet 4 || above c.d1 26 || above c.d2 52 || above c.d3 52, 1), (noJob s c, 2),
      (foreign || (moves && q.appended != q.done), 5),
      (badPhys s c.d2 64 || badPhys s c.d3 16 || decide (c.d4.toNat < 4) || decide (20 < c.d4.toNat), 6)] s
      (s.updQueue n (·.set c))

/-- Unstarted records discarded in order up to a sequence number, as far as the completion mask reaches. (DEDUCED: log entry 66) -/
def discardRecords (n : Nat) (upto : Word) : Nat → State → State
  | 0, s => s
  | fuel + 1, s =>
    let q := s.queue n
    if !seqBefore q.started upto || !((q.started - q.done).toNat < 64) then s
    else discardRecords n upto fuel (completeRecord (s.updQueue n (·.pass)) n q.started 0 0x06 2 0)

/-- A QUEUE_RESET's turn: it completes once every record it discards has its completion entry. (DEDUCED: log entry 66) -/
def settleReset (s : State) (n : Nat) (upto : Word) : Turn :=
  let s1 := discardRecords n upto 128 s
  (s1, if seqBefore (s1.queue n).started upto then none else some 0)

/-- QUEUE_RESET: each unstarted record is discarded, and its dependants will be refused (R332). (DEDUCED: log entry 66) -/
def execQueueReset (c : Cmd) (s : State) : Res :=
  runCommand (.queueReset c) c.tag false s fun s =>
    let n := (c.d1.extractLsb' 0 16).toNat
    match s.cmdWork with
    | .queue upto => settleReset s n upto
    | _ =>
      let q := s.queue n
      match firstRow [(c.unusedSet 1 || above c.d1 16, 1), (noJob s c, 2), (q.job != some c.j, 6)] with
      | some st => (s, some st)
      | none =>
        let seqs := (List.range (q.appended - q.started).toNat).map fun k => q.started + BitVec.ofNat 32 k
        settleReset { s.updQueue n fun q => seqs.foldl (·.refuse ·) q with cmdWork := .queue q.appended } n q.appended

/-- DOMAIN_SET: a new domain starts COUNTER and PUBLISHED at D · 2^42. -/
def execDomainSet (c : Cmd) (s : State) : Res :=
  runCommand (.domainSet c) c.tag false s fun s =>
    let dom := (c.d1.extractLsb' 0 6).toNat
    let home := (c.d1.extractLsb' 6 10).toNat
    let first : BitVec 48 := BitVec.ofNat 48 (dom * 2 ^ 42)
    let new : Domain :=
      { home := home, poolBase := c.d2.toNat, poolSize := c.d3.toNat, counter := first, published := first, recs := [], regs := [],
        settled := [], lwm := first, waitSince := [], waiters := [], nextLwm := s.cycles.toNat, pages := [] }
    let other := match s.dom? c.j dom with
      | some d => d.home != home
      | none => false
    checked [(c.unusedSet 3 || above c.d1 16 || above c.d2 52, 1), (noJob s c, 2), (badPhys s c.d2 128 || other, 6)] s
      { s with domains := s.domains.put (domKey c.j dom) (match s.dom? c.j dom with
        | some d => { d with
            poolBase := c.d2.toNat
            poolSize := c.d3.toNat }
        | none => new) }

/-- MQ_SET. -/
def execMqSet (c : Cmd) (s : State) : Res :=
  runCommand (.mqSet c) c.tag false s fun s =>
    checked [(c.unusedSet 2 || above c.d1 52, 1), (noJob s c, 2),
      (badPhys s c.d1 32 || decide (c.d2.toNat < 4) || decide (20 < c.d2.toNat), 6)] s
      (s.updJob c.j fun x => { x with mq := some ⟨c.d1.toNat, c.d2.toNat⟩ })

/-! ### FREEZE and THAW (R378, R387, R388) -/

/-- A FREEZE or THAW command: it finishes when the master is frozen or thawed. -/
def masterCommand (i : Instr) (c : Cmd) (thaw : Bool) (s : State) : Res :=
  runCommand i c.tag false s fun s =>
    let turn (tgt : Option Nat) : Turn :=
      let p := actMaster s c.d1 thaw tgt
      match p.2 with
      | none => (p.1, some 0)
      | some id => ({ p.1 with cmdWork := .frieze id }, none)
    match s.cmdWork with
    | .frieze id => turn (some id)
    | _ =>
      match firstRow [(c.unusedSet 1, 1), (noJob s c, 2), (descBad s c.d1 || descJob c.d1 != c.j, 6)] with
      | some st => (s, some st)
      | none => turn none

def execFreezeCmd (c : Cmd) (s : State) : Res := masterCommand (.freezeCmd c) c false s
def execThawCmd (c : Cmd) (s : State) : Res := masterCommand (.thawCmd c) c true s

/-! ### Lost ports (R258, R295, R352, R361, R405) -/

/-- A counter one up, at most its greatest value. -/
def saturate (n bits : Nat) : Nat := min (n + 1) (2 ^ bits - 1)
/-- A counter of a table one up. -/
def countUp (t : Tab Nat) (k bits : Nat) : Tab Nat := t.put k (saturate ((t.find k).getD 0) bits)

/-- The module at the far end of a port. -/
def neighbour (s : State) (port : Nat) : Nat :=
  let h := coords s.moduleId.toNat
  let dir := port / 4
  let move (x n : Nat) (up : Bool) : Nat := if up then (x + 1) % n else (x + n - 1) % n
  let up := decide (dir % 2 = 1)
  match dir / 2 with
  | 0 => move h.1 s.torus.1 up + 16 * h.2.1 + 128 * h.2.2
  | 1 => h.1 + 16 * move h.2.1 s.torus.2.1 up + 128 * h.2.2
  | _ => h.1 + 16 * h.2.1 + 128 * move h.2.2 s.torus.2.2 up

/-- The dispatches under way whose group reaches a member in a direction fail. -/
def losePortDispatches (s : State) (dir : Nat) : State :=
  (List.range 4).foldl (init := s) fun s die =>
    match (s.engine die).cfg with
    | none => s
    | some c => if c.members.any fun m => m.1 != s.moduleId.toNat && s.firstDir m.1 == some dir then loseDispatch s die else s

/-- The transactions of domains with lines on a module that their home no longer reaches end with code 6 (R258). -/
def loseRecords (s : State) : State :=
  s.domains.foldl (init := s) fun s (k, d) =>
    let job := k / 64
    let dom := k % 64
    let away := (versionedPages s job dom).any (fun p => !s.homeReaches job dom (p.1 / 2 ^ 42)) ||
      s.chains.any fun (l, ch) => ch.job == job && ch.dom == dom && !s.homeReaches job dom (lineModule l)
    if away then d.recs.foldl (fun s (t, r) => match r.state with
        | .active | .doomed => s.finishRec job dom t 6 0
        | .committing =>
          if r.refusedBy = [] ∧ r.ctrls.all r.acked.contains then
            ((completeChains s job dom t r.cnum).settleNum job dom r.cnum).finishRec job dom t 1 r.cnum
          else (s.settleNum job dom r.cnum).finishRec job dom t 6 0
        | .finished => s) s
    else s

/-- A port lost: its routes and dispatches end, and every job whose module set holds both ends has a record.
(DEDUCED: log entry 73) -/
def losePort (s : State) (port : Nat) (lanes : List Nat) : State :=
  if s.portsLost.contains port then s
  else
    let far := neighbour s port
    let s1 := loseRoutes { s with
      portsLost := s.portsLost ++ [port]
      life := { s.life with losses := lanes.foldl (fun t l => countUp t (4 * port + l) 32) s.life.losses } } port
    let s2 := loseRecords (losePortDispatches s1 (port / 4))
    let addr : Dword := (0 : BitVec 43) ++ BitVec.ofNat 5 port ++ (0 : BitVec 6) ++ BitVec.ofNat 10 far
    s2.jobs.foldl (fun s (j, x) =>
      if j != 0 && inBox x.mbox s.moduleId.toNat && inBox x.mbox far then s.mqRecord j 0x14 0 0 addr else s) s2

/-! ### The aperture, SCRUB and the torus (R350, R386, R387) -/

/-- APERTURE. -/
def execAperture (c : Cmd) (s : State) : Res :=
  runCommand (.aperture c) c.tag false s fun s =>
    let phys := c.d2.getLsbD 0
    checked [(c.unusedSet 2 || above c.d2 1 || above c.d1 (if phys then 52 else 55), 1),
      (if phys then c.job != 0 else noJob s c, 2),
      (decide (c.d1.toNat % 65536 ≠ 0) || (phys && badPhys s c.d1 65536), 6)] s
      { s with
        apBase := c.d1.toNat
        apJob := c.j
        apPhys := phys }

/-- SCRUB. -/
def execScrub (c : Cmd) (s : State) : Res :=
  runCommand (.scrub c) c.tag false s fun s =>
    checked [(c.unusedSet 2 || above c.d1 52, 1), (c.job != 0, 2),
      (badPhys s c.d1 65536 || decide (c.d2.toNat % 65536 ≠ 0) || decide (2 ^ 40 < c.d1.toNat % 2 ^ 42 + c.d2.toNat), 6)] s
      (s.scrubHbm c.d1.toNat c.d2.toNat)

/-- The memory of this module under a new module id: its lines are named by the new id. (DEDUCED: log entry 67) -/
def Memory.renumber (m : Memory) (old new : Nat) : Memory :=
  if old = new then m
  else
    let z := 2 ^ 42
    let mine := (m.cells.filter fun c => decide (c.1 / z = old)).map fun c => (c.1 % z + z * new, c.2)
    let rest := m.cells.filter fun c => decide (c.1 / z ≠ old) && decide (c.1 / z ≠ new)
    let y := z / 128
    { cells := (rest.filter fun c => decide (c.1 < z * new)) ++ mine ++ rest.filter fun c => decide (z * new ≤ c.1)
      bad := (m.bad.filter fun l => decide (l / y ≠ new)).map fun l => if l / y = old then l % y + y * new else l }

/-- TORUS_SET. (DEDUCED: log entry 67) -/
def execTorusSet (c : Cmd) (s : State) : Res :=
  runCommand (.torusSet c) c.tag false s fun s =>
    let t := ((c.d1.extractLsb' 0 4).toNat + 1, (c.d1.extractLsb' 4 3).toNat + 1, (c.d1.extractLsb' 7 3).toNat + 1)
    let id : BitVec 10 := c.d1.extractLsb' 10 10
    checked [(c.unusedSet 1 || above c.d1 20, 1), (c.job != 0, 2), (s.jobs.keys.any (· != 0), 5),
      (!{ s with torus := t }.inGrid id.toNat, 6)] s
      { s with
        torus := t
        hbm := s.hbm.renumber s.moduleId.toNat id.toNat
        moduleId := id }

/-- LINK_TRAIN: the port trains, or is lost; a far end that does not report the neighbour's id and the opposite direction makes it fail,
with a record for every job here. Whether it trains and what the far end reports are not known to the module before (R350–R352).
(DEDUCED: log entry 63) -/
def execLinkTrain (c : Cmd) (s : State) : Res :=
  runCommand (.linkTrain c) c.tag false s fun s =>
    let p := c.d1.toNat
    let trained := s.takeBit
    let reported := trained.2.takeFree
    let id := reported.1 % 1024
    let dir := reported.1 / 1024 % 6
    let s1 := reported.2
    let effect :=
      if !trained.1 then losePort s1 p [0, 1, 2, 3]
      else if id = neighbour s p ∧ dir = Nat.xor (p / 4) 1 then { s1 with
        portsTrained := if s1.portsTrained.contains p then s1.portsTrained else s1.portsTrained ++ [p]
        portsLost := s1.portsLost.filter (· != p)
        portsFailed := s1.portsFailed.filter (· != p) }
      else
        let addr : Dword := (0 : BitVec 35) ++ BitVec.ofNat 3 dir ++ BitVec.ofNat 10 id ++
          (0 : BitVec 11) ++ BitVec.ofNat 5 p
        s1.jobs.keys.foldl (fun s j => if j = 0 then s else s.mqRecord j 0x03 0 0 addr)
          (loseRecords { s1 with portsFailed := if s1.portsFailed.contains p then s1.portsFailed else s1.portsFailed ++ [p] })
    checked [(c.unusedSet 1 || above c.d1 5, 1), (c.job != 0, 2), (decide (24 ≤ p), 6)] s effect

/-! ### Ethernet (R365, R387) -/

/-- The job that holds a memory key. (DEDUCED: log entry 64) -/
def keyJob (s : State) (key : Nat) : Option Nat := (s.jobs.find? fun (_, x) => (x.keys.find key).isSome).map (·.1)
/-- The job that holds a queue pair. (DEDUCED: log entry 64) -/
def pairJob (s : State) (qp : Nat) : Option Nat := (s.jobs.find? fun (_, x) => (x.qps.find qp).isSome).map (·.1)
/-- Keys and queue pairs held by every job. -/
def State.keyCount (s : State) : Nat := (s.jobs.map fun (_, x) => x.keys.length).sum
def State.pairCount (s : State) : Nat := (s.jobs.map fun (_, x) => x.qps.length).sum

/-- ETH_KEY: length 0 revokes the key. (DEDUCED: log entry 64) -/
def execEthKey (c : Cmd) (s : State) : Res :=
  runCommand (.ethKey c) c.tag false s fun s =>
    let k := c.d1.toNat
    let held := keyJob s k
    checked [(c.unusedSet 4 || above c.d1 24 || above c.d2 55 || above c.d4 2, 1), (noJob s c, 2),
      ((held.isSome && held != some c.j) || decide (2 ^ 55 < c.d2.toNat + c.d3.toNat), 6),
      (held.isNone && c.d3 != 0 && !Config.keyRoom s.keyCount, 7)] s
      (s.updJob c.j fun x =>
        { x with keys := if c.d3 = 0 then x.keys.del k else x.keys.put k ⟨c.d2.toNat, c.d3.toNat, c.d4.getLsbD 0, c.d4.getLsbD 1⟩ })

/-- ETH_QP. (DEDUCED: log entry 64) -/
def execEthQp (c : Cmd) (s : State) : Res :=
  runCommand (.ethQp c) c.tag false s fun s =>
    let k := (c.d1.extractLsb' 0 24).toNat
    let port := (c.d1.extractLsb' 24 3).toNat
    let del := c.d1.getLsbD 31
    let mtu := (c.d5.extractLsb' 24 3).toNat
    let held := pairJob s k
    let q : QueuePair :=
      { port := port, remote := (c.d2.extractLsb' 0 24).toNat, psn := (c.d2.extractLsb' 24 24).toNat,
        gid := c.d3.toNat + 2 ^ 64 * c.d4.toNat, udp := (c.d5.extractLsb' 0 16).toNat, tclass := (c.d5.extractLsb' 16 8).toNat,
        mtu := mtu, rate := c.d6.toNat, error := false }
    checked [(c.unusedSet 6 || above c.d1 32 || c.d1.extractLsb' 27 4 != (0 : BitVec 4) || above c.d2 48 || above c.d5 27, 1),
      (noJob s c, 2),
      (decide (5 < port) || (!del && (mtu == 0 || decide (5 < mtu))) || (held.isSome && held != some c.j) || (del && held.isNone), 6),
      (held.isNone && !del && !Config.pairRoom s.pairCount, 7)] s
      (s.updJob c.j fun x => { x with qps := if del then x.qps.del k else x.qps.put k q })

/-! ### ATTEST and CTX_POOL (R390, R408) -/

/-- The first 2,088 bytes of the report. (DEDUCED: log entry 68) -/
def reportBody (s : State) (nonce : List Byte) : List Byte :=
  let d0 : Dword := (0x0840A77E : BitVec 32) ++ (1 : BitVec 32)
  let d13 : Dword := (0 : BitVec 38) ++ s.moduleId ++ Config.firmwareVersion s.flash
  bytesOf d0 ++ nonce ++ fit 64 (Config.firmwareDigest s.flash) ++ bytesOf d13 ++ fit 16 Config.serial ++ bytesOf s.cycles ++
    fit 1952 Config.identityKey

/-- ATTEST. -/
def execAttest (c : Cmd) (s : State) : Res :=
  runCommand (.attest c) c.tag false s fun s =>
    let body := reportBody s (s.hbm.readBytes c.d1.toNat 32)
    checked [(c.unusedSet 2 || above c.d1 52 || above c.d2 52, 1), (c.job != 0, 2), (badPhys s c.d1 1 || badPhys s c.d2 64, 6)] s
      (s.putHbm c.d2.toNat (body ++ fit 3309 (Config.signature body)))

/-- CTX_POOL. -/
def execCtxPool (c : Cmd) (s : State) : Res :=
  runCommand (.ctxPool c) c.tag false s fun s =>
    let inUse := ((s.job? c.j).map fun x => !x.poolUsed.isEmpty).getD false
    checked [(c.unusedSet 2 || above c.d1 55, 1), (noJob s c, 2), (inUse, 5),
      (decide (c.d1.toNat % 65536 ≠ 0) || decide (65536 < c.d2.toNat), 6)] s
      (s.updJob c.j fun x => { x with
        poolBase := c.d1.toNat
        poolCount := c.d2.toNat })

/-! ### The append window and the aperture (R330, R386, R438) -/

/-- HOST_APPEND: a write to a queue's append window. -/
def execHostAppend (queue : Nat) (record : List Dword) (s : State) : Res :=
  .next (let q := s.queue queue
    if !q.enable || q.full || record.length != 8 then
      s.updQueue queue fun q => { q with ovf := if q.ovf = -1 then q.ovf else q.ovf + 1 }
    else appendRecord s queue (record.flatMap bytesOf))

/-- The record of an aperture access refused. -/
def apertureFault (s : State) (va : Nat) : State := s.mqRecord s.apJob 0x05 causeTranslation 0 (BitVec.ofNat 64 va)

/-- The places of n bytes from an offset of the aperture in job mode, or the address that fails. -/
def aperturePlaces (s : State) (va : Nat) : Nat → Nat → Except Nat (List (Place × Nat))
  | _, 0 => .ok []
  | n, fuel + 1 =>
    if n = 0 then .ok []
    else
      let z := min n (65536 - va % 65536)
      match spaceCheck s s.apJob 0 spGlobal va z .aperture with
      | .error _ => .error va
      | .ok p => match aperturePlaces s (va + z) (n - z) fuel with
        | .error e => .error e
        | .ok ps => .ok ((p, z) :: ps)

/-- Whether BAR4 reaches the staging SRAM: while the boot ROM serves (R438). -/
def State.romServes (s : State) : Bool := s.boot == 0 || s.boot == 3

/-- APERTURE_READ. -/
def execApertureRead (off len : Nat) (s : State) : Res :=
  .next (if s.romServes then s.emit (.read (s.staged.readBytes off len))
    else if s.apPhys then s.emit (.read (s.hbm.readBytes (s.apBase + off) len))
    else match aperturePlaces s (s.apBase + off) len (len / 65536 + 2) with
      | .ok ps => s.emit (.read (s.gather ps))
      | .error va => (apertureFault s va).emit (.read (List.replicate len 0xFF)))

/-- APERTURE_WRITE; it may change the tables (R252, R371). -/
def execApertureWrite (off : Nat) (data : List Byte) (s : State) : Res :=
  .next (if s.romServes then
      if off + data.length ≤ 2 ^ 26 then { s with staged := s.staged.writeBytes off data } else s
    else if s.apPhys then (s.putHbm (s.apBase + off) data).dropUnversioned
    else match aperturePlaces s (s.apBase + off) data.length (data.length / 65536 + 2) with
      | .ok ps => (s.scatter ps data).dropUnversioned
      | .error va => apertureFault s va)

end Sys2Proof.Machine
end

