-- ==== Sys2Proof/Machine/Integer.lean ====
section
/-! DEFINITION. Groups 0x1 and 0x2: the integer words (R306–R310). Each writes its destination at issue and is complete at issue (R297). -/

namespace Sys2Proof.Machine

/-- An integer word: g[D] takes a value computed from the sources as they stand at issue. -/
def aluWord (i : Instr) (h : Hdr) (d : Reg) (v : Ctx → Dword) (s : State) : Res :=
  issueWord i h s fun c s => .done (c.setG s d (v c)) true

/-- The sign-extended immediate of an RI word. -/
def sx26 (imm : BitVec 26) : Dword := imm.signExtend 64

def execAdd (h : Hdr) (d a b : Reg) (s : State) : Res := aluWord (.add h d a b) h d (fun c => c.g a + c.g b) s
def execSub (h : Hdr) (d a b : Reg) (s : State) : Res := aluWord (.sub h d a b) h d (fun c => c.g a - c.g b) s
def execMul (h : Hdr) (d a b : Reg) (s : State) : Res := aluWord (.mul h d a b) h d (fun c => c.g a * c.g b) s
def execMulh (h : Hdr) (d a b : Reg) (u : Bool) (s : State) : Res :=
  aluWord (.mulh h d a b u) h d (fun c => mulHigh u (c.g a) (c.g b)) s
def execAnd (h : Hdr) (d a b : Reg) (s : State) : Res := aluWord (.and h d a b) h d (fun c => c.g a &&& c.g b) s
def execOr (h : Hdr) (d a b : Reg) (s : State) : Res := aluWord (.or h d a b) h d (fun c => c.g a ||| c.g b) s
def execXor (h : Hdr) (d a b : Reg) (s : State) : Res := aluWord (.xor h d a b) h d (fun c => c.g a ^^^ c.g b) s
def execShl (h : Hdr) (d a b : Reg) (s : State) : Res :=
  aluWord (.shl h d a b) h d (fun c => c.g a <<< ((c.g b).toNat % 64)) s
def execShr (h : Hdr) (d a b : Reg) (s : State) : Res :=
  aluWord (.shr h d a b) h d (fun c => c.g a >>> ((c.g b).toNat % 64)) s
def execSar (h : Hdr) (d a b : Reg) (s : State) : Res :=
  aluWord (.sar h d a b) h d (fun c => (c.g a).sshiftRight ((c.g b).toNat % 64)) s
def execMin (h : Hdr) (d a b : Reg) (u : Bool) (s : State) : Res :=
  aluWord (.min h d a b u) h d (fun c => minBv u (c.g a) (c.g b)) s
def execMax (h : Hdr) (d a b : Reg) (u : Bool) (s : State) : Res :=
  aluWord (.max h d a b u) h d (fun c => maxBv u (c.g a) (c.g b)) s
def execClz (h : Hdr) (d a : Reg) (s : State) : Res :=
  aluWord (.clz h d a) h d (fun c => BitVec.ofNat 64 (leadingZeros (c.g a) 64)) s
def execPopc (h : Hdr) (d a : Reg) (s : State) : Res :=
  aluWord (.popc h d a) h d (fun c => BitVec.ofNat 64 (onesBelow (c.g a) 64)) s
def execSel (h : Hdr) (d a b e : Reg) (s : State) : Res :=
  aluWord (.sel h d a b e) h d (fun c => if c.g e ≠ 0 then c.g a else c.g b) s
def execCmp (h : Hdr) (d a b : Reg) (cond : BitVec 4) (s : State) : Res :=
  aluWord (.cmp h d a b cond) h d (fun c => ofBool64 (condHolds cond (c.g a) (c.g b))) s

def execAddi (h : Hdr) (d a : Reg) (imm : BitVec 26) (s : State) : Res :=
  aluWord (.addi h d a imm) h d (fun c => c.g a + sx26 imm) s
def execSubi (h : Hdr) (d a : Reg) (imm : BitVec 26) (s : State) : Res :=
  aluWord (.subi h d a imm) h d (fun c => c.g a - sx26 imm) s
def execMuli (h : Hdr) (d a : Reg) (imm : BitVec 26) (s : State) : Res :=
  aluWord (.muli h d a imm) h d (fun c => c.g a * sx26 imm) s
def execAndi (h : Hdr) (d a : Reg) (imm : BitVec 26) (s : State) : Res :=
  aluWord (.andi h d a imm) h d (fun c => c.g a &&& sx26 imm) s
def execOri (h : Hdr) (d a : Reg) (imm : BitVec 26) (s : State) : Res :=
  aluWord (.ori h d a imm) h d (fun c => c.g a ||| sx26 imm) s
def execXori (h : Hdr) (d a : Reg) (imm : BitVec 26) (s : State) : Res :=
  aluWord (.xori h d a imm) h d (fun c => c.g a ^^^ sx26 imm) s
def execShli (h : Hdr) (d a : Reg) (n : BitVec 6) (s : State) : Res :=
  aluWord (.shli h d a n) h d (fun c => c.g a <<< n.toNat) s
def execShri (h : Hdr) (d a : Reg) (n : BitVec 6) (s : State) : Res :=
  aluWord (.shri h d a n) h d (fun c => c.g a >>> n.toNat) s
def execSari (h : Hdr) (d a : Reg) (n : BitVec 6) (s : State) : Res :=
  aluWord (.sari h d a n) h d (fun c => (c.g a).sshiftRight n.toNat) s
def execMini (h : Hdr) (d a : Reg) (imm : BitVec 26) (s : State) : Res :=
  aluWord (.mini h d a imm) h d (fun c => minBv false (c.g a) (sx26 imm)) s
def execMaxi (h : Hdr) (d a : Reg) (imm : BitVec 26) (s : State) : Res :=
  aluWord (.maxi h d a imm) h d (fun c => maxBv false (c.g a) (sx26 imm)) s
def execCmpi (h : Hdr) (d a : Reg) (cond : BitVec 4) (imm : BitVec 22) (s : State) : Res :=
  aluWord (.cmpi h d a cond imm) h d (fun c => ofBool64 (condHolds cond (c.g a) (imm.signExtend 64))) s
def execMovhi (h : Hdr) (d a : Reg) (imm : BitVec 26) (s : State) : Res :=
  aluWord (.movhi h d a imm) h d (fun c => (c.g a <<< 26) ||| imm.zeroExtend 64) s

end Sys2Proof.Machine
end

