-- ==== Sys2Proof/Machine/Traps.lean ====
section
/-! DEFINITION. Traps: TRAP, BRK and RESUME, the context image, the start of a handler and its end (R393–R403). -/

namespace Sys2Proof.Machine

/-! ### TRAP and BRK (R401, R402) -/

/-- TRAP: the trap word is the next word in lane order, and station 0 traps. -/
def execTrap (h : Hdr) (code : BitVec 20) (s : State) : Res :=
  issueWord (.trap h code) h s fun c s =>
    .done (if !c.isHead then s
      else s.updFz c.id fun f => { f with
        stop := .trap
        trap := some (Trap.meet f.trap ⟨causeTrapInstr, none, 0, c.lane + 1, code.setWidth 64, 0, 0⟩) }) true

/-- BRK: each station with a true predicate is a candidate; DETAIL1 gathers their mask. The trap stays pending through a freeze,
since its word is not issued again. -/
def execBrk (h : Hdr) (code : BitVec 20) (s : State) : Res :=
  issueWord (.brk h code) h s fun c s =>
    .done (s.updFz c.id fun f => { f with
      stop := if f.stop = .freeze then .freeze else .trap
      trap := some (Trap.meet f.trap ⟨causeBreakpoint, none, c.st, c.lane + 1, code.setWidth 64, BitVec.ofNat 64 (2 ^ c.st), 0⟩) }) true

/-! ### The context image (R396–R398) -/

/-- The index position of the first element not performed of an indirect stream. -/
def Slot.indexPos (q : Slot) : Nat :=
  match q.kind with
  | .gath | .scat | .scata => q.next / (q.shape.extent 0 * q.shape.extent 1 * q.shape.extent 2)
  | _ => 0

/-- A slot record of the image. -/
def slotRecord (q : Slot) : List Byte :=
  let st : BitVec 2 × BitVec 8 := match q.state with
    | .idle => (0, 0)
    | .running => (1, 0)
    | .faulted c => (2, c)
  let d0 : Dword := st.1 ++ (0 : BitVec 6) ++ st.2 ++ BitVec.ofNat 48 q.next
  if q.state = .idle then List.replicate 32 0
  else bytesOf d0 ++ bytesOf (BitVec.ofNat 64 q.indexPos) ++ List.replicate 16 0

/-- The predicates of a station as a byte. -/
def Station.predByte (x : Station) : BitVec 8 :=
  (List.range 8).foldl (fun b k => if x.rp (BitVec.ofNat 3 k) then b ||| (1#8 <<< k) else b) 0

/-- The record of station st. (DEDUCED: log entry 55) -/
def stationRecord (f : Frieze) (st : Nat) (x : Station) : List Byte :=
  let g : List Dword := (List.range 32).map fun k => x.rg (BitVec.ofNat 5 k)
  let vote := f.vote.bind fun v => v.votes[st]?
  let d700 : Dword := x.nextIndex ++ (0 : BitVec 4) ++ x.trapCause
  let d708 : Dword := BitVec.ofNat 7 (x.pos - f.lastPos) ++ BitVec.ofBool vote.isSome ++ BitVec.ofBool (vote.getD false) ++
    (0 : BitVec 7) ++ x.predByte ++ (0 : BitVec 40)
  let d730 : Dword := x.markTag ++ (0 : BitVec 31) ++ BitVec.ofBool f.sampling
  g.flatMap bytesOf ++ x.e.toList.flatMap bytesOf ++ x.quant.toList.flatMap bytesOf ++
    x.shapes.toList.flatMap (fun h => h.toList.flatMap bytesOf) ++
    x.views.toList.flatMap (fun v => bytesOf v.dword0 ++ bytesOf v.dword1) ++
    x.slots.toList.flatMap slotRecord ++
    [d700, d708, x.srSeed, x.issued, x.held, x.notsel, d730].flatMap bytesOf

/-- The window: the words from the position of station L − 1 to that of station 0 (R395). -/
def Frieze.window (f : Frieze) : List LaneWord := f.lane.drop (f.lastPos - f.laneBase)

/-- The header of the image. (DEDUCED: log entry 55) -/
def imageHeader (f : Frieze) (k : Option Kernel) (t : Trap) : List Byte :=
  let d0 : Dword := (0xC7E1 : BitVec 16) ++ (1 : BitVec 8) ++ t.cause ++ BitVec.ofNat 4 t.station ++ BitVec.ofNat 5 f.len ++
    BitVec.ofNat 2 f.ctx ++ (0 : BitVec 2) ++ BitVec.ofNat 7 f.window.length ++ (0 : BitVec 12)
  let d1 : Dword := f.id ++ BitVec.ofNat 16 ((k.map (·.queue)).getD 0) ++ (0 : BitVec 6) ++ BitVec.ofNat 10 f.head
  let d2 : Dword := ((k.map (·.seq)).getD 0) ++ (0 : BitVec 32)
  [d0, d1, d2, 0, t.d0, t.d1, t.d2, 0].flatMap bytesOf

/-- The parts of the image: offset and bytes. -/
def imageParts (f : Frieze) (k : Option Kernel) (t : Trap) : List (Nat × List Byte) :=
  (0, imageHeader f k t) ::
    f.window.zipIdx.map (fun (w, j) => (0x100 + 16 * j, bytesOf w.word ++ bytesOf (w.index ++ (0 : BitVec 12) : Dword))) ++
    f.stations.zipIdx.map fun (x, st) => (0x1000 + 0x800 * st, stationRecord f st x)

/-- The GLOBAL address form of pool entry i (R396). -/
def Job.entryForm (j : Job) (i : Nat) : Dword := mkForm spGlobal (j.poolBase + 0x10000 * i)

/-- The lowest-numbered free pool entry. -/
def Job.freeEntry (j : Job) : Option Nat := (List.range j.poolCount).find? fun i => !j.poolUsed.contains i

/-- Pool entry i freed. -/
def freeEntry (s : State) (job : Nat) (i : Option Nat) : State :=
  match i with
  | none => s
  | some i => s.updJob job fun j => { j with poolUsed := j.poolUsed.erase i }

/-- The places of every part of the image at a base. -/
def partPlaces (s : State) (f : Frieze) (base : Dword) (k : Access) :
    List (Nat × Nat) → Except Viol (List (Place × Nat))
  | [] => .ok []
  | (off, n) :: rest =>
    match rangeOf s f.job f.head (formAt base (formAddr base + off)) n k with
    | .error e => .error e
    | .ok ps => match partPlaces s f base k rest with
      | .error e => .error e
      | .ok qs => .ok (ps ++ qs)

/-! ### Ends (R400) -/

/-- A frieze ended by a trap: its kernel's completion entry names the first such frieze's cause; its queued work at the array is
dropped with its held parts. -/
def endByTrap (s : State) (id : Nat) (cause : Cause) : State :=
  match s.friezes.find id with
  | none => s
  | some f =>
    let s1 := { s with
      kernels := s.kernels.map fun (k, q) => if k = f.kernel ∧ !q.byHandler then (k, { q with
        byHandler := true
        cause := cause }) else (k, q)
      reqs := s.reqs.filter fun (_, r) => match r.kind with
        | .accsave .. | .accload .. => r.fz != id
        | _ => true }
    (freeEntry s1 f.job f.image).releaseFz id

/-- A handler's frieze and kernel gone. -/
def dropHandler (s : State) (id : Nat) : State :=
  match s.friezes.find id with
  | none => s
  | some f =>
    let s1 := s.releaseFz id
    match s1.kernels.find f.kernel with
    | none => { s1 with friezes := s1.friezes.del id }
    | some q => purgeKernel s1 f.kernel q

/-- The trap cause a frieze is ended with. -/
def Frieze.endCause (f : Frieze) : Cause := (f.trap.map (·.cause)).getD 0

/-! ### A trap is taken (R393, R394, R399) -/

/-- Index of the word at a station's stop position (R394). -/
def Frieze.indexAt (f : Frieze) (st : Nat) : BitVec 52 :=
  match f.laneWord? (f.posOf st) with
  | some w => w.index
  | none => match f.fetched with
    | (i, _) :: _ => i
    | [] => f.fetchIndex

/-- The first pending fault that a trap delivers, taken off. -/
def dropFault (t : Trap) : List PendFault → List PendFault
  | [] => []
  | p :: rest => if p.slot = t.slot ∧ p.cause = t.cause then rest else p :: dropFault t rest

/-- NEXT_INDEX of every station and TRAP_CAUSE of the trapping one written; the fault delivered is no longer pending.
(DEDUCED: log entry 12) -/
def Frieze.stopped (f : Frieze) (t : Trap) : Frieze :=
  { f with stations := f.stations.mapIdx fun st x =>
      let y := { x with nextIndex := f.indexAt st }
      if st = t.station then { y with
        trapCause := t.cause
        faults := dropFault t x.faults } else y }

/-- The handler's kernel (R399). -/
def handlerKernel (f : Frieze) (prio : Nat) (vec : Dword) (form : Dword) (no : Nat) : Kernel :=
  { queue := 0, seq := 0, job := f.job, prio := prio, vdom := 0, entry := vec.extractLsb' 12 52, f := 1, l := f.len, ord := false,
    stagger := false, snapshot := false, txn := false, sstep := 0, arg := form, nextId := 1, exited := 0, cause := 0,
    byHandler := false, v0 := View.launch, txid := 0, startNo := no, isHandler := true }

/-- The image stands in entry i: the handler is placed in the frieze's context. -/
def startHandler (s : State) (id : Nat) (f : Frieze) (j : Job) (i : Nat) : State :=
  let k := s.serial
  let q := handlerKernel f (s.prioOf f) j.trapVec (j.entryForm i) k
  let s1 := dropFetched ((s.unsendFz id).updFz id fun f => { f with
    state := .handled
    handler := some (k + 1)
    image := some i }) f.head
  { s1 with
    jobs := s1.jobs.put f.job { j with poolUsed := i :: j.poolUsed }
    kernels := s1.kernels.put k q
    friezes := s1.friezes.put (k + 1) { newFrieze k q 0 f.head f.ctx 0 k with handlerOf := some id }
    serial := k + 2 }

/-- A trap of a frieze that is no handler: its image is written and its handler placed, or it is ended (R400). -/
def trapFrieze (s : State) (id : Nat) (f : Frieze) (t : Trap) : State :=
  let ended (form : Dword) : State := (endByTrap s id t.cause).mqRecord f.job 0x10 t.cause (friezeMaster s f) form
  match s.job? f.job with
  | none => ended 0
  | some j =>
    match j.freeEntry with
    | none => ended 0
    | some i =>
      let parts := imageParts f (s.kernels.find f.kernel) t
      if j.trapVec.extractLsb' 12 52 = (0 : BitVec 52) then ended 0
      else match partPlaces s f (j.entryForm i) .write (parts.map fun p => (p.1, p.2.length)) with
        | .error _ => ended (j.entryForm i)
        | .ok ps => startHandler (s.scatter ps (parts.flatMap (·.2))) id f j i

/-- A trap of a handler: it and its frieze are ended. -/
def trapHandler (s : State) (id v : Nat) (t : Trap) : State :=
  match s.friezes.find v with
  | none => dropHandler s id
  | some f =>
    let form := match s.job? f.job, f.image with
      | some j, some i => j.entryForm i
      | _, _ => 0
    (endByTrap (dropHandler s id) v f.endCause).mqRecord f.job 0x12 t.cause (friezeMaster s f) form

/-- TRAP_TAKEN: every station has stopped and what the stop waits for is complete. (DEDUCED: log entry 12) -/
def execTrapTaken (fz : Nat) (s : State) : Res :=
  .next (match s.friezes.find fz with
    | none => s
    | some f =>
      match f.trap with
      | none => s
      | some t =>
        if f.state ≠ .resident ∨ f.stop ≠ .trap ∨ !stopDone s fz then s
        else
          let g := f.stopped t
          let s1 := { s with
            friezes := s.friezes.put fz g
            cur := if (s.cur.map (·.fz)) = some fz then none else s.cur }
          match f.handlerOf with
          | some v => trapHandler s1 fz v t
          | none => trapFrieze s1 fz g t)

/-! ### RESUME (R403) -/

/-- The parts RESUME reads: the header, and each station's record up to offset 0x738. -/
def resumeParts (f : Frieze) : List (Nat × Nat) :=
  (0, 64) :: (List.range f.len).map fun st => (0x1000 + 0x800 * st, 0x738)

/-- An image as RESUME reads it: the header and a record for each station. -/
structure Image where
  header : List Byte
  recs : List (List Byte)
deriving DecidableEq, Repr

/-- The bytes of RESUME's parts as an image. -/
def Image.of (bs : List Byte) (l : Nat) : Image :=
  ⟨bs.take 64, (List.range l).map fun st => ((bs.drop (64 + 0x738 * st)).take 0x738)⟩

/-- A doubleword of bytes at an offset. -/
def dwordAt (bs : List Byte) (off : Nat) : Dword := bvOf 64 ((bs.drop off).take 8)

/-- MODE of an image. -/
def Image.mode (m : Image) : BitVec 2 := (dwordAt m.header 0).extractLsb' 19 2
/-- JUMP of an image. -/
def Image.jump (m : Image) : BitVec 52 := (dwordAt m.header 24).extractLsb' 12 52
/-- RETRY and DROP of a slot. -/
def Image.retryDrop (m : Image) (st k : Nat) : Bool × Bool :=
  let d := dwordAt ((m.recs[st]?).getD []) (0x500 + 32 * k)
  (d.getLsbD 61, d.getLsbD 60)

/-- Whether RESUME refuses the image with PROTECTION. -/
def Image.refused (m : Image) (f : Frieze) : Bool :=
  m.mode == 3 || (m.mode == 2 && (List.range f.len).any fun st => f.posOf st != f.lastPos) ||
    (List.range f.len).any fun st => (List.range 16).any fun k => m.retryDrop st k == (true, true)

/-- RESUME's checks and its reading of the image, at the head: the bytes read where it may go on. (DEDUCED: log entry 56) -/
def resumeCheck (s : State) (c : Ctx) (a : Reg) : Except Viol (List Byte) :=
  match c.f.handlerOf.bind s.friezes.find with
  | none => .error ⟨causeProtection, false⟩
  | some f =>
    if c.g a ≠ c.f.arg then .error ⟨causeProtection, false⟩
    else match partPlaces s c.f (c.g a) .read (resumeParts f) with
      | .error e => .error e
      | .ok ps =>
        if ps.any (fun p => !s.placeUp p.1) then .error ⟨causeFabric, false⟩
        else if s.anyBad ps then .error ⟨causePoison, false⟩
        else if (Image.of (s.gather ps) f.len).refused f then .error ⟨causeProtection, false⟩
        else .ok (s.gather ps)

/-- RESUME: the image is read, and the handler ends as at EXIT; its frieze resumes once every slot of the handler is IDLE.
(DEDUCED: log entry 56) -/
def execResume (h : Hdr) (a : Reg) (s : State) : Res :=
  issueWord (.resume h a) h s fun c s =>
    match if c.isHead then resumeCheck s c a else .ok [] with
    | .error v => v.eff (c.g a)
    | .ok image =>
      let s1 := c.upd s fun x => { x with
        exiting := true
        exitSig := if h.sigMode = 1 then some ⟨c.id, c.st, h.sigMode, h.sigK⟩ else none }
      let s2 := if c.isHead then s1.updFz c.id fun f => { f with
          resuming := some image
          stop := if f.stop = .no then .exit else f.stop } else s1
      .done (settleExit s2 c.id) false

/-! ### The end of a handler (R400, R403) -/

/-- A slot as the resume leaves it. -/
def resumeSlot (x : Station) (k : Nat) (q : Slot) (rd : Bool × Bool) (mine : Bool) : Slot × List PendFault :=
  match q.state with
  | .faulted _ =>
    let faults := x.faults.filter fun p => p.slot != some k
    if rd.1 then ({ q with state := .running }, faults)
    else if rd.2 || mine then (Slot.idle, faults)
    else (q, x.faults)
  | _ => (q, x.faults)

/-- Slots of a station restored one by one. -/
def resumeSlots (m : Image) (t : Option Trap) (st : Nat) (x : Station) : Station :=
  (List.range 16).foldl (init := x) fun x k =>
    let mine := match t with
      | some t => t.station == st && t.slot == some k
      | none => false
    let r := resumeSlot x k (x.slot (BitVec.ofNat 4 k)) (m.retryDrop st k) mine
    { x.setSlot (BitVec.ofNat 4 k) r.1 with faults := r.2 }

/-- The RW fields of a station's record restored. -/
def restoreStation (b : List Byte) (x : Station) : Station :=
  let w (off : Nat) : Word := bvOf 32 ((b.drop off).take 4)
  { x with
    g := Vector.ofFn fun k => if k.val = 0 then 0 else dwordAt b (8 * k.val)
    e := Vector.ofFn fun k => w (0x100 + 4 * k.val)
    quant := Vector.ofFn fun k => w (0x180 + 4 * k.val)
    shapes := Vector.ofFn fun k => Vector.ofFn fun j => dwordAt b (0x280 + 32 * k.val + 8 * j.val)
    p := Vector.ofFn fun k => if k.val = 0 then x.p[0] else (dwordAt b 0x708).getLsbD (40 + k.val)
    srSeed := dwordAt b 0x710 }

/-- Where the frieze goes on under its resume mode. -/
def resumePath (m : Image) (f : Frieze) : Frieze :=
  if m.mode = 1 then
    match f.trap with
    | none => f
    | some t =>
      if t.at_ = f.posOf 0 then { f with
        fetched := []
        decoded := false
        fetchIndex := f.indexAt 0 + 1 }
      else { f with skip := some t.at_ }
  else if m.mode = 2 then { f with
    lane := []
    laneBase := f.lastPos
    vote := none
    fetched := []
    decoded := false
    fetchIndex := m.jump }
  else f

/-- The frieze as RESUME restores it. -/
def Frieze.resumed (f : Frieze) (m : Image) : Frieze :=
  let f1 := { f with stations := f.stations.mapIdx fun st x => resumeSlots m f.trap st (restoreStation ((m.recs[st]?).getD []) x) }
  { resumePath m f1 with
    state := .suspended
    handler := none
    image := none
    trap := none
    frozen := false }

/-- The SABORTs that waited for the end of an access RESUME has dropped are answered. (DEDUCED: log entry 57) -/
def answerAborts (s : State) (id : Nat) (old : Frieze) : State :=
  old.stations.zipIdx.foldl (init := s) fun s (x, st) =>
    (List.range 16).foldl (init := s) fun s k =>
      let q := x.slot (BitVec.ofNat 4 k)
      match s.station? id st with
      | none => s
      | some y =>
        if q.state ≠ .idle ∧ (y.slot (BitVec.ofNat 4 k)).state = .idle then
          q.aborts.foldl (fun s (g, m, c) => (s.updSt id st (·.setG g 1)).sigDone id st m c) s
        else s

/-- A frieze whose handler has executed RESUME goes on in the context (R403). (DEDUCED: log entry 56) -/
def resumeTrapped (s : State) (v : Nat) (f : Frieze) (bs : List Byte) : State :=
  let m := Image.of bs f.len
  let s1 := freeEntry (s.updFz v fun f => f.resumed m) f.job f.image
  resumeFz (answerAborts s1 v f) v f.head f.ctx

/-- HANDLER_END: every station of a handler has issued EXIT or RESUME and every slot is IDLE (R400, R403).
(DEDUCED: log entry 56) -/
def execHandlerEnd (fz : Nat) (s : State) : Res :=
  .next (match s.friezes.find fz with
    | none => s
    | some h =>
      match h.handlerOf.bind fun v => (s.friezes.find v).map fun f => (v, f) with
      | none => s
      | some (v, f) =>
        if h.state ≠ .resident ∨ !h.stations.all (fun x => x.exiting && x.quiet && x.faults.isEmpty) then s
        else match h.resuming with
          | some image => resumeTrapped (dropHandler s fz) v f image
          | none => endByTrap (dropHandler s fz) v f.endCause)

end Sys2Proof.Machine
end

