-- ==== Sys2Proof/Machine/Physical.lean ====
section
/-! DEFINITION. Casting, the lifetime record, power, firmware, bring-up and reset, errors of the hardware and what arrives over Ethernet (R352, R365, R366, R405–R413, R433–R438). -/

namespace Sys2Proof.Machine

/-! ### CAST and RESTORE (R408, R409, R411) -/

/-- The key a cast's registrations are held under. (DESIGN CHOICE: log entry 17) -/
def castReg : Nat := 2 ^ 41

/-- The segments of a list in memory. -/
def segments (s : State) (a n : Nat) : List (Nat × Nat) :=
  (List.range n).map fun k => ((s.hbm.read64 (a + 16 * k)).toNat, (s.hbm.read64 (a + 16 * k + 8)).toNat)

/-- Whether a segment is not of whole 64 KiB pages inside the address space. -/
def badSegment (p : Nat × Nat) : Bool := decide (p.1 % 65536 ≠ 0) || decide (p.2 % 65536 ≠ 0) || decide (2 ^ 55 < p.1 + p.2)

/-- The rows of R388 for CAST and RESTORE. -/
def castRows (s : State) (c : Cmd) (l : List (Nat × Nat)) : List (Bool × Nat) :=
  let n := c.d2.toNat
  let pair := ((s.job? c.j).bind fun x => x.qps.find c.d3.toNat).isSome
  [(c.unusedSet 5 || above c.d1 52 || above c.d3 24 || above c.d5 32, 1), (noJob s c, 2),
    (n == 0 || decide (256 < n) || badPhys s c.d1 1 || l.any badSegment || !pair, 6)]

/-- The engine set to work. -/
def castOf (c : Cmd) (restore : Bool) (l : List (Nat × Nat)) (datums : List (Nat × BitVec 48)) : CastWork :=
  { job := c.j, restore := restore, segments := l, qpn := c.d3.toNat, addr := c.d4.toNat, rkey := c.d5.toNat, datums := datums,
    tag := c.tag }

/-- The segments of a cast command that are read. -/
def castList (s : State) (c : Cmd) : List (Nat × Nat) := if c.d2.toNat ≤ 256 then segments s c.d1.toNat c.d2.toNat else []

/-- The domains of a job. -/
def jobDomains (s : State) (j : Nat) : List (Nat × Domain) :=
  s.domains.filterMap fun (k, d) => if k / 64 = j then some (k % 64, d) else none

/-- CAST: PUBLISHED of each domain is registered and the engine begins; it waits for a cast under way, and
while a domain holds 16,384 registrations (R257). (DEDUCED: log entry 69) (DESIGN CHOICE: log entry 113) -/
def execCast (c : Cmd) (s : State) : Res :=
  runCommand (.cast c) c.tag false s fun s =>
    let l := castList s c
    match firstRow (castRows s c l) with
    | some st => (s, some st)
    | none =>
      if s.castWork.isSome then (s, none)
      else
        let ds := (jobDomains s c.j).map fun p => (p.1, p.2.published)
        if (jobDomains s c.j).any fun p => decide (16384 ≤ p.2.regCount) then (s, none) else
        (ds.foldl (fun s p => s.register c.j p.1 castReg 0 p.2) { s with castWork := some (castOf c false l ds) }, some 0)

/-- The domains of the versioned pages of some segments. -/
def namedDomains (s : State) (j : Nat) (l : List (Nat × Nat)) : List Nat :=
  (l.flatMap fun p => (List.range (p.2 / 65536)).filterMap fun k =>
    match translate s j (p.1 + 65536 * k) .aperture with
    | .ok q => q.ver
    | .error _ => none).dedup

/-- RESTORE: every domain a segment names must hold no registration and no record. (DEDUCED: log entry 69) -/
def execRestore (c : Cmd) (s : State) : Res :=
  runCommand (.restore c) c.tag false s fun s =>
    let l := castList s c
    let rows := castRows s c l
    let busy := (namedDomains s c.j l).any fun d => ((s.dom? c.j d).map fun d => !d.regs.isEmpty || !d.recs.isEmpty).getD false
    match firstRow (rows.take 2 ++ [(busy, 5)] ++ rows.drop 2) with
    | some st => (s, some st)
    | none => if s.castWork.isSome then (s, none) else ({ s with castWork := some (castOf c true l []) }, some 0)

/-- The header of a cast image. -/
def castHeader (s : State) (w : CastWork) : List Byte :=
  let d0 : Dword := (0x0840CA57 : BitVec 32) ++ (1 : BitVec 16) ++ BitVec.ofNat 16 w.segments.length
  let datum (d : Nat) : BitVec 48 := ((w.datums.find? fun p => p.1 == d).map (·.2)).getD 0
  fit 0x200 ([d0, s.moduleId.setWidth 64, BitVec.ofNat 64 w.job].flatMap bytesOf) ++
    fit 0xE00 ((List.range 64).flatMap fun d => bytesOf ((datum d).setWidth 64))

/-- The bytes of one line of a segment, a versioned one through its domain's datum. -/
def castLine (s : State) (w : CastWork) (va : Nat) : Except Viol (List Byte) :=
  match spaceCheck s w.job 0 spGlobal va 128 .read with
  | .error e => .error e
  | .ok p =>
    if !s.placeUp p then .error ⟨causeFabric, false⟩
    else match p.ver with
      | none => .ok (s.bytesAt p 128)
      | some d =>
        let datum := ((w.datums.find? fun q => q.1 == d).map (·.2)).getD 0
        match readLine s w.job castReg 0 ⟨datum, false, true, false, 0⟩ d (p.addr / 128) with
        | .bytes bs _ => .ok bs
        | .wait => .ok (s.bytesAt p 128)
        | .fault e => .error e

/-- The bytes of n lines from an address, or the fault and its address. -/
def castLines (s : State) (w : CastWork) (va : Nat) : Nat → Except (Viol × Nat) (List Byte)
  | 0 => .ok []
  | n + 1 =>
    match castLine s w va with
    | .error e => .error (e, va)
    | .ok bs => match castLines s w (va + 128) n with
      | .error e => .error e
      | .ok more => .ok (bs ++ more)

/-- The bytes of every segment in order. -/
def castBytes (s : State) (w : CastWork) : List (Nat × Nat) → Except (Viol × Nat) (List Byte)
  | [] => .ok []
  | (va, n) :: rest =>
    match castLines s w va (n / 128) with
    | .error e => .error e
    | .ok bs => match castBytes s w rest with
      | .error e => .error e
      | .ok more => .ok (bs ++ more)

/-- The segment list as bytes. -/
def segmentBytes (l : List (Nat × Nat)) : List Byte := l.flatMap fun p => bytesOf (BitVec.ofNat 64 p.1) ++ bytesOf (BitVec.ofNat 64 p.2)

/-- A violation of the cast engine's own access freezes it for the job, with its record (R376, R378). -/
def freezeCast (s : State) (w : CastWork) (v : Viol) (va : Nat) : State :=
  if !v.freeze then s
  else { s with castFrozen := true, castFrozenBy := w.job }.mqRecord w.job 0x01 v.cause (castMaster s w.job) (mkForm spGlobal va)

/-- A cast completes: the image is written from the remote address upward. -/
def finishCast (s : State) (w : CastWork) : State :=
  match castBytes s w w.segments with
  | .error (e, va) => freezeCast (endCast s w 0x16 e.cause) w e va
  | .ok bs => endCast (s.emit (.rdma w.qpn w.addr (castHeader s w ++ segmentBytes w.segments ++ bs))) w 0x15 0

/-- One line of a segment written back; a versioned one in place as the version numbered PUBLISHED. -/
def restoreLine (s : State) (w : CastWork) (va : Nat) (bs : List Byte) : Except Viol State :=
  match spaceCheck s w.job 0 spGlobal va 128 .write with
  | .error e => .error e
  | .ok p =>
    if !s.placeUp p then .error ⟨causeFabric, false⟩
    else match p.ver with
      | none => .ok (s.putBytes p bs)
      | some d =>
        let pub := ((s.dom? w.job d).map (·.published)).getD 0
        .ok ((s.putBytes p bs).setChain (p.addr / 128) ⟨w.job, d, pub, [], none⟩)

/-- The lines of some segments written back from bytes. -/
def restoreLines (w : CastWork) : List Nat → List Byte → State → Except (State × Viol × Nat) State
  | [], _, s => .ok s
  | va :: rest, bs, s =>
    match restoreLine s w va (bs.take 128) with
    | .error e => .error (s, e, va)
    | .ok t => restoreLines w rest (bs.drop 128) t

/-- A restore completes: the image's magic and version are checked, and each segment is written. (DEDUCED: log entry 70) -/
def finishRestore (s : State) (w : CastWork) : State :=
  let read (s : State) (off n : Nat) : List Byte × State :=
    (fit n (Config.remoteBytes s.free (w.addr + off) n), { s with free := s.free + 1 })
  let h := read s 0 4096
  let d0 := dwordAt h.1 0
  if d0.extractLsb' 32 32 ≠ (0x0840CA57 : BitVec 32) ∨ d0.extractLsb' 16 16 ≠ (1 : BitVec 16) then endCast h.2 w 0x16 0
  else
    let n := (w.segments.map (·.2)).sum
    let b := read h.2 (4096 + 16 * w.segments.length) n
    let lines := w.segments.flatMap fun p => (List.range (p.2 / 128)).map fun k => p.1 + 128 * k
    match restoreLines w lines b.1 b.2 with
    | .error (t, e, va) => freezeCast (endCast t w 0x16 e.cause) w e va
    | .ok t => endCast t w 0x15 0

/-- CAST_END: the cast or restore under way completes (cause 0) or fails with a lost port or a queue-pair error. A frozen engine
goes no further. (DEDUCED: log entry 69) -/
def execCastEnd (cause : BitVec 8) (s : State) : Res :=
  .next (match s.castWork with
    | none => s
    | some w =>
      let broken := ((s.job? w.job).bind fun x => x.qps.find w.qpn).elim true (·.error)
      if cause ≠ 0 then endCast s w 0x16 cause
      else if s.castFrozen then s
      else if broken then endCast s w 0x16 causeFabric
      else if w.restore then finishRestore s w
      else finishCast s w)

/-! ### The lifetime record (R413) -/

/-- The counters of some lanes: replays, losses, zero. -/
def laneBytes (f : Lifetime) (first n : Nat) : List Byte :=
  (List.range n).flatMap fun k => bytesOf (BitVec.ofNat 64 ((f.replays.find (first + k)).getD 0)) ++
    bytesOf (BitVec.ofNat 32 ((f.losses.find (first + k)).getD 0)) ++ List.replicate 4 0

/-- Hours by band, eight bytes a band. -/
def bandBytes (t : Tab Nat) (n : Nat) : List Byte := (List.range n).flatMap fun k => bytesOf (BitVec.ofNat 64 ((t.find k).getD 0))

/-- The record. (DEDUCED: log entry 68) -/
def lifetimeBytes (s : State) : List Byte :=
  let f := s.life
  let d0 : Dword := (0x08401F3E : BitVec 32) ++ (1 : BitVec 32)
  let head := bytesOf d0 ++ fit 8 Config.serial ++ bytesOf (BitVec.ofNat 64 f.hours) ++ bytesOf (BitVec.ofNat 64 f.clamps)
  let mid := bytesOf f.fenced ++ bytesOf (BitVec.ofNat 64 f.checks)
  let hours := bandBytes f.junction 32 ++ bandBytes f.power 32 ++ bandBytes f.steps 16
  fit 0x40 head ++ fit 0xC0 mid ++ laneBytes f 0 96 ++ laneBytes f 96 48 ++ laneBytes f 144 4 ++ fit (0x1000 - 0xA40) hours ++
    (List.range 8192).flatMap fun k => bytesOf (BitVec.ofNat 64 ((f.transient.find k).getD 0)) ++
      bytesOf (BitVec.ofNat 32 ((f.lasting.find k).getD 0)) ++ List.replicate 4 0

/-- LIFETIME. -/
def execLifetime (c : Cmd) (s : State) : Res :=
  runCommand (.lifetime c) c.tag false s fun s =>
    checked [(c.unusedSet 1 || above c.d1 52, 1), (c.job != 0, 2), (badPhys s c.d1 4096, 6)] s
      (s.putHbm c.d1.toNat (lifetimeBytes s))

/-- The record as it stands written to flash (R413). -/
def State.keepLife (s : State) : State := { s with lifeFlash := s.life }

/-- LIFETIME_RECORD_HOURLY_WRITE: one more powered hour, at a junction temperature and a power that are readings and at the core
voltage step in force. (DEDUCED: log entry 68) -/
def execLifetimeRecordHourlyWrite (s : State) : Res :=
  .next ({ s with
    free := s.free + 1
    life := { s.life with
      hours := saturate s.life.hours 64
      junction := countUp s.life.junction (min ((Config.junction s.free).toNat / 5) 31) 64
      power := countUp s.life.power (min (Config.powerBand s.free) 31) 64
      steps := countUp s.life.steps s.vstep.toNat 64 } }.keepLife)

/-! ### Power and the clamp (R433–R435) -/

/-- POWER: under the clamp it takes effect when the clamp releases (R434). -/
def execPower (c : Cmd) (s : State) : Res :=
  runCommand (.power c) c.tag false s fun s =>
    let stby := c.d1.extractLsb' 0 2 == (1 : BitVec 2)
    let step : BitVec 4 := c.d2.setWidth 4
    match firstRow [(c.unusedSet 2 || above c.d1 2 || above c.d2 4, 1), (c.job != 0, 2), (stby && !s.kernels.isEmpty, 5),
        (c.d1.getLsbD 1 || step.ult Config.minVstep, 6)] with
    | some st => (s, some st)
    | none =>
      if s.clamp then (s, none)
      else ({ s with
        standby := stby
        vstep := step
        tiles := if stby && !s.standby then s.tiles.map fun (t, x) => (t, { Tile.reset with job := x.job }) else s.tiles }, some 0)

/-- THERMAL_EMERGENCY_CLAMP. -/
def execThermalEmergencyClamp (s : State) : Res :=
  .next (if s.clamp then s
    else { s.raiseMsix 0 with
      clamp := true
      life := { s.life with clamps := saturate s.life.clamps 64 } })

/-- CLAMP_RELEASE. -/
def execClampRelease (s : State) : Res := .next { s with clamp := false }

/-- DEVSTAT (R435). -/
def State.devstat (s : State) : Dword :=
  (0 : BitVec 16) ++ (if s.boot = 2 then Config.firmwareVersion s.flash else 0) ++ s.boot ++ Config.junction s.free ++ (0 : BitVec 8) ++
    BitVec.ofBool s.clamp ++ (0 : BitVec 1) ++ BitVec.ofBool s.standby ++ s.vstep ++ (0 : BitVec 1)

/-! ### Firmware, bring-up and reset (R389, R436–R438) -/

/-- Whether the ROM runs an image: its signature verifies, and its security version is at or above the fused minimum (R389). -/
def firmwareAccepted (image : List Byte) : Bool :=
  Config.signatureVerifies image && Config.minFirmware.ule (Config.firmwareVersion image)

/-- FW_LOAD: an image that passes the checks is written to flash over the old one, and bring-up starts again.
(DEDUCED: log entry 72) -/
def execFwLoad (c : Cmd) (s : State) : Res :=
  runCommand (.fwLoad c) c.tag true s fun s =>
    match s.cmdWork with
    | .flash image => ({ s with
        flash := image
        flashBroken := false
        boot := 0 }, some 0)
    | _ =>
      let n := c.d1.toNat
      let rom := s.romServes
      let sizeOk := decide (4096 ≤ n) && decide (n ≤ 2 ^ 26)
      let image := if !sizeOk then [] else if rom then s.staged.readBytes 0 n else s.hbm.readBytes c.d2.toNat n
      let source := if rom then c.d2 != 0 else badPhys s c.d2 65536 || decide (2 ^ 40 < c.d2.toNat % 2 ^ 42 + n)
      match firstRow [(c.unusedSet 2 || (!rom && above c.d2 52), 1), (c.job != 0, 2), (!rom && s.jobs.keys.any (· != 0), 5),
          (!sizeOk || source || !firmwareAccepted image, 6)] with
      | some st => (s, some st)
      | none => ({ s with
          staged := s.staged.writeBytes 0 image
          cmdWork := .flash image }, none)

/-- BRING_UP: the ROM checks the image; then the firmware tests the module, creates job 0 and enters RUN. Fences stand in the
lifetime record and keep spans off their rows (R407, R437). -/
def execBringUp (s : State) : Res :=
  .next (if s.boot = 0 then { s with boot := if firmwareAccepted s.flash && !s.flashBroken then 1 else 3 }
    else if s.boot = 1 then { s with
      boot := 2
      standby := false
      jobs := s.jobs.put 0 ((s.jobs.find 0).getD Job.management) }
    else s)

/-- Every program-visible state at its reset value; flash, the lifetime record and what the model counts for itself stay.
(DEDUCED: log entry 74) -/
def State.afterReset (s : State) (broken : Bool) : State :=
  { State.reset with
    flash := s.flash
    flashBroken := broken
    life := s.life
    lifeFlash := s.lifeFlash
    agenda := s.agenda
    turn := s.turn
    free := s.free
    serial := s.serial
    out := s.out }

/-- MODULE_RESET. -/
def execModuleReset (s : State) : Res := .next (s.afterReset s.flashBroken)

/-- POWER_LOSS: a flash write under way leaves an image the ROM refuses, and the lifetime record is what flash holds of it (R413,
R438). (DEDUCED: log entry 72) -/
def execPowerLoss (s : State) : Res :=
  .next ({ s with life := s.lifeFlash }.afterReset (match s.cmdWork with
    | .flash _ => true
    | _ => s.flashBroken))

/-! ### Lost ports (R352, R405) -/

/-- PORT_LOST. -/
def execPortLost (port : Nat) (s : State) : Res := .next (losePort s port [0, 1, 2, 3]).keepLife

/-! ### Errors (R405–R407) -/

/-- Whether a job's tables lead to a line: the tables under one at a level. (DEDUCED: log entry 73) -/
def tableReaches (s : State) (j line : Nat) : Nat → Nat → Nat → Bool
  | 0, _, _ => false
  | n + 1, lvl, t =>
    (List.range 8192).any fun i =>
      let e := s.hbm.read64 (t + 8 * i)
      if !e.getLsbD 63 || e.getLsbD 62 then false
      else if e.getLsbD 61 then
        match leafOf s j lvl e with
        | some (pa, _, size) => decide (pa ≤ 128 * line) && decide (128 * line < pa + size)
        | none => false
      else decide (lvl < 3) && tableReaches s j line n (lvl + 1) ((e.extractLsb' 16 36).toNat * 65536)

/-- A die row fenced: its spans leave every partition, and its friezes will be saved (R407). -/
def fenceRow (s : State) (t : Nat) : State :=
  let row := dieRow t
  if s.life.fenced.getLsbD row then s
  else
    let on (p : Span) : Bool := dieRow p.1 == row
    let held := s.jobs.filter fun (_, x) => x.partition.any on
    let s1 := { s with
      life := { s.life with fenced := s.life.fenced ||| (1#64 <<< row) }
      jobs := s.jobs.map fun (j, x) => (j, { x with partition := x.partition.filter fun p => !on p }) }
    (Tab.keys held).foldl (fun s j => s.mqRecord j 0x11 0 0 (BitVec.ofNat 64 row)) s1

/-- A frieze ended with MACHINE_CHECK: a handler with the frieze it serves, as when it traps, and a frieze with its handler (R400,
R405, R407). (DEDUCED: log entry 58) -/
def checkFrieze (s : State) (id : Nat) : State :=
  match s.friezes.find id with
  | none => s
  | some f =>
    if f.state = .ended then s
    else match f.handlerOf with
      | some v => trapHandler s id v ⟨causeMachineCheck, none, 0, 0, 0, 0, 0⟩
      | none => (endByTrap (f.handler.elim s (dropHandler s)) id causeMachineCheck).mqRecord f.job 0x10 causeMachineCheck
          (friezeMaster s f) 0

/-- One more MACHINE_CHECK in the lifetime record. -/
def countCheck (s : State) : State := { s with life := { s.life with checks := saturate s.life.checks 64 } }

/-- MACHINE_CHECK to the friezes with traffic on a link, each at one of its stations; which have is open. One that is being saved is ended
with it (R405, R414). (DEDUCED: log entry 73) -/
def checkTraffic (s : State) : List Nat → State
  | [] => s
  | id :: rest =>
    let b := s.takeBit
    let n := b.2.takeFree
    let l := ((s.friezes.find id).map (·.len)).getD 1
    let saving := ((s.friezes.find id).map (·.stop.saves)).getD false
    checkTraffic (if !b.1 then b.2
      else countCheck (if saving then checkFrieze n.2 id else n.2.addFault id (n.1 % l) none causeMachineCheck 1 0 0)) rest

/-- MACHINE_CHECK to the routing engines with traffic on a link: the request in progress ends with it. (DEDUCED: log entry 73) -/
def checkEngines (s : State) : List Nat → State
  | [] => s
  | die :: rest =>
    let b := s.takeBit
    checkEngines (match b.1, (s.engine die).queue.head? with
      | true, some k => countCheck (failHead b.2 die k ⟨causeMachineCheck, false⟩)
      | _, _ => b.2) rest

/-- MACHINE_CHECK to the cast engine if it has traffic on a link: its work ends. (DEDUCED: log entry 73) -/
def checkCast (s : State) : State :=
  let b := s.takeBit
  match b.1, s.castWork with
  | true, some w => countCheck (endCast b.2 w 0x16 causeMachineCheck)
  | _, _ => b.2

/-- A frieze being saved or restored: its stop is under way, or it stands saved (R405, R414). -/
def Frieze.moving (f : Frieze) : Bool := f.state == .suspended || f.state == .frozen || (f.state == .resident && f.stop.drains)

/-- Whether a frieze, or its handler, is being saved or restored. -/
def State.moves (s : State) (f : Frieze) : Bool :=
  f.moving || (f.state == .handled && (!f.save.isEmpty || ((f.handler.bind s.friezes.find).map (·.moving)).getD false))

/-- A lasting error on a tile during the save of a pre-emption ends the frieze (R414). -/
def checkSaves (s : State) (t : Nat) : State :=
  (Tab.keys (s.friezes.filter fun (_, f) => f.state == .resident && f.stop.saves && decide (f.head ≤ t) && decide (t < f.head + f.len))).foldl
    (fun s id => countCheck (checkFrieze s id)) s

/-- The SHARED address form of a bank's line in a job's allocation. -/
def sharedForm (j : Job) (bank line : Nat) : Option Dword :=
  (j.banks.findIdx? (· == bank)).map fun i => mkForm spShared (128 * (line * j.banks.length + i))

/-- The queue pairs of a port enter the error state. (PRESUMED: log entry 75) -/
def failPairs (s : State) (which : Nat → QueuePair → Bool) : State :=
  { s with jobs := s.jobs.map fun (j, x) => (j, { x with qps := x.qps.map fun (k, q) => if which k q then (k, { q with error := true }) else (k, q) }) }

/-- The beat with its POISON bit set (R85). -/
def Beat.poisoned (b : Beat) : Beat := { b with r := { b.r with poison := true } }

/-- A record of a token with its POISON bit set (R85). -/
def Tok.poisonedAt (l : Nat) : Tok → Tok
  | .vec lanes e => .vec (lanes.modify l fun r => r.map fun r => { r with poison := true }) e
  | t => t

/-- A value an operator holds with its POISON bit set (R85). -/
def OpState.poisonedAt (i l : Nat) : OpState → OpState
  | .steer p q =>
    let hit (rs : List Rec) : List Rec := rs.modify l fun r => { r with poison := true }
    if i = 0 then .steer (hit p) q else .steer p (hit q)
  | .mergeOrd a b got => .mergeOrd a b (got.modify l fun r => r.map fun r => { r with poison := true })
  | .delay q => .delay (q.modify i (Tok.poisonedAt l))
  | .scan c => .scan (c.modify l fun w => w.map fun w => (w.1, true))
  | .bins b t => .bins (b.modify l fun w => (w.1, w.2.1, true)) t
  | o => o

/-- A tile's lasting error: the value is poisoned, a save under way ends, and the die row is fenced (R405, R407, R414). -/
def tileError (s : State) (t : Nat) (poison : Tile → Tile) : State := fenceRow (checkSaves (s.updTile t poison) t) t

/-- LASTING_ERROR. (DEDUCED: log entry 73) -/
def execLastingError (site : ErrorSite) (s : State) : Res :=
  .next (State.keepLife <| match site with
    | .tile t => fenceRow (checkSaves s t) t
    | .inBeat t p k => tileError s t fun x => x.setIn p { x.inPort p with fifo := (x.inPort p).fifo.modify k Beat.poisoned }
    | .outBeat t p k => tileError s t fun x => x.setOut p ((x.outPort p).modify k Beat.poisoned)
    | .link t k n l => tileError s t fun x => { x with links := x.links.map fun e => if e.1 = k then (k, e.2.modify n (Tok.poisonedAt l)) else e }
    | .table t k n l => tileError s t fun x => { x with
        pend := x.pend.map fun e => if e.1 = k then (k, e.2.modify n fun v => (v.1, v.2.poisonedAt l)) else e }
    | .opState t k i l => tileError s t fun x => { x with ops := x.ops.map fun e => if e.1 = k then (k, e.2.poisonedAt i l) else e }
    | .capture t l c => tileError s t fun x => x.updCell l c fun e => { e with cap := e.cap.map fun v => (v.1, true, v.2.2) }
    | .ctlBeat t l c n => tileError s t fun x => x.updCell l c fun e => { e with ctl := e.ctl.modify n Beat.poisoned }
    | .latch t l c b => tileError s t fun x => x.updCell l c fun e =>
        let hit (rs : List Rec) : List Rec := rs.modify 0 fun r => { r with poison := true }
        if b then { e with b := hit e.b } else { e with a := hit e.a }
    | .acc t l c a => tileError s t fun x => x.setAcc l c a ((x.accOf l c a).1, true)
    | .localLine t line => tileError s t fun x => { x with mem := x.mem.poison line }
    | .sharedLine bank line =>
      let s1 := { s with sram := s.sram.poison (bank * 8192 + line) }
      s.jobs.foldl (fun s (j, x) => match sharedForm x bank line with
        | some a => s.mqRecord j 0x13 0 0 a
        | none => s) s1
    | .hbmLine line =>
      let s1 := { s with
        hbm := s.hbm.poison line
        life := { s.life with lasting := countUp s.life.lasting (channelOf line) 32 } }
      s.jobs.foldl (fun t (j, x) =>
        if tableReaches s j line 3 1 x.troot.toNat then t.mqRecord j 0x13 0 0 (BitVec.ofNat 64 (128 * line)) else t) s1
    | .planeLink a b =>
      let tileOf (r : Nat) : Nat := 32 * (16 * (r / 32) + r % 16) + 16 * (r / 16 % 2)
      let s1 := checkCast (checkEngines (checkTraffic s (Tab.keys (s.friezes.filter fun (_, f) => f.state == .resident))) (List.range 4))
      fenceRow (fenceRow s1 (tileOf a)) (tileOf b)
    | .ualink port lane => losePort s port [lane]
    | .configNet fz =>
      match s.friezes.find fz with
      | some f => if s.moves f then countCheck (checkFrieze s fz) else s
      | none => s
    | .pcie lane => { s with life := { s.life with losses := countUp s.life.losses (144 + lane) 32 } }
    | .ethernet lane =>
      failPairs { s with life := { s.life with losses := countUp s.life.losses (96 + lane) 32 } } fun _ q => q.port == lane / 8)

/-- TRANSIENT_ERROR: counted in the lifetime record where it has a counter. -/
def execTransientError (site : ErrorSite) (s : State) : Res :=
  .next (let replay (lane : Nat) : State := { s with life := { s.life with replays := countUp s.life.replays lane 64 } }
    match site with
    | .hbmLine line => { s with life := { s.life with transient := countUp s.life.transient (channelOf line) 64 } }
    | .ualink port lane => replay (4 * port + lane)
    | .ethernet lane => replay (96 + lane)
    | .pcie lane => replay (144 + lane)
    | .tile _ | .inBeat .. | .outBeat .. | .link .. | .table .. | .opState .. | .capture .. | .ctlBeat .. | .latch .. | .acc .. | .localLine _ _ | .sharedLine _ _ | .planeLink _ _ | .configNet _ => s)

/-! ### What arrives over Ethernet (R365, R366) -/

/-- ETHERNET_PACKET_DROP. -/
def execEthernetPacketDrop (_port : Nat) (s : State) : Res := .next { s with ethDropped := s.ethDropped + 1 }

/-- The job and key of a request of a peer: a live queue pair of the key's own job, and a range inside the key that the key
allows. -/
def keyFor (s : State) (qp key va len : Nat) (write : Bool) : Option Nat :=
  match keyJob s key with
  | none => none
  | some j =>
    match (s.job? j).bind fun x => x.keys.find key, (s.job? j).bind fun x => x.qps.find qp with
    | some k, some q =>
      if q.error || !(if write then k.w else k.r) || decide (va < k.va) || decide (k.va + k.len < va + len) then none else some j
    | _, _ => none

/-- The queue pair of a refused request enters the error state. (PRESUMED: log entry 75) -/
def refuseRdma (s : State) (qp : Nat) : State := failPairs s fun k _ => k == qp

/-- A peer's data written through the key's job; none where it is refused. -/
def rdmaData (s : State) (qp key va : Nat) (data : List Byte) : Option (State × Nat) :=
  match keyFor s qp key va data.length true with
  | none => none
  | some j =>
    match rangeOf s j 0 (mkForm spGlobal va) data.length .write with
    | .error _ => none
    | .ok ps => if ps.any fun p => !s.placeUp p.1 then none else some (s.scatter ps data, j)

/-- RDMA_WRITE. -/
def execRdmaWrite (qp key va : Nat) (data : List Byte) (s : State) : Res :=
  .next (match rdmaData s qp key va data with
    | none => refuseRdma s qp
    | some p => p.1)

/-- RDMA_WRITE_WITH_IMMEDIATE: the data, then 1 added to the mailbox counter the immediate names. -/
def execRdmaWriteWithImmediate (qp key va : Nat) (data : List Byte) (imm : BitVec 32) (s : State) : Res :=
  .next (match rdmaData s qp key va data with
    | none => refuseRdma s qp
    | some (t, j) =>
      let tile := (imm.extractLsb' 12 10).toNat
      if imm.extractLsb' 22 10 ≠ (0 : BitVec 10) ∨ imm.extractLsb' 4 8 ≠ (0 : BitVec 8) ∨ !inPartition t j tile then refuseRdma t qp
      else t.updCtr tile (16 + (imm.extractLsb' 0 4).toNat) (· + 1))

/-- RDMA_READ: answered from the key's job. -/
def execRdmaRead (qp key va len : Nat) (s : State) : Res :=
  .next (match keyFor s qp key va len false with
    | none => refuseRdma s qp
    | some j =>
      match rangeOf s j 0 (mkForm spGlobal va) len .read with
      | .error _ => refuseRdma s qp
      | .ok ps => if ps.any fun p => !s.placeUp p.1 then refuseRdma s qp else s.emit (.rdma qp va (s.gather ps)))

end Sys2Proof.Machine
end

