-- ==== Sys2Proof/Machine/Dispatch.lean ====
section
/-! DEFINITION. exec: one arm per row of the operation table, each a direct call of its meaning. -/

namespace Sys2Proof.Machine

def exec (i : Instr) (s : State) : Host.Outcome State Fault Refusal :=
  match i with
  | .nop h => Sys2Proof.Machine.execNop h s
  | .trap h code => Sys2Proof.Machine.execTrap h code s
  | .resume h a => Sys2Proof.Machine.execResume h a s
  | .csrr h g csr => Sys2Proof.Machine.execCsrr h g csr s
  | .csrw h g csr => Sys2Proof.Machine.execCsrw h g csr s
  | .csrx h g csr => Sys2Proof.Machine.execCsrx h g csr s
  | .codeinv h a b => Sys2Proof.Machine.execCodeinv h a b s
  | .yield h => Sys2Proof.Machine.execYield h s
  | .brk h code => Sys2Proof.Machine.execBrk h code s
  | .freeze h a => Sys2Proof.Machine.execFreeze h a s
  | .thaw h a => Sys2Proof.Machine.execThaw h a s
  | .launch h a b => Sys2Proof.Machine.execLaunch h a b s
  | .add h d a b => Sys2Proof.Machine.execAdd h d a b s
  | .sub h d a b => Sys2Proof.Machine.execSub h d a b s
  | .mul h d a b => Sys2Proof.Machine.execMul h d a b s
  | .mulh h d a b u => Sys2Proof.Machine.execMulh h d a b u s
  | .and h d a b => Sys2Proof.Machine.execAnd h d a b s
  | .or h d a b => Sys2Proof.Machine.execOr h d a b s
  | .xor h d a b => Sys2Proof.Machine.execXor h d a b s
  | .shl h d a b => Sys2Proof.Machine.execShl h d a b s
  | .shr h d a b => Sys2Proof.Machine.execShr h d a b s
  | .sar h d a b => Sys2Proof.Machine.execSar h d a b s
  | .min h d a b u => Sys2Proof.Machine.execMin h d a b u s
  | .max h d a b u => Sys2Proof.Machine.execMax h d a b u s
  | .clz h d a => Sys2Proof.Machine.execClz h d a s
  | .popc h d a => Sys2Proof.Machine.execPopc h d a s
  | .sel h d a b c => Sys2Proof.Machine.execSel h d a b c s
  | .cmp h d a b cond => Sys2Proof.Machine.execCmp h d a b cond s
  | .addi h d a imm => Sys2Proof.Machine.execAddi h d a imm s
  | .subi h d a imm => Sys2Proof.Machine.execSubi h d a imm s
  | .muli h d a imm => Sys2Proof.Machine.execMuli h d a imm s
  | .andi h d a imm => Sys2Proof.Machine.execAndi h d a imm s
  | .ori h d a imm => Sys2Proof.Machine.execOri h d a imm s
  | .xori h d a imm => Sys2Proof.Machine.execXori h d a imm s
  | .shli h d a n => Sys2Proof.Machine.execShli h d a n s
  | .shri h d a n => Sys2Proof.Machine.execShri h d a n s
  | .sari h d a n => Sys2Proof.Machine.execSari h d a n s
  | .mini h d a imm => Sys2Proof.Machine.execMini h d a imm s
  | .maxi h d a imm => Sys2Proof.Machine.execMaxi h d a imm s
  | .cmpi h d a cond imm => Sys2Proof.Machine.execCmpi h d a cond imm s
  | .movhi h d a imm => Sys2Proof.Machine.execMovhi h d a imm s
  | .br h c kind off => Sys2Proof.Machine.execBr h c kind off s
  | .brany h p off => Sys2Proof.Machine.execBrany h p off s
  | .brall h p off => Sys2Proof.Machine.execBrall h p off s
  | .loop h c off => Sys2Proof.Machine.execLoop h c off s
  | .call h c off => Sys2Proof.Machine.execCall h c off s
  | .ret h c => Sys2Proof.Machine.execRet h c s
  | .pset h d a b cond => Sys2Proof.Machine.execPset h d a b cond s
  | .trig h => Sys2Proof.Machine.execTrig h s
  | .exit h => Sys2Proof.Machine.execExit h s
  | .waite h g sub k => Sys2Proof.Machine.execWaite h g sub k s
  | .sige h g set k => Sys2Proof.Machine.execSige h g set k s
  | .lds h d a imm => Sys2Proof.Machine.execLds h d a imm s
  | .sts h d a imm => Sys2Proof.Machine.execSts h d a imm s
  | .ldq h d a imm => Sys2Proof.Machine.execLdq h d a imm s
  | .stq h d a imm => Sys2Proof.Machine.execStq h d a imm s
  | .ldg h d a imm => Sys2Proof.Machine.execLdg h d a imm s
  | .stg h d a imm => Sys2Proof.Machine.execStg h d a imm s
  | .atomg h d a b c op size => Sys2Proof.Machine.execAtomg h d a b c op size s
  | .shape h x a b c d => Sys2Proof.Machine.execShape h x a b c d s
  | .viewld h x a b => Sys2Proof.Machine.execViewld h x a b s
  | .viewldGet h x a b => Sys2Proof.Machine.execViewldGet h x a b s
  | .portrd h d a o => Sys2Proof.Machine.execPortrd h d a o s
  | .portwr h d a ip => Sys2Proof.Machine.execPortwr h d a ip s
  | .portspc h d a port => Sys2Proof.Machine.execPortspc h d a port s
  | .srd h so ip eos bnd sidew => Sys2Proof.Machine.execSrd h so ip eos bnd sidew s
  | .swr h so o endeos bnd sidew p6 => Sys2Proof.Machine.execSwr h so o endeos bnd sidew p6 s
  | .scp h so dst => Sys2Proof.Machine.execScp h so dst s
  | .sfill h so fill => Sys2Proof.Machine.execSfill h so fill s
  | .swin h so ip sidew => Sys2Proof.Machine.execSwin h so ip sidew s
  | .smc h so ip root eos bnd sidew => Sys2Proof.Machine.execSmc h so ip root eos bnd sidew s
  | .sgath h so ip idx eos bnd sidew i64 => Sys2Proof.Machine.execSgath h so ip idx eos bnd sidew i64 s
  | .sscat h so o idx endeos bnd sidew p6 i64 => Sys2Proof.Machine.execSscat h so o idx endeos bnd sidew p6 i64 s
  | .sscata h so o idx op endeos bnd i64 => Sys2Proof.Machine.execSscata h so o idx op endeos bnd i64 s
  | .srec h slot shape ip o eos => Sys2Proof.Machine.execSrec h slot shape ip o eos s
  | .sportcfg h port t k => Sys2Proof.Machine.execSportcfg h port t k s
  | .sportcfgOff h port => Sys2Proof.Machine.execSportcfgOff h port s
  | .sbar h mask => Sys2Proof.Machine.execSbar h mask s
  | .fence h pred succ scope => Sys2Proof.Machine.execFence h pred succ scope s
  | .swaits h mask => Sys2Proof.Machine.execSwaits h mask s
  | .sabort h g slot => Sys2Proof.Machine.execSabort h g slot s
  | .ratom h a b c d op size acq rel => Sys2Proof.Machine.execRatom h a b c d op size acq rel s
  | .rsig h a b rel => Sys2Proof.Machine.execRsig h a b rel s
  | .remoteReleaseArrival r a b => Sys2Proof.Machine.execRemoteReleaseArrival r a b s
  | .maqld h m a b => Sys2Proof.Machine.execMaqld h m a b s
  | .maqldComplete tile ctx => Sys2Proof.Machine.execMaqldComplete tile ctx s
  | .maqgo h m => Sys2Proof.Machine.execMaqgo h m s
  | .maqdrn h m => Sys2Proof.Machine.execMaqdrn h m s
  | .accsave h k a first last => Sys2Proof.Machine.execAccsave h k a first last s
  | .accload h k a first last => Sys2Proof.Machine.execAccload h k a first last s
  | .chbind h x a n => Sys2Proof.Machine.execChbind h x a n s
  | .srseed h m a => Sys2Proof.Machine.execSrseed h m a s
  | .snap h v a => Sys2Proof.Machine.execSnap h v a s
  | .unsnap h v => Sys2Proof.Machine.execUnsnap h v s
  | .txbegin h v a => Sys2Proof.Machine.execTxbegin h v a s
  | .txbeginAge h v a => Sys2Proof.Machine.execTxbeginAge h v a s
  | .txclaim h v a shape => Sys2Proof.Machine.execTxclaim h v a shape s
  | .txcommit h v a => Sys2Proof.Machine.execTxcommit h v a s
  | .txabort h v => Sys2Proof.Machine.execTxabort h v s
  | .txstat h v a => Sys2Proof.Machine.execTxstat h v a s
  | .commitRequest job dom txid => Sys2Proof.Machine.execCommitRequest job dom txid s
  | .publish job dom txid ctrl => Sys2Proof.Machine.execPublish job dom txid ctrl s
  | .commitComplete job dom txid => Sys2Proof.Machine.execCommitComplete job dom txid s
  | .voidCommit job dom txid => Sys2Proof.Machine.execVoidCommit job dom txid s
  | .lwmBroadcast job dom => Sys2Proof.Machine.execLwmBroadcast job dom s
  | .poolWaitExpiry job dom ctrl => Sys2Proof.Machine.execPoolWaitExpiry job dom ctrl s
  | .ercfg h a => Sys2Proof.Machine.execErcfg h a s
  | .ercfgOff h => Sys2Proof.Machine.execErcfgOff h s
  | .erdisp h a b c => Sys2Proof.Machine.execErdisp h a b c s
  | .erdispReuse h a b c gate => Sys2Proof.Machine.execErdispReuse h a b c gate s
  | .dispatchExchange die msg => Sys2Proof.Machine.execDispatchExchange die msg s
  | .dispatchFail die why => Sys2Proof.Machine.execDispatchFail die why s
  | .ercomb h a b c d renorm nogate => Sys2Proof.Machine.execErcomb h a b c d renorm nogate s
  | .erstat h a => Sys2Proof.Machine.execErstat h a s
  | .erdrops h d => Sys2Proof.Machine.execErdrops h d s
  | .engineResponse req => Sys2Proof.Machine.execEngineResponse req s
  | .route h a o b mc => Sys2Proof.Machine.execRoute h a o b mc s
  | .unroute h o => Sys2Proof.Machine.execUnroute h o s
  | .owncfg h a b c => Sys2Proof.Machine.execOwncfg h a b c s
  | .mcjoin h a ip b => Sys2Proof.Machine.execMcjoin h a ip b s
  | .mcjoinLeave h a ip b => Sys2Proof.Machine.execMcjoinLeave h a ip b s
  | .routeBeat tile o => Sys2Proof.Machine.execRouteBeat tile o s
  | .routeRebindTimeout fz => Sys2Proof.Machine.execRouteRebindTimeout fz s
  | .wlnew h a b => Sys2Proof.Machine.execWlnew h a b s
  | .wlpush h a b => Sys2Proof.Machine.execWlpush h a b s
  | .wlpop h ip a n => Sys2Proof.Machine.execWlpop h ip a n s
  | .wlins h a b => Sys2Proof.Machine.execWlins h a b s
  | .wlcnt h a b => Sys2Proof.Machine.execWlcnt h a b s
  | .wlfree h a => Sys2Proof.Machine.execWlfree h a s
  | .worklistHomeServe req => Sys2Proof.Machine.execWorklistHomeServe req s
  | .smpcfg h a b => Sys2Proof.Machine.execSmpcfg h a b s
  | .smpon h => Sys2Proof.Machine.execSmpon h s
  | .smpoff h => Sys2Proof.Machine.execSmpoff h s
  | .cntrd h d a num clr => Sys2Proof.Machine.execCntrd h d a num clr s
  | .mark h m g => Sys2Proof.Machine.execMark h m g s
  | .sampleInstant => Sys2Proof.Machine.execSampleInstant s
  | .decodeWord fz => Sys2Proof.Machine.execDecodeWord fz s
  | .codeFetch fz => Sys2Proof.Machine.execCodeFetch fz s
  | .issueSelect tile => Sys2Proof.Machine.execIssueSelect tile s
  | .voteResult fz => Sys2Proof.Machine.execVoteResult fz s
  | .waitTimeout fz st => Sys2Proof.Machine.execWaitTimeout fz st s
  | .holdTimeout fz st slot => Sys2Proof.Machine.execHoldTimeout fz st slot s
  | .streamElementPerformed fz st slot => Sys2Proof.Machine.execStreamElementPerformed fz st slot s
  | .faultDelivery fz st => Sys2Proof.Machine.execFaultDelivery fz st s
  | .atomicApply fz st slot => Sys2Proof.Machine.execAtomicApply fz st slot s
  | .retry node src => Sys2Proof.Machine.execRetry node src s
  | .forwardingSlotFree node => Sys2Proof.Machine.execForwardingSlotFree node s
  | .inportBeatArrival tile port => Sys2Proof.Machine.execInportBeatArrival tile port s
  | .operatorFire tile col slot => Sys2Proof.Machine.execOperatorFire tile col slot s
  | .outportWordFire tile o => Sys2Proof.Machine.execOutportWordFire tile o s
  | .alignmentMarkerTaken tile col slot => Sys2Proof.Machine.execAlignmentMarkerTaken tile col slot s
  | .systolicDescriptorHandshake tile col => Sys2Proof.Machine.execSystolicDescriptorHandshake tile col s
  | .controlBeatCheck tile col => Sys2Proof.Machine.execControlBeatCheck tile col s
  | .systolicStep tile lane col => Sys2Proof.Machine.execSystolicStep tile lane col s
  | .accop tile lane col => Sys2Proof.Machine.execAccop tile lane col s
  | .emit tile col => Sys2Proof.Machine.execEmit tile col s
  | .regionMarkerTaken tile col => Sys2Proof.Machine.execRegionMarkerTaken tile col s
  | .trigger fz => Sys2Proof.Machine.execTrigger fz s
  | .recordCheck queue => Sys2Proof.Machine.execRecordCheck queue s
  | .recordStart queue => Sys2Proof.Machine.execRecordStart queue s
  | .placeFrieze fz => Sys2Proof.Machine.execPlaceFrieze fz s
  | .preempt fz => Sys2Proof.Machine.execPreempt fz s
  | .kernelEnd kernel => Sys2Proof.Machine.execKernelEnd kernel s
  | .trapTaken fz => Sys2Proof.Machine.execTrapTaken fz s
  | .handlerEnd fz => Sys2Proof.Machine.execHandlerEnd fz s
  | .hostAppend queue record => Sys2Proof.Machine.execHostAppend queue record s
  | .apertureRead off len => Sys2Proof.Machine.execApertureRead off len s
  | .apertureWrite off data => Sys2Proof.Machine.execApertureWrite off data s
  | .jobCreate c => Sys2Proof.Machine.execJobCreate c s
  | .jobKill c => Sys2Proof.Machine.execJobKill c s
  | .setPartition c => Sys2Proof.Machine.execSetPartition c s
  | .setShared c => Sys2Proof.Machine.execSetShared c s
  | .setJobreg c => Sys2Proof.Machine.execSetJobreg c s
  | .invalidate c => Sys2Proof.Machine.execInvalidate c s
  | .queueSet c => Sys2Proof.Machine.execQueueSet c s
  | .queueReset c => Sys2Proof.Machine.execQueueReset c s
  | .domainSet c => Sys2Proof.Machine.execDomainSet c s
  | .mqSet c => Sys2Proof.Machine.execMqSet c s
  | .freezeCmd c => Sys2Proof.Machine.execFreezeCmd c s
  | .thawCmd c => Sys2Proof.Machine.execThawCmd c s
  | .aperture c => Sys2Proof.Machine.execAperture c s
  | .scrub c => Sys2Proof.Machine.execScrub c s
  | .torusSet c => Sys2Proof.Machine.execTorusSet c s
  | .linkTrain c => Sys2Proof.Machine.execLinkTrain c s
  | .ethKey c => Sys2Proof.Machine.execEthKey c s
  | .ethQp c => Sys2Proof.Machine.execEthQp c s
  | .attest c => Sys2Proof.Machine.execAttest c s
  | .ctxPool c => Sys2Proof.Machine.execCtxPool c s
  | .cast c => Sys2Proof.Machine.execCast c s
  | .restore c => Sys2Proof.Machine.execRestore c s
  | .castEnd cause => Sys2Proof.Machine.execCastEnd cause s
  | .lifetime c => Sys2Proof.Machine.execLifetime c s
  | .power c => Sys2Proof.Machine.execPower c s
  | .fwLoad c => Sys2Proof.Machine.execFwLoad c s
  | .thermalEmergencyClamp => Sys2Proof.Machine.execThermalEmergencyClamp s
  | .clampRelease => Sys2Proof.Machine.execClampRelease s
  | .moduleReset => Sys2Proof.Machine.execModuleReset s
  | .bringUp => Sys2Proof.Machine.execBringUp s
  | .portLost port => Sys2Proof.Machine.execPortLost port s
  | .lastingError site => Sys2Proof.Machine.execLastingError site s
  | .rdmaWriteWithImmediate qp key va data imm => Sys2Proof.Machine.execRdmaWriteWithImmediate qp key va data imm s
  | .ethernetPacketDrop port => Sys2Proof.Machine.execEthernetPacketDrop port s
  | .transientError site => Sys2Proof.Machine.execTransientError site s
  | .lifetimeRecordHourlyWrite => Sys2Proof.Machine.execLifetimeRecordHourlyWrite s
  | .launchRingTimeout req => Sys2Proof.Machine.execLaunchRingTimeout req s
  | .powerLoss => Sys2Proof.Machine.execPowerLoss s
  | .rdmaWrite qp key va data => Sys2Proof.Machine.execRdmaWrite qp key va data s
  | .rdmaRead qp key va len => Sys2Proof.Machine.execRdmaRead qp key va len s
  | .reservedOpCommand op c => Sys2Proof.Machine.execReservedOpCommand op c s

end Sys2Proof.Machine
end

