-- ==== Sys2Proof/Machine/Step.lean ====
section
/-! DEFINITION. The step of the machine, and a table word placed for the very next step. -/

namespace Sys2Proof.Machine

/-- One step: the clock advances; a sample instant that is due comes first; else a selected station's word is decoded and
executed; otherwise the next event happens. (DESIGN CHOICE: log entry 3) -/
def step (s : State) : Host.Outcome State Fault Refusal :=
  match dueEvent s.tick with
  | some i => exec i s.tick
  | none =>
    match s.cur with
    | some c => exec (s.currentInstr c.fz) s.tick
    | none =>
      match nextEvent s.tick with
      | some (i, s') => exec i s'
      | none => .next s.tick

/-- The state with a table word where the next step runs it. (DESIGN CHOICE: log entry 7) -/
def State.withFetchWord (s : State) (nbits w : Nat) : State :=
  if nbits ≤ 64 then s.placeWord (BitVec.ofNat 64 (w % 2 ^ nbits)) else s.placeCommand (tableCommand (w % 2 ^ nbits))

end Sys2Proof.Machine
end

