-- ==== Sys2Proof/Safety.lean ====
section
/-! DEFINITION. The terms statements are made in: a word that issues, memory and registers left alone, memory in canonical form, a safe run. -/

namespace Sys2Proof.Machine

/-- The selected station c stands at word i: the word is not discarded after a resume, legal and permitted, nothing of R303 holds
it, and its predicate is true (R29, R31, R43, R303, R403). -/
structure Issues (s : State) (i : Instr) (h : Hdr) (c : Ctx) : Prop where
  ctx : ctxOf s i h = some c
  kept : c.f.skip ≠ some c.lane
  legal : i.wf = true
  allowed : i.privileged = true → c.job = 0
  free : holdOf s c i = none
  on : c.on = true

/-- Nothing changes but the friezes, the tiles' shared event counters, and which station is selected. -/
structure Quiet (s t : State) : Prop where
  rest : t = { s with friezes := t.friezes, tiles := t.tiles, cur := t.cur }
  tiles : ∀ u, ∃ e, t.tile u = { s.tile u with e := e }

/-- Every byte of every memory reads as before. -/
def SameBytes (s t : State) : Prop := ∀ k a, (t.mem k).read a = (s.mem k).read a

/-- Every byte of every memory outside n bytes at a place reads as before. -/
def SameBytesBut (s t : State) (p : Place) (n : Nat) : Prop :=
  ∀ k a, (k ≠ p.mem ∨ a < p.addr ∨ p.addr + n ≤ a) → (t.mem k).read a = (s.mem k).read a

/-- Every memory of the module is in canonical form. -/
structure State.MemWf (s : State) : Prop where
  hbm : s.hbm.wf
  sram : s.sram.wf
  staged : s.staged.wf
  tiles : ∀ p ∈ s.tiles, p.2.mem.wf
  saves : ∀ p ∈ s.jobs, ∀ q ∈ p.2.localSaves, q.2.wf

end Sys2Proof.Machine

namespace Sys2Proof

/-- A run of n steps from a state never stops. -/
def Safe (s : Machine.State) (n : Nat) : Prop := ∃ t, Host.Core.run Sys2Proof.core n s = .next t

end Sys2Proof
end

