-- ==== Sys2Proof/Certificates/Slice0/Obligations.lean ====
section
/-! DEFINITION. The statements for the provers. Each docstring names the rules of the manual it formalises. -/

open Sys2Proof Sys2Proof.Machine

namespace Sys2Proof.Slice0

/-! ### Groups 0x1 and 0x2 -/

/-- The comparison of a condition code 0–9 (R307). -/
def compares (cond : BitVec 4) (a b : Dword) : Prop :=
  (cond = 0 ∧ a = b) ∨ (cond = 1 ∧ a ≠ b) ∨ (cond = 2 ∧ a.toInt < b.toInt) ∨ (cond = 3 ∧ a.toInt ≤ b.toInt) ∨
    (cond = 4 ∧ a.toInt > b.toInt) ∨ (cond = 5 ∧ a.toInt ≥ b.toInt) ∨ (cond = 6 ∧ a.toNat < b.toNat) ∨
    (cond = 7 ∧ a.toNat ≤ b.toNat) ∨ (cond = 8 ∧ a.toNat > b.toNat) ∨ (cond = 9 ∧ a.toNat ≥ b.toNat)

/-- An RI immediate, sign-extended (R34). -/
def imm64 {w : Nat} (k : BitVec w) : Dword := BitVec.ofInt 64 k.toInt

/-- The destination of an integer word and what its value must be, from the g registers at issue (R306–R310). -/
def integerRow : Instr → Option (Hdr × Reg × ((Reg → Dword) → Dword → Prop))
  | .add h d a b => some (h, d, fun g v => v = BitVec.ofInt 64 ((g a).toInt + (g b).toInt))
  | .sub h d a b => some (h, d, fun g v => v = BitVec.ofInt 64 ((g a).toInt - (g b).toInt))
  | .mul h d a b => some (h, d, fun g v => v = BitVec.ofInt 64 ((g a).toInt * (g b).toInt))
  | .mulh h d a b u => some (h, d, fun g v => v = if u then
      ((g a).zeroExtend 128 * (g b).zeroExtend 128).extractLsb' 64 64
      else ((g a).signExtend 128 * (g b).signExtend 128).extractLsb' 64 64)
  | .and h d a b => some (h, d, fun g v => ∀ k, v.getLsbD k = ((g a).getLsbD k && (g b).getLsbD k))
  | .or h d a b => some (h, d, fun g v => ∀ k, v.getLsbD k = ((g a).getLsbD k || (g b).getLsbD k))
  | .xor h d a b => some (h, d, fun g v => ∀ k, v.getLsbD k = ((g a).getLsbD k != (g b).getLsbD k))
  | .shl h d a b => some (h, d, fun g v => v = g a * BitVec.ofNat 64 (2 ^ ((g b).extractLsb' 0 6).toNat))
  | .shr h d a b => some (h, d, fun g v => v.toNat = (g a).toNat / 2 ^ ((g b).extractLsb' 0 6).toNat)
  | .sar h d a b => some (h, d, fun g v => v.toInt = (g a).toInt / 2 ^ ((g b).extractLsb' 0 6).toNat)
  | .min h d a b u => some (h, d, fun g v => if u then v.toNat = Nat.min (g a).toNat (g b).toNat
      else v.toInt = Min.min (g a).toInt (g b).toInt)
  | .max h d a b u => some (h, d, fun g v => if u then v.toNat = Nat.max (g a).toNat (g b).toNat
      else v.toInt = Max.max (g a).toInt (g b).toInt)
  | .clz h d a => some (h, d, fun g v => v.toNat ≤ 64 ∧ (∀ k, 64 - v.toNat ≤ k → (g a).getLsbD k = false) ∧
      (v.toNat < 64 → (g a).getLsbD (63 - v.toNat) = true))
  | .popc h d a => some (h, d, fun g v => v.toNat = ((List.range 64).filter fun k => (g a).getLsbD k).length)
  | .sel h d a b c => some (h, d, fun g v => (g c ≠ 0 → v = g a) ∧ (g c = 0 → v = g b))
  | .cmp h d a b cond => some (h, d, fun g v => (compares cond (g a) (g b) → v = 1) ∧ (¬compares cond (g a) (g b) → v = 0))
  | .addi h d a k => some (h, d, fun g v => v = g a + imm64 k)
  | .subi h d a k => some (h, d, fun g v => v = g a - imm64 k)
  | .muli h d a k => some (h, d, fun g v => v = g a * imm64 k)
  | .andi h d a k => some (h, d, fun g v => v = g a &&& imm64 k)
  | .ori h d a k => some (h, d, fun g v => v = g a ||| imm64 k)
  | .xori h d a k => some (h, d, fun g v => v = g a ^^^ imm64 k)
  | .shli h d a n => some (h, d, fun g v => v = g a * BitVec.ofNat 64 (2 ^ n.toNat))
  | .shri h d a n => some (h, d, fun g v => v.toNat = (g a).toNat / 2 ^ n.toNat)
  | .sari h d a n => some (h, d, fun g v => v.toInt = (g a).toInt / 2 ^ n.toNat)
  | .mini h d a k => some (h, d, fun g v => v.toInt = Min.min (g a).toInt k.toInt)
  | .maxi h d a k => some (h, d, fun g v => v.toInt = Max.max (g a).toInt k.toInt)
  | .cmpi h d a cond k => some (h, d, fun g v => (compares cond (g a) (imm64 k) → v = 1) ∧ (¬compares cond (g a) (imm64 k) → v = 0))
  | .movhi h d a k => some (h, d, fun g v => v = BitVec.ofNat 64 ((g a).toNat * 2 ^ 26 + k.toNat))
  | _ => none

end Sys2Proof.Slice0

/-- Every word of groups 0x1 and 0x2 that issues completes: g[D] takes the value its row gives, g0 stays zero, and of the
station nothing else changes but its event counters and its place in the lane (R24, R297, R306–R310). -/
def Obligations.IntegerWords : Prop :=
  ∀ (i : Instr) (h : Hdr) (d : Reg) (row : (Reg → Dword) → Dword → Prop) (s : State) (c : Ctx),
    Slice0.integerRow i = some (h, d, row) → Issues s i h c →
    ∃ (t : State) (v : Dword) (e : Vector Word 32), exec i s = .next t ∧ row c.x.rg v ∧
      t.station? c.id c.st = some ({ c.x.setG d v with e := e } : Station).moved

namespace Sys2Proof.Slice0

/-! ### What a word that completes says -/

/-- The station stands as y, but for its event counters, past the word (R24, R31, R297). -/
def Stands (t : State) (c : Ctx) (y : Station) : Prop :=
  ∃ e : Vector Word 32, t.station? c.id c.st = some ({ y with e := e } : Station).moved

/-- One row of a table of words: the header, what else the word needs in order to complete, and what holds when it has. -/
structure Row where
  hdr : Hdr
  pre : State → Ctx → Prop
  post : State → Ctx → State → Prop

/-- Every word of a table that issues and meets its row's condition completes with the row's outcome. -/
def Completes (row : Instr → Option Row) : Prop :=
  ∀ (i : Instr) (r : Row) (s : State) (c : Ctx), row i = some r → Issues s i r.hdr c → r.pre s c →
    ∃ t, exec i s = .next t ∧ r.post s c t

/-- The row of a word that completes whenever it issues. -/
def Row.of (h : Hdr) (post : State → Ctx → State → Prop) : Row := ⟨h, fun _ _ => True, post⟩

/-- The row of a word whose only effect on the machine is what it leaves its station as. -/
def Row.to (h : Hdr) (y : Ctx → Station) : Row := .of h fun _ c t => Stands t c (y c)

/-! ### Groups 0x0 and 0x3 -/

/-- The condition of PSET (R315). -/
def psetTrue (x : Station) (a b : BitVec 5) (cond : BitVec 4) : Prop :=
  compares cond (x.rg a) (x.rg b) ∨
    (cond = 10 ∧ x.rp (a.setWidth 3) = true ∧ x.rp (b.setWidth 3) = true) ∨
    (cond = 11 ∧ (x.rp (a.setWidth 3) = true ∨ x.rp (b.setWidth 3) = true)) ∨
    (cond = 12 ∧ x.rp (a.setWidth 3) ≠ x.rp (b.setWidth 3)) ∨
    (cond = 13 ∧ x.rp (a.setWidth 3) = true ∧ x.rp (b.setWidth 3) = false) ∨
    (cond = 14 ∧ (x.rg a).getLsbD ((x.rg b).extractLsb' 0 6).toNat = true)

/-- The words that change only their station's registers (R208, R210, R246, R315, R319, R383, R384). -/
def stationRow : Instr → Option Row
  | .nop h => some (.to h fun c => c.x)
  | .yield h => some (.to h fun c => c.x)
  | .pset h d a b cond => some (Row.of h fun _ c t =>
      ∃ v : Bool, (v = true ↔ psetTrue c.x a b cond) ∧ Stands t c (c.x.setP d v))
  | .shape h x a b e d => some (.to h fun c => c.x.setH x #v[c.g a, c.g b, c.g e, c.g d])
  | .viewldGet h x a b => some (.to h fun c => (c.x.setG a (c.x.rv x).dword0).setG b (c.x.rv x).dword1)
  | .waite h _ _ _ => some (.to h fun c => c.x)
  | .swaits h _ => some (.to h fun c => c.x)
  | .sige h _ _ _ => some (.to h fun c => c.x)
  | _ => none

/-- The number of a job register among the CSRs, and the register (R42). -/
def jobCsr (j : Job) (n : BitVec 12) (v : Dword) : Prop :=
  (n = 0x012 ∧ v = j.trapVec) ∨ (n = 0x020 ∧ v = j.waitLimit) ∨ (n = 0x021 ∧ v = j.poolWaitLimit) ∨
    (n = 0x022 ∧ v = j.smpPeriod.setWidth 64)

/-- The value of a CSR of the station (R24, R42). -/
def stationCsr (c : Ctx) (n : BitVec 12) (v : Dword) : Prop :=
  (n = 0x000 ∧ v = BitVec.ofNat 64 (c.tile / 32)) ∨ (n = 0x001 ∧ v = BitVec.ofNat 64 (c.tile % 32)) ∨
    (n = 0x002 ∧ v = BitVec.ofNat 64 c.st) ∨ (n = 0x003 ∧ v = BitVec.ofNat 64 c.f.stations.length) ∨
    (n = 0x004 ∧ v = c.f.id.setWidth 64) ∨ (n = 0x005 ∧ v = c.f.arg) ∨ (n = 0x006 ∧ v = BitVec.ofNat 64 c.f.job) ∨
    (n = 0x010 ∧ v = c.x.trapCause.setWidth 64) ∨ (n = 0x011 ∧ v = c.x.nextIndex.setWidth 64) ∨ (n = 0x030 ∧ v = c.x.srSeed) ∨
    ∃ k : BitVec 6, n.toNat = 0x40 + k.toNat ∧ v = (c.x.rq k).setWidth 64

/-- The value of a CSR (R42, R381). -/
def csrIs (s : State) (c : Ctx) (n : BitVec 12) (v : Dword) : Prop :=
  stationCsr c n v ∨ ∃ j, s.jobs.find c.f.job = some j ∧ jobCsr j n v

/-- What writing v to CSR n makes of the station y: SR_SEED and QUANT take it, every other CSR of the station stays (R42). -/
def csrStation (n : BitVec 12) (v : Dword) (y z : Station) : Prop :=
  (n = 0x030 → z = { y with srSeed := v }) ∧
    (∀ k : BitVec 6, n.toNat = 0x40 + k.toNat → z = y.setQ k (v.setWidth 32)) ∧
    (n ≠ 0x030 → ¬(0x40 ≤ n.toNat ∧ n.toNat ≤ 0x7F) → z = y)

/-- What writing v to CSR n makes of the job's registers; TRAP_VEC[11:0] is RSVD (R4, R27, R42, R367, R381). -/
def csrJob (n : BitVec 12) (v : Dword) (j : Job) : Job :=
  if n = 0x012 then { j with trapVec := v &&& 0xFFFFFFFFFFFFF000 }
  else if n = 0x020 then { j with waitLimit := v }
  else if n = 0x021 then { j with poolWaitLimit := v }
  else if n = 0x022 then { j with smpPeriod := v.setWidth 32 }
  else j

/-- CSRR, CSRW and CSRX (R381). -/
def csrRow : Instr → Option Row
  | .csrr h g n => some ⟨h, fun s c => (s.jobs.find c.f.job).isSome = true, fun s c t =>
      ∃ v, csrIs s c n v ∧ Stands t c (c.x.setG g v) ∧ t.jobs = s.jobs⟩
  | .csrw h g n => some ⟨h, fun s c => (s.jobs.find c.f.job).isSome = true, fun s c t =>
      (∃ z, csrStation n (c.g g) c.x z ∧ Stands t c z) ∧
      t.jobs.find c.f.job = (s.jobs.find c.f.job).map (csrJob n (c.g g)) ∧ ∀ k, k ≠ c.f.job → t.jobs.find k = s.jobs.find k⟩
  | .csrx h g n => some ⟨h, fun s c => (s.jobs.find c.f.job).isSome = true, fun s c t =>
      (∃ v z, csrIs s c n v ∧ csrStation n (c.g g) (c.x.setG g v) z ∧ Stands t c z) ∧
      t.jobs.find c.f.job = (s.jobs.find c.f.job).map (csrJob n (c.g g)) ∧ ∀ k, k ≠ c.f.job → t.jobs.find k = s.jobs.find k⟩
  | _ => none

/-- Where the head fetches next, once the word has issued: from a target, with nothing fetched ahead left, or on along its path;
a station that is not the head leaves the path alone (R298, R311). -/
def Path (t : State) (c : Ctx) (taken : Prop) (target : BitVec 52) : Prop :=
  ∃ f, t.friezes.find c.id = some f ∧
    (c.st = 0 → taken → f.fetched = [] ∧ f.fetchIndex = target) ∧
    (c.st = 0 → ¬taken → f.fetched = c.f.fetched.tail ∧ f.fetchIndex = c.f.fetchIndex) ∧
    (c.st ≠ 0 → f.fetched = c.f.fetched ∧ f.fetchIndex = c.f.fetchIndex)

/-- (index of the word + OFF) modulo 2^52 (R311). -/
def target (c : Ctx) (off : BitVec 28) : BitVec 52 := BitVec.ofInt 52 (c.index.toNat + off.toInt)

/-- BR is taken (R36). -/
def brTakes (x : Station) (r : BitVec 5) (kind : BitVec 3) : Prop :=
  kind = 0 ∨ (kind = 1 ∧ x.rp (r.setWidth 3) = true) ∨ (kind = 2 ∧ x.rp (r.setWidth 3) = false) ∨ (kind = 3 ∧ x.rg r = 0) ∨
    (kind = 4 ∧ x.rg r ≠ 0)

/-- BR, LOOP, CALL and RET (R36, R311, R312). -/
def branchRow : Instr → Option Row
  | .br h r kind off => some (Row.of h fun _ c t => Stands t c c.x ∧ Path t c (brTakes c.x r kind) (target c off))
  | .loop h r off => some (Row.of h fun _ c t =>
      Stands t c (c.x.setG r (c.x.rg r - 1)) ∧ Path t c (c.x.rg r ≠ 1) (target c off))
  | .call h r off => some (Row.of h fun _ c t =>
      Stands t c (c.x.setG r (BitVec.ofNat 64 (c.index + 1).toNat)) ∧ Path t c True (target c off))
  | .ret h r => some (Row.of h fun _ c t => Stands t c c.x ∧ Path t c True ((c.x.rg r).extractLsb' 0 52))
  | _ => none

/-- BRANY and BRALL: the head opens the vote with its own p[C], every other station adds its own (R313). -/
def voteRow : Instr → Option Row :=
  let row (h : Hdr) (all : Bool) (p : BitVec 3) (off : BitVec 28) : Row := .of h fun _ c t =>
    Stands t c c.x ∧ ∃ f, t.friezes.find c.id = some f ∧
      (c.st = 0 → f.vote = some ⟨c.x.pos, all, target c off, [c.x.rp p]⟩) ∧
      (c.st ≠ 0 → f.vote = c.f.vote.map fun v => { v with votes := v.votes ++ [c.x.rp p] })
  fun
  | .brany h p off => some (row h false p off)
  | .brall h p off => some (row h true p off)
  | _ => none

/-- An event counter after a word complete at issue: the wait's consumption, the mode 11 signal, SIGE's own change, the mode 01
signal, in this order (R8, R31, R319, R320). -/
def counted (c : Ctx) (i : Instr) (v : Word) (k : BitVec 6) : Word :=
  let v := if c.h.waitK = k then v - (if c.h.waitMode = 1 then 1 else if c.h.waitMode = 2 then c.x.rq c.h.waitK else 0) else v
  let v := match i with
    | .waite _ g true j => if j = k then v - (c.g g).setWidth 32 else v
    | _ => v
  let v := if c.h.sigMode = 3 ∧ c.h.sigK = k then v + 1 else v
  let v := match i with
    | .sige _ g set j => if j = k then (if set then (c.g g).setWidth 32 else v + (c.g g).setWidth 32) else v
    | _ => v
  if c.h.sigMode = 1 ∧ c.h.sigK = k then v + 1 else v

/-- The words complete at issue that change nothing but their station, its frieze's path and event counters. -/
def plain (i : Instr) : Bool := (stationRow i).isSome || (branchRow i).isSome || (voteRow i).isSome || (integerRow i).isSome

end Sys2Proof.Slice0

/-- g0 reads zero and drops writes, p0 reads 1 and drops writes; every other register reads what was last written to it, and a
write changes no other register (R24). -/
def Obligations.RegisterFiles : Prop :=
  (∀ (x : Station) (d r : Reg) (v : Dword), (x.setG d v).rg r = if r = 0 then 0 else if r = d then v else x.rg r) ∧
  (∀ (x : Station) (d k : BitVec 3) (b : Bool), (x.setP d b).rp k = if k = 0 then true else if k = d then b else x.rp k) ∧
  (∀ (x : Station) (d k : BitVec 4) (h : Shape), (x.setH d h).rh k = if k = d then h else x.rh k) ∧
  (∀ (x : Station) (d k : BitVec 3) (v : View), (x.setV d v).rv k = if k = d then v else x.rv k) ∧
  ∀ (x : Station) (d k : BitVec 6) (v : Word), (x.setQ d v).rq k = if k = d then v else x.rq k

/-- NOP, PSET, SHAPE, VIEWLD.GET, WAITE, SIGE, SWAITS and YIELD complete at issue, with the registers their entries name written on
their own station and nothing else of it changed but counters and its place (R208, R210, R246, R315, R319, R320, R383, R384). -/
def Obligations.StationWords : Prop := Slice0.Completes Slice0.stationRow

/-- CSRR returns the CSR, CSRW writes it where it is writable, CSRX exchanges it; a write to a job CSR changes that job's value on
this module and no other job's; a read-only CSR stays (R42, R381). -/
def Obligations.CsrWords : Prop := Slice0.Completes Slice0.csrRow

/-- BR, LOOP, CALL and RET: the head's test alone decides whether the head fetches from the target next; LOOP and CALL write each
station's own g[C] (R36, R311, R312). -/
def Obligations.BranchWords : Prop := Slice0.Completes Slice0.branchRow

/-- BRANY and BRALL gather the stations' p[C] as they stand when each issues the word. VOTE_RESULT: once every station has contributed, the
head takes the branch when p[C] was 1 on at least one station (BRANY) or on every station (BRALL), and goes on else; until then nothing
changes (R311, R313). -/
def Obligations.VoteWords : Prop :=
  Slice0.Completes Slice0.voteRow ∧
  ∀ (id : Nat) (f : Frieze) (v : Vote) (s : State), s.friezes.find id = some f → f.vote = some v →
    ∃ t g, exec (.voteResult id) s = .next t ∧ t.friezes.find id = some g ∧
      (v.votes.length < f.stations.length → g = f) ∧
      (f.stations.length ≤ v.votes.length →
        g.vote = none ∧
        ((if v.all then ∀ b ∈ v.votes, b = true else ∃ b ∈ v.votes, b = true) → g.fetched = [] ∧ g.fetchIndex = v.target) ∧
        (¬(if v.all then ∀ b ∈ v.votes, b = true else ∃ b ∈ v.votes, b = true) →
          g.fetched = f.fetched ∧ g.fetchIndex = f.fetchIndex))

/-- The event counters of a word complete at issue: the wait is consumed first, a mode 11 signal is added before the effect, a mode
01 signal after it; SIGE adds g[G][31:0], or writes it under SET, in between; every other counter of the station stays (R8, R31,
R319, R320). -/
def Obligations.CounterUpdates : Prop :=
  ∀ (i : Instr) (h : Hdr) (s : State) (c : Ctx), Slice0.plain i = true → Issues s i h c →
    ∃ t, exec i s = .next t ∧ ∀ k, t.counter c.id c.st k = Slice0.counted c i (s.counter c.id c.st k) k

/-- The words of groups 0x0 to 0x3 that act on their station, its path and event counters alone change nothing else, on any outcome:
not a byte of memory, no port, no register of another unit, no table of the module. Such a word leaves every other station of every
frieze as it was, but for the entry of the word in the next station's queue (R24, R297, R298). -/
def Obligations.PlainFrame : Prop :=
  (∀ (i : Instr) (s t : State), Slice0.plain i = true → exec i s = .next t → Quiet s t ∧ SameBytes s t) ∧
  ∀ (i : Instr) (h : Hdr) (s : State) (c : Ctx), Slice0.plain i = true → Issues s i h c →
    ∃ t, exec i s = .next t ∧ ∀ id st y, (id, st) ≠ (c.id, c.st) → s.station? id st = some y →
      ∃ en, t.station? id st = some { y with entered := en }

namespace Sys2Proof.Slice0

/-! ### How every control word issues (R6, R29–R31, R41, R43, R303, R403) -/

/-- The trap word is the station's next word: the station stops at it, the head stops, and the trap is the earliest found; while the
frieze is being frozen nothing is kept of it (R6, R393, R414). -/
def Traps (s t : State) (c : Ctx) (cause : Cause) (d0 : Dword) : Prop :=
  Quiet s t ∧ t.cur = none ∧ ∃ f, t.friezes.find c.id = some f ∧
    f.stations[c.st]? = some { c.x with stopped := true } ∧
    (c.f.stop = .freeze → f.stop = .freeze ∧ f.trap = c.f.trap) ∧
    (c.f.stop ≠ .freeze → f.stop = .trap ∧ f.trap = some (Trap.meet c.f.trap ⟨cause, none, c.st, c.x.pos, d0, 0, 0⟩))

/-- No counter of any tile or station changes, and no station but the word's own. -/
def Alone (s t : State) (c : Ctx) : Prop :=
  (∀ u, t.tile u = s.tile u) ∧ (∀ k, t.counter c.id c.st k = s.counter c.id c.st k) ∧
    ∀ id st y, (id, st) ≠ (c.id, c.st) → s.station? id st = some y → t.station? id st = some y

/-- The word traps, and leaves every counter and every other station alone. -/
def TrapsAlone (s t : State) (c : Ctx) (cause : Cause) (d0 : Dword) : Prop := Traps s t c cause d0 ∧ Alone s t c

/-- A violation found at issue: the frieze freezes with its cause and address, the fault waits for the resume, and the station stops at the
word (R376, R378). -/
def Violates (s t : State) (c : Ctx) (cause : Cause) (d0 : Dword) : Prop :=
  SameBytes s t ∧ Alone s t c ∧ t.cur = none ∧ ∃ f, t.friezes.find c.id = some f ∧ f.frozen = true ∧
    f.stations[c.st]? = some { c.x with stopped := true, faults := c.x.faults ++ [⟨none, cause, s.serial, d0, 0, 0⟩] } ∧
    (c.f.frozen = false → f.stop = .freeze ∧ f.freezeRec = some (cause, d0))

/-- A scalar access of group 0x4, the size it moves, and whether it is of GLOBAL space (R201). -/
def scalarRow : Instr → Option (Hdr × Reg × BitVec 26 × Nat × Bool)
  | .lds h _ a imm => some (h, a, imm, 8, false)
  | .sts h _ a imm => some (h, a, imm, 8, false)
  | .ldq h _ a imm => some (h, a, imm, 32, false)
  | .stq h _ a imm => some (h, a, imm, 32, false)
  | .ldg h _ a imm => some (h, a, imm, 8, true)
  | .stg h _ a imm => some (h, a, imm, 8, true)
  | _ => none

/-- The SHARED bytes of a job (R17, R184). -/
def sharedBytes (s : State) (job : Nat) : Nat := ((s.jobs.find job).map (·.banks.length * 2 ^ 20)).getD 0

/-- Amount a WAIT byte waits for (R8). -/
def waitNeed (c : Ctx) : Word := if c.h.waitMode = 0 then 0 else if c.h.waitMode = 1 then 1 else c.x.rq c.h.waitK

/-- The word is next at the selected station, neither discarded after a resume, nor refused by R43 or R41. -/
structure Reaches (s : State) (i : Instr) (h : Hdr) (c : Ctx) : Prop where
  hdr : i.hdr? = some h
  ctx : ctxOf s i h = some c
  kept : c.f.skip ≠ some c.lane
  legal : i.wf = true
  allowed : i.privileged = true → c.job = 0

end Sys2Proof.Slice0

/-- A word the decoding rules refuse traps with ILLEGAL_INSTRUCTION at its own index, a privileged one outside the management job
with PRIVILEGED_INSTRUCTION. A scalar access of the wrong space traps with PROTECTION, an unaligned one with MISALIGNED, one with RSVD set
or of bytes its LOCAL or SHARED space does not have with BOUNDS, which of a SHARED offset freezes the frieze too; an ATOMG that is not
aligned, or whose form is not one, traps at issue likewise. Each changes no memory, no counter, no register and no other station (R6, R17, R41, R43,
R201, R204, R207, R376, R378). -/
def Obligations.RefusedWordsTrap : Prop :=
  (∀ (i : Instr) (h : Hdr) (s : State) (c : Ctx), i.hdr? = some h → ctxOf s i h = some c → c.f.skip ≠ some c.lane →
    (i.wf = false → ∃ t, exec i s = .next t ∧ Slice0.TrapsAlone s t c 0x01 0) ∧
    (i.wf = true → i.privileged = true → c.job ≠ 0 → ∃ t, exec i s = .next t ∧ Slice0.TrapsAlone s t c 0x02 0)) ∧
  (∀ (i : Instr) (h : Hdr) (a : Reg) (imm : BitVec 26) (z : Nat) (global : Bool) (s : State) (c : Ctx),
    Slice0.scalarRow i = some (h, a, imm, z, global) → Issues s i h c →
    let f := c.g a
    let ad : Int := formAddr f + imm.toInt
    let allowed : Prop := formSpace f ≠ 3 ∧ (global = true ↔ formSpace f = spGlobal)
    (¬allowed → ∃ t, exec i s = .next t ∧ Slice0.TrapsAlone s t c 0x06 (formAt f ad)) ∧
    (allowed → ad % z ≠ 0 → ∃ t, exec i s = .next t ∧ Slice0.TrapsAlone s t c 0x03 (formAt f ad)) ∧
    (allowed → ad % z = 0 → global = false →
      (formRsvd f ≠ 0 ∨ ad < 0 ∨ 2 ^ 55 < ad + z ∨ (formSpace f = spLocal ∧ 2 ^ 19 < ad + z)) →
      ∃ t, exec i s = .next t ∧ Slice0.TrapsAlone s t c 0x04 (formAt f ad)) ∧
    (allowed → ad % z = 0 → formRsvd f = 0 → formSpace f = spShared → 0 ≤ ad → ad + z ≤ 2 ^ 55 →
      (2 ^ 29 ≤ ad ∨ (Slice0.sharedBytes s c.f.job : Int) < ad + z) →
      ∃ t, exec i s = .next t ∧ Slice0.Violates s t c 0x04 (formAt f ad))) ∧
  ∀ (h : Hdr) (d a b e : Reg) (op : BitVec 4) (wide : Bool) (s : State) (c : Ctx),
    let i := Instr.atomg h d a b e op wide
    let z := if wide then 8 else 4
    Issues s i h c →
    (formAddr (c.g a) % z ≠ 0 → ∃ t, exec i s = .next t ∧ Slice0.TrapsAlone s t c 0x03 (c.g a)) ∧
    (formAddr (c.g a) % z = 0 → formSpace (c.g a) = 3 → ∃ t, exec i s = .next t ∧ Slice0.TrapsAlone s t c 0x06 (c.g a)) ∧
    (formAddr (c.g a) % z = 0 → formSpace (c.g a) ≠ 3 → formRsvd (c.g a) ≠ 0 →
      ∃ t, exec i s = .next t ∧ Slice0.TrapsAlone s t c 0x04 (c.g a))

/-- A word whose WAIT byte is not met, at a station that issues, is held, whether or not the lane has room for it: it does not issue,
nothing is consumed, and the station's hold count and HELD advance (R8, R303, R305). -/
def Obligations.UnmetWaitHolds : Prop :=
  ∀ (i : Instr) (h : Hdr) (s : State) (c : Ctx), Slice0.Reaches s i h c → haltWait c = false →
    (s.counter c.id c.st h.waitK).toNat < (Slice0.waitNeed c).toNat →
    ∃ t, exec i s = .next t ∧ Quiet s t ∧ (∀ k, t.counter c.id c.st k = s.counter c.id c.st k) ∧
      ∃ b, t.station? c.id c.st = some { c.x with hold := c.x.hold + 1, held := c.x.held + 1, stopped := b }

/-- A word under a false predicate, with its wait met, issues and completes with no effect: the wait is consumed as encoded and a
mode 01 or mode 11 signal adds 1; nothing of mode 10 (R29, R30). -/
def Obligations.FalsePredicateSkips : Prop :=
  ∀ (i : Instr) (h : Hdr) (s : State) (c : Ctx), Slice0.Reaches s i h c → holdOf s c i = none → c.on = false →
    ∃ t, exec i s = .next t ∧ Quiet s t ∧ Slice0.Stands t c c.x ∧
      ∀ k, t.counter c.id c.st k =
        s.counter c.id c.st k
          - (if h.waitK = k then (if h.waitMode = 1 then 1 else if h.waitMode = 2 then c.x.rq h.waitK else 0) else 0)
          + (if h.sigK = k ∧ (h.sigMode = 1 ∨ h.sigMode = 3) then 1 else 0)

/-- After a resume of MODE 01 every station discards the word at the trap word's position without issuing it: nothing of it takes
effect, and the station moves past it (R403). -/
def Obligations.SkippedAfterResume : Prop :=
  ∀ (i : Instr) (h : Hdr) (s : State) (c : Ctx), i.hdr? = some h → ctxOf s i h = some c → c.f.skip = some c.lane →
    ∃ t, exec i s = .next t ∧ Quiet s t ∧ (∀ k, t.counter c.id c.st k = s.counter c.id c.st k) ∧
      t.station? c.id c.st = some { c.x.moved with issued := c.x.issued }

/-- A step runs the word it has selected: where no sample is due and a station is selected whose next word decodes to i, the step is
exec of i in the next c-cycle; that a step is one c-cycle is the model's choice, log entry 3 (R28, R302). -/
def Obligations.StepRunsTheSelectedWord : Prop :=
  ∀ (s : State) (f : Frieze) (k : Cur) (w : LaneWord) (i : Instr) (rest : List Byte),
    dueEvent s.tick = none → s.cur = some k → s.friezes.find k.fz = some f → f.nextWord k.st = some w →
    decodeBytes (bytesOf w.word) = .ok (i, rest) → step s = exec i { s with cycles := s.cycles + 1 }

namespace Sys2Proof.Slice0

/-! ### Events of the control cores -/

/-- Frieze id of the table is f, and its station st is x. -/
structure At (s : State) (id st : Nat) (f : Frieze) (x : Station) : Prop where
  fz : s.friezes.find id = some f
  st : f.stations[st]? = some x

/-- The frieze's head takes words: the frieze stands on its span, nothing stops it and no vote is open (R302, R313). -/
structure Heads (f : Frieze) : Prop where
  on : f.state = .resident
  go : f.stop = .no
  vote : f.vote = none

/-- The frieze's trap, with the head stopped for it and the trapping station stopped (R393, R394). -/
def Trapped (t : State) (id st : Nat) (x : Station) (r : Trap) : Prop :=
  ∃ g, t.friezes.find id = some g ∧ g.stop = .trap ∧ g.trap = some r ∧ g.stations[st]? = some { x with stopped := true }

/-- A frieze's station on a tile whose next word is ready to issue there (R302). -/
def Ready (s : State) (tile : Nat) (p : Nat × Nat) : Prop := p ∈ s.standing tile ∧ standAt s p.1 p.2 = .ready

/-- How many context slots a frieze's own lies past the one after the slot that issued last on a tile (R302). -/
def turnOf (s : State) (tile id : Nat) : Nat := (s.slotOf id + 3 + 3 * (s.tile tile).pointer) % 4

/-- DETAIL0 to DETAIL2 of a WAIT_TIMEOUT (R397). -/
def timeoutSays (s : State) (id st tile : Nat) (w : Why) (r : Trap) : Prop :=
  (∀ k need, w = .counter k need →
    r.d0 = k.setWidth 64 ∧ r.d1 = (s.counter id st k).setWidth 64 ∧ r.d2 = need.setWidth 64) ∧
  (∀ p need, w = .port p need →
    r.d0 = 0x0100000000000000 ||| BitVec.ofNat 64 p ∧ r.d1 = BitVec.ofNat 64 ((s.tile tile).portCount p) ∧ r.d2 = need) ∧
  (∀ m, w = .slots m → r.d0 = 0x0200000000000000 ||| m.setWidth 64 ∧ r.d1 = 0 ∧ r.d2 = 0) ∧
  ∀ n, w = .reg n → r.d0 = 0x0300000000000000 ||| BitVec.ofNat 64 n ∧ r.d1 = 0 ∧ r.d2 = 0

/-- A slot its events act on: RUNNING, held by nothing, of a frieze that stands on its span (R173, R235, R378). -/
structure Moves (s : State) (id st k : Nat) (f : Frieze) (x : Station) (q : Slot) : Prop where
  at_ : At s id st f x
  on : f.state = .resident ∧ f.draining = false
  slot : k < 16 ∧ x.slot (BitVec.ofNat 4 k) = q
  run : q.state = .running ∧ q.waits = [] ∧ q.frozen = false

/-- Where z bytes at the address a of a form lie for a station: in memory within reach that is not versioned and that no owner node
forwards to (R17, R182, R187, R363). -/
def Lies (s : State) (f : Frieze) (st : Nat) (form : Dword) (a : Int) (z : Nat) (k : Access) (p : Place) : Prop :=
  elementCheck s f.job (f.tileOf st) form a z k = .ok p ∧ s.placeUp p = true ∧ p.ver = none ∧
    ownerForward s p = none

/-- The slot is IDLE again, its work done. -/
def SlotDone (t : State) (id st k : Nat) (y : Station) : Prop :=
  t.station? id st = some y ∧ y.slot (BitVec.ofNat 4 k) = Slot.idle

/-- The bits left in memory by an atomic update of w bits: o the old value, x the operand, c the compare value (R205, R206). -/
def atomLeaves (op w o x c : Nat) : Nat :=
  match op with
  | 0 => x
  | 1 => if o = c then x else o
  | 2 => (o + x) % 2 ^ w
  | 3 => Nat.land o x
  | 4 => Nat.lor o x
  | 5 => Nat.xor o x
  | 6 => if (BitVec.ofNat w o).toInt ≤ (BitVec.ofNat w x).toInt then o else x
  | 7 => if (BitVec.ofNat w o).toInt ≤ (BitVec.ofNat w x).toInt then x else o
  | 8 => min o x
  | 9 => max o x
  | _ => (fadd .rne 0 (BitVec.ofNat 32 o) (BitVec.ofNat 32 x)).toNat

/-! ### TRAP, BRK, TRIG and EXIT -/

/-- TRAP and BRK: the trap word is the next word in lane order; TRAP traps station 0, BRK each station with a true predicate, and the
masks of one BRK join (R401, R402). -/
def trapRow : Instr → Option Row
  | .trap h code => some (Row.of h fun _ c t => Stands t c c.x ∧ ∃ f, t.friezes.find c.id = some f ∧
      (c.st = 0 → f.stop = .trap ∧
        f.trap = some (Trap.meet c.f.trap ⟨0x10, none, 0, c.x.pos + 1, code.setWidth 64, 0, 0⟩)) ∧
      (c.st ≠ 0 → f.stop = c.f.stop ∧ f.trap = c.f.trap))
  | .brk h code => some (Row.of h fun _ c t => Stands t c c.x ∧ ∃ f, t.friezes.find c.id = some f ∧
      f.stop = (if c.f.stop = .freeze then .freeze else .trap) ∧
      f.trap = some (Trap.meet c.f.trap
        ⟨0x0F, none, c.st, c.x.pos + 1, code.setWidth 64, BitVec.ofNat 64 (2 ^ c.st), 0⟩))
  | _ => none

/-- TRIG: the station counts toward the trigger with the accesses outstanding at its first TRIG (R240, R317). -/
def trigRow : Instr → Option Row
  | .trig h => some (Row.of h fun s c t =>
      Stands t c { c.x with trig := some (c.x.trig.getD (s.outstanding c.id c.st 0x7F)) })
  | _ => none

/-- Event i performs an access of station st whole: a one-element access of a slot, or a scalar access left outstanding (R177, R202,
R206). Its number is u. -/
inductive Performs (s : State) (id st : Nat) (x : Station) : Nat → Instr → Prop where
  | load (k : Nat) (f : Frieze) (q : Slot) (p : Place) : Moves s id st k f x q → q.kind = .ldg → q.applied = false → q.aborts = [] →
      Lies s f st q.base (formAddr q.base + q.base2.toInt) 8 .read p → s.badAt p 8 = false →
      Performs s id st x q.uid (.streamElementPerformed id st k)
  | store (k : Nat) (f : Frieze) (q : Slot) (p : Place) : Moves s id st k f x q → q.kind = .stg → q.aborts = [] →
      Lies s f st q.base (formAddr q.base + q.base2.toInt) 8 .write p → Performs s id st x q.uid (.streamElementPerformed id st k)
  | atomic (k : Nat) (f : Frieze) (q : Slot) (p : Place) : Moves s id st k f x q → q.kind = .atomg → q.applied = false →
      q.aborts = [] → Lies s f st q.base (formAddr q.base) (if q.wide then 8 else 4) .atomic p →
      s.badAt p (if q.wide then 8 else 4) = false → Performs s id st x q.uid (.atomicApply id st k)
  | scalar (j : Nat) (f : Frieze) (q : PendScalar) (p : Place) : At s id st f x → f.state = .resident → j < 16 →
      x.pend[j]? = some q → q.waits = [] →
      Lies s f st q.form q.addr (if q.quad then 32 else 8) (if q.store then .write else .read) p →
      (q.store = true → (q.vals.flatMap bytesOf).length = if q.quad then 32 else 8) →
      Performs s id st x q.uid (.streamElementPerformed id st (16 + j))

/-- Every station of the frieze but st has issued EXIT, with nothing running and no fault to be delivered. -/
def othersDone (f : Frieze) (st : Nat) : Prop :=
  ∀ j y, f.stations[j]? = some y → j ≠ st → y.exiting = true ∧ y.quiet = true ∧ y.faults = []

/-- EXIT: the station issues no later word; the frieze has exited once every station has issued it and every slot is IDLE; a
handler ends otherwise (R318, R400). -/
def exitRow : Instr → Option Row
  | .exit h => some (Row.of h fun _ c t => ∃ f x, t.friezes.find c.id = some f ∧ t.station? c.id c.st = some x ∧
      x.exiting = true ∧ x.pos = c.x.pos + 1 ∧ x.g = c.x.g ∧ x.slots = c.x.slots ∧
      (c.x.quiet = true ∧ othersDone c.f c.st ∧ c.f.handlerOf = none → f.state = .ended) ∧
      (¬(c.x.quiet = true ∧ othersDone c.f c.st ∧ c.f.handlerOf = none) → f.state = .resident))
  | _ => none

end Sys2Proof.Slice0

/-- TRAP and BRK complete at issue and leave the trap pending at the next lane position, with cause, DETAIL0 the code and for BRK
DETAIL1 the mask of stations (R393, R401, R402). -/
def Obligations.TrapAndBreakWords : Prop := Slice0.Completes Slice0.trapRow

/-- TRIG completes at issue; the station counts toward the trigger with the accesses outstanding then, and a later TRIG has no further
effect; a station that reaches EXIT without TRIG counts likewise. The accesses a station's trigger still waits for lose each access as it
takes effect. TRIGGER: a frieze triggers once every station of its span counts and none waits for an access; until then it does not (R240,
R317, R318). -/
def Obligations.TrigWord : Prop :=
  Slice0.Completes Slice0.trigRow ∧
  (∀ (h : Hdr) (s : State) (c : Ctx), Issues s (.exit h) h c →
    ∃ t x, exec (.exit h) s = .next t ∧ t.station? c.id c.st = some x ∧
      x.trig = some (c.x.trig.getD (s.outstanding c.id c.st 0x7F))) ∧
  (∀ (id st u : Nat) (x : Station) (i : Instr) (s : State), Slice0.Performs s id st x u i →
    ∃ t y, exec i s = .next t ∧ t.station? id st = some y ∧ y.trig = x.trig.map fun l => l.filter (· ≠ u)) ∧
  ∀ (id : Nat) (f : Frieze) (s : State), s.friezes.find id = some f → f.state ≠ .ended →
    ∃ t g, exec (.trigger id) s = .next t ∧ t.friezes.find id = some g ∧
      ((∀ y ∈ f.stations, y.trig = some []) → g = { f with triggered := true }) ∧
      (¬(∀ y ∈ f.stations, y.trig = some []) → g = f)

/-- EXIT ends the station's issue, and the frieze once every station has exited with every slot IDLE (R318). -/
def Obligations.ExitWord : Prop := Slice0.Completes Slice0.exitRow


namespace Sys2Proof.Slice0

/-! ### Groups 0x4 and 0x8: scalar accesses, ports, order -/

/-- Where a LOCAL or SHARED access of z bytes at ADDR + sx(IMM) goes (R17, R182, R202). -/
def scalarPlace (s : State) (c : Ctx) (a : Reg) (imm : BitVec 26) (z : Nat) (k : Access) (p : Place) : Prop :=
  formSpace (c.g a) ≠ spGlobal ∧
    elementCheck s c.f.job c.tile (c.g a) (formAddr (c.g a) + imm.toInt) z k = .ok p

/-- No owner node forwards an access of z bytes (R206, R363); where one does, the access takes a forwarding slot (log entry 103). -/
def direct (s : State) (job tile : Nat) (form : Dword) (a : Int) (z : Nat) (k : Access) : Bool :=
  match elementCheck s job tile form a z k with
  | .ok p => (ownerForward s p).isNone
  | .error _ => true

/-- Nothing holds a scalar access back: no FENCE, and no earlier access of the station to the same bytes; the 840 performs it at its
issue and no owner node forwards it (R203, R245; log entries 79 and 103). -/
def unheld (s : State) (c : Ctx) (k : Access) (a : Reg) (imm : BitVec 26) (z : Nat) : Prop :=
  c.x.waitsFor (if k = .write then clLW else clLR) false = [] ∧ overlapping s c (c.g a) (formAddr (c.g a) + imm.toInt) z = [] ∧
    c.late = false ∧ direct s c.f.job c.tile (c.g a) (formAddr (c.g a) + imm.toInt) z k

/-- A load takes the bytes of the one earlier store of its station that covers them (R203, R228; log entry 79). -/
def takesStore (s : State) (c : Ctx) (a : Reg) (imm : BitVec 26) (z : Nat) (bs : List Byte) : Prop :=
  c.x.waitsFor clLR false = [] ∧ c.late = false ∧
    forwarded c.x (overlapping s c (c.g a) (formAddr (c.g a) + imm.toInt) z) (c.g a) (formAddr (c.g a) + imm.toInt).toNat z = some bs

/-- LDS and LDQ: the doublewords at the address are written to g[D] on (R45, R202). -/
def loadRow : Instr → Option Row :=
  let row (h : Hdr) (d a : Reg) (imm : BitVec 26) (z : Nat) : Row :=
    ⟨h, fun s c => (∃ p, scalarPlace s c a imm z .read p ∧ s.badAt p z = false) ∧ unheld s c .read a imm z,
     fun s c t => SameBytes s t ∧ ∀ p, scalarPlace s c a imm z .read p →
       Stands t c (setGs c.x d (dwordsOf (s.bytesAt p z) (z / 8)))⟩
  fun
  | .lds h d a imm => some (row h d a imm 8)
  | .ldq h d a imm => some (row h d a imm 32)
  | _ => none

/-- STS and STQ: the registers from g[D] on are stored at the address, and no other byte of any memory changes (R202). -/
def storeRow : Instr → Option Row :=
  let row (h : Hdr) (d a : Reg) (imm : BitVec 26) (n : Nat) : Row :=
    ⟨h, fun s c => (∃ p, scalarPlace s c a imm (8 * n) .write p) ∧ unheld s c .write a imm (8 * n),
     fun s c t => Stands t c c.x ∧ ∀ p, scalarPlace s c a imm (8 * n) .write p →
       ((s.mem p.mem).wf → t.bytesAt p (8 * n) = ((regs4 d).take n).flatMap fun r => bytesOf (c.g r)) ∧ SameBytesBut s t p (8 * n)⟩
  fun
  | .sts h d a imm => some (row h d a imm 1)
  | .stq h d a imm => some (row h d a imm 4)
  | _ => none

/-- A scalar access that cannot, or at the 840's choice does not, take effect at its issue stands among the station's outstanding
ones, with its operands and what it waits for (R203, R245; log entry 79). -/
def laterRow : Instr → Option Row :=
  let row (h : Hdr) (k : Access) (quad : Bool) (d a : Reg) (imm : BitVec 26) (vals : Ctx → List Dword) : Row :=
    let z := if quad then 32 else 8
    let ad (c : Ctx) : Int := formAddr (c.g a) + imm.toInt
    ⟨h, fun s c => (∃ p, scalarPlace s c a imm z k p) ∧ ¬unheld s c k a imm z ∧ (k = .read → ∀ bs, ¬takesStore s c a imm z bs),
     fun s c t => SameBytes s t ∧ Stands t c { c.x with pend := c.x.pend ++ [
       { uid := s.serial, store := decide (k = .write), quad := quad, dst := d, form := c.g a, addr := (ad c).toNat, vals := vals c,
         waits := c.x.waitsFor (if k = .write then clLW else clLR) false ++ overlapping s c (c.g a) (ad c) z,
         sigMode := h.sigMode, sigK := h.sigK }] }⟩
  fun
  | .lds h d a imm => some (row h .read false d a imm fun _ => [])
  | .ldq h d a imm => some (row h .read true d a imm fun _ => [])
  | .sts h d a imm => some (row h .write false d a imm fun c => [c.g d])
  | .stq h d a imm => some (row h .write true d a imm fun c => (regs4 d).map c.g)
  | _ => none

/-- A load that takes the bytes of an earlier store of its station which is not performed yet (R203, R228; log entry 79). -/
def forwardRow : Instr → Option Row :=
  let row (h : Hdr) (d a : Reg) (imm : BitVec 26) (z : Nat) : Row :=
    ⟨h, fun s c => (∃ p, scalarPlace s c a imm z .read p) ∧ ∃ bs, takesStore s c a imm z bs,
     fun s c t => SameBytes s t ∧ ∀ bs, takesStore s c a imm z bs → Stands t c (setGs c.x d (dwordsOf bs (z / 8)))⟩
  fun
  | .lds h d a imm => some (row h d a imm 8)
  | .ldq h d a imm => some (row h d a imm 32)
  | _ => none

/-- The lowest-numbered IDLE slot of the station (R195). -/
def Lowest (x : Station) (k : BitVec 4) : Prop :=
  (x.slot k).state = .idle ∧ ∀ j : BitVec 4, j.toNat < k.toNat → (x.slot j).state ≠ .idle

/-- The word's access runs in slot k from here on, as a slot q describes it; g is what else the word does to its station. -/
def Runs (s t : State) (c : Ctx) (k : BitVec 4) (g : Station → Station) (q : Slot → Prop) : Prop :=
  ∃ r : Slot, Stands t c (g (c.x.setSlot k r)) ∧ r.state = .running ∧ r.uid = s.serial ∧ r.sigMode = c.h.sigMode ∧
    r.sigK = c.h.sigK ∧ r.next = 0 ∧ q r

/-- LDG, STG, ATOMG, RATOM and RSIG take the lowest IDLE slot with their operands as read at issue; the release set of RATOM and RSIG
is waited for, and RATOM.ACQ holds every later access (R195, R202, R206, R236, R248, R249). -/
def slotRow : Instr → Option Row :=
  let global (h : Hdr) (kind : SKind) (d a : Reg) (imm : BitVec 26) : Row :=
    ⟨h, fun _ c => formSpace (c.g a) = spGlobal ∧ (formAddr (c.g a) + imm.toInt) % 8 = 0,
     fun s c t => ∃ k, Lowest c.x k ∧ Runs s t c k id fun r => r.kind = kind ∧ r.base = c.g a ∧ r.base2.toInt = imm.toInt ∧
       r.dst = d ∧ r.val = c.g d ∧ r.view = c.x.rv 0⟩
  let aligned (f : Dword) (wide : Bool) : Prop :=
    formSpace f ≠ 3 ∧ formRsvd f = 0 ∧ formAddr f % (if wide then 8 else 4) = 0
  fun
  | .ldg h d a imm => some (global h .ldg d a imm)
  | .stg h d a imm => some (global h .stg d a imm)
  | .atomg h d a b e op wide => some ⟨h, fun _ c => aligned (c.g a) wide,
      fun s c t => ∃ k, Lowest c.x k ∧ Runs s t c k id fun r => r.kind = .atomg ∧ r.base = c.g a ∧ r.op = op.toNat ∧ r.wide = wide ∧
        r.val = c.g b ∧ r.cmp = c.g e ∧ r.dst = d⟩
  | .ratom h a b e d op wide acq rel => some ⟨h, fun _ c => aligned (c.g b) wide,
      fun s c t => ∃ k, Lowest c.x k ∧
        Runs s t c k (fun y => if acq then { y with holds := y.holds ++ [⟨[s.serial], 0x7F, false, true, none⟩] } else y) fun r =>
          r.kind = .ratom ∧ r.base = c.g b ∧ r.op = op.toNat ∧ r.wide = wide ∧ r.val = c.g e ∧ r.cmp = c.g d ∧ r.dst = a ∧
          ∀ u ∈ s.outstanding c.id c.st rel, u ∈ r.waits⟩
  | .rsig h a b rel => some ⟨h,
      fun s c => sigPlain (c.g a) = true ∧ nameable s c.f.job (sigModule (c.g a)) (sigTile (c.g a)) = true,
      fun s c t => ∃ k, Lowest c.x k ∧ Runs s t c k id fun r => r.kind = .rsig ∧ r.base = c.g a ∧
        r.val = (if b = 0 then 1 else c.g b) ∧ ∀ u ∈ s.outstanding c.id c.st rel, u ∈ r.waits⟩
  | _ => none

/-- SBAR, FENCE and SABORT (R244, R245, R247). -/
def orderRow : Instr → Option Row
  | .sbar h mask => some (.of h fun _ c t => ∃ ps : List Nat,
      (∀ u, u ∈ ps ↔ ∃ k : BitVec 4, mask.getLsbD k.toNat = true ∧ (c.x.slot k).state = .running ∧ (c.x.slot k).uid = u) ∧
      (ps = [] → Stands t c c.x) ∧ (ps ≠ [] → Stands t c { c.x with holds := c.x.holds ++ [⟨ps, 0, true, false, none⟩] }))
  | .fence h pred succ _ => some (.of h fun s c t =>
      (s.outstanding c.id c.st pred = [] → Stands t c c.x) ∧
      (s.outstanding c.id c.st pred ≠ [] → Stands t c { c.x with holds := c.x.holds ++
        [⟨s.outstanding c.id c.st pred, succ, false, false, if h.sigMode = 1 then some ⟨c.id, c.st, h.sigMode, h.sigK⟩ else none⟩] }))
  | .sabort h g k => some (.of h fun s c t =>
      ((c.x.slot k).state = .idle → c.x.justEnded s.cycles.toNat k = none → Stands t c (c.x.setG g 0x8000000000000000)) ∧
      (∀ n, (c.x.slot k).state = .idle → c.x.justEnded s.cycles.toNat k = some n →
        Stands t c (c.x.setG g 0x8000000000000000) ∨ Stands t c (c.x.setG g (BitVec.ofNat 64 n))) ∧
      ((c.x.slot k).state ≠ .idle → (c.x.slot k).kind.whole = true →
        Stands t c (c.x.setSlot k { c.x.slot k with aborts := (c.x.slot k).aborts ++ [(g, h.sigMode, h.sigK)] })) ∧
      ((c.x.slot k).state ≠ .idle → (c.x.slot k).kind.whole = false →
        ∃ y, t.station? c.id c.st = some y ∧ y.pos = c.x.pos + 1 ∧ (y.slot k).state = .idle ∧
          y.rg g = if g = 0 then 0 else BitVec.ofNat 64 (c.x.slot k).next))
  | _ => none

/-- PORTRD, PORTWR, PORTSPC, SPORTCFG, SPORTCFG.OFF and VIEWLD (R210–R214, R225). -/
def portRow : Instr → Option Row
  | .portrd h d a o => some ⟨h,
      fun s c => s.foreignPort c.tile (32 + o.toNat) c.id = false ∧
        ∃ b rest, (s.tile c.tile).outPort o.toNat = b :: rest ∧ b.r.poison = false,
      fun s c t => ∀ b rest, (s.tile c.tile).outPort o.toNat = b :: rest → (t.tile c.tile).outPort o.toNat = rest ∧
        Stands t c ((c.x.setG d (b.r.data.extractLsb' 0 64)).setG a (b.r.data.extractLsb' 64 64))⟩
  | .portwr h d a i => some ⟨h, fun s c => s.foreignPort c.tile i.toNat c.id = false,
      fun s c t => Stands t c c.x ∧
        ((t.tile c.tile).inPort i.toNat).fifo = ((s.tile c.tile).inPort i.toNat).fifo ++
          [⟨0, enterRec ((s.tile c.tile).inPort i.toNat).binding i.toNat ((s.tile c.tile).inPort i.toNat).srCount
            { kind := 0, data := c.g a ++ c.g d, side := 0, poison := false }, c.g a ++ c.g d⟩] ∧
        ((t.tile c.tile).inPort i.toNat).srCount = ((s.tile c.tile).inPort i.toNat).srCount + 1⟩
  | .portspc h d _ p => some ⟨h, fun s c => s.foreignPort c.tile p.toNat c.id = false,
      fun s c t => Stands t c (c.x.setG d (portStatus (s.tile c.tile) p.toNat)) ∧
        (p.toNat < 32 → portStatus (s.tile c.tile) p.toNat = BitVec.ofNat 64 ((s.tile c.tile).inPort p.toNat).free)⟩
  | .sportcfg h p lvl k => some ⟨h,
      fun s c => s.foreignPort c.tile p.toNat c.id = false ∧ s.foreignCfg c.tile p.toNat c.id = false,
      fun s c t => Stands t c c.x ∧ (t.tile c.tile).cfg.find p.toNat = some ⟨c.id, 2 * lvl.toNat, k.toNat⟩ ∧
        ∀ q, q ≠ p.toNat → (t.tile c.tile).cfg.find q = (s.tile c.tile).cfg.find q⟩
  | .sportcfgOff h p => some ⟨h,
      fun s c => s.foreignPort c.tile p.toNat c.id = false ∧ s.foreignCfg c.tile p.toNat c.id = false,
      fun s c t => Stands t c c.x ∧ (t.tile c.tile).cfg = (s.tile c.tile).cfg.del p.toNat⟩
  | .viewld h x a b => some (.of h fun _ c t => Stands t c (c.x.setV x
      { datum := (c.g a).extractLsb' 16 48, txn := (c.g a).getLsbD 2, live := false, latest := (c.g a).getLsbD 0,
        txid := (c.g b).extractLsb' 0 24 }))
  | _ => none

/-! ### Groups 0x5 to 0x7: the start of a stream -/

/-- A stream word: its slot, shape and kind, what of h(SHAPE + 1) it uses, the limits of its entry, the ports it names, whether an
empty stream completes at issue, and what its slot holds. -/
structure StreamRow where
  hdr : Hdr
  slot : BitVec 4
  shape : BitVec 4
  kind : SKind
  bounded : Bool := false
  copied : Bool := false
  twelve : State → Ctx → Prop := fun _ _ => False
  limits : Ctx → Prop := fun _ => True
  ports : List Nat
  atIssue : Ctx → Prop := fun _ => True
  fields : State → Ctx → Slot → Prop

/-- The rows of R176 and R200 that end a stream at issue: with a cause, or none when the stream runs or is empty. -/
def streamTrap (r : StreamRow) (s : State) (c : Ctx) (cause : Cause) : Prop :=
  let x := c.x.rh r.shape
  let next := c.x.rh (r.shape + 1)
  let illegal := x.plain = false ∨ (r.shape ≠ 15 ∧ ((r.bounded = true ∧ next.boundsPlain = false) ∨
      (r.copied = true ∧ next.plain = false))) ∨ (r.shape = 15 ∧ (r.bounded = true ∨ r.copied = true)) ∨
    2 ^ 48 ≤ x.count ∨ (r.twelve s c ∧ 8 ≤ x.size) ∨ ¬r.limits c
  (cause = 0x01 ∧ illegal) ∨ (cause = 0x06 ∧ ¬illegal ∧ ∃ p ∈ r.ports, s.foreignPort c.tile p c.id = true)

/-- A bounded write every element of which lies outside the bounds: no index of some dimension lies within them (R179, R190). -/
def clipped (r : StreamRow) (c : Ctx) : Prop :=
  r.kind = .wr ∧ r.bounded = true ∧ ∃ d : Fin 4, ∀ j : Nat, j < (c.x.rh r.shape).extent d →
    ¬(0 ≤ (j : Int) + (c.x.rh (r.shape + 1)).origin d ∧ (j : Int) + (c.x.rh (r.shape + 1)).origin d < (c.x.rh (r.shape + 1)).limit d)

/-- The base address form, the view and the side bytes of a stream of group 0x5 or 0x6 (R37, R197). -/
def based (o : StOps) (sidew : BitVec 2) (c : Ctx) (q : Slot) : Prop :=
  q.base = c.g o.base ∧ q.view = c.x.rv o.view ∧ q.sideBytes = (if sidew = 0 then 0 else if sidew = 1 then 1 else if sidew = 2 then 2 else 4) ∧
    (sidew ≠ 0 → q.base2 = c.g (o.base + 1))

/-- Whether the beats of an in-port hold 12 bytes. -/
def short (i : BitVec 5) (s : State) (c : Ctx) : Prop := portQ s c.tile i.toNat = 12

/-- The stream words (R193, R215–R224). -/
def streamRow : Instr → Option StreamRow
  | .srd h o i eos bnd w => some
      { hdr := h, slot := o.slot, shape := o.shape, kind := .rd, bounded := bnd, twelve := short i, ports := [i.toNat],
        atIssue := fun _ => eos = false,
        fields := fun s c q => based o w c q ∧ q.inport = i.toNat ∧ q.eos = eos ∧ q.q = portQ s c.tile i.toNat }
  | .swr h o p endeos bnd w p6 => some
      { hdr := h, slot := o.slot, shape := o.shape, kind := .wr, bounded := bnd, twelve := fun _ _ => p6 = true,
        ports := [32 + p.toNat],
        fields := fun _ c q => based o w c q ∧ q.outport = p.toNat ∧ q.eos = endeos ∧ q.q = if p6 then 12 else 16 }
  | .scp h o dst => some
      { hdr := h, slot := o.slot, shape := o.shape, kind := .cp, copied := true,
        limits := fun c => (c.x.rh o.shape).count = (c.x.rh (o.shape + 1)).count ∧ (c.x.rh o.shape).esize = (c.x.rh (o.shape + 1)).esize,
        ports := [],
        fields := fun _ c q => q.base = c.g o.base ∧ q.view = c.x.rv o.view ∧ q.base2 = c.g dst ∧ q.shape2 = c.x.rh (o.shape + 1) }
  | .sfill h o fill => some
      { hdr := h, slot := o.slot, shape := o.shape, kind := .fill, ports := [],
        fields := fun _ c q => q.base = c.g o.base ∧ q.view = c.x.rv o.view ∧ q.val = c.g fill }
  | .swin h o i w => some
      { hdr := h, slot := o.slot, shape := o.shape, kind := .win, bounded := true, twelve := short i, ports := [i.toNat],
        atIssue := fun _ => False,
        fields := fun s c q => based o w c q ∧ q.inport = i.toNat ∧ q.eos = true ∧ q.q = portQ s c.tile i.toNat }
  | .smc h o i root eos bnd w => some
      { hdr := h, slot := o.slot, shape := o.shape, kind := .mc, bounded := bnd, twelve := short i,
        limits := fun c => root.toNat < c.f.stations.length, ports := [i.toNat],
        atIssue := fun c => eos = false ∧ c.st = root.toNat,
        fields := fun s c q => based o w c q ∧ q.inport = i.toNat ∧ q.eos = eos ∧ q.q = portQ s c.tile i.toNat ∧ q.root = root.toNat }
  | .sgath h o i idx eos bnd w i64 => some
      { hdr := h, slot := o.slot, shape := o.shape, kind := .gath, bounded := bnd, twelve := short i,
        ports := [i.toNat, 32 + idx.toNat], atIssue := fun _ => eos = false,
        fields := fun s c q => based o w c q ∧ q.inport = i.toNat ∧ q.idxport = idx.toNat ∧ q.eos = eos ∧ q.i64 = i64 ∧
          q.q = portQ s c.tile i.toNat }
  | .sscat h o p idx endeos bnd w p6 i64 => some
      { hdr := h, slot := o.slot, shape := o.shape, kind := .scat, bounded := bnd, twelve := fun _ _ => p6 = true,
        ports := [32 + p.toNat, 32 + idx.toNat],
        fields := fun _ c q => based o w c q ∧ q.outport = p.toNat ∧ q.idxport = idx.toNat ∧ q.eos = endeos ∧ q.i64 = i64 ∧
          q.q = if p6 then 12 else 16 }
  | .sscata h o p idx op endeos bnd i64 => some
      { hdr := h, slot := o.slot, shape := o.shape, kind := .scata, bounded := bnd,
        limits := fun c => (c.x.rh o.shape).size = 4 ∨ ((c.x.rh o.shape).size = 8 ∧ op ≠ 1),
        ports := [32 + p.toNat, 32 + idx.toNat],
        fields := fun _ c q => q.base = c.g o.base ∧ q.outport = p.toNat ∧ q.idxport = idx.toNat ∧ q.op = op.toNat ∧ q.eos = endeos ∧
          q.i64 = i64 }
  | .srec h slot shape i o eos => some
      { hdr := h, slot := slot, shape := shape, kind := .recur, twelve := short i, limits := fun c => (c.x.rh shape).esize = 4,
        ports := [i.toNat, 32 + o.toNat],
        fields := fun _ _ q => q.inport = i.toNat ∧ q.outport = o.toNat ∧ q.eos = eos }
  | _ => none

/-! ### Elements of streams -/

/-- Nothing else keeps a slot's stream: its ports are its frieze's, no other stream is inside the beat it takes, and no index beat is
first to leave its port (R188, R200, R220). -/
structure Flows (s : State) (id st k : Nat) (f : Frieze) (q : Slot) : Prop where
  ports : q.lostPort s (f.tileOf st) id = false
  beat : q.kind.takes = true ∨ q.kind = .recur → s.mayTake (f.tileOf st) q.outport (id, st, k) = true
  index : q.kind.indirect = true → s.mayTake (f.tileOf st) q.idxport (id, st, k) = true ∧ popIdx s id st k (f.tileOf st) 64 = s

/-- The beats of the index port of a slot. -/
def indices (s : State) (f : Frieze) (st : Nat) (q : Slot) : List Beat := (s.tile (f.tileOf st)).outPort q.idxport

/-- Element n of a stream: the address it is performed at, or none where it lies outside the bounds. Dimension 3 of an indirect one is
counted by index n div row of the index port (R177–R179, R220, R221). -/
def ElementIs (s : State) (f : Frieze) (st : Nat) (q : Slot) (n : Nat) (a : Option Int) : Prop :=
  if q.kind.indirect then ∃ v : Int, indexAt q.i64 (indices s f st q) q.idxBase (n / q.row) = .val v ∧
    a = if q.shape.classify q.bounds n (v + q.origin3) = .inside then
      some (formAddr q.base + q.shape.index n 0 * q.shape.stride 0 + q.shape.index n 1 * q.shape.stride 1 +
        q.shape.index n 2 * q.shape.stride 2 + v * q.shape.stride 3) else none
  else a = if q.shape.classify q.bounds n (q.shape.index n 3 + q.origin3) = .inside then
    some (elementAddr q.base q.shape q.bounds n) else none

/-- The stream ends before element n: it has no more, a window has passed its last bound, or the indices have ended (R179, R219, R220). -/
def Ends (s : State) (f : Frieze) (st : Nat) (q : Slot) (n : Nat) : Prop :=
  q.limit ≤ n ∨ (q.kind = .win ∧ q.shape.classify q.bounds n (q.shape.index n 3 + q.origin3) = .beyond) ∨
    (q.kind.indirect = true ∧ indexAt q.i64 (indices s f st q) q.idxBase (n / q.row) = .ended)

/-- Whether the stream ends before element n is known. -/
def Known (s : State) (f : Frieze) (st : Nat) (q : Slot) (n : Nat) : Prop := Ends s f st q n ∨ ∃ a, ElementIs s f st q n a

/-- The bytes of element n of a read, and their poison: the pad value outside the bounds, else those of memory, or those that were read
ahead (R178, R179, R191, R228). -/
def Part (s : State) (f : Frieze) (st : Nat) (q : Slot) (n : Nat) (bs : List Byte) (bad : Bool) : Prop :=
  ¬Ends s f st q n ∧ ∃ a, ElementIs s f st q n a ∧
    (a = none → bs = (q.bounds.map (·.padBytes q.shape.size)).getD [] ∧ bad = false) ∧
    ∀ v, a = some v → ∃ p, Lies s f st q.base v q.shape.size .read p ∧
      (q.early.find n = none → bs = s.bytesAt p q.shape.size ∧ bad = s.badAt p q.shape.size) ∧
      ∀ e, q.early.find n = some e → (bs, bad) = e

/-- The stations a read delivers to, each with an entry for the beat: its own, or for an SMC's root all that hold the slot for the same word
once every station is past it (R89, R185, R218). -/
structure Goes (s : State) (id st k : Nat) (f : Frieze) (q : Slot) (sts : List Nat) : Prop where
  kind : q.kind = .rd ∨ q.kind = .win ∨ q.kind = .gath ∨ q.kind = .mc
  port : q.inport < 32
  self : q.kind ≠ .mc → sts = [st]
  cast : q.kind = .mc → st = q.root ∧ sts = joined f k q.op ∧ st ∈ sts ∧ q.op < f.posOf q.root ∧
    ∀ u, u < f.stations.length → f.settledAt q.op u = true
  others : ∀ u ∈ sts, ∃ y, f.stations[u]? = some y ∧ (y.slot (BitVec.ofNat 4 k)).inport = q.inport ∧
    (y.slot (BitVec.ofNat 4 k)).waits = [] ∧ s.foreignPort (f.tileOf u) q.inport id = false ∧
    (((s.tile (f.tileOf u)).inPort q.inport).free ≠ 0 ∨
      (((s.tile (f.tileOf u)).inPort q.inport).sent.find (y.slot (BitVec.ofNat 4 k)).uid).isSome = true)

/-- The side bytes of a read's next beat (R198). -/
def Side (s : State) (f : Frieze) (st : Nat) (q : Slot) (sb : List Byte) : Prop :=
  (q.sideBytes = 0 → sb = []) ∧ (q.sideBytes ≠ 0 → ∃ p,
    Lies s f st q.base2 (formAddr q.base2 + q.sideBytes * q.beats) q.sideBytes .read p ∧ s.badAt p q.sideBytes = false ∧
    sb = s.bytesAt p q.sideBytes)

/-- A beat stands in an in-port after what stood there, under the port's binding, data with the next beat index (R71, R77). -/
def Entered (s t : State) (tile p : Nat) (w : RawBeat) : Prop :=
  let q := (s.tile tile).inPort p
  q.fifo ++ [⟨w.kind, enterRec q.binding p q.srCount w, w.data⟩] <+: ((t.tile tile).inPort p).fifo

/-- The slot is IDLE. -/
def SlotIdle (t : State) (id st k : Nat) : Prop := ∃ y, t.station? id st = some y ∧ y.slot (BitVec.ofNat 4 k) = Slot.idle

/-- The slot is IDLE once its stream is over, and else RUNNING at element n. -/
def Onward (t : State) (id st k : Nat) (done : Prop) (n : Nat) : Prop :=
  ∃ y, t.station? id st = some y ∧ (done → y.slot (BitVec.ofNat 4 k) = Slot.idle) ∧
    (¬done → (y.slot (BitVec.ofNat 4 k)).state = .running ∧ (y.slot (BitVec.ofNat 4 k)).next = n)

/-- The event that performs an element of a stream. -/
def elementEvent (q : Slot) (id st k : Nat) : Instr :=
  if q.kind = .scata then .atomicApply id st k else .streamElementPerformed id st k

/-- A stream that takes from an out-port of its own, and the beat at the port's head (R199). -/
structure Takes (s : State) (f : Frieze) (st : Nat) (q : Slot) (b : Beat) (rest : List Beat) : Prop where
  kind : q.kind.takes = true
  port : q.outport < 32 ∧ (q.kind.indirect = true → q.idxport ≠ q.outport)
  head : (s.tile (f.tileOf st)).outPort q.outport = b :: rest
  near : ∀ r ∈ q.touches (indices s f st q) st, direct s f.job (f.tileOf st) r.1 r.2.1 r.2.2.1 r.2.2.2 = true

/-- Where a write stores the side bytes of a beat it begins (R198). -/
def SidePut (s : State) (f : Frieze) (st : Nat) (q : Slot) (sp : Option Place) : Prop :=
  if q.taken = 0 ∧ q.sideBytes ≠ 0 then ∃ p, sp = some p ∧ q.sideBytes ≤ 4 ∧
    Lies s f st q.base2 (formAddr q.base2 + q.sideBytes * q.beats) q.sideBytes .write p
  else sp = none

/-- The state with the side bytes of the beat stored. -/
def sideDone (s : State) (q : Slot) (b : Beat) (sp : Option Place) : State :=
  match sp with
  | some p => s.putBytes p ((bytesOf b.r.side).take q.sideBytes)
  | none => s

/-- Where the next element of a write goes, once its side bytes stand: a place, or none where it is discarded (R179, R215, R222). -/
def Target (s0 s : State) (f : Frieze) (st : Nat) (q : Slot) (p : Option Place) : Prop :=
  ¬Ends s f st q q.next ∧ q.taken + q.shape.size ≤ q.q ∧ q.q ≤ 16 ∧ (q.kind = .scata → q.shape.size ≤ 8) ∧ ∃ a, ElementIs s f st q q.next a ∧ (a = none → p = none) ∧
    ∀ v, a = some v → ∃ w, p = some w ∧
      Lies s0 f st q.base v q.shape.size (if q.kind = .scata then .atomic else .write) w ∧ (s0.mem w.mem).wf ∧
      (q.kind = .scata → s0.badAt w q.shape.size = false)

/-- The elements of a write as far as known once its head beat is: an EOS there ends an .ENDEOS stream after the beat (R199). -/
def limitOf (q : Slot) (b : Beat) : Nat :=
  if q.taken = 0 ∧ b.kind = 1 ∧ q.eos = true then min q.limit (q.next + q.q / q.shape.size) else q.limit

/-- The update of an OP code of SSCATA, in the codes of R205 (R222). -/
def scataUpdate (op : Nat) : Nat := [2, 10, 6, 7, 8, 9, 4, 3][op]?.getD 2

end Sys2Proof.Slice0

/-- LDS and LDQ of bytes that carry no error, which nothing holds back, complete at issue: g[D] (to g[D + 3]) holds the doublewords at
ADDR + sx(IMM), formed from the old g[A], and no byte of any memory changes. A load of bytes that one earlier store of the station still
has to write takes them from it where the 840 so chooses (log entry 79) (R45, R201–R204, R228). -/
def Obligations.ScalarLoads : Prop := Slice0.Completes Slice0.loadRow ∧ Slice0.Completes Slice0.forwardRow

/-- STS and STQ complete at issue: the bytes at ADDR + sx(IMM) are those of g[D] (to g[D + 3]), no register changes, and every byte of
every memory outside those 8 or 32 reads as before. An access of group 0x4 that waits for another, or that the 840 performs later (log
entry 79), issues all the same and stands outstanding with its operands (R201–R204, R245). -/
def Obligations.ScalarStores : Prop := Slice0.Completes Slice0.storeRow ∧ Slice0.Completes Slice0.laterRow

/-- STREAM_ELEMENT_PERFORMED, and ATOMIC_APPLY for SSCATA, on the streams: SRD, SWIN, SGATH and an SMC's root deliver one beat of elements,
with its side bytes and its end mark, to the in-port of each station it goes to, and change no byte of memory; SWR and SSCAT write the
bytes of an element from the head of their out-port at its address, SSCATA applies them as an update, and one outside the bounds is taken
and discarded; a marker is popped, a poisoned beat ends the stream; SCP copies an element; SREC moves a beat. The slot goes on at the next
element, or is IDLE after the last (R177–R180, R188, R198, R199, R215, R216, R219–R222, R224). -/
def Obligations.StreamElements : Prop :=
  (∀ (id st k : Nat) (f : Frieze) (x : Station) (q : Slot) (sts : List Nat) (parts : List (List Byte × Bool)) (sb : List Byte) (s : State),
    Slice0.Moves s id st k f x q → Slice0.Flows s id st k f q → Slice0.Goes s id st k f q sts → Slice0.Side s f st q sb →
    parts ≠ [] → parts.length ≤ q.q / q.shape.size →
    (∀ j p, parts[j]? = some p → Slice0.Part s f st q (q.next + j) p.1 p.2) →
    (parts.length = q.q / q.shape.size ∨ Slice0.Ends s f st q (q.next + parts.length)) →
    (q.eos = true → Slice0.Known s f st q (q.next + parts.length)) →
    ∃ t kd, exec (.streamElementPerformed id st k) s = .next t ∧ SameBytes s t ∧
      (q.eos = true ∧ Slice0.Ends s f st q (q.next + parts.length) → kd = 1) ∧
      (¬(q.eos = true ∧ Slice0.Ends s f st q (q.next + parts.length)) → kd = 0) ∧ ∀ u ∈ sts,
      Slice0.Entered s t (f.tileOf u) q.inport
        { kind := kd
          data := bvOf 128 (parts.flatMap (·.1)), side := bvOf 32 sb, poison := parts.any (·.2) } ∧
      Slice0.Onward t id u k (Slice0.Ends s f st q (q.next + parts.length)) (q.next + parts.length)) ∧
  (∀ (id st k : Nat) (f : Frieze) (x : Station) (q : Slot) (sts : List Nat) (s : State),
    Slice0.Moves s id st k f x q → Slice0.Flows s id st k f q → Slice0.Goes s id st k f q sts → q.eos = true → q.next = 0 →
    Slice0.Ends s f st q 0 →
    ∃ t, exec (.streamElementPerformed id st k) s = .next t ∧ SameBytes s t ∧ ∀ u ∈ sts,
      Slice0.Entered s t (f.tileOf u) q.inport .bareEos ∧ Slice0.SlotIdle t id u k) ∧
  (∀ (id st k : Nat) (f : Frieze) (x : Station) (q : Slot) (b : Beat) (rest : List Beat) (p : Option Place) (sp : Option Place) (s : State),
    Slice0.Moves s id st k f x q → Slice0.Flows s id st k f q → Slice0.Takes s f st q b rest →
    b.r.poison = false → isData b.kind = true → q.next < q.limit → Slice0.SidePut s f st q sp →
    Slice0.Target (Slice0.sideDone s q b sp) s f st q p →
    let bs := ((bytesOf b.r.data).drop q.taken).take q.shape.size
    let last := Slice0.limitOf q b ≤ q.next + 1
    ∃ t y, exec (Slice0.elementEvent q id st k) s = .next t ∧ t.station? id st = some y ∧
      (∀ w, p = some w → t.bytesAt w q.shape.size =
        if q.kind = .scata then leBytes (Slice0.atomLeaves (Slice0.scataUpdate q.op) (8 * q.shape.size)
          (leNat ((Slice0.sideDone s q b sp).bytesAt w q.shape.size)) (leNat bs) 0) q.shape.size else bs) ∧
      (∀ m a, (∀ w, p = some w → m ≠ w.mem ∨ a < w.addr ∨ w.addr + q.shape.size ≤ a) →
        (t.mem m).read a = ((Slice0.sideDone s q b sp).mem m).read a) ∧
      (last → y.slot (BitVec.ofNat 4 k) = Slot.idle ∧ (t.tile (f.tileOf st)).outPort q.outport = rest) ∧
      (¬last → q.kind = .wr → (y.slot (BitVec.ofNat 4 k)).state = .running ∧ (y.slot (BitVec.ofNat 4 k)).next = q.next + 1 ∧
        (t.tile (f.tileOf st)).outPort q.outport = if q.q ≤ q.taken + q.shape.size then rest else b :: rest) ∧
      (¬last → y.slot (BitVec.ofNat 4 k) = Slot.idle ∨ (y.slot (BitVec.ofNat 4 k)).state = .running ∧
        (y.slot (BitVec.ofNat 4 k)).next = q.next + 1)) ∧
  (∀ (id st k : Nat) (f : Frieze) (x : Station) (q : Slot) (b : Beat) (rest : List Beat) (s : State),
    Slice0.Moves s id st k f x q → Slice0.Flows s id st k f q → Slice0.Takes s f st q b rest → q.next < q.limit → q.taken = 0 →
    ∃ t y, exec (Slice0.elementEvent q id st k) s = .next t ∧ t.station? id st = some y ∧
      (b.r.poison = true → SameBytes s t ∧ (y.slot (BitVec.ofNat 4 k)).state = .faulted 0x09 ∧ ∃ e ∈ y.faults, e.slot = some k ∧ e.cause = 0x09) ∧
      (b.r.poison = false → isData b.kind = false → SameBytes s t ∧ (t.tile (f.tileOf st)).outPort q.outport = rest ∧
        (isBareEos b.kind b.r.data = true ∧ q.eos = true → y.slot (BitVec.ofNat 4 k) = Slot.idle) ∧
        (¬(isBareEos b.kind b.r.data = true ∧ q.eos = true) → (y.slot (BitVec.ofNat 4 k)).state = .running ∧
          (y.slot (BitVec.ofNat 4 k)).next = q.next))) ∧
  (∀ (id st k : Nat) (f : Frieze) (x : Station) (q : Slot) (src dst : Place) (bs : List Byte) (s : State),
    Slice0.Moves s id st k f x q → q.kind = .cp → q.next < q.limit →
    Slice0.Lies s f st q.base (elementAddr q.base q.shape none q.next) q.shape.size .read src →
    (q.early.find q.next = none → bs = s.bytesAt src q.shape.size ∧ s.badAt src q.shape.size = false) →
    (∀ e, q.early.find q.next = some e → e = (bs, false)) → bs.length = q.shape.size →
    (∀ j, j < q.shape.size → q.snap.find (placeKey src + j) = none) →
    Slice0.Lies s f st q.base2 (elementAddr q.base2 q.shape2 none q.next) q.shape.size .write dst → (s.mem dst.mem).wf →
    ∃ t y, exec (.streamElementPerformed id st k) s = .next t ∧ t.station? id st = some y ∧ t.bytesAt dst q.shape.size = bs ∧
      SameBytesBut s t dst q.shape.size ∧ Slice0.Onward t id st k (q.limit ≤ q.next + 1) (q.next + 1)) ∧
  ∀ (id st k : Nat) (f : Frieze) (x : Station) (q : Slot) (b : Beat) (rest : List Beat) (s : State),
    Slice0.Moves s id st k f x q → Slice0.Flows s id st k f q → q.kind = .recur → q.outport < 32 → q.inport < 32 →
    (s.tile (f.tileOf st)).outPort q.outport = b :: rest → isData b.kind = true →
    ((s.tile (f.tileOf st)).inPort q.inport).free ≠ 0 →
    ∃ t, exec (.streamElementPerformed id st k) s = .next t ∧ SameBytes s t ∧ (t.tile (f.tileOf st)).outPort q.outport = rest ∧
      Slice0.Entered s t (f.tileOf st) q.inport
        { b.raw with kind := if q.eos then (if q.limit ≤ q.next + 1 then 1 else 0) else b.kind } ∧
      Slice0.Onward t id st k (q.limit ≤ q.next + 1) (q.next + 1)

/-- LDG, STG, ATOMG, RATOM and RSIG issue into the lowest-numbered IDLE slot (R195, R202, R206, R236, R248, R249). -/
def Obligations.SlotWords : Prop := Slice0.Completes Slice0.slotRow

/-- SBAR and FENCE record their holds, and SABORT ends a stream and returns the number of its first element without effect, or
waits for an access that is never cut short (R244, R245, R247). That a hold which waits for nothing is not kept is the model's reading,
log entry 80; what SABORT answers of a slot whose stream has completed in the step before is left open by the model's choice, log entry 83. -/
def Obligations.OrderWords : Prop := Slice0.Completes Slice0.orderRow

/-- PORTRD, PORTWR, PORTSPC, SPORTCFG, SPORTCFG.OFF and VIEWLD complete at issue with the effects of their entries (R210–R214, R225). -/
def Obligations.PortWords : Prop := Slice0.Completes Slice0.portRow

/-- A stream word whose checks pass runs in the slot it names, with its operands as they stood at issue; an empty stream that needs
nothing delivered completes at issue with its slot IDLE. A write whose every element is clipped signals at issue and goes on to discard
its bytes (log entry 91). A word that fails a check of R176 or R200 traps at issue with that row's cause; its slot stays IDLE and nothing
is performed. That SREC into a port of 12-byte beats traps, that SREC.EOS of an empty stream delivers nothing, that a station of an SMC
other than its root joins whatever its own shape, that an empty stream meets the later rows of R200 too and that SHAPE = 15 is refused at
issue are the model's readings, log entries 88, 90, 105, 89 and 87 (R172, R176, R190, R191, R200, R218, R224). -/
def Obligations.StreamWords : Prop :=
  (∀ (i : Instr) (r : Slice0.StreamRow) (s : State) (c : Ctx) (cause : Cause), Slice0.streamRow i = some r → Issues s i r.hdr c →
    Slice0.streamTrap r s c cause → ∃ t, exec i s = .next t ∧ Slice0.Traps s t c cause 0) ∧
  ∀ (i : Instr) (r : Slice0.StreamRow) (s : State) (c : Ctx), Slice0.streamRow i = some r → Issues s i r.hdr c →
    (∀ cause, ¬Slice0.streamTrap r s c cause) →
    let empty : Prop := r.atIssue c ∧ (c.x.rh r.shape).count = 0
    ∃ t, exec i s = .next t ∧ SameBytes s t ∧ (empty → Slice0.Stands t c c.x) ∧
      (¬empty → ¬Slice0.clipped r c → Slice0.Runs s t c r.slot id fun q =>
        q.kind = r.kind ∧ q.shape = c.x.rh r.shape ∧ (r.bounded = true → q.bounds = some (c.x.rh (r.shape + 1))) ∧
        (r.bounded = false → q.bounds = none) ∧ r.fields s c q) ∧
      (¬empty → Slice0.clipped r c → ∃ y, t.station? c.id c.st = some y ∧ y.pos = c.x.pos + 1 ∧
        (y.slot r.slot).state = .running ∧ (y.slot r.slot).kind = .wr ∧ (y.slot r.slot).sigMode = 0 ∧ r.fields s c (y.slot r.slot) ∧
        ((∀ z ∈ c.f.stations, z.holds = []) → ∀ k, t.counter c.id c.st k = Slice0.counted c i (s.counter c.id c.st k) k))

namespace Sys2Proof.Slice0

/-! ### Lane operators -/

/-- The draw of word k of a record in a lane (R76, R113). -/
def wordDraw (x : Site) (lane : Nat) (r : Rec) (k : Nat) : Word :=
  draw x.key (32 * r.idx + BitVec.ofNat 64 (r.epos + k)) (BitVec.ofNat 32 (64 * x.col + 16 * x.slot + lane))

/-- The word of ICMP's and FCMP's condition: EQ, NE, LT, LE, GT, GE (R128). -/
def conditionWord (cond : Nat) (lt gt : Bool) : Word :=
  if (cond = 0 ∧ !lt ∧ !gt) ∨ (cond = 1 ∧ (lt ∨ gt)) ∨ (cond = 2 ∧ lt) ∨ (cond = 3 ∧ !gt) ∨ (cond = 4 ∧ gt) ∨ (cond = 5 ∧ !lt)
  then 0xFFFFFFFF else 0

/-- The exact value of a word under U, and the range it saturates to (R126, R127). -/
def exactOf (o : StageOp) (w : Word) : Int := if o.p < 128 ∧ o.p % 2 = 1 then w.toNat else w.toInt
def satLow (o : StageOp) : Int := if o.p < 128 ∧ o.p % 2 = 1 then 0 else -2147483648
def satHigh (o : StageOp) : Int := if o.p < 128 ∧ o.p % 2 = 1 then 4294967295 else 2147483647

/-- The second operand of an integer operator: the immediate under IMM (R126). -/
def secondOf (o : StageOp) (b : Word) : Word := if o.op / 16 = 1 ∧ 128 ≤ o.p then (BitVec.ofNat 7 o.p).signExtend 32 else b

/-- The exact result of a saturating integer operator (R127). -/
def exactResult (o : StageOp) (a b : Word) : Option Int :=
  let x := exactOf o a
  let y := exactOf o (secondOf o b)
  match o.op with
  | 0x14 => some (x + y)
  | 0x15 => some (x - y)
  | 0x16 => some (x * y)
  | _ => none

/-- One word of an operator of groups 0x1 to 0x4 (R82–R84, R127, R128). -/
def laneWord (o : StageOp) (u a b₀ c : Word) : Word :=
  let b := secondOf o b₀
  match exactResult o a b₀ with
  | some x => BitVec.ofInt 32 (max (satLow o) (min (satHigh o) x))
  | none => match o.op with
    | 0x10 => a + b
    | 0x11 => a - b
    | 0x12 => a * b
    | 0x13 => BitVec.ofInt 32 (exactOf o a * exactOf o b / 2 ^ 32)
    | 0x17 => a &&& b
    | 0x18 => a ||| b
    | 0x19 => a ^^^ b
    | 0x1A => a <<< (b.toNat % 32)
    | 0x1B => a >>> (b.toNat % 32)
    | 0x1C => a.sshiftRight (b.toNat % 32)
    | 0x1D => if exactOf o a ≤ exactOf o b then a else b
    | 0x1E => if exactOf o a ≤ exactOf o b then b else a
    | 0x1F => BitVec.ofNat 32 a.toInt.natAbs
    | 0x20 => fadd o.rm u a b
    | 0x21 => fsub o.rm u a b
    | 0x22 => fmul o.rm u a b
    | 0x23 => ffma o.rm u a b c
    | 0x24 => fmin a b
    | 0x25 => fmax a b
    | 0x26 => fabs a
    | 0x27 => fneg a
    | 0x30 => frcp o.rm a
    | 0x31 => frsq o.rm a
    | 0x32 => fsqrt o.rm a
    | 0x33 => fexp2 o.rm a
    | 0x34 => flog2 o.rm a
    | 0x40 => if o.p / 8 % 2 = 1 then conditionWord (o.p % 8) (decide (a.toNat < b.toNat)) (decide (b.toNat < a.toNat))
      else conditionWord (o.p % 8) (decide (a.toInt < b.toInt)) (decide (b.toInt < a.toInt))
    | 0x41 => if ofF32 a = .nan ∨ ofF32 b = .nan then (if o.p = 1 ∨ o.p = 6 then 0xFFFFFFFF else 0)
      else conditionWord o.p ((ofF32 a).lt false (ofF32 b)) ((ofF32 b).lt false (ofF32 a))
    | 0x42 => if a = 0 then c else b
    | 0x43 => BitVec.ofInt 32 (min (max a.toInt b.toInt) c.toInt)
    | 0x44 => fmin (fmax a b) c
    | _ => fclass a

/-- The operators of groups 0x1 to 0x4, with a condition that MAQLD allows (R53, R128). -/
def wordwise (o : StageOp) : Prop :=
  (0x10 ≤ o.op ∧ o.op ≤ 0x27 ∨ 0x30 ≤ o.op ∧ o.op ≤ 0x34 ∨ 0x40 ≤ o.op ∧ o.op ≤ 0x45) ∧ (o.op = 0x40 → o.p % 8 ≤ 5)

/-- The form of their result (R127, R128). -/
def wordwiseForm (o : StageOp) (second : Option Rec) : Form :=
  if o.op / 16 = 2 ∨ o.op / 16 = 3 ∨ o.op = 0x44 then .w32f
  else if o.op = 0x42 ∧ second.map (·.form) = some .w32f then .w32f else .w32i

/-- What a record that an operator forms takes from its first input record: CHAN and beat index, no scale (R21, R113). -/
structure From (r x : Rec) (form : Form) (poison : Bool) (epos : Nat) : Prop where
  chan : x.chan = r.chan
  index : x.idx = r.idx
  form : x.form = form
  poison : x.poison = poison
  epos : x.epos = epos
  dense : x.sparse = false

/-- A firing that consumes the head of every input and emits one vector on output 0, each of its lanes made of the lane's first record
(R98, R115). -/
def MakesLanes (f : FireIn) (vs : List Lanes) (eos mis : Bool) (g : Fired) (lane : Nat → Rec → Rec → Prop) : Prop :=
  ∃ v, g.outs = [(0, .vec v eos)] ∧ g.pops = List.range f.ins.length ∧ g.status.getLsbD 5 = mis ∧
    ∀ l < 16, (recAt (vs[0]?.getD noLanes) l = none → recAt v l = none) ∧
      ∀ r, recAt (vs[0]?.getD noLanes) l = some r → ∃ x, recAt v l = some x ∧ lane l r x

/-- A record of a further input in a lane, its word, and its poison. -/
def other (vs : List Lanes) (i l : Nat) : Option Rec := (vs[i]?).bind fun v => recAt v l
def otherWord (vs : List Lanes) (i l k : Nat) : Word := ((other vs i l).map (·.word k)).getD 0
def otherPoison (vs : List Lanes) (i l : Nat) : Bool := ((other vs i l).map (·.poison)).getD false

/-- The reduction of a lane's group: the tree of R111 over the words of its lanes, each node rounded with the draw of R76 (R111, R129). -/
def groupTree (f : FireIn) (v : Lanes) (l : Nat) : Option Word :=
  let o := f.o
  let g := l / 2 ^ (o.p % 8) * 2 ^ (o.p % 8)
  let n : Dword := (((validOf v).find? fun j => decide (g ≤ j)).bind (recAt v)).elim 0 (·.idx)
  let draws (lo level : Nat) : Word :=
    draw f.site.key (32 * n + BitVec.ofNat 64 (((recAt v (g + lo / 4)).map (·.epos)).getD 0 + lo % 4))
      (BitVec.ofNat 32 (64 * f.site.col + 16 * f.site.slot + (g + lo / 4) + 1024 * level))
  let node (lo level : Nat) (a b : Word) : Word := match o.op with
    | 0x50 => fadd o.rm (draws lo level) a b
    | 0x51 => fmax a b
    | 0x52 => fmin a b
    | _ => if o.p / 16 % 2 = 1 then BitVec.ofInt 32 (max (-2147483648) (min 2147483647 (a.toInt + b.toInt))) else a + b
  treeOf node (fun t => (recAt v (g + t / 4)).map fun r =>
    if (o.op = 0x51 ∨ o.op = 0x52) ∧ o.p / 8 % 2 = 1 then fabs (r.word (t % 4)) else r.word (t % 4)) (2 + o.p % 8) 0

/-- A carry of a scan as the firing begins (R130). -/
def carryAt (f : FireIn) (w : Nat) : Option (Word × Bool) :=
  if f.o.p / 2 % 2 = 1 then (match f.st with
    | some (.scan cs) => (cs[w]?).join
    | _ => none) else none

/-- The words of a scan over the lanes, the carry added (R112, R130). -/
def scanned (f : FireIn) (v : Lanes) (w l : Nat) : Option Word :=
  let op (level k : Nat) (a b : Word) : Word :=
    if f.o.op = 0x55 then a + b
    else match recAt v k with
      | some r => fadd f.o.rm (f.site.draw k level r.idx (r.epos + w)) a b
      | none => fadd f.o.rm (f.site.draw k level (((validOf v).head?.bind (recAt v)).elim 0 (·.idx)) w) a b
  let y := scanStep (op 4) 8 (scanStep (op 3) 4 (scanStep (op 2) 2 (scanStep (op 1) 1
    ((List.range 16).map fun k => (recAt v k).map (·.word w)))))
  match (y[l]?).join, carryAt f w with
  | some a, some c => some (op 5 l c.1 a)
  | a, _ => a

/-- Element e of a narrow record, decoded and scaled (R72, R133). -/
def element (r : Rec) (e : Nat) : Fv :=
  ((r.form.narrow?.getD .e4m3).decode (r.code (r.form.narrow?.getD .e4m3) e)).scaled (r.scale (e / 8))

/-- The first element of part k of a record (R133). -/
def partFirst (r : Rec) (k : Nat) : Nat := match r.form with
  | .packed _ => 4 * k
  | _ => 0

/-- What a conversion or a dequantiser makes of a record of a lane (R132–R134, R136, R139). -/
def convertRow (f : FireIn) (vs : List Lanes) (l : Nat) (r x : Rec) : Prop :=
  let o := f.o
  let fmt := r.form.narrow?.getD .e4m3
  let st := partFirst r (if o.op = 0x71 then o.p % 8 else o.p)
  match o.op with
  | 0x61 => if fmt.isInt = true ∧ r.scaled = none then
      From r x .w32i r.poison (r.epos + st) ∧ ∀ k < 4, x.word k = BitVec.ofInt 32 (fmt.decode (r.code fmt (st + k))).rat.num
    else From r x .w32f r.poison (r.epos + st) ∧ ∀ k < 4, x.word k = toF32 o.rm (element r (st + k)) (wordDraw f.site l r (st + k))
  | 0x62 => From r x .w32f r.poison 0 ∧ ∀ k < 4, x.word k =
      toF32 o.rm (Fv.ofRat (if o.p % 2 = 1 then ((r.word k).toNat : Rat) else ((r.word k).toInt : Rat)) false) (wordDraw f.site l r k)
  | 0x63 =>
      let t := [Fmt.int32, Fmt.int16, Fmt.int8, Fmt.uint8, Fmt.int4][o.p]?.getD .int32
      From r x (if t = .int32 then .w32i else .loose t) r.poison 0 ∧ ∀ k < 4, (x.word k).toNat =
        (BitVec.ofInt 32 (toIntType t o.rm (ofF32 (r.word k)) (wordDraw f.site l r k)).1).toNat % 2 ^ t.width
  | 0x65 => From r x (.loose fmt) r.poison (r.epos + st) ∧ (∀ k < 4, x.word k = BitVec.ofNat 32 (r.code fmt (st + k))) ∧
      x.side = (if r.scaled = none then 0 else (r.scaleByte (st / 8)).setWidth 32) ∧ x.scaled = r.scaled.map fun k => ⟨k.sq8, none⟩
  | _ => ∀ sc, other vs 1 l = some sc → From r x .w32f (r.poison || sc.poison) 0 ∧ ∀ k < 4, x.word k =
      toF32 o.rm ((fmt.decode (r.code fmt (st + k))).scaled
        (scaleVal (o.p / 8 % 2 == 1) ((sc.word 0).extractLsb' (8 * ((st + k) / 8)) 8))) (wordDraw f.site l r (st + k))

/-- The target of CVT and QBLK, and a word's code in it, FP6 in its container (R67, R74, R131, R137). -/
def targetOf (o : StageOp) : Fmt := (Fmt.ofCode (if o.op = 0x60 then o.p else o.p % 16)).getD (if o.op = 0x60 then .bf16 else .e4m3)
def codeIn (t : Fmt) (n : Nat) : Nat := if t = .e3m2 ∨ t = .e2m3 then widenFp6 t n else n

/-- What QBLK makes of a record whose block has a finite maximum that is not 0, without BEST3: the scale, then every word divided by it
and rounded (R138). -/
def quantRow (f : FireIn) (l : Nat) (r mx x : Rec) (m : Rat) : Prop :=
  let o := f.o
  let t := targetOf o
  let sigma : Rat := if o.p / 32 % 2 = 1 then
      (Fmt.e4m3.flt.decode (max 1 (min 0x7E (Fmt.e4m3.flt.encode .rup (.fin false (m / (t.flt.decode t.flt.maxCode).rat)) 0).1))).rat
    else pow2 (max (-127) (min 127 (floorLog2 m - emaxOf t)))
  From r x (.loose t) (r.poison || mx.poison) 0 ∧ x.scaled = some ⟨o.p / 32 % 2 == 1, none⟩ ∧
    x.side = (if o.p / 32 % 2 = 1 then
        BitVec.ofNat 8 (max 1 (min 0x7E (Fmt.e4m3.flt.encode .rup (.fin false (m / (t.flt.decode t.flt.maxCode).rat)) 0).1))
      else BitVec.ofInt 8 (max (-127) (min 127 (floorLog2 m - emaxOf t)) + 127)).setWidth 32 ∧
    ∀ k < 4, x.word k = BitVec.ofNat 32 (codeIn t
      (t.flt.encode o.rm ((ofF32 (r.word k)).mul (.fin false (1 / sigma))) (wordDraw f.site l r k)).1)

/-- The valid records of a vector in lane order. -/
def recordsOf (v : Lanes) : List Rec := (List.range 16).filterMap fun l => recAt v l

/-- The terms of a CNTACC firing that name bin k. -/
def keyCount (v : Lanes) (k : Nat) : Nat := ((recordsOf v).flatMap fun r => (List.range 4).filter fun w => (r.word w).toNat = k).length

/-- The vector at the first input of a firing. -/
def first (vs : List Lanes) : Lanes := vs[0]?.getD noLanes

/-- Groups 0x1 to 0x4 (R127, R128). -/
def WordResults (f : FireIn) (vs : List Lanes) (eos mis : Bool) : Prop :=
  wordwise f.o → ∃ g, fireOp f = .go g ∧
    MakesLanes f vs eos mis g (fun l r x =>
      From r x (wordwiseForm f.o (other vs 1 l)) (r.poison || otherPoison vs 1 l || otherPoison vs 2 l) 0 ∧
      ∀ k < 4, x.word k = laneWord f.o (wordDraw f.site l r k) (r.word k) (otherWord vs 1 l k) (otherWord vs 2 l k)) ∧
    (g.status.getLsbD 0 = true ↔ ∃ l r k x, recAt (first vs) l = some r ∧ k < 4 ∧
      exactResult f.o (r.word k) (otherWord vs 1 l k) = some x ∧ (x < satLow f.o ∨ satHigh f.o < x))

/-- Reductions (R129). -/
def TreeResults (f : FireIn) (vs : List Lanes) (eos mis : Bool) : Prop :=
  0x50 ≤ f.o.op → f.o.op ≤ 0x53 → ∃ g, fireOp f = .go g ∧ MakesLanes f vs eos mis g fun l r x =>
    From r x (if f.o.op = 0x53 then .w32i else .w32f) x.poison 0 ∧
    (x.poison = true ↔ ∃ j < 2 ^ (f.o.p % 8), ∃ q,
      recAt (first vs) (l / 2 ^ (f.o.p % 8) * 2 ^ (f.o.p % 8) + j) = some q ∧ q.poison = true) ∧
    ∀ k < 4, groupTree f (first vs) l = some (x.word k)

/-- Scans (R130). -/
def ScanResults (f : FireIn) (vs : List Lanes) (eos : Bool) : Prop :=
  (f.o.op = 0x54 ∨ f.o.op = 0x55) → ∃ g v cs, fireOp f = .go g ∧ g.outs = [(0, .vec v eos)] ∧ g.pops = [0] ∧ g.st = some (.scan cs) ∧
    (∀ l < 16, ∀ r, recAt (first vs) l = some r → ∃ x, recAt v l = some x ∧ ∀ w < 4, x.word w =
      if f.o.p % 2 = 1 then (match ((validOf (first vs)).filter fun j => decide (j < l)).getLast? with
        | some j => (scanned f (first vs) w j).getD 0
        | none => ((carryAt f w).map (·.1)).getD 0)
      else (scanned f (first vs) w l).getD 0) ∧
    ∀ w < 4, ((cs[w]?).join).map (·.1) = if f.o.p / 2 % 2 = 0 ∨ eos = true then none
      else match (validOf (first vs)).getLast? with
        | some l => scanned f (first vs) w l
        | none => (carryAt f w).map (·.1)

/-- Conversions and quantisers (R132–R136, R138, R139). -/
def ConvertResults (f : FireIn) (vs : List Lanes) (eos mis : Bool) : Prop :=
  ((f.o.op = 0x61 ∨ f.o.op = 0x62 ∨ f.o.op = 0x63 ∨ f.o.op = 0x65 ∨ f.o.op = 0x71) →
    ∃ g, fireOp f = .go g ∧ MakesLanes f vs eos mis g (convertRow f vs)) ∧
  (f.o.op = 0x60 → ∃ g v, fireOp f = .go g ∧ g.pops = [0] ∧ g.outs.head? = some (0, .vec v eos) ∧
    ∀ l < 16, ∀ r, recAt (first vs) l = some r → ∃ x, recAt v l = some x ∧
      From r x (.loose (targetOf f.o)) r.poison 0 ∧ ∀ k < 4, x.word k = BitVec.ofNat 32 (codeIn (targetOf f.o)
        ((targetOf f.o).flt.encode f.o.rm (ofF32 (r.word k)) (wordDraw f.site l r k)).1)) ∧
  (f.o.op = 0x70 → f.o.p / 16 % 2 = 0 → ∃ g, fireOp f = .go g ∧ MakesLanes f vs eos mis g fun l r x =>
    ∀ mx n m, other vs 1 l = some mx → ofF32 (mx.word 0) = .fin n m → m ≠ 0 → quantRow f l r mx x m) ∧
  (f.o.op = 0x64 → f.o.p % 2 = 0 → packAlike (first vs) = true → ∀ r0 t, (recordsOf (first vs)).head? = some r0 → r0.form = .loose t →
    let n := if t.width = 16 then 2 else if t.width = 4 then 8 else 4
    ∃ g v, fireOp f = .go g ∧ g.outs = [(0, .vec v eos)] ∧
      ∀ m < 16, (n * m ≥ (recordsOf (first vs)).length → recAt v m = none) ∧
        (n * m < (recordsOf (first vs)).length → ∃ x, recAt v m = some x ∧ x.form = .packed t ∧ x.data = BitVec.ofNat 128
          (((((recordsOf (first vs)).drop (n * m)).take n).mapIdx fun i r =>
            ((List.range 4).map fun j => r.code t j * 2 ^ (t.width * (4 * i + j))).sum).sum)))

/-- Routing operators that take a vector of every input (R119, R120). -/
def RouteResults (f : FireIn) (vs : List Lanes) (eos : Bool) : Prop :=
  (f.o.op = 0x00 → f.ins.length = 1 → ∃ g, fireOp f = .go g ∧ g.outs = [(0, .vec (first vs) eos)] ∧ g.pops = [0]) ∧
  (f.o.op = 0x01 → ∃ g, fireOp f = .go g ∧ g.pops = [0] ∧
    g.outs = (0, .vec (first vs) eos) :: if f.named1 then [(1, .vec (first vs) eos)] else []) ∧
  (f.o.op = 0x02 → f.o.p / 4 % 2 = 0 → f.named1 = true → ∀ v e p0 p1, f.head 0 = some (.vec v e) → f.st = some (.steer p0 p1) →
    let side (d : Bool) : List Rec := (List.range 16).filterMap fun l => match recAt (first vs) l, other vs 1 l with
      | some r, some c => if (c.word (f.o.p % 4) != 0) == d then some { r with poison := r.poison || c.poison } else none
      | _, _ => none
    let q0 := p0 ++ side false
    let q1 := p1 ++ side true
    ∃ g, fireOp f = .go g ∧ g.pops = [0, 1] ∧
      (e = false → q0.length < 16 → q1.length < 16 → g.outs = [] ∧ g.st = some (.steer q0 q1)) ∧
      (e = false → 16 ≤ q0.length → q1.length < 16 → g.st = some (.steer (q0.drop 16) []) ∧
        g.outs = (0, .vec (compacted (q0.take 16)) false) :: if q1 = [] then [] else [(1, .vec (compacted q1) false)]) ∧
      (e = true → q0.length ≤ 16 → q1.length ≤ 16 → g.st = some (.steer [] []) ∧
        g.outs = [(0, .vec (compacted q0) true), (1, .vec (compacted q1) true)]))

/-- Binning and stream control (R141–R144). -/
def CountResults (f : FireIn) (vs : List Lanes) (eos : Bool) : Prop :=
  let n := (validOf (first vs)).length
  ((f.o.op = 0x81 ∨ f.o.op = 0x80 ∧ f.o.p % 4 = 0) → ∀ bins touched, f.st = some (.bins bins touched) → bins.length = 2 ^ (f.o.p / 16) →
    ∃ g, fireOp f = .go g ∧ g.outs = [] ∧
      (eos = false → g.table = [] ∧ ∃ bs u, g.st = some (.bins bs u) ∧ bs.length = bins.length ∧
        ∀ k b, bins[k]? = some b → ∃ b', bs[k]? = some b' ∧
          (f.o.op = 0x81 → b'.1.toNat = min (2 ^ 32 - 1) (b.1.toNat + keyCount (first vs) k)) ∧
          (f.o.op = 0x80 → b'.1 = b.1 + ((List.range 16).flatMap fun l => match recAt (first vs) l with
            | some r => (List.range 4).map fun w => if (r.word w).toNat = k then otherWord vs 1 l w else 0
            | none => []).sum)) ∧
      (eos = true → g.table ≠ [] ∧ ∃ bs, g.st = some (.bins bs false) ∧ ∀ b ∈ bs, b = (0, false, false))) ∧
  (f.o.op = 0xB0 → ∀ c d, f.st = some (.count c d) → c + n < f.o.value →
    ∃ g, fireOp f = .go g ∧ g.pops = [0] ∧ g.outs = [(0, .vec (first vs) (eos && decide (f.o.mode = 0)))] ∧
      ∃ d', g.st = some (.count (if eos = true ∧ f.o.mode = 0 then 0 else c + n) d')) ∧
  (f.o.op = 0xB1 → f.o.mode = 0 → f.named1 = true → ∀ c d, f.st = some (.count c d) → 0 < f.o.value →
    ∃ g tv, fireOp f = .go g ∧ g.pops = [0] ∧
      g.outs = (0, .vec (first vs) eos) :: (if c / f.o.value < (c + n) / f.o.value then [(1, .vec tv false)] else []) ∧
      ∀ l x, recAt tv l = some x → ∃ m, x.word 0 = BitVec.ofNat 32 (m * f.o.value) ∧ c < m * f.o.value ∧ m * f.o.value ≤ c + n)

/-- NMSEL of a format with 32 elements in a beat: the largest of every 8 are kept, and SIDE says which (R161). -/
def SelectResults (f : FireIn) (vs : List Lanes) (eos mis : Bool) : Prop :=
  f.o.op = 0xA0 → ∃ g v, fireOp f = .go g ∧ g.outs = [(0, .vec v eos)] ∧ g.status.getLsbD 5 = mis ∧
      ∀ l < 16, ∀ r t, recAt (first vs) l = some r → r.form = .packed t → t.width = 4 → ∃ x, recAt v l = some x ∧ x.sparse = true ∧ x.chan = r.chan ∧
        x.idx = r.idx ∧ x.form = .packed t ∧ ∀ b < 4, ∀ i < 8, x.side.getLsbD (8 * b + i) = decide
          (((List.range 8).filter fun j => nmBefore t (fun e => r.code t (8 * b + e)) j i).length < if f.o.p % 2 = 1 then 2 else 4)

/-- The operators that take their inputs independently or have none: CONST, DELAY, RECIRC, MERGE and MERGEORD (R121–R125). -/
def OwnResults (f : FireIn) : Prop :=
  (f.o.op = 0x06 → ∃ g v, fireOp f = .go g ∧ g.pops = [] ∧ g.outs = [(0, .vec v false)] ∧
    ∀ l < 16, ∃ x, recAt v l = some x ∧ ∀ k < 4, x.word k = BitVec.ofNat 32 f.o.value) ∧
  (f.o.op = 0x05 → ∀ tok rest, f.st = some (.delay (tok :: rest)) → ∃ g, fireOp f = .go g ∧ g.pops = [] ∧ g.outs = [(0, tok)] ∧
    g.st = some (.delay rest)) ∧
  (f.o.op = 0x07 → ∀ (loop : Bool) v e, f.st = some (.recirc loop) → f.head (if loop then 1 else 0) = some (.vec v e) →
    ∃ g, fireOp f = .go g ∧ g.pops = [if loop then 1 else 0] ∧ g.outs = [(0, .vec v e)] ∧ g.st = some (.recirc (!(loop && e)))) ∧
  (f.o.op = 0x03 → ∀ (turn a b : Bool) v e, f.st = some (.merge turn a b) → (if turn then b else a) = false →
    f.head (if turn then 1 else 0) = some (.vec v e) → ∃ g, fireOp f = .go g ∧ g.pops = [if turn then 1 else 0] ∧
      g.outs = [(0, .vec v (e && (if turn then a else b)))]) ∧
  (f.o.op = 0x04 → ∀ e q v0 v1 e0 e1 r0 r1, f.dq = e :: q → f.st = none → f.ins = [.vec v0 e0 :: r0, .vec v1 e1 :: r1] →
    let needs (d : Bool) (n : Nat) : Nat :=
      ((List.range n).filter fun l => e.valid[l]?.getD false && ((e.decision[l]?.getD false) == d)).length
    needs false 16 ≤ (validOf v0).length → needs true 16 ≤ (validOf v1).length →
    ∃ g v, fireOp f = .go g ∧ g.popDq = true ∧ g.outs = [(0, .vec v e.eos)] ∧ ∀ l < 16, recAt v l =
      if e.valid[l]?.getD false then
        (if e.decision[l]?.getD false then ((validOf v1)[needs true l]?).bind (recAt v1) else ((validOf v0)[needs false l]?).bind (recAt v0))
      else none)

end Sys2Proof.Slice0

/-- What an operator's firing makes of what stands at its inputs. Groups 0x1 to 0x4 compute word by word, the reductions by the tree of
R111, the scans by the steps of R112 with their carry, the conversions, quantisers and NMSEL lane by lane; the routing operators move
vectors and records; BINACC and CNTACC fill their bins and emit the table under EOS; EOSGEN and COUNTFIRE count records. OPERATOR_FIRE
puts out what a firing makes once its outputs have room. How a draw is formed at a node without a record of its first term is the model's
choice, log entry 99, as is the modulus of a trigger, log entry 102 (R111, R112, R119–R125, R127–R130, R132–R136, R138, R139, R141–R144,
R161). -/
def Obligations.LaneResults : Prop :=
  (∀ (s : State) (t k col slot : Nat) (o : StageOp) (g : Fired), fireOp ((s.tile t).fireIn k col slot o) = .go g →
    (s.tile t).roomFor k col slot ((s.tile t).ctx k).maq g.outs = true → tryFire s t k col slot o = .go g) ∧
  (∀ (f : FireIn) (vs : List Lanes) (eos mis : Bool), f.fault? = none → f.vectors = some (vs, eos, mis) →
    Slice0.WordResults f vs eos mis ∧ Slice0.TreeResults f vs eos mis ∧ Slice0.ScanResults f vs eos ∧
    Slice0.ConvertResults f vs eos mis ∧ Slice0.RouteResults f vs eos ∧ Slice0.CountResults f vs eos ∧
    Slice0.SelectResults f vs eos mis) ∧
  ∀ (f : FireIn), f.fault? = none → Slice0.OwnResults f

namespace Sys2Proof.Slice0

/-! ### Requests: groups 0x9 to 0xE, LAUNCH, FREEZE and THAW -/

/-- The word's request of class EN, as its unit has it from the issue on, under the next serial number (R237). -/
def Asked (s t : State) (c : Ctx) (kind : ReqKind) (dst : Option Reg) (lane : Option Nat) (waits : List Nat) : Prop :=
  t.reqs.find s.serial = some
    { fz := c.id, st := c.st, tile := c.tile, job := c.f.job, uid := s.serial, kind := kind, dst := dst, lane := lane,
      sigMode := c.h.sigMode, sigK := c.h.sigK, waits := waits, hold := 0, res := none }

/-- The row of a word that is a request of its own station: the station goes on with no register changed. -/
def askRow (h : Hdr) (kind : Ctx → ReqKind) (dst : Option Reg) (pre : State → Ctx → Prop := fun _ _ => True) : Row :=
  ⟨h, pre, fun s c t => Asked s t c (kind c) dst none (c.x.waitsFor clEN false) ∧ Stands t c c.x⟩

/-- No column of a range is active under or named by a context of another frieze (R167, R171). -/
def ownCols (s : State) (c : Ctx) (first last : BitVec 4) : Prop :=
  ∀ j, first.toNat ≤ j → j ≤ last.toNat → s.foreignCol c.tile j c.id = false

/-- An address form that R17 accepts is aligned to n bytes. -/
def alignedIfPlain (f : Dword) (n : Nat) : Prop := formSpace f ≠ 3 → formRsvd f = 0 → formAddr f % n = 0

/-- The owner range OWNCFG names: KIND in [11:10], NODE in [8:0]; a SHARED one lies in the banks the job has now (R184, R363). -/
def rangeOfWord (s : State) (job : Nat) (sh : Bool) (start : Nat) (base len o : Dword) : OwnerRange :=
  ⟨sh, start, len.toNat, (o.extractLsb' 10 2).toNat, (o.extractLsb' 0 9).toNat, formAddr base,
    if sh then ((s.jobs.find job).map (·.banks)).getD [] else []⟩

/-- The ranges a job holds admit one more: it holds the bytes of one of them, or overlaps none and its module's table holds fewer than 64
of the job (R363, R364). -/
def rangeFits (s : State) (held : List OwnerRange) (r : OwnerRange) : Prop :=
  (∃ q ∈ held, q.same r = true) ∨
    ((∀ q ∈ held, q.meets r = false) ∧ (held.filter fun q => q.module s = r.module s).length < 64)

/-- TXCLAIM, the words of groups 0xC and 0xD that ask a home or the fabric, ACCSAVE and ACCLOAD (R167, R270, R273, R346, R359, R360,
R363). -/
def requestRow : Instr → Option Row
  | .txclaim h v a k => some (askRow h (fun c => .claim (c.x.rv v) (c.g a) (c.x.rh k) 0 false) none fun s c =>
      (c.x.rv v).txid ≠ 0 ∧ (c.x.rv v).txn = true ∧ (∃ r, viewRec s c.f.job (c.x.rv v) = some r ∧ r.state = .active) ∧
        (c.x.rh k).plain = true ∧ (c.x.rh k).count < 2 ^ 48)
  | .wlnew h a b => some (askRow h (fun c => .wlnew ((c.g a).toNat % 4096) (c.g b)) none fun _ c => formAddr (c.g b) % 8 = 0)
  | .wlpush h a b => some (askRow h (fun c => .wlpush ((c.g a).toNat % 4096) (c.g b)) none)
  | .wlpop h i a n => some (askRow h (fun c => .wlpop ((c.g a).toNat % 4096) i.toNat (n.toNat + 1)) none fun s c =>
      s.foreignPort c.tile i.toNat c.id = false)
  | .wlins h a b => some (askRow h (fun c => .wlins ((c.g a).toNat % 4096) ((c.g b).extractLsb' 0 32)) none)
  | .wlcnt h a b => some (askRow h (fun c => .wlcnt ((c.g a).toNat % 4096) (c.g b)) none fun _ c => formAddr (c.g b) % 8 = 0)
  | .wlfree h a => some (askRow h (fun c => .wlfree ((c.g a).toNat % 4096)) none)
  | .route h a o b mc => some (askRow h (fun c => .route o.toNat (c.g b) mc) (some a) fun s c =>
      targetPlain (c.g b) mc = true ∧
      (mc = false → nameable s c.f.job ((c.g b).extractLsb' 22 10).toNat ((c.g b).extractLsb' 12 10).toNat = true) ∧
      s.foreignPort c.tile (32 + o.toNat) c.id = false ∧ foreignRoute s (32 * c.tile + o.toNat) c.id = false)
  | .mcjoin h a i b => some (askRow h (fun c => .mcjoin i.toNat ((c.g b).toNat % 256) false) (some a) fun s c =>
      (c.g b).toNat < 256 ∧ s.foreignPort c.tile i.toNat c.id = false)
  | .mcjoinLeave h a i b => some (askRow h (fun c => .mcjoin i.toNat ((c.g b).toNat % 256) true) (some a) fun s c =>
      (c.g b).toNat < 256 ∧ s.foreignPort c.tile i.toNat c.id = false)
  | .accsave h k a first last => some (askRow h (fun c => .accsave k.toNat first.toNat last.toNat (c.g a)) none fun s c =>
      ownCols s c first last ∧ alignedIfPlain (c.g a) 128)
  | .accload h k a first last => some (askRow h (fun c => .accload k.toNat first.toNat last.toNat (c.g a)) none fun s c =>
      ownCols s c first last ∧ alignedIfPlain (c.g a) 128)
  | .owncfg h a b e => some ⟨h,
      fun s c => (c.g e).toNat < 2 ^ 12 ∧ (c.g e).getLsbD 9 = false ∧ (c.g e).extractLsb' 10 2 ≠ 3 ∧
        ((c.g e).extractLsb' 10 2 = 2 → ((c.g e).extractLsb' 0 9).toNat < 16) ∧ formSpace (c.g a) ≠ spLocal ∧
        formAddr (c.g a) % 128 = 0 ∧ (c.g b).toNat % 128 = 0 ∧ 128 ≤ (c.g b).toNat ∧ (c.g b).toNat ≤ 2 ^ 29 ∧
        ∃ sh start, ownerPlace s c.f.job (c.g a) (c.g b) = .ok (sh, start) ∧
          rangeFits s (((s.jobs.find c.f.job).map (·.owners)).getD []) (rangeOfWord s c.f.job sh start (c.g a) (c.g b) (c.g e)),
      fun s c t => Stands t c c.x ∧ ∀ sh start, ownerPlace s c.f.job (c.g a) (c.g b) = .ok (sh, start) →
        Asked s t c (.owncfg (rangeOfWord s c.f.job sh start (c.g a) (c.g b) (c.g e))) none none (c.x.waitsFor clEN false)⟩
  | .unroute h o => some ⟨h,
      fun s c => s.foreignPort c.tile (32 + o.toNat) c.id = false ∧ foreignRoute s (32 * c.tile + o.toNat) c.id = false,
      fun s c t => Stands t c c.x ∧ t.routes = s.routes ∧
        (s.routes.find (32 * c.tile + o.toNat) = none ∧ c.routing s o.toNat = false → t.reqs = s.reqs) ∧
        (¬(s.routes.find (32 * c.tile + o.toNat) = none ∧ c.routing s o.toNat = false) →
          Asked s t c (.unroute o.toNat none) none none (c.x.waitsFor clEN false))⟩
  | .launch h a b => some ⟨h, fun _ c => formAddr (c.g a) % 64 = 0,
      fun s c t => Stands t c c.x ∧ Asked s t c (.launch ((c.g b).toNat % 65536) (c.g a) (c.x.rv 0) none) none none
        (c.x.waitsFor clEN false ++ s.outstanding c.id c.st (clSW ||| clLW ||| clAT ||| clEN))⟩
  | _ => none

/-- A word decided at the head: there it has become one request for the whole span; another station only issues it (R270, R277,
R298). -/
def headRow (h : Hdr) (kind : Ctx → ReqKind) (pre : State → Ctx → Prop := fun _ _ => True) : Row :=
  ⟨h, fun s c => c.st = 0 → pre s c,
   fun s c t => (c.st = 0 → Asked s t c (kind c) none (some c.x.pos) (c.x.waitsFor clEN false)) ∧ (c.st ≠ 0 → t.reqs = s.reqs) ∧
     ∃ x, t.station? c.id c.st = some x ∧ x.pos = c.x.pos + 1⟩

/-- An address form an engine may be given: not LOCAL, aligned to n bytes (R294). -/
def engineForm (f : Dword) (n : Nat) : Prop := formSpace f ≠ spLocal ∧ formAddr f % n = 0

/-- The view names a record of the job (R275). -/
def named (s : State) (c : Ctx) (v : BitVec 3) : Prop := (c.x.rv v).txid ≠ 0 ∧ (viewRec s c.f.job (c.x.rv v)).isSome = true

/-- A descriptor FREEZE or THAW accepts (R377, R385). -/
def descGood (s : State) (d : Dword) : Prop :=
  descBad s d = false ∧ descJob d ≠ 0 ∧ (s.jobs.find (descJob d)).isSome = true

/-- The words the head sends for the whole span (R269–R275, R277, R291, R324, R385). -/
def headWordRow : Instr → Option Row
  | .freeze h a => some (headRow h (fun c => .master (c.g a) false none) fun s c => descGood s (c.g a))
  | .thaw h a => some (headRow h (fun c => .master (c.g a) true none) fun s c => descGood s (c.g a))
  | .smpcfg h a _ => some (headRow h (fun _ => .smpcfg) fun _ c =>
      formSpace (c.g a) ≠ spLocal ∧ formSpace (c.g a) ≠ 3 ∧ formAddr (c.g a) % 32 = 0)
  | .smpoff h => some (headRow h fun _ => .smpoff)
  | .snap h v a => some (headRow h (fun c => .snap ((c.g a).toNat % 64) v) fun s c =>
      (s.dom? c.f.job ((c.g a).toNat % 64)).isSome = true ∧ namesKernelTxn s c.f.job (c.x.rv v) = false)
  | .unsnap h v => some (headRow h (fun _ => .unsnap v) fun s c =>
      (∀ r, viewRec s c.f.job (c.x.rv v) = some r → r.ownerFz = some c.id → r.state = .finished) ∧
      namesKernelTxn s c.f.job (c.x.rv v) = false)
  | .txbegin h v a => some (headRow h (fun c => .txbegin ((c.g a).toNat % 64) v false) fun s c =>
      (s.dom? c.f.job ((c.g a).toNat % 64)).isSome = true ∧ namesKernelTxn s c.f.job (c.x.rv v) = false ∧
      (∀ r, viewRec s c.f.job (c.x.rv v) = some r → r.ownerFz = some c.id → r.state = .finished))
  | .txbeginAge h v a => some (headRow h (fun c => .txbegin ((c.g a).toNat % 64) v true) fun s c =>
      (s.dom? c.f.job ((c.g a).toNat % 64)).isSome = true ∧ namesKernelTxn s c.f.job (c.x.rv v) = false ∧
      ∃ r, viewRec s c.f.job (c.x.rv v) = some r ∧ r.ownerFz = some c.id ∧ r.state = .finished ∧ 2 ≤ r.code ∧ r.code ≤ 6 ∧
        datumDom (c.x.rv v).datum = (c.g a).toNat % 64)
  | .txabort h v => some (headRow h (fun c => .txabort (datumDom (c.x.rv v).datum) (c.x.rv v).txid.toNat v) fun s c => named s c v)
  | .txstat h v _ => some (headRow h (fun c => .txstat (datumDom (c.x.rv v).datum) (c.x.rv v).txid.toNat) fun s c => named s c v)
  | .txcommit h v _ => some ⟨h, fun s c => c.st = 0 → named s c v ∧ namesKernelTxn s c.f.job (c.x.rv v) = false,
      fun s c t => (c.st = 0 → Asked s t c (.txcommit (datumDom (c.x.rv v).datum) (c.x.rv v).txid.toNat v) none (some c.x.pos)
          (c.x.waitsFor clEN false ++ writesOf c.x (c.x.rv v).txid)) ∧
        (c.st ≠ 0 → ∀ k r, s.reqs.find k = some r → r.fz = c.id → r.lane = some c.x.pos →
          t.reqs.find k = some { r with waits := r.waits ++ writesOf c.x (c.x.rv v).txid }) ∧
        ∃ x, t.station? c.id c.st = some x ∧ x.pos = c.x.pos + 1⟩
  | .ercfg h a => some (headRow h (fun c => .ercfg (c.g a)) fun _ c => engineForm (c.g a) 8)
  | .ercfgOff h => some (headRow h fun _ => .ercfgOff)
  | .erdisp h a b e => some (headRow h (fun c => .erdisp (c.g a) (c.g b) ((c.g e).extractLsb' 0 32).toNat 0) fun _ c =>
      engineForm (c.g a) 8 ∧ engineForm (c.g b) 32)
  | .erdispReuse h a b e gate => some (headRow h
      (fun c => .erdisp (c.g a) (c.g b) ((c.g e).extractLsb' 0 32).toNat (if gate then 2 else 1)) fun _ c =>
      engineForm (c.g a) 8 ∧ engineForm (c.g b) 32)
  | .ercomb h a b e _ renorm nogate => some (headRow h
      (fun c => .ercomb (c.g a) (c.g b) ((c.g e).extractLsb' 0 32).toNat renorm nogate) fun _ c =>
      engineForm (c.g a) 1 ∧ engineForm (c.g b) 8)
  | .erstat h a => some (headRow h (fun c => .erstat (c.g a)) fun _ c => engineForm (c.g a) 8)
  | .erdrops h _ => some (headRow h fun _ => .erdrops)
  | _ => none

/-- The g register and the view a result writes on a station (R270, R290). -/
def withResult (v : Result) (x : Station) : Station :=
  let y := match v.g with
    | some (d, w) => x.setG d w
    | none => x
  match v.v with
  | some (k, w) => y.setV k w
  | none => y

/-! ### Group 0x9 at issue, monitoring, code -/

/-- Column j of a maquette reads in-port p: an operator of it, or the systolic region that holds it (R102, R159). -/
def colReads (q : Maq) (j p : Nat) : Prop :=
  (∃ key o, (key, o) ∈ q.stages ∧ key / 4 = j ∧ ∃ e ∈ o.sel, p ∈ e.inPorts) ∨
    ∃ r w g, (r, w) ∈ q.sys ∧ q.regions[r]? = some g ∧ g.first ≤ j ∧ j ≤ g.last ∧ p ∈ w.inPorts (some g)

/-- What is active under a context reads in-port p: a column, or an out-port word of those that count (R102, R166). -/
def activeReads (x : Tile) (k p : Nat) (cols outs : Nat → Prop) : Prop :=
  (∃ j, j < 16 ∧ x.activeOf j = some k ∧ cols j ∧ colReads (x.ctx k).maq j p) ∨
    ∃ o w, (o, k) ∈ x.outAct ∧ outs o ∧ (x.ctx k).maq.outs.find o = some w ∧ ∃ e ∈ w.sel, p ∈ e.inPorts

/-- A marker is appended to what waits at a port, and as much of that as the port has entries for stands in it (R89, R165). -/
def Injects (q r : InPort) (w : RawBeat) : Prop :=
  r.waiting = (q.waiting ++ [w]).drop q.free ∧ q.fifo <+: r.fifo ∧
    (r.fifo.drop q.fifo.length).map (fun b => (b.kind, b.bits)) = ((q.waiting ++ [w]).take q.free).map fun v => (v.kind, v.data)

/-- A marker is appended at the in-ports of a tile that something reads, and no other changes. -/
def Marks (s t : State) (tile : Nat) (reads : Nat → Prop) (w : RawBeat) : Prop :=
  ∀ p, p < 32 → (reads p → Injects ((s.tile tile).inPort p) ((t.tile tile).inPort p) w) ∧
    (¬reads p → (t.tile tile).inPort p = (s.tile tile).inPort p)

/-- The columns of a maquette that are active under another context of the frieze: the old configuration of a MAQGO (R102). -/
def oldReads (s : State) (c : Ctx) (m : Nat) (p : Nat) : Prop :=
  ∃ k, k < 4 ∧ k ≠ m ∧ ((s.tile c.tile).ctx k).owner = some c.id ∧ activeReads (s.tile c.tile) k p
    (fun j => ((s.tile c.tile).ctx m).maq.hasCol j = true) fun o => ((((s.tile c.tile).ctx m).maq.outs.find o).isSome = true)

/-- MAQLD, MAQGO, MAQDRN, CHBIND and SRSEED at issue (R69, R101, R105, R164–R166, R169, R170). -/
def arrayRow : Instr → Option Row
  | .maqld h m a b => some ⟨h,
      fun s c => (((s.tile c.tile).ctx m.toNat).state = .empty ∨
        (((s.tile c.tile).ctx m.toNat).state = .loaded ∧ ((s.tile c.tile).ctx m.toNat).owner = some c.id)) ∧
        alignedIfPlain (c.g a) 8,
      fun s c t => Stands t c c.x ∧ (t.tile c.tile).ctx m.toNat = { (s.tile c.tile).ctx m.toNat with
        state := .loading
        owner := some c.id
        load := some ⟨c.g a, c.g b, c.id, c.st, c.h.sigMode, c.h.sigK, s.serial, c.x.waitsFor clEN false,
          ((s.tile c.tile).ctx m.toNat).state == .loaded⟩ }⟩
  | .maqgo h m => some ⟨h,
      fun s c => ((s.tile c.tile).ctx m.toNat).owner = some c.id ∧ ((s.tile c.tile).ctx m.toNat).state = .loaded,
      fun s c t => Stands t c c.x ∧
        (∀ j, j < 16 → ((s.tile c.tile).ctx m.toNat).maq.hasCol j = true → (s.tile c.tile).activeOf j = none →
          (t.tile c.tile).activeOf j = some m.toNat) ∧
        (∀ o, (((s.tile c.tile).ctx m.toNat).maq.outs.find o).isSome = true → (s.tile c.tile).outAct.find o = none →
          (t.tile c.tile).outAct.find o = some m.toNat) ∧
        Marks s t c.tile (oldReads s c m.toNat) (.sweep m.toNat) ∧
        ∀ j k, j < 16 → k < 4 → (s.tile c.tile).activeOf j = some k → k ≠ m.toNat →
          ((s.tile c.tile).ctx k).maq.colOps j ≠ [] → (t.tile c.tile).activeOf j = some k ∧
          (((s.tile c.tile).ctx k).owner = some c.id → ((s.tile c.tile).ctx m.toNat).maq.hasCol j = true →
            (∀ q ∈ ((s.tile c.tile).ctx k).maq.colOps j, q.2.hasForward j = false) →
            ((t.tile c.tile).col j).injected = ((s.tile c.tile).col j).injected ++ [.sweep m.toNat])⟩
  | .maqdrn h m => some ⟨h,
      fun s c => ((s.tile c.tile).ctx m.toNat).owner = some c.id ∧ ((s.tile c.tile).ctx m.toNat).state = .active,
      fun s c t => Stands t c c.x ∧
        Marks s t c.tile (fun p => activeReads (s.tile c.tile) m.toNat p (fun _ => True) fun _ => True) (.ctrl 1 0) ∧
        ((s.tile c.tile).drainOuts m.toNat ≠ [] →
          ((s.tile c.tile).drainOuts m.toNat, c.sig) ∈ ((t.tile c.tile).ctx m.toNat).drains) ∧
        ((s.tile c.tile).drainOuts m.toNat = [] → (∀ d ∈ ((s.tile c.tile).ctx m.toNat).drains, d.1 ≠ []) →
          ((t.tile c.tile).ctx m.toNat).drains = ((s.tile c.tile).ctx m.toNat).drains ∧
          ∀ k, t.counter c.id c.st k = counted c (.maqdrn h m) (s.counter c.id c.st k) k)⟩
  | .chbind h x a n => some ⟨h,
      fun s c => (Binding.ofWord ((c.g a).extractLsb' 0 32)).isSome = true ∧
        ∀ p, x.toNat ≤ p → p ≤ x.toNat + n.toNat → s.foreignPort c.tile p c.id = false,
      fun s c t => Stands t c c.x ∧ ∀ b, Binding.ofWord ((c.g a).extractLsb' 0 32) = some b → ∀ p, p < 32 →
        ((t.tile c.tile).inPort p).binding =
          if x.toNat ≤ p ∧ p ≤ x.toNat + n.toNat then b else ((s.tile c.tile).inPort p).binding⟩
  | .srseed h m a => some ⟨h,
      fun s c => (∀ p, p < 32 → (c.g a).getLsbD p = true → s.foreignPort c.tile p c.id = false) ∧
        ((s.tile c.tile).ctx m.toNat).owner = some c.id ∧ ((s.tile c.tile).ctx m.toNat).state = .loaded,
      fun s c t => Stands t c c.x ∧ ((t.tile c.tile).ctx m.toNat).key = c.x.srSeed ∧ ∀ p, p < 32 →
        ((t.tile c.tile).inPort p).srCount = if (c.g a).getLsbD p then 0 else ((s.tile c.tile).inPort p).srCount⟩
  | _ => none

/-- The value of counter n of CNTRD; an event counter as it stands after the word's own wait and mode 11 signal (R31, R322). -/
def counterIs (s : State) (c : Ctx) (n : Nat) (v : Dword) : Prop :=
  let buf := (s.jobs.find c.f.job).bind (·.buf)
  (n = 0x000 ∧ v = s.cycles) ∨ (n = 0x001 ∧ v = c.x.issued) ∨ (n = 0x002 ∧ v = c.x.held) ∨ (n = 0x003 ∧ v = c.x.notsel) ∨
    (n = 0x010 ∧ v = BitVec.ofNat 64 ((buf.map (·.written)).getD 0)) ∨
    (n = 0x011 ∧ v = BitVec.ofNat 64 ((buf.map (·.dropped)).getD 0)) ∨
    (∃ k : BitVec 6, n = 0x040 + k.toNat ∧ v = (s.counter c.id c.st k
      - (if c.h.waitK = k then (if c.h.waitMode = 1 then 1 else if c.h.waitMode = 2 then c.x.rq k else 0) else 0)
      + (if c.h.sigMode = 3 ∧ c.h.sigK = k then 1 else 0)).setWidth 64) ∨
    (∃ j, j < 16 ∧ n = 0x100 + j ∧ v = ((s.tile c.tile).col j).status.setWidth 64) ∨
    (∃ p, p < 32 ∧ n = 0x200 + p ∧ v = ((s.tile c.tile).inPort p).srCount)

/-- The numbers R322 assigns. -/
def counterNumber (n : Nat) : Prop :=
  n ≤ 0x003 ∨ n = 0x010 ∨ n = 0x011 ∨ (0x040 ≤ n ∧ n ≤ 0x07F) ∨ (0x100 ≤ n ∧ n ≤ 0x10F) ∨ (0x200 ≤ n ∧ n ≤ 0x21F)

/-- SMPON, CNTRD and MARK (R322, R323, R327). -/
def monitorRow : Instr → Option Row
  | .smpon h => some (.of h fun _ c t => Stands t c c.x ∧ ∃ f, t.friezes.find c.id = some f ∧
      (c.st = 0 → f.sampling = true) ∧ (c.st ≠ 0 → f.sampling = c.f.sampling))
  | .cntrd h d a num clr => some ⟨h, fun _ _ => True,
      fun s c t => ∃ v, (counterNumber (num + (c.g a).extractLsb' 0 12).toNat → counterIs s c (num + (c.g a).extractLsb' 0 12).toNat v) ∧
        (¬counterNumber (num + (c.g a).extractLsb' 0 12).toNat → v = 0) ∧ Stands t c
        { c.x.setG d v with
          issued := if clr ∧ num + (c.g a).extractLsb' 0 12 = 0x001 then 0 else c.x.issued
          held := if clr ∧ num + (c.g a).extractLsb' 0 12 = 0x002 then 0 else c.x.held
          notsel := if clr ∧ num + (c.g a).extractLsb' 0 12 = 0x003 then 0 else c.x.notsel } ∧
        ∀ j, j < 16 → ((t.tile c.tile).col j).status =
          if clr ∧ (num + (c.g a).extractLsb' 0 12).toNat = 0x100 + j then 0 else ((s.tile c.tile).col j).status⟩
  | .mark h m g => some ⟨h,
      fun s c => ((s.tile c.tile).ctx m.toNat).owner = some c.id ∧ ((s.tile c.tile).ctx m.toNat).state = .active,
      fun s c t => Stands t c { c.x with markTag := (c.g g).extractLsb' 0 32 } ∧
        Marks s t c.tile (fun p => activeReads (s.tile c.tile) m.toNat p (fun _ => True) fun _ => True)
          (.ctrl 2 ((c.g g).extractLsb' 0 32)) ∧ ∃ f, t.friezes.find c.id = some f ∧
        ∀ y ∈ f.stations, y.markTag = (c.g g).extractLsb' 0 32⟩
  | _ => none

/-- A code word has a byte in [ADDR, ADDR + n) (R382). -/
def wordInRange (form : Dword) (n : Nat) (w : BitVec 52) : Prop := n ≠ 0 ∧ 8 * w.toNat < formAddr form + n ∧ formAddr form < 8 * w.toNat + 8

/-- CODEINV: its own frieze refetches what follows it; another frieze of the head keeps what it had fetched before its first word with a
byte in the range and fetches from that word on again, and all of it where there is no such word (R382). -/
def codeinvRow : Instr → Option Row
  | .codeinv h a b => some ⟨h, fun _ c => c.st = 0 → formSpace (c.g a) = spGlobal,
      fun s c t => Stands t c c.x ∧ (c.st = 0 →
        (∃ f, t.friezes.find c.id = some f ∧ f.fetched = [] ∧ f.fetchIndex = c.index + 1) ∧
        ∀ j f, j ≠ c.id → s.friezes.find j = some f → f.head = c.f.head →
          ((∀ w ∈ f.fetched, ¬wordInRange (c.g a) (c.g b).toNat w.1) → t.friezes.find j = some f) ∧
          ∀ before w after, f.fetched = before ++ w :: after → wordInRange (c.g a) (c.g b).toNat w.1 →
            (∀ v ∈ before, ¬wordInRange (c.g a) (c.g b).toNat v.1) →
            ∃ g, t.friezes.find j = some g ∧ g.fetched = before ∧ g.fetchIndex = w.1)⟩
  | _ => none

/-- An image a resume may go on from: not MODE 11, MODE 10 only where every station stands at the same word, and no slot of a station
with RETRY and DROP both 1 (R403). -/
def imageGood (f : Frieze) (m : Image) : Prop :=
  m.mode ≠ 3 ∧ (m.mode = 2 → ∀ st, st < f.stations.length → f.posOf st = f.posOf (f.stations.length - 1)) ∧
    ∀ st, st < f.stations.length → ∀ k, k < 16 → m.retryDrop st k ≠ (true, true)

/-- RESUME at the head completes where the issuer is the handler of the frieze whose image g[A] names, the image can be read, with no
byte of it in error, and it is one a resume may go on from; at another station it always completes (R403). -/
def resumeGood (s : State) (c : Ctx) (a : Reg) (f : Frieze) (ps : List (Place × Nat)) : Prop :=
  ∃ v, c.f.handlerOf = some v ∧ s.friezes.find v = some f ∧ c.g a = c.f.arg ∧
    partPlaces s c.f (c.g a) .read (resumeParts f) = .ok ps ∧ (∀ p ∈ ps, s.placeUp p.1 = true) ∧ s.anyBad ps = false ∧
    imageGood f (Image.of (s.gather ps) f.stations.length)

/-- RESUME: the image is read, and the station ends as at EXIT, its mode 01 signal added once nothing of it runs; the head issues no further
word (R318, R403). -/
def resumeRow : Instr → Option Row
  | .resume h a => some ⟨h, fun s c => c.st = 0 → ∃ f ps, resumeGood s c a f ps,
      fun s c t => (∃ sig, Stands t c { c.x with exiting := true, exitSig := sig } ∧ (c.f.state = .resident →
          (c.x.quiet = true → sig = none ∧ ((∀ y ∈ c.f.stations, y.exitSig = none) →
            ∀ k, t.counter c.id c.st k = counted c (.resume h a) (s.counter c.id c.st k) k)) ∧
          (c.x.quiet = false → sig = if h.sigMode = 1 then some ⟨c.id, c.st, h.sigMode, h.sigK⟩ else none))) ∧
        (c.st = 0 → ∀ f ps, resumeGood s c a f ps → ∃ g, t.friezes.find c.id = some g ∧ g.resuming = some (s.gather ps) ∧ g.stop = .exit)⟩
  | _ => none

/-- What no control word reaches of the module: the host's window and aperture, the queues and engines, links and torus, power,
firmware and the lifetime record (R24, R27, R386). -/
structure HostKept (s t : State) : Prop where
  window : t.result = s.result ∧ t.command = s.command ∧ t.waiting = s.waiting ∧ t.cmdWork = s.cmdWork ∧ t.cmdOvf = s.cmdOvf
  aperture : t.apBase = s.apBase ∧ t.apJob = s.apJob ∧ t.apPhys = s.apPhys
  units : t.queues = s.queues ∧ t.engines = s.engines ∧ t.nodes = s.nodes ∧ t.msix = s.msix ∧ t.castWork = s.castWork
  links : t.moduleId = s.moduleId ∧ t.torus = s.torus ∧ t.portsLost = s.portsLost ∧ t.portsTrained = s.portsTrained
  power : t.boot = s.boot ∧ t.standby = s.standby ∧ t.vstep = s.vstep ∧ t.clamp = s.clamp ∧ t.life = s.life
  image : t.flash = s.flash ∧ t.flashBroken = s.flashBroken ∧ t.staged = s.staged
  clock : t.cycles = s.cycles

end Sys2Proof.Slice0

/-- TXCLAIM, the words of groups 0xC and 0xD, ACCSAVE, ACCLOAD and LAUNCH become requests of class EN with their operands as read at
issue, their destination and their signal; the station goes on (R237, R273, R346, R359, R360, R363, R343). -/
def Obligations.RequestWords : Prop := Slice0.Completes Slice0.requestRow

/-- The words of groups 0xA and 0xB, SMPCFG, SMPOFF, FREEZE and THAW: the head's checks and operands alone make one request for the
whole span (R269–R275, R277, R291, R324, R385). -/
def Obligations.HeadRequestWords : Prop := Slice0.Completes Slice0.headWordRow

/-- A station that issues such a word after its request has completed takes the result as it issues: the g register and the view the
request writes (R270, R277). -/
def Obligations.HeadResultsReachStations : Prop :=
  ∀ (i : Instr) (h : Hdr) (s : State) (c : Ctx) (r : HeadReq) (v : Result), i.asksHead = true → c.st ≠ 0 → Issues s i h c →
    c.f.reqs.find? (fun q => q.lane == c.x.pos) = some r → r.res = some v →
    ∃ t, exec i s = .next t ∧ Slice0.Stands t c (Slice0.withResult v c.x)

/-- MAQLD, MAQGO, MAQDRN, CHBIND and SRSEED issue with the effects of their entries. MAQGO: what is idle switches at once; a SWEEP is
appended at each in-port that the old configuration of the columns of mX reads, and no column under another context with operators
switches before it takes one. MAQDRN: a DRAIN is appended at each in-port read by what is active under mX, and the word is complete once
it has left by every out-port, at once where there is none. That one SWEEP goes to a port however many old contexts read it, that it is
given to columns without forward input, and that an out-port word that reads such a port counts are the model's readings, log entries 28
and 100 (R69, R101, R102, R105, R164–R166, R169, R170). -/
def Obligations.ArrayWords : Prop := Slice0.Completes Slice0.arrayRow

/-- SMPON, CNTRD and MARK complete at issue. CNTRD reads the counter its number names, and zero of a number that names none; MARK appends a
MARK at each in-port read by what is active under mX. That ISSUED does not count the CNTRD that reads it and that every station of the
frieze has the tag of its last MARK are the model's readings, log entries 50 and 52 (R31, R116, R165, R322, R323, R327). -/
def Obligations.MonitorWords : Prop := Slice0.Completes Slice0.monitorRow

/-- CODEINV completes: the words that follow it are fetched again in its own frieze, and those from the first word of the range on in
the other friezes of its head, each of which keeps the words before it; with no word of the range they are left as they are (R382). -/
def Obligations.CodeinvWord : Prop := Slice0.Completes Slice0.codeinvRow

/-- RESUME completes where R403's checks pass: it has read the image it resumes from, and its handler ends as at EXIT (R318, R403). That the
image is read whole as the head issues is the model's reading, log entry 56. -/
def Obligations.ResumeWord : Prop := Slice0.Completes Slice0.resumeRow

/-- Only STS and STQ write memory as they issue: after any other control word, on any outcome, every byte of every memory reads as
before (R181, R195, R202). -/
def Obligations.OnlyScalarStoresWriteAtIssue : Prop :=
  ∀ (i : Instr) (h : Hdr) (s t : State), i.hdr? = some h → (∀ h d a k, i ≠ .sts h d a k ∧ i ≠ .stq h d a k) →
    exec i s = .next t → SameBytes s t

/-- No control word, whoever runs it, changes the host's window, the aperture, the queues, the engines, the links, power, firmware or
the lifetime record at issue. -/
def Obligations.WordsLeaveTheHostAlone : Prop :=
  ∀ (i : Instr) (h : Hdr) (s t : State), i.hdr? = some h → exec i s = .next t → Slice0.HostKept s t

namespace Sys2Proof.Slice0

/-! ### Releases of other modules, forwarded values, and the image of a trap -/

/-- What has become of the STG whose value an LDG may return. -/
def ahead (s : State) (f : Frieze) (id st : Nat) (q : Slot) : StgNow :=
  if q.applied then pendingStg s f id st q (formAddr q.base + q.base2.toInt) else .gone

/-- Job j is here, another module of its module set sends, and its traffic is not frozen (R343, R376, R378). -/
structure FarMay (s : State) (src job : Nat) (j : Job) : Prop where
  far : src ≠ s.moduleId.toNat
  here : s.jobs.find job = some j
  set : s.jobModule job src = true
  flows : src ∉ j.blocked

/-- The writes of another module in this module's translation, one after another; a versioned line takes none (R255). -/
def farWritten (job : Nat) : List (Nat × List Byte) → State → State → Prop
  | [], s, t => t = s
  | (va, bs) :: ws, s, t => ∃ ps, rangeOf s job 0 (mkForm spGlobal va) bs.length .write = .ok ps ∧
      farWritten job ws (if ps.any fun p => p.1.ver.isSome then s else s.scatter ps bs) t

/-- The parts of an image: header, window words and station records at their offsets, with the fields R397 and R398 give. -/
def ImageHolds (f : Frieze) (k : Option Kernel) (r : Trap) (parts : List (Nat × List Byte)) : Prop :=
  (∃ b, (0, b) ∈ parts ∧ b.length = 64 ∧ (dwordAt b 0).extractLsb' 48 16 = (0xC7E1 : BitVec 16) ∧ (dwordAt b 0).extractLsb' 32 8 = r.cause ∧
    (dwordAt b 0).extractLsb' 28 4 = BitVec.ofNat 4 r.station ∧ (dwordAt b 0).extractLsb' 12 7 = BitVec.ofNat 7 f.window.length ∧
    (dwordAt b 8).extractLsb' 32 32 = f.id ∧ (∀ q, k = some q → (dwordAt b 8).extractLsb' 16 16 = BitVec.ofNat 16 q.queue ∧
      (dwordAt b 16).extractLsb' 32 32 = q.seq) ∧
    dwordAt b 24 = 0 ∧ dwordAt b 32 = r.d0 ∧ dwordAt b 40 = r.d1 ∧ dwordAt b 48 = r.d2) ∧
  (∀ j w, f.window[j]? = some w → ∃ b, (0x100 + 16 * j, b) ∈ parts ∧ dwordAt b 0 = w.word ∧ (dwordAt b 8).extractLsb' 12 52 = w.index) ∧
  ∀ st y, f.stations[st]? = some y → ∃ b, (0x1000 + 0x800 * st, b) ∈ parts ∧ b.length = 0x738 ∧
    (∀ n : Reg, dwordAt b (8 * n.toNat) = y.rg n) ∧
    (∀ (n : Nat) (v : Word), y.e.toList[n]? = some v → bvOf 32 ((b.drop (0x100 + 4 * n)).take 4) = v) ∧
    (∀ n : BitVec 6, bvOf 32 ((b.drop (0x180 + 4 * n.toNat)).take 4) = y.rq n) ∧
    (∀ (n : BitVec 4) (j : Fin 4), dwordAt b (0x280 + 32 * n.toNat + 8 * j.val) = (y.rh n)[j]) ∧
    (∀ n : BitVec 3, dwordAt b (0x480 + 16 * n.toNat) = (y.rv n).dword0 ∧ dwordAt b (0x488 + 16 * n.toNat) = (y.rv n).dword1) ∧
    (∀ n : BitVec 4, (y.slot n).state = .running → (dwordAt b (0x500 + 32 * n.toNat)).extractLsb' 62 2 = (1 : BitVec 2) ∧
      (dwordAt b (0x500 + 32 * n.toNat)).extractLsb' 0 48 = BitVec.ofNat 48 (y.slot n).next) ∧
    (dwordAt b 0x700).extractLsb' 12 52 = y.nextIndex ∧ (dwordAt b 0x700).extractLsb' 0 8 = y.trapCause ∧
    (∀ n : BitVec 3, (dwordAt b 0x708).getLsbD (40 + n.toNat) = y.rp n) ∧ dwordAt b 0x710 = y.srSeed ∧
    dwordAt b 0x718 = y.issued ∧ dwordAt b 0x720 = y.held ∧ dwordAt b 0x728 = y.notsel ∧
    (dwordAt b 0x730).extractLsb' 32 32 = y.markTag

end Sys2Proof.Slice0

/-- CODE_FETCH takes the word at the head's path into the fetch buffer (of eight words by the model's choice, log entry 9); DECODE lets the oldest
word through, or traps at it with ILLEGAL_INSTRUCTION or PRIVILEGED_INSTRUCTION (R41, R43, R44, R314). -/
def Obligations.FetchAndDecode : Prop :=
  (∀ (id : Nat) (f : Frieze) (p : Place) (s : State), s.friezes.find id = some f → Slice0.Heads f → f.fetched.length < 8 →
    elementCheck s f.job f.head (mkForm spGlobal (8 * f.fetchIndex.toNat)) (8 * f.fetchIndex.toNat : Nat) 8 .fetch = .ok p →
    s.placeUp p = true → s.badAt p 8 = false →
    ∃ t, exec (.codeFetch id) s = .next t ∧ t.friezes.find id = some { f with
      fetched := f.fetched ++ [(f.fetchIndex, bvOf 64 (s.bytesAt p 8))]
      fetchIndex := f.fetchIndex + 1 }) ∧
  ∀ (id : Nat) (f : Frieze) (x : Station) (w : Dword) (n : BitVec 52) (rest : List (BitVec 52 × Dword)) (s : State),
    Slice0.At s id 0 f x → Slice0.Heads f → f.trap = none → f.fetched = (n, w) :: rest → f.decoded = false → x.faults = [] →
    ∃ t, exec (.decodeWord id) s = .next t ∧
      (∀ i bs, decodeBytes (bytesOf w) = .ok (i, bs) → i.wf = true → (i.privileged = true → f.job = 0) →
        t.friezes.find id = some { f with decoded := true }) ∧
      ((∀ i bs, decodeBytes (bytesOf w) = .ok (i, bs) → i.wf = false) → Slice0.Trapped t id 0 x ⟨0x01, none, 0, x.pos, 0, 0, 0⟩) ∧
      ∀ i bs, decodeBytes (bytesOf w) = .ok (i, bs) → i.wf = true → i.privileged = true → f.job ≠ 0 →
        Slice0.Trapped t id 0 x ⟨0x02, none, 0, x.pos, 0, 0, 0⟩

/-- ISSUE_SELECT: while a frieze with its head on the tile is ready, one of them issues, the first ready one round-robin after the slot
that issued last; else the station whose word entered its queue earliest (R301, R302). -/
def Obligations.IssueChoice : Prop :=
  (∀ (tile : Nat) (s : State), (∃ id, Slice0.Ready s tile (id, 0)) → (∀ id, Slice0.Ready s tile (id, 0) → s.slotOf id < 4) →
    ∃ t id b, exec (.issueSelect tile) s = .next t ∧ t.cur = some ⟨id, 0, b⟩ ∧ Slice0.Ready s tile (id, 0) ∧
      (t.tile tile).pointer = s.slotOf id ∧ ∀ j, Slice0.Ready s tile (j, 0) → Slice0.turnOf s tile id ≤ Slice0.turnOf s tile j) ∧
  ∀ (tile : Nat) (s : State), (∀ id, ¬Slice0.Ready s tile (id, 0)) → (∃ p, Slice0.Ready s tile p) →
    ∃ t p b, exec (.issueSelect tile) s = .next t ∧ t.cur = some ⟨p.1, p.2, b⟩ ∧ Slice0.Ready s tile p ∧
      ∀ q, Slice0.Ready s tile q → enteredAt s p ≤ enteredAt s q

/-- A held station whose hold count has reached WAIT_LIMIT traps with WAIT_TIMEOUT; a slot that SBAR or FENCE holds that long becomes FAULTED, its fault
pending; the earliest pending fault of a station is delivered as a trap at its next word (R196, R235, R305, R397). -/
def Obligations.TimeoutsAndFaults : Prop :=
  (∀ (id st : Nat) (f : Frieze) (x : Station) (j : Job) (w : Why) (s : State), Slice0.At s id st f x → Slice0.Heads f →
    f.trap = none → s.jobs.find f.job = some j → standAt s id st = .held w → j.waitLimit.toNat ≤ x.hold →
    ∃ t r, exec (.waitTimeout id st) s = .next t ∧ Slice0.Trapped t id st x r ∧ r.cause = 0x07 ∧ r.slot = none ∧ r.station = st ∧
      r.at_ = x.pos ∧ Slice0.timeoutSays s id st (f.head + st) w r) ∧
  (∀ (id st k : Nat) (f : Frieze) (x : Station) (j : Job) (q : Slot) (s : State), Slice0.At s id st f x → f.state = .resident →
    s.jobs.find f.job = some j → k < 16 → x.slot (BitVec.ofNat 4 k) = q → q.state = .running → q.barred ≠ [] →
    q.hold + j.waitLimit.toNat ≤ s.cycles.toNat →
    ∃ t y, exec (.holdTimeout id st k) s = .next t ∧ t.station? id st = some y ∧
      (y.slot (BitVec.ofNat 4 k)).state = .faulted 0x07 ∧ ∃ p ∈ y.faults, p.slot = some k ∧ p.cause = 0x07) ∧
  ∀ (id st : Nat) (f : Frieze) (x : Station) (p : PendFault) (rest : List PendFault) (s : State), Slice0.At s id st f x →
    Slice0.Heads f → f.trap = none → x.exiting = false → x.faults = p :: rest → (∀ r ∈ rest, p.no ≤ r.no) →
    ∃ t, exec (.faultDelivery id st) s = .next t ∧ Slice0.Trapped t id st x ⟨p.cause, p.slot, st, x.pos, p.d0, p.d1, p.d2⟩

/-- STREAM_ELEMENT_PERFORMED: LDG, and an LDS or LDQ that was left outstanding, write their registers from memory and leave memory alone
(an LDG that may go ahead of one STG of its station returns that STG's value while the STG still waits, log entry 79); STG, an STS or STQ left outstanding and an element of SFILL
write the bytes of the element and no other; the slot goes on, or is IDLE when its last element is performed (R173, R177, R202, R203, R217). -/
def Obligations.ElementsPerformed : Prop :=
  (∀ (id st k : Nat) (f : Frieze) (x : Station) (q : Slot) (p : Place) (s : State), Slice0.Moves s id st k f x q → q.kind = .ldg →
    q.aborts = [] → Slice0.Lies s f st q.base (formAddr q.base + q.base2.toInt) 8 .read p → s.badAt p 8 = false →
    Slice0.ahead s f id st q ≠ .wait →
    ∃ t y, exec (.streamElementPerformed id st k) s = .next t ∧ SameBytes s t ∧ Slice0.SlotDone t id st k y ∧
      (q.dst = 0 → y.rg q.dst = 0) ∧ (q.dst ≠ 0 → (∀ v, Slice0.ahead s f id st q = .value v → y.rg q.dst = v) ∧
        (Slice0.ahead s f id st q = .gone → y.rg q.dst = bvOf 64 (s.bytesAt p 8)))) ∧
  (∀ (id st j : Nat) (f : Frieze) (x : Station) (q : PendScalar) (p : Place) (s : State), Slice0.At s id st f x → f.state = .resident →
    j < 16 → x.pend[j]? = some q → q.waits = [] → q.store = false →
    Slice0.Lies s f st q.form q.addr (if q.quad then 32 else 8) .read p → s.badAt p (if q.quad then 32 else 8) = false →
    ∃ t y, exec (.streamElementPerformed id st (16 + j)) s = .next t ∧ SameBytes s t ∧ t.station? id st = some y ∧
      y.g = (setGs x q.dst (dwordsOf (s.bytesAt p (if q.quad then 32 else 8)) (if q.quad then 4 else 1))).g ∧
      y.pend.map (·.uid) = (x.pend.eraseIdx j).map (·.uid)) ∧
  (∀ (id st j : Nat) (f : Frieze) (x : Station) (q : PendScalar) (p : Place) (s : State), Slice0.At s id st f x → f.state = .resident →
    j < 16 → x.pend[j]? = some q → q.waits = [] → q.store = true →
    Slice0.Lies s f st q.form q.addr (q.vals.flatMap bytesOf).length .write p →
    Slice0.direct s f.job (f.tileOf st) q.form q.addr (if q.quad then 32 else 8) .write → (s.mem p.mem).wf →
    ∃ t y, exec (.streamElementPerformed id st (16 + j)) s = .next t ∧
      t.bytesAt p (q.vals.flatMap bytesOf).length = q.vals.flatMap bytesOf ∧ SameBytesBut s t p (q.vals.flatMap bytesOf).length ∧
      t.station? id st = some y ∧ y.g = x.g ∧ y.pend.map (·.uid) = (x.pend.eraseIdx j).map (·.uid)) ∧
  (∀ (id st k : Nat) (f : Frieze) (x : Station) (q : Slot) (p : Place) (s : State), Slice0.Moves s id st k f x q → q.kind = .stg →
    q.aborts = [] → Slice0.Lies s f st q.base (formAddr q.base + q.base2.toInt) 8 .write p → (s.mem p.mem).wf →
    ∃ t y, exec (.streamElementPerformed id st k) s = .next t ∧ t.bytesAt p 8 = bytesOf q.val ∧ SameBytesBut s t p 8 ∧
      Slice0.SlotDone t id st k y) ∧
  ∀ (id st k : Nat) (f : Frieze) (x : Station) (q : Slot) (p : Place) (s : State), Slice0.Moves s id st k f x q → q.kind = .fill →
    q.aborts = [] → Slice0.Lies s f st q.base (elementAddr q.base q.shape none q.next) q.fillBytes.length .write p →
    Slice0.direct s f.job (f.tileOf st) q.base (elementAddr q.base q.shape none q.next) q.shape.size .write →
    (s.mem p.mem).wf →
    ∃ t y, exec (.streamElementPerformed id st k) s = .next t ∧ t.bytesAt p q.fillBytes.length = q.fillBytes ∧
      SameBytesBut s t p q.fillBytes.length ∧ t.station? id st = some y ∧
      (q.next + 1 < q.limit → (y.slot (BitVec.ofNat 4 k)).state = .running ∧ (y.slot (BitVec.ofNat 4 k)).next = q.next + 1) ∧
      (q.limit ≤ q.next + 1 → y.slot (BitVec.ofNat 4 k) = Slot.idle)

/-- ATOMIC_APPLY performs the update of ATOMG, or of RATOM on this module, in one step and returns the old value;
REMOTE_RELEASE_ARRIVAL adds an RSIG's amount to the mailbox counter it names, here or by a message to its module, and takes the increment
or update of another module's RSIG or RATOM once the writes it releases stand; that those writes arrive with it is the model's reading, log
entry 109 (R205, R206, R236, R248, R249, R418). -/
def Obligations.AtomicsAndReleases : Prop :=
  (∀ (id st k : Nat) (f : Frieze) (x : Station) (q : Slot) (p : Place) (s : State), Slice0.Moves s id st k f x q →
    (q.kind = .atomg ∨ (q.kind = .ratom ∧ remotePlace s f.job q.base = false)) → q.applied = false → q.aborts = [] →
    Slice0.Lies s f st q.base (formAddr q.base) (if q.wide then 8 else 4) .atomic p →
    s.badAt p (if q.wide then 8 else 4) = false → (s.mem p.mem).wf →
    let z := if q.wide then 8 else 4
    let old := leNat (s.bytesAt p z)
    ∃ t y, exec (.atomicApply id st k) s = .next t ∧ SameBytesBut s t p z ∧ Slice0.SlotDone t id st k y ∧
      t.bytesAt p z = leBytes (Slice0.atomLeaves q.op (8 * z) old (q.val.toNat % 2 ^ (8 * z)) (q.cmp.toNat % 2 ^ (8 * z))) z ∧
      y.rg q.dst = if q.dst = 0 then 0 else BitVec.ofNat 64 old) ∧
  (∀ (id st k : Nat) (f : Frieze) (x : Station) (q : Slot) (s : State), Slice0.Moves s id st k f x q → q.kind = .rsig →
    q.aborts = [] → q.sigMode = 0 → (∀ y ∈ f.stations, y.holds = [] ∧ y.exiting = false) → sigModule q.base = s.moduleId.toNat →
    ∃ t y, exec (.remoteReleaseArrival (.own id) st k) s = .next t ∧ Slice0.SlotDone t id st k y ∧ ∀ u c, c < 32 →
      (t.tile u).ctr c = (s.tile u).ctr c + if u = sigTile q.base ∧ c = 16 + sigCtr q.base then q.val.setWidth 32 else 0) ∧
  (∀ (id st k : Nat) (f : Frieze) (x : Station) (q : Slot) (s : State), Slice0.Moves s id st k f x q → q.kind = .rsig →
    sigModule q.base ≠ s.moduleId.toNat → s.reachable (sigModule q.base) = true →
    ∃ t y, exec (.remoteReleaseArrival (.own id) st k) s = .next t ∧ Slice0.SlotDone t id st k y ∧
      t.out = s.out ++ [.rsig q.base (q.val.setWidth 32)]) ∧
  (∀ (ws : List (Nat × List Byte)) (target : Dword) (amount : Word) (src job : Nat) (j : Job) (s s1 : State),
    Slice0.FarMay s src job j → Slice0.farWritten job ws s s1 → sigModule target = s1.moduleId.toNat →
    inPartition s1 job (sigTile target) = true →
    ∃ t, exec (.remoteReleaseArrival (.signal ws target amount) src job) s = .next t ∧ SameBytes s1 t ∧ ∀ u c, c < 32 →
      (t.tile u).ctr c = (s1.tile u).ctr c + if u = sigTile target ∧ c = 16 + sigCtr target then amount else 0) ∧
  ∀ (ws : List (Nat × List Byte)) (form : Dword) (op : Nat) (wide : Bool) (val cmp : Dword) (src job : Nat) (j : Job) (p : Place)
    (s s1 : State),
    Slice0.FarMay s src job j → Slice0.farWritten job ws s s1 →
    let z := if wide then 8 else 4
    elementCheck s1 job 0 form (formAddr form) z .atomic = .ok p → s1.placeUp p = true → s1.badAt p z = false → (s1.mem p.mem).wf →
    ∃ t, exec (.remoteReleaseArrival (.update ws form op wide val cmp) src job) s = .next t ∧ SameBytesBut s1 t p z ∧
      t.bytesAt p z = leBytes (Slice0.atomLeaves op (8 * z) (leNat (s1.bytesAt p z)) (val.toNat % 2 ^ (8 * z)) (cmp.toNat % 2 ^ (8 * z))) z

/-- TRAP_TAKEN: once the stop is complete, every station's NEXT_INDEX and the trapping station's TRAP_CAUSE are written, the image stands
in the lowest free entry of the context pool, its header, its window and its station records at their offsets, and the handler starts at
TRAP_VEC in the frieze's context, with the entry's address as its argument; where there is no handler or no entry the frieze ends (R393,
R394, R396–R400). That TRAP_CAUSE of the other stations stays and that reserved fields of the image are zero are the model's readings, log
entries 12 and 55. -/
def Obligations.TrapEntry : Prop :=
  (∀ (id i : Nat) (f : Frieze) (r : Trap) (j : Job) (ps : List (Place × Nat)) (s : State), s.friezes.find id = some f →
    f.state = .resident → f.stop = .trap → f.trap = some r → f.handlerOf = none → stopDone s id = true →
    s.jobs.find f.job = some j → j.trapVec.extractLsb' 12 52 ≠ (0 : BitVec 52) →
    i < j.poolCount → i ∉ j.poolUsed → (∀ n, n < i → n ∈ j.poolUsed) →
    let parts := imageParts (f.stopped r) (s.kernels.find f.kernel) r
    partPlaces s (f.stopped r) (mkForm spGlobal (j.poolBase + 0x10000 * i)) .write (parts.map fun p => (p.1, p.2.length)) = .ok ps →
    ∃ t k h, exec (.trapTaken id) s = .next t ∧
      (∀ m a, (t.mem m).read a = ((s.scatter ps (parts.flatMap (·.2))).mem m).read a) ∧
      (∃ j', t.jobs.find f.job = some j' ∧ j'.poolUsed = i :: j.poolUsed) ∧
      t.friezes.find k = some h ∧ h.handlerOf = some id ∧ h.state = .resident ∧
      h.entry = j.trapVec.extractLsb' 12 52 ∧ h.arg = mkForm spGlobal (j.poolBase + 0x10000 * i) ∧ h.head = f.head ∧ h.ctx = f.ctx ∧
      h.stations.length = f.stations.length ∧
      (id ≠ k → ∃ g, t.friezes.find id = some g ∧ g.state = .handled ∧ g.image = some i ∧ g.handler = some k ∧
        ∀ st y, g.stations[st]? = some y → y.nextIndex = f.indexAt st ∧ (st = r.station → y.trapCause = r.cause))) ∧
  (∀ (f : Frieze) (k : Option Kernel) (r : Trap), Slice0.ImageHolds f k r (imageParts f k r)) ∧
  ∀ (id : Nat) (f : Frieze) (r : Trap) (j : Job) (s : State), s.friezes.find id = some f → f.state = .resident → f.stop = .trap →
    f.trap = some r → f.handlerOf = none → stopDone s id = true → s.jobs.find f.job = some j →
    (j.trapVec.extractLsb' 12 52 = (0 : BitVec 52) ∨ ∀ n, n < j.poolCount → n ∈ j.poolUsed) →
    ∃ t g, exec (.trapTaken id) s = .next t ∧ t.friezes.find id = some g ∧ g.state = .ended

/-- HANDLER_END: a handler that has executed EXIT ends its frieze with it; after RESUME the frieze stands in the handler's context again
with the g registers of the records its handler's RESUME has read (R400, R403). -/
def Obligations.HandlerEnds : Prop :=
  (∀ (id v : Nat) (h f : Frieze) (s : State), s.friezes.find id = some h → h.state = .resident → h.handlerOf = some v →
    s.friezes.find v = some f → v ≠ id → f.kernel ≠ h.kernel → (∀ y ∈ h.stations, y.exiting = true ∧ y.quiet = true ∧ y.faults = []) →
    h.resuming = none →
    ∃ t g, exec (.handlerEnd id) s = .next t ∧ t.friezes.find v = some g ∧ g.state = .ended) ∧
  ∀ (id v : Nat) (h f : Frieze) (image : List Byte) (s : State), s.friezes.find id = some h → h.state = .resident →
    h.handlerOf = some v → s.friezes.find v = some f → v ≠ id → f.kernel ≠ h.kernel →
    (∀ y ∈ h.stations, y.exiting = true ∧ y.quiet = true ∧ y.faults = []) → h.resuming = some image →
    f.reqs = [] →
    (∀ y ∈ f.stations, ∀ k : BitVec 4, (y.slot k).aborts = []) →
    ∃ t g, exec (.handlerEnd id) s = .next t ∧ t.friezes.find v = some g ∧ g.state = .resident ∧ g.trap = none ∧ g.handler = none ∧
      g.head = f.head ∧ g.ctx = f.ctx ∧ ∀ st y, g.stations[st]? = some y → ∀ r : Reg, r ≠ 0 →
        y.rg r = dwordAt ((image.drop (64 + 0x738 * st)).take 0x738) (8 * r.toNat)

namespace Sys2Proof.Slice0

/-! ### Events of the ports and the cell array -/

/-- The route of an out-port may send its head beat: the frieze that bound it stands on its span, the port it leaves by carries
traffic, and no stream is inside the beat (R188, R351, R358, R362). -/
structure Sends (s : State) (tile o : Nat) (r : Route) (b : Beat) (rest : List Beat) : Prop where
  port : o < 32
  route : s.routes.find (32 * tile + o) = some r
  single : r.mc = false
  ports : ∀ p ∈ r.ports, s.portLive p = true
  live : r.host = true ∨ ∃ f, s.friezes.find r.fz = some f ∧ (f.state = .resident ∨ f.state = .handled) ∧ f.draining = false
  untaken : s.takerOf tile o = none
  head : (s.tile tile).outPort o = b :: rest

/-- What an operator that fires leaves of its column, its tokens apart (R94, R116, R121, R123). -/
def Fires (s t : State) (tile k col slot : Nat) (g : Fired) : Prop :=
  ((t.tile tile).col col).status = ((s.tile tile).col col).status ||| g.status ∧
  (∀ st, g.st = some st → (t.tile tile).ops.find (4 * col + slot) = some st) ∧
  (g.st = none → (t.tile tile).ops = (s.tile tile).ops) ∧
  ∀ i idx d, i < 2 → ((s.tile tile).ctx k).maq.consumer (outSel col slot i) = some (idx, d) →
    (∀ j ∈ g.pops, idx ≠ 16 * col + 4 * slot + j) → (g.outs.filter fun q => q.1 == i) ≠ [] →
    (∀ e, ((s.tile tile).ctx k).maq.consumer (outSel col slot (1 - i)) ≠ some (idx, e)) →
    ((s.tile tile).consumerOn k idx = true ∨ forwardIdx col idx = true) →
    (t.tile tile).link (linkKey k idx) = (s.tile tile).link (linkKey k idx) ++ (g.outs.filter fun q => q.1 == i).map (·.2)

/-- A marker injected for a column of operators without a forward input (R99; log entries 28 and 32). -/
structure Injected (s : State) (tile col k : Nat) (mk : Tok) (rest : List Tok) : Prop where
  on : (s.tile tile).activeOf col = some k
  going : ((s.tile tile).col col).stopped = false
  head : ((s.tile tile).col col).injected = mk :: rest
  target : (s.tile tile).targetOk mk = true

/-- A marker heads every forward input of an operator (R99, R100). -/
structure Meets (s : State) (tile col slot k : Nat) (o : StageOp) (mk : Tok) : Prop where
  live : (s.tile tile).live col slot = some (k, o)
  alone : ((s.tile tile).col col).injected = []
  legal : (((pullFor s tile o).tile tile).fireIn k col slot o).fault? = none
  queue : o.op = 0x04 → (((pullFor s tile o).tile tile).fireIn k col slot o).dq = []
  some : true ∈ (((pullFor s tile o).tile tile).fireIn k col slot o).fwd
  heads : ∀ i, (((pullFor s tile o).tile tile).fireIn k col slot o).fwd[i]? = Option.some true →
    (((pullFor s tile o).tile tile).fireIn k col slot o).head i = Option.some mk
  mark : mk.isMark = true
  target : ((pullFor s tile o).tile tile).targetOk mk = true

/-- The operators that take a marker with one: those of its column without a forward input go with the lowest that has one (R99;
log entry 32). -/
def takers (x : Tile) (k col slot : Nat) (o : StageOp) : List (Nat × StageOp) :=
  (slot, o) :: if (x.ctx k).maq.leadSlot col = some slot then ((x.ctx k).maq.colOps col).filter fun q => !q.2.hasForward col else []

/-- Every operator may take the marker, with room for what it emits and copies, and no table to emit first (R99, R145). -/
def MayTake (x : Tile) (k col : Nat) (ops : List (Nat × StageOp)) (mk : Tok) : Prop :=
  ∀ q ∈ ops, x.markReady col q.1 q.2 mk = true ∧ x.markRoom k col q.1 q.2 = true ∧ x.tableDue col q.1 mk = false

/-- A table that a SWEEP makes an operator emit stands ready to be written, the SWEEP behind it, and its bins are empty (R145). -/
def Emits (t : State) (tile col slot : Nat) (o : StageOp) (b : List Bin) (j : Nat) : Prop :=
  (t.tile tile).ops.find (4 * col + slot) = some (.bins (noBins o) false) ∧
  (t.tile tile).pend.find (4 * col + slot) = some ((tableVecs o b).map (fun v => (0, v)) ++ [(0, .sweep j)])

/-- A systolic region at work on a tile (R108). -/
structure Works (s : State) (tile col : Nat) (q : SysAt) : Prop where
  here : (s.tile tile).sysAt col = some q
  going : ((s.tile tile).col q.r.first).stopped = false

/-- The accumulator after a step of an operation (R79–R81, R110, R153). -/
def stepValue (x : Tile) (q : SysAt) (l c : Nat) (b : Beat) (o : Ctl) (a : Rec) (bs : List Rec) : Word × Bool :=
  let old := if (x.cell l c).done = 0 ∧ o.clr = true then (0, false) else x.accOf l c o.acci
  let ts := if q.w.mmanm then sparseTerms a bs else bs.flatMap (denseTerms a)
  (if q.w.int32 then stepI32 old.1 ts else stepF32 old.1 ts, old.2 || a.poison || bs.any (·.poison) || b.r.poison)

/-- The accumulator after an ACCOP: scaled, added to, copied or zeroed (R158). -/
def accopGives (x : Tile) (q : SysAt) (l c : Nat) (b : Beat) (o : Ctl) (v : Word × Bool) : Prop :=
  (o.sub = 0 → v.2 = ((x.accOf l c o.acci).2 || b.r.poison) ∧
    (q.w.int32 = true → v.1 = BitVec.ofInt 32 (max (-2147483648) (min 2147483647 ((x.accOf l c o.acci).1.toInt * o.opnd.toInt)))) ∧
    (q.w.int32 = false → ∃ u, v.1 = fmul q.w.rm u (x.accOf l c o.acci).1 o.opnd)) ∧
  (o.sub = 1 → v.2 = ((x.accOf l c o.acci).2 || b.r.poison) ∧
    (q.w.int32 = true → v.1 = BitVec.ofInt 32 (max (-2147483648) (min 2147483647 ((x.accOf l c o.acci).1.toInt + o.opnd.toInt)))) ∧
    (q.w.int32 = false → ∃ u, v.1 = fadd q.w.rm u (x.accOf l c o.acci).1 o.opnd)) ∧
  (o.sub = 2 → v = ((x.accOf l c o.from_).1, (x.accOf l c o.from_).2 || b.r.poison)) ∧
  (o.sub = 3 → v = (0, false))

/-- The columns of the beat a 32-bit emission writes next, and its lane (R156). -/
def emitColumns (q : SysAt) : List Nat :=
  let n := (q.r.last + 1 - q.r.first + 3) / 4
  ((List.range 4).map fun j => q.r.first + q.run.emitPos % n * 4 + j).filter (· ≤ q.r.last)
def emitLane (q : SysAt) : Nat := q.run.emitPos / ((q.r.last + 1 - q.r.first + 3) / 4)

/-- The control beat whose values a tile's region has captured. -/
def captureOf (x : Tile) (r : Region) : Option Beat :=
  x.cells.findSome? fun (key, e) => if r.first ≤ key % 16 ∧ key % 16 ≤ r.last then e.cap.map (·.2.2) else none

/-- A DRAIN or MARK heads every port of a region that is at rest, and its neighbours have taken it (R159). -/
structure AtMarker (s : State) (tile : Nat) (q : SysAt) (mk : Tok) : Prop where
  heads : ∀ p ∈ (q.w.inPorts (some q.r)).dedup, ∃ b rest, ((s.tile tile).inPort p).fifo = b :: rest ∧ b.mark? = some mk
  plain : ∀ j, mk ≠ .sweep j
  still : starved (s.tile tile) q = false ∧ (s.tile tile).opBusy q.r = false
  quiet : accAtWork s tile q.r = false ∧ overfull (s.tile tile) q = false
  west : q.run.westEdge = false → q.run.westMarks.head? = some mk
  north : q.run.northEdge = false → q.run.northMarks.head? = some mk
  room : q.w.out < 32 ∧ ((s.tile tile).outPort q.w.out).length < 64

/-- A MAQLD whose words can be read, with no earlier request of its station to its home before it (R164, R237): the load, and its job. -/
structure Loads (s : State) (tile ctx : Nat) (l : Load) (f : Frieze) (w : Dword) : Prop where
  small : ctx < 4
  load : ((s.tile tile).ctx ctx).load = some l
  free : l.waits = []
  turn : l.behind s = false
  fz : s.friezes.find l.fz = some f
  first : loadWord s f.job tile l.form (formAddr l.form) = .ok w

end Sys2Proof.Slice0

/-- INPORT_BEAT_ARRIVAL: the oldest beat on its way stands in the port under its binding, data with the next beat index; ROUTE_BEAT: the
head of an out-port leaves for the in-port its route names, in the entry promised to it, or for another module. Whether the 840 has the
credit of another module's port, and whether a torus link beyond this module's own is lost, which ends the route with FABRIC_FAULT, are open
values of the model, log entry 77 (R71, R77, R89, R358, R361). -/
def Obligations.BeatsMove : Prop :=
  (∀ (tile port : Nat) (w : RawBeat) (rest : List RawBeat) (s : State), port < 32 → ((s.tile tile).inPort port).flight = w :: rest →
    ∃ t, exec (.inportBeatArrival tile port) s = .next t ∧
      let q := (s.tile tile).inPort port
      (t.tile tile).inPort port = { q with
        fifo := q.fifo ++ [⟨w.kind, enterRec q.binding port q.srCount w, w.data⟩]
        flight := rest
        promised := q.promised - 1
        srCount := if w.kind = 0 ∨ w.kind = 1 then q.srCount + 1 else q.srCount }) ∧
  (∀ (tile o : Nat) (r : Route) (b : Beat) (rest : List Beat) (s : State), Slice0.Sends s tile o r b rest →
    r.module = s.moduleId.toNat → r.port < 32 → ((s.tile r.tile).inPort r.port).free ≠ 0 →
    ∃ t, exec (.routeBeat tile o) s = .next t ∧ (t.tile tile).outPort o = rest ∧
      ((t.tile r.tile).inPort r.port).promised = ((s.tile r.tile).inPort r.port).promised + 1 ∧
      ((t.tile r.tile).inPort r.port).flight = ((s.tile r.tile).inPort r.port).flight ++ [b.raw]) ∧
  (∀ (tile o : Nat) (r : Route) (b : Beat) (rest : List Beat) (s : State), Slice0.Sends s tile o r b rest →
    r.module ≠ s.moduleId.toNat → (r.further s = true → Config.freeBit s.free = false) →
    let n := if r.further s then s.free + 1 else s.free
    ∃ t, exec (.routeBeat tile o) s = .next t ∧
      (Config.freeBit n = true → (t.tile tile).outPort o = rest ∧ t.out = s.out ++ [.beat r.module r.tile r.port b.raw]) ∧
      (Config.freeBit n = false → (t.tile tile).outPort o = b :: rest ∧ t.out = s.out)) ∧
  ∀ (tile o : Nat) (r : Route) (x : Station) (s : State), o < 32 → s.routes.find (32 * tile + o) = some r → r.further s = true →
    r.host = false → s.station? r.fz r.st = some x →
    ∃ t, exec (.routeBeat tile o) s = .next t ∧ (Config.freeBit s.free = true → t.routes = s.routes.del (32 * tile + o) ∧
      ∃ y, t.station? r.fz r.st = some y ∧ ∃ p ∈ y.faults, p.cause = 0x0D ∧ p.d0 = BitVec.ofNat 64 o)

/-- OPERATOR_FIRE: an operator that can fire, no lower slot of its column before it, does: its outputs go onto their links, its state and
the status word follow; OUTPORT_WORD_FIRE appends a vector's beats to the out-port; ALIGNMENT_MARKER_TAKEN takes a marker that heads every forward input of an
operator, which then stands behind what the operator emits on its forward links, or one injected for a column; a table goes out before a
SWEEP is taken, and a column all of whose operators have taken a SWEEP switches. That markers are injected for a column of operators
without a forward input, and which operators take a marker with another, are the model's reading, log entries 28 and 32 (R91, R94, R99,
R100, R103, R145). -/
def Obligations.OperatorsFire : Prop :=
  (∀ (tile col slot k : Nat) (o : StageOp) (g : Fired) (s : State), (s.tile tile).live col slot = some (k, o) →
    ((s.tile tile).pend.find (4 * col + slot)) = none → ((s.tile tile).col col).injected = [] → lowerFires (pullFor s tile o) tile col slot = false →
    tryFire (pullFor s tile o) tile k col slot o = .go g →
    ∃ t, exec (.operatorFire tile col slot) s = .next t ∧ Slice0.Fires (pullFor s tile o) t tile k col slot g) ∧
  (∀ (tile o k : Nat) (w : StageOp) (v : Lanes) (e : Bool) (s : State), o < 32 → (s.tile tile).outAct.find o = some k →
    ((s.tile tile).ctx k).maq.outs.find o = some w →
    ((pullFor s tile w).tile tile).outStopped (((pullFor s tile w).tile tile).ctx k).maq w = false →
    (((pullFor s tile w).tile tile).inputToks k (1024 + o) (w.sel[0]?.getD .none) (w.d[0]?.getD 0)).head? = some (.vec v e) →
    ((s.tile tile).outPort o).length + (vecBeats v e).length ≤ 64 →
    ∃ t, exec (.outportWordFire tile o) s = .next t ∧ (t.tile tile).outPort o = (s.tile tile).outPort o ++ vecBeats v e) ∧
  (∀ (tile col slot k : Nat) (mk : Tok) (rest : List Tok) (s : State), Slice0.Injected s tile col k mk rest → (∀ j, mk ≠ .sweep j) →
    Slice0.MayTake (s.tile tile) k col (((s.tile tile).ctx k).maq.colOps col) mk →
    ∃ t, exec (.alignmentMarkerTaken tile col slot) s = .next t ∧ ((t.tile tile).col col).injected = rest ∧
      (t.tile tile).activeOf col = some k) ∧
  (∀ (tile col slot k j : Nat) (rest : List Tok) (s : State), Slice0.Injected s tile col k (.sweep j) rest →
    Slice0.MayTake (s.tile tile) k col (((s.tile tile).ctx k).maq.colOps col) (.sweep j) →
    ∃ t, exec (.alignmentMarkerTaken tile col slot) s = .next t ∧
      (t.tile tile).activeOf col = if ((s.tile tile).ctx j).maq.hasCol col then some j else none) ∧
  (∀ (tile col slot k : Nat) (o : StageOp) (mk : Tok) (s : State), Slice0.Meets s tile col slot k o mk → (∀ j, mk ≠ .sweep j) →
    Slice0.takers ((pullFor s tile o).tile tile) k col slot o = [(slot, o)] →
    Slice0.MayTake ((pullFor s tile o).tile tile) k col [(slot, o)] mk →
    let x := (pullFor s tile o).tile tile
    ∃ t, exec (.alignmentMarkerTaken tile col slot) s = .next t ∧ (t.tile tile).activeOf col = some k ∧
      (∀ i idx d, i < 2 → (x.ctx k).maq.consumer (outSel col slot i) = some (idx, d) → forwardIdx col idx = true →
        (∀ e, (x.ctx k).maq.consumer (outSel col slot (1 - i)) ≠ some (idx, e)) → (∀ j < 4, idx ≠ 16 * col + 4 * slot + j) →
        (t.tile tile).link (linkKey k idx) = x.link (linkKey k idx) ++
          (((markerOut o (x.ops.find (4 * col + slot))).1.filter fun q => q.1 == i).map (·.2)) ++ [mk]) ∧
      ∀ j sel, (o.sel.filter (· != .none))[j]? = some sel → sel.forward col = true → x.link (linkKey k (16 * col + 4 * slot + j)) ≠ [] →
        (∀ i e, (x.ctx k).maq.consumer (outSel col slot i) ≠ some (16 * col + 4 * slot + j, e)) →
        (t.tile tile).link (linkKey k (16 * col + 4 * slot + j)) = (x.link (linkKey k (16 * col + 4 * slot + j))).tail) ∧
  (∀ (tile col slot k j : Nat) (o : StageOp) (s : State), Slice0.Meets s tile col slot k o (.sweep j) →
    let x := (pullFor s tile o).tile tile
    Slice0.MayTake x k col (Slice0.takers x k col slot o) (.sweep j) →
    ∃ t, exec (.alignmentMarkerTaken tile col slot) s = .next t ∧
      if ∀ q ∈ (x.ctx k).maq.colOps col, q.1 ∈ (x.col col).parked ∨ q.1 ∈ (Slice0.takers x k col slot o).map (·.1) then
        (t.tile tile).activeOf col = if (x.ctx j).maq.hasCol col then some j else none
      else (t.tile tile).activeOf col = some k ∧ slot ∈ ((t.tile tile).col col).parked ∧ ((t.tile tile).col col).target = some j) ∧
  (∀ (tile col slot k j : Nat) (o : StageOp) (b : List Bin) (s : State), Slice0.Meets s tile col slot k o (.sweep j) →
    let x := (pullFor s tile o).tile tile
    (∀ q ∈ Slice0.takers x k col slot o, x.markReady col q.1 q.2 (.sweep j) = true) → x.ops.find (4 * col + slot) = some (.bins b true) →
    ∃ t, exec (.alignmentMarkerTaken tile col slot) s = .next t ∧ Slice0.Emits t tile col slot o b j ∧
      (t.tile tile).activeOf col = some k) ∧
  ∀ (tile col slot k j : Nat) (o : StageOp) (b : List Bin) (rest : List Tok) (s : State), Slice0.Injected s tile col k (.sweep j) rest →
    (∀ q ∈ ((s.tile tile).ctx k).maq.colOps col, (s.tile tile).markReady col q.1 q.2 (.sweep j) = true) → slot < 4 →
    ((s.tile tile).ctx k).maq.stages.find (4 * col + slot) = some o → (s.tile tile).ops.find (4 * col + slot) = some (.bins b true) →
    ∃ t, exec (.alignmentMarkerTaken tile col slot) s = .next t ∧ Slice0.Emits t tile col slot o b j ∧
      ((t.tile tile).col col).injected = .sweep j :: rest

/-- The control beats of a systolic region: SYSTOLIC_DESCRIPTOR_HANDSHAKE hands on the descriptor with the rectangle's identity, and nothing
while the tile does not know it; CONTROL_BEAT_CHECK gives a beat that is legal on every tile of the tile row to every cell there, read as
the raw bits that came in, and a beat that R150 refuses stops the region. That nothing is handed on while the identity is unknown, that the whole tile row takes the beat in one step,
and which fields the check holds to be unused are the model's readings, log entries 42, 41 and 40 (R107, R108, R149, R150, R439). -/
def Obligations.SystolicControl : Prop :=
  (∀ (tile col : Nat) (q p : SysAt) (s : State), Slice0.Works s tile col q → q.r.east ≠ 0 → q.r.south = 0 →
    (s.tile (tile + 1)).sysAt 0 = some p → (s.tile (tile + 1)).awaited 0 = false → p.run.west = none → p.run.north = none →
    q.run.left = false → p.run.left = false → descriptorMatches true q p = true →
    ∃ t, exec (.systolicDescriptorHandshake tile col) s = .next t ∧
      (identityOf s tile q = none → t = s) ∧
      ∀ own, identityOf s tile q = some own → ∃ run, (t.tile (tile + 1)).sysAt 0 = some { p with run := run } ∧
        run.west = some (own.1 + 1, own.2) ∧ run.north = none) ∧
  (∀ (tile col : Nat) (q : SysAt) (b : Beat) (s : State), (s.tile tile).sysAt col = some q → ctlHead s tile q = some b →
    (Ctl.of b.bits).ok q.w = true →
    (∀ u g l, (u, g, l) ∈ rowTiles s tile q → ∃ p, (s.tile u).sysAt g = some p ∧ (Ctl.of b.bits).ok p.w = true) →
    ∃ t, exec (.controlBeatCheck tile col) s = .next t ∧ ∀ u g l, (u, g, l) ∈ rowTiles s tile q → ∀ lane j, lane < 16 → j < 16 →
      g ≤ j → j ≤ l → ((t.tile u).cell lane j).ctl = ((s.tile u).cell lane j).ctl ++ [b]) ∧
  ∀ (tile col : Nat) (q : SysAt) (b : Beat) (s : State), (s.tile tile).sysAt col = some q → ctlHead s tile q = some b →
    (Ctl.of b.bits).ok q.w = false → q.r.first ≤ q.r.last → q.r.first < 16 →
    ((s.tile tile).ctx q.k).maq.regionOf q.r.first = some q.n →
    ∃ t, exec (.controlBeatCheck tile col) s = .next t ∧ ∀ j, q.r.first ≤ j → j ≤ q.r.last → j < 16 →
      ((t.tile tile).col j).stopped = true

/-- SYSTOLIC_STEP takes one A word and its B words into the cell's accumulator; ACCOP scales, adds to, copies or zeroes it; EMIT writes the
next beat of a capture to OUT; REGION_MARKER_TAKEN takes a DRAIN or MARK from every port and writes it to OUT, in the order of log entry
44 (R79–R81, R109, R110, R152–R159). -/
def Obligations.SystolicWork : Prop :=
  (∀ (tile lane col : Nat) (q : SysAt) (b : Beat) (o : Ctl) (a : Rec) (bs : List Rec) (s : State),
    cellHead s tile lane col = some (q, b, o) → o.op ≠ 3 → ((s.tile tile).cell lane col).done < o.run →
    aWord (s.tile tile) q lane col = some a → bWords (s.tile tile) q lane col (bCount q.w a) = some bs → stepFault q.w a bs = none →
    ∃ t, exec (.systolicStep tile lane col) s = .next t ∧
      (t.tile tile).acc = ((s.tile tile).setAcc lane col o.acci (Slice0.stepValue (s.tile tile) q lane col b o a bs)).acc ∧
      ((t.tile tile).cell lane col).done = ((s.tile tile).cell lane col).done + 1) ∧
  (∀ (tile lane col : Nat) (q : SysAt) (b : Beat) (o : Ctl) (s : State), cellHead s tile lane col = some (q, b, o) → o.op = 3 →
    ∃ t v, exec (.accop tile lane col) s = .next t ∧ Slice0.accopGives (s.tile tile) q lane col b o v ∧
      (t.tile tile).acc = ((s.tile tile).setAcc lane col o.acci v).acc) ∧
  (∀ (tile col : Nat) (q : SysAt) (b : Beat) (f : Fmt) (s : State), Slice0.Works s tile col q →
    q.w.out < 32 → ((s.tile tile).outPort q.w.out).length < 64 → Slice0.captureOf (s.tile tile) q.r = some b →
    (Ctl.of b.bits).target q.w.int32 = some f → (f = .fp32 ∧ q.w.int32 = false ∨ f = .int32 ∧ q.w.int32 = true) →
    (∀ c ∈ Slice0.emitColumns q, ((s.tile tile).cell (Slice0.emitLane q) c).cap.isSome = true) →
    ∃ t bt, exec (.emit tile col) s = .next t ∧ (t.tile tile).outPort q.w.out = (s.tile tile).outPort q.w.out ++ [bt] ∧
      bt.r.data = BitVec.ofNat 128 (((Slice0.emitColumns q).filterMap fun c => ((s.tile tile).cell (Slice0.emitLane q) c).cap).mapIdx
        fun j v => v.1.toNat * 2 ^ (32 * j)).sum ∧
      (bt.kind = 1 ↔ q.run.emitPos + 1 = 16 * ((q.r.last + 1 - q.r.first + 3) / 4) ∧ b.kind = 1)) ∧
  ∀ (tile col : Nat) (q : SysAt) (mk : Tok) (s : State), Slice0.Works s tile col q → Slice0.AtMarker s tile q mk →
    ∃ t, exec (.regionMarkerTaken tile col) s = .next t ∧
      (t.tile tile).outPort q.w.out = (s.tile tile).outPort q.w.out ++ markBeat mk ∧
      ∀ p ∈ q.w.inPorts (some q.r), p < 32 → (t.tile tile).inPort p = ((s.tile tile).inPort p).takeN p 1

/-- MAQLD_COMPLETE: a maquette that passes every check stands in its context, LOADED with SR key 0; one whose header is none that R48
allows leaves the context EMPTY and MAQUETTE_FAULT pending at the station (R48, R76, R101, R164). -/
def Obligations.LoadCompletes : Prop :=
  (∀ (tile ctx nreg nword mask : Nat) (l : Load) (f : Frieze) (w : Dword) (ws : List Dword) (m : Maq) (s : State),
    Slice0.Loads s tile ctx l f w → mqHeader w l.avail.toNat = some (nreg, nword, mask) →
    loadWords s f.job tile l.form (formAddr l.form + 8) 1 (nword - 1) = .ok ws → buildMaq nreg mask (w :: ws) = some m →
    m.onDie tile = true → (s.tile tile).conflicts l.fz m = false →
    ∃ t, exec (.maqldComplete tile ctx) s = .next t ∧ ((t.tile tile).ctx ctx).state = .loaded ∧ ((t.tile tile).ctx ctx).maq = m ∧
      ((t.tile tile).ctx ctx).owner = ((s.tile tile).ctx ctx).owner ∧ ((t.tile tile).ctx ctx).key = 0 ∧
      ((t.tile tile).ctx ctx).load = none) ∧
  ∀ (tile ctx : Nat) (l : Load) (f : Frieze) (x : Station) (w : Dword) (s : State), Slice0.Loads s tile ctx l f w →
    f.stations[l.st]? = some x → mqHeader w l.avail.toNat = none →
    ∃ t y, exec (.maqldComplete tile ctx) s = .next t ∧ ((t.tile tile).ctx ctx).state = .empty ∧ t.station? l.fz l.st = some y ∧
      ∃ p ∈ y.faults, p.cause = 0x0A

namespace Sys2Proof.Slice0

/-! ### Versioned memory, requests and the scheduler -/

/-- The frieze that owns a record, where one does, has not ended (R258). -/
def kept (s : State) (r : TxRec) : Prop := ∀ o, r.ownerFz = some o → ∃ f, s.friezes.find o = some f ∧ f.state ≠ .ended

/-- A record as a commit request finds it (R258, R274). -/
structure Asks (s : State) (job dom txid : Nat) (d : Domain) (r : TxRec) : Prop where
  ready : commitReady s job dom txid = true
  dom : s.dom? job dom = some d
  rec_ : d.recs.find txid = some r
  kept : kept s r

/-- What a low-water mark leaves of a line's older versions: they are given up from the first that has a newer one numbered at or below
the mark (R267). -/
def survivors (lwm : BitVec 48) (c c' : Chain) : Prop :=
  let ns := c.number :: c'.older.map (·.1)
  ∃ gone, c.older = c'.older ++ gone ∧ (∀ n ∈ ns.dropLast, lwm.toNat < n.toNat) ∧
    (gone ≠ [] → ∃ n, ns.getLast? = some n ∧ n.toNat ≤ lwm.toNat)

/-- A request of a frieze that stands on its span, not yet served, with no access and no request to the same unit before it to wait for
(R237, R270). -/
structure AtUnit (s : State) (k : Nat) (r : Req) (f : Frieze) (x : Station) : Prop where
  req : s.reqs.find k = some r
  ready : r.waits = []
  fresh : r.res = none
  alone : r.behind s k = false
  fz : At s r.fz r.st f x
  on : f.state = .resident

/-- The home of a domain can be reached (R271). -/
def homeUp (s : State) (r : Req) (dom : Nat) : Prop := s.reachable (homeOf s r.job dom) = true

/-- What a SNAP or TXBEGIN gives up first: the registration of the view it writes, and for TXBEGIN the finished record that view names
(R271, R272). -/
def givenUp (s : State) (r : Req) (v : BitVec 3) (txn : Bool) : State :=
  let w := headView s r.fz v
  let s0 := if txn && (((viewRec s r.job w).map fun x => ownedBy x r.fz).getD false) then s.freeRec r.job (datumDom w.datum) w.txid.toNat else s
  if w.live then s0.unregister r.job r.fz v.toNat else s0

/-- Where the home puts the next entry of a list: its area, its address, and whether the forwarding slot it may need is free (R344,
R356). -/
def entryForm (w : WorkList) : Dword := if w.size < w.resRoom then w.res else w.spill
def entryAt (w : WorkList) : Int := if w.size < w.resRoom then w.resAt w.pushed else w.spillAt w.pushed
def entryGo (s : State) (r : Req) (w : WorkList) : Prop :=
  w.resRoom ≤ w.size → (s.forward (homeNode s r.job w) 0 r.uid).1 = true

/-- A forwarding slot as its response leaves it: granted to the re-send of the oldest source whose access goes on, 16 c-cycles after
its last RETRY (R357). -/
def granted (s : State) (n m : FwdNode) : Prop :=
  let l := n.listed.filter fun p => s.underWay p.1
  m.taken = l.head?.map (·.1) ∧ m.granted = l.head?.map (·.2 + 16) ∧ m.listed = l.tail ∧
    m.refused = n.refused.filter fun p => s.underWay p.1

/-- The completion entry of a record: sequence number, transaction code, cause and state (R334). -/
def entryOf (seq : Word) (txcode cause state : Nat) : Dword :=
  seq ++ BitVec.ofNat 8 txcode ++ BitVec.ofNat 8 cause ++ BitVec.ofNat 16 state

/-- The beats that hand over some entries of w bytes: packed, the last filled with zeros and marked EOS; one bare EOS for none (R18, R22,
R346). -/
def entryBeat (w : Nat) (es : List (Dword × Bool)) (j : Nat) : RawBeat :=
  let now := (es.drop (16 / w * j)).take (16 / w)
  if es = [] then { kind := 3, data := 3, side := 0, poison := false }
  else { kind := if es.length ≤ 16 / w * (j + 1) then 1 else 0
         data := bvOf 128 (now.flatMap fun e => (bytesOf e.1).take w), side := 0, poison := now.any (·.2) }
def entryBeats (w : Nat) (es : List (Dword × Bool)) : List RawBeat := (List.range (max 1 ((es.length * w + 15) / 16))).map (entryBeat w es)

/-- What a message must be to reach a dispatch of the configuration in force: of its job, from another member at its module, and of no
dispatch that has ended (R278). -/
structure Belongs (g : Engine) (c : ErCfg) (m : ExchangeMsg) : Prop where
  cfg : g.cfg = some c
  job : m.job = g.job
  config : m.config = (g.configs.find m.job).getD 0
  member : m.member ≠ c.me
  site : (c.members[m.member]?).map (·.1) = some m.src
  number : g.count ≤ m.number + 1

end Sys2Proof.Slice0

/-- COMMIT_REQUEST moves an ACTIVE record with intents to COMMITTING under the next commit number, finishes one without intents with
code 1, one for which no number is left with code 6, and a DOOMED one with its own code; PUBLISH at a controller marks the record's
intents there and acknowledges; COMMIT_COMPLETE makes every intent the version in place and finishes the record with code 1; a commit
refused, or one whose home cannot reach a controller, is voided with code 3 or 6. What a home on another module reaches is the model's
choice, log entry 108 (R253, R256, R258, R262, R264, R274). -/
def Obligations.CommitEvents : Prop :=
  (∀ (job dom txid : Nat) (d : Domain) (r : TxRec) (s : State), Slice0.Asks s job dom txid d r → r.state = .active → r.ctrls ≠ [] →
    d.counter.extractLsb' 0 42 ≠ (-1 : BitVec 42) →
    ∃ t d', exec (.commitRequest job dom txid) s = .next t ∧ t.dom? job dom = some d' ∧ d'.counter = d.counter + 1 ∧
      d'.recs.find txid = some { r with state := .committing, code := 0, cnum := d.counter + 1, acked := [], sent := true }) ∧
  (∀ (job dom txid : Nat) (d : Domain) (r : TxRec) (s : State), Slice0.Asks s job dom txid d r →
    (r.state = .doomed ∨ r.state = .active ∧ (r.ctrls = [] ∨ d.counter.extractLsb' 0 42 = (-1 : BitVec 42))) →
    ∃ t, exec (.commitRequest job dom txid) s = .next t ∧
      t.rec? job dom txid = some { r with
        state := .finished
        code := if r.state = .doomed then r.code else if r.ctrls = [] then 1 else 6
        cnum := 0 }) ∧
  (∀ (job dom txid ctrl : Nat) (r : TxRec) (s : State), s.rec? job dom txid = some r → r.state = .committing → ctrl ∈ r.ctrls →
    ctrl ∉ r.acked → ctrl ∉ r.refusedBy → s.homeReaches job dom (ctrl / 16) = true →
    ∃ t, exec (.publish job dom txid ctrl) s = .next t ∧ t.rec? job dom txid = some { r with acked := r.acked ++ [ctrl] } ∧
      ∀ l c i, s.chains.find l = some c → c.intent = some i → c.job = job → c.dom = dom → i.txid = txid → lineCtrl l = ctrl →
        t.chains.find l = some { c with intent := some { i with publishing := some r.cnum } }) ∧
  (∀ (job dom txid : Nat) (d : Domain) (r : TxRec) (s : State), s.dom? job dom = some d → d.recs.find txid = some r →
    Slice0.kept s r → r.state = .committing → r.refusedBy = [] → (∀ m ∈ r.ctrls, m ∈ r.acked) → s.hbm.wf →
    (∀ p ∈ s.chains, ∀ j, p.2.intent = some j → j.bytes.length = 128) →
    ∃ t d', exec (.commitComplete job dom txid) s = .next t ∧ t.dom? job dom = some d' ∧
      d'.recs.find txid = some { r with state := .finished, code := 1 } ∧
      (d.settled = [] → r.cnum = d.published + 1 → d'.published = r.cnum) ∧
      ∀ l c i, (∀ p ∈ s.chains, p.1 = l → p.2 = c) → s.chains.find l = some c → c.intent = some i → c.job = job → c.dom = dom →
        i.txid = txid →
        t.hbm.readBytes (128 * l) 128 = i.bytes ∧
        ∃ c', t.chains.find l = some c' ∧ c'.number = r.cnum ∧ c'.intent = none ∧ c'.older.tail = c.older ∧
          c'.older.head?.map (·.1) = some c.number) ∧
  ∀ (job dom txid : Nat) (r : TxRec) (s : State), s.rec? job dom txid = some r → Slice0.kept s r → r.state = .committing →
    (r.refusedBy ≠ [] ∨ ∃ m ∈ r.ctrls, s.homeReaches job dom (m / 16) = false ∧ m ∉ r.acked) →
    ∃ t, exec (.voidCommit job dom txid) s = .next t ∧
      t.rec? job dom txid = some { r with state := .finished, code := if r.refusedBy = [] then 6 else 3, cnum := 0 }

/-- LWM_BROADCAST: the low-water mark is the least datum held live, PUBLISHED where none is, and lines give up the versions no live datum
can read; POOL_WAIT_EXPIRY expires the oldest live datum and dooms the ACTIVE records that hold it with code 5 (R260, R266–R268). -/
def Obligations.ReclaimEvents : Prop :=
  (∀ (job dom : Nat) (d : Domain) (s : State), s.dom? job dom = some d →
    ∃ t, exec (.lwmBroadcast job dom) s = .next t ∧
      t.dom? job dom = some { d with lwm := lwmOf d, nextLwm := s.cycles.toNat + 65536 } ∧
      (∀ x ∈ liveDatums d, (lwmOf d).toNat ≤ x.toNat) ∧
      (lwmOf d ∈ liveDatums d ∨ (liveDatums d = [] ∧ lwmOf d = d.published)) ∧
      ∀ l c, s.chains.find l = some c → c.job = job → c.dom = dom →
        ∃ c', t.chains.find l = some c' ∧ c'.number = c.number ∧ c'.intent = c.intent ∧ Slice0.survivors (lwmOf d) c c') ∧
  ∀ (job dom ctrl t0 : Nat) (d : Domain) (j : Job) (x : BitVec 48) (s : State), s.dom? job dom = some d → s.job? job = some j →
    s.poolWaits job dom ctrl = true → d.waitSince.find ctrl = some t0 → t0 + j.poolWaitLimit.toNat ≤ s.cycles.toNat →
    oldestLive d = some x →
    ∃ t d', exec (.poolWaitExpiry job dom ctrl) s = .next t ∧ t.dom? job dom = some d' ∧
      d'.waitSince.find ctrl = some s.cycles.toNat ∧
      (∀ r ∈ d.regs, r.expired = false → x.toNat ≤ r.datum.toNat ∨
        some r.datum = ((shielded d).bind d.recs.find).map (·.datum)) ∧
      (∀ r ∈ d.regs, r.datum = x → { r with expired := true } ∈ d'.regs) ∧
      ∀ k r, d.recs.find k = some r → r.datum = x → r.state = .active →
        ∃ r', d'.recs.find k = some r' ∧ r'.state = .doomed ∧ r'.code = 5 ∧ r'.expired = true

/-- A forwarding slot takes the first request, lists the further sources up to 64 with the time of their RETRY, refuses more, and passes to
the oldest listed; saved routes not bound again within WAIT_LIMIT trap at the station they belong to with FABRIC_FAULT; a LAUNCH held on a
full ring that long ends with WAIT_TIMEOUT (R343, R356, R357, R362, R393, R397). -/
def Obligations.FabricEvents : Prop :=
  (∀ (node src : Nat) (n : FwdNode) (s : State), (s.nodes.find node).getD FwdNode.free = n → n.taken = none →
    ∃ t, exec (.retry node src) s = .next t ∧ t.nodes.find node = some { n with taken := some src, granted := some s.cycles.toNat }) ∧
  (∀ (node src x : Nat) (n : FwdNode) (s : State), s.nodes.find node = some n → n.taken = some x → x ≠ src →
    (∀ p ∈ n.listed, p.1 ≠ src) → (∀ p ∈ n.refused, p.1 ≠ src) →
    ∃ t, exec (.retry node src) s = .next t ∧ t.nodes.find node = some (if n.listed.length < 64
      then { n with listed := n.listed ++ [(src, s.cycles.toNat)] } else { n with refused := n.refused ++ [(src, s.cycles.toNat)] })) ∧
  (∀ (node src x u : Nat) (n : FwdNode) (s : State), s.nodes.find node = some n → n.taken = some x → x ≠ src → (src, u) ∈ n.listed →
    (∀ p ∈ n.listed, p.1 = src → p = (src, u)) → s.cycles.toNat < u + 16 →
    ∃ t, exec (.retry node src) s = .next t ∧ t.nodes.find node = some n) ∧
  (∀ (node : Nat) (n : FwdNode) (s : State), s.nodes.find node = some n → n.awaits s = false →
    ∃ t m, exec (.forwardingSlotFree node) s = .next t ∧ (t.nodes.find node).getD FwdNode.free = m ∧ Slice0.granted s n m) ∧
  (∀ (id st : Nat) (f : Frieze) (x : Station) (j : Job) (s : State), Slice0.At s id st f x → f.state = .resident → f.stop ≠ .freeze →
    f.trap = none → f.rebind ≠ [] → (∀ p ∈ f.rebind, p.1 % 512 / 32 = st) → s.jobs.find f.job = some j →
    f.resumeAt + j.waitLimit.toNat ≤ s.cycles.toNat →
    ∃ t, exec (.routeRebindTimeout id) s = .next t ∧ Slice0.Trapped t id st x ⟨0x0D, none, st, x.pos, 0, 0, 0⟩) ∧
  ∀ (k n t0 : Nat) (a : Dword) (v : View) (r : Req) (f : Frieze) (x : Station) (j : Job) (s : State), Slice0.AtUnit s k r f x →
    r.kind = .launch n a v (some t0) → s.jobs.find r.job = some j → t0 + j.waitLimit.toNat ≤ s.cycles.toNat →
    (s.queue n).full = true →
    ∃ t y, exec (.launchRingTimeout k) s = .next t ∧ t.station? r.fz r.st = some y ∧
      ∃ p ∈ y.faults, p.cause = 0x07 ∧ p.slot = none ∧ p.d0 = 0x0400000000000000 ||| BitVec.ofNat 64 n

/-- DISPATCH_EXCHANGE: an engine takes a message of another member of its group for the dispatch under way or a later one, and keeps one
for a configuration to come; one of a job that has ended, or from a module whose traffic is frozen for its job, is refused; DISPATCH_FAIL:
a dispatch whose exchange a lost link breaks ends with FAILED set and ROUTING_FAULT at its frieze, and one of which every member has told
its completion stands. What a message carries and that it is kept are the model's reading, log entry 26, that the completed dispatch
stands log entry 62 (R278, R283, R293, R295, R296, R378, R391). -/
def Obligations.DispatchEvents : Prop :=
  (∀ (die : Nat) (m : ExchangeMsg) (c : ErCfg) (j : Job) (s : State), die < 4 → s.job? m.job = some j → m.src ∉ j.blocked →
    (Slice0.Belongs (s.engine die) c m ∨ ((s.engine die).configs.find m.job).getD 0 < m.config) →
    ∃ t, exec (.dispatchExchange die m) s = .next t ∧
      t.engine die = { s.engine die with msgs := (s.engine die).msgs ++ [m] }) ∧
  (∀ (die : Nat) (m : ExchangeMsg) (s : State), (∀ j, s.job? m.job = some j → m.src ∈ j.blocked) →
    exec (.dispatchExchange die m) s = .next s) ∧
  (∀ (die k tk form : Nat) (choice rows : Dword) (c : ErCfg) (r : Req) (f : Frieze) (x : Station) (s : State), die < 4 →
    (s.engine die).cfg = some c → c.others ≠ [] → (s.engine die).queue.head? = some k → Slice0.AtUnit s k r f x →
    r.kind = .erdisp choice rows tk form → (s.engine die).state = .exchange →
    ∃ t y, exec (.dispatchFail die .linkLost) s = .next t ∧ (t.engine die).state = .ready ∧ (t.engine die).failed = true ∧
      (t.engine die).queue = (s.engine die).queue.erase k ∧ t.station? r.fz r.st = some y ∧
      ∃ p ∈ y.faults, p.cause = 0x0C) ∧
  ∀ (die : Nat) (c : ErCfg) (s : State), (s.engine die).cfg = some c → (s.engine die).state = .done →
    (∀ j ∈ c.others, 3 ≤ ((s.engine die).from (s.engine die).number j).length) → exec (.dispatchFail die .linkLost) s = .next s

/-- ENGINE_RESPONSE and WORKLIST_HOME_SERVE answer a request: SNAP takes a registration at PUBLISHED; TXBEGIN an ACTIVE record at it;
TXABORT ends an ACTIVE record with code 4; MCJOIN joins with status 0; WLPUSH writes an entry after the last, WLPOP hands the first ones
to an in-port as beats, and a list that is not there is a WORKLIST_FAULT. That the entries lie in RES and SPILL as in rings is the
model's choice, log entry 49, how registrations are counted log entry 94, and that TXBEGIN too waits for one log entry 113 (R18, R22, R257,
R258, R271, R272, R274, R344, R346, R348, R360). -/
def Obligations.RequestsAnswered : Prop :=
  (∀ (k dom : Nat) (v : BitVec 3) (r : Req) (f : Frieze) (x : Station) (d : Domain) (s : State), Slice0.AtUnit s k r f x →
    r.kind = .snap dom v → Slice0.homeUp s r dom → (Slice0.givenUp s r v false).dom? r.job dom = some d → d.regCount < 16384 →
    ∃ t d', exec (.engineResponse k) s = .next t ∧ t.dom? r.job dom = some d' ∧ ⟨r.fz, v.toNat, d.published, false, 1⟩ ∈ d'.regs) ∧
  (∀ (k dom : Nat) (v : BitVec 3) (r : Req) (f : Frieze) (x : Station) (d : Domain) (s : State), Slice0.AtUnit s k r f x →
    r.kind = .txbegin dom v false → Slice0.homeUp s r dom → (Slice0.givenUp s r v true).dom? r.job dom = some d → d.regCount < 16384 →
    d.recs.length < 4096 →
    ∃ t d' n q, exec (.engineResponse k) s = .next t ∧ t.dom? r.job dom = some d' ∧ d'.recs.find n = some q ∧ q.state = .active ∧
      q.datum = d.published ∧ q.age = d.published ∧ q.cl = false ∧ q.ownerFz = some r.fz ∧ q.ctrls = [] ∧
      ⟨r.fz, v.toNat, d.published, false, 1⟩ ∈ d'.regs) ∧
  (∀ (k dom txid : Nat) (v : BitVec 3) (r : Req) (f : Frieze) (x : Station) (q : TxRec) (s : State), Slice0.AtUnit s k r f x →
    r.kind = .txabort dom txid v → Slice0.homeUp s r dom → s.rec? r.job dom txid = some q → q.state = .active → Slice0.kept s q →
    ∃ t, exec (.engineResponse k) s = .next t ∧
      t.rec? r.job dom txid = some { q with state := .finished, code := 4, cnum := 0 }) ∧
  (∀ (k i g : Nat) (a : Reg) (r : Req) (f : Frieze) (x : Station) (s : State), Slice0.AtUnit s k r f x → r.kind = .mcjoin i g false →
    r.lane = none → r.dst = some a → (s.tile r.tile).member.find i = none → (groupMembers s r.job g).length < 64 →
    ∃ t y, exec (.engineResponse k) s = .next t ∧ (t.tile r.tile).member.find i = some (g, r.fz) ∧
      t.station? r.fz r.st = some y ∧ y.rg a = 0) ∧
  (∀ (k id : Nat) (v : Dword) (w : WorkList) (p : Place) (r : Req) (f : Frieze) (x : Station) (s : State), Slice0.AtUnit s k r f x →
    r.kind = .wlpush id v → s.list? r.job id = some w → w.size < w.cap → Slice0.entryGo s r w →
    elementCheck s r.job r.tile (Slice0.entryForm w) (Slice0.entryAt w) w.esz .write = .ok p → s.placeUp p = true → p.ver = none →
    (s.mem p.mem).wf →
    ∃ t, exec (.worklistHomeServe k) s = .next t ∧ t.list? r.job id = some { w with pushed := w.pushed + 1 } ∧
      t.bytesAt p w.esz = (bytesOf v).take w.esz ∧ SameBytesBut s t p w.esz) ∧
  (∀ (k id port n : Nat) (w : WorkList) (es : List (Dword × Bool)) (r : Req) (f : Frieze) (x : Station) (s : State),
    Slice0.AtUnit s k r f x → r.kind = .wlpop id port n → s.list? r.job id = some w → port < 32 →
    (n * w.esz + 15) / 16 ≤ ((s.tile r.tile).inPort port).free → w.size ≤ w.resRoom →
    takeEntries s r w w.popped (min n w.size) = .ok es → es.length = min n w.size → (w.esz = 4 ∨ w.esz = 8) →
    ∃ t w', exec (.worklistHomeServe k) s = .next t ∧ t.list? r.job id = some w' ∧ w'.popped = w.popped + min n w.size ∧
      w'.pushed = w.pushed ∧ SameBytes s t ∧
      let q := (s.tile r.tile).inPort port
      ((t.tile r.tile).inPort port).fifo = q.fifo ++ (Slice0.entryBeats w.esz es).mapIdx fun j b =>
        ⟨b.kind, enterRec q.binding port (q.srCount + BitVec.ofNat 64 j) b, b.data⟩) ∧
  ∀ (k id : Nat) (r : Req) (f : Frieze) (x : Station) (s : State), Slice0.AtUnit s k r f x → r.kind.listId = some id →
    (∀ d, r.kind ≠ .wlnew id d) → s.list? r.job id = none →
    (∀ a, r.kind = .wlcnt id a → ∃ p, elementCheck s r.job r.tile a (formAddr a) 8 .write = .ok p) →
    ∃ t y, exec (.worklistHomeServe k) s = .next t ∧ t.station? r.fz r.st = some y ∧ ∃ p ∈ y.faults, p.cause = 0x0E

/-- RECORD_CHECK refuses the record at a queue's front with its completion entry, or finds it good, once, and refuses
it later where a predecessor is refused (log entry 16); RECORD_START starts it with its first frieze;
PLACE_FRIEZE places a kernel's next frieze or stands a suspended one in its context again; PREEMPT stops the frieze the scheduler takes;
KERNEL_END writes the kernel's completion entry (R329, R332–R338). -/
def Obligations.SchedulerEvents : Prop :=
  (∀ (n j c : Nat) (q : Queue) (r : Record) (s : State), frontRecord s n = some (q, j, r) →
    (q.verdict = none ∧ refusal s n q j r = some c ∨ q.verdict = some 0 ∧ predRefused s r = true ∧ c = 4) → (q.started - q.done).toNat < 64 → s.hbm.wf →
    ∃ t, exec (.recordCheck n) s = .next t ∧ (t.queue n).started = q.started + 1 ∧ (t.queue n).verdict = none ∧
      q.started ∈ (t.queue n).refused ∧ (∀ u ∈ q.refused, q.future u = false → u ∈ (t.queue n).refused) ∧
      t.hbm.read64 (q.cbase + 16 * (q.started.toNat % 2 ^ q.cap)) = Slice0.entryOf q.started 0 c 2) ∧
  (∀ (n j : Nat) (q : Queue) (r : Record) (s : State), frontRecord s n = some (q, j, r) → refusal s n q j r = none → q.verdict = none →
    ∃ t, exec (.recordCheck n) s = .next t ∧ t.queue n = { q with verdict := some 0 } ∧ SameBytes s t) ∧
  (∀ (n j h slot : Nat) (q : Queue) (r : Record) (ps : List (Nat × Nat)) (s : State), frontRecord s n = some (q, j, r) →
    recordReady s n = true → chosen s = some (.record n q.started, (h, slot) :: ps) →
    ∃ t k x id f, exec (.recordStart n) s = .next t ∧ (t.queue n).started = q.started + 1 ∧ t.kernels.find k = some x ∧
      x.queue = n ∧ x.seq = q.started ∧ x.job = j ∧ x.entry = r.entry ∧ x.f = r.f ∧ x.l = r.l ∧ x.arg = r.arg ∧
      x.nextId = ps.length + 1 ∧ t.friezes.find id = some f ∧ f.kernel = k ∧ f.id = 0 ∧ f.head = h ∧ f.ctx = slot ∧
      f.entry = r.entry ∧ f.arg = r.arg ∧ f.state = .resident ∧ f.stations.length = r.l) ∧
  (∀ (k h slot : Nat) (q : Kernel) (ps : List (Nat × Nat)) (s : State), s.kernels.find k = some q →
    chosen s = some (.kernel k q.nextId, (h, slot) :: ps) →
    ∃ t id f, exec (.placeFrieze (2 ^ 32 + k)) s = .next t ∧ t.kernels.find k = some { q with nextId := q.nextId + 1 } ∧
      t.friezes.find id = some f ∧ f.kernel = k ∧ f.id = BitVec.ofNat 32 q.nextId ∧ f.head = h ∧ f.ctx = slot ∧ f.entry = q.entry ∧
      f.arg = q.arg ∧ f.state = .resident ∧ f.stations.length = q.l) ∧
  (∀ (id h slot : Nat) (f : Frieze) (p : Plan) (ps : List (Nat × Nat)) (s : State), id < 2 ^ 32 → s.friezes.find id = some f →
    f.state = .suspended → f.handlerOf = none → chosen s = some (.frieze id, (h, slot) :: ps) → planOf s (.frieze id) = some p →
    p.members.map (·.id) = [some id] →
    ∃ t g, exec (.placeFrieze id) s = .next t ∧ t.friezes.find id = some g ∧ g.state = .resident ∧ g.head = h ∧ g.ctx = slot ∧
      g.id = f.id ∧ g.kernel = f.kernel) ∧
  (∀ (id : Nat) (f : Frieze) (c : Cand) (vs : List Nat) (s : State), s.friezes.find id = some f → f.state = .resident → f.stop = .no →
    offPartition s f = false → wantedBy s id = some (c, vs) → id ∈ vs →
    ∃ t g, exec (.preempt id) s = .next t ∧ t.friezes.find id = some g ∧ g.stop = .preempt ∧ g.stations = f.stations) ∧
  ∀ (k : Nat) (q : Kernel) (s : State), s.kernels.find k = some q → q.isHandler = false → q.txn = false → q.f ≤ q.nextId →
    q.f ≤ q.exited → kernelBusy s k = false → s.hbm.wf →
    ∃ t, exec (.kernelEnd k) s = .next t ∧
      t.hbm.read64 ((s.queue q.queue).cbase + 16 * (q.seq.toNat % 2 ^ (s.queue q.queue).cap)) =
        Slice0.entryOf q.seq 0 (if q.byHandler then q.cause.toNat else 0) (if q.byHandler then 3 else 1) ∧
      (q.seq = (s.queue q.queue).done → (s.queue q.queue).doneMask = 0 → (t.queue q.queue).done = q.seq + 1) ∧
      ∀ p ∈ t.friezes, p.2.kernel ≠ k

/-- SAMPLE_INSTANT: the frieze to be sampled has its record written at the next place of its job's buffer, or counted as dropped where the
buffer is full (R323, R324). -/
def Obligations.SampleInstant : Prop :=
  (∀ (id : Nat) (f : Frieze) (j : Job) (b : SampleBuf) (ps : List (Place × Nat)) (s : State), sampled s = [id] →
    s.friezes.find id = some f → s.jobs.find f.job = some j → j.buf = some b → b.written < b.cap →
    rangeOf s f.job f.head (formAt b.base (formAddr b.base + 32 * b.written)) 32 .write = .ok ps →
    ∃ t j', exec .sampleInstant s = .next t ∧ t.jobs.find f.job = some j' ∧ j'.buf = some { b with written := b.written + 1 } ∧
      ∀ k a, (t.mem k).read a = ((s.scatter ps (sampleRecord s id f)).mem k).read a) ∧
  ∀ (id : Nat) (f : Frieze) (j : Job) (b : SampleBuf) (s : State), sampled s = [id] → s.friezes.find id = some f →
    s.jobs.find f.job = some j → j.buf = some b → b.cap ≤ b.written →
    ∃ t j', exec .sampleInstant s = .next t ∧ SameBytes s t ∧ t.jobs.find f.job = some j' ∧
      j'.buf = some { b with dropped := b.dropped + 1 }

namespace Sys2Proof.Slice0

/-! ### The host's commands (R387, R388, R438) -/

/-- A command whose turn it is, on a module in RUN: none is running, or it is the one that is and has not begun (R387, R438). -/
structure Serves (s : State) : Prop where
  turn : s.command = none ∨ s.serving = true
  run : s.boot = 2
  fresh : s.cmdWork = .fresh

/-- A command has finished with a STATUS: RESULT holds its tag, and the oldest that waits is next (R387). -/
def Finished (s t : State) (c : Cmd) (st : Nat) : Prop :=
  t.result = (c.tag, BitVec.ofNat 8 st) ∧ t.command = s.waiting.head? ∧ t.waiting = s.waiting.tail ∧ t.cmdWork = .fresh

/-- RSVD and the operands a command of n operands does not use are zero (R388). -/
def bare (c : Cmd) (n : Nat) : Prop := c.rsvd = 0 ∧ ∀ d ∈ c.operands.drop n, d = 0

/-- The command names a job of this module other than job 0. -/
def owned (s : State) (c : Cmd) : Prop := c.job ≠ 0 ∧ ∃ j, s.jobs.find c.j = some j

/-- A physical address of this module's HBM, a multiple of n. -/
def inHbm (s : State) (a : Dword) (n : Nat) : Prop :=
  a.toNat / 2 ^ 42 = s.moduleId.toNat ∧ a.toNat % 2 ^ 42 < 2 ^ 40 ∧ a.toNat % n = 0

/-- The queue, the domain, the port and the pair a command names. -/
def queueNo (c : Cmd) : Nat := c.d1.toNat % 2 ^ 16
def domNo (c : Cmd) : Nat := c.d1.toNat % 64
def pairNo (c : Cmd) : Nat := c.d1.toNat % 2 ^ 24

/-- The queue pair an ETH_QP command describes. -/
def pairOf (c : Cmd) : QueuePair :=
  { port := c.d1.toNat / 2 ^ 24, remote := c.d2.toNat % 2 ^ 24, psn := c.d2.toNat / 2 ^ 24,
    gid := c.d3.toNat + 2 ^ 64 * c.d4.toNat, udp := c.d5.toNat % 2 ^ 16, tclass := c.d5.toNat / 2 ^ 16 % 2 ^ 8,
    mtu := c.d5.toNat / 2 ^ 24, rate := c.d6.toNat, error := false }

/-- A command, what it requires, and what holds when it has finished with STATUS 0. -/
structure CmdRow where
  cmd : Cmd
  good : State → Prop
  effect : State → State → Prop

/-- A cast command as R387 requires it: its segments are whole pages, and its queue pair is the job's. -/
def casts (s : State) (c : Cmd) : Prop :=
  bare c 5 ∧ c.d1.toNat < 2 ^ 52 ∧ c.d3.toNat < 2 ^ 24 ∧ c.d5.toNat < 2 ^ 32 ∧ owned s c ∧ 1 ≤ c.d2.toNat ∧ c.d2.toNat ≤ 256 ∧
    inHbm s c.d1 1 ∧ (∀ p ∈ segments s c.d1.toNat c.d2.toNat, p.1 % 65536 = 0 ∧ p.2 % 65536 = 0 ∧ p.1 + p.2 ≤ 2 ^ 55) ∧
    ∀ j, s.jobs.find c.j = some j → ∃ q, j.qps.find c.d3.toNat = some q

/-- The cast engine's work is the command's. -/
structure CastsAs (s : State) (c : Cmd) (w : CastWork) : Prop where
  job : w.job = c.j
  list : w.segments = segments s c.d1.toNat c.d2.toNat
  pair : w.qpn = c.d3.toNat
  remote : w.addr = c.d4.toNat ∧ w.rkey = c.d5.toNat

/-- The job of a command changed, and no other. -/
def jobBecomes (c : Cmd) (g : Job → Job) (s t : State) : Prop :=
  (∀ j, s.jobs.find c.j = some j → t.jobs.find c.j = some (g j)) ∧ ∀ k, k ≠ c.j → t.jobs.find k = s.jobs.find k

/-- The commands that act on jobs, their partitions and their registers (R367–R369, R375, R387). -/
def jobRow : Instr → Option CmdRow
  | .jobCreate c => some ⟨c, fun s => bare c 2 ∧ c.d1.toNat < 2 ^ 52 ∧ c.d2.toNat < 2 ^ 20 ∧ c.job ≠ 0 ∧ s.jobs.find c.j = none ∧
      inHbm s c.d1 65536 ∧ inBox (c.d2.setWidth 20) s.moduleId.toNat = true ∧
      s.boxFits (c.d2.setWidth 20) = true,
    fun _ t => ∃ j, t.jobs.find c.j = some j ∧ j.troot.toNat = c.d1.toNat ∧ j.mbox.toNat = c.d2.toNat ∧ j.partition = [] ∧
      j.banks = [] ∧ j.trapVec = 0 ∧ j.waitLimit = 0x100000000 ∧ j.poolWaitLimit = 0x10000000 ∧ j.smpPeriod = 0 ∧ j.mq = none⟩
  | .jobKill c => some ⟨c, fun s => bare c 0 ∧ owned s c, fun s t =>
      (∀ p ∈ t.friezes, p.2.job ≠ c.j) ∧ (∀ p ∈ t.kernels, p.2.job ≠ c.j) ∧ (∀ p ∈ t.reqs, p.2.job ≠ c.j) ∧
      (∀ n q, t.queues.find n = some q → q.job ≠ some c.j) ∧ (Tab.Sorted s.jobs → t.jobs.find c.j = none)⟩
  | .setPartition c =>
    let l s := (readList s c.d1.toNat c.d2.toNat).map spanOf
    some ⟨c, fun s => bare c 2 ∧ c.d1.toNat < 2 ^ 52 ∧ owned s c ∧ c.d2.toNat ≤ 1024 ∧ inHbm s c.d1 2 ∧
      (∀ e ∈ readList s c.d1.toNat c.d2.toNat, e < 32768) ∧ badSpans s c.j (l s) = false ∧ stillThere s c.j (l s) = false,
    fun s t => (∃ j, t.jobs.find c.j = some j ∧ j.partition = l s) ∧ ∀ p ∈ l s, ∀ k, k < p.2 → (t.tile (p.1 + k)).job = some c.j⟩
  | .setShared c =>
    let bs s := readList s c.d1.toNat c.d2.toNat
    some ⟨c, fun s => bare c 2 ∧ c.d1.toNat < 2 ^ 52 ∧ owned s c ∧ c.d2.toNat ≤ 512 ∧ inHbm s c.d1 2 ∧ (bs s).Nodup ∧
      (∀ p ∈ s.jobs, p.1 ≠ c.j → ∀ b ∈ p.2.banks, b ∉ bs s) ∧ (∀ p ∈ s.kernels, p.2.job ≠ c.j) ∧ ∀ b ∈ bs s, b < 512,
    fun s t => (∃ j, t.jobs.find c.j = some j ∧ j.banks = bs s) ∧ ∀ b ∈ bs s, t.bankJob.find b = some c.j ∧
      ∀ k, s.bankJob.find b = some k → k ≠ c.j → ∀ a, a < 2 ^ 20 → t.sram.read (b * 2 ^ 20 + a) = 0⟩
  | .setJobreg c => some ⟨c, fun s => bare c 4 ∧ c.d1.toNat % 2 ^ 12 = 0 ∧ c.d4.toNat < 2 ^ 32 ∧ owned s c,
    jobBecomes c fun j => { j with trapVec := c.d1, waitLimit := c.d2, poolWaitLimit := c.d3, smpPeriod := BitVec.ofNat 32 c.d4.toNat }⟩
  | .invalidate c => some ⟨c, fun s => bare c 2 ∧ c.d1.toNat < 2 ^ 55 ∧ owned s c ∧ c.d1.toNat + c.d2.toNat ≤ 2 ^ 55,
    fun s t => ∀ j, s.jobs.find c.j = some j → ∃ j', t.jobs.find c.j = some j' ∧ (∀ r ∈ j'.owners, r ∈ j.owners) ∧
      ∀ r ∈ j.owners, (r.shared = true ∨ r.va + r.len ≤ c.d1.toNat ∨ c.d1.toNat + c.d2.toNat ≤ r.va) → r ∈ j'.owners⟩
  | .mqSet c => some ⟨c, fun s => bare c 2 ∧ c.d1.toNat < 2 ^ 52 ∧ owned s c ∧ inHbm s c.d1 32 ∧ 4 ≤ c.d2.toNat ∧ c.d2.toNat ≤ 20,
    jobBecomes c fun j => { j with mq := some ⟨c.d1.toNat, c.d2.toNat⟩ }⟩
  | .ctxPool c => some ⟨c, fun s => bare c 2 ∧ c.d1.toNat < 2 ^ 55 ∧ owned s c ∧
      (∀ j, s.jobs.find c.j = some j → j.poolUsed = []) ∧ c.d1.toNat % 65536 = 0 ∧ c.d2.toNat ≤ 65536,
    jobBecomes c fun j => { j with poolBase := c.d1.toNat, poolCount := c.d2.toNat }⟩
  | .ethKey c => some ⟨c, fun s => bare c 4 ∧ c.d1.toNat < 2 ^ 24 ∧ c.d2.toNat < 2 ^ 55 ∧ c.d4.toNat < 4 ∧ owned s c ∧
      c.d2.toNat + c.d3.toNat ≤ 2 ^ 55 ∧ c.d3 ≠ 0 ∧
      (keyJob s c.d1.toNat = some c.j ∨ keyJob s c.d1.toNat = none ∧ Config.keyRoom s.keyCount = true),
    jobBecomes c fun j => { j with keys := j.keys.put c.d1.toNat ⟨c.d2.toNat, c.d3.toNat, c.d4.getLsbD 0, c.d4.getLsbD 1⟩ }⟩
  | .ethQp c => some ⟨c, fun s => bare c 6 ∧ c.d1.toNat < 2 ^ 27 ∧ c.d1.toNat / 2 ^ 24 ≤ 5 ∧ c.d2.toNat < 2 ^ 48 ∧
      c.d5.toNat < 2 ^ 27 ∧ 1 ≤ c.d5.toNat / 2 ^ 24 ∧ c.d5.toNat / 2 ^ 24 ≤ 5 ∧ owned s c ∧
      (pairJob s (pairNo c) = some c.j ∨ pairJob s (pairNo c) = none ∧ Config.pairRoom s.pairCount = true),
    jobBecomes c fun j => { j with qps := j.qps.put (pairNo c) (pairOf c) }⟩
  | _ => none

/-- The commands on queues, domains, masters and casts (R252, R253, R329, R377, R378, R387, R409, R411). -/
def workRow : Instr → Option CmdRow
  | .queueSet c => some ⟨c, fun s => bare c 4 ∧ c.d1.toNat < 2 ^ 26 ∧ c.d2.toNat < 2 ^ 52 ∧ c.d3.toNat < 2 ^ 52 ∧ owned s c ∧
      (∀ k, (s.queue (queueNo c)).job = some k → k = c.j ∨ s.jobs.find k = none) ∧
      ((s.queue (queueNo c)).appended = (s.queue (queueNo c)).done ∨
        (s.queue (queueNo c)).base = c.d2.toNat ∧ (s.queue (queueNo c)).cap = c.d4.toNat) ∧
      inHbm s c.d2 64 ∧ inHbm s c.d3 16 ∧ 4 ≤ c.d4.toNat ∧ c.d4.toNat ≤ 20,
    fun s t =>
      let q := s.queue (queueNo c)
      let r := t.queue (queueNo c)
      r.job = some c.j ∧ r.enable = c.d1.getLsbD 16 ∧ r.prio = c.d1.toNat / 2 ^ 17 % 8 ∧ r.vdom = c.d1.toNat / 2 ^ 20 % 64 ∧
      r.base = c.d2.toNat ∧ r.cbase = c.d3.toNat ∧ r.cap = c.d4.toNat ∧
      (q.base = c.d2.toNat ∧ q.cap = c.d4.toNat → r.appended = q.appended ∧ r.started = q.started ∧ r.done = q.done ∧ r.ovf = q.ovf) ∧
      (¬(q.base = c.d2.toNat ∧ q.cap = c.d4.toNat) → r.appended = 0 ∧ r.started = 0 ∧ r.done = 0 ∧ r.ovf = 0)⟩
  | .queueReset c => some ⟨c, fun s => bare c 1 ∧ c.d1.toNat < 2 ^ 16 ∧ owned s c ∧ s.hbm.wf ∧
      (s.queue (queueNo c)).job = some c.j ∧ ((s.queue (queueNo c)).started - (s.queue (queueNo c)).done).toNat < 64 ∧
      (s.queue (queueNo c)).appended = (s.queue (queueNo c)).started + 1,
    fun s t =>
      let q := s.queue (queueNo c)
      (t.queue (queueNo c)).started = q.appended ∧ q.started ∈ (t.queue (queueNo c)).refused ∧
      t.hbm.read64 (q.cbase + 16 * (q.started.toNat % 2 ^ q.cap)) = entryOf q.started 0 6 2⟩
  | .domainSet c => some ⟨c, fun s => bare c 3 ∧ c.d1.toNat < 2 ^ 16 ∧ c.d2.toNat < 2 ^ 52 ∧ owned s c ∧ inHbm s c.d2 128 ∧
      ∀ d, s.dom? c.j (domNo c) = some d → d.home = c.d1.toNat / 64,
    fun s t => ∃ d, t.dom? c.j (domNo c) = some d ∧ d.home = c.d1.toNat / 64 ∧ d.poolBase = c.d2.toNat ∧ d.poolSize = c.d3.toNat ∧
      (s.dom? c.j (domNo c) = none → d.counter.toNat = domNo c * 2 ^ 42 ∧ d.published.toNat = domNo c * 2 ^ 42 ∧ d.recs = [] ∧
        d.regs = []) ∧
      ∀ d0, s.dom? c.j (domNo c) = some d0 → d.counter = d0.counter ∧ d.published = d0.published ∧ d.recs = d0.recs ∧ d.regs = d0.regs⟩
  | .freezeCmd c => some ⟨c, fun s => bare c 1 ∧ owned s c ∧ descBad s c.d1 = false ∧ descJob c.d1 = c.j ∧ descKind c.d1 = 4 ∧
      (s.queue (queueNo c)).job = some c.j,
    fun s t => t.queue (queueNo c) = { s.queue (queueNo c) with frozen := true }⟩
  | .thawCmd c => some ⟨c, fun s => bare c 1 ∧ owned s c ∧ descBad s c.d1 = false ∧ descJob c.d1 = c.j ∧ descKind c.d1 = 4 ∧
      (s.queue (queueNo c)).job = some c.j,
    fun s t => t.queue (queueNo c) = { s.queue (queueNo c) with frozen := false }⟩
  | .cast c => some ⟨c, fun s => casts s c ∧ s.castWork = none, fun s t =>
      (∃ w, t.castWork = some w ∧ CastsAs s c w ∧ w.restore = false) ∧
      ∀ k d, k < 64 → s.domains.find (domKey c.j k) = some d → (∀ p ∈ s.domains, p.1 = domKey c.j k → p.2 = d) →
        ∃ d', t.dom? c.j k = some d' ∧ ∃ r ∈ d'.regs, r.datum = d.published ∧ r.expired = false⟩
  | .restore c => some ⟨c, fun s => casts s c ∧ s.castWork = none ∧
      ∀ k ∈ namedDomains s c.j (segments s c.d1.toNat c.d2.toNat), ∀ d, s.dom? c.j k = some d → d.regs = [] ∧ d.recs = [],
    fun s t => ∃ w, t.castWork = some w ∧ CastsAs s c w ∧ w.restore = true⟩
  | _ => none

/-- The commands on the module as a whole (R350–R352, R386, R387, R390, R413, R433). -/
def moduleRow : Instr → Option CmdRow
  | .aperture c => some ⟨c, fun s => bare c 2 ∧ c.d1.toNat % 65536 = 0 ∧
      (c.d2 = 1 ∧ c.job = 0 ∧ c.d1.toNat < 2 ^ 52 ∧ inHbm s c.d1 65536 ∨ c.d2 = 0 ∧ owned s c ∧ c.d1.toNat < 2 ^ 55),
    fun _ t => t.apBase = c.d1.toNat ∧ t.apJob = c.j ∧ t.apPhys = c.d2.getLsbD 0⟩
  | .scrub c => some ⟨c, fun s => bare c 2 ∧ c.d1.toNat < 2 ^ 52 ∧ c.job = 0 ∧ inHbm s c.d1 65536 ∧ c.d2.toNat % 65536 = 0 ∧
      c.d1.toNat % 2 ^ 42 + c.d2.toNat ≤ 2 ^ 40,
    fun s t => ∀ a, t.hbm.read a = if c.d1.toNat ≤ a ∧ a < c.d1.toNat + c.d2.toNat then 0 else s.hbm.read a⟩
  | .torusSet c =>
    let torus := (c.d1.toNat % 16 + 1, c.d1.toNat / 16 % 8 + 1, c.d1.toNat / 128 % 8 + 1)
    some ⟨c, fun s => bare c 1 ∧ c.d1.toNat < 2 ^ 20 ∧ c.job = 0 ∧ (∀ p ∈ s.jobs, p.1 = 0) ∧
      { s with torus := torus }.inGrid (c.d1.toNat / 1024) = true,
    fun s t => t.torus = torus ∧ t.moduleId.toNat = c.d1.toNat / 1024 ∧
      ∀ a, a < 2 ^ 42 → t.hbm.read (2 ^ 42 * t.moduleId.toNat + a) = s.hbm.read (2 ^ 42 * s.moduleId.toNat + a)⟩
  | .linkTrain c => some ⟨c, fun _ => bare c 1 ∧ c.d1.toNat < 24 ∧ c.job = 0, fun s t =>
      (Config.freeBit s.free = false → c.d1.toNat ∈ t.portsLost) ∧
      let id := Config.freeNat (s.free + 1) % 1024
      let dir := Config.freeNat (s.free + 1) / 1024 % 6
      (Config.freeBit s.free = true → id = neighbour s c.d1.toNat → dir = Nat.xor (c.d1.toNat / 4) 1 →
        c.d1.toNat ∈ t.portsTrained ∧ c.d1.toNat ∉ t.portsLost ∧ c.d1.toNat ∉ t.portsFailed) ∧
      (Config.freeBit s.free = true → ¬(id = neighbour s c.d1.toNat ∧ dir = Nat.xor (c.d1.toNat / 4) 1) → c.d1.toNat ∈ t.portsFailed)⟩
  | .attest c => some ⟨c, fun s => bare c 2 ∧ c.d1.toNat < 2 ^ 52 ∧ c.d2.toNat < 2 ^ 52 ∧ c.job = 0 ∧ inHbm s c.d1 1 ∧
      inHbm s c.d2 64 ∧ s.hbm.wf,
    fun s t => t.hbm.read64 c.d2.toNat = 0x0840A77E00000001 ∧
      t.hbm.readBytes (c.d2.toNat + 8) 32 = s.hbm.readBytes c.d1.toNat 32 ∧
      ∃ body, t.hbm.readBytes c.d2.toNat 2088 = body ∧ t.hbm.readBytes (c.d2.toNat + 2088) 3309 = fit 3309 (Config.signature body)⟩
  | .lifetime c => some ⟨c, fun s => bare c 1 ∧ c.d1.toNat < 2 ^ 52 ∧ c.job = 0 ∧ inHbm s c.d1 4096 ∧ s.hbm.wf,
    fun s t => t.hbm.read64 c.d1.toNat = 0x08401F3E00000001 ∧
      t.hbm.read64 (c.d1.toNat + 16) = BitVec.ofNat 64 s.life.hours ∧
      t.hbm.read64 (c.d1.toNat + 24) = BitVec.ofNat 64 s.life.clamps⟩
  | .power c => some ⟨c, fun s => bare c 2 ∧ c.d1.toNat < 2 ∧ c.d2.toNat < 16 ∧ c.job = 0 ∧ (c.d1 = 1 → s.kernels = []) ∧
      Config.minVstep.toNat ≤ c.d2.toNat ∧ s.clamp = false,
    fun s t => t.standby = c.d1.getLsbD 0 ∧ t.vstep.toNat = c.d2.toNat ∧
      (c.d1 = 1 → s.standby = false → ∀ p ∈ t.tiles, p.2.mem = Memory.empty ∧ p.2.e = Vector.replicate 32 0)⟩
  | _ => none

/-- Every command that one turn can finish. -/
def commandRow (i : Instr) : Option CmdRow := (jobRow i).or ((workRow i).or (moduleRow i))

end Sys2Proof.Slice0

/-- A host command whose operands and job are as R387 requires runs in its turn: it finishes with STATUS 0 under its tag, with its effect,
and the next that waits is taken up. Whether a LINK_TRAIN trains its port, and what the far end reports, are open values, log entry 63;
that INVALIDATE acts at once, that SET_SHARED with no bank is allowed, what QUEUE_RESET discards, that TORUS_SET renames this module's HBM
and the doublewords of ATTEST and LIFETIME rest on log entries 22, 65, 66, 67 and 68 (R350, R368-R369, R375, R378, R386, R387, R390, R408,
R409, R411, R413, R433). -/
def Obligations.CommandsComplete : Prop :=
  ∀ (i : Instr) (w : Slice0.CmdRow) (s : State), Slice0.commandRow i = some w → Slice0.Serves s → w.good s →
    ∃ t, exec i s = .next t ∧ Slice0.Finished s t w.cmd 0 ∧ w.effect s t

/-- A command with a reserved field set, or of a reserved OP, ends with BADCMD and nothing else happens; one that comes while another
runs waits, up to 64 of them, and is counted beyond; FW_LOAD takes an image whose signature verifies and whose security version is at or
above the fused minimum, all three open values, log entry 6, and answers BADARG to any other; in its next turn, log entry 72, flash holds
the image and bring-up begins again (R387–R389, R438). -/
def Obligations.CommandTurns : Prop :=
  (∀ (i : Instr) (w : Slice0.CmdRow) (s : State), Slice0.commandRow i = some w → Slice0.Serves s → w.cmd.rsvd ≠ 0 →
    ∃ t, exec i s = .next t ∧ Slice0.Finished s t w.cmd 1 ∧ t.jobs = s.jobs ∧ t.queues = s.queues ∧ t.domains = s.domains ∧
      SameBytes s t) ∧
  (∀ (op : BitVec 8) (c : Cmd) (s : State), Slice0.Serves s →
    ∃ t, exec (.reservedOpCommand op c) s = .next t ∧ Slice0.Finished s t c 1 ∧ t.jobs = s.jobs ∧ t.queues = s.queues ∧
      t.domains = s.domains ∧ SameBytes s t) ∧
  (∀ (i : Instr) (w : Slice0.CmdRow) (s : State), Slice0.commandRow i = some w → s.command ≠ none → s.serving = false →
    ∃ t, exec i s = .next t ∧ (s.waiting.length < 64 → t = { s with waiting := s.waiting ++ [i] }) ∧
      (64 ≤ s.waiting.length → t = { s with cmdOvf := s.cmdOvf + 1 })) ∧
  (∀ (c : Cmd) (s : State), Slice0.Serves s → Slice0.bare c 2 → c.job = 0 → (∀ p ∈ s.jobs, p.1 = 0) → c.d2.toNat < 2 ^ 52 →
    4096 ≤ c.d1.toNat → c.d1.toNat ≤ 2 ^ 26 → Slice0.inHbm s c.d2 65536 → c.d2.toNat % 2 ^ 42 + c.d1.toNat ≤ 2 ^ 40 →
    ∃ t, exec (.fwLoad c) s = .next t ∧
      (firmwareAccepted (s.hbm.readBytes c.d2.toNat c.d1.toNat) = true → t.command = some (.fwLoad c) ∧ t.result = s.result ∧
        t.cmdWork = .flash (s.hbm.readBytes c.d2.toNat c.d1.toNat)) ∧
      (firmwareAccepted (s.hbm.readBytes c.d2.toNat c.d1.toNat) = false → Slice0.Finished s t c 6 ∧ t.flash = s.flash)) ∧
  ∀ (c : Cmd) (image : List Byte) (s : State), s.serving = true → s.boot = 2 → s.cmdWork = .flash image →
    ∃ t, exec (.fwLoad c) s = .next t ∧ Slice0.Finished s t c 0 ∧ t.flash = image ∧ t.flashBroken = false ∧ t.boot = 0

/-- HOST_APPEND stores a record of an enabled queue with room and counts it otherwise; the aperture reads and writes HBM in physical mode
and the staging memory while the ROM serves; CAST_END writes the image and sets the engine free; a peer's RDMA write and read reach what
its key allows, and a refused one puts its queue pair in error (log entry 75); a dropped packet is counted. That a cast's image leaves in
one step is the model's reading, log entry 69 (R329, R330, R365, R366, R386, R409, R411, R438). -/
def Obligations.OutsideEvents : Prop :=
  (∀ (n : Nat) (record : List Dword) (q : Queue) (s : State), s.queue n = q → q.enable = true → (q.appended - q.started).toNat < 2 ^ q.cap →
    record.length = 8 → s.hbm.wf →
    ∃ t, exec (.hostAppend n record) s = .next t ∧ t.queue n = { q with appended := q.appended + 1 } ∧
      t.hbm.readBytes (q.base + 64 * (q.appended.toNat % 2 ^ q.cap)) 64 = record.flatMap bytesOf) ∧
  (∀ (n : Nat) (record : List Dword) (q : Queue) (s : State), s.queue n = q →
    (q.enable = false ∨ 2 ^ q.cap ≤ (q.appended - q.started).toNat ∨ record.length ≠ 8) → q.ovf ≠ -1 →
    ∃ t, exec (.hostAppend n record) s = .next t ∧ SameBytes s t ∧ t.queue n = { q with ovf := q.ovf + 1 }) ∧
  (∀ (off len : Nat) (s : State), s.boot = 2 → s.apPhys = true →
    ∃ t, exec (.apertureRead off len) s = .next t ∧ t.out = s.out ++ [.read (s.hbm.readBytes (s.apBase + off) len)]) ∧
  (∀ (off : Nat) (data : List Byte) (s : State), s.boot = 2 → s.apPhys = true → s.hbm.wf →
    ∃ t, exec (.apertureWrite off data) s = .next t ∧ t.hbm.readBytes (s.apBase + off) data.length = data ∧
      SameBytesBut s t ⟨.hbm, s.apBase + off, none⟩ data.length) ∧
  (∀ (off : Nat) (data : List Byte) (s : State), s.boot = 0 → off + data.length ≤ 2 ^ 26 → s.staged.wf →
    ∃ t, exec (.apertureWrite off data) s = .next t ∧ t.staged.readBytes off data.length = data) ∧
  (∀ (w : CastWork) (q : QueuePair) (j : Job) (bs : List Byte) (s : State), s.castWork = some w → s.castFrozen = false →
    w.restore = false → s.jobs.find w.job = some j → j.qps.find w.qpn = some q → q.error = false → castBytes s w w.segments = .ok bs →
    ∃ t, exec (.castEnd 0) s = .next t ∧ t.castWork = none ∧ ∃ image, t.out = s.out ++ [.rdma w.qpn w.addr image] ∧
      image.take 8 = bytesOf ((0x0840CA57 : BitVec 32) ++ (1 : BitVec 16) ++ BitVec.ofNat 16 w.segments.length) ∧
      image.drop (4096 + 16 * w.segments.length) = bs) ∧
  (∀ (w : CastWork) (cause : BitVec 8) (s : State), s.castWork = some w → cause ≠ 0 →
    ∃ t, exec (.castEnd cause) s = .next t ∧ t.castWork = none ∧ t.out = s.out) ∧
  (∀ (qp key va j : Nat) (data : List Byte) (p : Place) (s : State), keyFor s qp key va data.length true = some j →
    rangeOf s j 0 (mkForm spGlobal va) data.length .write = .ok [(p, data.length)] → s.placeUp p = true → (s.mem p.mem).wf →
    ∃ t, exec (.rdmaWrite qp key va data) s = .next t ∧ t.bytesAt p data.length = data ∧ SameBytesBut s t p data.length) ∧
  (∀ (qp key va j : Nat) (data : List Byte) (imm : BitVec 32) (p : Place) (s : State), keyFor s qp key va data.length true = some j →
    rangeOf s j 0 (mkForm spGlobal va) data.length .write = .ok [(p, data.length)] → s.placeUp p = true → (s.mem p.mem).wf → imm.toNat < 2 ^ 22 →
    imm.toNat / 16 % 256 = 0 → inPartition s j (imm.toNat / 4096) = true →
    ∃ t, exec (.rdmaWriteWithImmediate qp key va data imm) s = .next t ∧ t.bytesAt p data.length = data ∧ SameBytesBut s t p data.length ∧
      (t.tile (imm.toNat / 4096)).ctr (16 + imm.toNat % 16) = (s.tile (imm.toNat / 4096)).ctr (16 + imm.toNat % 16) + 1) ∧
  (∀ (qp key va len j : Nat) (p : Place) (s : State), keyFor s qp key va len false = some j →
    rangeOf s j 0 (mkForm spGlobal va) len .read = .ok [(p, len)] → s.placeUp p = true →
    ∃ t, exec (.rdmaRead qp key va len) s = .next t ∧ t.out = s.out ++ [.rdma qp va (s.bytesAt p len)]) ∧
  (∀ (qp key va : Nat) (data : List Byte) (s : State), keyFor s qp key va data.length true = none →
    ∃ t, exec (.rdmaWrite qp key va data) s = .next t ∧ SameBytes s t ∧ ∀ p ∈ t.jobs, ∀ q ∈ p.2.qps, q.1 = qp → q.2.error = true) ∧
  ∀ (port : Nat) (s : State), ∃ t, exec (.ethernetPacketDrop port) s = .next t ∧ t = { s with ethDropped := s.ethDropped + 1 }

/-- The emergency clamp, its release, module reset, bring-up, a lost port, a lasting and a corrected error, the powered hour and power loss
do what R352, R361, R389, R405–R407, R413, R434, R436–R438 say. That a lost port counts a loss on each of its four lanes, that flash keeps
a copy of the lifetime record, and what power loss during a flash write leaves are the model's readings, log entries 73, 68 and 72. -/
def Obligations.PhysicalEvents : Prop :=
  (∀ (s : State), s.clamp = false →
    ∃ t, exec .thermalEmergencyClamp s = .next t ∧ t.clamp = true ∧ t.life.clamps = min (s.life.clamps + 1) (2 ^ 64 - 1) ∧
      t.msix.find 0 = some ((s.msix.find 0).getD 0 + 1)) ∧
  (∀ (s : State), ∃ t, exec .clampRelease s = .next t ∧ t = { s with clamp := false }) ∧
  (∀ (i : Instr) (s : State), (i = .moduleReset ∨ i = .powerLoss) →
    ∃ t, exec i s = .next t ∧ t.boot = 0 ∧ t.jobs = [] ∧ t.queues = [] ∧ t.kernels = [] ∧ t.friezes = [] ∧ t.tiles = [] ∧
      t.domains = [] ∧ t.result = (0, 0) ∧ t.command = none ∧ t.cycles = 0 ∧ t.clamp = false ∧ t.flash = s.flash ∧
      t.lifeFlash = s.lifeFlash ∧ (i = .moduleReset → t.life = s.life ∧ t.flashBroken = s.flashBroken) ∧
      (i = .powerLoss → t.life = s.lifeFlash) ∧ ∀ image, i = .powerLoss → s.cmdWork = .flash image → t.flashBroken = true) ∧
  (∀ (s : State), s.boot = 0 →
    ∃ t, exec .bringUp s = .next t ∧ t = { s with boot := if firmwareAccepted s.flash = true ∧ s.flashBroken = false then 1 else 3 }) ∧
  (∀ (s : State), s.boot = 1 → s.jobs = [] →
    ∃ t, exec .bringUp s = .next t ∧ t.boot = 2 ∧ t.standby = false ∧ t.jobs = [(0, Job.management)]) ∧
  (∀ (port : Nat) (s : State), port ∉ s.portsLost →
    ∃ t, exec (.portLost port) s = .next t ∧ port ∈ t.portsLost ∧ (∀ p ∈ t.routes, port ∉ p.2.ports) ∧
      (∀ p ∈ s.routes, port ∉ p.2.ports → (∀ q ∈ s.routes, q.1 = p.1 → q = p) → p ∈ t.routes) ∧ t.lifeFlash = t.life ∧
      ∀ l, l < 4 → t.life.losses.find (4 * port + l) = some (min ((s.life.losses.find (4 * port + l)).getD 0 + 1) (2 ^ 32 - 1))) ∧
  (∀ (tile : Nat) (s : State), s.life.fenced.getLsbD (dieRow tile) = false → dieRow tile < 64 →
    ∃ t, exec (.lastingError (.tile tile)) s = .next t ∧ t.life.fenced.getLsbD (dieRow tile) = true ∧
      t.lifeFlash = t.life ∧ ∀ p ∈ t.jobs, ∀ q ∈ p.2.partition, dieRow q.1 ≠ dieRow tile) ∧
  (∀ (tile lane col a : Nat) (s : State),
    ∃ t, exec (.lastingError (.acc tile lane col a)) s = .next t ∧
      (t.tile tile).accOf lane col a = (((s.tile tile).accOf lane col a).1, true)) ∧
  (∀ (line : Nat) (s : State),
    ∃ t, exec (.lastingError (.hbmLine line)) s = .next t ∧ line ∈ t.hbm.bad ∧
      t.life.lasting.find (channelOf line) = some (min ((s.life.lasting.find (channelOf line)).getD 0 + 1) (2 ^ 32 - 1))) ∧
  (∀ (line : Nat) (s : State),
    ∃ t, exec (.transientError (.hbmLine line)) s = .next t ∧ SameBytes s t ∧ t.hbm.bad = s.hbm.bad ∧
      t.life.transient.find (channelOf line) = some (min ((s.life.transient.find (channelOf line)).getD 0 + 1) (2 ^ 64 - 1))) ∧
  ∀ (s : State), ∃ t, exec .lifetimeRecordHourlyWrite s = .next t ∧
    t.life.hours = min (s.life.hours + 1) (2 ^ 64 - 1) ∧ t.life.steps = countUp s.life.steps s.vstep.toNat 64 ∧
    t.life.junction = countUp s.life.junction (min ((Config.junction s.free).toNat / 5) 31) 64 ∧
    t.life.power = countUp s.life.power (min (Config.powerBand s.free) 31) 64 ∧ t.lifeFlash = t.life ∧ SameBytes s t

/-- The module right after reset: the boot state is the ROM's, the clock stands at zero, no job, queue, kernel or frieze is there, no
command runs and RESULT is zero; every tile's counters are zero, its ports empty under the reset binding, its contexts EMPTY; memory is in
canonical form. That memory reads zero, and the values no rule gives, are the model's choice, log entries 1 and 2 (R69, R101, R368, R387, R389, R437). -/
def Obligations.ResetValues : Prop :=
  State.reset.boot = 0 ∧ State.reset.cycles = 0 ∧ State.reset.jobs = [] ∧ State.reset.friezes = [] ∧ State.reset.kernels = [] ∧
    State.reset.domains = [] ∧ State.reset.result = (0, 0) ∧ State.reset.command = none ∧ State.reset.waiting = [] ∧
    State.reset.standby = false ∧ State.reset.clamp = false ∧ State.reset.MemWf ∧
    (∀ n, (State.reset.queue n).enable = false ∧ (State.reset.queue n).job = none) ∧
    (∀ die, die < 4 → (State.reset.engine die).cfg = none ∧ (State.reset.engine die).state = .unconfigured) ∧
    ∀ u k, ((State.reset.tile u).ctr k) = 0 ∧ (State.reset.tile u).outPort k = [] ∧
      (k < 32 → ((State.reset.tile u).inPort k).fifo = [] ∧ ((State.reset.tile u).inPort k).binding = ⟨0x7F, false, 0, .fp32⟩) ∧
      (k < 4 → ((State.reset.tile u).ctx k).state = .empty)

/-- Words written out from the encoding tables decode to the instructions they stand for: one of each operand format (R28–R34, R36–R42). -/
def Obligations.DecodeWords : Prop :=
  decodeTableWord 64 0x0000010184400000 = some (.add Hdr.plain 3 1 2) ∧
  decodeTableWord 64 0x000012039C000003 = some (.addi { Hdr.plain with pred := 1 } 7 7 3) ∧
  decodeTableWord 64 0x0000003280000002 = some (.csrr Hdr.plain 5 2) ∧
  decodeTableWord 64 0x000003328FFFFFFD = some (.loop Hdr.plain 5 0xFFFFFFD) ∧
  decodeTableWord 64 0x45872501884A0000 =
    some (.srd ⟨1, 5, 2, 7, false, 2⟩ ⟨3, 2, 10, 0⟩ 4 false false 0) ∧
  decodeTableWord 64 0x0000081000040202 = some (.fence Hdr.plain 2 2 4) ∧
  decodeTableWord 64 0x0000091000000400 = some (.maqgo Hdr.plain 1) ∧
  decodeTableWord 64 0x00000A3600000404 = some (.txclaim Hdr.plain 1 12 4) ∧
  decodeTableWord 64 0x00680B1214C00000 = some (.erdisp { Hdr.plain with sigMode := 1, sigK := 40 } 4 5 6) ∧
  decodeTableWord 64 0x00000C32B0C07C02 = some (.ratom Hdr.plain 5 12 6 0 7 true true 2) ∧
  decodeTableWord 64 0x00000D230000101F = some (.wlpop Hdr.plain 4 6 31) ∧
  decodeTableWord 64 0x00000E3380001103 = some (.cntrd Hdr.plain 7 0 0x103 true)

/-- Decoding an encoded well-formed control word gives it back, from its doubleword and from its bytes; so does decoding the eight
doublewords of a host command (R28–R43, R387). -/
def Obligations.DecodeInvertsEncode : Prop :=
  (∀ i : Instr, i.wf = true → i.encode ≠ [] → decodeDwords i.encode = .ok i) ∧
  ∀ (i : Instr) (w : Dword) (rest : List Byte), i.wf = true → i.encode? = some w → decodeBytes (bytesOf w ++ rest) = .ok (i, rest)

/-- Every step keeps every memory of the module in canonical form. -/
def Obligations.MemoryStaysCanonical : Prop := ∀ s t : State, s.MemWf → step s = .next t → t.MemWf
end

