-- ==== Sys2Proof/Laws/Tab.lean ====
section
/-! SUPPORT. The laws of the sparse table: what a lookup answers after an insertion or a removal, and the canonical form both keep. -/

namespace Sys2Proof.Tab

variable {α : Type}

@[simp] theorem find_nil (k : Nat) : Tab.find ([] : Tab α) k = none := rfl

theorem find_cons (j : Nat) (v : α) (t : Tab α) (k : Nat) :
    Tab.find ((j, v) :: t) k = if j = k then some v else Tab.find t k := rfl

@[simp] theorem find_put_self (t : Tab α) (k : Nat) (v : α) : (Tab.put t k v).find k = some v := by
  induction t with
  | nil => simp [Tab.put, find_cons]
  | cons p t ih =>
    obtain ⟨j, w⟩ := p
    simp only [Tab.put]
    split
    · simp [find_cons]
    · split
      · simp [find_cons]
      · have : j ≠ k := by omega
        simp [find_cons, this, ih]

theorem find_put_ne (t : Tab α) {k j : Nat} (v : α) (h : j ≠ k) : (Tab.put t k v).find j = t.find j := by
  have h' : k ≠ j := fun e => h e.symm
  induction t with
  | nil => simp [Tab.put, find_cons, h']
  | cons p t ih =>
    obtain ⟨i, w⟩ := p
    simp only [Tab.put]
    split
    · simp [find_cons, h']
    · split
      · subst_vars; simp [find_cons, h']
      · simp [find_cons, ih]

theorem find_put (t : Tab α) (k j : Nat) (v : α) : (Tab.put t k v).find j = if j = k then some v else t.find j := by
  split
  · subst_vars; simp
  · exact find_put_ne t v ‹_›

/-- Every key of a table after an insertion is the new one or an old one. -/
theorem mem_put {t : Tab α} {k : Nat} {v : α} {p : Nat × α} (h : p ∈ Tab.put t k v) : p = (k, v) ∨ p ∈ t := by
  induction t with
  | nil => simpa [Tab.put] using h
  | cons q t ih =>
    obtain ⟨j, w⟩ := q
    simp only [Tab.put] at h
    split at h
    · simpa using h
    · split at h
      · rcases List.mem_cons.1 h with e | e
        · exact .inl e
        · exact .inr (List.mem_cons_of_mem _ e)
      · rcases List.mem_cons.1 h with e | e
        · exact .inr (e ▸ List.mem_cons_self)
        · exact (ih e).imp_right (List.mem_cons_of_mem _)

theorem mem_del {t : Tab α} {k : Nat} {p : Nat × α} (h : p ∈ Tab.del t k) : p ∈ t := by
  induction t with
  | nil => simp [Tab.del] at h
  | cons q t ih =>
    obtain ⟨j, w⟩ := q
    simp only [Tab.del] at h
    split at h
    · exact List.mem_cons_of_mem _ h
    · rcases List.mem_cons.1 h with e | e
      · exact e ▸ List.mem_cons_self
      · exact List.mem_cons_of_mem _ (ih e)

theorem sorted_put {t : Tab α} (h : Tab.Sorted t) (k : Nat) (v : α) : Tab.Sorted (Tab.put t k v) := by
  induction t with
  | nil => simp [Tab.put, Tab.Sorted]
  | cons q t ih =>
    obtain ⟨j, w⟩ := q
    have h1 := (List.pairwise_cons.1 h).1
    have h2 : Tab.Sorted t := (List.pairwise_cons.1 h).2
    simp only [Tab.put]
    split
    · refine List.pairwise_cons.2 ⟨fun p hp => ?_, h⟩
      rcases List.mem_cons.1 hp with e | e
      · subst e; assumption
      · have := h1 p e; simp only at this ⊢; omega
    · split
      · subst_vars; exact List.pairwise_cons.2 ⟨h1, h2⟩
      · refine List.pairwise_cons.2 ⟨fun p hp => ?_, ih h2⟩
        rcases mem_put hp with e | e
        · subst e; simp only; omega
        · exact h1 p e

theorem sorted_del {t : Tab α} (h : Tab.Sorted t) (k : Nat) : Tab.Sorted (Tab.del t k) := by
  induction t with
  | nil => simp [Tab.del, Tab.Sorted]
  | cons q t ih =>
    obtain ⟨j, w⟩ := q
    have h1 := (List.pairwise_cons.1 h).1
    have h2 : Tab.Sorted t := (List.pairwise_cons.1 h).2
    simp only [Tab.del]
    split
    · exact h2
    · exact List.pairwise_cons.2 ⟨fun p hp => h1 p (mem_del hp), ih h2⟩

theorem find_del_ne (t : Tab α) {k j : Nat} (h : j ≠ k) : (Tab.del t k).find j = t.find j := by
  induction t with
  | nil => rfl
  | cons q t ih =>
    obtain ⟨i, w⟩ := q
    simp only [Tab.del]
    split
    · subst_vars; rw [find_cons, if_neg (Ne.symm h)]
    · simp [find_cons, ih]

/-- A key below every key of a table is not listed. -/
theorem find_eq_none {t : Tab α} {k : Nat} (h : ∀ p ∈ t, p.1 ≠ k) : t.find k = none := by
  induction t with
  | nil => rfl
  | cons q t ih =>
    obtain ⟨i, w⟩ := q
    have hi : i ≠ k := h (i, w) List.mem_cons_self
    simp [find_cons, hi, ih fun p hp => h p (List.mem_cons_of_mem _ hp)]

theorem find_del_self {t : Tab α} (h : Tab.Sorted t) (k : Nat) : (Tab.del t k).find k = none := by
  induction t with
  | nil => rfl
  | cons q t ih =>
    obtain ⟨i, w⟩ := q
    have h1 := (List.pairwise_cons.1 h).1
    have h2 : Tab.Sorted t := (List.pairwise_cons.1 h).2
    simp only [Tab.del]
    split
    · subst_vars
      refine find_eq_none fun p hp => ?_
      have := h1 p hp; simp only at this; omega
    · rename_i hne
      simp [find_cons, hne, ih h2]

/-- A listed value is a member. -/
theorem mem_of_find {t : Tab α} {k : Nat} {v : α} (h : t.find k = some v) : (k, v) ∈ t := by
  induction t with
  | nil => simp at h
  | cons q t ih =>
    obtain ⟨i, w⟩ := q
    rw [find_cons] at h
    split at h
    · subst_vars; cases h; exact List.mem_cons_self
    · exact List.mem_cons_of_mem _ (ih h)

end Sys2Proof.Tab
end

