-- ==== Sys2Proof/Laws/State.lean ====
section
/-! SUPPORT. One lemma per field of State for each of its plain updates, and what a tile reads after one. -/

namespace Sys2Proof.Machine

/-! ### A tile replaced -/

@[simp] theorem State.setTile_cycles (s : State) (t : Nat) (x : Tile) : (s.setTile t x).cycles = s.cycles := rfl
@[simp] theorem State.setTile_cur (s : State) (t : Nat) (x : Tile) : (s.setTile t x).cur = s.cur := rfl
@[simp] theorem State.setTile_agenda (s : State) (t : Nat) (x : Tile) : (s.setTile t x).agenda = s.agenda := rfl
@[simp] theorem State.setTile_turn (s : State) (t : Nat) (x : Tile) : (s.setTile t x).turn = s.turn := rfl
@[simp] theorem State.setTile_free (s : State) (t : Nat) (x : Tile) : (s.setTile t x).free = s.free := rfl
@[simp] theorem State.setTile_serial (s : State) (t : Nat) (x : Tile) : (s.setTile t x).serial = s.serial := rfl
@[simp] theorem State.setTile_hbm (s : State) (t : Nat) (x : Tile) : (s.setTile t x).hbm = s.hbm := rfl
@[simp] theorem State.setTile_sram (s : State) (t : Nat) (x : Tile) : (s.setTile t x).sram = s.sram := rfl
@[simp] theorem State.setTile_bankJob (s : State) (t : Nat) (x : Tile) : (s.setTile t x).bankJob = s.bankJob := rfl
@[simp] theorem State.setTile_friezes (s : State) (t : Nat) (x : Tile) : (s.setTile t x).friezes = s.friezes := rfl
@[simp] theorem State.setTile_kernels (s : State) (t : Nat) (x : Tile) : (s.setTile t x).kernels = s.kernels := rfl
@[simp] theorem State.setTile_queues (s : State) (t : Nat) (x : Tile) : (s.setTile t x).queues = s.queues := rfl
@[simp] theorem State.setTile_jobs (s : State) (t : Nat) (x : Tile) : (s.setTile t x).jobs = s.jobs := rfl
@[simp] theorem State.setTile_domains (s : State) (t : Nat) (x : Tile) : (s.setTile t x).domains = s.domains := rfl
@[simp] theorem State.setTile_chains (s : State) (t : Nat) (x : Tile) : (s.setTile t x).chains = s.chains := rfl
@[simp] theorem State.setTile_engines (s : State) (t : Nat) (x : Tile) : (s.setTile t x).engines = s.engines := rfl
@[simp] theorem State.setTile_reqs (s : State) (t : Nat) (x : Tile) : (s.setTile t x).reqs = s.reqs := rfl
@[simp] theorem State.setTile_routes (s : State) (t : Nat) (x : Tile) : (s.setTile t x).routes = s.routes := rfl
@[simp] theorem State.setTile_nodes (s : State) (t : Nat) (x : Tile) : (s.setTile t x).nodes = s.nodes := rfl
@[simp] theorem State.setTile_out (s : State) (t : Nat) (x : Tile) : (s.setTile t x).out = s.out := rfl
@[simp] theorem State.setTile_reserved (s : State) (t : Nat) (x : Tile) : (s.setTile t x).reserved = s.reserved := rfl
@[simp] theorem State.setTile_rr (s : State) (t : Nat) (x : Tile) : (s.setTile t x).rr = s.rr := rfl
@[simp] theorem State.setTile_moduleId (s : State) (t : Nat) (x : Tile) : (s.setTile t x).moduleId = s.moduleId := rfl
@[simp] theorem State.setTile_torus (s : State) (t : Nat) (x : Tile) : (s.setTile t x).torus = s.torus := rfl
@[simp] theorem State.setTile_portsLost (s : State) (t : Nat) (x : Tile) : (s.setTile t x).portsLost = s.portsLost := rfl
@[simp] theorem State.setTile_portsFailed (s : State) (t : Nat) (x : Tile) : (s.setTile t x).portsFailed = s.portsFailed := rfl
@[simp] theorem State.setTile_portsTrained (s : State) (t : Nat) (x : Tile) : (s.setTile t x).portsTrained = s.portsTrained := rfl
@[simp] theorem State.setTile_result (s : State) (t : Nat) (x : Tile) : (s.setTile t x).result = s.result := rfl
@[simp] theorem State.setTile_command (s : State) (t : Nat) (x : Tile) : (s.setTile t x).command = s.command := rfl
@[simp] theorem State.setTile_waiting (s : State) (t : Nat) (x : Tile) : (s.setTile t x).waiting = s.waiting := rfl
@[simp] theorem State.setTile_serving (s : State) (t : Nat) (x : Tile) : (s.setTile t x).serving = s.serving := rfl
@[simp] theorem State.setTile_cmdWork (s : State) (t : Nat) (x : Tile) : (s.setTile t x).cmdWork = s.cmdWork := rfl
@[simp] theorem State.setTile_cmdOvf (s : State) (t : Nat) (x : Tile) : (s.setTile t x).cmdOvf = s.cmdOvf := rfl
@[simp] theorem State.setTile_apBase (s : State) (t : Nat) (x : Tile) : (s.setTile t x).apBase = s.apBase := rfl
@[simp] theorem State.setTile_apJob (s : State) (t : Nat) (x : Tile) : (s.setTile t x).apJob = s.apJob := rfl
@[simp] theorem State.setTile_apPhys (s : State) (t : Nat) (x : Tile) : (s.setTile t x).apPhys = s.apPhys := rfl
@[simp] theorem State.setTile_msix (s : State) (t : Nat) (x : Tile) : (s.setTile t x).msix = s.msix := rfl
@[simp] theorem State.setTile_ethDropped (s : State) (t : Nat) (x : Tile) : (s.setTile t x).ethDropped = s.ethDropped := rfl
@[simp] theorem State.setTile_castWork (s : State) (t : Nat) (x : Tile) : (s.setTile t x).castWork = s.castWork := rfl
@[simp] theorem State.setTile_castFrozen (s : State) (t : Nat) (x : Tile) : (s.setTile t x).castFrozen = s.castFrozen := rfl
@[simp] theorem State.setTile_castFrozenBy (s : State) (t : Nat) (x : Tile) : (s.setTile t x).castFrozenBy = s.castFrozenBy := rfl
@[simp] theorem State.setTile_life (s : State) (t : Nat) (x : Tile) : (s.setTile t x).life = s.life := rfl
@[simp] theorem State.setTile_lifeFlash (s : State) (t : Nat) (x : Tile) : (s.setTile t x).lifeFlash = s.lifeFlash := rfl
@[simp] theorem State.setTile_boot (s : State) (t : Nat) (x : Tile) : (s.setTile t x).boot = s.boot := rfl
@[simp] theorem State.setTile_standby (s : State) (t : Nat) (x : Tile) : (s.setTile t x).standby = s.standby := rfl
@[simp] theorem State.setTile_vstep (s : State) (t : Nat) (x : Tile) : (s.setTile t x).vstep = s.vstep := rfl
@[simp] theorem State.setTile_clamp (s : State) (t : Nat) (x : Tile) : (s.setTile t x).clamp = s.clamp := rfl
@[simp] theorem State.setTile_flash (s : State) (t : Nat) (x : Tile) : (s.setTile t x).flash = s.flash := rfl
@[simp] theorem State.setTile_flashBroken (s : State) (t : Nat) (x : Tile) : (s.setTile t x).flashBroken = s.flashBroken := rfl
@[simp] theorem State.setTile_staged (s : State) (t : Nat) (x : Tile) : (s.setTile t x).staged = s.staged := rfl

/-! ### A tile changed -/

@[simp] theorem State.updTile_cycles (s : State) (t : Nat) (g : Tile → Tile) : (s.updTile t g).cycles = s.cycles := rfl
@[simp] theorem State.updTile_cur (s : State) (t : Nat) (g : Tile → Tile) : (s.updTile t g).cur = s.cur := rfl
@[simp] theorem State.updTile_agenda (s : State) (t : Nat) (g : Tile → Tile) : (s.updTile t g).agenda = s.agenda := rfl
@[simp] theorem State.updTile_turn (s : State) (t : Nat) (g : Tile → Tile) : (s.updTile t g).turn = s.turn := rfl
@[simp] theorem State.updTile_free (s : State) (t : Nat) (g : Tile → Tile) : (s.updTile t g).free = s.free := rfl
@[simp] theorem State.updTile_serial (s : State) (t : Nat) (g : Tile → Tile) : (s.updTile t g).serial = s.serial := rfl
@[simp] theorem State.updTile_hbm (s : State) (t : Nat) (g : Tile → Tile) : (s.updTile t g).hbm = s.hbm := rfl
@[simp] theorem State.updTile_sram (s : State) (t : Nat) (g : Tile → Tile) : (s.updTile t g).sram = s.sram := rfl
@[simp] theorem State.updTile_bankJob (s : State) (t : Nat) (g : Tile → Tile) : (s.updTile t g).bankJob = s.bankJob := rfl
@[simp] theorem State.updTile_friezes (s : State) (t : Nat) (g : Tile → Tile) : (s.updTile t g).friezes = s.friezes := rfl
@[simp] theorem State.updTile_kernels (s : State) (t : Nat) (g : Tile → Tile) : (s.updTile t g).kernels = s.kernels := rfl
@[simp] theorem State.updTile_queues (s : State) (t : Nat) (g : Tile → Tile) : (s.updTile t g).queues = s.queues := rfl
@[simp] theorem State.updTile_jobs (s : State) (t : Nat) (g : Tile → Tile) : (s.updTile t g).jobs = s.jobs := rfl
@[simp] theorem State.updTile_domains (s : State) (t : Nat) (g : Tile → Tile) : (s.updTile t g).domains = s.domains := rfl
@[simp] theorem State.updTile_chains (s : State) (t : Nat) (g : Tile → Tile) : (s.updTile t g).chains = s.chains := rfl
@[simp] theorem State.updTile_engines (s : State) (t : Nat) (g : Tile → Tile) : (s.updTile t g).engines = s.engines := rfl
@[simp] theorem State.updTile_reqs (s : State) (t : Nat) (g : Tile → Tile) : (s.updTile t g).reqs = s.reqs := rfl
@[simp] theorem State.updTile_routes (s : State) (t : Nat) (g : Tile → Tile) : (s.updTile t g).routes = s.routes := rfl
@[simp] theorem State.updTile_nodes (s : State) (t : Nat) (g : Tile → Tile) : (s.updTile t g).nodes = s.nodes := rfl
@[simp] theorem State.updTile_out (s : State) (t : Nat) (g : Tile → Tile) : (s.updTile t g).out = s.out := rfl
@[simp] theorem State.updTile_reserved (s : State) (t : Nat) (g : Tile → Tile) : (s.updTile t g).reserved = s.reserved := rfl
@[simp] theorem State.updTile_rr (s : State) (t : Nat) (g : Tile → Tile) : (s.updTile t g).rr = s.rr := rfl
@[simp] theorem State.updTile_moduleId (s : State) (t : Nat) (g : Tile → Tile) : (s.updTile t g).moduleId = s.moduleId := rfl
@[simp] theorem State.updTile_torus (s : State) (t : Nat) (g : Tile → Tile) : (s.updTile t g).torus = s.torus := rfl
@[simp] theorem State.updTile_portsLost (s : State) (t : Nat) (g : Tile → Tile) : (s.updTile t g).portsLost = s.portsLost := rfl
@[simp] theorem State.updTile_portsFailed (s : State) (t : Nat) (g : Tile → Tile) : (s.updTile t g).portsFailed = s.portsFailed := rfl
@[simp] theorem State.updTile_portsTrained (s : State) (t : Nat) (g : Tile → Tile) : (s.updTile t g).portsTrained = s.portsTrained := rfl
@[simp] theorem State.updTile_result (s : State) (t : Nat) (g : Tile → Tile) : (s.updTile t g).result = s.result := rfl
@[simp] theorem State.updTile_command (s : State) (t : Nat) (g : Tile → Tile) : (s.updTile t g).command = s.command := rfl
@[simp] theorem State.updTile_waiting (s : State) (t : Nat) (g : Tile → Tile) : (s.updTile t g).waiting = s.waiting := rfl
@[simp] theorem State.updTile_serving (s : State) (t : Nat) (g : Tile → Tile) : (s.updTile t g).serving = s.serving := rfl
@[simp] theorem State.updTile_cmdWork (s : State) (t : Nat) (g : Tile → Tile) : (s.updTile t g).cmdWork = s.cmdWork := rfl
@[simp] theorem State.updTile_cmdOvf (s : State) (t : Nat) (g : Tile → Tile) : (s.updTile t g).cmdOvf = s.cmdOvf := rfl
@[simp] theorem State.updTile_apBase (s : State) (t : Nat) (g : Tile → Tile) : (s.updTile t g).apBase = s.apBase := rfl
@[simp] theorem State.updTile_apJob (s : State) (t : Nat) (g : Tile → Tile) : (s.updTile t g).apJob = s.apJob := rfl
@[simp] theorem State.updTile_apPhys (s : State) (t : Nat) (g : Tile → Tile) : (s.updTile t g).apPhys = s.apPhys := rfl
@[simp] theorem State.updTile_msix (s : State) (t : Nat) (g : Tile → Tile) : (s.updTile t g).msix = s.msix := rfl
@[simp] theorem State.updTile_ethDropped (s : State) (t : Nat) (g : Tile → Tile) : (s.updTile t g).ethDropped = s.ethDropped := rfl
@[simp] theorem State.updTile_castWork (s : State) (t : Nat) (g : Tile → Tile) : (s.updTile t g).castWork = s.castWork := rfl
@[simp] theorem State.updTile_castFrozen (s : State) (t : Nat) (g : Tile → Tile) : (s.updTile t g).castFrozen = s.castFrozen := rfl
@[simp] theorem State.updTile_castFrozenBy (s : State) (t : Nat) (g : Tile → Tile) : (s.updTile t g).castFrozenBy = s.castFrozenBy := rfl
@[simp] theorem State.updTile_life (s : State) (t : Nat) (g : Tile → Tile) : (s.updTile t g).life = s.life := rfl
@[simp] theorem State.updTile_lifeFlash (s : State) (t : Nat) (g : Tile → Tile) : (s.updTile t g).lifeFlash = s.lifeFlash := rfl
@[simp] theorem State.updTile_boot (s : State) (t : Nat) (g : Tile → Tile) : (s.updTile t g).boot = s.boot := rfl
@[simp] theorem State.updTile_standby (s : State) (t : Nat) (g : Tile → Tile) : (s.updTile t g).standby = s.standby := rfl
@[simp] theorem State.updTile_vstep (s : State) (t : Nat) (g : Tile → Tile) : (s.updTile t g).vstep = s.vstep := rfl
@[simp] theorem State.updTile_clamp (s : State) (t : Nat) (g : Tile → Tile) : (s.updTile t g).clamp = s.clamp := rfl
@[simp] theorem State.updTile_flash (s : State) (t : Nat) (g : Tile → Tile) : (s.updTile t g).flash = s.flash := rfl
@[simp] theorem State.updTile_flashBroken (s : State) (t : Nat) (g : Tile → Tile) : (s.updTile t g).flashBroken = s.flashBroken := rfl
@[simp] theorem State.updTile_staged (s : State) (t : Nat) (g : Tile → Tile) : (s.updTile t g).staged = s.staged := rfl

@[simp] theorem State.tile_setTile_self (s : State) (t : Nat) (x : Tile) : (s.setTile t x).tile t = x := by
  simp [State.tile, State.setTile]

theorem State.tile_setTile_ne (s : State) {t u : Nat} (x : Tile) (h : u ≠ t) : (s.setTile t x).tile u = s.tile u := by
  simp [State.tile, State.setTile, Tab.find_put_ne _ _ h]

@[simp] theorem State.tile_updTile_self (s : State) (t : Nat) (g : Tile → Tile) : (s.updTile t g).tile t = g (s.tile t) := by
  simp [State.updTile]

theorem State.tile_updTile_ne (s : State) {t u : Nat} (g : Tile → Tile) (h : u ≠ t) : (s.updTile t g).tile u = s.tile u := by
  simp [State.updTile, State.tile_setTile_ne _ _ h]

end Sys2Proof.Machine
end

