-- ==== Sys2Proof/Laws/Ops.lean ====
section
/-! SUPPORT. What each shared operation can do: friezes and stations, counters and signals, and the issue of a control word. -/

namespace Sys2Proof.Machine

/-! ### Friezes -/

/-- Only the table of friezes can change. -/
theorem State.updFz_only (s : State) (id : Nat) (g : Frieze → Frieze) :
    s.updFz id g = { s with friezes := (s.updFz id g).friezes } := by
  unfold State.updFz; split <;> rfl

theorem State.updFz_find {s : State} {id : Nat} {f : Frieze} (h : s.friezes.find id = some f) (g : Frieze → Frieze) :
    (s.updFz id g).friezes.find id = some (g f) := by
  simp [State.updFz, h]

theorem State.updFz_find_ne (s : State) {id j : Nat} (g : Frieze → Frieze) (h : j ≠ id) :
    (s.updFz id g).friezes.find j = s.friezes.find j := by
  unfold State.updFz; split
  · rfl
  · exact Tab.find_put_ne _ _ h

theorem State.updFz_tiles (s : State) (id : Nat) (g : Frieze → Frieze) : (s.updFz id g).tiles = s.tiles := by
  rw [State.updFz_only]

theorem State.updFz_tile (s : State) (id : Nat) (g : Frieze → Frieze) (t : Nat) : (s.updFz id g).tile t = s.tile t := by
  simp [State.tile, State.updFz_tiles]

/-! ### Stations -/

@[simp] theorem Frieze.updSt_len (f : Frieze) (st : Nat) (g : Station → Station) : (f.updSt st g).len = f.len := by
  simp [Frieze.updSt, Frieze.len]

@[simp] theorem Frieze.updSt_head (f : Frieze) (st : Nat) (g : Station → Station) : (f.updSt st g).head = f.head := rfl

@[simp] theorem Frieze.updSt_tileOf (f : Frieze) (st : Nat) (g : Station → Station) (n : Nat) :
    (f.updSt st g).tileOf n = f.tileOf n := rfl

theorem Frieze.updSt_get {f : Frieze} {st : Nat} {x : Station} (h : f.stations[st]? = some x) (g : Station → Station) :
    (f.updSt st g).stations[st]? = some (g x) := by
  simp [Frieze.updSt, h]

theorem Frieze.updSt_get_ne (f : Frieze) {st j : Nat} (g : Station → Station) (h : j ≠ st) :
    (f.updSt st g).stations[j]? = f.stations[j]? := by
  simp [Frieze.updSt, Ne.symm h]

theorem State.station_eq {s : State} {id st : Nat} {f : Frieze} (h : s.friezes.find id = some f) :
    s.station? id st = f.stations[st]? := by
  simp [State.station?, h]

theorem State.updSt_only (s : State) (id st : Nat) (g : Station → Station) :
    s.updSt id st g = { s with friezes := (s.updSt id st g).friezes } := State.updFz_only ..

theorem State.updSt_station {s : State} {id st : Nat} {x : Station} (h : s.station? id st = some x) (g : Station → Station) :
    (s.updSt id st g).station? id st = some (g x) := by
  unfold State.station? at h ⊢
  cases hf : s.friezes.find id with
  | none => simp [hf] at h
  | some f =>
    rw [hf] at h
    rw [State.updSt, State.updFz_find hf]
    exact Frieze.updSt_get h g

theorem State.updSt_station_ne (s : State) {id st i j : Nat} (g : Station → Station) (h : i ≠ id ∨ j ≠ st) :
    (s.updSt id st g).station? i j = s.station? i j := by
  unfold State.station?
  by_cases hi : i = id
  · subst hi
    have hj : j ≠ st := h.resolve_left (fun e => e rfl)
    cases hf : s.friezes.find i with
    | none => simp [State.updSt, State.updFz, hf]
    | some f =>
      rw [State.updSt, State.updFz_find hf]
      exact Frieze.updSt_get_ne f g hj
  · rw [State.updSt, State.updFz_find_ne _ _ hi]

/-! ### Counters and signals -/

/-- A tile's shared counter: only that tile's counters can change. -/
theorem State.updCtr_tile (s : State) (t k : Nat) (g : Word → Word) (u : Nat) :
    ∃ e, (s.updCtr t k g).tile u = { s.tile u with e := e } := by
  by_cases h : u = t
  · subst h
    rw [State.updCtr, State.tile_updTile_self]
    split
    · exact ⟨_, rfl⟩
    · exact ⟨_, rfl⟩
  · exact ⟨(s.tile u).e, by rw [State.updCtr, State.tile_updTile_ne _ _ h]⟩

/-- A counter of a station: nothing but the friezes and the tiles can change. -/
theorem State.updCounter_only (s : State) (id st : Nat) (k : BitVec 6) (g : Word → Word) :
    s.updCounter id st k g = { s with friezes := (s.updCounter id st k g).friezes, tiles := (s.updCounter id st k g).tiles } := by
  unfold State.updCounter
  split
  · rfl
  · split
    · rw [State.updSt_only]
    · rfl

/-- A counter of a station: of every tile only the shared counters can change. -/
theorem State.updCounter_tile (s : State) (id st : Nat) (k : BitVec 6) (g : Word → Word) (u : Nat) :
    ∃ e, (s.updCounter id st k g).tile u = { s.tile u with e := e } := by
  unfold State.updCounter
  split
  · exact ⟨_, rfl⟩
  · split
    · exact ⟨(s.tile u).e, by rw [State.updSt, State.updFz_tile]⟩
    · exact State.updCtr_tile ..

/-- A counter of a station: of every station only the counters can change. -/
theorem State.updCounter_station (s : State) (id st : Nat) (k : BitVec 6) (g : Word → Word) {i j : Nat} {x : Station}
    (h : s.station? i j = some x) : ∃ e, (s.updCounter id st k g).station? i j = some { x with e := e } := by
  unfold State.updCounter
  split
  · exact ⟨x.e, h⟩
  · split
    · by_cases hij : i = id ∧ j = st
      · obtain ⟨rfl, rfl⟩ := hij
        exact ⟨_, State.updSt_station h _⟩
      · exact ⟨x.e, by rw [State.updSt_station_ne _ _ (by tauto)]; exact h⟩
    · exact ⟨x.e, h⟩

/-- A counter of a station: of every frieze only the stations can change. -/
theorem State.updCounter_find (s : State) (id st : Nat) (k : BitVec 6) (g : Word → Word) {i : Nat} {f : Frieze}
    (h : s.friezes.find i = some f) :
    ∃ l, (s.updCounter id st k g).friezes.find i = some { f with stations := l } ∧ l.length = f.stations.length := by
  unfold State.updCounter
  split
  · exact ⟨_, h, rfl⟩
  · split
    · by_cases hi : i = id
      · subst hi
        exact ⟨_, State.updFz_find h _, by simp⟩
      · exact ⟨_, by rw [State.updSt, State.updFz_find_ne _ _ hi]; exact h, rfl⟩
    · exact ⟨_, h, rfl⟩

theorem State.addCount_only (s : State) (id st : Nat) (k : BitVec 6) (n : Word) :
    s.addCount id st k n = { s with friezes := (s.addCount id st k n).friezes, tiles := (s.addCount id st k n).tiles } :=
  State.updCounter_only ..

theorem State.sigDone_only (s : State) (id st : Nat) (m : BitVec 2) (k : BitVec 6) :
    s.sigDone id st m k = { s with friezes := (s.sigDone id st m k).friezes, tiles := (s.sigDone id st m k).tiles } := by
  unfold State.sigDone; split
  · exact State.addCount_only ..
  · rfl

theorem State.sigDone_tile (s : State) (id st : Nat) (m : BitVec 2) (k : BitVec 6) (u : Nat) :
    ∃ e, (s.sigDone id st m k).tile u = { s.tile u with e := e } := by
  unfold State.sigDone; split
  · exact State.updCounter_tile ..
  · exact ⟨_, rfl⟩

theorem State.sigDone_station (s : State) (id st : Nat) (m : BitVec 2) (k : BitVec 6) {i j : Nat} {x : Station}
    (h : s.station? i j = some x) : ∃ e, (s.sigDone id st m k).station? i j = some { x with e := e } := by
  unfold State.sigDone; split
  · exact State.updCounter_station _ _ _ _ _ h
  · exact ⟨x.e, h⟩

end Sys2Proof.Machine
end

