-- ==== Sys2Proof/Laws/Issue.lean ====
section
/-! SUPPORT. What the issue of a control word does: the facts its context gives, the state its effects run in, and the state after it. -/

namespace Sys2Proof.Machine

/-! ### The context -/

theorem ctxOf_find {s : State} {i : Instr} {h : Hdr} {c : Ctx} (hc : ctxOf s i h = some c) :
    s.cur = some ⟨c.id, c.st, c.late⟩ ∧ s.friezes.find c.id = some c.f ∧ c.f.stations[c.st]? = some c.x ∧ c.lane = c.x.pos ∧
      c.h = h ∧ c.tile = c.f.tileOf c.st ∧
      ∃ w, c.f.nextWord c.st = some w ∧ c.index = w.index ∧ c.word = w.word := by
  unfold ctxOf at hc
  split at hc
  · cases hc
  · rename_i k hk
    split at hc
    · cases hc
    · rename_i f hf
      split at hc
      · rename_i x w hx hw
        cases hc
        exact ⟨hk, hf, hx, rfl, rfl, rfl, w, hw, rfl, rfl⟩
      · cases hc

theorem Issues.find {s : State} {i : Instr} {h : Hdr} {c : Ctx} (hi : Issues s i h c) : s.friezes.find c.id = some c.f :=
  (ctxOf_find hi.ctx).2.1

theorem Issues.station {s : State} {i : Instr} {h : Hdr} {c : Ctx} (hi : Issues s i h c) : s.station? c.id c.st = some c.x := by
  rw [State.station_eq hi.find]; exact (ctxOf_find hi.ctx).2.2.1

theorem Issues.hdr {s : State} {i : Instr} {h : Hdr} {c : Ctx} (hi : Issues s i h c) : c.h = h := (ctxOf_find hi.ctx).2.2.2.2.1

/-- A word that issues runs its effects, and answers what they answer. -/
theorem Issues.exec {s : State} {i : Instr} {h : Hdr} {c : Ctx} (hi : Issues s i h c) (body : Ctx → State → Eff) :
    issueWord i h s body = match body c (beforeEffect c i s) with
      | .done t now => .next (completeWord c i t now)
      | .trap cause d0 => .next (trapAt c cause d0 s)
      | .viol cause addr => .next (violAt c cause addr s) := by
  have hp : (i.privileged && c.job != 0) = false := by
    cases hpr : i.privileged
    · rfl
    · simp [hi.allowed hpr]
  unfold issueWord
  cases hb : body c (beforeEffect c i s) <;>
    simp only [hi.ctx, hi.kept, hi.legal, hp, hi.free, hi.on, hb, Bool.not_true, Bool.false_eq_true, if_false]

/-! ### What leaves everything but friezes, counters and the selection alone -/

theorem Quiet.refl (s : State) : Quiet s s := ⟨rfl, fun u => ⟨(s.tile u).e, rfl⟩⟩

theorem Quiet.trans {s t r : State} (a : Quiet s t) (b : Quiet t r) : Quiet s r := by
  refine ⟨?_, fun u => ?_⟩
  · have hb := b.rest
    rw [a.rest] at hb
    exact hb
  · obtain ⟨e, he⟩ := b.tiles u
    obtain ⟨e', he'⟩ := a.tiles u
    exact ⟨e, by rw [he, he']⟩

theorem Quiet.updFz (s : State) (id : Nat) (g : Frieze → Frieze) : Quiet s (s.updFz id g) := by
  refine ⟨?_, fun u => ⟨(s.tile u).e, by rw [State.updFz_tile]⟩⟩
  rw [State.updFz_only]

theorem Quiet.updSt (s : State) (id st : Nat) (g : Station → Station) : Quiet s (s.updSt id st g) := Quiet.updFz ..

theorem Quiet.updCounter (s : State) (id st : Nat) (k : BitVec 6) (g : Word → Word) : Quiet s (s.updCounter id st k g) := by
  refine ⟨?_, State.updCounter_tile s id st k g⟩
  rw [State.updCounter_only]

theorem Quiet.addCount (s : State) (id st : Nat) (k : BitVec 6) (n : Word) : Quiet s (s.addCount id st k n) := Quiet.updCounter ..

theorem Quiet.sigDone (s : State) (id st : Nat) (m : BitVec 2) (k : BitVec 6) : Quiet s (s.sigDone id st m k) := by
  unfold State.sigDone; split
  · exact Quiet.addCount ..
  · exact Quiet.refl s

theorem Quiet.deselect (s : State) : Quiet s s.deselect := ⟨rfl, fun u => ⟨(s.tile u).e, rfl⟩⟩

theorem Quiet.consumeWait (c : Ctx) (i : Instr) (s : State) : Quiet s (consumeWait c i s) := by
  have h1 : ∀ t : State, Quiet s t → Quiet s (match i with
      | .waite _ g sub k => if c.on && sub then t.addCount c.id c.st k (-((c.g g).setWidth 32)) else t
      | _ => t) := by
    intro t ht
    split
    · split
      · exact ht.trans (Quiet.addCount ..)
      · exact ht
    · exact ht
  unfold Machine.consumeWait
  apply h1
  split
  · exact Quiet.addCount ..
  · split
    · exact Quiet.addCount ..
    · exact Quiet.refl s

theorem Quiet.beforeEffect (c : Ctx) (i : Instr) (s : State) : Quiet s (beforeEffect c i s) := by
  unfold Machine.beforeEffect
  split
  · exact (Quiet.consumeWait c i s).trans (Quiet.addCount ..)
  · exact Quiet.consumeWait c i s

theorem Quiet.applyResult (s : State) (id st : Nat) (r : Result) : Quiet s (applyResult s id st r) := Quiet.updSt ..

theorem Quiet.takeHeadPart (c : Ctx) (s : State) : Quiet s (takeHeadPart c s) := by
  unfold Machine.takeHeadPart
  split
  · exact Quiet.refl s
  · split
    · exact Quiet.refl s
    · split
      · exact Quiet.refl s
      · split
        · exact ((Quiet.applyResult ..).trans (Quiet.sigDone ..)).trans (Quiet.updFz ..)
        · exact (Quiet.applyResult ..).trans (Quiet.sigDone ..)

theorem Quiet.advance (c : Ctx) (s : State) : Quiet s (advance c s) := (Quiet.updFz ..).trans (Quiet.deselect _)

theorem Quiet.completeWord (c : Ctx) (i : Instr) (s : State) (now : Bool) : Quiet s (completeWord c i s now) := by
  unfold Machine.completeWord
  have h1 : Quiet s (if now = true then s.sigDone c.id c.st c.h.sigMode c.h.sigK else s) := by
    split
    · exact Quiet.sigDone ..
    · exact Quiet.refl s
  dsimp only
  split
  · exact (h1.trans (Quiet.takeHeadPart ..)).trans (Quiet.advance ..)
  · exact h1.trans (Quiet.advance ..)

theorem Quiet.skipWord (c : Ctx) (i : Instr) (s : State) : Quiet s (skipWord c i s) := by
  unfold Machine.skipWord
  dsimp only
  split
  · exact ((Quiet.consumeWait ..).trans (Quiet.addCount ..)).trans (Quiet.advance ..)
  · exact (Quiet.consumeWait ..).trans (Quiet.advance ..)

theorem Quiet.discardWord (c : Ctx) (s : State) : Quiet s (discardWord c s) :=
  ((Quiet.advance ..).trans (Quiet.updSt ..)).trans (Quiet.updFz ..)

theorem Quiet.heldAt (c : Ctx) (w : Why) (s : State) : Quiet s (heldAt c w s) := (Quiet.updSt ..).trans (Quiet.deselect _)

theorem Quiet.raise (s : State) (id st : Nat) (cause : Cause) (slot : Option Nat) (d0 d1 d2 : Dword) :
    Quiet s (s.raise id st cause slot d0 d1 d2) := Quiet.updFz ..

theorem Quiet.trapAt (c : Ctx) (cause : Cause) (d0 : Dword) (s : State) : Quiet s (trapAt c cause d0 s) :=
  (Quiet.raise ..).trans (Quiet.deselect _)

/-- A word whose effects change nothing but friezes, counters and the selection changes nothing else on any outcome but a violation. -/
theorem Quiet.issueWord {i : Instr} {h : Hdr} {s t : State} {body : Ctx → State → Eff}
    (hd : ∀ c r q now, body c r = .done q now → Quiet r q) (hv : ∀ c r cause a, body c r ≠ .viol cause a)
    (ht : issueWord i h s body = .next t) : Quiet s t := by
  unfold Machine.issueWord at ht
  split at ht
  · cases ht
  · split at ht
    · cases ht; exact Quiet.discardWord ..
    · split at ht
      · cases ht; exact Quiet.trapAt ..
      · split at ht
        · cases ht; exact Quiet.trapAt ..
        · split at ht
          · cases ht; exact Quiet.heldAt ..
          · split at ht
            · cases ht; exact Quiet.skipWord ..
            · split at ht
              · rename_i hb
                cases ht
                exact ((Quiet.beforeEffect ..).trans (hd _ _ _ _ hb)).trans (Quiet.completeWord ..)
              · cases ht; exact Quiet.trapAt ..
              · rename_i hb; exact absurd hb (hv _ _ _ _)

/-- Memory is left alone with the rest. -/
theorem Quiet.sameBytes {s t : State} (q : Quiet s t) : SameBytes s t := by
  intro k a
  cases k with
  | tile u => obtain ⟨e, he⟩ := q.tiles u; simp [State.mem, he]
  | sram => simp only [State.mem]; rw [q.rest]
  | hbm => simp only [State.mem]; rw [q.rest]

/-! ### The station of a word that has issued -/

theorem consumeWait_station (c : Ctx) (i : Instr) (s : State) {a b : Nat} {x : Station} (h : s.station? a b = some x) :
    ∃ e, (consumeWait c i s).station? a b = some { x with e := e } := by
  have h1 : ∀ t : State, (∃ e, t.station? a b = some { x with e := e }) → ∃ e, (match i with
      | .waite _ g sub k => if c.on && sub then t.addCount c.id c.st k (-((c.g g).setWidth 32)) else t
      | _ => t).station? a b = some { x with e := e } := by
    rintro t ⟨e, ht⟩
    split
    · split
      · obtain ⟨e', h'⟩ := State.updCounter_station t c.id c.st _ _ ht
        exact ⟨e', h'⟩
      · exact ⟨e, ht⟩
    · exact ⟨e, ht⟩
  unfold Machine.consumeWait
  apply h1
  split
  · exact State.updCounter_station _ _ _ _ _ h
  · split
    · exact State.updCounter_station _ _ _ _ _ h
    · exact ⟨x.e, h⟩

theorem beforeEffect_station (c : Ctx) (i : Instr) (s : State) {a b : Nat} {x : Station} (h : s.station? a b = some x) :
    ∃ e, (beforeEffect c i s).station? a b = some { x with e := e } := by
  obtain ⟨e, he⟩ := consumeWait_station c i s h
  unfold Machine.beforeEffect
  split
  · obtain ⟨e', h'⟩ := State.updCounter_station _ c.id c.st c.h.sigK (· + 1) he
    exact ⟨e', h'⟩
  · exact ⟨e, he⟩

theorem advance_station (c : Ctx) (s : State) {x : Station} (h : s.station? c.id c.st = some x) :
    (advance c s).station? c.id c.st = some x.moved := by
  unfold State.station? at h ⊢
  cases hf : s.friezes.find c.id with
  | none => simp [hf] at h
  | some f =>
    rw [hf] at h
    have hx : f.stations[c.st]? = some x := h
    show ((State.updFz s c.id _).friezes.find c.id).bind _ = _
    rw [State.updFz_find hf]
    have h1 : ∀ y : Station, ((f.updSt c.st (·.moved)).updSt (c.st + 1) fun x =>
        { x with entered := x.entered ++ [s.cycles.toNat] }).stations[c.st]? = some x.moved := by
      intro _
      rw [Frieze.updSt_get_ne _ _ (by omega)]
      exact Frieze.updSt_get hx _
    simp only [Option.bind]
    split <;> split <;> exact h1 x

theorem completeWord_station {c : Ctx} {i : Instr} {s : State} {now : Bool} {x : Station} (ha : i.asksHead = false)
    (h : s.station? c.id c.st = some x) :
    ∃ e, (completeWord c i s now).station? c.id c.st = some ({ x with e := e } : Station).moved := by
  unfold Machine.completeWord
  simp only [ha, Bool.false_eq_true, if_false]
  split
  · obtain ⟨e, he⟩ := State.sigDone_station s c.id c.st c.h.sigMode c.h.sigK h
    exact ⟨e, advance_station c _ he⟩
  · exact ⟨x.e, advance_station c _ h⟩

/-- A word complete at issue whose effect is a change of its station that leaves the counters alone. -/
theorem Issues.onStation {s : State} {i : Instr} {h : Hdr} {c : Ctx} (hi : Issues s i h c) (ha : i.asksHead = false)
    {g : Station → Station} (hg : ∀ (x : Station) e, ∃ e', g { x with e := e } = { g x with e := e' }) {body : Ctx → State → Eff}
    {now : Bool} (hb : body c (beforeEffect c i s) = .done (c.upd (beforeEffect c i s) g) now) :
    ∃ t e, issueWord i h s body = .next t ∧ t.station? c.id c.st = some ({ g c.x with e := e } : Station).moved := by
  rw [hi.exec, hb]
  obtain ⟨e, he⟩ := beforeEffect_station c i s hi.station
  obtain ⟨e', h'⟩ := hg c.x e
  have h2 : (c.upd (beforeEffect c i s) g).station? c.id c.st = some { g c.x with e := e' } := by
    rw [← h']; exact State.updSt_station he g
  obtain ⟨e'', h3⟩ := completeWord_station (now := now) ha h2
  exact ⟨_, e'', rfl, h3⟩

end Sys2Proof.Machine
end

