-- ==== Sys2Proof/Laws/Integer.lean ====
section
/-! SUPPORT. What the integer results of groups 0x1 and 0x2 are, and what an integer word does. -/

namespace Sys2Proof.Machine

theorem setG_e (d : Reg) (v : Dword) (x : Station) (e : Vector Word 32) :
    ∃ e', ({ x with e := e } : Station).setG d v = { x.setG d v with e := e' } := by
  unfold Station.setG; split <;> exact ⟨e, rfl⟩

theorem aluWord_issues {s : State} {i : Instr} {h : Hdr} {c : Ctx} (hi : Issues s i h c) (ha : i.asksHead = false)
    (d : Reg) (v : Ctx → Dword) :
    ∃ t e, aluWord i h d v s = .next t ∧ t.station? c.id c.st = some ({ c.x.setG d (v c) with e := e } : Station).moved :=
  Issues.onStation hi ha (g := (·.setG d (v c))) (setG_e d (v c)) rfl

/-- The conditions of R307. -/
theorem condHolds_iff (cond : BitVec 4) (a b : Dword) : condHolds cond a b = true ↔
    (cond = 0 ∧ a = b) ∨ (cond = 1 ∧ a ≠ b) ∨ (cond = 2 ∧ a.toInt < b.toInt) ∨ (cond = 3 ∧ a.toInt ≤ b.toInt) ∨
    (cond = 4 ∧ a.toInt > b.toInt) ∨ (cond = 5 ∧ a.toInt ≥ b.toInt) ∨ (cond = 6 ∧ a.toNat < b.toNat) ∨
    (cond = 7 ∧ a.toNat ≤ b.toNat) ∨ (cond = 8 ∧ a.toNat > b.toNat) ∨ (cond = 9 ∧ a.toNat ≥ b.toNat) := by
  unfold condHolds
  have hc : cond = 0 ∨ cond = 1 ∨ cond = 2 ∨ cond = 3 ∨ cond = 4 ∨ cond = 5 ∨ cond = 6 ∨ cond = 7 ∨ cond = 8 ∨ cond = 9
      ∨ cond = 10 ∨ cond = 11 ∨ cond = 12 ∨ cond = 13 ∨ cond = 14 ∨ cond = 15 := by
    revert cond; decide
  rcases hc with h|h|h|h|h|h|h|h|h|h|h|h|h|h|h|h <;> subst h <;>
    simp [BitVec.slt, BitVec.sle, BitVec.ult, BitVec.ule]

theorem clz_spec (a : Dword) : ∀ n, n ≤ 64 → leadingZeros a n ≤ n ∧ (∀ k, n - leadingZeros a n ≤ k → k < n → a.getLsbD k = false) ∧
    (leadingZeros a n < n → a.getLsbD (n - 1 - leadingZeros a n) = true) := by
  intro n
  induction n with
  | zero => intro _; simp [leadingZeros]
  | succ n ih =>
    intro hn
    obtain ⟨h1, h2, h3⟩ := ih (by omega)
    unfold leadingZeros
    split
    · rename_i hb
      refine ⟨by omega, fun k hk hk' => by omega, fun _ => by simpa using hb⟩
    · rename_i hb
      refine ⟨by omega, fun k hk hk' => ?_, fun hlt => ?_⟩
      · by_cases hkn : k = n
        · subst hkn; simpa using hb
        · exact h2 k (by omega) (by omega)
      · have := h3 (by omega)
        rw [show n + 1 - 1 - (leadingZeros a n + 1) = n - 1 - leadingZeros a n by omega]
        exact this

theorem popc_spec (a : Dword) : ∀ n, onesBelow a n = ((List.range n).filter fun k => a.getLsbD k).length := by
  intro n
  induction n with
  | zero => rfl
  | succ n ih =>
    rw [List.range_succ, List.filter_append, List.length_append, ← ih]
    rw [onesBelow]
    cases h : a.getLsbD n <;> simp [h, Nat.add_comm]

theorem sx26_eq (k : BitVec 26) : sx26 k = BitVec.ofInt 64 k.toInt := rfl

theorem or_low (a : Dword) (k : BitVec 26) : (a <<< 26) ||| k.zeroExtend 64 = BitVec.ofNat 64 (a.toNat * 2 ^ 26 + k.toNat) := by
  apply BitVec.eq_of_toNat_eq
  rw [BitVec.toNat_or, BitVec.toNat_shiftLeft, BitVec.toNat_setWidth, BitVec.toNat_ofNat, Nat.shiftLeft_eq,
    Nat.mod_eq_of_lt (show k.toNat < 2 ^ 64 by have := k.isLt; omega)]
  have hk := k.isLt
  have : a.toNat * 2 ^ 26 % 2 ^ 64 = (a.toNat % 2 ^ 38) <<< 26 := by rw [Nat.shiftLeft_eq]; omega
  rw [this, ← Nat.shiftLeft_add_eq_or_of_lt hk, Nat.shiftLeft_eq]
  omega

theorem mulHigh_u (a b : Dword) : mulHigh true a b = (a.zeroExtend 128 * b.zeroExtend 128).extractLsb' 64 64 := by
  apply BitVec.eq_of_toNat_eq
  have ha := a.isLt
  have hb := b.isLt
  have : a.toNat * b.toNat < 2 ^ 128 := by
    calc a.toNat * b.toNat < 2 ^ 64 * 2 ^ 64 := Nat.mul_lt_mul'' ha hb
      _ = 2 ^ 128 := by norm_num
  simp only [mulHigh, if_true, BitVec.toNat_ofNat, BitVec.extractLsb'_toNat, BitVec.toNat_mul, BitVec.toNat_setWidth,
    Nat.shiftRight_eq_div_pow]
  rw [Nat.mod_eq_of_lt (show a.toNat < 2 ^ 128 by omega), Nat.mod_eq_of_lt (show b.toNat < 2 ^ 128 by omega), Nat.mod_eq_of_lt this]

theorem mulHigh_s (a b : Dword) : mulHigh false a b = (a.signExtend 128 * b.signExtend 128).extractLsb' 64 64 := by
  apply BitVec.eq_of_toNat_eq
  have h1 : ((a.signExtend 128 * b.signExtend 128).toNat : Int) = (a.toInt * b.toInt) % (2 ^ 128 : Nat) := by
    have e : a.signExtend 128 * b.signExtend 128 = BitVec.ofInt 128 (a.toInt * b.toInt) := by
      rw [BitVec.ofInt_mul]; rfl
    rw [e, BitVec.toNat_ofInt]
    omega
  simp only [mulHigh, Bool.false_eq_true, if_false, BitVec.extractLsb'_toNat, Nat.shiftRight_eq_div_pow, BitVec.toNat_ofInt]
  generalize a.toInt * b.toInt = p at *
  generalize (a.signExtend 128 * b.signExtend 128).toNat = n at *
  omega


theorem low6 (b : Dword) : (b.extractLsb' 0 6).toNat = b.toNat % 64 := by
  simp [BitVec.extractLsb'_toNat]

theorem shl_eq_mul (a : Dword) (n : Nat) : a <<< n = a * BitVec.ofNat 64 (2 ^ n) := by
  apply BitVec.eq_of_toNat_eq
  rw [BitVec.toNat_shiftLeft, BitVec.toNat_mul, BitVec.toNat_ofNat, Nat.shiftLeft_eq, Nat.mul_mod_mod]

theorem shr_toNat (a : Dword) (n : Nat) : (a >>> n).toNat = a.toNat / 2 ^ n := by
  rw [BitVec.toNat_ushiftRight, Nat.shiftRight_eq_div_pow]

theorem sar_toInt (a : Dword) (n : Nat) : (a.sshiftRight n).toInt = a.toInt / 2 ^ n := by
  rw [BitVec.toInt_sshiftRight, Int.shiftRight_eq_div_pow]
  push_cast; rfl

theorem minBv_u (a b : Dword) : (minBv true a b).toNat = Nat.min a.toNat b.toNat := by
  simp only [minBv, if_true, BitVec.ule, decide_eq_true_eq]
  split <;> rename_i h
  · exact (Nat.min_eq_left h).symm
  · exact (Nat.min_eq_right (by omega)).symm

theorem minBv_s (a b : Dword) : (minBv false a b).toInt = min a.toInt b.toInt := by
  simp only [minBv, Bool.false_eq_true, if_false, BitVec.sle, decide_eq_true_eq]
  split <;> omega

theorem maxBv_u (a b : Dword) : (maxBv true a b).toNat = Nat.max a.toNat b.toNat := by
  simp only [maxBv, if_true, BitVec.ule, decide_eq_true_eq]
  split <;> rename_i h
  · exact (Nat.max_eq_right h).symm
  · exact (Nat.max_eq_left (by omega)).symm

theorem maxBv_s (a b : Dword) : (maxBv false a b).toInt = max a.toInt b.toInt := by
  simp only [maxBv, Bool.false_eq_true, if_false, BitVec.sle, decide_eq_true_eq]
  split <;> omega

theorem leadingZeros_le (a : Dword) : leadingZeros a 64 ≤ 64 := (clz_spec a 64 (by omega)).1

theorem onesBelow_le (a : Dword) : ∀ n, onesBelow a n ≤ n := by
  intro n
  induction n with
  | zero => simp [onesBelow]
  | succ n ih =>
    rw [onesBelow]
    have : (a.getLsbD n).toNat ≤ 1 := by cases a.getLsbD n <;> simp
    omega

end Sys2Proof.Machine
end

