-- ==== Sys2Proof/Laws/Memory.lean ====
section
/-! SUPPORT. The laws of memory: every operation keeps the canonical form; a read after a write; what a write leaves alone. -/

namespace Sys2Proof.Machine

theorem Memory.empty_wf : Memory.empty.wf := by simp [Memory.wf, Memory.empty, Tab.Sorted]

theorem Memory.write_wf {m : Memory} (h : m.wf) (a : Nat) (b : Byte) : (m.write a b).wf := by
  unfold Memory.write
  by_cases hb : b = 0
  · simp only [hb, if_true]
    exact ⟨Tab.sorted_del h.1 a, fun c hc => h.2 c (Tab.mem_del hc)⟩
  · simp only [hb, if_false]
    refine ⟨Tab.sorted_put h.1 a b, fun c hc => ?_⟩
    rcases Tab.mem_put hc with e | e
    · subst e; exact hb
    · exact h.2 c e

theorem Memory.storeBytes_wf {m : Memory} (h : m.wf) (a : Nat) (bs : List Byte) : (m.storeBytes a bs).wf := by
  induction bs generalizing m a with
  | nil => exact h
  | cons b bs ih => exact ih (Memory.write_wf h a b) (a + 1)

theorem Memory.writeBytes_wf {m : Memory} (h : m.wf) (a : Nat) (bs : List Byte) : (m.writeBytes a bs).wf :=
  Memory.storeBytes_wf h a bs

theorem Memory.poison_wf {m : Memory} (h : m.wf) (l : Nat) : (m.poison l).wf := h

theorem Memory.read_empty (a : Nat) : Memory.empty.read a = 0 := rfl

theorem Memory.read_write_self {m : Memory} (h : m.wf) (a : Nat) (b : Byte) : (m.write a b).read a = b := by
  unfold Memory.read Memory.write
  by_cases hb : b = 0
  · simp [hb, Tab.find_del_self h.1]
  · rw [if_neg hb, Tab.find_put_self]; rfl

theorem Memory.read_write_ne (m : Memory) {a x : Nat} (b : Byte) (h : x ≠ a) : (m.write a b).read x = m.read x := by
  unfold Memory.read Memory.write
  by_cases hb : b = 0
  · simp [hb, Tab.find_del_ne _ h]
  · rw [if_neg hb, Tab.find_put_ne _ b h]

/-- A byte outside the bytes stored is left alone. -/
theorem Memory.read_storeBytes_out (m : Memory) (a : Nat) (bs : List Byte) {x : Nat} (h : x < a ∨ a + bs.length ≤ x) :
    (m.storeBytes a bs).read x = m.read x := by
  induction bs generalizing m a with
  | nil => rfl
  | cons b bs ih =>
    have hl : (b :: bs).length = bs.length + 1 := rfl
    rw [Memory.storeBytes, ih (m.write a b) (a + 1) (by omega), Memory.read_write_ne]
    omega

/-- A byte stored reads back. -/
theorem Memory.read_storeBytes_in {m : Memory} (h : m.wf) (a : Nat) (bs : List Byte) {k : Nat} (hk : k < bs.length) :
    (m.storeBytes a bs).read (a + k) = bs[k] := by
  induction bs generalizing m a k with
  | nil => exact absurd hk (Nat.not_lt_zero _)
  | cons b bs ih =>
    cases k with
    | zero =>
      rw [Memory.storeBytes, Memory.read_storeBytes_out _ _ _ (by omega)]
      simpa using Memory.read_write_self h a b
    | succ k =>
      have hk' : k < bs.length := by simpa using hk
      have := ih (Memory.write_wf h a b) (a + 1) hk'
      rw [Memory.storeBytes, show a + (k + 1) = a + 1 + k by omega, this]
      rfl

@[simp] theorem Memory.writeBytes_read (m : Memory) (a : Nat) (bs : List Byte) (x : Nat) :
    (m.writeBytes a bs).read x = (m.storeBytes a bs).read x := rfl

theorem Memory.readBytes_length (m : Memory) (a n : Nat) : (m.readBytes a n).length = n := by
  induction n generalizing a with
  | zero => rfl
  | succ n ih => simp [Memory.readBytes, ih]

theorem Memory.readBytes_get (m : Memory) (a n : Nat) {k : Nat} (hk : k < n) :
    (m.readBytes a n)[k]? = some (m.read (a + k)) := by
  induction n generalizing a k with
  | zero => exact absurd hk (Nat.not_lt_zero _)
  | succ n ih =>
    cases k with
    | zero => simp [Memory.readBytes]
    | succ k =>
      have := ih (a + 1) (show k < n by omega)
      simp only [Memory.readBytes, List.getElem?_cons_succ, this]
      rw [show a + 1 + k = a + (k + 1) by omega]

/-- Bytes stored read back together. -/
theorem Memory.readBytes_storeBytes {m : Memory} (h : m.wf) (a : Nat) (bs : List Byte) :
    (m.storeBytes a bs).readBytes a bs.length = bs := by
  apply List.ext_getElem?
  intro k
  by_cases hk : k < bs.length
  · rw [Memory.readBytes_get _ _ _ hk, Memory.read_storeBytes_in h a bs hk, List.getElem?_eq_getElem hk]
  · rw [List.getElem?_eq_none (by rw [Memory.readBytes_length]; omega), List.getElem?_eq_none (by omega)]

end Sys2Proof.Machine
end

