-- ==== Sys2Proof/Tests/Slice0.lean ====
section
/-! SUPPORT. The model's own tests: ill-formed terms the check refuses, words written out from the encoding tables, and for every statement with hypotheses a state and operands that meet them. -/

open Sys2Proof Sys2Proof.Machine Sys2Proof.Slice0

set_option maxRecDepth 100000

namespace Sys2Proof.Tests

/-! ### Well-formedness (R43) -/

/-- The header with predicate p1 and every mode clear. -/
def Hdr.p1 : Hdr := { Hdr.plain with pred := 1 }

/-- A stream word's operands on slot s3, shape h2, base g[10] and view v1. -/
def ops : StOps := ⟨3, 2, 10, 1⟩

/-- The same with base g31, which leaves no register for the side base. -/
def ops31 : StOps := ⟨3, 2, 31, 1⟩

/-- Every term of a list is refused by the check. -/
abbrev Refused (l : List Instr) : Prop := ∀ i ∈ l, i.wf = false

/-- N with p0, SIGNAL mode 10 on a word that delivers no sectors, and a WAIT byte on WAITE. -/
theorem test_wf_header :
    Refused [.nop { Hdr.plain with neg := true }, .add { Hdr.plain with sigMode := 2 } 3 1 2,
      .waite { Hdr.plain with waitMode := 1 } 6 true 40] := by decide

/-- Numbers no CSR has. -/
theorem test_wf_csr : Refused [.csrr Hdr.plain 5 0x007, .csrw Hdr.plain 5 0x023, .csrx Hdr.plain 5 0x080] := by decide

/-- Reserved conditions and branch kinds, a predicate index above 7, BR of kind 0 with a register, LOOP on g0. -/
theorem test_wf_control :
    Refused [.cmp Hdr.plain 3 1 2 10, .cmpi Hdr.plain 3 1 15 0, .br Hdr.plain 5 5 0, .br Hdr.plain 1 0 0, .br Hdr.plain 8 1 0,
      .loop Hdr.plain 0 0, .pset Hdr.plain 1 2 3 15, .pset Hdr.plain 1 8 3 10, .pset Hdr.plain 1 3 8 13] := by decide

/-- A register group past g31, two destinations in one register, and operations that atomics do not have. -/
theorem test_wf_scalar :
    Refused [.ldq Hdr.plain 29 4 0, .stq Hdr.plain 31 4 0, .atomg Hdr.plain 3 10 4 0 11 false, .atomg Hdr.plain 3 10 4 0 10 true,
      .atomg Hdr.plain 3 10 4 5 2 true, .viewldGet Hdr.plain 1 4 4, .portrd Hdr.plain 4 4 0] := by decide

/-- A side base past g31, one out-port for data and indices, and SPORTCFG with threshold 0. -/
theorem test_wf_stream :
    Refused [.srd Hdr.plain ops31 4 false false 1, .swr Hdr.plain ops31 4 false false 2 false, .swin Hdr.plain ops31 4 3,
      .smc Hdr.plain ops31 4 0 false false 1, .sgath Hdr.plain ops31 4 5 false false 1 false,
      .sscat Hdr.plain ops31 4 5 false false 1 false false, .sscat Hdr.plain ops 4 4 false false 0 false false,
      .sscata Hdr.plain ops 4 4 0 false false false, .sportcfg Hdr.plain 33 0 40] := by decide

/-- A scope FENCE does not have, a RATOM operation out of range, columns and ports that end before they begin or past the last,
and RENORM with NOGATE. -/
theorem test_wf_units :
    Refused [.fence Hdr.plain 2 2 5, .ratom Hdr.plain 5 12 6 0 15 true true 2, .ratom Hdr.plain 5 12 6 1 2 true true 2,
      .accsave Hdr.plain 0 5 4 3, .accload Hdr.plain 0 5 15 14, .chbind Hdr.plain 17 10 15,
      .ercomb Hdr.plain 4 17 6 7 true true] := by decide

/-- A command with no operand set. -/
def noCmd : Cmd := ⟨0, 0, 0, 0, 0, 0, 0, 0, 0, 0⟩

/-- An assigned OP under the name of the reserved ones, a queue that is not there and a record of seven doublewords. -/
theorem test_wf_host :
    Refused [.reservedOpCommand 0x19 noCmd, .hostAppend 65536 (List.replicate 8 0), .hostAppend 0 (List.replicate 7 0)] := by decide

/-! ### Decoding: words written out from the encodings -/

/-- Every word of a list decodes to its instruction, and the instruction encodes to the word. -/
abbrev Decodes (l : List (Nat × Instr)) : Prop :=
  ∀ p ∈ l, decodeTableWord 64 p.1 = some p.2 ∧ p.2.encode = [BitVec.ofNat 64 p.1]

/-- The words of groups 0x0 (R40, R380–R385, R401, R343), put together by hand from their fields, decode to their instructions. -/
theorem test_decode_system :
    Decodes [
      (0x45FFF00000000000, .nop ⟨1, 5, 3, 63, true, 7⟩),
      (0x0000001000000015, .trap Hdr.plain 0x15),
      (0x0000002200000000, .resume Hdr.plain 4),
      (0x0000003280000002, .csrr Hdr.plain 5 0x002),
      (0x0000004380000030, .csrw Hdr.plain 7 0x030),
      (0x000000548000007F, .csrx Hdr.plain 9 0x07F),
      (0x0000006214000000, .codeinv Hdr.plain 4 5),
      (0x0000007000000000, .yield Hdr.plain),
      (0x0000008000000007, .brk Hdr.plain 7),
      (0x0000009200000000, .freeze Hdr.plain 4),
      (0x000000AF80000000, .thaw Hdr.plain 31),
      (0x004200B424000000, .launch ⟨0, 0, 1, 2, false, 0⟩ 8 9)
    ] := by decide

/-- The words of group 0x1, format RR (R34, R306–R309), put together by hand from their fields, decode to their instructions. -/
theorem test_decode_integer :
    Decodes [
      (0x0000010184400000, .add Hdr.plain 3 1 2),
      (0x0000011184400000, .sub Hdr.plain 3 1 2),
      (0x0000012184400000, .mul Hdr.plain 3 1 2),
      (0x0000014184400000, .and Hdr.plain 3 1 2),
      (0x0000015184400000, .or Hdr.plain 3 1 2),
      (0x0000016184400000, .xor Hdr.plain 3 1 2),
      (0x0000017184400000, .shl Hdr.plain 3 1 2),
      (0x0000018184400000, .shr Hdr.plain 3 1 2),
      (0x0000019184400000, .sar Hdr.plain 3 1 2),
      (0x0000013184400100, .mulh Hdr.plain 3 1 2 true),
      (0x000001A184400100, .min Hdr.plain 3 1 2 true),
      (0x000001B184400000, .max Hdr.plain 3 1 2 false),
      (0x000001C184000000, .clz Hdr.plain 3 1),
      (0x000001D184000000, .popc Hdr.plain 3 1),
      (0x000001E184440000, .sel Hdr.plain 3 1 2 4),
      (0x000001F184404000, .cmp Hdr.plain 3 1 2 4)
    ] := by decide

/-- The words of group 0x2, format RI (R35, R310), put together by hand from their fields, decode to their instructions. -/
theorem test_decode_immediate :
    Decodes [
      (0x000002029BFFFFFE, .addi Hdr.plain 5 6 0x3FFFFFE),
      (0x000002129BFFFFFE, .subi Hdr.plain 5 6 0x3FFFFFE),
      (0x000002229BFFFFFE, .muli Hdr.plain 5 6 0x3FFFFFE),
      (0x000002329BFFFFFE, .andi Hdr.plain 5 6 0x3FFFFFE),
      (0x000002429BFFFFFE, .ori Hdr.plain 5 6 0x3FFFFFE),
      (0x000002529BFFFFFE, .xori Hdr.plain 5 6 0x3FFFFFE),
      (0x000002929BFFFFFE, .mini Hdr.plain 5 6 0x3FFFFFE),
      (0x000002A29BFFFFFE, .maxi Hdr.plain 5 6 0x3FFFFFE),
      (0x000002C29BFFFFFE, .movhi Hdr.plain 5 6 0x3FFFFFE),
      (0x000002629800003F, .shli Hdr.plain 5 6 63),
      (0x000002729800003F, .shri Hdr.plain 5 6 63),
      (0x000002829800003F, .sari Hdr.plain 5 6 63),
      (0x000002B29A7FFFFF, .cmpi Hdr.plain 5 6 9 0x3FFFFF)
    ] := by decide

/-- The words of group 0x3, formats BR, RR and SY (R36, R311–R320), put together by hand from their fields, decode to their instructions. -/
theorem test_decode_control :
    Decodes [
      (0x00000302CFFFFFFD, .br Hdr.plain 5 4 0xFFFFFFD),
      (0x000003108FFFFFFD, .brany Hdr.plain 1 0xFFFFFFD),
      (0x0000032380000002, .brall Hdr.plain 7 2),
      (0x000003328FFFFFFD, .loop Hdr.plain 5 0xFFFFFFD),
      (0x0000034F00000064, .call Hdr.plain 30 100),
      (0x0000035F00000000, .ret Hdr.plain 30),
      (0x0000036098804000, .pset Hdr.plain 1 6 4 4),
      (0x0000037000000000, .trig Hdr.plain),
      (0x0000038000000000, .exit Hdr.plain),
      (0x0000039300100028, .waite Hdr.plain 6 true 40),
      (0x000003A300100028, .sige Hdr.plain 6 true 40)
    ] := by decide

/-- The words of group 0x4 (R201–R213), put together by hand from their fields, decode to their instructions. -/
theorem test_decode_scalar :
    Decodes [
      (0x0000040427FFFFE0, .lds Hdr.plain 8 9 0x3FFFFE0),
      (0x0000041427FFFFE0, .sts Hdr.plain 8 9 0x3FFFFE0),
      (0x0000042427FFFFE0, .ldq Hdr.plain 8 9 0x3FFFFE0),
      (0x0000043427FFFFE0, .stq Hdr.plain 8 9 0x3FFFFE0),
      (0x0000044427FFFFE0, .ldg Hdr.plain 8 9 0x3FFFFE0),
      (0x0000045427FFFFE0, .stg Hdr.plain 8 9 0x3FFFFE0),
      (0x00000461A8802800, .atomg Hdr.plain 3 10 4 0 2 true),
      (0x0000047088641400, .shape Hdr.plain 5 1 2 3 4),
      (0x0000048088001400, .viewld Hdr.plain 5 1 2),
      (0x0000048088001401, .viewldGet Hdr.plain 5 1 2),
      (0x000004908800003F, .portrd Hdr.plain 1 2 31),
      (0x000004A08800001F, .portwr Hdr.plain 1 2 31),
      (0x000004B08800003F, .portspc Hdr.plain 1 2 63)
    ] := by decide

/-- The words of groups 0x5 to 0x7, format ST (R37, R215–R225), put together by hand from their fields, decode to their instructions. -/
theorem test_decode_stream :
    Decodes [
      (0x45872501884A200B, .srd ⟨1, 5, 2, 7, false, 2⟩ ⟨3, 2, 10, 1⟩ 4 true true 2),
      (0x00000511C84A202E, .swr Hdr.plain ⟨3, 2, 10, 1⟩ 4 false true 3 true),
      (0x00000521984A2000, .scp Hdr.plain ⟨3, 2, 10, 1⟩ 12),
      (0x00000531984A2000, .sfill Hdr.plain ⟨3, 2, 10, 1⟩ 12),
      (0x00000541884A2004, .swin Hdr.plain ⟨3, 2, 10, 1⟩ 4 1),
      (0x00000551884A2F01, .smc Hdr.plain ⟨3, 2, 10, 1⟩ 4 15 true false 0),
      (0x00000601884A2511, .sgath Hdr.plain ⟨3, 2, 10, 1⟩ 4 5 true false 0 true),
      (0x00000611C84A2525, .sscat Hdr.plain ⟨3, 2, 10, 1⟩ 4 5 true false 1 true false),
      (0x00000621C84A25D2, .sscata Hdr.plain ⟨3, 2, 10, 1⟩ 4 5 6 false true true),
      (0x0000070188400501, .srec Hdr.plain 3 2 4 5 true),
      (0x0000071042000828, .sportcfg Hdr.plain 33 8 40),
      (0x0000071042000080, .sportcfgOff Hdr.plain 33)
    ] := by decide

/-- The words of group 0x8, RATOM and RSIG (R244–R249), put together by hand from their fields, decode to their instructions. -/
theorem test_decode_order :
    Decodes [
      (0x000008000000000A, .sbar Hdr.plain 10),
      (0x0000081000040302, .fence Hdr.plain 2 3 4),
      (0x0000082000008001, .swaits Hdr.plain 0x8001),
      (0x000008320000000F, .sabort Hdr.plain 4 15),
      (0x00000C32B0C07C02, .ratom Hdr.plain 5 12 6 0 7 true true 2),
      (0x00000C4A04000002, .rsig Hdr.plain 20 1 2)
    ] := by decide

/-- The words of group 0x9 (R69, R76, R164–R170), put together by hand from their fields, decode to their instructions. -/
theorem test_decode_array :
    Decodes [
      (0x0000090424000C00, .maqld Hdr.plain 3 8 9),
      (0x0000091000000400, .maqgo Hdr.plain 1),
      (0x0000092000000800, .maqdrn Hdr.plain 2),
      (0x0000093280000329, .accsave Hdr.plain 3 5 2 9),
      (0x000009428000010F, .accload Hdr.plain 1 5 0 15),
      (0x000009550000400F, .chbind Hdr.plain 16 10 15),
      (0x0000096300000800, .srseed Hdr.plain 2 6)
    ] := by decide

/-- The words of group 0xA (R269–R275), put together by hand from their fields, decode to their instructions. -/
theorem test_decode_version :
    Decodes [
      (0x00000A0200000400, .snap Hdr.plain 1 4),
      (0x00000A1000001C00, .unsnap Hdr.plain 7),
      (0x00000A2200000400, .txbegin Hdr.plain 1 4),
      (0x00000A2200000401, .txbeginAge Hdr.plain 1 4),
      (0x00000A3600000404, .txclaim Hdr.plain 1 12 4),
      (0x00000A4200000400, .txcommit Hdr.plain 1 4),
      (0x00000A5000000400, .txabort Hdr.plain 1),
      (0x00000A6200000400, .txstat Hdr.plain 1 4)
    ] := by decide

/-- The words of group 0xB (R278–R291), put together by hand from their fields, decode to their instructions. -/
theorem test_decode_routing :
    Decodes [
      (0x00000B0200000000, .ercfg Hdr.plain 4),
      (0x00000B0000000001, .ercfgOff Hdr.plain),
      (0x00000B1214C00000, .erdisp Hdr.plain 4 5 6),
      (0x00000B1214C00003, .erdispReuse Hdr.plain 4 5 6 true),
      (0x00000B2244C70001, .ercomb Hdr.plain 4 17 6 7 true false),
      (0x00000B3200000000, .erstat Hdr.plain 4),
      (0x00000B4000040000, .erdrops Hdr.plain 4)
    ] := by decide

/-- The words of groups 0xC and 0xD (R346–R348, R358–R363), put together by hand from their fields, decode to their instructions. -/
theorem test_decode_fabric :
    Decodes [
      (0x00000C01A4001001, .route Hdr.plain 3 4 9 true),
      (0x00000C1000001000, .unroute Hdr.plain 4),
      (0x00000C222D800000, .owncfg Hdr.plain 4 11 12),
      (0x00000C5510001C00, .mcjoin Hdr.plain 10 7 4),
      (0x00000C5510001C01, .mcjoinLeave Hdr.plain 10 7 4),
      (0x00000D0214000000, .wlnew Hdr.plain 4 5),
      (0x00000D1214000000, .wlpush Hdr.plain 4 5),
      (0x00000D230000101F, .wlpop Hdr.plain 4 6 31),
      (0x00000D3214000000, .wlins Hdr.plain 4 5),
      (0x00000D4214000000, .wlcnt Hdr.plain 4 5),
      (0x00000D5200000000, .wlfree Hdr.plain 4)
    ] := by decide

/-- The words of group 0xE (R322–R327), put together by hand from their fields, decode to their instructions. -/
theorem test_decode_monitor :
    Decodes [
      (0x00000E0214000000, .smpcfg Hdr.plain 4 5),
      (0x00610E1000000000, .smpon ⟨0, 0, 1, 33, false, 0⟩),
      (0x00000E2000000000, .smpoff Hdr.plain),
      (0x00000E3384001103, .cntrd Hdr.plain 7 1 0x103 true),
      (0x00000E4480200000, .mark Hdr.plain 2 9)
    ] := by decide

set_option exponentiation.threshold 600 in
/-- Every OP of R387 with its command, and a reserved one: JOB in [15:8] of the first doubleword, TAG in [63:32]. -/
theorem test_decode_commands :
    ∀ p ∈ ([(0x01, .jobCreate), (0x02, .jobKill), (0x03, .setPartition), (0x04, .setShared), (0x05, .setJobreg), (0x06, .invalidate),
        (0x07, .queueSet), (0x08, .queueReset), (0x09, .domainSet), (0x0A, .mqSet), (0x0B, .freezeCmd), (0x0C, .thawCmd),
        (0x0D, .aperture), (0x0E, .scrub), (0x0F, .torusSet), (0x10, .linkTrain), (0x11, .ethKey), (0x12, .ethQp), (0x13, .attest),
        (0x14, .ctxPool), (0x15, .cast), (0x16, .restore), (0x17, .lifetime), (0x18, .power), (0x19, .fwLoad),
        (0x1A, .reservedOpCommand 0x1A)] : List (Nat × (Cmd → Instr))),
      decodeTableWord 512 (7 * 2 ^ 224 * 2 ^ 224 + 9 * 2 ^ 64 + 0x0000000500000300 + p.1) =
        some (p.2 { noCmd with tag := 5, job := 3, d1 := 9, d7 := 7 }) := by decide

/-- A reserved group, an unassigned function, a RSVD bit, an out-port where SRD needs an in-port, and slot 16 are refused (R37, R43). -/
theorem test_decode_refuses :
    ∀ w ∈ [0x00000F0000000000, 0x000000C000000000, 0x0000010184400001, 0x00000501C84A2000, 0x00000508084A2000],
      decodeTableWord 64 w = none := by decide

/-! ### States for the witnesses -/

/-- The state right after reset with a control word placed for the very next step. -/
def startAt (i : Instr) : State := State.reset.placeWord (i.encode?.getD 0)

/-- The placed station changed. -/
def withStation (g : Station → Station) (s : State) : State := s.updSt 0 0 g

/-- Registers of the placed station. -/
def withG (l : List (Reg × Dword)) (s : State) : State := withStation (fun x => l.foldl (fun x p => x.setG p.1 p.2) x) s

/-- The placed frieze changed. -/
def withFrieze (g : Frieze → Frieze) (s : State) : State := s.updFz 0 g

/-- The head tile changed. -/
def withTile (g : Tile → Tile) (s : State) : State := s.updTile 0 g

/-- The management job, which the placed frieze is of, changed. -/
def withJob (g : Job → Job) (s : State) : State := s.updJob 0 g

/-- The second of two stations, which stands at the word the head has issued. -/
def atSecond (i : Instr) (s : State) : State :=
  { s with
    friezes := s.friezes.map fun p => (p.1, { p.2 with
      stations := [{ Station.launch 0 View.launch with pos := 1 }, Station.launch 0 View.launch]
      fetched := []
      lane := [⟨i.encode?.getD 0, 0, true⟩] })
    cur := some ⟨0, 1, false⟩ }

/-- The context of a word in a state. -/
def ctxIn (s : State) (i : Instr) : Ctx :=
  (i.hdr?.bind (ctxOf s i)).getD
    ⟨0, placedFrieze 0, 0, Station.launch 0 View.launch, 0, 0, 0, 0, Hdr.plain, true, false⟩

/-- Whether a word issues in a state. -/
def issues (i : Instr) (s : State) : Bool :=
  match i.hdr?.bind (ctxOf s i) with
  | none => false
  | some c => c.f.skip != some c.lane && i.wf && (!i.privileged || c.job == 0) && (holdOf s c i).isNone && c.on

theorem issues_spec {i : Instr} {s : State} {h : Hdr} (hh : i.hdr? = some h) (hi : issues i s = true) : Issues s i h (ctxIn s i) := by
  unfold issues at hi
  unfold ctxIn
  simp only [hh, Option.bind_some] at hi ⊢
  split at hi
  · cases hi
  · rename_i c hc
    rw [hc]
    simp only [Bool.and_eq_true, bne_iff_ne, ne_eq, Bool.or_eq_true, Bool.not_eq_true', Option.isNone_iff_eq_none, beq_iff_eq] at hi
    exact ⟨hc, hi.1.1.1.1, hi.1.1.1.2, fun hp => hi.1.1.2.resolve_left (by simp [hp]), hi.1.2, hi.2⟩

/-- A word issues in a state and meets its row's condition there. -/
abbrev Meets (row : Instr → Option Row) (i : Instr) (s : State) : Prop := ∃ r c, row i = some r ∧ Issues s i r.hdr c ∧ r.pre s c

theorem Meets.of {row : Instr → Option Row} {i : Instr} {s : State} (r : Row) (hr : row i = some r) (hh : i.hdr? = some r.hdr)
    (hi : issues i s = true) (hp : r.pre s (ctxIn s i)) : Meets row i s := ⟨r, _, hr, issues_spec hh hi, hp⟩

/-! ### Witnesses: words complete at issue -/

/-- The words of groups 0x1 and 0x2, each issuing right after reset. -/
theorem witness_IntegerWords :
    ∀ i ∈ ([.add Hdr.plain 3 1 2, .sub Hdr.plain 3 1 2, .mul Hdr.plain 3 1 2, .mulh Hdr.plain 3 1 2 false, .mulh Hdr.plain 3 1 2 true,
        .and Hdr.plain 3 1 2, .or Hdr.plain 3 1 2, .xor Hdr.plain 3 1 2, .shl Hdr.plain 3 1 2, .shr Hdr.plain 3 1 2,
        .sar Hdr.plain 3 1 2, .min Hdr.plain 3 1 2 false, .max Hdr.plain 0 1 2 true, .clz Hdr.plain 3 1, .popc Hdr.plain 3 1,
        .sel Hdr.plain 3 1 2 4, .cmp Hdr.plain 3 1 2 9, .addi Hdr.plain 3 3 1, .subi Hdr.plain 3 3 1, .muli Hdr.plain 3 3 1,
        .andi Hdr.plain 3 3 1, .ori Hdr.plain 3 3 1, .xori Hdr.plain 3 3 1, .shli Hdr.plain 3 3 63, .shri Hdr.plain 3 3 0,
        .sari Hdr.plain 3 3 63, .mini Hdr.plain 3 3 1, .maxi Hdr.plain 3 3 1, .cmpi Hdr.plain 3 3 9 1, .movhi Hdr.plain 3 3 1] :
        List Instr), ∃ h d row c, integerRow i = some (h, d, row) ∧ Issues (startAt i) i h c := by
  simp only [List.forall_mem_cons, List.not_mem_nil, false_imp_iff, implies_true, and_true]
  and_intros <;> exact ⟨_, _, _, _, rfl, issues_spec rfl (by decide)⟩

/-- For StationWords, BranchWords, VoteWords, TrapAndBreakWords, TrigWord and ExitWord: the words that act on their station, its path or its
trap alone, at the head and, for those that differ there, at a second station. -/
theorem witness_PlainWords :
    (∀ i ∈ ([.nop Hdr.plain, .yield Hdr.plain, .pset Hdr.plain 1 6 4 4, .pset Hdr.plain 1 6 4 12, .pset Hdr.plain 1 6 4 14,
        .shape Hdr.plain 5 1 2 3 4, .viewldGet Hdr.plain 5 1 2, .waite Hdr.plain 6 true 40, .swaits Hdr.plain 0x8001,
        .sige Hdr.plain 6 true 40] : List Instr), Meets stationRow i (startAt i)) ∧
    (∀ i ∈ ([.br Hdr.plain 0 0 5, .br Hdr.plain 5 4 5, .loop Hdr.plain 5 5, .call Hdr.plain 30 5, .ret Hdr.plain 30] : List Instr),
      Meets branchRow i (startAt i) ∧ Meets branchRow i (atSecond i (startAt i))) ∧
    (∀ i ∈ ([.brany Hdr.plain 1 5, .brall Hdr.plain 1 5] : List Instr),
      Meets voteRow i (startAt i) ∧ Meets voteRow i (atSecond i (startAt i))) ∧
    (∀ i ∈ ([.trap Hdr.plain 7, .brk Hdr.plain 7] : List Instr),
      Meets trapRow i (startAt i) ∧ Meets trapRow i (atSecond i (startAt i))) ∧
    Meets trigRow (.trig Hdr.plain) (startAt (.trig Hdr.plain)) ∧
    Meets exitRow (.exit Hdr.plain) (startAt (.exit Hdr.plain)) := by
  simp only [List.forall_mem_cons, List.not_mem_nil, false_imp_iff, implies_true, and_true]
  and_intros <;> exact .of _ rfl rfl (by decide) trivial

/-- CSRR, CSRW and CSRX on a CSR of the station, one of the job, an event threshold and a read-only one. -/
theorem witness_CsrWords :
    ∀ i ∈ ([.csrr Hdr.plain 5 0x002, .csrr Hdr.plain 5 0x012, .csrr Hdr.plain 5 0x07F, .csrw Hdr.plain 5 0x030, .csrw Hdr.plain 5 0x020,
        .csrx Hdr.plain 5 0x040, .csrx Hdr.plain 5 0x000] : List Instr), Meets csrRow i (startAt i) := by
  simp only [List.forall_mem_cons, List.not_mem_nil, false_imp_iff, implies_true, and_true]
  and_intros <;> exact .of _ rfl rfl (by decide) (by decide)

/-- LOCAL address 2^19 − 32: the last 32 bytes of a scratchpad. -/
def topLocal : Dword := 0x7FFE0

/-- LDS and LDQ at the last bytes LOCAL space has. -/
theorem witness_ScalarLoads :
    Meets loadRow (.lds Hdr.plain 8 9 24) (withG [(9, topLocal)] (startAt (.lds Hdr.plain 8 9 24))) ∧
    Meets loadRow (.ldq Hdr.plain 28 9 0) (withG [(9, topLocal)] (startAt (.ldq Hdr.plain 28 9 0))) :=
  ⟨.of _ rfl rfl (by decide) ⟨⟨⟨.tile 0, 0x7FFF8, none⟩, ⟨by decide, by rfl⟩, by decide⟩, by decide, by decide⟩,
   .of _ rfl rfl (by decide) ⟨⟨⟨.tile 0, 0x7FFE0, none⟩, ⟨by decide, by rfl⟩, by decide⟩, by decide, by decide⟩⟩

/-- STS and STQ at the last bytes LOCAL space has; the memory stored to is in canonical form. -/
theorem witness_ScalarStores :
    (Meets storeRow (.sts Hdr.plain 8 9 24) (withG [(9, topLocal)] (startAt (.sts Hdr.plain 8 9 24))) ∧
      Meets storeRow (.stq Hdr.plain 28 9 0) (withG [(9, topLocal)] (startAt (.stq Hdr.plain 28 9 0)))) ∧
    ((startAt (.sts Hdr.plain 8 9 24)).mem (.tile 0)).wf :=
  ⟨⟨.of _ rfl rfl (by decide) ⟨⟨⟨.tile 0, 0x7FFF8, none⟩, by decide, by rfl⟩, by decide, by decide⟩,
    .of _ rfl rfl (by decide) ⟨⟨⟨.tile 0, 0x7FFE0, none⟩, by decide, by rfl⟩, by decide, by decide⟩⟩, by decide, by decide⟩

/-- A state where an STS of 7 to the bytes at topLocal + 24 is outstanding, and the accesses of the next word come later or not. -/
def storing (late : Bool) (i : Instr) : State :=
  { withG [(9, topLocal)] (withStation (fun x => { x with
      pend := [⟨5, true, false, 8, topLocal, 0x7FFF8, [7], [], 0, 0⟩] }) (startAt i)) with cur := some ⟨0, 0, late⟩ }

/-- An LDS takes the bytes of an outstanding store to the same address; an LDQ over more bytes than those, an STS, and an LDS that the 840
performs later stand outstanding. -/
theorem witness_ScalarLoads_later :
    Meets forwardRow (.lds Hdr.plain 8 9 24) (storing false (.lds Hdr.plain 8 9 24)) ∧
    Meets laterRow (.ldq Hdr.plain 28 9 0) (storing false (.ldq Hdr.plain 28 9 0)) ∧
    Meets laterRow (.stq Hdr.plain 28 9 0) (storing false (.stq Hdr.plain 28 9 0)) ∧
    Meets laterRow (.sts Hdr.plain 8 9 24) (storing true (.sts Hdr.plain 8 9 24)) ∧
    Meets laterRow (.lds Hdr.plain 8 9 24) (storing true (.lds Hdr.plain 8 9 24)) :=
  ⟨.of _ rfl rfl (by decide) ⟨⟨⟨.tile 0, 0x7FFF8, none⟩, by decide, by rfl⟩, bytesOf (7 : Dword), by decide, by decide, by decide⟩,
   .of _ rfl rfl (by decide) ⟨⟨⟨.tile 0, 0x7FFE0, none⟩, by decide, by rfl⟩, fun h => absurd h.2.1 (by decide), fun _ bs h => absurd h.2.2 (by
     rw [show forwarded _ _ _ _ _ = none by decide]; exact nofun)⟩,
   .of _ rfl rfl (by decide) ⟨⟨⟨.tile 0, 0x7FFE0, none⟩, by decide, by rfl⟩, fun h => absurd h.2.1 (by decide), nofun⟩,
   .of _ rfl rfl (by decide) ⟨⟨⟨.tile 0, 0x7FFF8, none⟩, by decide, by rfl⟩, fun h => absurd h.2.1 (by decide), nofun⟩,
   .of _ rfl rfl (by decide) ⟨⟨⟨.tile 0, 0x7FFF8, none⟩, by decide, by rfl⟩, fun h => absurd h.2.1 (by decide),
     fun _ bs h => absurd h.2.1 (by decide)⟩⟩

/-- For RefusedWordsTrap: scalar words that issue with a space their entry does not allow, with an address off its alignment by one byte, and
with one whose bytes end just past LOCAL space or past the job's SHARED bytes. -/
theorem witness_RefusedWordsTrap_scalar :
    (∀ i ∈ ([.lds Hdr.plain 8 9 0, .sts Hdr.plain 8 9 0, .ldq Hdr.plain 8 9 0, .stq Hdr.plain 8 9 0] : List Instr),
      let s := withG [(9, mkForm spGlobal 0)] (startAt i)
      Issues s i Hdr.plain (ctxIn s i) ∧ formSpace ((ctxIn s i).g 9) = spGlobal) ∧
    (∀ i ∈ ([.ldg Hdr.plain 8 9 0, .stg Hdr.plain 8 9 0] : List Instr),
      Issues (startAt i) i Hdr.plain (ctxIn (startAt i) i) ∧ formSpace ((ctxIn (startAt i) i).g 9) ≠ spGlobal) ∧
    (∀ i ∈ ([.lds Hdr.plain 8 9 1, .sts Hdr.plain 8 9 1, .ldq Hdr.plain 8 9 8, .stq Hdr.plain 8 9 8] : List Instr),
      Issues (startAt i) i Hdr.plain (ctxIn (startAt i) i) ∧ formSpace ((ctxIn (startAt i) i).g 9) = spLocal ∧
        formAddr ((ctxIn (startAt i) i).g 9) = 0) ∧
    (∀ i ∈ ([.ldg Hdr.plain 8 9 1, .stg Hdr.plain 8 9 1] : List Instr),
      let s := withG [(9, mkForm spGlobal 0)] (startAt i)
      Issues s i Hdr.plain (ctxIn s i) ∧ formSpace ((ctxIn s i).g 9) = spGlobal ∧ formAddr ((ctxIn s i).g 9) = 0) ∧
    (∀ i ∈ ([.lds Hdr.plain 8 9 32, .ldq Hdr.plain 8 9 32] : List Instr),
      let s := withG [(9, topLocal)] (startAt i)
      Issues s i Hdr.plain (ctxIn s i) ∧ formSpace ((ctxIn s i).g 9) = spLocal ∧ formRsvd ((ctxIn s i).g 9) = 0 ∧
        formAddr ((ctxIn s i).g 9) + 32 = 2 ^ 19) ∧
    ∀ i ∈ ([.sts Hdr.plain 8 9 0, .stq Hdr.plain 8 9 0] : List Instr),
      let s := withG [(9, mkForm spShared 0)] (startAt i)
      Issues s i Hdr.plain (ctxIn s i) ∧ formSpace ((ctxIn s i).g 9) = spShared ∧ formRsvd ((ctxIn s i).g 9) = 0 ∧
        formAddr ((ctxIn s i).g 9) = 0 ∧ sharedBytes s (ctxIn s i).f.job = 0 := by
  simp only [List.forall_mem_cons, List.not_mem_nil, false_imp_iff, implies_true, and_true]
  and_intros <;> first | exact issues_spec rfl (by decide) | decide

/-- For RefusedWordsTrap: ATOMG of 8 bytes off its alignment, with a form of no space, and with RSVD set. -/
theorem witness_RefusedWordsTrap_atomic :
    ∀ p ∈ ([(mkForm spGlobal 4, 4, spGlobal, 0), (mkForm 3 0, 0, 3, 0), (0x0080000000000000, 0, spLocal, 1)] : List (Dword × Nat × BitVec 2 × BitVec 7)),
      let i : Instr := .atomg Hdr.plain 3 10 4 0 2 true
      let s := withG [(10, p.1)] (startAt i)
      Issues s i Hdr.plain (ctxIn s i) ∧ formAddr ((ctxIn s i).g 10) = p.2.1 ∧ formSpace ((ctxIn s i).g 10) = p.2.2.1 ∧
        formRsvd ((ctxIn s i).g 10) = p.2.2.2 := by
  simp only [List.forall_mem_cons, List.not_mem_nil, false_imp_iff, implies_true, and_true]
  and_intros <;> first | exact issues_spec rfl (by decide) | decide

/-- LDG, STG, ATOMG, RATOM and RSIG with an IDLE slot. -/
theorem witness_SlotWords :
    Meets slotRow (.ldg Hdr.plain 8 9 8) (withG [(9, mkForm spGlobal 0)] (startAt (.ldg Hdr.plain 8 9 8))) ∧
    Meets slotRow (.stg Hdr.plain 8 9 0x3FFFFF8) (withG [(9, mkForm spGlobal 8)] (startAt (.stg Hdr.plain 8 9 0x3FFFFF8))) ∧
    Meets slotRow (.atomg Hdr.plain 3 10 4 0 2 false) (withG [(10, 4)] (startAt (.atomg Hdr.plain 3 10 4 0 2 false))) ∧
    Meets slotRow (.ratom Hdr.plain 5 12 6 7 1 true true 2) (withG [(12, 8)] (startAt (.ratom Hdr.plain 5 12 6 7 1 true true 2))) ∧
    Meets slotRow (.rsig Hdr.plain 20 0 0x7F)
      (withJob (fun j => { j with partition := [(0, 1)] }) (startAt (.rsig Hdr.plain 20 0 0x7F))) :=
  ⟨.of _ rfl rfl (by decide) (by decide), .of _ rfl rfl (by decide) (by decide), .of _ rfl rfl (by decide) ⟨by decide, by decide, by decide⟩,
   .of _ rfl rfl (by decide) ⟨by decide, by decide, by decide⟩, .of _ rfl rfl (by decide) (by decide)⟩

/-- A slot with an access under way. -/
def busy (k : SKind) : Slot := { Slot.idle with state := .running, kind := k, uid := 5 }

/-- SBAR, FENCE and SABORT, with nothing outstanding and with a running slot 3 of each sort. -/
theorem witness_OrderWords :
    ∀ i ∈ ([.sbar Hdr.plain 8, .fence Hdr.plain 0x7F 0x7F 4, .sabort Hdr.plain 4 3] : List Instr),
      Meets orderRow i (startAt i) ∧ Meets orderRow i (withStation (·.setSlot 3 (busy .rd)) (startAt i)) ∧
        Meets orderRow i (withStation (·.setSlot 3 (busy .ldg)) (startAt i)) := by
  simp only [List.forall_mem_cons, List.not_mem_nil, false_imp_iff, implies_true, and_true]
  and_intros <;> exact .of _ rfl rfl (by decide) trivial

/-- SABORT of an idle slot 3 whose stream of 7 elements completed in the step before. -/
theorem witness_OrderWords_ended :
    Meets orderRow (.sabort Hdr.plain 4 3)
      { withStation (fun x => { x with ended := some (8, 3, 7) }) (startAt (.sabort Hdr.plain 4 3)) with cycles := 9 } ∧
    ({ Station.launch 0 View.zero with ended := some (8, 3, 7) } : Station).justEnded 9 3 = some 7 :=
  ⟨.of _ rfl rfl (by decide) trivial, by decide⟩

/-- A record of data and nothing else. -/
def plainRec (d : Data) : Rec := ⟨d, 0, 0, false, 0, .w32f, none, false, 0⟩

/-- A beat of data. -/
def plainBeat (d : Data) : Beat := ⟨0, plainRec d, d⟩

/-- PORTRD with a beat at the head of the last out-port, PORTWR and PORTSPC on ports with room, SPORTCFG and VIEWLD. -/
theorem witness_PortWords :
    Meets portRow (.portrd Hdr.plain 1 2 31) (withTile (·.setOut 31 [plainBeat 7]) (startAt (.portrd Hdr.plain 1 2 31))) ∧
    Meets portRow (.portwr Hdr.plain 1 2 31) (startAt (.portwr Hdr.plain 1 2 31)) ∧
    Meets portRow (.portspc Hdr.plain 1 0 63) (startAt (.portspc Hdr.plain 1 0 63)) ∧
    Meets portRow (.portspc Hdr.plain 1 2 31) (withG [(2, 64)] (startAt (.portspc Hdr.plain 1 2 31))) ∧
    Meets portRow (.sportcfg Hdr.plain 63 31 63) (startAt (.sportcfg Hdr.plain 63 31 63)) ∧
    Meets portRow (.sportcfgOff Hdr.plain 0) (startAt (.sportcfgOff Hdr.plain 0)) ∧
    Meets portRow (.viewld Hdr.plain 0 1 2) (startAt (.viewld Hdr.plain 0 1 2)) :=
  ⟨.of _ rfl rfl (by decide) ⟨by decide, plainBeat 7, [], by decide, by decide⟩, .of _ rfl rfl (by decide) (by decide),
   .of _ rfl rfl (by decide) (by decide), .of _ rfl rfl (by decide) (by decide), .of _ rfl rfl (by decide) (by decide),
   .of _ rfl rfl (by decide) (by decide), .of _ rfl rfl (by decide) trivial⟩

/-- A shape of one element of 2^e bytes. -/
def oneElement (e : Dword) : Machine.Shape := #v[0x100000000000 + e, 0x100000000000, 0x100000000000, 0x100000000000]

/-- A word in a state where the shape it names and the next one are as given. -/
def shaped (h : Machine.Shape) (i : Instr) : State := withStation (fun x => (x.setH 2 h).setH 3 h) (startAt i)

/-- A stream word issues with its checks passed, over n elements. -/
abbrev Streams (i : Instr) (s : State) (n : Nat) : Prop :=
  ∃ r c, streamRow i = some r ∧ Issues s i r.hdr c ∧ (∀ cause, ¬streamTrap r s c cause) ∧ (c.x.rh r.shape).count = n

theorem Streams.of {i : Instr} {s : State} {n : Nat} (r : StreamRow) (hr : streamRow i = some r) (hh : i.hdr? = some r.hdr)
    (hi : issues i s = true) (hn : ((ctxIn s i).x.rh r.shape).count = n) (hc : n < 2 ^ 48) (h15 : r.shape ≠ 15)
    (hx : ((ctxIn s i).x.rh r.shape).plain = true ∧ ((ctxIn s i).x.rh (r.shape + 1)).plain = true ∧
      ((ctxIn s i).x.rh (r.shape + 1)).boundsPlain = true)
    (h12 : ¬(r.twelve s (ctxIn s i) ∧ 8 ≤ ((ctxIn s i).x.rh r.shape).size)) (hl : r.limits (ctxIn s i))
    (hp : ∀ p ∈ r.ports, s.foreignPort (ctxIn s i).tile p (ctxIn s i).id = false) : Streams i s n := by
  refine ⟨r, _, hr, issues_spec hh hi, fun cause h => ?_, hn⟩
  rcases h with ⟨-, h⟩ | ⟨-, -, p, hm, h⟩
  · simp only [hx, hn, h12, hl, h15, Bool.true_eq_false, ne_eq, not_true, and_false, false_and, or_self, or_false, false_or] at h
    omega
  · simp [hp p hm] at h

/-- The stream words, each issuing with its checks passed, over one element and over an empty shape. -/
theorem witness_StreamWords :
    (∀ i ∈ ([.srd Hdr.plain ops 4 true true 2, .swr Hdr.plain ops 4 false true 3 true, .scp Hdr.plain ops 12, .sfill Hdr.plain ops 12,
        .swin Hdr.plain ops 4 1, .smc Hdr.plain ops 4 0 false false 0, .sgath Hdr.plain ops 4 5 true false 0 true,
        .sscat Hdr.plain ops 4 5 true false 1 true false, .sscata Hdr.plain ops 4 5 6 false true true] : List Instr),
      Streams i (shaped (oneElement 2) i) 1) ∧
    Streams (.srec Hdr.plain 3 2 4 5 true) (shaped (oneElement 4) (.srec Hdr.plain 3 2 4 5 true)) 1 ∧
    Streams (.srd Hdr.plain ops 4 false false 0) (startAt (.srd Hdr.plain ops 4 false false 0)) 0 := by
  simp only [List.forall_mem_cons, List.not_mem_nil, false_imp_iff, implies_true, and_true]
  and_intros <;> exact .of _ rfl rfl (by decide) (by decide) (by decide) (by decide) (by decide) (by dsimp only [short]; decide)
    (by decide) (by decide)

/-- A write of one element under bounds that hold none. -/
theorem witness_StreamWords_clipped :
    let i : Instr := .swr Hdr.plain ops 4 false true 0 false
    let s := withStation (·.setH 2 (oneElement 2)) (startAt i)
    Streams i s 1 ∧ ∃ r, streamRow i = some r ∧ clipped r (ctxIn s i) :=
  ⟨.of _ rfl rfl (by decide) (by decide) (by decide) (by decide) (by decide) (by dsimp only [short]; decide) (by decide) (by decide),
    _, rfl, rfl, rfl, 0, by decide⟩

/-- A frieze that is not the placed one owns out-port 5 through a maquette loaded on the head tile. -/
def foreignOut (s : State) : State :=
  withTile (fun x => { x with ctxs := x.ctxs.set 0 { MaqCtx.reset with
    state := .loaded
    owner := some 1
    maq := ⟨[], [], [(5, ⟨0, [], [], .rne, 0, 0, 0⟩)], []⟩ } }) s

/-- Both rows of R176 and R200 that end a stream at issue: a limit of the entry not met, h16 as a second shape, a port of another
frieze. -/
theorem witness_StreamWords_traps :
    (∃ r c, streamRow (.smc Hdr.plain ops 4 1 false false 0) = some r ∧
      Issues (startAt (.smc Hdr.plain ops 4 1 false false 0)) (.smc Hdr.plain ops 4 1 false false 0) r.hdr c ∧
      streamTrap r (startAt (.smc Hdr.plain ops 4 1 false false 0)) c 0x01) ∧
    (∃ r c, streamRow (.scp Hdr.plain { ops with shape := 15 } 12) = some r ∧
      Issues (startAt (.scp Hdr.plain { ops with shape := 15 } 12)) (.scp Hdr.plain { ops with shape := 15 } 12) r.hdr c ∧
      streamTrap r (startAt (.scp Hdr.plain { ops with shape := 15 } 12)) c 0x01) ∧
    ∃ r c, streamRow (.swr Hdr.plain ops 5 false false 0 false) = some r ∧
      Issues (foreignOut (startAt (.swr Hdr.plain ops 5 false false 0 false))) (.swr Hdr.plain ops 5 false false 0 false) r.hdr c ∧
      streamTrap r (foreignOut (startAt (.swr Hdr.plain ops 5 false false 0 false))) c 0x06 := by
  refine ⟨⟨_, _, rfl, issues_spec rfl (by decide), .inl ⟨rfl, ?_⟩⟩, ⟨_, _, rfl, issues_spec rfl (by decide), .inl ⟨rfl, ?_⟩⟩,
    ⟨_, _, rfl, issues_spec rfl (by decide), .inr ⟨rfl, ?_, 37, ?_⟩⟩⟩
  · exact .inr (.inr (.inr (.inr (.inr (by decide)))))
  · exact .inr (.inr (.inl (by decide)))
  · decide
  · decide

/-! ### Witnesses: words that become requests -/

/-- A transaction record in a state, of the placed frieze. -/
def txRec (st : TxState) (code : Nat) : TxRec := ⟨0, 0, false, false, st, code, 0, some 0, none, [], [], [], false, false⟩

/-- Domain 0 of the management job with a record under number 1. -/
def withDomain (r : TxRec) (s : State) : State :=
  { s with domains := [(0, ⟨0, 0, 0, 0, 0, [(1, r)], [], [], 0, [], [], 65536, []⟩)] }

/-- View v1 of the placed station names record 1 of domain 0. -/
def withView (s : State) : State := withStation (·.setV 1 ⟨0, true, false, false, 1⟩) s

/-- HBM with a page table at 0 that maps GLOBAL addresses 0 to 2^29 − 1 to physical 2^29 on, readable, writable, executable. -/
def mapped (s : State) : State :=
  { s with hbm := (s.hbm.storeBytes 0 (leBytes 0x8000000000010000 8)).storeBytes 0x10000 (leBytes 0xBC00000020000000 8) }

/-- The words of class EN with their operands as their rows require. -/
theorem witness_RequestWords :
    (∀ i ∈ ([.wlnew Hdr.plain 4 5, .wlpush Hdr.plain 4 5, .wlpop Hdr.plain 31 6 63, .wlins Hdr.plain 4 5, .wlcnt Hdr.plain 4 5,
        .wlfree Hdr.plain 4, .mcjoin Hdr.plain 10 7 4, .mcjoinLeave Hdr.plain 10 31 4, .unroute Hdr.plain 4,
        .launch Hdr.plain 8 9] : List Instr), Meets requestRow i (startAt i)) ∧
    Meets requestRow (.txclaim Hdr.plain 1 12 4) (withView (withDomain (txRec .active 0) (startAt (.txclaim Hdr.plain 1 12 4)))) ∧
    Meets requestRow (.route Hdr.plain 3 31 9 true) (startAt (.route Hdr.plain 3 31 9 true)) ∧
    Meets requestRow (.route Hdr.plain 3 4 9 false)
      (withJob (fun j => { j with partition := [(0, 1)] }) (startAt (.route Hdr.plain 3 4 9 false))) ∧
    Meets requestRow (.accsave Hdr.plain 3 5 0 15) (startAt (.accsave Hdr.plain 3 5 0 15)) ∧
    Meets requestRow (.accload Hdr.plain 3 5 15 15) (startAt (.accload Hdr.plain 3 5 15 15)) ∧
    Meets requestRow (.owncfg Hdr.plain 4 11 12)
      (withG [(4, mkForm spGlobal 0), (11, 0x20000000), (12, 0x80F)] (mapped (startAt (.owncfg Hdr.plain 4 11 12)))) := by
  refine ⟨?_, .of _ rfl rfl (by decide) ⟨by decide, by decide, ⟨txRec .active 0, by rfl, by rfl⟩, by decide, by decide⟩,
    .of _ rfl rfl (by decide) ⟨by decide, by decide, by decide, by decide⟩,
    .of _ rfl rfl (by decide) ⟨by decide, by decide, by decide, by decide⟩,
    .of _ rfl rfl (by decide) ⟨fun j _ _ => by rfl, fun _ _ => by decide⟩,
    .of _ rfl rfl (by decide) ⟨fun j _ _ => by rfl, fun _ _ => by decide⟩,
    .of _ rfl rfl (by decide) ⟨by decide, by decide, by decide, by decide, by decide, by decide, by decide, by decide, by decide,
      false, 0x20000000, by decide, .inr ⟨by decide, by decide⟩⟩⟩
  simp only [List.forall_mem_cons, List.not_mem_nil, false_imp_iff, implies_true, and_true]
  and_intros <;> first | exact .of _ rfl rfl (by decide) trivial | exact .of _ rfl rfl (by decide) (by dsimp only [askRow]; decide)

/-- A descriptor of queue 0 of job 1 on module 0 (R377). -/
def descOne : Dword := 0x4010000000000000

/-- The words the head sends for the span, at the head with their operands as their rows require, and at a second station, where they
need nothing. -/
theorem witness_HeadRequestWords :
    (∀ i ∈ ([.ercfg Hdr.plain 4, .ercfgOff Hdr.plain, .erdisp Hdr.plain 4 5 6, .erdispReuse Hdr.plain 4 5 6 true,
        .erdispReuse Hdr.plain 4 5 6 false, .ercomb Hdr.plain 4 17 6 7 false true, .erstat Hdr.plain 4, .smpcfg Hdr.plain 4 5] :
        List Instr),
      Meets headWordRow i (withG [(4, mkForm spGlobal 32), (5, mkForm spShared 64), (17, mkForm spGlobal 8)] (startAt i)) ∧
        Meets headWordRow i (atSecond i (startAt i))) ∧
    (∀ i ∈ ([.smpoff Hdr.plain, .erdrops Hdr.plain 4] : List Instr),
      Meets headWordRow i (startAt i) ∧ Meets headWordRow i (atSecond i (startAt i))) ∧
    (∀ i ∈ ([.snap Hdr.plain 1 4, .unsnap Hdr.plain 1, .txbegin Hdr.plain 1 4, .txbeginAge Hdr.plain 1 4, .txcommit Hdr.plain 1 4,
        .txabort Hdr.plain 1, .txstat Hdr.plain 1 4] : List Instr),
      Meets headWordRow i (withView (withDomain (txRec .finished 2) (startAt i))) ∧ Meets headWordRow i (atSecond i (startAt i))) ∧
    ∀ i ∈ ([.freeze Hdr.plain 4, .thaw Hdr.plain 4] : List Instr),
      Meets headWordRow i (withG [(4, descOne)] { startAt i with jobs := [(0, Job.management), (1, Job.reset 0 0)] }) ∧
        Meets headWordRow i (atSecond i (startAt i)) := by
  simp only [List.forall_mem_cons, List.not_mem_nil, false_imp_iff, implies_true, and_true]
  and_intros <;> first
    | exact .of _ rfl rfl (by decide) fun h => absurd h (by decide)
    | exact .of _ rfl rfl (by decide) fun _ => trivial
    | exact .of _ rfl rfl (by decide) fun _ => by decide
    | exact .of _ rfl rfl (by decide) fun _ => ⟨by decide, by decide⟩
    | exact .of _ rfl rfl (by decide) fun _ => by unfold engineForm; decide
    | exact .of _ rfl rfl (by decide) fun _ => by unfold named; decide

/-- A head request of lane 1 whose result, on g4 and v1, has come. -/
def answered : HeadReq := ⟨1, some 4, some 1, some ⟨some (4, 7), some (1, View.launch)⟩, false, 0, 0, 3, []⟩

/-- The second station issues ERDROPS of lane 1 after its request has completed. -/
theorem witness_HeadResultsReachStations :
    let i : Instr := .erdrops Hdr.plain 4
    let s := withFrieze (fun f => { f with
      reqs := [answered]
      laneBase := 1
      stations := f.stations.map fun x => { x with pos := x.pos + 1 } }) (atSecond i (startAt i))
    ∃ h c, i.asksHead = true ∧ c.st ≠ 0 ∧ Issues s i h c ∧ c.f.reqs.find? (fun q => q.lane == c.x.pos) = some answered ∧
      answered.res = some ⟨some (4, 7), some (1, View.launch)⟩ :=
  ⟨_, _, rfl, by decide, issues_spec rfl (by decide), by decide, rfl⟩

/-! ### Witnesses: array control, monitoring, code -/

/-- Context m1 of the head tile in a state, owned by the placed frieze; column 0 and out-port 5 have words in it. -/
def withCtx (st : CtxState) (s : State) : State :=
  withTile (fun x => { x with ctxs := x.ctxs.set 1 { MaqCtx.reset with
    state := st
    owner := some 0
    maq := ⟨[⟨0, 0, false, 0, 0⟩], [(0, ⟨0, [], [], .rne, 0, 0, 0⟩)], [(5, ⟨0, [], [], .rne, 0, 0, 0⟩)], []⟩ } }) s

/-- Context m1 loaded over m2, which holds column 0 with an operator without a forward input and has in-port 31 read by o5. -/
def overOld (s : State) : State :=
  withTile (fun x => { x with
    ctxs := x.ctxs.set 2 { x.ctx 1 with
      state := .active
      maq := ⟨[⟨0, 0, false, 0, 0⟩], [(0, ⟨0, [.out0 0 0], [1], .rne, 0, 0, 0⟩)], [(5, ⟨0, [.inport 31], [1], .rne, 0, 0, 0⟩)], []⟩ }
    cols := x.cols.set 0 { Col.reset with active := some 2 }
    outAct := [(5, 2)] }) (withCtx .loaded s)

/-- What the entries of MAQGO and MAQDRN speak of: an old configuration with a port to sweep and a column without a forward input, and a
context with and without an out-port for a DRAIN to leave by. -/
theorem witness_ArrayWords_old :
    (∃ s ∈ [overOld (startAt (.maqgo Hdr.plain 1))], Meets arrayRow (.maqgo Hdr.plain 1) s ∧
      (s.tile 0).activeOf 0 = some 2 ∧ ((s.tile 0).ctx 2).maq.colOps 0 ≠ [] ∧ ((s.tile 0).ctx 2).owner = some 0 ∧
      ((s.tile 0).ctx 1).maq.hasCol 0 = true ∧ (∀ q ∈ ((s.tile 0).ctx 2).maq.colOps 0, q.2.hasForward 0 = false) ∧
      (5, 2) ∈ (s.tile 0).outAct ∧ (((s.tile 0).ctx 1).maq.outs.find 5).isSome = true) ∧
    ((withCtx .active (startAt (.maqdrn Hdr.plain 1))).tile 0).drainOuts 1 ≠ [] ∧
    ∃ s ∈ [withTile (·.updCtx 1 fun q => { q with maq := { q.maq with outs := [] } }) (withCtx .active (startAt (.maqdrn Hdr.plain 1)))],
      Meets arrayRow (.maqdrn Hdr.plain 1) s ∧ (s.tile 0).drainOuts 1 = [] ∧ ∀ d ∈ ((s.tile 0).ctx 1).drains, d.1 ≠ [] :=
  ⟨⟨_, .head _, .of _ rfl rfl (by decide) (by decide), by decide, by decide, by decide, by decide, by decide, by decide, by decide⟩, by decide,
    ⟨_, .head _, .of _ rfl rfl (by decide) (by decide), by decide, by decide⟩⟩

/-- MAQLD into an empty context and over a loaded one, MAQGO, MAQDRN, CHBIND on the whole range of ports, SRSEED. -/
theorem witness_ArrayWords :
    Meets arrayRow (.maqld Hdr.plain 1 8 9) (startAt (.maqld Hdr.plain 1 8 9)) ∧
    Meets arrayRow (.maqld Hdr.plain 1 8 9) (withCtx .loaded (startAt (.maqld Hdr.plain 1 8 9))) ∧
    Meets arrayRow (.maqgo Hdr.plain 1) (withCtx .loaded (startAt (.maqgo Hdr.plain 1))) ∧
    Meets arrayRow (.maqdrn Hdr.plain 1) (withCtx .active (startAt (.maqdrn Hdr.plain 1))) ∧
    Meets arrayRow (.chbind Hdr.plain 0 10 31) (withG [(10, 0x7F000000)] (startAt (.chbind Hdr.plain 0 10 31))) ∧
    Meets arrayRow (.srseed Hdr.plain 1 6) (withG [(6, 0xFFFFFFFF)] (withCtx .loaded (startAt (.srseed Hdr.plain 1 6)))) :=
  ⟨.of _ rfl rfl (by decide) ⟨by decide, fun _ _ => by decide⟩, .of _ rfl rfl (by decide) ⟨by decide, fun _ _ => by decide⟩,
   .of _ rfl rfl (by decide) (by decide), .of _ rfl rfl (by decide) (by decide),
   .of _ rfl rfl (by decide) ⟨by decide, fun _ _ _ => by rfl⟩,
   .of _ rfl rfl (by decide) ⟨by decide, by decide⟩⟩

/-- SMPON, MARK, and CNTRD at both ends of every range of R322 and of numbers past them. -/
theorem witness_MonitorWords :
    Meets monitorRow (.smpon Hdr.plain) (startAt (.smpon Hdr.plain)) ∧
    Meets monitorRow (.mark Hdr.plain 1 9) (withCtx .active (startAt (.mark Hdr.plain 1 9))) ∧
    ∀ n ∈ [0x000, 0x003, 0x010, 0x011, 0x040, 0x07F, 0x100, 0x10F, 0x200, 0x21F, 0x004, 0x03F, 0x110, 0x220, (0xFFF : BitVec 12)],
      Meets monitorRow (.cntrd Hdr.plain 7 0 n true) (startAt (.cntrd Hdr.plain 7 0 n true)) := by
  simp only [List.forall_mem_cons, List.not_mem_nil, false_imp_iff, implies_true, and_true]
  refine ⟨.of _ rfl rfl (by decide) trivial, .of _ rfl rfl (by decide) (by decide), ?_⟩
  and_intros <;> exact .of _ rfl rfl (by decide) trivial

/-- The placed frieze is the handler of frieze 1, with the image at GLOBAL 0x10000 and its address in g4. -/
def handling (s : State) : State :=
  withG [(4, mkForm spGlobal 0x10000)] (mapped (withFrieze (fun f => { f with
    handlerOf := some 1
    arg := mkForm spGlobal 0x10000
    kernel := 1 }) { s with friezes := s.friezes ++ [(1, { placedFrieze 0 with
      state := .handled
      handler := some 0 })] }))

/-- Another frieze of the head with words 5, 6 and 7 fetched, g4 and g5 naming a byte of word 6 and none. -/
def neighbourly (n : Dword) (i : Instr) : State :=
  withG [(4, mkForm spGlobal 0x37), (5, n)] { startAt i with friezes := (startAt i).friezes ++ [(1, { placedFrieze 0 with
    ctx := 1
    fetched := [(5, 0), (6, 0), (7, 0)] })] }

/-- CODEINV whose range names a byte of another frieze's second word, and one whose range is empty. -/
theorem witness_CodeinvWord_others :
    ∀ p ∈ [((1 : Dword), [(6 : BitVec 52)]), (0, [])], ∃ s ∈ [neighbourly p.1 (.codeinv Hdr.plain 4 5)],
      let c := ctxIn s (.codeinv Hdr.plain 4 5)
      Issues s (.codeinv Hdr.plain 4 5) Hdr.plain c ∧ c.st = 0 ∧ formSpace (c.g 4) = spGlobal ∧ c.id = 0 ∧ c.f.head = 0 ∧
      ((s.friezes.find 1).map fun f => (f.head, f.fetched.map (·.1))) = some (0, [5, 6, 7]) ∧
      ∀ w ∈ [(5 : BitVec 52), 6, 7], wordInRange (c.g 4) (c.g 5).toNat w ↔ w ∈ p.2 := by
  simp only [List.forall_mem_cons, List.not_mem_nil, false_imp_iff, implies_true, and_true]
  and_intros <;> exact ⟨_, .head _, issues_spec rfl (by decide), by decide, by decide, by decide, by decide, by decide, by unfold wordInRange; decide⟩

/-- CODEINV at the head and elsewhere. -/
theorem witness_CodeinvWord :
    Meets codeinvRow (.codeinv Hdr.plain 4 5) (withG [(4, mkForm spGlobal 0)] (startAt (.codeinv Hdr.plain 4 5))) ∧
    Meets codeinvRow (.codeinv Hdr.plain 4 5) (atSecond (.codeinv Hdr.plain 4 5) (startAt (.codeinv Hdr.plain 4 5))) :=
  ⟨.of _ rfl rfl (by decide) (fun _ => by decide), .of _ rfl rfl (by decide) (fun h => absurd h (by decide))⟩

/-- RESUME in a handler whose image is readable and all zeros, with a slot running or not, and at a second station. -/
theorem witness_ResumeWord :
    (∀ q ∈ [Slot.idle, busy .rd], ∃ s ∈ [handling (withStation (·.setSlot 3 q) (startAt (.resume Hdr.plain 4)))],
      Meets resumeRow (.resume Hdr.plain 4) s ∧ (ctxIn s (.resume Hdr.plain 4)).x.quiet = decide (q.state = .idle)) ∧
    Meets resumeRow (.resume Hdr.plain 4) (atSecond (.resume Hdr.plain 4) (startAt (.resume Hdr.plain 4))) :=
  ⟨by
    simp only [List.forall_mem_cons, List.not_mem_nil, false_imp_iff, implies_true, and_true]
    and_intros <;> exact ⟨_, .head _, .of _ rfl rfl (by decide) (fun _ => ⟨{ placedFrieze 0 with
      state := .handled
      handler := some 0 }, _, 1, by decide, by rfl, by decide, by rfl, by decide, by decide, by decide, by decide, by decide⟩), by decide⟩,
   .of _ rfl rfl (by decide) (fun h => absurd h (by decide))⟩

/-! ### Witnesses: how every word issues -/

/-- Whether an outcome is a next state. -/
def isNext {σ φ ρ : Type} : Host.Outcome σ φ ρ → Bool
  | .next _ => true
  | _ => false

theorem exists_next {σ φ ρ : Type} {o : Host.Outcome σ φ ρ} (h : isNext o = true) : ∃ t, o = .next t := by
  cases o with
  | next t => exact ⟨t, rfl⟩
  | fault _ => cases h
  | refused _ => cases h

/-- LOOP issues with a wait consumed and a signal added. -/
theorem witness_CounterUpdates :
    let i : Instr := .loop ⟨1, 33, 3, 5, false, 0⟩ 5 5
    let s := withTile (fun x => { x with e := x.e.set 1 1 }) (startAt i)
    ∃ h c, plain i = true ∧ Issues s i h c := ⟨_, _, by decide, issues_spec rfl (by decide)⟩

/-- For PlainFrame, OnlyScalarStoresWriteAtIssue and WordsLeaveTheHostAlone: a plain word answers a next state, at
the second of two stations too; so does every word of other groups that the frames are about. -/
theorem witness_Frames :
    (plain (.add Hdr.plain 3 1 2) = true ∧ ∃ t, exec (.add Hdr.plain 3 1 2) (startAt (.add Hdr.plain 3 1 2)) = .next t) ∧
    (∃ h c y, Issues (atSecond (.add Hdr.plain 3 1 2) (startAt (.add Hdr.plain 3 1 2))) (.add Hdr.plain 3 1 2) h c ∧
      (0, 0) ≠ (c.id, c.st) ∧ (atSecond (.add Hdr.plain 3 1 2) (startAt (.add Hdr.plain 3 1 2))).station? 0 0 = some y) ∧
    (∃ h t, (Instr.maqgo Hdr.plain 1).hdr? = some h ∧
      exec (.maqgo Hdr.plain 1) (withCtx .loaded (startAt (.maqgo Hdr.plain 1))) = .next t) ∧
    ∃ t, exec (.sts Hdr.plain 8 9 0) (startAt (.sts Hdr.plain 8 9 0)) = .next t :=
  ⟨⟨by decide, exists_next (by decide)⟩, ⟨_, _, _, issues_spec rfl (by decide), by decide, rfl⟩,
   ⟨_, (exists_next (by decide)).choose, rfl, (exists_next (by decide)).choose_spec⟩, exists_next (by decide)⟩

/-- A word R43 refuses, and a privileged one outside job 0. -/
theorem witness_RefusedWordsTrap :
    (∃ h c, (Instr.cmp Hdr.plain 3 1 2 10).hdr? = some h ∧
      ctxOf (startAt (.cmp Hdr.plain 3 1 2 10)) (.cmp Hdr.plain 3 1 2 10) h = some c ∧ c.f.skip ≠ some c.lane ∧
      (Instr.cmp Hdr.plain 3 1 2 10).wf = false) ∧
    ∃ h c, (Instr.freeze Hdr.plain 4).hdr? = some h ∧
      ctxOf (withFrieze (fun f => { f with job := 1 }) (startAt (.freeze Hdr.plain 4))) (.freeze Hdr.plain 4) h = some c ∧
      c.f.skip ≠ some c.lane ∧ (Instr.freeze Hdr.plain 4).wf = true ∧ (Instr.freeze Hdr.plain 4).privileged = true ∧ c.job ≠ 0 :=
  ⟨⟨_, _, rfl, rfl, by decide, by decide⟩, ⟨_, _, rfl, rfl, by decide, by decide, by decide, by decide⟩⟩

/-- A wait of mode 01 on a counter at zero. -/
theorem witness_UnmetWaitHolds :
    let i : Instr := .nop { Hdr.plain with waitMode := 1, waitK := 63 }
    ∃ h c, Reaches (startAt i) i h c ∧ haltWait c = false ∧
      ((startAt i).counter c.id c.st h.waitK).toNat < (waitNeed c).toNat :=
  ⟨_, _, ⟨rfl, rfl, by decide, by decide, by decide⟩, by decide, by decide⟩

/-- A word under p1, which reads 0 after launch. -/
theorem witness_FalsePredicateSkips :
    let i : Instr := .add Hdr.p1 3 1 2
    ∃ h c, Reaches (startAt i) i h c ∧ holdOf (startAt i) c i = none ∧ c.on = false :=
  ⟨_, _, ⟨rfl, rfl, by decide, by decide, by decide⟩, by decide, by decide⟩

/-- The word at the position that a resume of MODE 01 discards. -/
theorem witness_SkippedAfterResume :
    let i : Instr := .trap Hdr.plain 7
    ∃ h c, i.hdr? = some h ∧ ctxOf (withFrieze (fun f => { f with skip := some 0 }) (startAt i)) i h = some c ∧
      c.f.skip = some c.lane := ⟨_, _, rfl, rfl, by decide⟩

/-- ADD placed right after reset: no sample is due, and the selected station's word decodes to it. -/
theorem witness_StepRunsTheSelectedWord :
    let s := startAt (.add Hdr.plain 3 1 2)
    ∃ f k w rest, dueEvent s.tick = none ∧ s.cur = some k ∧ s.friezes.find k.fz = some f ∧ f.nextWord k.st = some w ∧
      decodeBytes (bytesOf w.word) = .ok (.add Hdr.plain 3 1 2, rest) :=
  ⟨placedFrieze 0x0000010184400000, ⟨0, 0, false⟩, ⟨0x0000010184400000, 0, true⟩, [], by decide, by decide, by decide, by decide, by decide⟩

/-! ### Witnesses: events of the control cores -/

/-- The management job's frieze of one station on tile 0, its NOP fetched and decoded, no station selected. -/
def here : State := { startAt (.nop Hdr.plain) with cur := none }

/-- The same with another word fetched. -/
def hereAt (i : Instr) : State := { startAt i with cur := none }

/-- A word fetched and not yet decoded in a frieze of a job. -/
def undecoded (job : Nat) (w : Dword) : State := withFrieze (fun f => { f with
  job := job
  fetched := [(0, w)]
  decoded := false }) here

/-- A fetch buffer with room whose next word is mapped; NOP, a word of the reserved group and FREEZE outside job 0, undecoded. -/
theorem witness_FetchAndDecode :
    (∃ f p, (mapped here).friezes.find 0 = some f ∧ Heads f ∧ f.fetched.length < 8 ∧
      elementCheck (mapped here) f.job f.head (mkForm spGlobal (8 * f.fetchIndex.toNat)) (8 * f.fetchIndex.toNat : Nat) 8 .fetch = .ok p ∧
      (mapped here).placeUp p = true ∧ (mapped here).badAt p 8 = false) ∧
    ∀ p ∈ [((0 : Nat), (0 : Dword)), (0, 0x00000F0000000000), (1, 0x0000009200000000)], ∃ f x n rest,
      At (undecoded p.1 p.2) 0 0 f x ∧ Heads f ∧ f.trap = none ∧ f.fetched = (n, p.2) :: rest ∧ f.decoded = false ∧ x.faults = [] := by
  refine ⟨⟨_, ⟨.hbm, 0x20000008, none⟩, rfl, ⟨rfl, rfl, rfl⟩, by decide, by decide, by decide, by decide⟩, ?_⟩
  simp only [List.forall_mem_cons, List.not_mem_nil, false_imp_iff, implies_true, and_true]
  and_intros <;> exact ⟨_, _, _, _, ⟨rfl, rfl⟩, ⟨rfl, rfl, rfl⟩, rfl, rfl, rfl, rfl⟩

/-- One frieze ready at its head tile; and a tile where only a station that is no head is ready. -/
theorem witness_IssueChoice :
    ((∃ id, Ready here 0 (id, 0)) ∧ ∀ id, Ready here 0 (id, 0) → here.slotOf id < 4) ∧
    (∀ id, ¬Ready (atSecond (.nop Hdr.plain) here) 1 (id, 0)) ∧ ∃ p, Ready (atSecond (.nop Hdr.plain) here) 1 p := by
  have h0 : here.standing 0 = [(0, 0)] := by decide
  have h1 : (atSecond (.nop Hdr.plain) here).standing 1 = [(0, 1)] := by decide
  refine ⟨⟨⟨0, by rw [h0]; exact .head _, by decide⟩, fun id h => ?_⟩, fun id h => ?_, (0, 1), by rw [h1]; exact .head _, by decide⟩
  · have := h.1
    rw [h0] at this
    obtain rfl : id = 0 := by simpa using this
    decide
  · have := h.1
    rw [h1] at this
    simp at this

/-- A station held for two c-cycles where WAIT_LIMIT is 2. -/
def overdue (s : State) : State := withJob (fun j => { j with waitLimit := 2 }) (withStation (fun x => { x with hold := 2 }) s)

/-- Slot 15 of a station held since c-cycle 1, two c-cycles later, where WAIT_LIMIT is 2. -/
def heldSlot : State := { overdue (withStation (·.setSlot 15 { busy .rd with waits := [4], barred := [4], hold := 1 }) here) with cycles := 3 }

/-- A frieze's station held by a word for as long as WAIT_LIMIT. -/
abbrev Overdue (s : State) (w : Why) : Prop :=
  ∃ f x j, At s 0 0 f x ∧ Heads f ∧ f.trap = none ∧ s.jobs.find f.job = some j ∧ standAt s 0 0 = .held w ∧ j.waitLimit.toNat ≤ x.hold

/-- A fault that waits for a station's next word. -/
def oldFault : PendFault := ⟨some 3, 0x09, 1, 2, 3, 4⟩

/-- A station held by each counted row of R303, a slot held as long, and a pending fault before a younger one. -/
theorem witness_TimeoutsAndFaults :
    (Overdue (overdue (hereAt (.nop { Hdr.plain with waitMode := 1, waitK := 63 }))) (.counter 63 1) ∧
      Overdue (overdue (hereAt (.portrd Hdr.plain 1 2 31))) (.port 63 0) ∧
      Overdue (overdue (withStation (·.setSlot 3 (busy .rd)) (hereAt (.swaits Hdr.plain 8)))) (.slots 8) ∧
      Overdue (overdue (withStation (·.setSlot 3 { busy .ldg with dst := 1 }) (hereAt (.add Hdr.plain 3 1 2)))) (.reg 1)) ∧
    (∃ f x j, At heldSlot 0 0 f x ∧ f.state = .resident ∧ heldSlot.jobs.find f.job = some j ∧
      (x.slot (BitVec.ofNat 4 15)).state = .running ∧ (x.slot (BitVec.ofNat 4 15)).barred ≠ [] ∧
      (x.slot (BitVec.ofNat 4 15)).hold + j.waitLimit.toNat ≤ heldSlot.cycles.toNat) ∧
    ∃ f x, At (withStation (fun x => { x with faults := [oldFault, { oldFault with no := 2 }] }) here) 0 0 f x ∧ Heads f ∧ f.trap = none ∧
      x.exiting = false ∧ x.faults = [oldFault, { oldFault with no := 2 }] ∧
      ∀ r ∈ [{ oldFault with no := 2 }], oldFault.no ≤ r.no := by
  refine ⟨?_, ⟨_, _, _, ⟨rfl, rfl⟩, rfl, rfl, by decide, by decide, by decide⟩,
    ⟨_, _, ⟨rfl, rfl⟩, ⟨rfl, rfl, rfl⟩, rfl, rfl, rfl, by decide⟩⟩
  and_intros <;> exact ⟨_, _, _, ⟨rfl, rfl⟩, ⟨rfl, rfl, rfl⟩, rfl, rfl, by decide, by decide⟩

/-- A state where slot 15 of the placed station holds a slot. -/
def withSlot (q : Slot) : State := withStation (·.setSlot 15 q) here

/-- An LDG that may go ahead of an STG of its station to the same address, which is still under way, and one whose STG is gone. -/
theorem witness_ElementsPerformed_ahead :
    ∀ p ∈ [((4 : Dword), StgNow.value 7), (3, .gone)],
      ∃ q ∈ [{ busy .ldg with base := 0x7FFF0, base2 := 8, dst := 1, applied := true, cmp := p.1 }],
      ∃ s ∈ [withStation (·.setSlot 14 { busy .stg with uid := 4, base := 0x7FFF0, base2 := 8, val := 7 }) (withSlot q)], ∃ f x,
        Moves s 0 0 15 f x q ∧ ahead s f 0 0 q = p.2 := by
  simp only [List.forall_mem_cons, List.not_mem_nil, false_imp_iff, implies_true, and_true]
  and_intros <;> exact ⟨_, .head _, _, .head _, _, _, ⟨⟨rfl, rfl⟩, ⟨rfl, rfl⟩, ⟨by decide, rfl⟩, ⟨rfl, rfl, rfl⟩⟩, by decide⟩

/-- LDG, STG and SFILL under way in slot 15, over the last bytes of LOCAL space. -/
theorem witness_ElementsPerformed :
    (∀ q ∈ [{ busy .ldg with base := 0x7FFF0, base2 := 8, dst := 0 }], ∃ f x p, Moves (withSlot q) 0 0 15 f x q ∧ q.kind = .ldg ∧
      q.aborts = [] ∧ Lies (withSlot q) f 0 q.base (formAddr q.base + q.base2.toInt) 8 .read p ∧ (withSlot q).badAt p 8 = false ∧
      ahead (withSlot q) f 0 0 q ≠ .wait) ∧
    (∀ q ∈ [{ busy .stg with base := 0x7FFF0, base2 := 8, val := 7 }], ∃ f x p, Moves (withSlot q) 0 0 15 f x q ∧ q.kind = .stg ∧
      q.aborts = [] ∧ Lies (withSlot q) f 0 q.base (formAddr q.base + q.base2.toInt) 8 .write p ∧ ((withSlot q).mem p.mem).wf) ∧
    ∀ q ∈ [{ busy .fill with base := 0x7FFF0, shape := oneElement 4, val := 7 }], ∃ f x p, Moves (withSlot q) 0 0 15 f x q ∧
      q.kind = .fill ∧ q.aborts = [] ∧ Lies (withSlot q) f 0 q.base (elementAddr q.base q.shape none q.next) q.fillBytes.length .write p ∧
      direct (withSlot q) f.job (f.tileOf 0) q.base (elementAddr q.base q.shape none q.next) q.shape.size .write = true ∧
      ((withSlot q).mem p.mem).wf := by
  simp only [List.forall_mem_cons, List.not_mem_nil, false_imp_iff, implies_true, and_true]
  exact ⟨⟨_, _, ⟨.tile 0, 0x7FFF8, none⟩, ⟨⟨rfl, rfl⟩, ⟨rfl, rfl⟩, ⟨by decide, rfl⟩, ⟨rfl, rfl, rfl⟩⟩, rfl, rfl,
      ⟨by decide, by decide, rfl, by decide⟩, by decide, by decide⟩,
    ⟨_, _, ⟨.tile 0, 0x7FFF8, none⟩, ⟨⟨rfl, rfl⟩, ⟨rfl, rfl⟩, ⟨by decide, rfl⟩, ⟨rfl, rfl, rfl⟩⟩, rfl, rfl,
      ⟨by decide, by decide, rfl, by decide⟩, by decide, by decide⟩,
    ⟨_, _, ⟨.tile 0, 0x7FFF0, none⟩, ⟨⟨rfl, rfl⟩, ⟨rfl, rfl⟩, ⟨by decide, rfl⟩, ⟨rfl, rfl, rfl⟩⟩, rfl, rfl,
      ⟨by decide, by decide, rfl, by decide⟩, by decide, by decide, by decide⟩⟩

/-- A state where a scalar access of the placed station is outstanding. -/
def withPend (q : PendScalar) : State := withStation (fun x => { x with pend := [q] }) here

/-- An LDQ and an STQ of the last bytes of LOCAL space left outstanding. -/
theorem witness_ElementsPerformed_outstanding :
    (∀ q ∈ [(⟨5, false, true, 28, topLocal, 0x7FFE0, [], [], 0, 0⟩ : PendScalar)], ∃ f x p, At (withPend q) 0 0 f x ∧ f.state = .resident ∧
      x.pend[0]? = some q ∧ q.waits = [] ∧ q.store = false ∧ Lies (withPend q) f 0 q.form q.addr 32 .read p ∧
      (withPend q).badAt p 32 = false) ∧
    ∀ q ∈ [(⟨5, true, true, 28, topLocal, 0x7FFE0, [1, 2, 3, 4], [], 0, 0⟩ : PendScalar)], ∃ f x p, At (withPend q) 0 0 f x ∧
      f.state = .resident ∧ x.pend[0]? = some q ∧ q.waits = [] ∧ q.store = true ∧
      Lies (withPend q) f 0 q.form q.addr (q.vals.flatMap bytesOf).length .write p ∧
      direct (withPend q) f.job (f.tileOf 0) q.form q.addr 32 .write = true ∧ ((withPend q).mem p.mem).wf := by
  simp only [List.forall_mem_cons, List.not_mem_nil, false_imp_iff, implies_true, and_true]
  exact ⟨⟨_, _, ⟨.tile 0, 0x7FFE0, none⟩, ⟨rfl, rfl⟩, rfl, rfl, trivial, trivial, ⟨by decide, by decide, rfl, by decide⟩, by decide⟩,
    ⟨_, _, ⟨.tile 0, 0x7FFE0, none⟩, ⟨rfl, rfl⟩, rfl, rfl, trivial, trivial, ⟨by decide, by decide, rfl, by decide⟩, by decide, by decide⟩⟩

/-- ATOMG and a RATOM of this module under way, an RSIG to a mailbox of this module and one to another module within reach. -/
theorem witness_AtomicsAndReleases :
    (∀ q ∈ [{ busy .atomg with base := 0x7FFF8, wide := true }, { busy .ratom with base := 0x7FFFC, op := 2 }],
      ∃ f x p, Moves (withSlot q) 0 0 15 f x q ∧ (q.kind = .atomg ∨ (q.kind = .ratom ∧ remotePlace (withSlot q) f.job q.base = false)) ∧
        q.applied = false ∧ q.aborts = [] ∧ Lies (withSlot q) f 0 q.base (formAddr q.base) (if q.wide then 8 else 4) .atomic p ∧
        (withSlot q).badAt p (if q.wide then 8 else 4) = false ∧ ((withSlot q).mem p.mem).wf) ∧
    (∀ q ∈ [{ busy .rsig with base := 0xF, val := 1 }], ∃ f x, Moves (withSlot q) 0 0 15 f x q ∧ q.kind = .rsig ∧ q.aborts = [] ∧
      q.sigMode = 0 ∧ (∀ y ∈ f.stations, y.holds = [] ∧ y.exiting = false) ∧ sigModule q.base = (withSlot q).moduleId.toNat) ∧
    ∀ q ∈ [{ busy .rsig with base := 0x40000F, val := 1 }],
      ∀ s ∈ [{ withSlot q with torus := (16, 1, 1), portsTrained := [4] }], ∃ f x, Moves s 0 0 15 f x q ∧ q.kind = .rsig ∧
        sigModule q.base ≠ s.moduleId.toNat ∧ s.reachable (sigModule q.base) = true := by
  simp only [List.forall_mem_cons, List.not_mem_nil, false_imp_iff, implies_true, and_true]
  exact ⟨⟨⟨_, _, ⟨.tile 0, 0x7FFF8, none⟩, ⟨⟨rfl, rfl⟩, ⟨rfl, rfl⟩, ⟨by decide, rfl⟩, ⟨rfl, rfl, rfl⟩⟩, .inl rfl, rfl, rfl,
        ⟨by decide, by decide, rfl, by decide⟩, by decide, by decide, by decide⟩,
      ⟨_, _, ⟨.tile 0, 0x7FFFC, none⟩, ⟨⟨rfl, rfl⟩, ⟨rfl, rfl⟩, ⟨by decide, rfl⟩, ⟨rfl, rfl, rfl⟩⟩, .inr ⟨rfl, by decide⟩, rfl, rfl,
        ⟨by decide, by decide, rfl, by decide⟩, by decide, by decide, by decide⟩⟩,
    ⟨_, _, ⟨⟨rfl, rfl⟩, ⟨rfl, rfl⟩, ⟨by decide, rfl⟩, ⟨rfl, rfl, rfl⟩⟩, rfl, rfl, rfl, by decide, by decide⟩,
    ⟨_, _, ⟨⟨rfl, rfl⟩, ⟨rfl, rfl⟩, ⟨by decide, rfl⟩, ⟨rfl, rfl, rfl⟩⟩, rfl, by decide, by decide⟩⟩

/-- Module 3 of the job's module set may signal and update here, after a write of a byte or with none; the mailbox is tile 0's. -/
theorem witness_AtomicsAndReleases_far :
    let s := mapped (withJob (fun j => { j with mbox := 0xF0, partition := [(0, 1)] }) { here with torus := (16, 1, 1) })
    ∃ j, FarMay s 3 0 j ∧ (∀ ws ∈ [[], [(0, [7])]], ∃ s1, farWritten 0 ws s s1) ∧ sigModule 0xF = s.moduleId.toNat ∧
      inPartition s 0 (sigTile 0xF) = true ∧
      ∃ p, elementCheck s 0 0 (mkForm spGlobal 8) (formAddr (mkForm spGlobal 8)) 8 .atomic = .ok p ∧ s.placeUp p = true ∧
        s.badAt p 8 = false ∧ (s.mem p.mem).wf := by
  intro s
  refine ⟨_, ⟨by decide, rfl, by decide, by decide⟩, ?_, by decide, by decide, ⟨.hbm, 0x20000008, none⟩, by decide, by decide, by decide,
    by decide, by decide⟩
  simp only [List.forall_mem_cons, List.not_mem_nil, false_imp_iff, implies_true, and_true]
  exact ⟨⟨_, rfl⟩, _, [(⟨.hbm, 0x20000000, none⟩, 1)], by decide, rfl⟩

/-- TRAP found at the placed station's first word, which has stopped; the job's vector and context pool. -/
def trapped (vec : Dword) (n : Nat) : State :=
  mapped (withJob (fun j => { j with
    trapVec := vec
    poolBase := 0x10000
    poolCount := n })
    (withStation (fun x => { x with stopped := true }) (withFrieze (fun f => { f with
      stop := .trap
      trap := some ⟨0x10, none, 0, 0, 7, 0, 0⟩ }) here)))

/-- A complete stop with a handler and a free entry, whose image lies in writable memory; one without a handler; one without an entry. -/
theorem witness_TrapEntry :
    (∃ f r j ps, (trapped 0x7000 1).friezes.find 0 = some f ∧ f.state = .resident ∧ f.stop = .trap ∧ f.trap = some r ∧ f.handlerOf = none ∧
      stopDone (trapped 0x7000 1) 0 = true ∧ (trapped 0x7000 1).jobs.find f.job = some j ∧
      j.trapVec.extractLsb' 12 52 ≠ (0 : BitVec 52) ∧ 0 < j.poolCount ∧ 0 ∉ j.poolUsed ∧
      partPlaces (trapped 0x7000 1) (f.stopped r) (mkForm spGlobal (j.poolBase + 0x10000 * 0)) .write
        ((imageParts (f.stopped r) ((trapped 0x7000 1).kernels.find f.kernel) r).map fun p => (p.1, p.2.length)) = .ok ps) ∧
    ∀ s ∈ [trapped 0 1, trapped 0x7000 0], ∃ f r j, s.friezes.find 0 = some f ∧ f.state = .resident ∧ f.stop = .trap ∧ f.trap = some r ∧
      f.handlerOf = none ∧ stopDone s 0 = true ∧ s.jobs.find f.job = some j ∧
      (j.trapVec.extractLsb' 12 52 = (0 : BitVec 52) ∨ ∀ n, n < j.poolCount → n ∈ j.poolUsed) := by
  simp only [List.forall_mem_cons, List.not_mem_nil, false_imp_iff, implies_true, and_true]
  exact ⟨⟨_, _, _, _, rfl, rfl, rfl, rfl, rfl, by decide, rfl, by decide, by decide, by decide, rfl⟩,
    ⟨_, _, _, rfl, rfl, rfl, rfl, rfl, by decide, rfl, by decide⟩, ⟨_, _, _, rfl, rfl, rfl, rfl, rfl, by decide, rfl, by decide⟩⟩

/-- A handler that has executed EXIT, and one that has executed RESUME and read an image. -/
def handled (resuming : Option (List Byte)) : State :=
  handling (withStation (fun x => { x with exiting := true }) (withFrieze (fun f => { f with resuming := resuming }) here))

theorem witness_HandlerEnds :
    ∀ r ∈ [none, some (List.replicate 2048 (0 : Byte))], ∃ h f, (handled r).friezes.find 0 = some h ∧ h.state = .resident ∧
      h.handlerOf = some 1 ∧ (handled r).friezes.find 1 = some f ∧ f.kernel ≠ h.kernel ∧
      (∀ y ∈ h.stations, y.exiting = true ∧ y.quiet = true ∧ y.faults = []) ∧ h.resuming = r ∧ f.reqs = [] ∧
      ∀ y ∈ f.stations, ∀ k : BitVec 4, (y.slot k).aborts = [] := by
  simp only [List.forall_mem_cons, List.not_mem_nil, false_imp_iff, implies_true, and_true]
  and_intros <;> exact ⟨_, _, rfl, rfl, rfl, rfl, by decide, by decide, rfl, rfl, by decide⟩

/-! ### Witnesses: votes, triggers, ports and the array -/

/-- A vote with contributions in it, of a frieze of one station. -/
def voting (all : Bool) (votes : List Bool) : State := withFrieze (fun f => { f with vote := some ⟨0, all, 5, votes⟩ }) here

/-- An undecided vote, and decided ones that take the branch and that do not. -/
theorem witness_VoteWords :
    ∀ p ∈ [(false, []), (false, [true]), (false, [false]), (true, [true]), (true, [false])],
      ∃ f v, (voting p.1 p.2).friezes.find 0 = some f ∧ f.vote = some v ∧ v.all = p.1 ∧ v.votes = p.2 ∧ f.stations.length = 1 := by
  simp only [List.forall_mem_cons, List.not_mem_nil, false_imp_iff, implies_true, and_true]
  and_intros <;> exact ⟨_, _, rfl, rfl, rfl, rfl, rfl⟩

/-- A frieze whose station has issued TRIG with everything done, and one whose station has not. -/
theorem witness_TrigWord :
    (∃ f, (withStation (fun x => { x with trig := some [] }) here).friezes.find 0 = some f ∧ f.state ≠ .ended ∧
      ∀ y ∈ f.stations, y.trig = some []) ∧
    ∃ f, here.friezes.find 0 = some f ∧ f.state ≠ .ended ∧ ¬∀ y ∈ f.stations, y.trig = some [] :=
  ⟨⟨_, rfl, by decide, by decide⟩, ⟨_, rfl, by decide, by decide⟩⟩

/-- EXIT issues; an LDG, an STG, an ATOMG and an STS of the station are performed whole. -/
theorem witness_TrigWord_effects :
    (∃ c, Issues (startAt (.exit Hdr.plain)) (.exit Hdr.plain) Hdr.plain c) ∧
    (∀ q ∈ [{ busy .ldg with base := 0x7FFF8 }, { busy .stg with base := 0x7FFF8 }], ∃ x,
      Performs (withSlot q) 0 0 x 5 (.streamElementPerformed 0 0 15)) ∧
    (∃ x, Performs (withSlot { busy .atomg with base := 0x7FFFC }) 0 0 x 5 (.atomicApply 0 0 15)) ∧
    ∃ x, Performs (withPend ⟨5, true, false, 8, topLocal, 0x7FFF8, [1], [], 0, 0⟩) 0 0 x 5 (.streamElementPerformed 0 0 16) := by
  simp only [List.forall_mem_cons, List.not_mem_nil, false_imp_iff, implies_true, and_true]
  exact ⟨⟨_, issues_spec rfl (by decide)⟩,
    ⟨⟨_, .load 15 _ { busy .ldg with base := 0x7FFF8 } ⟨.tile 0, 0x7FFF8, none⟩ ⟨⟨rfl, rfl⟩, ⟨rfl, rfl⟩, ⟨by decide, rfl⟩, ⟨rfl, rfl, rfl⟩⟩ rfl rfl rfl
        ⟨by decide, by decide, rfl, by decide⟩ (by decide)⟩,
      _, .store 15 _ { busy .stg with base := 0x7FFF8 } ⟨.tile 0, 0x7FFF8, none⟩ ⟨⟨rfl, rfl⟩, ⟨rfl, rfl⟩, ⟨by decide, rfl⟩, ⟨rfl, rfl, rfl⟩⟩ rfl rfl
        ⟨by decide, by decide, rfl, by decide⟩⟩,
    ⟨_, .atomic 15 _ { busy .atomg with base := 0x7FFFC } ⟨.tile 0, 0x7FFFC, none⟩ ⟨⟨rfl, rfl⟩, ⟨rfl, rfl⟩, ⟨by decide, rfl⟩, ⟨rfl, rfl, rfl⟩⟩ rfl rfl rfl
        ⟨by decide, by decide, rfl, by decide⟩ (by decide)⟩,
    ⟨_, .scalar 0 _ ⟨5, true, false, 8, topLocal, 0x7FFF8, [1], [], 0, 0⟩ ⟨.tile 0, 0x7FFF8, none⟩ ⟨rfl, rfl⟩ rfl (by decide) rfl rfl
        ⟨by decide, by decide, rfl, by decide⟩ fun _ => rfl⟩⟩

/-- A data beat on its way. -/
def rawBeat : RawBeat := ⟨0, 7, 0, false⟩

/-- A route of out-port 31 of tile 0 to in-port 31 of tile 1 of a module, with a beat to send. -/
def routed (module : Nat) : State :=
  { withTile (·.setOut 31 [plainBeat 7]) here with routes := [(31, ⟨0, 0, module, 1, 31, false, 0, [], [], 0, false⟩)] }

/-- A beat on its way to a port; routes whose head beat goes to a port of this module with room, to a neighbour, and to a module two links
away. -/
theorem witness_BeatsMove :
    ((withTile (fun x => x.setIn 31 { InPort.reset with flight := [rawBeat] }) here).tile 0 |>.inPort 31).flight = [rawBeat] ∧
    (∃ r b rest, Sends (routed 0) 0 31 r b rest ∧ r.module = (routed 0).moduleId.toNat ∧ r.port < 32 ∧
      (((routed 0).tile r.tile).inPort r.port).free ≠ 0) ∧
    (∃ r b rest, Sends (routed 1) 0 31 r b rest ∧ r.module ≠ (routed 1).moduleId.toNat ∧ r.further (routed 1) = false) ∧
    ∃ s ∈ [{ routed 2 with torus := (16, 1, 1) }], ∃ r x, s.routes.find (32 * 0 + 31) = some r ∧ r.further s = true ∧ r.host = false ∧
      s.station? r.fz r.st = some x :=
  ⟨by decide, ⟨_, _, _, ⟨by decide, rfl, rfl, by decide, .inr ⟨_, rfl, by decide, rfl⟩, rfl, rfl⟩, rfl, by decide, by decide⟩,
   ⟨_, _, _, ⟨by decide, rfl, rfl, by decide, .inr ⟨_, rfl, by decide, rfl⟩, rfl, rfl⟩, by decide, by decide⟩,
   ⟨_, .head _, _, _, rfl, by decide, rfl, rfl⟩⟩

/-- PASS with a one-slot link from a selector. -/
def passOp (s : Sel) : StageOp := ⟨0, [s, .none, .none], [1, 0, 0], .rne, 0, 0, 0⟩

/-- One lane column: PASS from in-port 0 to out-port 5. -/
def laneMaq : Maq := ⟨[⟨0, 0, false, 0, 0⟩], [(0, passOp (.inport 0))], [(5, passOp (.out0 0 0))], []⟩

/-- A vector of one valid lane. -/
def oneLane : Tok := .vec (some (plainRec 7) :: List.replicate 15 none) true

/-- A tile whose column 0 and out-port 5 are active under context 1, with a vector at in-port 0 and one on the link to o5. -/
def laneTile : Tile :=
  { Tile.reset with
    ctxs := Tile.reset.ctxs.set 1 { MaqCtx.reset with
      state := .active
      owner := some 0
      maq := laneMaq }
    cols := Tile.reset.cols.set 0 { Col.reset with active := some 1 }
    outAct := [(5, 1)]
    inp := Tile.reset.inp.set 0 { InPort.reset with fifo := [⟨1, plainRec 7, 7⟩] }
    links := [(linkKey 1 1029, [oneLane])] }

/-- A state where tile 0 is as given. -/
def tiled (x : Tile) : State := { here with tiles := [(0, x)] }

/-- The same without the vectors, with a marker injected for the column. -/
def marked (mk : Tok) : State :=
  tiled { laneTile with
    links := []
    inp := Tile.reset.inp
    cols := Tile.reset.cols.set 0 { Col.reset with
      active := some 1
      injected := [mk] } }

/-- CNTACC over four bins from a selector, with a term in the first bin. -/
def countOp (s : Sel) : StageOp := ⟨0x81, [s, .none, .none], [1, 0, 0], .rne, 0x20, 0, 0⟩
def someBins : List Bin := [(1, false, false), (0, false, false), (0, false, false), (0, false, false)]

/-- The beat of a marker or of a SWEEP. -/
def beatOf : Tok → List Beat
  | .sweep j => [{ plainBeat (BitVec.ofNat 128 j) with kind := 2 }]
  | mk => markBeat mk

/-- A marker at the in-port that an operator reads, its state as given. -/
def arrived (o : StageOp) (st : Tab OpState) (mk : Tok) : State :=
  let x := { laneTile with
    links := []
    ops := st
    inp := Tile.reset.inp.set 0 { InPort.reset with fifo := beatOf mk } }
  tiled { x with ctxs := x.ctxs.set 1 { x.ctx 1 with maq := { laneMaq with stages := [(0, o)] } } }

/-- A marker injected for a column whose one operator, CNTACC, has no forward input. -/
def injectedCount (mk : Tok) : State :=
  let x := (marked mk).tile 0
  tiled { x with
    ops := [(0, .bins someBins true)]
    ctxs := x.ctxs.set 1 { x.ctx 1 with maq := { laneMaq with stages := [(0, countOp (.out0 0 0))] } } }

/-- An operator with a vector to fire on, an out-port word with a vector to write, and the markers a column takes. -/
theorem witness_OperatorsFire :
    (∃ s ∈ [tiled { laneTile with links := [] }], ∃ k o g, (s.tile 0).live 0 0 = some (k, o) ∧ (s.tile 0).pend.find (4 * 0 + 0) = none ∧
      lowerFires (pullFor s 0 o) 0 0 0 = false ∧ tryFire (pullFor s 0 o) 0 k 0 0 o = .go g) ∧
    (∃ s ∈ [tiled laneTile], ∃ k w v e, (s.tile 0).outAct.find 5 = some k ∧ ((s.tile 0).ctx k).maq.outs.find 5 = some w ∧
      ((pullFor s 0 w).tile 0).outStopped (((pullFor s 0 w).tile 0).ctx k).maq w = false ∧
      (((pullFor s 0 w).tile 0).inputToks k (1024 + 5) (w.sel[0]?.getD .none) (w.d[0]?.getD 0)).head? = some (.vec v e) ∧
      ((s.tile 0).outPort 5).length + (vecBeats v e).length ≤ 64) ∧
    ∀ mk ∈ [Tok.drain, .sweep 1], Injected (marked mk) 0 0 1 mk [] ∧
      MayTake ((marked mk).tile 0) 1 0 ((((marked mk).tile 0).ctx 1).maq.colOps 0) mk := by
  refine ⟨⟨_, .head _, _, _, _, rfl, rfl, by decide, rfl⟩, ⟨_, .head _, _, _, _, _, rfl, rfl, by decide, rfl, by decide⟩, ?_⟩
  simp only [List.forall_mem_cons, List.not_mem_nil, false_imp_iff, implies_true, and_true]
  exact ⟨⟨⟨rfl, rfl, rfl, by decide⟩, by unfold MayTake; decide⟩, ⟨rfl, rfl, rfl, by decide⟩, by unfold MayTake; decide⟩

/-- A DRAIN and a SWEEP at the head of PASS's forward input; a SWEEP at that of a CNTACC with a table to emit, and injected for one. -/
theorem witness_OperatorsFire_marks :
    (∀ mk ∈ [Tok.drain, .sweep 1], ∃ s ∈ [arrived (passOp (.inport 0)) [] mk], ∃ o, Slice0.Meets s 0 0 0 1 o mk ∧
      takers ((pullFor s 0 o).tile 0) 1 0 0 o = [(0, o)] ∧ MayTake ((pullFor s 0 o).tile 0) 1 0 [(0, o)] mk) ∧
    (∃ s ∈ [arrived (countOp (.inport 0)) [(0, .bins someBins true)] (.sweep 1)], ∃ o, Slice0.Meets s 0 0 0 1 o (.sweep 1) ∧
      (∀ q ∈ takers ((pullFor s 0 o).tile 0) 1 0 0 o, ((pullFor s 0 o).tile 0).markReady 0 q.1 q.2 (.sweep 1) = true) ∧
      ((pullFor s 0 o).tile 0).ops.find (4 * 0 + 0) = some (.bins someBins true)) ∧
    ∃ s ∈ [injectedCount (.sweep 1)], ∃ o, Injected s 0 0 1 (.sweep 1) [] ∧
      (∀ q ∈ ((s.tile 0).ctx 1).maq.colOps 0, (s.tile 0).markReady 0 q.1 q.2 (.sweep 1) = true) ∧
      ((s.tile 0).ctx 1).maq.stages.find (4 * 0 + 0) = some o ∧ (s.tile 0).ops.find (4 * 0 + 0) = some (.bins someBins true) := by
  simp only [List.forall_mem_cons, List.not_mem_nil, false_imp_iff, implies_true, and_true]
  refine ⟨⟨⟨_, .head _, passOp (.inport 0), ⟨rfl, rfl, rfl, by decide, by decide, ?_, rfl, by decide⟩, by decide, by unfold MayTake; decide⟩,
      ⟨_, .head _, passOp (.inport 0), ⟨rfl, rfl, rfl, by decide, by decide, ?_, rfl, by decide⟩, by decide, by unfold MayTake; decide⟩⟩,
    ⟨_, .head _, countOp (.inport 0), ⟨rfl, rfl, rfl, by decide, by decide, ?_, rfl, by decide⟩, by decide, by decide⟩,
    ⟨_, .head _, _, ⟨rfl, rfl, rfl, by decide⟩, by decide, rfl, rfl⟩⟩ <;>
  · intro i h
    rcases i with _ | i
    · rfl
    · exact nomatch (show [true][i + 1]? = some true from h)

/-- A systolic word: A from in-port 0, B from 16, control from 31, emission to out-port 3. -/
def sysWord (int32 : Bool) : SysWord := ⟨false, 0, 16, 31, 3, int32, .rne⟩

/-- A tile at work on a systolic region, its run as given. -/
def sysTile (r : Region) (int32 : Bool) (run : SysRun) : Tile :=
  { Tile.reset with
    ctxs := Tile.reset.ctxs.set 1 { MaqCtx.reset with
      state := .active
      owner := some 0
      maq := ⟨[r], [], [], [(0, sysWord int32)]⟩ }
    cols := Vector.replicate 16 { Col.reset with active := some 1 }
    sys := [(r.first, run)] }

/-- A region whose rectangle is that tile alone, every handshake passed. -/
def alone : SysRun := { SysRun.reset with
  ready := true
  site := some (0, 0) }

/-- A region of one column. -/
def oneCol : Region := ⟨0, 0, true, 0, 0⟩

/-- A region that goes on one tile east, and its neighbour there. -/
def eastPair : State :=
  { here with tiles := [(0, sysTile ⟨0, 15, true, 1, 0⟩ true SysRun.reset), (1, sysTile ⟨0, 15, true, 0, 0⟩ true SysRun.reset)] }

/-- A control beat at the control port of a region of one column. -/
def controlled (d : Data) : State :=
  tiled { sysTile oneCol true alone with inp := Tile.reset.inp.set 31 { InPort.reset with fifo := [plainBeat d] } }

/-- A descriptor to hand on; a control beat that begins an operation of one step, and one that sets nothing. -/
theorem witness_SystolicControl :
    (∃ q p, Works eastPair 0 0 q ∧ q.r.east ≠ 0 ∧ q.r.south = 0 ∧ (eastPair.tile (0 + 1)).sysAt 0 = some p ∧
      (eastPair.tile (0 + 1)).awaited 0 = false ∧ p.run.west = none ∧ p.run.north = none ∧ q.run.left = false ∧ p.run.left = false ∧
      descriptorMatches true q p = true ∧
      identityOf eastPair 0 q = some (0, 0)) ∧
    (∃ q b, ((controlled 0x10080).tile 0).sysAt 0 = some q ∧ ctlHead (controlled 0x10080) 0 q = some b ∧ (Ctl.of b.bits).ok q.w = true ∧
      ∀ u g l, (u, g, l) ∈ rowTiles (controlled 0x10080) 0 q → ∃ p, ((controlled 0x10080).tile u).sysAt g = some p ∧ (Ctl.of b.bits).ok p.w = true) ∧
    ∃ q b, ((controlled 0).tile 0).sysAt 0 = some q ∧ ctlHead (controlled 0) 0 q = some b ∧ (Ctl.of b.bits).ok q.w = false ∧
      q.r.first ≤ q.r.last ∧ q.r.first < 16 ∧ (((controlled 0).tile 0).ctx q.k).maq.regionOf q.r.first = some q.n :=
  ⟨⟨_, _, ⟨rfl, rfl⟩, by decide, rfl, rfl, by decide, rfl, rfl, rfl, rfl, by decide, by decide⟩, ⟨⟨1, 0, oneCol, sysWord true, alone⟩, _, rfl, rfl, by decide, fun u g l h => by
      rw [show rowTiles (controlled 0x10080) 0 ⟨1, 0, oneCol, sysWord true, alone⟩ = [(0, 0, 0)] by decide] at h
      obtain ⟨rfl, rfl, -⟩ : u = 0 ∧ g = 0 ∧ l = 0 := by simpa using h
      exact ⟨_, rfl, by decide⟩⟩,
   ⟨_, _, rfl, rfl, by decide, by decide, by decide, by decide⟩⟩

/-- An operand beat of INT8 elements. -/
def int8Beat : Beat := ⟨0, { plainRec 1 with form := .packed .int8 }, 1⟩

/-- A cell (0, 0) with a control beat at its head, operands at the ports, in FP32 or INT32. -/
def celled (int32 : Bool) (d : Data) (cap : Option (Word × Bool × Beat)) : State :=
  tiled { sysTile oneCol int32 alone with
    cells := [(0, { Cell.empty with
      ctl := [plainBeat d]
      cap := cap })]
    inp := (Tile.reset.inp.set 0 { InPort.reset with fifo := [int8Beat] }).set 16 { InPort.reset with fifo := [int8Beat] } }

/-- A region at rest with a DRAIN at the head of each of its ports. -/
def drained : State :=
  tiled { sysTile oneCol true alone with inp := Vector.replicate 32 { InPort.reset with fifo := (markBeat .drain) } }

/-- A step with its words; each ACCOP in both modes; a capture to emit; a DRAIN at every port. -/
theorem witness_SystolicWork :
    (∃ s ∈ [celled true 0x10080 none], ∃ q b o a bs, cellHead s 0 0 0 = some (q, b, o) ∧ o.op ≠ 3 ∧ ((s.tile 0).cell 0 0).done < o.run ∧
      aWord (s.tile 0) q 0 0 = some a ∧ bWords (s.tile 0) q 0 0 (bCount q.w a) = some bs ∧ stepFault q.w a bs = none) ∧
    (∀ i ∈ [true, false], ∀ d ∈ [0x3, 0x1003, 0x2003, (0x3003 : Data)],
      ∃ q b o, cellHead (celled i d none) 0 0 0 = some (q, b, o) ∧ o.op = 3) ∧
    (∀ i ∈ [true, false], ∃ q b f, Works (celled i 0x200A0 (some (7, false, plainBeat 0x200A0))) 0 0 q ∧ q.w.out < 32 ∧
      (((celled i 0x200A0 (some (7, false, plainBeat 0x200A0))).tile 0).outPort q.w.out).length < 64 ∧
      captureOf ((celled i 0x200A0 (some (7, false, plainBeat 0x200A0))).tile 0) q.r = some b ∧
      (Ctl.of b.bits).target q.w.int32 = some f ∧ (f = .fp32 ∧ q.w.int32 = false ∨ f = .int32 ∧ q.w.int32 = true) ∧
      ∀ c ∈ emitColumns q, (((celled i 0x200A0 (some (7, false, plainBeat 0x200A0))).tile 0).cell (emitLane q) c).cap.isSome = true) ∧
    ∃ q, Works drained 0 0 q ∧ AtMarker drained 0 q .drain := by
  simp only [List.forall_mem_cons, List.not_mem_nil, false_imp_iff, implies_true, and_true]
  refine ⟨⟨_, .head _, _, _, _, _, _, rfl, by decide, by decide, rfl, rfl, by decide⟩, ?_, ?_,
    ⟨_, ⟨rfl, rfl⟩, ⟨?_, by simp, ⟨by decide, by decide⟩, ⟨by decide, by decide⟩, by decide, by decide, by decide⟩⟩⟩
  · and_intros <;> exact ⟨_, _, _, rfl, rfl⟩
  · and_intros <;> exact ⟨_, _, _, ⟨rfl, rfl⟩, by decide, by decide, rfl, rfl, by decide, by decide⟩
  · have hf : ∀ p < 32, ((drained.tile 0).inPort p).fifo = markBeat .drain := by decide
    have hp : ∀ p ∈ ((sysWord true).inPorts (some oneCol)).dedup, p < 32 := by decide
    exact fun p h => ⟨_, _, hf p (hp p h), by decide⟩

/-- A maquette of one lane column, PASS from i0 to o5, as four words in LOCAL memory at 0 (R47–R50). -/
def maqWords : List Dword := [0xA511000400010000, 0x8000000000000000, 0x000000FFFF100000, 0xC50040FFFF100000]

/-- A load of words at LOCAL address 0 under way on context 3. -/
def loading (ws : List Dword) : State :=
  tiled { Tile.reset with
    mem := Memory.empty.storeBytes 0 (ws.flatMap bytesOf)
    ctxs := Tile.reset.ctxs.set 3 { MaqCtx.reset with
      state := .loading
      owner := some 0
      load := some ⟨0, 4, 0, 0, 0, 0, 5, [], false⟩ } }

/-- A maquette that passes every check, and a header that does not. -/
theorem witness_LoadCompletes :
    (∃ l f w ws m, Loads (loading maqWords) 0 3 l f w ∧ mqHeader w l.avail.toNat = some (1, 4, 1) ∧
      loadWords (loading maqWords) f.job 0 l.form (formAddr l.form + 8) 1 (4 - 1) = .ok ws ∧ buildMaq 1 1 (w :: ws) = some m ∧
      m.onDie 0 = true ∧ ((loading maqWords).tile 0).conflicts l.fz m = false) ∧
    ∃ l f x w, Loads (loading []) 0 3 l f w ∧ f.stations[l.st]? = some x ∧ mqHeader w l.avail.toNat = none :=
  ⟨⟨_, _, _, _, _, ⟨by decide, rfl, rfl, by decide, rfl, rfl⟩, by decide, rfl, rfl, by decide, by decide⟩,
   ⟨_, _, _, _, ⟨by decide, rfl, rfl, by decide, rfl, rfl⟩, rfl, by decide⟩⟩


/-! ### Witnesses: elements of streams and firings of operators -/

/-- A state where slot 15 is a stream's, with beats at out-ports 5 and 6. -/
def streaming (q : Slot) (data idx : List Beat) : State := withTile (fun x => (x.setOut 5 data).setOut 6 idx) (withSlot q)

/-- A stream of n elements of 4 bytes over the last bytes of LOCAL space, from out-port 5 or into in-port 31, indices from out-port 6. -/
def streamOf (k : SKind) (n : Dword) : Slot :=
  { busy k with
    base := 0x7FFFC
    shape := #v[n * 0x100000000000 + 2, 0x100000000000, 0x100000000000, 0x100000000000]
    inport := 31
    outport := 5
    idxport := 6 }

/-- The last beat of a read of one element with its side bytes and an EOS; the bare EOS of an empty one, also at an SMC's root. -/
theorem witness_StreamElements_reads :
    (∃ q ∈ [{ streamOf .rd 1 with eos := true, sideBytes := 4, base2 := 0x7FFF8 }], ∃ s ∈ [streaming q [] []], ∃ f x, Moves s 0 0 15 f x q ∧
      Flows s 0 0 15 f q ∧ Goes s 0 0 15 f q [0] ∧ Slice0.Side s f 0 q [0, 0, 0, 0] ∧ [(List.replicate 4 (0 : Byte), false)].length ≤ q.q / q.shape.size ∧
      Part s f 0 q 0 (List.replicate 4 0) false ∧ Ends s f 0 q 1 ∧ Known s f 0 q 1) ∧
    (∃ q ∈ [{ streamOf .rd 0 with eos := true }], ∃ s ∈ [streaming q [] []], ∃ f x, Moves s 0 0 15 f x q ∧ Flows s 0 0 15 f q ∧
      Goes s 0 0 15 f q [0] ∧ q.eos = true ∧ q.next = 0 ∧ Ends s f 0 q 0) ∧
    ∃ q ∈ [{ streamOf .mc 0 with eos := true }], ∃ s ∈ [withStation (fun x => { x with pos := 1 }) (streaming q [] [])], ∃ f x,
      Moves s 0 0 15 f x q ∧ Flows s 0 0 15 f q ∧ Goes s 0 0 15 f q [0] ∧ Ends s f 0 q 0 := by
  refine ⟨⟨_, .head _, _, .head _, _, _, ⟨⟨rfl, rfl⟩, ⟨rfl, rfl⟩, ⟨by decide, rfl⟩, ⟨rfl, rfl, rfl⟩⟩, ⟨by decide, fun h => absurd h (by decide), nofun⟩,
      ⟨.inl rfl, by decide, fun _ => rfl, nofun, ?_⟩, ⟨nofun, fun _ => ⟨⟨.tile 0, 0x7FFF8, none⟩, ⟨by decide, by decide, rfl, by decide⟩, by decide, by decide⟩⟩,
      by decide, ⟨by unfold Ends; decide, some 0x7FFFC, by rw [ElementIs, if_neg (by decide)]; decide, nofun, fun v hv =>
        ⟨⟨.tile 0, 0x7FFFC, none⟩, by obtain rfl := Option.some.inj hv; exact ⟨by decide, by decide, rfl, by decide⟩, fun _ => by decide, nofun⟩⟩,
      .inl (by decide), .inl (.inl (by decide))⟩,
    ⟨_, .head _, _, .head _, _, _, ⟨⟨rfl, rfl⟩, ⟨rfl, rfl⟩, ⟨by decide, rfl⟩, ⟨rfl, rfl, rfl⟩⟩, ⟨by decide, fun h => absurd h (by decide), nofun⟩,
      ⟨.inl rfl, by decide, fun _ => rfl, nofun, ?_⟩, rfl, rfl, .inl (by decide)⟩,
    ⟨_, .head _, _, .head _, _, _, ⟨⟨rfl, rfl⟩, ⟨rfl, rfl⟩, ⟨by decide, rfl⟩, ⟨rfl, rfl, rfl⟩⟩, ⟨by decide, fun h => absurd h (by decide), nofun⟩,
      ⟨.inr (.inr (.inr rfl)), by decide, nofun, fun _ => ⟨rfl, by decide, by decide, by decide, by decide⟩, ?_⟩, .inl (by decide)⟩⟩ <;>
  · intro u hu
    obtain rfl := List.mem_singleton.mp hu
    exact ⟨_, rfl, rfl, rfl, by decide, .inl (by decide)⟩

/-- A write, a scatter and an atomic scatter with an element to take, the last one and not; a poisoned beat and markers at their head. -/
theorem witness_StreamElements_writes :
    (∀ n ∈ [(1 : Dword), 2], ∃ q ∈ [{ streamOf .wr n with sideBytes := 4, base2 := 0x7FFF8 }], ∃ s ∈ [streaming q [plainBeat 7] []], ∃ f x p sp,
      Moves s 0 0 15 f x q ∧ Flows s 0 0 15 f q ∧ Takes s f 0 q (plainBeat 7) [] ∧ q.next < q.limit ∧ SidePut s f 0 q sp ∧
      Target (sideDone s q (plainBeat 7) sp) s f 0 q p) ∧
    (∀ k ∈ [SKind.scat, .scata], ∃ q ∈ [streamOf k 1], ∃ s ∈ [streaming q [plainBeat 7] [plainBeat 0]], ∃ f x p, Moves s 0 0 15 f x q ∧
      Flows s 0 0 15 f q ∧ Takes s f 0 q (plainBeat 7) [] ∧ q.next < q.limit ∧ SidePut s f 0 q none ∧ Target s s f 0 q p) ∧
    ∀ b ∈ [{ plainBeat 7 with r := { plainRec 7 with poison := true } }, { plainBeat 3 with kind := 3 }, { plainBeat 1 with kind := 3 }],
      ∃ q ∈ [{ streamOf .wr 1 with eos := true }], ∃ s ∈ [streaming q [b] []], ∃ f x, Moves s 0 0 15 f x q ∧ Flows s 0 0 15 f q ∧
        Takes s f 0 q b [] ∧ q.next < q.limit ∧ q.taken = 0 := by
  simp only [List.forall_mem_cons, List.not_mem_nil, false_imp_iff, implies_true, and_true]
  refine ⟨?_, ?_, ?_⟩ <;> and_intros
  iterate 2
    exact ⟨_, .head _, _, .head _, _, _, some ⟨.tile 0, 0x7FFFC, none⟩, some ⟨.tile 0, 0x7FFF8, none⟩,
      ⟨⟨rfl, rfl⟩, ⟨rfl, rfl⟩, ⟨by decide, rfl⟩, ⟨rfl, rfl, rfl⟩⟩, ⟨by decide, fun _ => by decide, nofun⟩, ⟨rfl, by decide, rfl, by decide⟩,
      by decide, by rw [SidePut, if_pos (by decide)]; exact ⟨_, rfl, by decide, ⟨by decide, by decide, rfl, by decide⟩⟩,
      ⟨by unfold Ends; decide, by decide, by decide, by decide, some 0x7FFFC, by rw [ElementIs, if_neg (by decide)]; decide, nofun, fun v hv =>
        ⟨_, rfl, by obtain rfl := Option.some.inj hv; exact ⟨by decide, by decide, rfl, by decide⟩, by decide, nofun⟩⟩⟩
  iterate 2
    exact ⟨_, .head _, _, .head _, _, _, some ⟨.tile 0, 0x7FFFC, none⟩, ⟨⟨rfl, rfl⟩, ⟨rfl, rfl⟩, ⟨by decide, rfl⟩, ⟨rfl, rfl, rfl⟩⟩,
      ⟨by decide, fun _ => by decide, fun _ => ⟨by decide, rfl⟩⟩, ⟨rfl, by decide, rfl, by decide⟩, by decide, by rw [SidePut, if_neg (by decide)],
      ⟨by unfold Ends; decide, by decide, by decide, by decide, some 0x7FFFC, by rw [ElementIs, if_pos (by decide)]; exact ⟨0, by decide, by decide⟩, nofun,
        fun v hv => ⟨_, rfl, by obtain rfl := Option.some.inj hv; exact ⟨by decide, by decide, rfl, by decide⟩, by decide, fun _ => by decide⟩⟩⟩
  iterate 3
    exact ⟨_, .head _, _, .head _, _, _, ⟨⟨rfl, rfl⟩, ⟨rfl, rfl⟩, ⟨by decide, rfl⟩, ⟨rfl, rfl, rfl⟩⟩, ⟨by decide, fun _ => by decide, nofun⟩,
      ⟨rfl, by decide, rfl, by decide⟩, by decide, rfl⟩

/-- The last element of SCP, read now and read ahead, and SREC of one beat. -/
theorem witness_StreamElements_copies :
    (∀ e ∈ [[], [(0, (List.replicate 4 (0 : Byte), false))]],
      ∃ q ∈ [{ streamOf .cp 1 with base2 := 0x7FFF8, shape2 := (streamOf .cp 1).shape, early := e }], ∃ s ∈ [streaming q [] []],
      ∃ f x, ∃ src ∈ [⟨.tile 0, 0x7FFFC, none⟩], ∃ dst ∈ [⟨.tile 0, 0x7FFF8, none⟩], Moves s 0 0 15 f x q ∧ q.next < q.limit ∧
      Lies s f 0 q.base (elementAddr q.base q.shape none q.next) q.shape.size .read src ∧
      (q.early.find q.next = none → List.replicate 4 0 = s.bytesAt src q.shape.size ∧ s.badAt src q.shape.size = false) ∧
      (∀ p, q.early.find q.next = some p → p = (List.replicate 4 0, false)) ∧ (List.replicate 4 (0 : Byte)).length = q.shape.size ∧
      (∀ j, j < q.shape.size → q.snap.find (placeKey src + j) = none) ∧
      Lies s f 0 q.base2 (elementAddr q.base2 q.shape2 none q.next) q.shape.size .write dst ∧ (s.mem dst.mem).wf) ∧
    ∃ q ∈ [{ streamOf .recur 1 with eos := true }], ∃ s ∈ [streaming q [plainBeat 7] []], ∃ f x, Moves s 0 0 15 f x q ∧ Flows s 0 0 15 f q ∧
      (s.tile (f.tileOf 0)).outPort q.outport = [plainBeat 7] ∧ ((s.tile (f.tileOf 0)).inPort q.inport).free ≠ 0 := by
  simp only [List.forall_mem_cons, List.not_mem_nil, false_imp_iff, implies_true, and_true]
  refine ⟨?_, _, .head _, _, .head _, _, _, ⟨⟨rfl, rfl⟩, ⟨rfl, rfl⟩, ⟨by decide, rfl⟩, ⟨rfl, rfl, rfl⟩⟩, ⟨by decide, fun _ => by decide, nofun⟩, rfl,
    by decide⟩
  and_intros <;> exact ⟨_, .head _, _, .head _, _, _, _, .head _, _, .head _, ⟨⟨rfl, rfl⟩, ⟨rfl, rfl⟩, ⟨by decide, rfl⟩, ⟨rfl, rfl, rfl⟩⟩, by decide,
    ⟨by decide, by decide, rfl, by decide⟩, fun _ => by decide, fun p h => by cases h <;> rfl, by decide, fun _ _ => rfl,
    ⟨by decide, by decide, rfl, by decide⟩, by decide⟩

/-- A firing of an operator of one lane: its code, PARM, the records at its inputs, their EOS and its state. -/
def firing (op p : Nat) (rs : List Rec) (e : Bool) (st : Option OpState) : FireIn :=
  ⟨⟨op, [], [], .rne, p, 0, 3⟩, ⟨0, 0, 0⟩, rs.map fun _ => true, rs.map fun r => [.vec (some r :: List.replicate 15 none) e], st, [], true⟩

/-- A record of a form. -/
def recOf (f : Form) (d : Data) : Rec := { plainRec d with form := f }

/-- Every family of results with what its rows require of the records at its inputs: one of each is a firing that goes on. -/
theorem witness_LaneResults :
    (∀ f ∈ [firing 0x14 255 [recOf .w32i 0x7FFFFFFF] false none, firing 0x23 0 [plainRec 1, plainRec 2, plainRec 3] true none,
        firing 0x50 4 [plainRec 1] false none, firing 0x54 3 [plainRec 1] false (some (.scan [none, none, none, none])),
        firing 0x61 1 [recOf (.packed .int8) 5] false none, firing 0x71 3 [recOf (.packed .int8) 5, recOf .w32i 127] false none,
        firing 0x60 7 [plainRec 1] false none, firing 0x01 0 [plainRec 1] true none],
      f.fault? = none ∧ f.vectors.isSome = true) ∧
    (∃ f ∈ [firing 0x70 7 [plainRec 1, plainRec 0x4B000000] false none], ∃ vs eos mis m, f.fault? = none ∧ f.vectors = some (vs, eos, mis) ∧
      other vs 1 0 = some (plainRec 0x4B000000) ∧ ofF32 ((plainRec 0x4B000000).word 0) = .fin false m ∧ m ≠ 0) ∧
    (∃ f ∈ [firing 0x64 0 [recOf (.loose .int8) 5] false none], ∃ vs eos mis, f.fault? = none ∧ f.vectors = some (vs, eos, mis) ∧
      packAlike (first vs) = true ∧ (recordsOf (first vs)).head? = some (recOf (.loose .int8) 5)) ∧
    (∀ e ∈ [true, false], ∃ f ∈ [firing 0x02 0 [plainRec 1, plainRec 0] e (some (.steer (List.replicate (if e then 15 else 16) (plainRec 1)) []))],
      f.fault? = none ∧ f.vectors.isSome = true ∧ (f.head 0).isSome = true) ∧
    (∀ op ∈ [0x80, 0x81], ∀ e ∈ [true, false],
      ∃ f ∈ [firing op 0x20 ([recOf .w32i 3, recOf .w32i 1].take (2 - op % 16)) e (some (.bins someBins false))],
      f.fault? = none ∧ f.vectors.isSome = true ∧ someBins.length = 2 ^ (f.o.p / 16)) ∧
    (∀ op ∈ [0xB0, 0xB1], ∃ f ∈ [firing op 0 [plainRec 1] true (some (.count 1 false))], ∃ vs eos mis, f.fault? = none ∧ f.vectors = some (vs, eos, mis) ∧
      1 + (validOf (first vs)).length < f.o.value) ∧
    ∃ f ∈ [firing 0xA0 1 [recOf (.packed .e2m1) 5] false none], ∃ vs eos mis, f.fault? = none ∧ f.vectors = some (vs, eos, mis) ∧
      recAt (first vs) 0 = some (recOf (.packed .e2m1) 5) := by
  simp only [List.forall_mem_cons, List.not_mem_nil, false_imp_iff, implies_true, and_true]
  refine ⟨by decide, ⟨_, .head _, _, _, _, _, by decide, rfl, rfl, rfl, show ((8388608 : Nat) : Rat) * pow2 0 ≠ 0 by simp [pow2]⟩, ⟨_, .head _, _, _, _, by decide, rfl, by decide, by decide⟩,
    ⟨⟨_, .head _, by decide⟩, _, .head _, by decide⟩, ⟨⟨⟨_, .head _, by decide⟩, _, .head _, by decide⟩, ⟨_, .head _, by decide⟩, _, .head _, by decide⟩,
    ⟨⟨_, .head _, _, _, _, by decide, rfl, by decide⟩, _, .head _, _, _, _, by decide, rfl, by decide⟩, _, .head _, _, _, _, by decide, rfl, rfl⟩

/-- The operators that take their inputs one by one, and an operator of a tile whose outputs have room. -/
theorem witness_LaneResults_own :
    (∀ f ∈ [firing 0x06 0 [] false none, firing 0x05 0 [plainRec 1] false (some (.delay [oneLane])),
        firing 0x07 0 [plainRec 1, plainRec 2] false (some (.recirc true)), firing 0x03 0 [plainRec 1, plainRec 2] false (some (.merge true false false))],
      f.fault? = none) ∧
    (∃ f ∈ [{ firing 0x04 0 [plainRec 1, plainRec 2] true none with dq := [⟨[true, true], [true, false], true⟩] }], f.fault? = none ∧
      f.ins = [[.vec (some (plainRec 1) :: List.replicate 15 none) true], [.vec (some (plainRec 2) :: List.replicate 15 none) true]]) ∧
    ∃ s ∈ [pullFor (tiled { laneTile with links := [] }) 0 (passOp (.inport 0))], ∃ g, fireOp ((s.tile 0).fireIn 1 0 0 (passOp (.inport 0))) = .go g ∧
      (s.tile 0).roomFor 1 0 0 ((s.tile 0).ctx 1).maq g.outs = true :=
  ⟨by decide, ⟨_, .head _, by decide, rfl⟩, _, .head _, _, rfl, by decide⟩

/-! ### Witnesses: versions, reclamation, the fabric and the homes -/

/-- Record 1 of domain 0, as given, whose TXCOMMIT has gathered the placed frieze's one station. -/
def committed (r : TxRec) (counter : BitVec 48) : State :=
  let s := withStation (fun x => { x with pos := 1 }) (withDomain r here)
  { s with
    domains := s.domains.map fun p => (p.1, { p.2 with counter := counter })
    reqs := [(5, ⟨0, 0, 0, 0, 3, .txcommit 0 1 1, some 4, some 0, 0, 0, [], 0, none⟩)]
    chains := [(8, ⟨0, 0, 0, [], some ⟨1, List.replicate 128 1, false, none, false⟩⟩)] }

/-- A COMMITTING record under number 1 whose intents lie on module 0, or on one that cannot be reached. -/
def pending (ctrl : Nat) (acked refused : List Nat) : TxRec :=
  { txRec .committing 0 with
    cnum := 1
    ctrls := [ctrl]
    acked := acked
    refusedBy := refused
    sent := true }

theorem kept_here {r : TxRec} {c : BitVec 48} (h : r.ownerFz = some 0) : kept (committed r c) r := by
  intro o ho
  obtain rfl : 0 = o := by simpa [h] using ho
  exact ⟨_, rfl, by simp; decide⟩

/-- Commits asked of an ACTIVE record with intents; of a DOOMED one, one without intents, one for which no number is left; PUBLISH, the
commit instant and both ways a commit is voided. -/
theorem witness_CommitEvents :
    (∃ s ∈ [committed { txRec .active 0 with ctrls := [0] } 0], ∃ d r, Asks s 0 0 1 d r ∧ r.state = .active ∧ r.ctrls ≠ [] ∧
      d.counter.extractLsb' 0 42 ≠ (-1 : BitVec 42)) ∧
    (∀ s ∈ [committed (txRec .doomed 2) 0, committed (txRec .active 0) 0,
        committed { txRec .active 0 with ctrls := [0] } 0x3FFFFFFFFFF], ∃ d r, Asks s 0 0 1 d r ∧
      (r.state = .doomed ∨ r.state = .active ∧ (r.ctrls = [] ∨ d.counter.extractLsb' 0 42 = (-1 : BitVec 42)))) ∧
    (∃ r, (committed (pending 0 [] []) 1).rec? 0 0 1 = some r ∧ r.state = .committing ∧ 0 ∈ r.ctrls ∧ 0 ∉ r.acked ∧
      0 ∉ r.refusedBy ∧ (committed (pending 0 [] []) 1).homeReaches 0 0 (0 / 16) = true) ∧
    (∃ s ∈ [committed (pending 0 [0] []) 1], ∃ d r, s.dom? 0 0 = some d ∧ d.recs.find 1 = some r ∧ kept s r ∧ r.state = .committing ∧
      r.refusedBy = [] ∧ (∀ m ∈ r.ctrls, m ∈ r.acked) ∧ s.hbm.wf ∧ (∀ p ∈ s.chains, ∀ j, p.2.intent = some j → j.bytes.length = 128) ∧
      d.settled = [] ∧ r.cnum = d.published + 1) ∧
    ∀ s ∈ [committed (pending 0 [] [0]) 1, committed (pending 16368 [] []) 1], ∃ r, s.rec? 0 0 1 = some r ∧ kept s r ∧
      r.state = .committing ∧ (r.refusedBy ≠ [] ∨ ∃ m ∈ r.ctrls, s.homeReaches 0 0 (m / 16) = false ∧ m ∉ r.acked) := by
  simp only [List.forall_mem_cons, List.not_mem_nil, false_imp_iff, implies_true, and_true]
  refine ⟨⟨_, .head _, _, _, ⟨by decide, rfl, rfl, kept_here rfl⟩, rfl, by decide, by decide⟩, ?_, ⟨_, rfl, rfl, by decide, by decide, by decide, by decide⟩,
    ⟨_, .head _, _, _, rfl, rfl, kept_here rfl, rfl, rfl, by decide, ⟨by decide, by decide⟩, by decide, rfl, by decide⟩, ?_⟩
  · and_intros <;> exact ⟨_, _, ⟨by decide, rfl, rfl, kept_here rfl⟩, by decide⟩
  · and_intros <;> exact ⟨_, rfl, kept_here rfl, rfl, by decide⟩

/-- Domain 0 of the management job with two registrations and an ACTIVE record at the older datum, a write waiting on module 0 for a pool of
no entry, and a line with two older versions. -/
def versioned : State :=
  { withStation (·.setSlot 2 (busy .wr)) here with
    cycles := 0x10000000
    domains := [(0, ⟨0, 0, 0, 9, 9, [(1, { txRec .active 0 with datum := 5 })], [⟨0, 1, 5, false, 1⟩, ⟨0, 2, 7, false, 1⟩], [], 0, [(0, 0)], [(5, 9, 1)], 0, []⟩)]
    chains := [(8, ⟨0, 0, 9, [(5, [], false), (3, [], false)], none⟩)] }

/-- A domain with live datums and a line, and a write that has waited as long as POOL_WAIT_LIMIT. -/
theorem witness_ReclaimEvents :
    (∃ d c, versioned.dom? 0 0 = some d ∧ versioned.chains.find 8 = some c ∧ c.older ≠ []) ∧
    ∃ d j x t0, versioned.dom? 0 0 = some d ∧ versioned.job? 0 = some j ∧ versioned.poolWaits 0 0 0 = true ∧ d.waitSince.find 0 = some t0 ∧
      t0 + j.poolWaitLimit.toNat ≤ versioned.cycles.toNat ∧ oldestLive d = some x ∧ (∃ r ∈ d.regs, r.datum = x) ∧
      ∃ k r, d.recs.find k = some r ∧ r.datum = x ∧ r.state = .active :=
  ⟨⟨_, _, rfl, rfl, by decide⟩,
    ⟨_, _, 5, _, rfl, rfl, by decide, rfl, by decide, by decide, ⟨_, .head _, rfl⟩, 1, _, rfl, rfl, rfl⟩⟩

/-- A request of the placed frieze in the table. -/
def asking (k : ReqKind) (s : State) : State := { s with reqs := [(5, ⟨0, 0, 0, 0, 3, k, some 4, none, 0, 0, [], 0, none⟩)] }

/-- A forwarding target that is free; a taken one with a source listed in this c-cycle; saved routes, and a LAUNCH on a full ring, held as
long as WAIT_LIMIT. -/
theorem witness_FabricEvents :
    ((here.nodes.find 3).getD FwdNode.free).taken = none ∧
    (∃ s ∈ [{ here with nodes := [(3, ⟨some 1, none, [(2, 0)], []⟩)] }], ∃ n, s.nodes.find 3 = some n ∧ n.taken = some 1 ∧
      (∀ p ∈ n.listed, p.1 ≠ 7) ∧ (∀ p ∈ n.refused, p.1 ≠ 7) ∧ (2, 0) ∈ n.listed ∧ (∀ p ∈ n.listed, p.1 = 2 → p = (2, 0)) ∧
      s.cycles.toNat < 0 + 16 ∧ n.awaits s = false) ∧
    (∃ s ∈ [overdue (withFrieze (fun f => { f with rebind := [(31, 0, false)] }) { here with cycles := 2 })], ∃ f x j, At s 0 0 f x ∧
      f.state = .resident ∧ f.stop ≠ .freeze ∧ f.trap = none ∧ f.rebind ≠ [] ∧ (∀ p ∈ f.rebind, p.1 % 512 / 32 = 0) ∧
      s.jobs.find f.job = some j ∧ f.resumeAt + j.waitLimit.toNat ≤ s.cycles.toNat) ∧
    ∃ s ∈ [overdue (asking (.launch 9 0 View.launch (some 0)) { here with
        cycles := 2
        queues := [(9, { Queue.reset with appended := 16 })] })], ∃ r f x j n a v t0, AtUnit s 5 r f x ∧
      r.kind = .launch n a v (some t0) ∧ s.jobs.find r.job = some j ∧ t0 + j.waitLimit.toNat ≤ s.cycles.toNat ∧
      (s.queue n).full = true :=
  ⟨rfl, ⟨_, .head _, _, rfl, rfl, by decide, by decide, by decide, by decide, by decide, by decide⟩,
    ⟨_, .head _, _, _, _, ⟨rfl, rfl⟩, rfl, by decide, rfl, by decide, by decide, rfl, by decide⟩,
    ⟨_, .head _, _, _, _, _, _, _, _, _, ⟨rfl, rfl, rfl, by decide, ⟨rfl, rfl⟩, rfl⟩, rfl, rfl, by decide, by decide⟩⟩

/-- A dispatch of a group of two on die 0, of the placed frieze, in a state of its engine. -/
def dispatching (st : EngState) (msgs : List ExchangeMsg) : State :=
  asking (.erdisp 0 0 1 0) { here with engines := here.engines.set 0 { Engine.reset with
    state := st
    cfg := some ⟨1, false, 0, 0, 2, 2, 0, 0, 0, 0, 0, 0, 0, 0, [(0, 0), (1, 3)], [], 0⟩
    count := 1
    configs := [(0, 1)]
    msgs := msgs
    queue := [5] } }

/-- A message of the other member. -/
def told : ExchangeMsg := ⟨0, 1, 1, 1, 0, 0, [], [], [], false, false, []⟩

/-- A message of the other member to a configured engine, and for a configuration to come, also where there is none yet; one of a job that
is not here and one from a module that is frozen for it; an exchange that can break; one that is complete. -/
theorem witness_DispatchEvents :
    (∃ c j, (dispatching .exchange []).job? told.job = some j ∧ told.src ∉ j.blocked ∧ Belongs ((dispatching .exchange []).engine 0) c told) ∧
    (∃ j, here.job? told.job = some j ∧ told.src ∉ j.blocked ∧ ((here.engine 3).configs.find told.job).getD 0 < told.config) ∧
    (∀ s ∈ [{ here with jobs := [] }, withJob (fun j => { j with blocked := [1] }) here], ∀ j, s.job? told.job = some j → told.src ∈ j.blocked) ∧
    (∃ c r f x choice rows tk form, ((dispatching .exchange []).engine 0).cfg = some c ∧ c.others ≠ [] ∧
      ((dispatching .exchange []).engine 0).queue.head? = some 5 ∧ AtUnit (dispatching .exchange []) 5 r f x ∧
      r.kind = .erdisp choice rows tk form ∧ ((dispatching .exchange []).engine 0).state = .exchange) ∧
    ∃ s ∈ [dispatching .done [told, told, told]], ∃ c, (s.engine 0).cfg = some c ∧ (s.engine 0).state = .done ∧ c.others ≠ [] ∧
      ∀ j ∈ c.others, 3 ≤ ((s.engine 0).from (s.engine 0).number j).length := by
  refine ⟨⟨_, _, rfl, by decide, ⟨rfl, rfl, rfl, by decide, rfl, by decide⟩⟩, ⟨_, rfl, by decide, by decide⟩, ?_,
    ⟨_, _, _, _, _, _, _, _, rfl, by decide, rfl, ⟨rfl, rfl, rfl, by decide, ⟨rfl, rfl⟩, rfl⟩, rfl, rfl⟩,
    ⟨_, .head _, _, rfl, rfl, by decide, by decide⟩⟩
  simp only [List.forall_mem_cons, List.not_mem_nil, false_imp_iff, implies_true, and_true]
  refine ⟨nofun, fun j h => ?_⟩
  obtain rfl := Option.some.inj h
  decide

/-- Work-list 3 at this module's home, its areas in LOCAL space, with no entry. -/
def listed (s : State) : State :=
  withJob (fun j => { j with worklists := [(3, ⟨1024, true, 0, 0, 0, 0x10000, 0, 0, 0, []⟩)] }) s

/-- An entry of an area in LOCAL space from 0 on can be reached wherever the list begins. -/
theorem local_entry (s : State) {n : Nat} (h : n < 8192) :
    elementCheck s 0 0 0 ((0 : Int) + n * 8) 8 .write = .ok ⟨.tile 0, 8 * n, none⟩ := by
  have h0 : formCheck (0 : Dword) = none := by decide
  have h1 : formSpace (0 : Dword) = spLocal := by decide
  have h2 : ((0 : Int) + n * 8).toNat = 8 * n := by omega
  rw [elementCheck, h0]
  simp only [h1, h2]
  rw [if_neg (by omega), if_neg (by omega), spaceCheck, if_pos rfl, if_neg (by omega)]

/-- Every request in its turn at a home that can answer it, WLPUSH, WLPOP of the last in-port, and a list that is not there. -/
theorem witness_RequestsAnswered :
    (∀ k ∈ [ReqKind.snap 0 1, .txbegin 0 1 false, .txabort 0 1 1], ∃ s ∈ [asking k (withDomain (txRec .active 0) here)], ∃ r f x d q,
      AtUnit s 5 r f x ∧ r.kind = k ∧ homeUp s r 0 ∧ (∀ txn, (givenUp s r 1 txn).dom? r.job 0 = some d) ∧ d.regCount < 16384 ∧
      d.recs.length < 4096 ∧ s.rec? r.job 0 1 = some q ∧ q.state = .active ∧ kept s q) ∧
    (∃ s ∈ [asking (.mcjoin 31 7 false) here], ∃ r f x a, AtUnit s 5 r f x ∧ r.kind = .mcjoin 31 7 false ∧ r.lane = none ∧
      r.dst = some a ∧ (s.tile r.tile).member.find 31 = none ∧ (groupMembers s r.job 7).length < 64) ∧
    (∃ s ∈ [listed (asking (.wlpush 3 9) here)], ∃ r f x w p, AtUnit s 5 r f x ∧ r.kind = .wlpush 3 9 ∧ s.list? r.job 3 = some w ∧
      w.size < w.cap ∧ entryGo s r w ∧ elementCheck s r.job r.tile (entryForm w) (entryAt w) w.esz .write = .ok p ∧ s.placeUp p = true ∧
      p.ver = none ∧ (s.mem p.mem).wf) ∧
    (∃ s ∈ [listed (asking (.wlpop 3 31 64) here)], ∃ r f x w es, AtUnit s 5 r f x ∧ r.kind = .wlpop 3 31 64 ∧ s.list? r.job 3 = some w ∧
      (64 * w.esz + 15) / 16 ≤ ((s.tile r.tile).inPort 31).free ∧ w.size ≤ w.resRoom ∧
      takeEntries s r w w.popped (min 64 w.size) = .ok es ∧ es.length = min 64 w.size ∧ (w.esz = 4 ∨ w.esz = 8)) ∧
    ∃ s ∈ [listed (asking (.wlcnt 4 8) here)], ∃ r f x, AtUnit s 5 r f x ∧ r.kind.listId = some 4 ∧ (∀ d, r.kind ≠ .wlnew 4 d) ∧
      s.list? r.job 4 = none ∧ ∀ a, r.kind = .wlcnt 4 a → ∃ p, elementCheck s r.job r.tile a (formAddr a) 8 .write = .ok p := by
  simp only [List.forall_mem_cons, List.not_mem_nil, false_imp_iff, implies_true, and_true]
  refine ⟨?_, ⟨_, .head _, _, _, _, _, ⟨rfl, rfl, rfl, by decide, ⟨rfl, rfl⟩, rfl⟩, rfl, rfl, rfl, rfl, by decide⟩,
    ⟨_, .head _, _, _, _, _, ⟨.tile 0, 8 * (Config.ringStart % 8192), none⟩, ⟨rfl, rfl, rfl, by decide, ⟨rfl, rfl⟩, rfl⟩, rfl, rfl, by decide,
      fun h => absurd h (by decide), ?_, by decide, rfl, by decide, by decide⟩,
    ⟨_, .head _, _, _, _, _, [], ⟨rfl, rfl, rfl, by decide, ⟨rfl, rfl⟩, rfl⟩, rfl, rfl, by decide, by decide, rfl, rfl, by decide⟩,
    ⟨_, .head _, _, _, _, ⟨rfl, rfl, rfl, by decide, ⟨rfl, rfl⟩, rfl⟩, rfl, by simp, rfl, fun a h => ?_⟩⟩
  · and_intros <;>
      exact ⟨_, .head _, _, _, _, _, _, ⟨rfl, rfl, rfl, by decide, ⟨rfl, rfl⟩, rfl⟩, rfl, by unfold homeUp; decide, fun txn => by cases txn <;> rfl, by decide,
        by decide, rfl, rfl, fun o ho => ⟨_, by obtain rfl : 0 = o := Option.some.inj ho; rfl, by decide⟩⟩
  · have h := local_entry (listed (asking (.wlpush 3 9) here)) (Nat.mod_lt Config.ringStart (by decide : 0 < 8192))
    have e : entryAt ⟨1024, true, 0, 0, 0, 0x10000, 0, 0, 0, []⟩ = (0 : Int) + (Config.ringStart % 8192 : Nat) * 8 := by
      rw [entryAt, if_pos (by decide), WorkList.resAt]
      exact congrArg ((0 : Int) + ·) (by simp [WorkList.resRoom, WorkList.esz])
    rw [← e] at h
    exact h
  · obtain rfl : 8 = a := by simpa using h
    exact ⟨⟨.tile 0, 8, none⟩, by decide⟩

/-! ### Witnesses: the scheduler and samples -/

/-- Job 1 with one span, a queue of it with one record at HBM address 0, checked or not yet. -/
def recorded (d1 : Dword) (verdict : Option Nat) (s : State) : State :=
  { s with
    jobs := [(0, Job.management), (1, { Job.reset 0 0 with partition := [(0, 1)] })]
    queues := [(9, { Queue.reset with
      enable := true
      job := some 1
      prio := 3
      cbase := 0x1000
      appended := 1
      verdict := verdict })]
    hbm := Memory.empty.storeBytes 0 (bytesOf (0x1000 : Dword) ++ bytesOf d1) }

/-- A kernel of two friezes of one station of job 1, of queue 9, with as many created and exited as given. -/
def kernelOf (next exited : Nat) : Kernel :=
  ⟨9, 0, 1, 3, 0, 1, 2, 1, false, false, false, false, 0, 0, next, exited, 0, false, View.launch, 0, 0, false⟩

/-- A frieze of kernel 7 and job 1. -/
def ofSeven (st : FzState) (slot : Nat) : Frieze :=
  { placedFrieze 0 with
    job := 1
    kernel := 7
    ctx := slot
    state := st }

/-- The kernel started, and friezes of it. -/
def started (next exited : Nat) (fs : Tab Frieze) : State :=
  { recorded 0 none State.reset with
    queues := [(9, { Queue.reset with
      enable := true
      job := some 1
      prio := 3
      cbase := 0x1000
      appended := 1
      started := 1 })]
    kernels := [(7, kernelOf next exited)]
    friezes := fs }

/-- Every context of tile 0 taken by friezes of kernel 7, under a ready record of a higher priority. -/
def crowded : State :=
  let s := recorded 0x108000000 (some 0) State.reset
  { s with
    queues := s.queues.map fun p => (p.1, { p.2 with prio := 5 })
    kernels := [(7, kernelOf 2 0)]
    friezes := [(20, ofSeven .resident 0), (21, ofSeven .resident 1), (22, ofSeven .resident 2), (23, ofSeven .resident 3)] }

/-- A record found good that names record 0 of queue 8, which is refused then. -/
def after : State :=
  let s := recorded 0x108000000 (some 0) State.reset
  { s with
    queues := (8, { Queue.reset with
      job := some 1
      appended := 1
      started := 1
      done := 1
      refused := [0] }) :: s.queues
    hbm := s.hbm.storeBytes 32 (bytesOf (0x8000000800000000 : Dword)) }

/-- A record of no station, one whose predecessor is refused, one found good and one that starts; a kernel's second frieze and a suspended one with a context free; a context to be
freed; a kernel whose friezes have exited. -/
theorem witness_SchedulerEvents :
    (∃ q j r c, frontRecord (recorded 0x100000000 none State.reset) 9 = some (q, j, r) ∧
      refusal (recorded 0x100000000 none State.reset) 9 q j r = some c ∧ q.enable = true ∧ q.frozen = false ∧
      q.verdict = none ∧ (q.started - q.done).toNat < 64 ∧ (recorded 0x100000000 none State.reset).hbm.wf) ∧
    (∃ q j r, frontRecord after 9 = some (q, j, r) ∧ q.verdict = some 0 ∧ predRefused after r = true) ∧
    (∃ q j r, frontRecord (recorded 0x108000000 none State.reset) 9 = some (q, j, r) ∧
      refusal (recorded 0x108000000 none State.reset) 9 q j r = none ∧ q.verdict = none) ∧
    (∃ q j r ps, frontRecord (recorded 0x108000000 (some 0) State.reset) 9 = some (q, j, r) ∧ recordReady (recorded 0x108000000 (some 0) State.reset) 9 = true ∧
      chosen (recorded 0x108000000 (some 0) State.reset) = some (.record 9 q.started, (0, 0) :: ps)) ∧
    (∃ q ps, (started 1 0 [(20, ofSeven .resident 0)]).kernels.find 7 = some q ∧
      chosen (started 1 0 [(20, ofSeven .resident 0)]) = some (.kernel 7 q.nextId, (0, 1) :: ps)) ∧
    (∃ f p ps, (started 2 1 [(20, ofSeven .suspended 2)]).friezes.find 20 = some f ∧ f.state = .suspended ∧ f.handlerOf = none ∧
      chosen (started 2 1 [(20, ofSeven .suspended 2)]) = some (.frieze 20, (0, 0) :: ps) ∧
      planOf (started 2 1 [(20, ofSeven .suspended 2)]) (.frieze 20) = some p ∧ p.members.map (·.id) = [some 20]) ∧
    (∃ f c vs, crowded.friezes.find 23 = some f ∧ f.state = .resident ∧ f.stop = .no ∧ offPartition crowded f = false ∧
      wantedBy crowded 23 = some (c, vs) ∧ 23 ∈ vs) ∧
    ∃ q, (started 2 2 []).kernels.find 7 = some q ∧ q.isHandler = false ∧ q.txn = false ∧ q.f ≤ q.nextId ∧ q.f ≤ q.exited ∧
      kernelBusy (started 2 2 []) 7 = false ∧ (started 2 2 []).hbm.wf ∧ q.seq = ((started 2 2 []).queue q.queue).done ∧
      ((started 2 2 []).queue q.queue).doneMask = 0 :=
  ⟨⟨_, _, _, _, rfl, rfl, rfl, rfl, rfl, by decide, by decide, by decide⟩, ⟨_, _, _, rfl, rfl, by decide⟩, ⟨_, _, _, rfl, rfl, rfl⟩, ⟨_, _, _, [], rfl, by decide, rfl⟩,
    ⟨_, [], rfl, rfl⟩, ⟨_, _, [], rfl, rfl, rfl, by decide, rfl, by decide⟩,
    ⟨_, .record 9 0, [23], rfl, rfl, rfl, by decide, by decide, by decide⟩,
    ⟨_, rfl, rfl, rfl, by decide, by decide, by decide, ⟨by decide, by decide⟩, by decide, by decide⟩⟩

/-- The placed frieze sampled in this c-cycle, its job's buffer with the given number of records written of four. -/
def sampling (written : Nat) : State :=
  mapped (withJob (fun j => { j with
    smpPeriod := 1024
    buf := some ⟨mkForm spGlobal 0x20000, 4, written, 0⟩ })
    (withFrieze (fun f => { f with sampling := true }) { here with cycles := 2048 }))

/-- A sample instant whose buffer has its last place left, and one whose buffer is full. -/
theorem witness_SampleInstant :
    (∃ f j b ps, sampled (sampling 3) = [0] ∧ (sampling 3).friezes.find 0 = some f ∧ (sampling 3).jobs.find f.job = some j ∧
      j.buf = some b ∧ b.written < b.cap ∧
      rangeOf (sampling 3) f.job f.head (formAt b.base (formAddr b.base + 32 * b.written)) 32 .write = .ok ps) ∧
    ∃ f j b, sampled (sampling 4) = [0] ∧ (sampling 4).friezes.find 0 = some f ∧ (sampling 4).jobs.find f.job = some j ∧
      j.buf = some b ∧ b.cap ≤ b.written := by
  refine ⟨⟨_, _, _, _, ?_, rfl, rfl, rfl, by decide, rfl⟩, _, _, _, ?_, rfl, rfl, rfl, by decide⟩ <;> decide

/-! ### Witnesses: the host's commands, the outside and physical events -/

/-- A module in RUN with job 1, which holds key 9, queue pair 9, the last span of die row 15, and queue 9. -/
def serving : State :=
  { State.reset with
    boot := 2
    jobs := [(0, Job.management), (1, { Job.reset 0 0 with
      partition := [(511, 1)]
      keys := [(9, ⟨0, 2 ^ 29, true, true⟩)]
      qps := [(9, ⟨5, 0, 0, 0, 0, 0, 5, 0, false⟩)] })]
    queues := [(9, { Queue.reset with job := some 1 })] }

/-- A command of job 1, or of job 0. -/
def ofOne (d1 d2 d3 d4 d5 d6 : Dword) : Cmd := ⟨7, 0, 1, d1, d2, d3, d4, d5, d6, 0⟩
def ofZero (d1 d2 : Dword) : Cmd := ⟨7, 0, 0, d1, d2, 0, 0, 0, 0, 0⟩

/-- A command meets what its row requires, in its turn. -/
abbrev MeetsCmd (i : Instr) (s : State) : Prop := ∃ w, commandRow i = some w ∧ Serves s ∧ w.good s

theorem MeetsCmd.of {i : Instr} {s : State} (w : CmdRow) (hw : commandRow i = some w) (hs : Serves s) (hg : w.good s) : MeetsCmd i s :=
  ⟨w, hw, hs, hg⟩

theorem serves_serving : Serves serving := ⟨.inl rfl, rfl, rfl⟩

/-- A list of 16-bit entries at HBM address 0x10000. -/
def withList (a b : Byte) (s : State) : State := { s with hbm := Memory.empty.storeBytes 0x10000 [a, b] }

/-- A cast list of one page at HBM address 0. -/
def withPage : State := { serving with hbm := Memory.empty.storeBytes 0 (leBytes 0x10000 8 ++ leBytes 0x10000 8) }

/-- The commands on a job, at the last value a field admits where it has one. -/
theorem witness_CommandsComplete_jobs :
    MeetsCmd (.jobCreate ⟨7, 0, 255, 0xFFFFFF0000, 0, 0, 0, 0, 0, 0⟩) serving ∧ MeetsCmd (.jobKill (ofOne 0 0 0 0 0 0)) serving ∧
      MeetsCmd (.setPartition (ofOne 0x10000 1 0 0 0 0)) (withList 0xFF 0x05 serving) ∧
      MeetsCmd (.setShared (ofOne 0x10000 1 0 0 0 0)) (withList 0xFF 0x01 serving) ∧
      MeetsCmd (.setJobreg (ofOne 0x1000 1 1 0xFFFFFFFF 0 0)) serving ∧
      MeetsCmd (.invalidate (ofOne 0x7FFFFFFFFFFFFF 1 0 0 0 0)) serving ∧ MeetsCmd (.mqSet (ofOne 0xFFFFFFFFE0 20 0 0 0 0)) serving ∧
      MeetsCmd (.ctxPool (ofOne 0x10000 65536 0 0 0 0)) serving ∧
      MeetsCmd (.ethKey (ofOne 9 0x7FFFFFFFFFFFFF 1 3 0 0)) serving ∧
      MeetsCmd (.ethQp (ofOne 0x5000009 0 0 0 0x5000000 0)) serving := by
  have hs := serves_serving
  exact ⟨.of _ rfl hs ⟨⟨rfl, by simp [Cmd.operands]⟩, by decide, by decide, by decide, rfl, by unfold inHbm; decide, by decide⟩,
    .of _ rfl hs ⟨⟨rfl, by simp [Cmd.operands, ofOne]⟩, by decide, _, rfl⟩,
    .of _ rfl ⟨.inl rfl, rfl, rfl⟩ ⟨⟨rfl, by simp [Cmd.operands, ofOne]⟩, by decide, ⟨by decide, _, rfl⟩, by decide, by unfold inHbm; decide,
      by decide, by decide, by decide⟩,
    .of _ rfl ⟨.inl rfl, rfl, rfl⟩ ⟨⟨rfl, by simp [Cmd.operands, ofOne]⟩, by decide, ⟨by decide, _, rfl⟩, by decide, by unfold inHbm; decide,
      by decide, by decide, by decide, by decide⟩,
    .of _ rfl hs ⟨⟨rfl, by simp [Cmd.operands, ofOne]⟩, by decide, by decide, by decide, _, rfl⟩,
    .of _ rfl hs ⟨⟨rfl, by simp [Cmd.operands, ofOne]⟩, by decide, ⟨by decide, _, rfl⟩, by decide⟩,
    .of _ rfl hs ⟨⟨rfl, by simp [Cmd.operands, ofOne]⟩, by decide, ⟨by decide, _, rfl⟩, by unfold inHbm; decide, by decide, by decide⟩,
    .of _ rfl hs ⟨⟨rfl, by simp [Cmd.operands, ofOne]⟩, by decide, ⟨by decide, _, rfl⟩, fun j h => by obtain rfl := Option.some.inj h; rfl,
      by decide, by decide⟩,
    .of _ rfl hs ⟨⟨rfl, by simp [Cmd.operands, ofOne]⟩, by decide, by decide, by decide, ⟨by decide, _, rfl⟩, by decide, by decide, .inl (by decide)⟩,
    .of _ rfl hs ⟨⟨rfl, by simp [Cmd.operands, ofOne]⟩, by decide, by decide, by decide, by decide, by decide, by decide, ⟨by decide, _, rfl⟩,
      .inl (by decide)⟩⟩

/-- The commands on queues, domains, masters and casts. -/
theorem witness_CommandsComplete_work :
    MeetsCmd (.queueSet (ofOne 0x3FF0009 64 16 20 0 0)) serving ∧
      MeetsCmd (.queueReset (ofOne 9 0 0 0 0 0)) { serving with queues := [(9, { Queue.reset with job := some 1, appended := 1 })] } ∧
      MeetsCmd (.domainSet (ofOne 0xFFFF 128 1 0 0 0)) serving ∧
      MeetsCmd (.freezeCmd (ofOne 0x4010000000000009 0 0 0 0 0)) serving ∧
      MeetsCmd (.thawCmd (ofOne 0x4010000000000009 0 0 0 0 0)) serving ∧
      MeetsCmd (.cast (ofOne 0 1 9 0 0xFFFFFFFF 0)) withPage ∧ MeetsCmd (.restore (ofOne 0 1 9 0 0 0)) withPage := by
  have hs := serves_serving
  have hp : Serves withPage := ⟨.inl rfl, rfl, rfl⟩
  exact ⟨.of _ rfl hs ⟨⟨rfl, by simp [Cmd.operands, ofOne]⟩, by decide, by decide, by decide, ⟨by decide, _, rfl⟩,
      fun k h => .inl (by obtain rfl : 1 = k := Option.some.inj h; rfl), .inl (by decide), by unfold inHbm; decide,
      by unfold inHbm; decide, by decide, by decide⟩,
    .of _ rfl ⟨.inl rfl, rfl, rfl⟩ ⟨⟨rfl, by simp [Cmd.operands, ofOne]⟩, by decide, ⟨by decide, _, rfl⟩, ⟨by decide, by decide⟩, by decide, by decide,
      by decide⟩,
    .of _ rfl hs ⟨⟨rfl, by simp [Cmd.operands, ofOne]⟩, by decide, by decide, ⟨by decide, _, rfl⟩, by unfold inHbm; decide, fun d h => nomatch h⟩,
    .of _ rfl hs ⟨⟨rfl, by simp [Cmd.operands, ofOne]⟩, ⟨by decide, _, rfl⟩, by decide, by decide, by decide, by decide⟩,
    .of _ rfl hs ⟨⟨rfl, by simp [Cmd.operands, ofOne]⟩, ⟨by decide, _, rfl⟩, by decide, by decide, by decide, by decide⟩,
    .of _ rfl hp ⟨⟨⟨rfl, by simp [Cmd.operands, ofOne]⟩, by decide, by decide, by decide, ⟨by decide, _, rfl⟩, by decide, by decide,
      by unfold inHbm; decide, by decide, fun j h => ⟨_, by obtain rfl := Option.some.inj h; rfl⟩⟩, rfl⟩,
    .of _ rfl hp ⟨⟨⟨rfl, by simp [Cmd.operands, ofOne]⟩, by decide, by decide, by decide, ⟨by decide, _, rfl⟩, by decide, by decide,
      by unfold inHbm; decide, by decide, fun j h => ⟨_, by obtain rfl := Option.some.inj h; rfl⟩⟩, rfl, fun _ _ d h => nomatch h⟩⟩

/-- The commands on the module, at the last port, the last node and the highest voltage step. -/
theorem witness_CommandsComplete_module :
    MeetsCmd (.aperture (ofZero 0x10000 1)) serving ∧ MeetsCmd (.aperture (ofOne 0x10000 0 0 0 0 0)) serving ∧
      MeetsCmd (.scrub (ofZero 0xFFFFFF0000 0x10000)) serving ∧
      MeetsCmd (.torusSet (ofZero 0xFFFFF 0)) { serving with jobs := [(0, Job.management)] } ∧ MeetsCmd (.linkTrain (ofZero 23 0)) serving ∧
      MeetsCmd (.attest (ofZero 32 64)) serving ∧ MeetsCmd (.lifetime (ofZero 4096 0)) serving ∧
      MeetsCmd (.power (ofZero 1 15)) serving := by
  have hs := serves_serving
  exact ⟨.of _ rfl hs ⟨⟨rfl, by simp [Cmd.operands, ofZero]⟩, by decide, .inl ⟨rfl, rfl, by decide, by unfold inHbm; decide⟩⟩,
    .of _ rfl hs ⟨⟨rfl, by simp [Cmd.operands, ofOne]⟩, by decide, .inr ⟨rfl, ⟨by decide, _, rfl⟩, by decide⟩⟩,
    .of _ rfl hs ⟨⟨rfl, by simp [Cmd.operands, ofZero]⟩, by decide, rfl, by unfold inHbm; decide, by decide, by decide⟩,
    .of _ rfl ⟨.inl rfl, rfl, rfl⟩ ⟨⟨rfl, by simp [Cmd.operands, ofZero]⟩, by decide, rfl, by decide, by decide⟩,
    .of _ rfl hs ⟨⟨rfl, by simp [Cmd.operands, ofZero]⟩, by decide, rfl⟩,
    .of _ rfl hs ⟨⟨rfl, by simp [Cmd.operands, ofZero]⟩, by decide, by decide, rfl, by unfold inHbm; decide, by unfold inHbm; decide,
      by decide, by decide⟩,
    .of _ rfl hs ⟨⟨rfl, by simp [Cmd.operands, ofZero]⟩, by decide, rfl, by unfold inHbm; decide, by decide, by decide⟩,
    .of _ rfl hs ⟨⟨rfl, by simp [Cmd.operands, ofZero]⟩, by decide, by decide, rfl, fun _ => rfl, Nat.le_of_lt_succ Config.minVstep.isLt, rfl⟩⟩

/-- A command with RSVD set, one that comes while another runs with 0, 63 and 64 waiting, FW_LOAD of the shortest and the longest image,
and its second turn. -/
theorem witness_CommandTurns :
    (∃ w, commandRow (.jobKill ⟨7, 1, 1, 0, 0, 0, 0, 0, 0, 0⟩) = some w ∧ Serves serving ∧ w.cmd.rsvd ≠ 0) ∧
    (∃ w s, commandRow (.jobKill noCmd) = some w ∧ s = { serving with command := some (.jobKill noCmd) } ∧ s.command ≠ none ∧
      s.serving = false) ∧
    (∀ n ∈ [(4096 : Dword), 2 ^ 26], ∃ s ∈ [{ serving with jobs := [(0, Job.management)] }], ∃ c ∈ [ofZero n 0xFFFC000000], Serves s ∧ bare c 2 ∧
      c.job = 0 ∧ (∀ p ∈ s.jobs, p.1 = 0) ∧ c.d2.toNat < 2 ^ 52 ∧ 4096 ≤ c.d1.toNat ∧ c.d1.toNat ≤ 2 ^ 26 ∧ inHbm s c.d2 65536 ∧
      c.d2.toNat % 2 ^ 42 + c.d1.toNat ≤ 2 ^ 40) ∧
    ∃ s ∈ [{ serving with serving := true, cmdWork := .flash [1] }], s.serving = true ∧ s.boot = 2 ∧ s.cmdWork = .flash [1] := by
  simp only [List.forall_mem_cons, List.not_mem_nil, false_imp_iff, implies_true, and_true]
  refine ⟨⟨_, rfl, serves_serving, by decide⟩, ⟨_, _, rfl, rfl, by simp, rfl⟩, ?_, _, .head _, rfl, rfl, rfl⟩
  and_intros <;> exact ⟨_, .head _, _, .head _, ⟨.inl rfl, rfl, rfl⟩, ⟨rfl, by simp [Cmd.operands, ofZero]⟩, rfl, by decide, by decide,
    by decide, by decide, by unfold inHbm; decide, by decide⟩

/-- A module in RUN with GLOBAL 0 to 2^29 − 1 mapped for job 1, its aperture in physical mode, queue 9 enabled. -/
def outside : State :=
  { mapped serving with
    apPhys := true
    queues := [(9, { Queue.reset with enable := true })] }

/-- A cast of job 1 that has taken what it writes. -/
def casting : CastWork := ⟨1, false, [(0, 128)], 9, 0x1000, 3, [], 7⟩

/-- A queue with its last place free, and full; the aperture in both boot states; a cast at its end; a peer's accesses to the last bytes
of a key, with an immediate that names a tile of the job, and one byte past it. -/
theorem witness_OutsideEvents :
    (∃ s ∈ [{ outside with queues := [(9, { Queue.reset with enable := true, appended := 15 })] }], ∃ q, s.queue 9 = q ∧ q.enable = true ∧
      (q.appended - q.started).toNat < 2 ^ q.cap ∧ (List.replicate 8 (0 : Dword)).length = 8 ∧ s.hbm.wf) ∧
    (∀ q ∈ [{ Queue.reset with enable := true, appended := 16 }, Queue.reset], ∃ s ∈ [{ outside with queues := [(9, q)] }],
      s.queue 9 = q ∧ (q.enable = false ∨ 2 ^ q.cap ≤ (q.appended - q.started).toNat) ∧ q.ovf ≠ -1) ∧
    (outside.boot = 2 ∧ outside.apPhys = true ∧ outside.hbm.wf) ∧
    (State.reset.boot = 0 ∧ (2 ^ 26 - 1) + [(1 : Byte)].length ≤ 2 ^ 26 ∧ State.reset.staged.wf) ∧
    (∃ s ∈ [{ outside with castWork := some casting }], ∃ q j bs, s.castFrozen = false ∧ s.jobs.find casting.job = some j ∧
      j.qps.find casting.qpn = some q ∧ q.error = false ∧ castBytes s casting casting.segments = .ok bs) ∧
    (∃ p, keyFor outside 9 9 (2 ^ 29 - 1) 1 true = some 1 ∧
      rangeOf outside 1 0 (mkForm spGlobal (2 ^ 29 - 1)) 1 .write = .ok [(p, 1)] ∧ outside.placeUp p = true ∧ (outside.mem p.mem).wf ∧
      (0x1FF00F : BitVec 32).toNat < 2 ^ 22 ∧ (0x1FF00F : BitVec 32).toNat / 16 % 256 = 0 ∧
      inPartition outside 1 ((0x1FF00F : BitVec 32).toNat / 4096) = true) ∧
    (∃ p, keyFor outside 9 9 (2 ^ 29 - 1) 1 false = some 1 ∧
      rangeOf outside 1 0 (mkForm spGlobal (2 ^ 29 - 1)) 1 .read = .ok [(p, 1)] ∧ outside.placeUp p = true) ∧
    keyFor outside 9 9 (2 ^ 29 - 1) 2 true = none := by
  simp only [List.forall_mem_cons, List.not_mem_nil, false_imp_iff, implies_true, and_true]
  exact ⟨⟨_, .head _, _, rfl, rfl, by decide, rfl, by decide, by decide⟩,
    ⟨⟨_, .head _, rfl, by decide, by decide⟩, _, .head _, rfl, by decide, by decide⟩, ⟨rfl, rfl, by decide, by decide⟩,
    ⟨rfl, by decide, by decide, by decide⟩, ⟨_, .head _, _, _, _, rfl, rfl, rfl, rfl, rfl⟩,
    ⟨⟨.hbm, 0x3FFFFFFF, none⟩, by decide, by rfl, by decide, ⟨by decide, by decide⟩, by decide, by decide, by decide⟩,
    ⟨⟨.hbm, 0x3FFFFFFF, none⟩, by decide, by rfl, by decide⟩, by decide⟩

/-- The clamp off, the ROM and the firmware at work, a port that is not lost, the first and the last die row unfenced. -/
theorem witness_PhysicalEvents :
    serving.clamp = false ∧ State.reset.boot = 0 ∧ (∃ s ∈ [{ State.reset with boot := 1 }], s.boot = 1 ∧ s.jobs = []) ∧
    23 ∉ serving.portsLost ∧ (∀ t ∈ [0, 1023], serving.life.fenced.getLsbD (dieRow t) = false ∧ dieRow t < 64) :=
  ⟨rfl, rfl, ⟨_, .head _, rfl, rfl⟩, by decide, by decide⟩

/-! ### Witnesses: memory, encodings -/

/-- From reset the memories are canonical and a step leads on; also with a store as the next word. -/
theorem witness_MemoryStaysCanonical :
    (State.reset.MemWf ∧ ∃ t, step State.reset = .next t) ∧
    ∃ i ∈ ([.sts Hdr.plain 8 9 24] : List Instr), (startAt i).MemWf ∧ ∃ t, step (startAt i) = .next t :=
  ⟨⟨⟨by decide, by decide, by decide, by decide, by decide⟩, exists_next (by decide)⟩,
    _, .head _, ⟨by decide, by decide, by decide, by decide, by decide⟩, exists_next (by decide)⟩

/-- A control word and a host command that are well-formed and encode to words. -/
theorem witness_DecodeInvertsEncode :
    (∀ i ∈ ([.add Hdr.plain 3 1 2, .jobKill noCmd] : List Instr), i.wf = true ∧ i.encode ≠ []) ∧
      ∃ w, (Instr.add Hdr.plain 3 1 2).encode? = some w := ⟨by decide, _, rfl⟩
end Sys2Proof.Tests
end

section
/-! SUPPORT. What the issue of a word does to its station's event counters, what a word refused or held at issue leaves behind, and the
statements settled with it: a word that decoding, privilege or a check refuses, a word whose wait is not met, and the event counters of a
word complete at issue. -/

namespace Sys2Proof.Machine

/-! ### Event counters: what each shared operation makes of them (R8, R31, R304) -/

/-- What event counters are read from stands in g as in f: the tiles of the span and every station's own counters (R31). -/
structure Frieze.SameCounters (f g : Frieze) : Prop where
  head : g.head = f.head
  own : ∀ n : Nat, (g.stations[n]?).map (·.e) = (f.stations[n]?).map (·.e)

theorem Frieze.SameCounters.refl (f : Frieze) : f.SameCounters f := ⟨rfl, fun _ => rfl⟩

theorem Frieze.SameCounters.trans {f g k : Frieze} (a : f.SameCounters g) (b : g.SameCounters k) : f.SameCounters k :=
  ⟨b.head.trans a.head, fun n => (b.own n).trans (a.own n)⟩

theorem Frieze.SameCounters.updSt (f : Frieze) (st : Nat) {g : Station → Station} (hg : ∀ x, (g x).e = x.e) :
    f.SameCounters (f.updSt st g) := by
  refine ⟨rfl, fun n => ?_⟩
  by_cases hn : n = st
  · subst hn
    cases hx : f.stations[n]? <;> simp [Frieze.updSt, hx, hg]
  · rw [Frieze.updSt_get_ne f g hn]

/-- The event counters of c's station read in t what u makes of what they read in s, and the station is still there. -/
structure Recounts (c : Ctx) (s t : State) (u : BitVec 6 → Word → Word) : Prop where
  stands : (s.station? c.id c.st).isSome → (t.station? c.id c.st).isSome
  counter : (s.station? c.id c.st).isSome → ∀ k, t.counter c.id c.st k = u k (s.counter c.id c.st k)

/-- The event counters of c's station read as before. -/
abbrev KeepsCounts (c : Ctx) (s t : State) : Prop := Recounts c s t fun _ w => w

theorem Recounts.refl (c : Ctx) (s : State) : KeepsCounts c s s := ⟨id, fun _ _ => rfl⟩

theorem Recounts.trans {c : Ctx} {s t r : State} {u v : BitVec 6 → Word → Word} (a : Recounts c s t u) (b : Recounts c t r v) :
    Recounts c s r fun k w => v k (u k w) :=
  ⟨fun h => b.stands (a.stands h), fun h k => by rw [b.counter (a.stands h), a.counter h]⟩

theorem Recounts.congr {c : Ctx} {s t : State} {u v : BitVec 6 → Word → Word} (a : Recounts c s t u) (h : ∀ k w, u k w = v k w) :
    Recounts c s t v :=
  ⟨a.stands, fun hs k => (a.counter hs k).trans (h _ _)⟩

theorem State.counter_low {s : State} {id st : Nat} {k : BitVec 6} (hk : k.toNat < 32) :
    s.counter id st k = ((s.station? id st).map fun x => x.e[k.toNat]).getD 0 := by
  unfold State.counter State.station?
  cases s.friezes.find id <;> simp [hk]

theorem State.counter_high {s : State} {id st : Nat} {f : Frieze} (h : s.friezes.find id = some f) {k : BitVec 6}
    (hk : ¬k.toNat < 32) : s.counter id st k = (s.tile (f.tileOf st)).ctr (k.toNat - 32) := by
  simp [State.counter, h, hk]

/-- A change of friezes that leaves counters and tiles alone. -/
theorem Recounts.updFz (c : Ctx) (s : State) (id : Nat) {g : Frieze → Frieze} (hg : ∀ f : Frieze, f.SameCounters (g f)) :
    KeepsCounts c s (s.updFz id g) := by
  by_cases hi : c.id = id
  · subst hi
    cases hf : s.friezes.find c.id with
    | none =>
      rw [State.updFz, hf]
      exact Recounts.refl c s
    | some f =>
      have hf' := State.updFz_find hf g
      have hst : ((s.updFz c.id g).station? c.id c.st).map (·.e) = (s.station? c.id c.st).map (·.e) := by
        rw [State.station_eq hf, State.station_eq hf']
        exact (hg f).own c.st
      refine ⟨fun h => by rwa [← Option.isSome_map, hst, Option.isSome_map], fun _ k => ?_⟩
      by_cases hk : k.toNat < 32
      · have he := congrArg (fun o => (o.map fun e : Vector Word 32 => e[k.toNat]).getD 0) hst
        simpa only [State.counter_low hk, Option.map_map, Function.comp_def] using he
      · rw [State.counter_high hf' hk, State.counter_high hf hk, State.updFz_tile, Frieze.tileOf, (hg f).head, Frieze.tileOf]
  · have hf' := State.updFz_find_ne s g hi
    exact ⟨fun h => by rwa [State.station?, hf'], fun _ k => by simp only [State.counter, hf', State.updFz_tile]⟩

/-- A change of stations that leaves their counters alone. -/
theorem Recounts.updSt (c : Ctx) (s : State) (id st : Nat) {g : Station → Station} (hg : ∀ x, (g x).e = x.e) :
    KeepsCounts c s (s.updSt id st g) :=
  Recounts.updFz c s id fun f => Frieze.SameCounters.updSt f st hg

theorem Recounts.deselect (c : Ctx) (s : State) : KeepsCounts c s s.deselect := ⟨id, fun _ _ => rfl⟩

theorem Recounts.bump (c : Ctx) (s : State) : KeepsCounts c s s.bump := ⟨id, fun _ _ => rfl⟩

theorem Tile.ctr_set (x : Tile) {i : Nat} (hi : i < 32) (v : Word) (j : Nat) :
    ({ x with e := x.e.set i v hi } : Tile).ctr j = if i = j then v else x.ctr j := by
  unfold Tile.ctr
  split
  · rw [Vector.getElem_set]
  · rw [if_neg (by omega)]

theorem State.counter_updCounter {s : State} {id st : Nat} {x : Station} (hx : s.station? id st = some x) (k j : BitVec 6)
    (g : Word → Word) :
    (s.updCounter id st k g).counter id st j = if k = j then g (s.counter id st j) else s.counter id st j := by
  obtain ⟨f, hf, -⟩ := Option.bind_eq_some_iff.1 hx
  by_cases hk : k.toNat < 32
  · have hu : s.updCounter id st k g = s.updSt id st fun x => { x with e := x.e.set k.toNat (g x.e[k.toNat]) hk } := by
      simp [State.updCounter, hf, hk]
    rw [hu]
    by_cases hj : j.toNat < 32
    · rw [State.counter_low hj, State.counter_low hj, State.updSt_station hx, hx]
      simp only [Option.map_some, Option.getD_some, Vector.getElem_set, BitVec.toNat_inj]
      split
      · subst_vars; rfl
      · rfl
    · rw [if_neg (by rintro rfl; exact hj hk), State.updSt, State.counter_high (State.updFz_find hf _) hj, State.counter_high hf hj,
        State.updFz_tile, Frieze.updSt_tileOf]
  · have hu : s.updCounter id st k g = s.updCtr (f.tileOf st) (k.toNat - 32) g := by
      simp [State.updCounter, hf, hk]
    have hlt : k.toNat - 32 < 32 := by have := k.isLt; omega
    rw [hu]
    by_cases hj : j.toNat < 32
    · rw [if_neg (by rintro rfl; exact hk hj), State.counter_low hj, State.counter_low hj]
      rfl
    · have hf' : (s.updCtr (f.tileOf st) (k.toNat - 32) g).friezes.find id = some f := hf
      have heq : k.toNat - 32 = j.toNat - 32 ↔ k = j := by rw [← BitVec.toNat_inj]; omega
      rw [State.counter_high hf' hj, State.counter_high hf hj, State.updCtr, State.tile_updTile_self, dif_pos hlt, Tile.ctr_set]
      simp only [heq]
      split
      · subst_vars; rw [Tile.ctr, dif_pos hlt]
      · rfl

theorem Recounts.updCounter (c : Ctx) (s : State) (k : BitVec 6) (g : Word → Word) :
    Recounts c s (s.updCounter c.id c.st k g) fun j w => if k = j then g w else w := by
  constructor <;> intro h <;> obtain ⟨x, hx⟩ := Option.isSome_iff_exists.1 h
  · obtain ⟨e, he⟩ := State.updCounter_station s c.id c.st k g hx
    exact Option.isSome_iff_exists.2 ⟨_, he⟩
  · exact fun j => State.counter_updCounter hx k j g

theorem Recounts.addCount (c : Ctx) (s : State) (k : BitVec 6) (n : Word) :
    Recounts c s (s.addCount c.id c.st k n) fun j w => if k = j then w + n else w := Recounts.updCounter ..

/-! ### Event counters over the issue of a word (R31) -/

/-- What the WAIT byte's consumption leaves of a counter (R8). -/
def afterWait (c : Ctx) (k : BitVec 6) (w : Word) : Word :=
  if c.h.waitK = k then w - (if c.h.waitMode = 1 then 1 else if c.h.waitMode = 2 then c.x.rq c.h.waitK else 0) else w

/-- What WAITE's own consumption under SUB leaves of a counter (R319). -/
def afterSub (c : Ctx) (i : Instr) (k : BitVec 6) (w : Word) : Word :=
  match i with
  | .waite _ g true j => if j = k then w - (c.g g).setWidth 32 else w
  | _ => w

/-- A counter with the word's signal where its SIGNAL byte has a mode (R31). -/
def afterSignal (c : Ctx) (m : BitVec 2) (k : BitVec 6) (w : Word) : Word := if c.h.sigMode = m ∧ c.h.sigK = k then w + 1 else w

/-- What SIGE makes of a counter; no other word complete at issue has a counter as its effect (R320). -/
def afterEffect (c : Ctx) (i : Instr) (k : BitVec 6) (w : Word) : Word :=
  match i with
  | .sige _ g set j => if j = k then (if set then (c.g g).setWidth 32 else w + (c.g g).setWidth 32) else w
  | _ => w

/-- The order of R31. -/
theorem counted_eq (c : Ctx) (i : Instr) (w : Word) (k : BitVec 6) :
    Slice0.counted c i w k = afterSignal c 1 k (afterEffect c i k (afterSignal c 3 k (afterSub c i k (afterWait c k w)))) := rfl

theorem Recounts.waitByte (c : Ctx) (s : State) :
    Recounts c s (if c.h.waitMode = 1 then s.addCount c.id c.st c.h.waitK (-1)
      else if c.h.waitMode = 2 then s.addCount c.id c.st c.h.waitK (-(c.x.rq c.h.waitK)) else s) (afterWait c) := by
  split
  next h1 => exact (Recounts.addCount ..).congr fun k w => by rw [afterWait, if_pos h1, BitVec.sub_eq_add_neg]
  next h1 =>
    split
    next h2 => exact (Recounts.addCount ..).congr fun k w => by rw [afterWait, if_neg h1, if_pos h2, BitVec.sub_eq_add_neg]
    next h2 => exact (Recounts.refl c s).congr fun k w => by rw [afterWait, if_neg h1, if_neg h2]; simp

theorem Recounts.consumeWait (c : Ctx) (i : Instr) (s : State) (hon : c.on = true) :
    Recounts c s (consumeWait c i s) fun k w => afterSub c i k (afterWait c k w) := by
  have hbyte := Recounts.waitByte c s
  unfold Machine.consumeWait
  dsimp only
  generalize (if c.h.waitMode = 1 then _ else _ : State) = t at hbyte ⊢
  split
  next g sub j =>
    cases sub with
    | false =>
      rw [if_neg (by rw [Bool.and_false]; exact Bool.false_ne_true)]
      exact hbyte.congr fun _ _ => rfl
    | true =>
      rw [if_pos (by rw [hon]; rfl)]
      exact hbyte.trans ((Recounts.addCount ..).congr fun k w => by rw [← BitVec.sub_eq_add_neg]; rfl)
  next hne =>
    refine hbyte.congr fun k w => ?_
    unfold afterSub
    split
    next => exact (hne _ _ _ _ rfl).elim
    next => rfl

theorem Recounts.signal (c : Ctx) (s : State) (m : BitVec 2) :
    Recounts c s (if c.h.sigMode = m then s.addCount c.id c.st c.h.sigK 1 else s) (afterSignal c m) := by
  split
  next hm => exact (Recounts.addCount ..).congr fun k w => by simp [afterSignal, hm]
  next hm => exact (Recounts.refl c s).congr fun k w => by simp [afterSignal, hm]

theorem Recounts.beforeEffect (c : Ctx) (i : Instr) (s : State) (hon : c.on = true) :
    Recounts c s (beforeEffect c i s) fun k w => afterSignal c 3 k (afterSub c i k (afterWait c k w)) :=
  (Recounts.consumeWait c i s hon).trans (Recounts.signal c _ 3)

theorem Recounts.advance (c : Ctx) (s : State) : KeepsCounts c s (advance c s) := by
  refine (Recounts.updFz c s c.id fun f => ?_).trans (Recounts.deselect ..)
  have hmoved : f.SameCounters ((f.updSt c.st (·.moved)).updSt (c.st + 1) fun x => { x with entered := x.entered ++ [s.cycles.toNat] }) :=
    (Frieze.SameCounters.updSt f c.st (g := Station.moved) fun _ => rfl).trans (Frieze.SameCounters.updSt _ _ fun _ => rfl)
  dsimp only
  split <;> split <;> exact ⟨hmoved.head, hmoved.own⟩

/-- The completion of a word complete at issue that takes no part of a request of the head. -/
theorem Recounts.completeWord (c : Ctx) (i : Instr) (s : State) (ha : i.asksHead = false) :
    Recounts c s (completeWord c i s true) (afterSignal c 1) := by
  simp only [Machine.completeWord, ha, if_true, Bool.false_eq_true, if_false]
  exact (Recounts.signal c s 1).trans (Recounts.advance c _)

/-! ### Every control word issues through issueWord (R31) -/

/-- r is the outcome of word i issuing under header h, whatever the word's effects are. -/
def IssueOf (i : Instr) (h : Hdr) (s : State) (r : Res) : Prop := ∃ body, r = issueWord i h s body

/-! The words of one shared meaning each. -/

theorem masterWord_issueOf (i : Instr) (h : Hdr) (a : Reg) (thaw : Bool) (s : State) :
    IssueOf i h s (masterWord i h a thaw s) := ⟨_, rfl⟩
theorem aluWord_issueOf (i : Instr) (h : Hdr) (d : Reg) (v : Ctx → Dword) (s : State) :
    IssueOf i h s (aluWord i h d v s) := ⟨_, rfl⟩
theorem voteWord_issueOf (i : Instr) (h : Hdr) (all : Bool) (p : BitVec 3) (off : BitVec 28) (s : State) :
    IssueOf i h s (voteWord i h all p off s) := ⟨_, rfl⟩
theorem scalarWord_issueOf (i : Instr) (h : Hdr) (store quad : Bool) (d a : Reg) (imm : BitVec 26) (s : State) :
    IssueOf i h s (scalarWord i h store quad d a imm s) := ⟨_, rfl⟩
theorem globalWord_issueOf (i : Instr) (h : Hdr) (kind : SKind) (d a : Reg) (imm : BitVec 26) (s : State) :
    IssueOf i h s (globalWord i h kind d a imm s) := ⟨_, rfl⟩
theorem accWord_issueOf (i : Instr) (h : Hdr) (a : Reg) (first last : BitVec 4) (load : Bool) (kind : Dword → ReqKind) (s : State) :
    IssueOf i h s (accWord i h a first last load kind s) := ⟨_, rfl⟩
theorem txbeginWord_issueOf (i : Instr) (h : Hdr) (v : BitVec 3) (a : Reg) (age : Bool) (s : State) :
    IssueOf i h s (txbeginWord i h v a age s) := ⟨_, rfl⟩
theorem erWord_issueOf (i : Instr) (h : Hdr) (forms : Ctx → List (Dword × Nat)) (kind : Ctx → ReqKind) (dst : Option Reg) (s : State) :
    IssueOf i h s (erWord i h forms kind dst s) := ⟨_, rfl⟩
theorem mcjoinWord_issueOf (i : Instr) (h : Hdr) (a : Reg) (p : BitVec 5) (b : Reg) (leave : Bool) (s : State) :
    IssueOf i h s (mcjoinWord i h a p b leave s) := ⟨_, rfl⟩

/-- The arm of every instruction with a header is the issue of a word with that header; events and host commands have none. -/
theorem exec_issueOf {i : Instr} {h : Hdr} (hh : i.hdr? = some h) (s : State) : IssueOf i h s (exec i s) := by
  unfold exec
  cases i with
  | nop | trap | resume | csrr | csrw | csrx | codeinv | yield | brk | launch | br | loop | call | ret | pset | trig | exit | waite
    | sige | atomg | shape | viewld | viewldGet | portrd | portwr | portspc | srd | swr | scp | sfill | swin | smc | sgath | sscat |
    sscata | srec | sportcfg | sportcfgOff | sbar | fence | swaits | sabort | ratom | rsig | maqld | maqgo | maqdrn | chbind | srseed
    | snap | unsnap | txclaim | txcommit | txabort | txstat | route | unroute | owncfg | wlnew | wlpush | wlpop | wlins | wlcnt |
    wlfree | smpcfg | smpon | smpoff | cntrd | mark => cases hh; dsimp only; exact ⟨_, rfl⟩
  | freeze | thaw => cases hh; dsimp only; exact masterWord_issueOf ..
  | add | sub | mul | mulh | and | or | xor | shl | shr | sar | min | max | clz | popc | sel | cmp | addi | subi | muli | andi | ori
    | xori | shli | shri | sari | mini | maxi | cmpi | movhi => cases hh; dsimp only; exact aluWord_issueOf ..
  | brany | brall => cases hh; dsimp only; exact voteWord_issueOf ..
  | lds | sts | ldq | stq => cases hh; dsimp only; exact scalarWord_issueOf ..
  | ldg | stg => cases hh; dsimp only; exact globalWord_issueOf ..
  | accsave | accload => cases hh; dsimp only; exact accWord_issueOf ..
  | txbegin | txbeginAge => cases hh; dsimp only; exact txbeginWord_issueOf ..
  | ercfg | ercfgOff | erdisp | erdispReuse | ercomb | erstat | erdrops => cases hh; dsimp only; exact erWord_issueOf ..
  | mcjoin | mcjoinLeave => cases hh; dsimp only; exact mcjoinWord_issueOf ..
  | _ => cases hh

/-- A word R43 refuses traps at its own index. -/
theorem IssueOf.illegal {i : Instr} {h : Hdr} {s : State} {c : Ctx} {r : Res} (hr : IssueOf i h s r) (hc : ctxOf s i h = some c)
    (hs : c.f.skip ≠ some c.lane) (hw : i.wf = false) : r = .next (trapAt c causeIllegal 0 s) := by
  obtain ⟨body, rfl⟩ := hr
  simp [issueWord, hc, hs, hw]

/-- A privileged word traps outside the management job (R41). -/
theorem IssueOf.privileged {i : Instr} {h : Hdr} {s : State} {c : Ctx} {r : Res} (hr : IssueOf i h s r) (hc : ctxOf s i h = some c)
    (hs : c.f.skip ≠ some c.lane) (hw : i.wf = true) (hp : i.privileged = true) (hj : c.job ≠ 0) :
    r = .next (trapAt c causePrivileged 0 s) := by
  obtain ⟨body, rfl⟩ := hr
  simp [issueWord, hc, hs, hw, hp, hj]

/-- A word that something holds (R303). -/
theorem IssueOf.held {i : Instr} {h : Hdr} {s : State} {c : Ctx} {r : Res} (hr : IssueOf i h s r) (hc : Slice0.Reaches s i h c)
    {w : Why} (hw : holdOf s c i = some w) : r = .next (heldAt c w s) := by
  obtain ⟨body, rfl⟩ := hr
  have hp : (i.privileged && c.job != 0) = false := by
    cases hpr : i.privileged
    · rfl
    · simp [hc.allowed hpr]
  simp [issueWord, hc.ctx, hc.kept, hc.legal, hp, hw]

/-! ### A trap and a violation found at issue (R6, R376, R378, R393, R414) -/

theorem State.updFz_station_ne (s : State) {id st : Nat} {g : Frieze → Frieze}
    (hg : ∀ (f : Frieze) (n : Nat), n ≠ st → (g f).stations[n]? = f.stations[n]?) {i j : Nat} (h : (i, j) ≠ (id, st)) :
    (s.updFz id g).station? i j = s.station? i j := by
  by_cases hi : i = id
  · subst hi
    have hj : j ≠ st := fun e => h (by rw [e])
    cases hf : s.friezes.find i with
    | none => rw [State.updFz, hf]
    | some f => rw [State.station_eq (State.updFz_find hf g), State.station_eq hf, hg f j hj]
  · rw [State.station?, State.station?, State.updFz_find_ne s g hi]

/-- The station issues no word of the stop in progress (R394). -/
def Station.halt (x : Station) : Station := { x with stopped := true }

/-- A fault found after issue that waits at the station (R196). -/
def Station.withFault (x : Station) (q : PendFault) : Station := { x with faults := x.faults ++ [q] }

/-- What taking an exception at station st makes of its frieze (R393, R394). -/
def Frieze.raised (f : Frieze) (st : Nat) (cause : Cause) (slot : Option Nat) (d0 d1 d2 : Dword) : Frieze :=
  let f := f.updSt st Station.halt
  if f.stop = .freeze then f
  else { f with
    stop := .trap
    victimFor := none
    trap := some (Trap.meet f.trap ⟨cause, slot, st, f.posOf st, d0, d1, d2⟩) }

theorem trapAt_eq (c : Ctx) (cause : Cause) (d0 : Dword) (s : State) :
    trapAt c cause d0 s = (s.updFz c.id (·.raised c.st cause none d0 0 0)).deselect := rfl

section
variable (f : Frieze) (st : Nat) (cause : Cause) (slot : Option Nat) (d0 d1 d2 : Dword)

theorem Frieze.raised_stations :
    (f.raised st cause slot d0 d1 d2).stations = (f.updSt st Station.halt).stations := by
  unfold Frieze.raised
  dsimp only
  split <;> rfl

theorem Frieze.raised_sameCounters : f.SameCounters (f.raised st cause slot d0 d1 d2) := by
  have hst := Frieze.SameCounters.updSt f st (g := Station.halt) fun _ => rfl
  unfold Frieze.raised
  dsimp only
  split <;> exact ⟨hst.head, hst.own⟩

/-- While the frieze is being frozen nothing is kept of the exception. -/
theorem Frieze.raised_of_freeze (h : f.stop = .freeze) :
    (f.raised st cause slot d0 d1 d2).stop = .freeze ∧ (f.raised st cause slot d0 d1 d2).trap = f.trap := by
  rw [Frieze.raised, if_pos (by exact h)]
  exact ⟨h, rfl⟩

theorem Frieze.raised_of_ne_freeze {x : Station} (hx : f.stations[st]? = some x) (h : f.stop ≠ .freeze) :
    (f.raised st cause slot d0 d1 d2).stop = .trap ∧
      (f.raised st cause slot d0 d1 d2).trap = some (Trap.meet f.trap ⟨cause, slot, st, x.pos, d0, d1, d2⟩) := by
  have hpos : (f.updSt st Station.halt).posOf st = x.pos := by
    rw [Frieze.posOf, Frieze.updSt_get hx]; rfl
  rw [Frieze.raised, if_neg (by exact h)]
  exact ⟨rfl, by rw [hpos]; rfl⟩

end

theorem trapAt_trapsAlone {s : State} {i : Instr} {h : Hdr} {c : Ctx} (hc : ctxOf s i h = some c) (cause : Cause) (d0 : Dword) :
    Slice0.TrapsAlone s (trapAt c cause d0 s) c cause d0 := by
  obtain ⟨-, hf, hx, -⟩ := ctxOf_find hc
  rw [trapAt_eq]
  have hcount : KeepsCounts c s (s.updFz c.id (·.raised c.st cause none d0 0 0)).deselect :=
    (Recounts.updFz c s c.id fun f => f.raised_sameCounters c.st cause none d0 0 0).trans (Recounts.deselect c _)
  refine ⟨⟨(Quiet.updFz ..).trans (Quiet.deselect _), rfl, c.f.raised c.st cause none d0 0 0, State.updFz_find hf _, ?_, ?_, ?_⟩, ?_, ?_, ?_⟩
  · rw [Frieze.raised_stations]
    exact Frieze.updSt_get hx _
  · exact c.f.raised_of_freeze c.st cause none d0 0 0
  · exact c.f.raised_of_ne_freeze c.st cause none d0 0 0 hx
  · exact State.updFz_tile s c.id _
  · exact hcount.counter (by rw [State.station_eq hf, hx]; rfl)
  · intro id st y hne hy
    rw [← hy]
    refine State.updFz_station_ne s (fun f n hn => ?_) hne
    rw [← Frieze.updSt_get_ne f _ hn]
    exact congrArg (·[n]?) (f.raised_stations c.st cause none d0 0 0)

/-- What a violation makes of its frieze (R376, R378). -/
def Frieze.violated (f : Frieze) (cause : Cause) (addr : Dword) : Frieze :=
  if f.frozen then f
  else { f with
    frozen := true
    freezeRec := some (cause, addr)
    trap := f.trap.filter fun t => t.cause == causeTrapInstr || t.cause == causeBreakpoint
    stop := .freeze }

theorem violAt_eq (c : Ctx) (cause : Cause) (addr : Dword) (s : State) :
    violAt c cause addr s = (((s.updSt c.id c.st (·.withFault ⟨none, cause, s.serial, addr, 0, 0⟩)).bump.updSt c.id c.st
      Station.halt).updFz c.id (·.violated cause addr)).deselect := rfl

theorem Frieze.violated_stations (f : Frieze) (cause : Cause) (addr : Dword) : (f.violated cause addr).stations = f.stations := by
  unfold Frieze.violated
  split <;> rfl

theorem Frieze.violated_sameCounters (f : Frieze) (cause : Cause) (addr : Dword) : f.SameCounters (f.violated cause addr) := by
  unfold Frieze.violated
  split <;> exact ⟨rfl, fun _ => rfl⟩

theorem Frieze.violated_frozen (f : Frieze) (cause : Cause) (addr : Dword) : (f.violated cause addr).frozen = true := by
  unfold Frieze.violated
  split
  · assumption
  · rfl

theorem Frieze.violated_of_not_frozen {f : Frieze} (h : f.frozen = false) (cause : Cause) (addr : Dword) :
    (f.violated cause addr).stop = .freeze ∧ (f.violated cause addr).freezeRec = some (cause, addr) := by
  rw [Frieze.violated, h]
  exact ⟨rfl, rfl⟩

theorem SameBytes.trans {s t r : State} (a : SameBytes s t) (b : SameBytes t r) : SameBytes s r :=
  fun k n => (b k n).trans (a k n)

theorem SameBytes.bump (s : State) : SameBytes s s.bump := fun k _ => by cases k <;> rfl

theorem violAt_violates {s : State} {i : Instr} {h : Hdr} {c : Ctx} (hc : ctxOf s i h = some c) (cause : Cause) (addr : Dword) :
    Slice0.Violates s (violAt c cause addr s) c cause addr := by
  obtain ⟨-, hf, hx, -⟩ := ctxOf_find hc
  rw [violAt_eq]
  generalize hq : (⟨none, cause, s.serial, addr, 0, 0⟩ : PendFault) = q
  have hf1 := State.updFz_find hf (·.updSt c.st (·.withFault q))
  have hf2 := State.updFz_find (s := (s.updSt c.id c.st (·.withFault q)).bump) hf1 (·.updSt c.st Station.halt)
  have hf3 := State.updFz_find hf2 (·.violated cause addr)
  have hcount := (((Recounts.updSt c s c.id c.st (g := (·.withFault q)) fun _ => rfl).trans (Recounts.bump c _)).trans
    (Recounts.updSt c _ c.id c.st (g := Station.halt) fun _ => rfl)).trans
    (Recounts.updFz c _ c.id fun f => f.violated_sameCounters cause addr)
  refine ⟨?_, ⟨fun u => ?_, ?_, ?_⟩, rfl, _, hf3, Frieze.violated_frozen .., ?_, ?_⟩
  · exact ((Quiet.updSt ..).sameBytes.trans (SameBytes.bump _)).trans
      (((Quiet.updSt ..).trans (Quiet.updFz ..)).trans (Quiet.deselect _)).sameBytes
  · exact (State.updFz_tile ..).trans ((State.updFz_tile ..).trans (State.updFz_tile ..))
  · exact hcount.counter (by rw [State.station_eq hf, hx]; rfl)
  · intro id st y hne hy
    have hother : id ≠ c.id ∨ st ≠ c.st := by
      by_contra hno
      push Not at hno
      exact hne (by rw [hno.1, hno.2])
    have hfreeze := State.updFz_station_ne ((s.updSt c.id c.st (·.withFault q)).bump.updSt c.id c.st Station.halt)
      (g := (·.violated cause addr)) (fun f n _ => by rw [f.violated_stations]) hne
    calc _ = _ := hfreeze
      _ = (s.updSt c.id c.st (·.withFault q)).station? id st := State.updSt_station_ne _ _ hother
      _ = some y := by rw [State.updSt_station_ne _ _ hother, hy]
  · rw [Frieze.violated_stations, hq]
    exact Frieze.updSt_get (Frieze.updSt_get hx _) _
  · exact fun hnf => Frieze.violated_of_not_frozen (f := (c.f.updSt c.st (·.withFault q)).updSt c.st Station.halt) hnf cause addr

/-! ### The checks of a scalar access and of ATOMG at issue (R17, R182, R204, R207) -/

/-- A form of a space the entry of a scalar access allows (R201, R204). -/
def spaceAllowed (f : Dword) (global : Bool) : Prop := formSpace f ≠ 3 ∧ (global = true ↔ formSpace f = spGlobal)

theorem spaceRefused_iff (f : Dword) (global : Bool) :
    (global != (formSpace f == spGlobal) || formSpace f == 3) = true ↔ ¬spaceAllowed f global := by
  unfold spaceAllowed
  by_cases h3 : formSpace f = 3 <;> by_cases hg : formSpace f = spGlobal <;> cases global <;> simp [h3, hg]

theorem elementCheck_bounds {f : Dword} {a : Int} {z : Nat} (h3 : formSpace f ≠ 3) (hg : formSpace f ≠ spGlobal) (hz : a % z = 0)
    (hb : formRsvd f ≠ 0 ∨ a < 0 ∨ 2 ^ 55 < a + z ∨ (formSpace f = spLocal ∧ 2 ^ 19 < a + z)) (s : State) (job tile : Nat) (k : Access) :
    elementCheck s job tile f a z k = .error ⟨causeBounds, false⟩ := by
  unfold elementCheck formCheck
  rw [if_neg h3]
  by_cases hr : formRsvd f = 0
  · rw [if_neg (by simpa using hr)]
    dsimp only
    split
    · rfl
    next hin =>
      have hpos : 0 ≤ a := by omega
      have hnat : (a.toNat : Int) = a := Int.toNat_of_nonneg hpos
      have halign : a.toNat % z = 0 := by rw [← hnat] at hz; exact_mod_cast hz
      obtain ⟨hl, hend⟩ : formSpace f = spLocal ∧ 2 ^ 19 < a + z := by
        rcases hb with h | h | h | h
        · exact absurd hr h
        · omega
        · omega
        · exact h
      rw [if_neg (by simpa using halign), spaceCheck, if_pos hl, if_pos (by omega)]
  · rw [if_pos hr]

theorem elementCheck_shared {s : State} {job : Nat} {f : Dword} {a : Int} {z : Nat} (hz : a % z = 0) (hr : formRsvd f = 0)
    (hsh : formSpace f = spShared) (h0 : 0 ≤ a) (hend : a + z ≤ 2 ^ 55)
    (hb : 2 ^ 29 ≤ a ∨ (Slice0.sharedBytes s job : Int) < a + z) (tile : Nat) (k : Access) :
    elementCheck s job tile f a z k = .error ⟨causeBounds, true⟩ := by
  have hnat : (a.toNat : Int) = a := Int.toNat_of_nonneg h0
  have halign : a.toNat % z = 0 := by rw [← hnat] at hz; exact_mod_cast hz
  have hform : formCheck f = none := by
    rw [formCheck, if_neg (by rw [hsh]; decide), if_neg (by simpa using hr)]
  have hspace : spaceCheck s job tile spShared a.toNat z k = .error ⟨causeBounds, true⟩ := by
    rw [spaceCheck, if_neg (by decide), if_pos rfl]
    unfold Slice0.sharedBytes at hb
    rw [State.job?]
    cases hj : s.jobs.find job with
    | none => rfl
    | some j =>
      rw [hj] at hb
      simp only [Option.map_some, Option.getD_some] at hb
      dsimp only
      split
      · rfl
      · rw [if_pos (by omega)]
  rw [elementCheck, hform]
  dsimp only
  rw [if_neg (by omega), if_neg (by simpa using halign), hsh, hspace]

section
variable {f : Dword} {a : Int} {z : Nat} {global : Bool}

theorem scalarCheck_space (h : ¬spaceAllowed f global) (s : State) (c : Ctx) (k : Access) :
    scalarCheck s c f a z global k = some ⟨causeProtection, false⟩ := by
  rw [scalarCheck, if_pos ((spaceRefused_iff f global).2 h)]

theorem scalarCheck_misaligned (h : spaceAllowed f global) (hz : a % z ≠ 0) (s : State) (c : Ctx) (k : Access) :
    scalarCheck s c f a z global k = some ⟨causeMisaligned, false⟩ := by
  rw [scalarCheck, if_neg (fun hr => (spaceRefused_iff f global).1 hr h), if_pos hz]

/-- Of an access of LOCAL or SHARED space the check of an element decides the rest. -/
theorem scalarCheck_element (h : spaceAllowed f false) (hz : a % z = 0) {s : State} {c : Ctx} {k : Access} {v : Viol}
    (he : elementCheck s c.job c.tile f a z k = .error v) : scalarCheck s c f a z false k = some v := by
  rw [scalarCheck, if_neg (fun hr => (spaceRefused_iff f false).1 hr h), if_neg (by simpa using hz), if_neg Bool.false_ne_true, he]

end

theorem atomCheck_misaligned {f : Dword} {z : Nat} (h : formAddr f % z ≠ 0) : atomCheck f z = some ⟨causeMisaligned, false⟩ := by
  rw [atomCheck, if_pos h]

theorem atomCheck_space {f : Dword} {z : Nat} (h : formAddr f % z = 0) (h3 : formSpace f = 3) :
    atomCheck f z = some ⟨causeProtection, false⟩ := by
  rw [atomCheck, if_neg (by simpa using h), formCheck, if_pos h3]

theorem atomCheck_rsvd {f : Dword} {z : Nat} (h : formAddr f % z = 0) (h3 : formSpace f ≠ 3) (hr : formRsvd f ≠ 0) :
    atomCheck f z = some ⟨causeBounds, false⟩ := by
  rw [atomCheck, if_neg (by simpa using h), formCheck, if_neg h3, if_pos hr]

/-! ### Scalar words and ATOMG that their checks refuse -/

/-- The state after a word that a check at issue refuses (R6, R376). -/
def refusedAt (c : Ctx) (v : Viol) (addr : Dword) (s : State) : State :=
  if v.freeze then violAt c v.cause addr s else trapAt c v.cause addr s

theorem Issues.refused {s : State} {i : Instr} {h : Hdr} {c : Ctx} (hi : Issues s i h c) {body : Ctx → State → Eff} {v : Viol}
    {addr : Dword} (hb : body c (beforeEffect c i s) = v.eff addr) : issueWord i h s body = .next (refusedAt c v addr s) := by
  rw [hi.exec, hb, Viol.eff, refusedAt]
  cases v.freeze <;> rfl

section
variable {i : Instr} {h : Hdr} {s : State} {c : Ctx} {a : Reg} {imm : BitVec 26} {v : Viol}

theorem scalarWord_refused (hi : Issues s i h c) {store quad : Bool} (d : Reg)
    (hv : scalarCheck (beforeEffect c i s) c (c.g a) (scalarAddr (c.g a) imm) (if quad then 32 else 8) false
      (if store then .write else .read) = some v) :
    scalarWord i h store quad d a imm s = .next (refusedAt c v (formAt (c.g a) (scalarAddr (c.g a) imm)) s) :=
  hi.refused (by dsimp only; rw [hv])

theorem globalWord_refused (hi : Issues s i h c) (kind : SKind) (d : Reg)
    (hv : scalarCheck (beforeEffect c i s) c (c.g a) (scalarAddr (c.g a) imm) 8 true .read = some v) :
    globalWord i h kind d a imm s = .next (refusedAt c v (formAt (c.g a) (scalarAddr (c.g a) imm)) s) :=
  hi.refused (by dsimp only; rw [hv])

/-- A scalar access that its check refuses, whatever the check finds and whether it reads or writes. -/
theorem scalarRow_refused {z : Nat} {global : Bool} (hr : Slice0.scalarRow i = some (h, a, imm, z, global)) (hi : Issues s i h c)
    (hv : ∀ k, scalarCheck (beforeEffect c i s) c (c.g a) (scalarAddr (c.g a) imm) z global k = some v) :
    exec i s = .next (refusedAt c v (formAt (c.g a) (scalarAddr (c.g a) imm)) s) := by
  unfold Slice0.scalarRow at hr
  split at hr <;> cases hr
  case h_1 d => exact scalarWord_refused hi (store := false) (quad := false) d (hv _)
  case h_2 d => exact scalarWord_refused hi (store := true) (quad := false) d (hv _)
  case h_3 d => exact scalarWord_refused hi (store := false) (quad := true) d (hv _)
  case h_4 d => exact scalarWord_refused hi (store := true) (quad := true) d (hv _)
  case h_5 d => exact globalWord_refused hi .ldg d (hv _)
  case h_6 d => exact globalWord_refused hi .stg d (hv _)

end

theorem atomg_refused {h : Hdr} {d a b e : Reg} {op : BitVec 4} {wide : Bool} {s : State} {c : Ctx} {v : Viol}
    (hi : Issues s (.atomg h d a b e op wide) h c) (hv : atomCheck (c.g a) (if wide then 8 else 4) = some v) :
    exec (.atomg h d a b e op wide) s = .next (refusedAt c v (c.g a) s) := by
  change execAtomg h d a b e op wide s = _
  unfold execAtomg
  exact hi.refused (by dsimp only; rw [hv])

end Sys2Proof.Machine

namespace Sys2Proof.Slice0

open Machine

/-- A word that traps at issue with a cause of R392 that freezes nothing. -/
theorem trapsAlone_of_refused {i : Instr} {h : Hdr} {s : State} {c : Ctx} {cause : Cause} {addr : Dword} (hi : Issues s i h c)
    (he : exec i s = .next (refusedAt c ⟨cause, false⟩ addr s)) : ∃ t, exec i s = .next t ∧ TrapsAlone s t c cause addr :=
  ⟨_, he, trapAt_trapsAlone hi.ctx cause addr⟩

/-- Decoding and privilege refuse the word before anything holds it (R41, R43). -/
theorem refused_before_issue {i : Instr} {h : Hdr} {s : State} {c : Ctx} (hh : i.hdr? = some h) (hc : ctxOf s i h = some c)
    (hs : c.f.skip ≠ some c.lane) :
    (i.wf = false → ∃ t, exec i s = .next t ∧ TrapsAlone s t c 0x01 0) ∧
      (i.wf = true → i.privileged = true → c.job ≠ 0 → ∃ t, exec i s = .next t ∧ TrapsAlone s t c 0x02 0) :=
  ⟨fun hw => ⟨_, (exec_issueOf hh s).illegal hc hs hw, trapAt_trapsAlone hc _ _⟩,
    fun hw hp hj => ⟨_, (exec_issueOf hh s).privileged hc hs hw hp hj, trapAt_trapsAlone hc _ _⟩⟩

/-- Settles O9: each check decides one answer of the word's issue, and a word so refused runs nothing but its trap or its violation. -/
theorem refusedWordsTrap : Obligations.RefusedWordsTrap := by
  unfold Obligations.RefusedWordsTrap
  refine ⟨fun i h s c hh hc hs => refused_before_issue hh hc hs, ?_, ?_⟩
  · intro i h a imm z global s c hr hi
    refine ⟨fun hn => ?_, fun ha hz => ?_, fun ha hz hg hb => ?_, fun ha hz hr0 hsh h0 hend hb => ?_⟩
    · exact trapsAlone_of_refused hi (scalarRow_refused hr hi fun k => scalarCheck_space hn _ c k)
    · exact trapsAlone_of_refused hi (scalarRow_refused hr hi fun k => scalarCheck_misaligned ha hz _ c k)
    · subst hg
      have hng : formSpace (c.g a) ≠ spGlobal := fun e => Bool.false_ne_true (ha.2.2 e)
      exact trapsAlone_of_refused hi (scalarRow_refused hr hi fun k =>
        scalarCheck_element ha hz (elementCheck_bounds ha.1 hng hz hb _ _ _ k))
    · have hng : global = false := Bool.eq_false_iff.2 fun e => absurd (hsh.symm.trans (ha.2.1 e)) (by decide)
      subst hng
      have hjobs : (beforeEffect c i s).jobs = s.jobs := by rw [(Quiet.beforeEffect c i s).rest]
      have hb' : 2 ^ 29 ≤ (formAddr (c.g a) + imm.toInt : Int) ∨
          (sharedBytes (beforeEffect c i s) c.f.job : Int) < formAddr (c.g a) + imm.toInt + z := by
        rwa [sharedBytes, hjobs]
      exact ⟨_, scalarRow_refused hr hi fun k => scalarCheck_element ha hz (elementCheck_shared hz hr0 hsh h0 hend hb' _ k),
        violAt_violates hi.ctx _ _⟩
  · intro h d a b e op wide s c i z hi
    exact ⟨fun hm => trapsAlone_of_refused hi (atomg_refused hi (atomCheck_misaligned hm)),
      fun hm h3 => trapsAlone_of_refused hi (atomg_refused hi (atomCheck_space hm h3)),
      fun hm h3 hr => trapsAlone_of_refused hi (atomg_refused hi (atomCheck_rsvd hm h3 hr))⟩

end Sys2Proof.Slice0

namespace Sys2Proof.Machine

/-! ### A word whose WAIT byte is not met (R8, R303, R305) -/

/-- The row of the WAIT byte stands first among the rows that hold a word (R303). -/
theorem holdOf_of_unmet {s : State} {i : Instr} {c : Ctx} (hh : haltWait c = false)
    (hw : (s.counter c.id c.st c.h.waitK).toNat < (Slice0.waitNeed c).toNat) :
    holdOf s c i = some (.counter c.h.waitK (Slice0.waitNeed c)) := by
  have hult : (s.counter c.id c.st c.h.waitK).ult (Slice0.waitNeed c) = true := by simpa [BitVec.ult] using hw
  have hcount : counterWait s c i = some (.counter c.h.waitK (Slice0.waitNeed c)) := if_pos hult
  simp [holdOf, hh, rowWait, hcount]

theorem Recounts.heldAt (c : Ctx) (w : Why) (s : State) : KeepsCounts c s (heldAt c w s) := by
  refine (Recounts.updSt c s c.id c.st ?_).trans (Recounts.deselect c _)
  exact fun _ => rfl

/-- A hold that the watchdog counts. -/
theorem heldAt_station {s : State} {c : Ctx} {w : Why} (hx : s.station? c.id c.st = some c.x) (hw : w.counted = true) :
    ∃ b, (heldAt c w s).station? c.id c.st = some { c.x with hold := c.x.hold + 1, held := c.x.held + 1, stopped := b } := by
  refine ⟨c.x.stopped || (w.counted && c.f.stop.drains), ?_⟩
  refine (State.updSt_station hx _).trans ?_
  simp [hw]

end Sys2Proof.Machine

namespace Sys2Proof.Slice0

open Machine

/-- Settles O10: the unmet WAIT byte is the first row of R303 to hold the word, and a held word changes its station's counts of holds alone. -/
theorem unmetWaitHolds : Obligations.UnmetWaitHolds := by
  unfold Obligations.UnmetWaitHolds
  intro i h s c hc hh hw
  obtain ⟨-, hf, hx, -, rfl, -⟩ := ctxOf_find hc.ctx
  have hst : s.station? c.id c.st = some c.x := (State.station_eq hf).trans hx
  exact ⟨_, (exec_issueOf hc.hdr s).held hc (holdOf_of_unmet hh hw), Quiet.heldAt .., (Recounts.heldAt ..).counter (by rw [hst]; rfl),
    heldAt_station hst rfl⟩

end Sys2Proof.Slice0

namespace Sys2Proof.Machine

/-! ### The event counters of the words complete at issue (R8, R31, R319, R320) -/

/-- The word takes no part of a request of the head, and once it issues its effects complete it and change no counter of its station but as
SIGE does (R297, R320). -/
def CountsAtIssue (i : Instr) : Prop :=
  i.asksHead = false ∧ ∃ h, i.hdr? = some h ∧ ∀ s, ∃ body, exec i s = issueWord i h s body ∧
    ∀ c r, ∃ q, body c r = .done q true ∧ Recounts c r q (afterEffect c i)

theorem setG_own (x : Station) (d : Reg) (v : Dword) : (x.setG d v).e = x.e := by
  unfold Station.setG
  split <;> rfl

theorem setP_own (x : Station) (d : BitVec 3) (b : Bool) : (x.setP d b).e = x.e := by
  unfold Station.setP
  split <;> rfl

theorem setH_own (x : Station) (d : BitVec 4) (v : Shape) : (x.setH d v).e = x.e := rfl

theorem Recounts.setG (c : Ctx) (s : State) (d : Reg) (v : Dword) : KeepsCounts c s (c.setG s d v) :=
  Recounts.updSt c s c.id c.st fun x => setG_own x d v

theorem Recounts.takeBranch (c : Ctx) (target : BitVec 52) (s : State) : KeepsCounts c s (takeBranch c target s) :=
  Recounts.updFz c s c.id fun _ => ⟨rfl, fun _ => rfl⟩

theorem Recounts.branchIf (c : Ctx) (b : Bool) (target : BitVec 52) (s : State) :
    KeepsCounts c s (if b then Machine.takeBranch c target s else s) := by
  split
  · exact Recounts.takeBranch c target s
  · exact Recounts.refl c s

theorem Recounts.foldl {α : Type} (c : Ctx) {g : State → α → State} (hg : ∀ s a, KeepsCounts c s (g s a)) (l : List α) (s : State) :
    KeepsCounts c s (l.foldl g s) := by
  induction l generalizing s with
  | nil => exact Recounts.refl c s
  | cons a l ih => exact (hg s a).trans (ih _)

theorem Recounts.stopUnit (c : Ctx) (s : State) (id : Nat) (why : Stop) (d : Option Cand) : KeepsCounts c s (stopUnit s id why d) := by
  refine Recounts.foldl c (fun s a => Recounts.updFz c s a fun f => ?_) _ s
  split
  · exact ⟨rfl, fun _ => rfl⟩
  · exact Frieze.SameCounters.refl f

/-- What YIELD does: its frieze's unit may be stopped. -/
theorem Recounts.yield (c : Ctx) (s : State) :
    KeepsCounts c s (if !c.isHead || leadsOrd s c.f || sameGang s c.id c.id then s
      else match yieldTo s c.id c.f with
        | some d => Machine.stopUnit s c.id .yield (some d)
        | none => s) := by
  split
  · exact Recounts.refl c s
  · split
    · exact Recounts.stopUnit ..
    · exact Recounts.refl c s

/-- Every word of groups 0x1 and 0x2 is an integer word with its row's header and destination. -/
theorem integerRow_exec {i : Instr} {h : Hdr} {d : Reg} {row : (Reg → Dword) → Dword → Prop}
    (hr : Slice0.integerRow i = some (h, d, row)) :
    i.asksHead = false ∧ i.hdr? = some h ∧ (∀ c, afterEffect c i = fun _ w => w) ∧ ∃ v, exec i = aluWord i h d v := by
  unfold Slice0.integerRow at hr
  split at hr <;> cases hr <;> exact ⟨rfl, rfl, fun _ => rfl, _, rfl⟩

theorem integerRow_countsAtIssue {i : Instr} (hr : (Slice0.integerRow i).isSome = true) : CountsAtIssue i := by
  obtain ⟨⟨h, d, row⟩, hr⟩ := Option.isSome_iff_exists.1 hr
  obtain ⟨ha, hh, he, v, hv⟩ := integerRow_exec hr
  refine ⟨ha, h, hh, fun s => ⟨_, congrFun hv s, fun c r => ⟨_, rfl, ?_⟩⟩⟩
  rw [he]
  exact Recounts.setG ..

theorem stationRow_countsAtIssue {i : Instr} (hr : (Slice0.stationRow i).isSome = true) : CountsAtIssue i := by
  unfold Slice0.stationRow at hr
  split at hr
  case h_1 h => exact ⟨rfl, h, rfl, fun s => ⟨_, rfl, fun c r => ⟨_, rfl, Recounts.refl c r⟩⟩⟩
  case h_2 h => exact ⟨rfl, h, rfl, fun s => ⟨_, rfl, fun c r => ⟨_, rfl, Recounts.yield c r⟩⟩⟩
  case h_3 h d a b cond =>
    exact ⟨rfl, h, rfl, fun s => ⟨_, rfl, fun c r => ⟨_, rfl, Recounts.updSt c r c.id c.st fun x => setP_own x d _⟩⟩⟩
  case h_4 h d a b e m =>
    exact ⟨rfl, h, rfl, fun s => ⟨_, rfl, fun c r => ⟨_, rfl, Recounts.updSt c r c.id c.st fun x => setH_own x d _⟩⟩⟩
  case h_5 h x a b =>
    exact ⟨rfl, h, rfl, fun s => ⟨_, rfl, fun c r => ⟨_, rfl, (Recounts.setG c r a _).trans (Recounts.setG c _ b _)⟩⟩⟩
  case h_6 h g sub k => exact ⟨rfl, h, rfl, fun s => ⟨_, rfl, fun c r => ⟨_, rfl, Recounts.refl c r⟩⟩⟩
  case h_7 h mask => exact ⟨rfl, h, rfl, fun s => ⟨_, rfl, fun c r => ⟨_, rfl, Recounts.refl c r⟩⟩⟩
  case h_8 h g set k => exact ⟨rfl, h, rfl, fun s => ⟨_, rfl, fun c r => ⟨_, rfl, Recounts.updCounter c r k _⟩⟩⟩
  case h_9 => cases hr

theorem branchRow_countsAtIssue {i : Instr} (hr : (Slice0.branchRow i).isSome = true) : CountsAtIssue i := by
  unfold Slice0.branchRow at hr
  split at hr
  case h_1 h k kind off => exact ⟨rfl, h, rfl, fun s => ⟨_, rfl, fun c r => ⟨_, rfl, Recounts.branchIf ..⟩⟩⟩
  case h_2 h k off =>
    exact ⟨rfl, h, rfl, fun s => ⟨_, rfl, fun c r => ⟨_, rfl, (Recounts.setG c r k _).trans (Recounts.branchIf ..)⟩⟩⟩
  case h_3 h k off =>
    exact ⟨rfl, h, rfl, fun s => ⟨_, rfl, fun c r => ⟨_, rfl, (Recounts.setG c r k _).trans (Recounts.branchIf ..)⟩⟩⟩
  case h_4 h k => exact ⟨rfl, h, rfl, fun s => ⟨_, rfl, fun c r => ⟨_, rfl, Recounts.branchIf ..⟩⟩⟩
  case h_5 => cases hr

/-- A vote changes its frieze's vote alone. -/
theorem voteWord_counts (i : Instr) (h : Hdr) (all : Bool) (p : BitVec 3) (off : BitVec 28) (s : State) :
    ∃ body, voteWord i h all p off s = issueWord i h s body ∧ ∀ c r, ∃ q, body c r = .done q true ∧ KeepsCounts c r q := by
  refine ⟨_, rfl, fun c r => ⟨_, rfl, Recounts.updFz c r c.id fun f => ?_⟩⟩
  split <;> exact ⟨rfl, fun _ => rfl⟩

theorem voteRow_countsAtIssue {i : Instr} (hr : (Slice0.voteRow i).isSome = true) : CountsAtIssue i := by
  unfold Slice0.voteRow at hr
  dsimp only at hr
  split at hr
  case h_1 h p off => exact ⟨rfl, h, rfl, voteWord_counts _ h false p off⟩
  case h_2 h p off => exact ⟨rfl, h, rfl, voteWord_counts _ h true p off⟩
  case h_3 => cases hr

theorem plain_countsAtIssue {i : Instr} (hp : Slice0.plain i = true) : CountsAtIssue i := by
  simp only [Slice0.plain, Bool.or_eq_true] at hp
  obtain ((h | h) | h) | h := hp
  · exact stationRow_countsAtIssue h
  · exact branchRow_countsAtIssue h
  · exact voteRow_countsAtIssue h
  · exact integerRow_countsAtIssue h

/-- A word complete at issue, under its own header: its wait, its mode 11 signal, its effect and its mode 01 signal in the order of R31. -/
theorem CountsAtIssue.counted {i : Instr} {h : Hdr} {s : State} {c : Ctx} (hw : CountsAtIssue i) (hh : i.hdr? = some h)
    (hi : Issues s i h c) :
    ∃ t, exec i s = .next t ∧ ∀ k, t.counter c.id c.st k = Slice0.counted c i (s.counter c.id c.st k) k := by
  obtain ⟨ha, h', hh', hw⟩ := hw
  obtain rfl : h' = h := Option.some.inj (hh'.symm.trans hh)
  obtain ⟨body, he, hb⟩ := hw s
  obtain ⟨q, hq, hown⟩ := hb c (beforeEffect c i s)
  have hall := ((Recounts.beforeEffect c i s hi.on).trans hown).trans (Recounts.completeWord c i q ha)
  refine ⟨completeWord c i q true, ?_, fun k => ?_⟩
  · rw [he, hi.exec, hq]
  · rw [counted_eq]
    exact hall.counter (by rw [hi.station]; rfl) k

end Sys2Proof.Machine

namespace Sys2Proof.Slice0

open Machine

/-- A module after reset with a plain NOP, which waits for nothing and signals nothing, placed as its next word. -/
def nopState : State := State.reset.placeWord ((Instr.nop Hdr.plain).encode?.getD 0)

/-- The context of the placed NOP when it is looked at under a header h. -/
def nopCtx (h : Hdr) : Ctx :=
  { id := 0, f := placedFrieze ((Instr.nop Hdr.plain).encode?.getD 0), st := 0, x := Station.launch 0 View.launch, tile := 0, lane := 0,
    index := 0, word := (Instr.nop Hdr.plain).encode?.getD 0, h := h, on := true, late := false }

/-- A header that is not the NOP's: it signals e[0] in mode 01. -/
def signalHdr : Hdr := { Hdr.plain with sigMode := 1 }

theorem nop_issues_plain : Issues nopState (.nop Hdr.plain) Hdr.plain (nopCtx Hdr.plain) :=
  ⟨rfl, by decide, by decide, by decide, by decide, rfl⟩

theorem nop_issues_signal : Issues nopState (.nop Hdr.plain) signalHdr (nopCtx signalHdr) :=
  ⟨rfl, by decide, by decide, by decide, by decide, rfl⟩

/-- Refutes O7: the statement leaves the header h free where it should be the word's own (i.hdr? = some h), and Issues does not tie the
two. A plain NOP that issues leaves e[0] at 0, as its own header has it (CountsAtIssue.counted, what holds of every such word under its
own header), while the statement, read with a header that signals e[0], asks for 1. -/
theorem not_counterUpdates : ¬Obligations.CounterUpdates := by
  unfold Obligations.CounterUpdates
  intro hall
  obtain ⟨t, ht, hcount⟩ := hall (.nop Hdr.plain) signalHdr nopState (nopCtx signalHdr) rfl nop_issues_signal
  obtain ⟨u, hu, hown⟩ := (plain_countsAtIssue (i := .nop Hdr.plain) rfl).counted rfl nop_issues_plain
  obtain rfl : t = u := Host.Outcome.next.inj (ht.symm.trans hu)
  have hasked : t.counter 0 0 0 = 1 := (hcount 0).trans (by decide)
  have hleft : t.counter 0 0 0 = 0 := (hown 0).trans (by decide)
  exact absurd (hasked.symm.trans hleft) (by decide)

end Sys2Proof.Slice0
end

section
/-! SUPPORT. What a word complete at issue that acts on its station alone leaves as it was in every other station; and the statements
settled with it: the register files of a station, and the frame of the words of groups 0x0 to 0x3. -/

namespace Sys2Proof.Machine

/-! ### What reaches no other station (R24, R297, R298) -/

/-- Nothing but friezes, event counters and the selection has changed, and of the stations of every frieze only c's own, but for what
stands in the others' queues. -/
structure Confined (c : Ctx) (s t : State) : Prop where
  quiet : Quiet s t
  others : ∀ id st y, (id, st) ≠ (c.id, c.st) → s.station? id st = some y → ∃ en, t.station? id st = some { y with entered := en }

theorem Confined.refl (c : Ctx) (s : State) : Confined c s s := ⟨Quiet.refl s, fun _ _ y _ hy => ⟨y.entered, hy⟩⟩

theorem Confined.trans {c : Ctx} {s t r : State} (a : Confined c s t) (b : Confined c t r) : Confined c s r := by
  refine ⟨a.quiet.trans b.quiet, fun id st y hne hy => ?_⟩
  obtain ⟨en, hen⟩ := a.others id st y hne hy
  obtain ⟨en', hen'⟩ := b.others id st _ hne hen
  exact ⟨en', hen'⟩

/-- What changes of every other station nothing at all. -/
theorem Confined.of_stations {c : Ctx} {s t : State} (hq : Quiet s t)
    (h : ∀ id st, (id, st) ≠ (c.id, c.st) → t.station? id st = s.station? id st) : Confined c s t :=
  ⟨hq, fun id st y hne hy => ⟨y.entered, by rw [h id st hne, hy]⟩⟩

theorem Confined.deselect (c : Ctx) (s : State) : Confined c s s.deselect := .of_stations (Quiet.deselect s) fun _ _ _ => rfl

/-- A change of c's frieze that leaves its other stations alone. -/
theorem Confined.updFz (c : Ctx) (s : State) {g : Frieze → Frieze}
    (hg : ∀ (f : Frieze) (n : Nat), n ≠ c.st → (g f).stations[n]? = f.stations[n]?) : Confined c s (s.updFz c.id g) :=
  .of_stations (Quiet.updFz ..) fun _ _ hne => State.updFz_station_ne s hg hne

theorem Confined.updSt (c : Ctx) (s : State) (g : Station → Station) : Confined c s (s.updSt c.id c.st g) :=
  Confined.updFz c s fun f _ hn => Frieze.updSt_get_ne f g hn

/-- A change of any frieze that leaves all its stations alone. -/
theorem Confined.updFz_stations (c : Ctx) (s : State) (id : Nat) {g : Frieze → Frieze}
    (hg : ∀ f : Frieze, (g f).stations = f.stations) : Confined c s (s.updFz id g) := by
  refine .of_stations (Quiet.updFz ..) fun i j _ => ?_
  by_cases hi : i = id
  · subst hi
    cases hf : s.friezes.find i with
    | none => rw [State.updFz, hf]
    | some f => rw [State.station_eq (State.updFz_find hf g), State.station_eq hf, hg]
  · rw [State.station?, State.station?, State.updFz_find_ne s g hi]

theorem Confined.updCounter (c : Ctx) (s : State) (k : BitVec 6) (g : Word → Word) :
    Confined c s (s.updCounter c.id c.st k g) := by
  refine .of_stations (Quiet.updCounter ..) fun i j hne => ?_
  unfold State.updCounter
  split
  · rfl
  · split
    · exact (State.updFz_station_ne s (fun f n hn => Frieze.updSt_get_ne f _ hn) hne)
    · rfl

theorem Confined.addCount (c : Ctx) (s : State) (k : BitVec 6) (n : Word) : Confined c s (s.addCount c.id c.st k n) :=
  Confined.updCounter ..

theorem Confined.sigDone (c : Ctx) (s : State) (m : BitVec 2) (k : BitVec 6) : Confined c s (s.sigDone c.id c.st m k) := by
  unfold State.sigDone
  split
  · exact Confined.addCount ..
  · exact Confined.refl c s

theorem Confined.foldl {α : Type} (c : Ctx) {g : State → α → State} (hg : ∀ s a, Confined c s (g s a)) (l : List α) (s : State) :
    Confined c s (l.foldl g s) := by
  induction l generalizing s with
  | nil => exact Confined.refl c s
  | cons a l ih => exact (hg s a).trans (ih _)

/-! ### The issue of a word -/

theorem Confined.waitByte (c : Ctx) (s : State) :
    Confined c s (if c.h.waitMode = 1 then s.addCount c.id c.st c.h.waitK (-1)
      else if c.h.waitMode = 2 then s.addCount c.id c.st c.h.waitK (-(c.x.rq c.h.waitK)) else s) := by
  split
  · exact Confined.addCount ..
  · split
    · exact Confined.addCount ..
    · exact Confined.refl c s

theorem Confined.consumeWait (c : Ctx) (i : Instr) (s : State) : Confined c s (consumeWait c i s) := by
  have hbyte := Confined.waitByte c s
  unfold Machine.consumeWait
  dsimp only
  generalize (if c.h.waitMode = 1 then _ else _ : State) = t at hbyte ⊢
  split
  · split
    · exact hbyte.trans (Confined.addCount ..)
    · exact hbyte
  · exact hbyte

theorem Confined.beforeEffect (c : Ctx) (i : Instr) (s : State) : Confined c s (beforeEffect c i s) := by
  unfold Machine.beforeEffect
  dsimp only
  split
  · exact (Confined.consumeWait c i s).trans (Confined.addCount ..)
  · exact Confined.consumeWait c i s

/-- The stations of a frieze whose word has moved past station st: st itself moved, the word entered in the next one's queue. -/
theorem Frieze.passed_get (f : Frieze) (st now : Nat) {n : Nat} (hn : n ≠ st) {y : Station} (hy : f.stations[n]? = some y) :
    ∃ en, ((f.updSt st (·.moved)).updSt (st + 1) fun x => { x with entered := x.entered ++ [now] }).stations[n]? =
      some { y with entered := en } := by
  have hmoved : (f.updSt st (·.moved)).stations[n]? = some y := by rw [Frieze.updSt_get_ne f _ hn, hy]
  by_cases hnext : n = st + 1
  · subst hnext
    exact ⟨_, Frieze.updSt_get hmoved _⟩
  · exact ⟨y.entered, by rw [Frieze.updSt_get_ne _ _ hnext, hmoved]⟩

theorem Confined.advance (c : Ctx) (s : State) : Confined c s (advance c s) := by
  refine Confined.trans (t := s.updFz c.id _) ⟨Quiet.updFz .., fun id st y hne hy => ?_⟩ (Confined.deselect ..)
  by_cases hid : id = c.id
  · subst hid
    have hst : st ≠ c.st := fun e => hne (by rw [e])
    obtain ⟨f, hf, hget⟩ := Option.bind_eq_some_iff.1 hy
    obtain ⟨en, hen⟩ := f.passed_get c.st s.cycles.toNat hst hget
    refine ⟨en, ?_⟩
    rw [State.station_eq (State.updFz_find hf _), ← hen]
    dsimp only
    split <;> split <;> rfl
  · exact ⟨y.entered, by rw [State.station?, State.updFz_find_ne s _ hid, ← State.station?, hy]⟩

theorem Confined.completeWord (c : Ctx) (i : Instr) (s : State) (now : Bool) (ha : i.asksHead = false) :
    Confined c s (completeWord c i s now) := by
  simp only [Machine.completeWord, ha, Bool.false_eq_true, if_false]
  split
  · exact (Confined.sigDone ..).trans (Confined.advance ..)
  · exact Confined.advance ..

theorem Confined.skipWord (c : Ctx) (i : Instr) (s : State) : Confined c s (skipWord c i s) := by
  unfold Machine.skipWord
  dsimp only
  split
  · exact ((Confined.consumeWait ..).trans (Confined.addCount ..)).trans (Confined.advance ..)
  · exact (Confined.consumeWait ..).trans (Confined.advance ..)

theorem Confined.discardWord (c : Ctx) (s : State) : Confined c s (discardWord c s) :=
  ((Confined.advance ..).trans (Confined.updSt ..)).trans (Confined.updFz_stations c _ c.id fun _ => rfl)

theorem Confined.heldAt (c : Ctx) (w : Why) (s : State) : Confined c s (heldAt c w s) :=
  (Confined.updSt ..).trans (Confined.deselect ..)

theorem Confined.trapAt (c : Ctx) (cause : Cause) (d0 : Dword) (s : State) : Confined c s (trapAt c cause d0 s) := by
  rw [trapAt_eq]
  refine (Confined.updFz c s fun f n hn => ?_).trans (Confined.deselect ..)
  rw [Frieze.raised_stations, Frieze.updSt_get_ne f _ hn]

/-- A word with confined effects is confined on every outcome of its issue. -/
theorem issueWord_confined {i : Instr} {h : Hdr} {s : State} {c : Ctx} {body : Ctx → State → Eff} (hc : ctxOf s i h = some c)
    (ha : i.asksHead = false) (hb : ∀ c r, ∃ q, body c r = .done q true ∧ Confined c r q) :
    ∃ t, issueWord i h s body = .next t ∧ Confined c s t := by
  obtain ⟨q, hq, heff⟩ := hb c (beforeEffect c i s)
  unfold issueWord
  simp only [hc, hq]
  split
  · exact ⟨_, rfl, Confined.discardWord ..⟩
  split
  · exact ⟨_, rfl, Confined.trapAt ..⟩
  split
  · exact ⟨_, rfl, Confined.trapAt ..⟩
  split
  · exact ⟨_, rfl, Confined.heldAt ..⟩
  split
  · exact ⟨_, rfl, Confined.skipWord ..⟩
  · exact ⟨_, rfl, ((Confined.beforeEffect c i s).trans heff).trans (Confined.completeWord c i q true ha)⟩

/-! ### The words complete at issue that act on their station alone -/

/-- The word issues under a header of its own, takes no part of a request of the head, and its effects complete it and are confined. -/
def ConfinedWord (i : Instr) : Prop :=
  i.asksHead = false ∧ ∃ h, ∀ s, ∃ body, exec i s = issueWord i h s body ∧ ∀ c r, ∃ q, body c r = .done q true ∧ Confined c r q

theorem Confined.takeBranch (c : Ctx) (target : BitVec 52) (s : State) : Confined c s (takeBranch c target s) :=
  Confined.updFz_stations c s c.id fun _ => rfl

theorem Confined.branchIf (c : Ctx) (b : Bool) (target : BitVec 52) (s : State) :
    Confined c s (if b then Machine.takeBranch c target s else s) := by
  split
  · exact Confined.takeBranch c target s
  · exact Confined.refl c s

theorem Confined.setG (c : Ctx) (s : State) (d : Reg) (v : Dword) : Confined c s (c.setG s d v) := Confined.updSt ..

theorem Confined.stopUnit (c : Ctx) (s : State) (id : Nat) (why : Stop) (d : Option Cand) : Confined c s (stopUnit s id why d) := by
  refine Confined.foldl c (fun s a => Confined.updFz_stations c s a fun f => ?_) _ s
  split <;> rfl

/-- What YIELD does: its frieze's unit may be stopped (R384). -/
theorem Confined.yield (c : Ctx) (s : State) :
    Confined c s (if !c.isHead || leadsOrd s c.f || sameGang s c.id c.id then s
      else match yieldTo s c.id c.f with
        | some d => Machine.stopUnit s c.id .yield (some d)
        | none => s) := by
  split
  · exact Confined.refl c s
  · split
    · exact Confined.stopUnit ..
    · exact Confined.refl c s

theorem stationRow_confined {i : Instr} (hr : (Slice0.stationRow i).isSome = true) : ConfinedWord i := by
  unfold Slice0.stationRow at hr
  split at hr
  case h_1 h => exact ⟨rfl, h, fun s => ⟨_, rfl, fun c r => ⟨_, rfl, Confined.refl c r⟩⟩⟩
  case h_2 h => exact ⟨rfl, h, fun s => ⟨_, rfl, fun c r => ⟨_, rfl, Confined.yield c r⟩⟩⟩
  case h_3 h d a b cond => exact ⟨rfl, h, fun s => ⟨_, rfl, fun c r => ⟨_, rfl, Confined.updSt ..⟩⟩⟩
  case h_4 h d a b e m => exact ⟨rfl, h, fun s => ⟨_, rfl, fun c r => ⟨_, rfl, Confined.updSt ..⟩⟩⟩
  case h_5 h x a b =>
    exact ⟨rfl, h, fun s => ⟨_, rfl, fun c r => ⟨_, rfl, (Confined.setG c r a _).trans (Confined.setG c _ b _)⟩⟩⟩
  case h_6 h g sub k => exact ⟨rfl, h, fun s => ⟨_, rfl, fun c r => ⟨_, rfl, Confined.refl c r⟩⟩⟩
  case h_7 h mask => exact ⟨rfl, h, fun s => ⟨_, rfl, fun c r => ⟨_, rfl, Confined.refl c r⟩⟩⟩
  case h_8 h g set k => exact ⟨rfl, h, fun s => ⟨_, rfl, fun c r => ⟨_, rfl, Confined.updCounter c r k _⟩⟩⟩
  case h_9 => cases hr

theorem branchRow_confined {i : Instr} (hr : (Slice0.branchRow i).isSome = true) : ConfinedWord i := by
  unfold Slice0.branchRow at hr
  split at hr
  case h_1 h k kind off => exact ⟨rfl, h, fun s => ⟨_, rfl, fun c r => ⟨_, rfl, Confined.branchIf ..⟩⟩⟩
  case h_2 h k off =>
    exact ⟨rfl, h, fun s => ⟨_, rfl, fun c r => ⟨_, rfl, (Confined.setG c r k _).trans (Confined.branchIf ..)⟩⟩⟩
  case h_3 h k off =>
    exact ⟨rfl, h, fun s => ⟨_, rfl, fun c r => ⟨_, rfl, (Confined.setG c r k _).trans (Confined.branchIf ..)⟩⟩⟩
  case h_4 h k => exact ⟨rfl, h, fun s => ⟨_, rfl, fun c r => ⟨_, rfl, Confined.branchIf ..⟩⟩⟩
  case h_5 => cases hr

/-- A vote changes its frieze's vote alone (R313). -/
theorem voteWord_confined (i : Instr) (h : Hdr) (all : Bool) (p : BitVec 3) (off : BitVec 28) (s : State) :
    ∃ body, voteWord i h all p off s = issueWord i h s body ∧ ∀ c r, ∃ q, body c r = .done q true ∧ Confined c r q := by
  refine ⟨_, rfl, fun c r => ⟨_, rfl, Confined.updFz_stations c r c.id fun f => ?_⟩⟩
  split <;> rfl

theorem voteRow_confined {i : Instr} (hr : (Slice0.voteRow i).isSome = true) : ConfinedWord i := by
  unfold Slice0.voteRow at hr
  dsimp only at hr
  split at hr
  case h_1 h p off => exact ⟨rfl, h, voteWord_confined _ h false p off⟩
  case h_2 h p off => exact ⟨rfl, h, voteWord_confined _ h true p off⟩
  case h_3 => cases hr

theorem integerRow_confined {i : Instr} (hr : (Slice0.integerRow i).isSome = true) : ConfinedWord i := by
  obtain ⟨⟨h, d, row⟩, hr⟩ := Option.isSome_iff_exists.1 hr
  obtain ⟨ha, -, -, v, hv⟩ := integerRow_exec hr
  exact ⟨ha, h, fun s => ⟨_, congrFun hv s, fun c r => ⟨_, rfl, Confined.setG ..⟩⟩⟩

theorem plain_confined {i : Instr} (hp : Slice0.plain i = true) : ConfinedWord i := by
  simp only [Slice0.plain, Bool.or_eq_true] at hp
  obtain ((h | h) | h) | h := hp
  · exact stationRow_confined h
  · exact branchRow_confined h
  · exact voteRow_confined h
  · exact integerRow_confined h

/-- The header decides of a word's context neither the frieze nor the station. -/
theorem ctxOf_hdr {s : State} {i : Instr} {h : Hdr} {c : Ctx} (hc : ctxOf s i h = some c) (k : Hdr) :
    ∃ c', ctxOf s i k = some c' ∧ c'.id = c.id ∧ c'.st = c.st := by
  unfold ctxOf at hc ⊢
  split at hc
  · cases hc
  · split at hc
    · cases hc
    · split at hc
      · cases hc
        exact ⟨_, rfl, rfl, rfl⟩
      · cases hc

/-! ### Register files (R24) -/

theorem Station.rg_setG (x : Station) (d r : Reg) (v : Dword) :
    (x.setG d v).rg r = if r = 0 then 0 else if r = d then v else x.rg r := by
  unfold Station.rg Station.setG
  by_cases hr : r = 0
  · rw [if_pos hr, if_pos hr]
  · by_cases hd : d = 0
    · rw [if_pos hd, if_neg hr, if_neg hr, if_neg fun e => hr (e.trans hd)]
    · rw [if_neg hr, if_neg hr, if_neg hd, if_neg hr, Vector.getElem_set]
      simp only [BitVec.toNat_inj, @eq_comm _ d r]

theorem Station.rp_setP (x : Station) (d k : BitVec 3) (b : Bool) :
    (x.setP d b).rp k = if k = 0 then true else if k = d then b else x.rp k := by
  unfold Station.rp Station.setP
  by_cases hk : k = 0
  · rw [if_pos hk, if_pos hk]
  · by_cases hd : d = 0
    · rw [if_pos hd, if_neg hk, if_neg hk, if_neg fun e => hk (e.trans hd)]
    · rw [if_neg hk, if_neg hk, if_neg hd, if_neg hk, Vector.getElem_set]
      simp only [BitVec.toNat_inj, @eq_comm _ d k]

end Sys2Proof.Machine

namespace Sys2Proof.Slice0

open Machine

/-- Settles O2: each file is read where it was written or elsewhere, and g0 and p0 are neither. -/
theorem registerFiles : Obligations.RegisterFiles := by
  unfold Obligations.RegisterFiles
  refine ⟨fun x d r v => ?_, fun x d k b => ?_, fun x d k h => ?_, fun x d k v => ?_, fun x d k v => ?_⟩
  · exact Station.rg_setG x d r v
  · exact Station.rp_setP x d k b
  · simp [Station.rh, Station.setH, Vector.getElem_set, BitVec.toNat_inj, @eq_comm _ d k]
  · simp [Station.rv, Station.setV, Vector.getElem_set, BitVec.toNat_inj, @eq_comm _ d k]
  · simp [Station.rq, Station.setQ, Vector.getElem_set, BitVec.toNat_inj, @eq_comm _ d k]

/-- Settles O8: every word of the rows is confined to its station on every outcome of its issue, under its own header whatever header its
context is looked at with. -/
theorem plainFrame : Obligations.PlainFrame := by
  unfold Obligations.PlainFrame
  refine ⟨fun i s t hp ht => ?_, fun i h s c hp hi => ?_⟩ <;> obtain ⟨ha, k, hw⟩ := plain_confined hp <;> obtain ⟨body, he, hb⟩ := hw s
  · rw [he] at ht
    cases hc : ctxOf s i k with
    | none => simp [issueWord, hc] at ht
    | some c =>
      obtain ⟨u, hu, hconf⟩ := issueWord_confined hc ha hb
      obtain rfl : u = t := Host.Outcome.next.inj (hu.symm.trans ht)
      exact ⟨hconf.quiet, hconf.quiet.sameBytes⟩
  · obtain ⟨c', hc', hid, hst⟩ := ctxOf_hdr hi.ctx k
    obtain ⟨t, ht, hconf⟩ := issueWord_confined hc' ha hb
    exact ⟨t, he.trans ht, fun id st y hne hy => hconf.others id st y (by rwa [hid, hst]) hy⟩

end Sys2Proof.Slice0
end

section
/-! SUPPORT. The memories a state holds, and that every step keeps them in canonical form. -/

namespace Sys2Proof.Machine

/-- What a state holds in memories: the byte memory of each name, and every memory there is, of tiles, banks, HBM, staging and saves. -/
@[ext] structure Store where
  named : MemId → Memory
  held : Memory → Prop

/-- The store of the five fields that hold memories. -/
def Store.of (hbm sram staged : Memory) (tiles : Tab Tile) (jobs : Tab Job) : Store where
  named
    | .tile t => ((tiles.find t).getD Tile.reset).mem
    | .sram => sram
    | .hbm => hbm
  held m := (m = Memory.empty ∨ ∃ p ∈ tiles, p.2.mem = m) ∨ (∃ p ∈ jobs, ∃ q ∈ p.2.localSaves, q.2 = m) ∨
    m = hbm ∨ m = sram ∨ m = staged

/-- What a state holds in memories. -/
def State.store (s : State) : Store := Store.of s.hbm s.sram s.staged s.tiles s.jobs

@[simp] theorem Store.of_state (s : State) : Store.of s.hbm s.sram s.staged s.tiles s.jobs = s.store := by rfl

@[simp] theorem State.store_mk {cycles cur agenda turn free serial hbm sram bankJob tiles friezes kernels queues jobs domains chains
    engines reqs routes nodes out reserved rr moduleId torus portsLost portsFailed portsTrained result command waiting serving
    cmdWork cmdOvf apBase apJob apPhys msix ethDropped castWork castFrozen castFrozenBy life lifeFlash boot standby vstep clamp
    flash flashBroken staged} :
    (State.mk cycles cur agenda turn free serial hbm sram bankJob tiles friezes kernels queues jobs domains chains engines reqs
      routes nodes out reserved rr moduleId torus portsLost portsFailed portsTrained result command waiting serving cmdWork cmdOvf
      apBase apJob apPhys msix ethDropped castWork castFrozen castFrozenBy life lifeFlash boot standby vstep clamp flash
      flashBroken staged).store = Store.of hbm sram staged tiles jobs := by rfl

theorem Store.named_eq (s : State) : s.store.named = s.mem := by
  funext k
  cases k <;> rfl

@[simp] theorem State.store_ite (c : Prop) [Decidable c] (a b : State) :
    (if c then a else b).store = if c then a.store else b.store := apply_ite ..

@[simp] theorem State.store_dite (c : Prop) [Decidable c] (a : c → State) (b : ¬c → State) :
    (if h : c then a h else b h).store = if h : c then (a h).store else (b h).store := apply_dite ..

@[simp] theorem Tile.mem_ite (c : Prop) [Decidable c] (a b : Tile) : (if c then a else b).mem = if c then a.mem else b.mem :=
  apply_ite ..

@[simp] theorem Tile.mem_dite (c : Prop) [Decidable c] (a : c → Tile) (b : ¬c → Tile) :
    (if h : c then a h else b h).mem = if h : c then (a h).mem else (b h).mem := apply_dite ..

@[simp] theorem State.store_foldl {α : Type} {g : State → α → State} (hg : ∀ s a, (g s a).store = s.store) (l : List α) (s : State) :
    (l.foldl g s).store = s.store := by
  induction l generalizing s with
  | nil => rfl
  | cons a l ih => rw [List.foldl_cons, ih, hg]

@[simp] theorem Tile.mem_foldl {α : Type} {g : Tile → α → Tile} (hg : ∀ x a, (g x a).mem = x.mem) (l : List α) (x : Tile) :
    (l.foldl g x).mem = x.mem := by
  induction l generalizing x with
  | nil => rfl
  | cons a l ih => rw [List.foldl_cons, ih, hg]

/-! ### Memories in a table -/

section
variable {α : Type} {t : Tab α} {k : Nat} {v : α} (f : α → Memory → Prop)

/-- A value put in the place of one that has the same memories leaves the memories of a table as they are. -/
theorem Tab.exists_put {w : α} (hw : t.find k = some w) (hv : ∀ m, f v m ↔ f w m) (m : Memory) :
    (∃ p ∈ Tab.put t k v, f p.2 m) ↔ ∃ p ∈ t, f p.2 m := by
  induction t with
  | nil => simp at hw
  | cons q t ih =>
    obtain ⟨j, u⟩ := q
    rw [Tab.find_cons] at hw
    simp only [Tab.put]
    split
    next hlt =>
      rw [if_neg (by omega)] at hw
      have hm := Tab.mem_of_find hw
      constructor
      · rintro ⟨p, hp, hf⟩
        rcases List.mem_cons.1 hp with rfl | hp
        · exact ⟨_, List.mem_cons_of_mem _ hm, (hv m).1 hf⟩
        · exact ⟨p, hp, hf⟩
      · rintro ⟨p, hp, hf⟩
        exact ⟨p, List.mem_cons_of_mem _ hp, hf⟩
    next hlt =>
      split
      next heq =>
        rw [if_pos heq.symm] at hw
        cases hw
        simp [hv]
      next hne =>
        rw [if_neg (Ne.symm hne)] at hw
        simp [ih hw]

/-- A value added with memories all of which stand elsewhere. -/
theorem Tab.exists_put_none (hw : t.find k = none) (m : Memory) :
    (∃ p ∈ Tab.put t k v, f p.2 m) ↔ f v m ∨ ∃ p ∈ t, f p.2 m := by
  induction t with
  | nil => simp [Tab.put]
  | cons q t ih =>
    obtain ⟨j, u⟩ := q
    rw [Tab.find_cons] at hw
    simp only [Tab.put]
    split
    next hlt => simp
    next hlt =>
      split
      next heq => rw [if_pos heq.symm] at hw; cases hw
      next hne =>
        rw [if_neg (Ne.symm hne)] at hw
        simp [ih hw, or_left_comm]

end

/-- A tile replaced by one of the same memory. -/
@[simp] theorem State.setTile_store {s : State} {t : Nat} {x : Tile} (hx : x.mem = (s.tile t).mem) :
    (s.setTile t x).store = s.store := by
  refine Store.ext (funext fun k => ?_) (funext fun m => propext ?_)
  · cases k with
    | tile u =>
      change ((s.setTile t x).tile u).mem = (s.tile u).mem
      by_cases hu : u = t
      · rw [hu, State.tile_setTile_self, hx]
      · rw [State.tile_setTile_ne s x hu]
    | sram => rfl
    | hbm => rfl
  · have htiles : (m = Memory.empty ∨ ∃ p ∈ s.tiles.put t x, p.2.mem = m) ↔ m = Memory.empty ∨ ∃ p ∈ s.tiles, p.2.mem = m := by
      cases hw : s.tiles.find t with
      | some w =>
        rw [Tab.exists_put (fun x m => x.mem = m) hw]
        intro m
        rw [hx, State.tile, hw]
        rfl
      | none =>
        rw [Tab.exists_put_none (fun x m => x.mem = m) hw, hx, State.tile, hw]
        simp only [Option.getD_none, Tile.reset, @eq_comm _ Memory.empty m]
        tauto
    exact or_congr htiles Iff.rfl

/-- A tile changed but for its memory. -/
@[simp] theorem State.updTile_store {s : State} {t : Nat} {g : Tile → Tile} (hg : (g (s.tile t)).mem = (s.tile t).mem) :
    (s.updTile t g).store = s.store := State.setTile_store hg

/-- A job changed but for its saves. -/
@[simp] theorem State.updJob_store {s : State} {j : Nat} {g : Job → Job} (hg : ∀ y, (g y).localSaves = y.localSaves) :
    (s.updJob j g).store = s.store := by
  unfold State.updJob
  split
  · rfl
  next y hy =>
    refine Store.ext rfl (funext fun m => propext (or_congr Iff.rfl (or_congr ?_ Iff.rfl)))
    exact Tab.exists_put (fun (y : Job) m => ∃ q ∈ y.localSaves, q.2 = m) hy (by simp [hg]) m

end Sys2Proof.Machine
end

section
/-! SUPPORT. The operations that write no memory: each leaves what a state holds in memories as it was. -/

namespace Sys2Proof.Machine

/-- The tiles changed one by one but for their memories. -/
@[simp] theorem Store.of_mapTiles {hbm sram staged : Memory} {jobs : Tab Job} {g : Nat × Tile → Nat × Tile}
    (hg : ∀ k x, (g (k, x)).1 = k ∧ (g (k, x)).2.mem = x.mem) (tiles : Tab Tile) :
    Store.of hbm sram staged (tiles.map g) jobs = Store.of hbm sram staged tiles jobs := by
  refine Store.ext (funext fun k => ?_) (funext fun m => ?_)
  · cases k with
    | tile u =>
      change ((Tab.find (tiles.map g) u).getD Tile.reset).mem = ((Tab.find tiles u).getD Tile.reset).mem
      induction tiles with
      | nil => rfl
      | cons p l ih =>
        obtain ⟨j, x⟩ := p
        obtain ⟨hj, hx⟩ := hg j x
        rw [List.map_cons, show g (j, x) = (j, (g (j, x)).2) from Prod.ext hj rfl, Tab.find_cons, Tab.find_cons]
        split
        · exact hx
        · exact ih
    | sram => rfl
    | hbm => rfl
  · have htiles : (∃ p ∈ tiles.map g, p.2.mem = m) ↔ ∃ p ∈ tiles, p.2.mem = m := by
      constructor
      · rintro ⟨_, hp, rfl⟩
        obtain ⟨q, hq, rfl⟩ := List.mem_map.1 hp
        exact ⟨q, hq, (hg q.1 q.2).2.symm⟩
      · rintro ⟨q, hq, rfl⟩
        exact ⟨g q, List.mem_map_of_mem hq, (hg q.1 q.2).2⟩
    exact propext (or_congr (or_congr Iff.rfl htiles) Iff.rfl)

/-! ### Friezes, stations, ports and records -/

@[simp] theorem State.updFz_store (s : State) (id : Nat) (g : Frieze → Frieze) : (s.updFz id g).store = s.store := by
  unfold State.updFz
  split <;> simp

@[simp] theorem State.updSt_store (s : State) (id st : Nat) (g : Station → Station) :
    (s.updSt id st g).store = s.store := by simp [State.updSt]

@[simp] theorem State.takeFree_store (s : State) : s.takeFree.2.store = s.store := by rfl

@[simp] theorem State.takeBit_store (s : State) : s.takeBit.2.store = s.store := by rfl

@[simp] theorem State.updEngine_store (s : State) (die : Nat) (g : Engine → Engine) :
    (s.updEngine die g).store = s.store := by simp [State.updEngine]

@[simp] theorem State.emit_store (s : State) (m : Out) : (s.emit m).store = s.store := by rfl

@[simp] theorem State.bump_store (s : State) : s.bump.store = s.store := by rfl

@[simp] theorem State.updCtr_store (s : State) (t k : Nat) (g : Word → Word) :
    (s.updCtr t k g).store = s.store := by simp [State.updCtr]

@[simp] theorem State.updCounter_store (s : State) (id st : Nat) (k : BitVec 6) (g : Word → Word) :
    (s.updCounter id st k g).store = s.store := by
  unfold State.updCounter
  split <;> simp

@[simp] theorem State.addCount_store (s : State) (id st : Nat) (k : BitVec 6) (n : Word) :
    (s.addCount id st k n).store = s.store := by simp [State.addCount]

@[simp] theorem State.sigDone_store (s : State) (id st : Nat) (mode : BitVec 2) (k : BitVec 6) :
    (s.sigDone id st mode k).store = s.store := by simp [State.sigDone]

@[simp] theorem State.sigSector_store (s : State) (id st : Nat) (mode : BitVec 2) (k : BitVec 6) (n : Nat) :
    (s.sigSector id st mode k n).store = s.store := by simp [State.sigSector]

@[simp] theorem Tile.setIn_mem (x : Tile) (p : Nat) (v : InPort) : (Tile.setIn x p v).mem = x.mem := by simp [Tile.setIn]

@[simp] theorem Tile.setOut_mem (x : Tile) (p : Nat) (v : List Beat) : (Tile.setOut x p v).mem = x.mem := by simp [Tile.setOut]

@[simp] theorem State.portLevels_store (s0 s1 : State) (t : Nat) : (s0.portLevels s1 t).store = s1.store := by
  unfold State.portLevels
  refine State.store_foldl (fun s c => ?_) _ s1
  split
  next p q =>
    split
    · split
      · split <;> simp
      · simp
    · rfl

@[simp] theorem State.updPorts_store {s : State} {t : Nat} {g : Tile → Tile} (hg : (g (s.tile t)).mem = (s.tile t).mem) :
    (s.updPorts t g).store = s.store := by
  rw [State.updPorts, State.portLevels_store, State.updTile_store hg]

@[simp] theorem State.enterPort_store (s : State) (t p : Nat) (w : RawBeat) :
    (s.enterPort t p w).store = s.store := by simp [State.enterPort]

@[simp] theorem State.deliverPort_store (s : State) (t p u : Nat) (w : RawBeat) :
    (s.deliverPort t p u w).store = s.store := by simp [State.deliverPort]

@[simp] theorem State.unsend_store (s : State) (t : Nat) (uids : List Nat) :
    (s.unsend t uids).store = s.store := by simp [State.unsend]

@[simp] theorem State.unsendFz_store (s : State) (id : Nat) : (s.unsendFz id).store = s.store := by
  unfold State.unsendFz
  split
  · rfl
  · exact State.store_foldl (fun s p => by simp) _ s

@[simp] theorem State.popOut_store (s : State) (t o : Nat) : (s.popOut t o).store = s.store := by simp [State.popOut]

@[simp] theorem State.retireAt_store (s : State) (id u st : Nat) : (s.retireAt id u st).store = s.store := by
  unfold State.retireAt
  split <;> simp

@[simp] theorem State.retire_store (s : State) (id u : Nat) : (s.retire id u).store = s.store := by
  unfold State.retire
  split <;> simp

@[simp] theorem State.raiseMsix_store (s : State) (v : Nat) : (s.raiseMsix v).store = s.store := by rfl

@[simp] theorem State.raise_store (s : State) (id st : Nat) (cause : Cause) (slot : Option Nat) (d0 d1 d2 : Dword) :
    (s.raise id st cause slot d0 d1 d2).store = s.store := by simp [State.raise]

@[simp] theorem State.addFault_store (s : State) (id st : Nat) (slot : Option Nat) (cause : Cause) (d0 d1 d2 : Dword) :
    (s.addFault id st slot cause d0 d1 d2).store = s.store := by simp [State.addFault]

@[simp] theorem State.freezeFz_store (s : State) (id : Nat) (cause : Cause) (addr : Dword) :
    (s.freezeFz id cause addr).store = s.store := by simp [State.freezeFz]

@[simp] theorem State.faultSlot_store (s : State) (id st k : Nat) (v : Viol) (form : Dword) :
    (s.faultSlot id st k v form).store = s.store := by
  unfold State.faultSlot
  split <;> simp

@[simp] theorem Ctx.setG_store (c : Ctx) (s : State) (r : Reg) (v : Dword) :
    (Ctx.setG c s r v).store = s.store := by simp [Ctx.setG]

@[simp] theorem Ctx.upd_store (c : Ctx) (s : State) (g : Station → Station) : (Ctx.upd c s g).store = s.store := by simp [Ctx.upd]

@[simp] theorem State.deselect_store (s : State) : s.deselect.store = s.store := by rfl

@[simp] theorem heldAt_store (c : Ctx) (w : Why) (s : State) : (heldAt c w s).store = s.store := by simp [heldAt]

@[simp] theorem consumeWait_store (c : Ctx) (i : Instr) (s : State) : (consumeWait c i s).store = s.store := by
  simp [consumeWait]
  split <;> simp

@[simp] theorem advance_store (c : Ctx) (s : State) : (advance c s).store = s.store := by simp [advance]

@[simp] theorem discardWord_store (c : Ctx) (s : State) : (discardWord c s).store = s.store := by simp [discardWord]

@[simp] theorem applyResult_store (s : State) (id st : Nat) (r : Result) :
    (applyResult s id st r).store = s.store := by simp [applyResult]

@[simp] theorem takeHeadPart_store (c : Ctx) (s : State) : (takeHeadPart c s).store = s.store := by
  unfold takeHeadPart
  (repeat' split) <;> simp

@[simp] theorem trapAt_store (c : Ctx) (cause : Cause) (d0 : Dword) (s : State) :
    (trapAt c cause d0 s).store = s.store := by simp [trapAt]

@[simp] theorem violAt_store (c : Ctx) (cause : Cause) (addr : Dword) (s : State) :
    (violAt c cause addr s).store = s.store := by simp [violAt]

@[simp] theorem beforeEffect_store (c : Ctx) (i : Instr) (s : State) :
    (beforeEffect c i s).store = s.store := by simp [beforeEffect]

@[simp] theorem completeWord_store (c : Ctx) (i : Instr) (s : State) (now : Bool) :
    (completeWord c i s now).store = s.store := by simp [completeWord]

@[simp] theorem skipWord_store (c : Ctx) (i : Instr) (s : State) : (skipWord c i s).store = s.store := by simp [skipWord]

@[simp] theorem Ctx.request_store (c : Ctx) (s : State) (kind : ReqKind) (dst : Option Reg) :
    (Ctx.request c s kind dst).store = s.store := by rfl

@[simp] theorem Ctx.headRequest_store (c : Ctx) (s : State) (kind : ReqKind) (dstG : Option Reg) (dstV : Option (BitVec 3)) :
    (Ctx.headRequest c s kind dstG dstV).store = s.store := by simp [Ctx.headRequest]

@[simp] theorem headSignal_store (s : State) (id : Nat) (f : Frieze) (r : HeadReq) (st : Nat) :
    (headSignal s id f r st).store = s.store := by simp [headSignal]

@[simp] theorem headResult_store (s : State) (id lane : Nat) (v : Result) : (headResult s id lane v).store = s.store := by
  unfold headResult
  (repeat' split) <;> simp

@[simp] theorem applyLate_store (s : State) (id : Nat) : (applyLate s id).store = s.store := by
  unfold applyLate
  split
  · rfl
  · rw [State.updFz_store]
    refine State.store_foldl (fun s r => ?_) _ s
    split
    · split <;> simp
    · rfl

@[simp] theorem State.finishReq_store (s : State) (k : Nat) (v : Result) : (s.finishReq k v).store = s.store := by
  unfold State.finishReq
  (repeat' split) <;> simp

@[simp] theorem State.failReq_store (s : State) (k : Nat) (v : Viol) (addr : Dword) : (s.failReq k v addr).store = s.store := by
  unfold State.failReq
  (repeat' split) <;> simp

/-! ### Versioned memory -/

@[simp] theorem State.updDom_store (s : State) (job dom : Nat) (g : Domain → Domain) : (s.updDom job dom g).store = s.store := by
  unfold State.updDom
  split <;> simp

@[simp] theorem State.updRec_store (s : State) (job dom txid : Nat) (g : TxRec → TxRec) :
    (s.updRec job dom txid g).store = s.store := by simp [State.updRec]

@[simp] theorem State.notePages_store (s : State) (job dom : Nat) :
    (s.notePages job dom).store = s.store := by simp [State.notePages]

@[simp] theorem State.dropUnversioned_store (s : State) : s.dropUnversioned.store = s.store := by simp [State.dropUnversioned]

@[simp] theorem State.setChain_store (s : State) (line : Nat) (c : Chain) : (s.setChain line c).store = s.store := by rfl

@[simp] theorem State.dropIntents_store (s : State) (job dom txid : Nat) (which : Nat → Bool) :
    (s.dropIntents job dom txid which).store = s.store := by rfl

@[simp] theorem State.endClaims_store (s : State) (job dom txid : Nat) : (s.endClaims job dom txid).store = s.store := by rfl

@[simp] theorem State.doom_store (s : State) (job dom txid : Nat) (code : Nat) : (s.doom job dom txid code).store = s.store := by
  unfold State.doom
  split <;> simp

@[simp] theorem State.register_store (s : State) (job dom fz view : Nat) (datum : BitVec 48) :
    (s.register job dom fz view datum).store = s.store := by simp [State.register]

@[simp] theorem State.unregister_store (s : State) (job fz view : Nat) : (s.unregister job fz view).store = s.store := by rfl

@[simp] theorem State.returnReq_store (s : State) (k : Nat) (v : Result) : (s.returnReq k v).store = s.store := by
  unfold State.returnReq
  split <;> simp

@[simp] theorem State.putNode_store (s : State) (k : Nat) (n : FwdNode) : (s.putNode k n).store = s.store := by rfl

@[simp] theorem State.forward_store (s : State) (node cls src : Nat) : (s.forward node cls src).2.store = s.store := by
  simp [State.forward]
  (repeat' split) <;> simp

@[simp] theorem State.poolWait_store (s : State) (job dom line txid u : Nat) :
    (s.poolWait job dom line txid u).store = s.store := by simp [State.poolWait]

@[simp] theorem State.poolGo_store (s : State) (job dom u : Nat) : (s.poolGo job dom u).store = s.store := by simp [State.poolGo]

@[simp] theorem makeIntent_store (s : State) (job dom txid line off : Nat) (bs : List Byte) (claim : Bool) (u : Nat) :
    (makeIntent s job dom txid line off bs claim u).store = s.store := by simp [makeIntent]

/-- The state a write or claim at a line leaves: the one it was asked in where it faults. -/
def LineWrite.state (s : State) : LineWrite → State
  | .done t _ | .wait t => t
  | .fault _ => s

/-- A write or claim that needs an intent of its own: it waits for a pool entry or for a forwarding slot, or makes the intent. -/
theorem LineWrite.create_store {s w : State} {σ : Store} {room : Prop} [Decidable room] {g : Bool × State} (hg : g.2.store = σ)
    (hw : w.store = σ) (job dom txid line off : Nat) (bs : List Byte) (claim : Bool) (u : Nat) :
    ((if room then if g.1 = true then LineWrite.done (makeIntent g.2 job dom txid line off bs claim u) true else .wait g.2
      else .wait w).state s).store = σ := by
  split
  · split <;> simp [LineWrite.state, hg]
  · exact hw

/-- The forwarding slot a new intent takes, where its controller does not hold one of the transaction yet. -/
theorem State.forward_unless_store (s : State) (c : Prop) [Decidable c] (node cls src : Nat) :
    (if c then (true, s) else s.forward node cls src).2.store = s.store := by
  split <;> simp

theorem writeLine_store (s : State) (job : Nat) (v : View) (dom line off : Nat) (bs : List Byte) (claim : Bool) (u : Nat) :
    ((writeLine s job v dom line off bs claim u).state s).store = s.store := by
  unfold writeLine
  extract_lets txid
  split
  · rfl
  split
  · rfl
  split
  · rfl
  split
  · rfl

  extract_lets create
  have hcreate (t : State) : ((create t).state s).store = t.store :=
    LineWrite.create_store (State.forward_unless_store ..) (by simp) ..
  clear_value create
  split
  · split
    · simp [LineWrite.state]
    split
    · rfl
    split
    · simp [LineWrite.state]
    split
    · rw [hcreate, State.setChain_store]
    split
    · simp [LineWrite.state]
    · rw [hcreate]
      split <;> simp
  · split
    · simp [LineWrite.state]
    · exact hcreate s

@[simp] theorem State.freeRec_store (s : State) (job dom txid : Nat) :
    (s.freeRec job dom txid).store = s.store := by simp [State.freeRec]

@[simp] theorem State.finishRec_store (s : State) (job dom txid : Nat) (code : Nat) (cnum : BitVec 48) :
    (s.finishRec job dom txid code cnum).store = s.store := by
  simp [State.finishRec]
  (repeat' split) <;> simp

@[simp] theorem State.settleNum_store (s : State) (job dom : Nat) (c : BitVec 48) :
    (s.settleNum job dom c).store = s.store := by simp [State.settleNum]

@[simp] theorem commitAtHome_store (s : State) (job dom txid : Nat) : (commitAtHome s job dom txid).store = s.store := by
  unfold commitAtHome
  (repeat' split) <;> simp

@[simp] theorem markPublishing_store (s : State) (job dom txid ctrl : Nat) (n : BitVec 48) :
    (markPublishing s job dom txid ctrl n).store = s.store := by rfl

@[simp] theorem reclaim_store (s : State) (job dom : Nat) (lwm : BitVec 48) : (reclaim s job dom lwm).store = s.store := by rfl

@[simp] theorem expire_store (s : State) (job dom : Nat) (x : BitVec 48) : (expire s job dom x).store = s.store := by
  simp [expire]
  split <;> simp

@[simp] theorem gatherWrites_store (c : Ctx) (txid : BitVec 24) (s : State) : (gatherWrites c txid s).store = s.store := by rfl

@[simp] theorem respondSnap_store (s : State) (k : Nat) (r : Req) (dom : Nat) (v : BitVec 3) :
    (respondSnap s k r dom v).store = s.store := by
  simp [respondSnap]
  split <;> simp

@[simp] theorem respondUnsnap_store (s : State) (k : Nat) (r : Req) (v : BitVec 3) :
    (respondUnsnap s k r v).store = s.store := by simp [respondUnsnap]

@[simp] theorem respondTxbegin_store (s : State) (k : Nat) (r : Req) (dom : Nat) (v : BitVec 3) (age : Bool) :
    (respondTxbegin s k r dom v age).store = s.store := by
  simp [respondTxbegin]
  split <;> simp

@[simp] theorem afterFinish_store (s : State) (r : Req) (v : BitVec 3) (x : TxRec) : (afterFinish s r v x).1.store = s.store := by
  unfold afterFinish
  split <;> simp

@[simp] theorem respondTxcommit_store (s : State) (k : Nat) (r : Req) (dom txid : Nat) (v : BitVec 3) (a : Option Reg) :
    (respondTxcommit s k r dom txid v a).store = s.store := by
  unfold respondTxcommit
  split <;> simp

@[simp] theorem respondTxabort_store (s : State) (k : Nat) (r : Req) (dom txid : Nat) (v : BitVec 3) :
    (respondTxabort s k r dom txid v).store = s.store := by
  unfold respondTxabort
  (repeat' split) <;> simp

@[simp] theorem respondTxstat_store (s : State) (k : Nat) (r : Req) (dom txid : Nat) (a : Option Reg) :
    (respondTxstat s k r dom txid a).store = s.store := by
  unfold respondTxstat
  split <;> simp

@[simp] theorem respondClaim_store (s : State) (k : Nat) (r : Req) (v : View) (base : Dword) (sh : Shape) (n : Nat) (any : Bool) :
    (respondClaim s k r v base sh n any).store = s.store := by
  unfold respondClaim
  dsimp only
  split
  · simp
  · split
    · simp
    · split
      · simp
      · split
        · simp
        next p _ =>
          split
          · simp
          next d _ =>
            have hwrite := writeLine_store s r.job v d (p.addr / 128) 0 [] true r.uid
            split
            · simp
            · split
              · simp
              · split
                next heq =>
                  rw [heq] at hwrite
                  simpa [LineWrite.state] using hwrite
                next heq =>
                  rw [heq] at hwrite
                  exact hwrite
                · simp

/-! ### Ports -/

@[simp] theorem loadView_store (s : State) (c : Ctx) (x : BitVec 3) (v : View) :
    (loadView s c x v).store = s.store := by simp [loadView]

/-! ### Releases -/

@[simp] theorem Tile.idle_mem (x : Tile) (cols outs ks : List Nat) : (Tile.idle x cols outs ks).mem = x.mem := by simp [Tile.idle]

@[simp] theorem Tile.release_mem (x : Tile) (id : Nat) : (Tile.release x id).mem = x.mem := by simp [Tile.release]

@[simp] theorem releaseRecs_store (s : State) (job : Nat) (mine : TxRec → Bool) :
    (releaseRecs s job mine).store = s.store := by simp [releaseRecs]

@[simp] theorem releaseRegs_store (s : State) (job id : Nat) : (releaseRegs s job id).store = s.store := by rfl

@[simp] theorem State.releaseFz_store (s : State) (id : Nat) : (s.releaseFz id).store = s.store := by
  unfold State.releaseFz
  split
  · rfl
  · split <;> simp

@[simp] theorem exitSignals_store (s : State) (id : Nat) : (exitSignals s id).store = s.store := by
  unfold exitSignals
  split
  · rfl
  · refine State.store_foldl (fun s p => ?_) _ s
    obtain ⟨x, st⟩ := p
    dsimp only
    split
    · split <;> simp
    · rfl

@[simp] theorem settleExit_store (s : State) (id : Nat) : (settleExit s id).store = s.store := by
  unfold settleExit
  split <;> simp

@[simp] theorem State.completeSlot_store (s : State) (id st k : Nat) : (s.completeSlot id st k).store = s.store := by
  unfold State.completeSlot
  split <;> simp

/-! ### Accesses -/

@[simp] theorem State.enterNodes_store (s : State) (u job tile : Nat) (l : List (Dword × Int × Nat × Access)) :
    (s.enterNodes u job tile l).2.store = s.store := by
  induction l generalizing s with
  | nil => rfl
  | cons e l ih =>
    obtain ⟨f, a, z, k⟩ := e
    unfold State.enterNodes
    split
    · exact ih s
    · split
      · exact ih s
      · dsimp only
        generalize (if k = .atomic then 2 else 0) = cls
        split
        · rw [ih, State.forward_store]
        · exact State.forward_store ..

@[simp] theorem State.updSlot_store (s : State) (id st k : Nat) (g : Slot → Slot) :
    (s.updSlot id st k g).store = s.store := by simp [State.updSlot]

@[simp] theorem Ctx.takeSlot_store (c : Ctx) (s : State) (k : BitVec 4) (q : Slot) (extra : List Nat) :
    (Ctx.takeSlot c s k q extra).store = s.store := by simp [Ctx.takeSlot]

/-! ### The array -/

@[simp] theorem Tile.updCtx_mem (x : Tile) (k : Nat) (g : MaqCtx → MaqCtx) :
    (Tile.updCtx x k g).mem = x.mem := by simp [Tile.updCtx]

@[simp] theorem Tile.updCol_mem (x : Tile) (c : Nat) (g : Col → Col) : (Tile.updCol x c g).mem = x.mem := by simp [Tile.updCol]

@[simp] theorem Tile.setLink_mem (x : Tile) (key : Nat) (ts : List Tok) : (Tile.setLink x key ts).mem = x.mem := by rfl

@[simp] theorem Tile.send_mem (x : Tile) (k col : Nat) (to_ : Option (Nat × Nat)) (ts : List Tok) :
    (Tile.send x k col to_ ts).mem = x.mem := by
  unfold Tile.send
  split <;> simp

@[simp] theorem releasePort_store (s : State) (t p : Nat) : (releasePort s t p).store = s.store := by simp [releasePort]

@[simp] theorem pullPort_store (s : State) (t p : Nat) : (pullPort s t p).store = s.store := by
  unfold pullPort
  dsimp only
  split
  · split
    · simp
    · rw [State.updPorts_store (by simp), releasePort_store]
  · simp

@[simp] theorem popInput_store (s : State) (t k idx : Nat) (sel : Sel) : (popInput s t k idx sel).store = s.store := by
  simp [popInput]
  (repeat' split) <;> simp

@[simp] theorem regionFault_store (s : State) (t k col slot rule : Nat) : (regionFault s t k col slot rule).store = s.store := by
  simp [regionFault]
  (repeat' split) <;> simp

@[simp] theorem Tile.settleCtx_mem (x : Tile) (k : Nat) : (Tile.settleCtx x k).mem = x.mem := by simp [Tile.settleCtx]

@[simp] theorem Tile.settleAll_mem (x : Tile) : (Tile.settleAll x).mem = x.mem := by simp [Tile.settleAll]

@[simp] theorem addSigs_store (s : State) (sigs : List Sig) : (addSigs s sigs).store = s.store := by simp [addSigs]

@[simp] theorem switchedTo_store (s : State) (t k part : Nat) : (switchedTo s t k part).store = s.store := by simp [switchedTo]

@[simp] theorem Tile.turnCol_mem (x : Tile) (c : Nat) (new : Option Nat) :
    (Tile.turnCol x c new).mem = x.mem := by simp [Tile.turnCol]

@[simp] theorem Tile.beginSys_mem (x : Tile) (k c : Nat) : (Tile.beginSys x k c).mem = x.mem := by
  unfold Tile.beginSys
  split <;> simp

@[simp] theorem switchCol_store (s : State) (t c target : Nat) : (switchCol s t c target).store = s.store := by
  unfold switchCol
  split <;> simp

@[simp] theorem switchOut_store (s : State) (t o target : Nat) : (switchOut s t o target).store = s.store := by simp [switchOut]

@[simp] theorem applyFire_store (s : State) (t k col slot : Nat) (o : StageOp) (g : Fired) :
    (applyFire s t k col slot o g).store = s.store := by simp [applyFire]

@[simp] theorem writePend_store (s : State) (t k col slot : Nat) : (writePend s t k col slot).store = s.store := by
  simp [writePend]
  split <;> simp

@[simp] theorem pullFor_store (s : State) (t : Nat) (o : StageOp) : (pullFor s t o).store = s.store := by simp [pullFor]

@[simp] theorem Tile.takeMark_mem (x : Tile) (k col slot : Nat) (o : StageOp) (mk : Tok) :
    (Tile.takeMark x k col slot o mk).mem = x.mem := by simp [Tile.takeMark]

@[simp] theorem columnTakes_store (s : State) (t k col : Nat) (ops : List (Nat × StageOp)) (mk : Tok) :
    (columnTakes s t k col ops mk).store = s.store := by
  unfold columnTakes
  split <;> simp

@[simp] theorem flushBins_store (s : State) (t col slot : Nat) (o : StageOp) (mk : Tok) :
    (flushBins s t col slot o mk).store = s.store := by
  unfold flushBins
  split <;> simp

@[simp] theorem injectedTaken_store (s : State) (t k col : Nat) : (injectedTaken s t k col).store = s.store := by
  simp [injectedTaken]
  (repeat' split) <;> simp

@[simp] theorem markerAt_store (s : State) (t k col slot : Nat) (o : StageOp) : (markerAt s t k col slot o).store = s.store := by
  simp [markerAt]
  (repeat' split) <;> simp

@[simp] theorem State.pushOut_store (s : State) (t o : Nat) (bs : List Beat) :
    (s.pushOut t o bs).store = s.store := by simp [State.pushOut]

@[simp] theorem settleDrains_store (s : State) (t k : Nat) : (settleDrains s t k).store = s.store := by simp [settleDrains]

@[simp] theorem drainOut_store (s : State) (t k o : Nat) : (drainOut s t k o).store = s.store := by simp [drainOut]

@[simp] theorem injectMark_store (s : State) (t k : Nat) (ports cols : List Nat) (mk : Tok) :
    (injectMark s t k ports cols mk).store = s.store := by simp [injectMark]

@[simp] theorem injectAll_store (s : State) (t k : Nat) (mk : Tok) : (injectAll s t k mk).store = s.store := by simp [injectAll]

/-! ### Control of the array -/

@[simp] theorem endLoad_store (s : State) (l : Load) (sectors : Nat) : (endLoad s l sectors).store = s.store := by simp [endLoad]

@[simp] theorem failLoad_store (s : State) (t k : Nat) (l : Load) (sectors : Nat) (back : Bool) (v : Viol) (d0 : Dword) :
    (failLoad s t k l sectors back v d0).store = s.store := by simp [failLoad]

@[simp] theorem Tile.loaded_mem (x : Tile) (k id : Nat) (m : Maq) : (Tile.loaded x k id m).mem = x.mem := by simp [Tile.loaded]

@[simp] theorem sweepFrom_store (s : State) (t j : Nat) (m : Maq) (ks : List Nat) :
    (sweepFrom s t j m ks).store = s.store := by simp [sweepFrom]

@[simp] theorem goCtx_store (s : State) (t j : Nat) (sig : Option Sig) : (goCtx s t j sig).store = s.store := by simp [goCtx]

@[simp] theorem Tile.hold_mem (x : Tile) (fs : List Nat) (u : Nat) : (Tile.hold x fs u).mem = x.mem := by rfl

@[simp] theorem Tile.letGo_mem (x : Tile) (u : Nat) : (Tile.letGo x u).mem = x.mem := by rfl

@[simp] theorem Tile.setAcc_mem (x : Tile) (lane col k : Nat) (v : Word × Bool) : (Tile.setAcc x lane col k v).mem = x.mem := by rfl

@[simp] theorem Tile.setImage_mem (x : Tile) (k first last : Nat) (bs : List Byte) :
    (Tile.setImage x k first last bs).mem = x.mem := by simp [Tile.setImage]

/-! ### Branches and exits -/

@[simp] theorem takeBranch_store (c : Ctx) (target : BitVec 52) (s : State) :
    (takeBranch c target s).store = s.store := by simp [takeBranch]

/-! ### Streams -/

@[simp] theorem State.putSlot_store (s : State) (id st k : Nat) (p : Slot × Nat) :
    (s.putSlot id st k p).store = s.store := by simp [State.putSlot]

@[simp] theorem State.endSlot_store (s : State) (id st k : Nat) : (s.endSlot id st k).store = s.store := by
  unfold State.endSlot
  split <;> simp

@[simp] theorem popIdx_store (s : State) (id st k tile n : Nat) : (popIdx s id st k tile n).store = s.store := by
  induction n generalizing s with
  | zero => rfl
  | succ n ih =>
    unfold popIdx
    split
    · rfl
    dsimp only
    split
    · rfl
    split
    · rfl
    split
    · split <;> simp
    split
    · simp [ih]
    split
    · rfl
    split
    · rfl
    split
    · simp [ih]
    · rfl

@[simp] theorem deliver_store (s : State) (id st k tile : Nat) (w : RawBeat) (f : Fill) :
    (deliver s id st k tile w f).store = s.store := by
  unfold deliver
  split <;> simp

@[simp] theorem settleRun_store (s : State) (id st k tile : Nat) : (settleRun s id st k tile).store = s.store := by
  simp [settleRun]
  (repeat' split) <;> simp

@[simp] theorem readFault_store (s : State) (id st k : Nat) (sts : List Nat) (v : Viol) (form : Dword) :
    (readFault s id st k sts v form).store = s.store := by simp [readFault]

@[simp] theorem readBeat_store (s : State) (f : Frieze) (id st k : Nat) (q : Slot) (sts : List Nat) :
    (readBeat s f id st k q sts).store = s.store := by
  unfold readBeat
  extract_lets tile idx r ends room fin sideAt side
  have hfin (t : State) (l : List Nat) : (fin t l).store = t.store := by
    simp only [fin]
    split
    · simp
    · split
      · exact State.store_foldl (fun t n => by simp) _ t
      · rfl
  clear_value fin side room ends r idx
  split
  · rfl
  rename_i faulted _ _
  clear_value faulted
  split
  · rfl
  split
  · split
    · split
      · rw [hfin]
        exact State.store_foldl (fun t n => by simp) _ s
      · rfl
    · split
      · simp
      · exact hfin s sts
  split
  · rfl
  split
  · rfl
  · simp
  · extract_lets w s1 sparse
    have hs1 : s1.store = s.store := State.store_foldl (fun t n => by simp) _ s
    split
    · rw [readFault_store, hs1]
    · rw [hfin, State.store_foldl (fun t n => by simp), hs1]

@[simp] theorem passElem_store (s : State) (id st k tile : Nat) (q : Slot) :
    (passElem s id st k tile q).store = s.store := by simp [passElem]

@[simp] theorem afterElem_store (s : State) (id st k tile : Nat) (q : Slot) (a : Option Int) :
    (afterElem s id st k tile q a).store = s.store := by
  unfold afterElem
  cases a with
  | none | some a =>
    dsimp only
    split
    · simp
    · split <;> simp

@[simp] theorem oldOrNew_store (snap : Tab Byte) (s : State) (a : Nat) (bs : List Byte) :
    (oldOrNew snap s a bs).2.store = s.store := by
  induction bs generalizing s a with
  | nil => rfl
  | cons b bs ih =>
    unfold oldOrNew
    split
    · exact ih s (a + 1)
    · exact (ih _ (a + 1)).trans (s.takeBit_store)

@[simp] theorem recurBeat_store (s : State) (f : Frieze) (id st k : Nat) (q : Slot) :
    (recurBeat s f id st k q).store = s.store := by
  simp [recurBeat]
  split <;> simp

@[simp] theorem castStep_store (s : State) (f : Frieze) (id st k : Nat) (q : Slot) : (castStep s f id st k q).store = s.store := by
  unfold castStep
  dsimp only
  split
  · rfl
  split
  · split
    · split
      · simp
      · split <;> simp
    · rfl
  split
  · rfl
  split
  · simp
  split <;> simp

@[simp] theorem endAt_store (s : State) (f : Frieze) (id st k : Nat) (q : Slot) (cause : BitVec 8) :
    (endAt s f id st k q cause).store = s.store := by simp [endAt]

@[simp] theorem readAhead_store (s : State) (f : Frieze) (id st k : Nat) (q : Slot) (d : Nat) :
    (readAhead s f id st k q d).store = s.store := by
  unfold readAhead
  extract_lets tile n dsts uid beats room
  clear_value room dsts
  split
  · rfl
  next at? _ =>
    clear_value at?
    split
    · split
      · simp
      · rw [State.store_foldl (fun s t => by simp), State.updSlot_store]
    · rfl

@[simp] theorem Ctx.takeDone_store (c : Ctx) (s : State) (k : BitVec 4) (q : Slot) :
    (Ctx.takeDone c s k q).store = s.store := by simp [Ctx.takeDone]

theorem runSlot_store {go : State → Frieze → Slot → State} (hgo : ∀ s f q, (go s f q).store = s.store) (s : State)
    (fz st slot : Nat) (mine : SKind → Bool) : (runSlot s fz st slot mine go).store = s.store := by
  unfold runSlot
  split
  · rfl
  split
  · rfl
  dsimp only
  split
  · exact hgo ..
  · rfl

/-! ### Ordering and signals -/

@[simp] theorem Ctx.addHold_store (c : Ctx) (s : State) (h : Hold) : (Ctx.addHold c s h).store = s.store := by simp [Ctx.addHold]

@[simp] theorem abortIdle_store (s : State) (x : Station) (slot : BitVec 4) : (abortIdle s x slot).2.store = s.store := by
  unfold abortIdle
  split <;> simp

@[simp] theorem abortCast_store (s : State) (f : Frieze) (id st k : Nat) (q : Slot) :
    (abortCast s f id st k q).store = s.store := by simp [abortCast]

@[simp] theorem releaseSlot_store (fz st slot : Nat) (s : State) : (releaseSlot fz st slot s).store = s.store := by
  refine runSlot_store (fun s f q => ?_) s fz st slot _
  dsimp only
  split
  · simp
  split <;> simp

@[simp] theorem atomReturn_store (s : State) (id st k : Nat) (q : Slot) (old : Dword) :
    (atomReturn s id st k q old).store = s.store := by simp [atomReturn]

/-! ### Routes and owner ranges -/

@[simp] theorem bindRoute_store (s : State) (src : Nat) (r : Route) : (bindRoute s src r).2.store = s.store := by
  unfold bindRoute
  extract_lets job taken away
  split
  · rfl
  split
  · rfl
  split
  · rfl
  split
  · rfl
  next c c' b src' _ _ _ _ =>
    have hb : b.2.store = s.store := by
      simp only [b]
      split
      · rfl
      split <;> rfl
    dsimp only
    split <;> exact hb

@[simp] theorem bindHostRoutes_store (s : State) (job head l : Nat) : (bindHostRoutes s job head l).store = s.store := by
  unfold bindHostRoutes
  split <;> simp

@[simp] theorem respondRoute_store (s : State) (k : Nat) (r : Req) (o : Nat) (w : Dword) (mc : Bool) :
    (respondRoute s k r o w mc).store = s.store := by simp [respondRoute]

@[simp] theorem respondUnroute_store (s : State) (k : Nat) (r : Req) (o : Nat) (sent : Option (List (Nat × Nat) × Bool)) :
    (respondUnroute s k r o sent).store = s.store := by
  unfold respondUnroute
  (repeat' split) <;> simp

@[simp] theorem joinGroup_store (s : State) (job tile i g fz : Nat) : (joinGroup s job tile i g fz).2.store = s.store := by
  unfold joinGroup
  (repeat' split) <;> simp

@[simp] theorem respondMcjoin_store (s : State) (k : Nat) (r : Req) (i g : Nat) (leave : Bool) :
    (respondMcjoin s k r i g leave).store = s.store := by
  simp [respondMcjoin]
  (repeat' split) <;> simp

@[simp] theorem respondOwncfg_store (s : State) (k : Nat) (r : Req) (g : OwnerRange) :
    (respondOwncfg s k r g).store = s.store := by simp [respondOwncfg]

@[simp] theorem endRoute_store (s : State) (k : Nat) (r : Route) : (endRoute s k r).store = s.store := by simp [endRoute]

@[simp] theorem loseRoutes_store (s : State) (port : Nat) : (loseRoutes s port).store = s.store := by simp [loseRoutes]

@[simp] theorem farBeat_store (s : State) (k : Nat) (r : Route) (b : Beat) : (farBeat s k r b).store = s.store := by simp [farBeat]

@[simp] theorem nearBeat_store (s : State) (k : Nat) (r : Route) (b : Beat) :
    (nearBeat s k r b).store = s.store := by simp [nearBeat]

@[simp] theorem routeBeat_store (s : State) (k : Nat) (r : Route) : (routeBeat s k r).store = s.store := by
  unfold routeBeat
  split <;> simp

@[simp] theorem rebindOne_store (s : State) (id : Nat) (f : Frieze) (k : Nat) (w : Dword) (mc : Bool) :
    (rebindOne s id f k w mc).2.store = s.store := by
  unfold rebindOne
  split <;> simp

@[simp] theorem rebindRoutes_store (s : State) (id : Nat) : (rebindRoutes s id).store = s.store := by
  unfold rebindRoutes
  split <;> simp

@[simp] theorem freeBeat_store (s : State) : (freeBeat s).2.store = s.store := by rfl

/-! ### The routing engine -/

@[simp] theorem doneEngine_store (s : State) (k die : Nat) (res : Option (Reg × Dword)) :
    (doneEngine s k die res).store = s.store := by simp [doneEngine]

@[simp] theorem State.tellGroup_store (s : State) (die : Nat) (c : ErCfg) (m : ExchangeMsg) :
    (s.tellGroup die c m).store = s.store := by simp [State.tellGroup]

/-! ### Systolic regions -/

@[simp] theorem Tile.updCell_mem (x : Tile) (l c : Nat) (g : Cell → Cell) : (Tile.updCell x l c g).mem = x.mem := by rfl

@[simp] theorem Tile.updRun_mem (x : Tile) (f : Nat) (g : SysRun → SysRun) : (Tile.updRun x f g).mem = x.mem := by
  unfold Tile.updRun
  split <;> simp

@[simp] theorem settleRect_store (s : State) (t f : Nat) : (settleRect s t f).store = s.store := by
  unfold settleRect
  (repeat' split) <;> simp

@[simp] theorem receiveDescriptor_store (s : State) (u : Nat) (p : SysAt) (east : Bool) (id : Nat × Nat) :
    (receiveDescriptor s u p east id).store = s.store := by simp [receiveDescriptor]

@[simp] theorem sendDescriptor_store (s : State) (t : Nat) (q : SysAt) (east : Bool) (own : Nat × Nat) :
    (sendDescriptor s t q east own).store = s.store := by
  unfold sendDescriptor
  extract_lets u g id y
  split
  · rfl
  extract_lets n' bad
  have hbad : bad.store = s.store := by
    simp only [bad]
    split <;> simp
  clear_value bad
  split
  · split
    · rfl
    · exact hbad
  next p _ =>
    split
    · rfl
    by_cases hback : (if east then p.run.west else p.run.north) = some id
    · rw [if_pos hback]
    rw [if_neg hback]
    split
    · exact hbad
    split
    · rfl
    generalize (if east then p.run.north else p.run.west) = other?
    split
    · simp
    split
    · simp
    extract_lets from_ settled s1
    clear_value settled
    split
    · rfl
    · have hs1 : s1.store = s.store := by simp [s1]
      clear_value s1
      generalize (if east then p.r.first else 15) = col
      split <;> simp [hs1]

@[simp] theorem State.popIn_store (s : State) (t p : Nat) : (s.popIn t p).store = s.store := by simp [State.popIn]

@[simp] theorem passWords_store (s : State) (t : Nat) (q : SysAt) (l c : Nat) (a : Rec) (bs : List Rec) :
    (passWords s t q l c a bs).store = s.store := by simp [passWords]

@[simp] theorem takeStep_store (s : State) (t : Nat) (q : SysAt) (l c : Nat) (b : Beat) (o : Ctl) :
    (takeStep s t q l c b o).store = s.store := by
  simp [takeStep]
  (repeat' split) <;> simp

@[simp] theorem endOp_store (s : State) (t l c : Nat) (b : Beat) (o : Ctl) : (endOp s t l c b o).store = s.store := by simp [endOp]

@[simp] theorem Tile.isat_mem (x : Tile) (c : Nat) (b : Bool) : (Tile.isat x c b).mem = x.mem := by simp [Tile.isat]

@[simp] theorem dropEos_store (s : State) (t : Nat) (ports : List Nat) : (dropEos s t ports).store = s.store := by
  refine State.store_foldl (fun s p => ?_) _ s
  split
  · split <;> simp
  · rfl

@[simp] theorem regionTakes_store (s : State) (t : Nat) (q : SysAt) (ports : List Nat) (mk : Tok) :
    (regionTakes s t q ports mk).store = s.store := by
  simp [regionTakes]
  split <;> simp

/-! ### Saves -/

@[simp] theorem drainTile_store (s : State) (id t : Nat) : (drainTile s id t).store = s.store := by simp [drainTile]

@[simp] theorem drainFz_store (s : State) (id : Nat) : (drainFz s id).store = s.store := by
  unfold drainFz
  split <;> simp

@[simp] theorem sysDrain_store (s : State) (ids : List Nat) : (sysDrain s ids).store = s.store := by
  unfold sysDrain
  extract_lets fs took
  refine State.store_foldl (fun s e => ?_) fs s
  obtain ⟨t, q, d⟩ := e
  cases d with
  | left => rfl
  | taken =>
    dsimp only
    rw [State.pushOut_store]
    exact State.store_foldl (fun s p => by simp) _ s
  | stands => simp

@[simp] theorem Tile.leave_mem (x : Tile) (id : Nat) : (Tile.leave x id).mem = x.mem := by simp [Tile.leave]

@[simp] theorem Tile.restore_mem (x : Tile) (v : TileSave) : (Tile.restore x v).mem = x.mem := by simp [Tile.restore]

@[simp] theorem saveParts_store (s : State) (id : Nat) : (saveParts s id).store = s.store := by
  unfold saveParts
  split <;> simp

@[simp] theorem dropFetched_store (s : State) (head : Nat) : (dropFetched s head).store = s.store := by rfl

@[simp] theorem resumeFz_store (s : State) (id head slot : Nat) : (resumeFz s id head slot).store = s.store := by
  unfold resumeFz
  split <;> simp

/-! ### Work-lists -/

@[simp] theorem State.setList_store (s : State) (job id : Nat) (w : WorkList) :
    (s.setList job id w).store = s.store := by simp [State.setList]

@[simp] theorem homeNew_store (s : State) (k : Nat) (r : Req) (id : Nat) (desc : Dword) :
    (homeNew s k r id desc).store = s.store := by
  simp [homeNew]
  (repeat' split) <;> simp

/-! ### Scheduling -/

@[simp] theorem State.updQueue_store (s : State) (n : Nat) (g : Queue → Queue) : (s.updQueue n g).store = s.store := by rfl

@[simp] theorem unreserve_store (s : State) (c : Cand) : (unreserve s c).store = s.store := by rfl

@[simp] theorem placeNew_store (s : State) (k head slot startAt : Nat) : (placeNew s k head slot startAt).store = s.store := by
  unfold placeNew
  split <;> simp

@[simp] theorem startKernel_store (s : State) (n : Nat) (q : Queue) (j : Nat) (r : Record) :
    (startKernel s n q j r).1.store = s.store := by simp [startKernel]

@[simp] theorem placeUnit_store (s : State) (ms : List Member) (ps : List (Nat × Nat)) : (placeUnit s ms ps).store = s.store := by
  refine State.store_foldl (fun s e => ?_) _ s
  obtain ⟨m, p⟩ := e
  dsimp only
  split
  · rfl
  · rw [resumeFz_store]
    split <;> simp

@[simp] theorem stopUnit_store (s : State) (id : Nat) (why : Stop) (c : Option Cand) :
    (stopUnit s id why c).store = s.store := by simp [stopUnit]

@[simp] theorem purgeKernel_store (s : State) (k : Nat) (q : Kernel) : (purgeKernel s k q).store = s.store := by simp [purgeKernel]

/-! ### Control registers and masters -/

@[simp] theorem csrWrite_store (s : State) (c : Ctx) (n : BitVec 12) (v : Dword) : (csrWrite s c n v).store = s.store := by
  unfold csrWrite
  split <;> simp

@[simp] theorem thawSaved_store (s : State) (id : Nat) : (thawSaved s id).store = s.store := by
  unfold thawSaved
  split <;> simp

/-! ### The core's own steps -/

@[simp] theorem countHold_store (s : State) (id st : Nat) : (countHold s id st).store = s.store := by simp [countHold]

@[simp] theorem State.select_store (s : State) (id st : Nat) : (s.select id st).store = s.store := by rfl

/-! ### The clock -/

@[simp] theorem State.tick_store (s : State) : s.tick.store = s.store := by rfl

/-! ### Samples -/

@[simp] theorem cntClear_store (s : State) (c : Ctx) (n : Nat) : (cntClear s c n).store = s.store := by simp [cntClear]

@[simp] theorem dropSample_store (s : State) (job : Nat) : (dropSample s job).store = s.store := by simp [dropSample]

/-! ### Traps -/

@[simp] theorem freeEntry_store (s : State) (job : Nat) (i : Option Nat) : (freeEntry s job i).store = s.store := by
  unfold freeEntry
  split <;> simp

@[simp] theorem endByTrap_store (s : State) (id : Nat) (cause : Cause) : (endByTrap s id cause).store = s.store := by
  unfold endByTrap
  split <;> simp

@[simp] theorem dropHandler_store (s : State) (id : Nat) : (dropHandler s id).store = s.store := by
  simp [dropHandler]
  (repeat' split) <;> simp

@[simp] theorem answerAborts_store (s : State) (id : Nat) (old : Frieze) : (answerAborts s id old).store = s.store := by
  unfold answerAborts
  refine State.store_foldl (fun s p => ?_) _ s
  obtain ⟨x, st⟩ := p
  refine State.store_foldl (fun s k => ?_) _ s
  dsimp only
  split
  · rfl
  · split
    · refine State.store_foldl (fun s p => ?_) _ s
      simp
    · rfl

/-- The jobs changed one by one but for their saves. -/
@[simp] theorem Store.of_mapJobs {hbm sram staged : Memory} {tiles : Tab Tile} {g : Nat × Job → Nat × Job}
    (hg : ∀ k x, (g (k, x)).2.localSaves = x.localSaves) (jobs : Tab Job) :
    Store.of hbm sram staged tiles (jobs.map g) = Store.of hbm sram staged tiles jobs := by
  refine Store.ext rfl (funext fun m => propext (or_congr Iff.rfl (or_congr ?_ Iff.rfl)))
  have h (p : Nat × Job) : (g p).2.localSaves = p.2.localSaves := hg p.1 p.2
  simp only [List.mem_map, exists_exists_and_eq_and, h]

@[simp] theorem resumeTrapped_store (s : State) (v : Nat) (f : Frieze) (bs : List Byte) :
    (resumeTrapped s v f bs).store = s.store := by simp [resumeTrapped]

/-! ### The module -/

@[simp] theorem State.keepLife_store (s : State) : s.keepLife.store = s.store := by rfl

@[simp] theorem countCheck_store (s : State) : (countCheck s).store = s.store := by rfl

@[simp] theorem failPairs_store (s : State) (which : Nat → QueuePair → Bool) : (failPairs s which).store = s.store := by
  simp [failPairs]

@[simp] theorem refuseRdma_store (s : State) (qp : Nat) : (refuseRdma s qp).store = s.store := by simp [refuseRdma]

end Sys2Proof.Machine
end

section
/-! SUPPORT. Requests answered by engines and homes: what the end of a request leaves as it is, and each answer. -/

namespace Sys2Proof.Machine

/-! ### What the end of a request leaves as it is -/

/-- Versioned memory, the jobs, and the in-ports and memberships of every tile stay. -/
structure Apart (s t : State) : Prop where
  domains : t.domains = s.domains
  jobs : t.jobs = s.jobs
  inp : ∀ u, (t.tile u).inp = (s.tile u).inp
  member : ∀ u, (t.tile u).member = (s.tile u).member

theorem Apart.refl (s : State) : Apart s s := ⟨rfl, rfl, fun _ => rfl, fun _ => rfl⟩

theorem Apart.trans {s t r : State} (a : Apart s t) (b : Apart t r) : Apart s r :=
  ⟨b.domains.trans a.domains, b.jobs.trans a.jobs, fun u => (b.inp u).trans (a.inp u), fun u => (b.member u).trans (a.member u)⟩

theorem Quiet.apart {s t : State} (q : Quiet s t) : Apart s t := by
  refine ⟨by rw [q.rest], by rw [q.rest], fun u => ?_, fun u => ?_⟩ <;>
  · obtain ⟨e, he⟩ := q.tiles u
    rw [he]

theorem Apart.dom? {s t : State} (a : Apart s t) (job dom : Nat) : t.dom? job dom = s.dom? job dom := by
  rw [State.dom?, a.domains, State.dom?]

theorem Apart.rec? {s t : State} (a : Apart s t) (job dom txid : Nat) : t.rec? job dom txid = s.rec? job dom txid := by
  rw [State.rec?, a.dom?, State.rec?]

theorem Apart.list? {s t : State} (a : Apart s t) (job id : Nat) : t.list? job id = s.list? job id := by
  rw [State.list?, State.job?, a.jobs, State.list?, State.job?]

theorem Apart.inPort {s t : State} (a : Apart s t) (u p : Nat) : (t.tile u).inPort p = (s.tile u).inPort p := by
  rw [Tile.inPort, Tile.inPort, a.inp]

/-- Every station stays, with its g registers and its faults. -/
structure Stands (s t : State) : Prop where
  station : ∀ {id st x}, s.station? id st = some x → ∃ y, t.station? id st = some y ∧ y.g = x.g ∧ y.faults = x.faults

theorem Stands.refl (s : State) : Stands s s := ⟨fun h => ⟨_, h, rfl, rfl⟩⟩

theorem Stands.trans {s t r : State} (a : Stands s t) (b : Stands t r) : Stands s r := by
  refine ⟨fun h => ?_⟩
  obtain ⟨y, hy, hg, hf⟩ := a.station h
  obtain ⟨z, hz, hg', hf'⟩ := b.station hy
  exact ⟨z, hz, hg'.trans hg, hf'.trans hf⟩

theorem Stands.of_friezes {s t : State} (h : t.friezes = s.friezes) : Stands s t :=
  ⟨fun hx => ⟨_, by rw [State.station?, h]; exact hx, rfl, rfl⟩⟩

theorem Stands.addCount (s : State) (id st : Nat) (k : BitVec 6) (n : Word) : Stands s (s.addCount id st k n) := by
  refine ⟨fun h => ?_⟩
  obtain ⟨e, he⟩ := State.updCounter_station s id st k (· + n) h
  exact ⟨_, he, rfl, rfl⟩

theorem Stands.foldl {α : Type} {g : State → α → State} (hg : ∀ s a, Stands s (g s a)) (l : List α) (s : State) :
    Stands s (l.foldl g s) := by
  induction l generalizing s with
  | nil => exact Stands.refl s
  | cons a l ih => exact (hg s a).trans (ih _)

theorem Quiet.foldl {α : Type} {g : State → α → State} (hg : ∀ s a, Quiet s (g s a)) (l : List α) (s : State) :
    Quiet s (l.foldl g s) := by
  induction l generalizing s with
  | nil => exact Quiet.refl s
  | cons a l ih => exact (hg s a).trans (ih _)

/-- A frieze changed but for its stations. -/
theorem Stands.updFz {s : State} {id : Nat} {g : Frieze → Frieze} (hg : ∀ f, (g f).stations = f.stations) :
    Stands s (s.updFz id g) := by
  refine ⟨fun {i j x} h => ⟨x, ?_, rfl, rfl⟩⟩
  unfold State.station? at h ⊢
  by_cases hi : i = id
  · subst hi
    cases hf : s.friezes.find i with
    | none => simp [hf] at h
    | some f =>
      rw [hf] at h
      rw [State.updFz_find hf]
      simpa [hg] using h
  · rwa [State.updFz_find_ne _ _ hi]

theorem Quiet.updCtr (s : State) (t k : Nat) (g : Word → Word) : Quiet s (s.updCtr t k g) :=
  ⟨rfl, State.updCtr_tile s t k g⟩

theorem Stands.updCtr (s : State) (t k : Nat) (g : Word → Word) : Stands s (s.updCtr t k g) := Stands.of_friezes rfl

/-! ### The end of an access -/

theorem Stands.retireAt (s : State) (id u st : Nat) : Stands s (s.retireAt id u st) := by
  unfold State.retireAt
  split
  · exact Stands.refl s
  next x hx =>
    refine Stands.trans ?_ (Stands.foldl (fun s g => Stands.addCount ..) ..)
    refine ⟨fun {i j y} hy => ?_⟩
    by_cases h : i = id ∧ j = st
    · obtain ⟨rfl, rfl⟩ := h
      rw [hx] at hy
      cases hy
      exact ⟨_, State.updSt_station hx _, rfl, rfl⟩
    · exact ⟨y, by rw [State.updSt_station_ne _ _ (by tauto)]; exact hy, rfl, rfl⟩

theorem Quiet.retireAt (s : State) (id u st : Nat) : Quiet s (s.retireAt id u st) := by
  unfold State.retireAt
  split
  · exact Quiet.refl s
  · exact (Quiet.updSt ..).trans (Quiet.foldl (fun s g => Quiet.addCount ..) ..)

theorem Tab.find_map {α β : Type} {g : Nat × α → Nat × β} (hg : ∀ p, (g p).1 = p.1) (t : Tab α) (k : Nat) :
    Tab.find (t.map g) k = (t.find k).map fun v => (g (k, v)).2 := by
  induction t with
  | nil => rfl
  | cons p t ih =>
    obtain ⟨j, v⟩ := p
    rw [List.map_cons, show g (j, v) = (j, (g (j, v)).2) from Prod.ext (hg _) rfl, Tab.find_cons, Tab.find_cons, ih]
    split
    next h => rw [h]; rfl
    · rfl

/-- The tiles changed one by one but for their in-ports and memberships. -/
theorem Apart.mapTiles {s : State} {g : Nat × Tile → Nat × Tile} {reqs : Tab Req}
    (hg : ∀ p, (g p).1 = p.1 ∧ (g p).2.inp = p.2.inp ∧ (g p).2.member = p.2.member) :
    Apart s { s with reqs := reqs, tiles := s.tiles.map g } := by
  have tile u : (Tab.find (s.tiles.map g) u).getD Tile.reset = ((s.tiles.find u).map fun v => (g (u, v)).2).getD Tile.reset := by
    rw [Tab.find_map fun p => (hg p).1]
  refine ⟨rfl, rfl, fun u => ?_, fun u => ?_⟩ <;>
  · simp only [State.tile, tile]
    cases s.tiles.find u with
    | none => rfl
    | some x => simp [hg (u, x)]

theorem Apart.retire (s : State) (id u : Nat) : Apart s (s.retire id u) := by
  unfold State.retire
  split
  · exact Apart.refl s
  · exact (Quiet.foldl (fun s st => Quiet.retireAt s id u st) _ s).apart.trans (Apart.mapTiles fun _ => ⟨rfl, rfl, rfl⟩)

theorem Stands.retire (s : State) (id u : Nat) : Stands s (s.retire id u) := by
  unfold State.retire
  split
  · exact Stands.refl s
  · exact (Stands.foldl (fun s st => Stands.retireAt s id u st) _ s).trans (Stands.of_friezes rfl)

/-! ### The end of a request -/

theorem Quiet.headSignal (s : State) (id : Nat) (f : Frieze) (r : HeadReq) (st : Nat) : Quiet s (headSignal s id f r st) := by
  unfold Machine.headSignal
  split
  · split
    · exact Quiet.addCount ..
    · exact Quiet.updCtr ..
  · exact Quiet.refl s

theorem Quiet.headResult (s : State) (id lane : Nat) (v : Result) : Quiet s (headResult s id lane v) := by
  unfold Machine.headResult
  split
  · exact Quiet.refl s
  · split
    · exact Quiet.refl s
    · dsimp only
      split
      · exact Quiet.refl s
      · split
        · exact (Quiet.foldl (fun s st => (Quiet.applyResult ..).trans (Quiet.headSignal ..)) _ s).trans (Quiet.updFz ..)
        · refine Quiet.trans ?_ (Quiet.updFz ..)
          split
          · exact Quiet.foldl (fun s st => Quiet.headSignal ..) _ s
          · exact Quiet.refl s

theorem Apart.of_reqs (s : State) (reqs : Tab Req) : Apart s { s with reqs := reqs } := ⟨rfl, rfl, fun _ => rfl, fun _ => rfl⟩

/-- The signal a station's own request adds when it completes. -/
theorem Quiet.ownSignal (s : State) (r : Req) : Quiet s (if r.sigMode = 1 then
    if r.sigK.toNat < 32 then s.addCount r.fz r.st r.sigK 1 else s.updCtr r.tile (r.sigK.toNat - 32) (· + 1) else s) := by
  split
  · split
    · exact Quiet.addCount ..
    · exact Quiet.updCtr ..
  · exact Quiet.refl s

theorem Stands.ownSignal (s : State) (r : Req) : Stands s (if r.sigMode = 1 then
    if r.sigK.toNat < 32 then s.addCount r.fz r.st r.sigK 1 else s.updCtr r.tile (r.sigK.toNat - 32) (· + 1) else s) := by
  split
  · split
    · exact Stands.addCount ..
    · exact Stands.updCtr ..
  · exact Stands.refl s

theorem Apart.finishReq (s : State) (k : Nat) (v : Result) : Apart s (s.finishReq k v) := by
  unfold State.finishReq
  split
  · exact Apart.refl s
  · refine (Apart.of_reqs s (s.reqs.del k)).trans (Apart.trans ?_ (Apart.retire ..))
    split
    · exact (Quiet.headResult ..).apart
    · exact ((Quiet.applyResult ..).trans (Quiet.ownSignal ..)).apart

theorem Apart.returnReq (s : State) (k : Nat) (v : Result) : Apart s (s.returnReq k v) := by
  unfold State.returnReq
  split
  · exact Apart.refl s
  · split
    · exact Apart.finishReq ..
    · exact Apart.of_reqs ..

/-- The register a station's own request writes when it completes (R270). -/
theorem finishReq_register {s : State} {k : Nat} {r : Req} {x : Station} {a : Reg} {v : Dword} (hr : s.reqs.find k = some r)
    (hl : r.lane = none) (hx : s.station? r.fz r.st = some x) :
    ∃ y, (s.finishReq k ⟨some (a, v), none⟩).station? r.fz r.st = some y ∧ y.g = (x.setG a v).g := by
  have hw := State.updSt_station (s := { s with reqs := s.reqs.del k }) hx fun x => x.setG a v
  obtain ⟨y, hy, hg, -⟩ := ((Stands.ownSignal _ r).trans (Stands.retire _ r.fz r.uid)).station hw
  refine ⟨y, ?_, hg⟩
  simp only [State.finishReq, hr, hl]
  exact hy

/-- The state with a request that is to fail taken out of the table and, for one of the head, out of its frieze. -/
def State.dropReq (s : State) (k : Nat) (r : Req) : State :=
  match r.lane with
  | some n => ({ s with reqs := s.reqs.del k } : State).updFz r.fz fun f => { f with reqs := f.reqs.filter fun q => q.lane != n }
  | none => { s with reqs := s.reqs.del k }

theorem Stands.dropReq (s : State) (k : Nat) (r : Req) : Stands s (s.dropReq k r) := by
  unfold State.dropReq
  split
  · exact Stands.trans (t := { s with reqs := s.reqs.del k }) (Stands.of_friezes rfl) (Stands.updFz fun _ => rfl)
  · exact Stands.of_friezes rfl

theorem failReq_eq {s : State} {k : Nat} {r : Req} (hr : s.reqs.find k = some r) (v : Viol) (addr : Dword) :
    s.failReq k v addr =
      let s2 := ((s.dropReq k r).addFault r.fz r.st none v.cause addr 0 0).retire r.fz r.uid
      if v.freeze then s2.freezeFz r.fz v.cause addr else s2 := by
  simp only [State.failReq, hr]
  rfl

/-- A request that fails leaves a fault of its cause at its station (R196). -/
theorem failReq_fault {s : State} {k : Nat} {r : Req} {x : Station} {v : Viol} {addr : Dword} (hr : s.reqs.find k = some r)
    (hx : s.station? r.fz r.st = some x) :
    ∃ y, (s.failReq k v addr).station? r.fz r.st = some y ∧ ∃ p ∈ y.faults, p.cause = v.cause := by
  obtain ⟨x1, hx1, -, -⟩ := (Stands.dropReq s k r).station hx
  have hf := State.updSt_station hx1 fun x => { x with faults := x.faults ++ [⟨none, v.cause, (s.dropReq k r).serial, addr, 0, 0⟩] }
  have hs : Stands ((s.dropReq k r).addFault r.fz r.st none v.cause addr 0 0) (s.failReq k v addr) := by
    rw [failReq_eq hr]
    refine (Stands.retire _ r.fz r.uid).trans ?_
    dsimp only
    split
    · exact Stands.updFz fun f => by split <;> rfl
    · exact Stands.refl _
  obtain ⟨y, hy, -, hy'⟩ := hs.station hf
  exact ⟨y, hy, _, by rw [hy']; exact List.mem_append_right _ (List.mem_singleton.2 rfl), rfl⟩

/-! ### A request at its unit -/

theorem engineResponse_eq {s : State} {k : Nat} {r : Req} {f : Frieze} {x : Station} (hu : Slice0.AtUnit s k r f x)
    (hs : r.unsent s = false) (hl : homeLost s k r = none) : exec (.engineResponse k) s = .next (answer s k r) := by
  change execEngineResponse k s = _
  have hon : s.onTile r.fz = true := by simp [State.onTile, hu.fz.fz, hu.on]
  simp [execEngineResponse, hu.req, hu.ready, hs, hu.alone, hu.fresh, hl, hon, hu.fz.fz, hu.on]

theorem homeLost_of_reachable {s : State} {k : Nat} {r : Req} (h : Slice0.homeUp s r (r.dom s)) : homeLost s k r = none := by
  rw [Slice0.homeUp] at h
  simp [homeLost, h]

/-! ### Domains -/

theorem State.dom?_updDom {s : State} {job dom : Nat} {d : Domain} (h : s.dom? job dom = some d) (g : Domain → Domain) :
    (s.updDom job dom g).dom? job dom = some (g d) := by
  rw [State.updDom, h]
  exact Tab.find_put_self ..

theorem State.rec?_updRec {s : State} {job dom txid : Nat} {q : TxRec} (h : s.rec? job dom txid = some q) (g : TxRec → TxRec) :
    (s.updRec job dom txid g).rec? job dom txid = some (g q) := by
  obtain ⟨d, hd, hf⟩ := Option.bind_eq_some_iff.1 h
  rw [State.rec?, State.updRec, State.dom?_updDom hd, hf]
  exact Tab.find_put_self ..

theorem State.dom?_unregister (s : State) (job fz view k dom : Nat) :
    (s.unregister job fz view).dom? k dom = (s.dom? k dom).map fun d =>
      if domKey k dom / 64 = job then { d with regs := d.regs.filter fun r => !(r.fz == fz && r.view == view) } else d := by
  rw [State.dom?, State.unregister, Tab.find_map]
  · congr 1
    funext d
    dsimp only
    split <;> rfl
  · rintro ⟨j, d⟩
    dsimp only
    split <;> rfl

/-- The end of a registration changes no record. -/
theorem State.rec?_unregister (s : State) (job fz view k dom txid : Nat) :
    (s.unregister job fz view).rec? k dom txid = s.rec? k dom txid := by
  rw [State.rec?, State.dom?_unregister, State.rec?]
  cases s.dom? k dom with
  | none => rfl
  | some d =>
    simp only [Option.map_some, Option.bind_some]
    split <;> rfl

theorem mem_register {s : State} {job dom : Nat} {d : Domain} (h : s.dom? job dom = some d) (fz view : Nat) (datum : BitVec 48) :
    ∃ d', (s.register job dom fz view datum).dom? job dom = some d' ∧ d'.recs = d.recs ∧ ⟨fz, view, datum, false, 1⟩ ∈ d'.regs :=
  ⟨_, State.dom?_updDom h _, rfl, List.mem_append_right _ (List.mem_singleton.2 rfl)⟩

/-! ### SNAP, TXBEGIN and TXABORT -/

/-- SNAP takes a registration at PUBLISHED (R257, R271). -/
theorem snap_registers {k dom : Nat} {v : BitVec 3} {r : Req} {f : Frieze} {x : Station} {d : Domain} {s : State}
    (hu : Slice0.AtUnit s k r f x) (hk : r.kind = .snap dom v) (hh : Slice0.homeUp s r dom)
    (hd : (Slice0.givenUp s r v false).dom? r.job dom = some d) (hn : d.regCount < 16384) :
    ∃ t d', exec (.engineResponse k) s = .next t ∧ t.dom? r.job dom = some d' ∧
      ⟨r.fz, v.toNat, d.published, false, 1⟩ ∈ d'.regs := by
  have hans : answer s k r = ((Slice0.givenUp s r v false).register r.job dom r.fz v.toNat d.published).returnReq k
      ⟨none, some (v, ⟨d.published, false, true, false, 0⟩)⟩ := by
    have h := hd
    simp only [Slice0.givenUp, Bool.false_and, Bool.false_eq_true, if_false] at h ⊢
    simp only [answer, hk, respondSnap, h, if_neg (Nat.not_le.2 hn)]
  obtain ⟨d', hd', -, hm⟩ := mem_register hd r.fz v.toNat d.published
  refine ⟨_, d', engineResponse_eq hu (by simp [Req.unsent, hk]) (homeLost_of_reachable (by rwa [Req.dom, hk])), ?_, hm⟩
  rw [hans, (Apart.returnReq ..).dom?, hd']

/-- TXBEGIN takes an ACTIVE record at PUBLISHED, with its registration (R257, R272). -/
theorem txbegin_takes_record {k dom : Nat} {v : BitVec 3} {r : Req} {f : Frieze} {x : Station} {d : Domain} {s : State}
    (hu : Slice0.AtUnit s k r f x) (hk : r.kind = .txbegin dom v false) (hh : Slice0.homeUp s r dom)
    (hd : (Slice0.givenUp s r v true).dom? r.job dom = some d) (hn : d.regCount < 16384) (hr : d.recs.length < 4096) :
    ∃ t d' n, exec (.engineResponse k) s = .next t ∧ t.dom? r.job dom = some d' ∧
      d'.recs.find n = some (newRec d.published (some r.fz) none) ∧ ⟨r.fz, v.toNat, d.published, false, 1⟩ ∈ d'.regs := by
  set n := firstFree d.recs 1 4097 with hn'
  have hans : answer s k r = (((Slice0.givenUp s r v true).updDom r.job dom fun e =>
      { e with recs := e.recs.put n (newRec e.published (some r.fz) none) }).register r.job dom r.fz v.toNat d.published).returnReq k
      ⟨none, some (v, ⟨d.published, true, true, false, BitVec.ofNat 24 n⟩)⟩ := by
    have h := hd
    simp only [answer, hk, respondTxbegin, Slice0.givenUp] at h ⊢
    cases hv : viewRec s r.job (headView s r.fz v) <;>
    · simp only [hv, Option.map_some, Option.map_none, Option.getD_some, Option.getD_none, Bool.true_and, Bool.not_false,
        Bool.and_true, Bool.false_eq_true, if_false] at h ⊢
      simp only [h, decide_eq_false (Nat.not_le.2 hr), decide_eq_false (Nat.not_le.2 hn), Bool.or_false, Bool.false_eq_true, if_false]
      rfl
  obtain ⟨d', hd', hrecs, hm⟩ := mem_register (State.dom?_updDom hd _) r.fz v.toNat d.published
  refine ⟨_, d', n, engineResponse_eq hu (by simp [Req.unsent, hk]) (homeLost_of_reachable (by rwa [Req.dom, hk])), ?_, ?_, hm⟩
  · rw [hans, (Apart.returnReq ..).dom?, hd']
  · rw [hrecs]
    exact Tab.find_put_self ..

/-- An ACTIVE record whose owner has not ended is finished and stays in its domain (R258). -/
theorem rec?_finishRec {s : State} {job dom txid : Nat} {q : TxRec} (hq : s.rec? job dom txid = some q) (hk : Slice0.kept s q)
    (code : Nat) (cnum : BitVec 48) : (s.finishRec job dom txid code cnum).rec? job dom txid =
      some { q with state := .finished, code := code, cnum := cnum } := by
  set s1 := (s.dropIntents job dom txid fun _ => true).updRec job dom txid fun r =>
    { r with state := .finished, code := code, cnum := cnum } with hs1
  have h1 : s1.rec? job dom txid = some { q with state := .finished, code := code, cnum := cnum } :=
    State.rec?_updRec (s := s.dropIntents job dom txid fun _ => true) hq _
  have hfz : s1.friezes = s.friezes := by
    rw [hs1, State.updRec, State.updDom]
    split <;> rfl
  have hfin : s.finishRec job dom txid code cnum = s1 := by
    rw [State.finishRec, ← hs1]
    simp only [h1]
    cases ho : q.ownerFz with
    | none => rfl
    | some o =>
      obtain ⟨f, hf, hne⟩ := hk o ho
      simp only [hfz, hf, if_neg hne]
  rw [hfin, h1]

/-- TXABORT ends an ACTIVE record with code 4 (R258, R274). -/
theorem txabort_ends_active {k dom txid : Nat} {v : BitVec 3} {r : Req} {f : Frieze} {x : Station} {q : TxRec} {s : State}
    (hu : Slice0.AtUnit s k r f x) (hk : r.kind = .txabort dom txid v) (hh : Slice0.homeUp s r dom)
    (hq : s.rec? r.job dom txid = some q) (ha : q.state = .active) (hkept : Slice0.kept s q) :
    ∃ t, exec (.engineResponse k) s = .next t ∧ t.rec? r.job dom txid = some { q with state := .finished, code := 4, cnum := 0 } := by
  refine ⟨_, engineResponse_eq hu (by simp [Req.unsent, hk]) (homeLost_of_reachable (by rwa [Req.dom, hk])), ?_⟩
  simp only [answer, hk, respondTxabort, hq, ha]
  rw [(Apart.returnReq ..).rec?, ← rec?_finishRec hq hkept 4 0, afterFinish]
  split
  · exact State.rec?_unregister ..
  · rfl

/-! ### MCJOIN -/

/-- MCJOIN joins and writes status 0 to its register (R360). -/
theorem mcjoin_joins {k i g : Nat} {a : Reg} {r : Req} {f : Frieze} {x : Station} {s : State} (hu : Slice0.AtUnit s k r f x)
    (hk : r.kind = .mcjoin i g false) (hl : r.lane = none) (hd : r.dst = some a) (hfree : (s.tile r.tile).member.find i = none)
    (hroom : (groupMembers s r.job g).length < 64) :
    ∃ t y, exec (.engineResponse k) s = .next t ∧ (t.tile r.tile).member.find i = some (g, r.fz) ∧
      t.station? r.fz r.st = some y ∧ y.rg a = 0 := by
  set s1 := s.updTile r.tile fun x => { x with member := x.member.put i (g, r.fz) } with hs1
  have hans : answer s k r = s1.finishReq k ⟨some (a, 0), none⟩ := by
    simp [answer, hk, respondMcjoin, joinGroup, hfree, Nat.not_le.2 hroom, hd, hs1]
  have hx : s1.station? r.fz r.st = some x := (State.station_eq hu.fz.fz).trans hu.fz.st
  obtain ⟨y, hy, hg⟩ := finishReq_register (s := s1) (a := a) (v := 0) hu.req hl hx
  refine ⟨_, y, engineResponse_eq hu (by simp [Req.unsent, hk]) (by simp [homeLost, hk, ReqKind.versions]), ?_, hans ▸ hy, ?_⟩
  · rw [hans, (Apart.finishReq ..).member, hs1, State.tile_updTile_self]
    exact Tab.find_put_self ..
  · rw [show y.rg a = (x.setG a 0).rg a by rw [Station.rg, hg, ← Station.rg], Station.rg_setG, if_pos rfl, ite_self]

/-! ### Memory at a place -/

/-- States that hold the same in memories have the same memory of every name. -/
theorem State.mem_of_store {s t : State} (h : t.store = s.store) : t.mem = s.mem := by
  rw [← Store.named_eq, h, Store.named_eq]

theorem SameBytes.of_store {s t : State} (h : t.store = s.store) : SameBytes s t := fun k a => by rw [State.mem_of_store h]

theorem State.mem_putBytes (s : State) (p : Place) (bs : List Byte) (k : MemId) :
    (s.putBytes p bs).mem k = if k = p.mem then (s.mem p.mem).writeBytes p.addr bs else s.mem k := by
  obtain ⟨m, a, v⟩ := p
  cases m with
  | tile t =>
    cases k with
    | tile u =>
      by_cases h : u = t
      · subst h; simp [State.putBytes, State.setMem, State.mem]
      · simp [State.putBytes, State.setMem, State.mem, h, State.tile_updTile_ne]
    | sram => rfl
    | hbm => rfl
  | sram => cases k <;> rfl
  | hbm => cases k <;> rfl

theorem Memory.readBytes_writeBytes {m : Memory} (h : m.wf) (a : Nat) (bs : List Byte) :
    (m.writeBytes a bs).readBytes a bs.length = bs := by
  have read (n x : Nat) : (m.writeBytes a bs).readBytes x n = (m.storeBytes a bs).readBytes x n := by
    induction n generalizing x with
    | zero => rfl
    | succ n ih => rw [Memory.readBytes, ih, Memory.readBytes, Memory.writeBytes_read]
  rw [read, Memory.readBytes_storeBytes h]

theorem State.bytesAt_putBytes {s : State} {p : Place} (h : (s.mem p.mem).wf) (bs : List Byte) :
    (s.putBytes p bs).bytesAt p bs.length = bs := by
  rw [State.bytesAt, State.mem_putBytes, if_pos rfl, Memory.readBytes_writeBytes h]

theorem SameBytesBut.putBytes (s : State) (p : Place) (bs : List Byte) : SameBytesBut s (s.putBytes p bs) p bs.length := by
  intro k a h
  rw [State.mem_putBytes]
  split
  next hk =>
    subst hk
    rw [Memory.writeBytes_read, Memory.read_storeBytes_out]
    tauto
  · rfl

/-! ### Work-lists -/

theorem State.list?_setList {s : State} {job id : Nat} {w : WorkList} (h : s.list? job id = some w) (w' : WorkList) :
    (s.setList job id w').list? job id = some w' := by
  obtain ⟨j, hj, -⟩ := Option.bind_eq_some_iff.1 h
  rw [State.job?] at hj
  rw [State.list?, State.job?, State.setList, State.updJob, hj]
  simp

/-- The forwarding slots alone change when a request needs one. -/
theorem State.forward_only (s : State) (node cls src : Nat) :
    (s.forward node cls src).2 = { s with nodes := (s.forward node cls src).2.nodes } := by
  simp only [State.forward]
  split
  · rfl
  · split
    · split
      · rfl
      · split <;> rfl
    · rfl

/-- A store of bytes that lie on no versioned page is made at once. -/
theorem storeElem_plain {s : State} {job tile : Nat} {form : Dword} {a : Int} {bs : List Byte} {p : Place}
    (h : elementCheck s job tile form a bs.length .write = .ok p) (hup : s.placeUp p = true) (hv : p.ver = none) (u : Nat) (v : View) :
    storeElem s u job tile v form a bs = .done (s.putBytes p bs) := by
  simp [storeElem, h, hup, hv]

theorem leBytes_length (n k : Nat) : (leBytes n k).length = k := by
  induction k generalizing n with
  | zero => rfl
  | succ k ih => simp [leBytes, ih]

theorem WorkList.entry_length (w : WorkList) (v : Dword) : ((bytesOf v).take w.esz).length = w.esz := by
  rw [List.length_take, bytesOf, leBytes_length, WorkList.esz]
  split <;> rfl

/-- An entry whose place can be reached and whose forwarding slot, where it needs one, is free is appended (R344, R346, R356). -/
theorem appendEntry_ok {s : State} {r : Req} {w : WorkList} {p : Place} (hgo : Slice0.entryGo s r w)
    (hp : elementCheck s r.job r.tile (Slice0.entryForm w) (Slice0.entryAt w) w.esz .write = .ok p) (hup : s.placeUp p = true)
    (hv : p.ver = none) (v : Dword) : ∃ nodes, appendEntry s r w v =
      .ok (({ s with nodes := nodes } : State).putBytes p ((bytesOf v).take w.esz)) { w with pushed := w.pushed + 1 } := by
  rw [← WorkList.entry_length w v] at hp
  have store (nodes : Tab FwdNode) : storeElem { s with nodes := nodes } r.uid r.job r.tile View.zero (Slice0.entryForm w)
      (Slice0.entryAt w) ((bytesOf v).take w.esz) = .done (({ s with nodes := nodes } : State).putBytes p ((bytesOf v).take w.esz)) :=
    storeElem_plain (s := { s with nodes := nodes }) hp hup hv ..
  have here := store s.nodes
  change storeElem s _ _ _ _ _ _ _ = _ at here
  rw [Slice0.entryGo] at hgo
  simp only [Slice0.entryForm, Slice0.entryAt] at store here
  by_cases hin : w.size < w.resRoom
  · refine ⟨s.nodes, ?_⟩
    simp only [hin, if_true] at here
    simp [appendEntry, hin, here]
  · refine ⟨(s.forward (homeNode s r.job w) 0 r.uid).2.nodes, ?_⟩
    simp only [hin, if_false] at here store
    have hg := hgo (Nat.not_lt.1 hin)
    have hst := store (s.forward (homeNode s r.job w) 0 r.uid).2.nodes
    rw [← State.forward_only] at hst ⊢
    simp [appendEntry, hin, here, hg, hst]

/-- What the home makes of a request in its turn, by its kind. -/
def homeServe (s : State) (k : Nat) (r : Req) : State :=
  match r.kind with
  | .wlnew id desc => homeNew s k r id desc
  | .wlpush id v => (match s.list? r.job id with
    | some w => homePush s k r id w v
    | none => s.failReq k wlFault 0)
  | .wlpop id port n => (match s.list? r.job id with
    | some w => homePop s k r id w port n
    | none => s.failReq k wlFault 0)
  | .wlins id key => (match s.list? r.job id with
    | some w => homeIns s k r id w key
    | none => s.failReq k wlFault 0)
  | .wlcnt id a => homeCnt s k r (s.list? r.job id) a
  | .wlfree id => (match s.list? r.job id with
    | some _ => (s.updJob r.job fun j => { j with worklists := j.worklists.del id }).finishReq k ⟨none, none⟩
    | none => s.failReq k wlFault 0)
  | _ => s

theorem homeServe_eq {s : State} {k : Nat} {r : Req} {f : Frieze} {x : Station} (hu : Slice0.AtUnit s k r f x) :
    exec (.worklistHomeServe k) s = .next (homeServe s k r) := by
  change execWorklistHomeServe k s = _
  simp only [execWorklistHomeServe, hu.req, hu.ready, hu.alone, List.isEmpty_nil, Bool.not_true, Bool.or_self, Bool.false_eq_true,
    if_false]
  rfl

/-- WLPUSH writes an entry after the last (R344, R346). -/
theorem wlpush_appends {k id : Nat} {v : Dword} {w : WorkList} {p : Place} {r : Req} {f : Frieze} {x : Station} {s : State}
    (hu : Slice0.AtUnit s k r f x) (hk : r.kind = .wlpush id v) (hl : s.list? r.job id = some w) (hroom : w.size < w.cap)
    (hgo : Slice0.entryGo s r w)
    (hp : elementCheck s r.job r.tile (Slice0.entryForm w) (Slice0.entryAt w) w.esz .write = .ok p) (hup : s.placeUp p = true)
    (hv : p.ver = none) (hwf : (s.mem p.mem).wf) :
    ∃ t, exec (.worklistHomeServe k) s = .next t ∧ t.list? r.job id = some { w with pushed := w.pushed + 1 } ∧
      t.bytesAt p w.esz = (bytesOf v).take w.esz ∧ SameBytesBut s t p w.esz := by
  obtain ⟨nodes, hap⟩ := appendEntry_ok hgo hp hup hv v
  set s0 : State := { s with nodes := nodes } with hs0
  set s1 := s0.putBytes p ((bytesOf v).take w.esz) with hs1
  have hjobs : s1.jobs = s.jobs := by
    rw [hs1, State.putBytes]
    cases p.mem <;> rfl
  have hl1 : s1.list? r.job id = some w := by
    rw [State.list?, State.job?, hjobs]
    exact hl
  have hex : exec (.worklistHomeServe k) s =
      .next ((s1.setList r.job id { w with pushed := w.pushed + 1 }).finishReq k ⟨none, none⟩) := by
    rw [homeServe_eq hu]
    simp only [homeServe, hk, hl, homePush, if_neg (Nat.not_le.2 hroom), hap, Served.go]
  have hmem : ((s1.setList r.job id { w with pushed := w.pushed + 1 }).finishReq k ⟨none, none⟩).mem = s1.mem :=
    State.mem_of_store (by simp)
  have hb := State.bytesAt_putBytes (s := s0) (p := p) hwf ((bytesOf v).take w.esz)
  have hsame := SameBytesBut.putBytes s0 p ((bytesOf v).take w.esz)
  rw [WorkList.entry_length] at hb hsame
  refine ⟨_, hex, ?_, ?_, fun q a h => ?_⟩
  · rw [(Apart.finishReq ..).list?]
    exact State.list?_setList hl1 _
  · rw [State.bytesAt, hmem]
    exact hb
  · rw [hmem]
    exact hsame q a h

/-! ### WLPOP -/

theorem State.portLevels_quiet (s0 s1 : State) (t : Nat) : Quiet s1 (s0.portLevels s1 t) := by
  unfold State.portLevels
  refine Quiet.foldl (fun s c => ?_) _ s1
  dsimp only
  split
  · split
    · split
      · exact Quiet.refl s
      · exact Quiet.addCount ..
    · exact Quiet.updCtr ..
  · exact Quiet.refl s

/-- A beat enters an in-port. -/
theorem State.enterPort_inPort (s : State) (t : Nat) {p : Nat} (hp : p < 32) (b : RawBeat) :
    ((s.enterPort t p b).tile t).inPort p = ((s.tile t).inPort p).enter p b := by
  rw [State.enterPort, State.updPorts, (State.portLevels_quiet ..).apart.inPort, State.tile_updTile_self]
  simp [Tile.inPort, Tile.setIn, hp]

theorem State.foldl_enterPort_inPort (t : Nat) {p : Nat} (hp : p < 32) (bs : List RawBeat) (s : State) :
    ((bs.foldl (fun s b => s.enterPort t p b) s).tile t).inPort p = bs.foldl (fun q b => q.enter p b) ((s.tile t).inPort p) := by
  induction bs generalizing s with
  | nil => rfl
  | cons b bs ih => rw [List.foldl_cons, ih, State.enterPort_inPort s t hp, List.foldl_cons]

theorem State.enterPort_jobs (s : State) (t p : Nat) (b : RawBeat) : (s.enterPort t p b).jobs = s.jobs := by
  rw [State.enterPort, State.updPorts, (State.portLevels_quiet ..).apart.jobs, State.updTile_jobs]

/-- Beats of which all but the last are data enter an in-port one after another. -/
theorem InPort.foldl_enter (p : Nat) (bs : List RawBeat) (b : RawBeat) (q : InPort) (hd : ∀ c ∈ bs, isData c.kind = true) :
    ((bs ++ [b]).foldl (fun q b => q.enter p b) q).fifo = q.fifo ++ (bs ++ [b]).mapIdx fun j b =>
      ⟨b.kind, enterRec q.binding p (q.srCount + BitVec.ofNat 64 j) b, b.data⟩ := by
  induction bs generalizing q with
  | nil => simp [InPort.enter]
  | cons c bs ih =>
    have hc : isData c.kind = true := hd c (List.mem_cons_self ..)
    have hn (n : Nat) : q.srCount + 1 + BitVec.ofNat 64 n = q.srCount + BitVec.ofNat 64 (n + 1) := by
      rw [BitVec.ofNat_add, BitVec.add_assoc, BitVec.add_comm (1 : Dword)]
      rfl
    rw [List.cons_append, List.foldl_cons, ih (q.enter p c) fun d hd' => hd d (List.mem_cons_of_mem _ hd')]
    simp only [InPort.enter, hc, if_true, List.mapIdx_cons, List.append_assoc, List.singleton_append, hn]
    simp

/-- Entries handed over: the data is packed and the last beat marked (R346). -/
theorem batchBeats_eq {w : Nat} (hw : w = 4 ∨ w = 8) (fuel : Nat) {es : List (Dword × Bool)} (hne : es ≠ [])
    (hf : es.length ≤ fuel) :
    batchBeats (16 / w) w es fuel = (List.range ((es.length * w + 15) / 16)).map (Slice0.entryBeat w es) := by
  induction fuel generalizing es with
  | zero => exact absurd (List.eq_nil_of_length_eq_zero (Nat.le_zero.1 hf)) hne
  | succ fuel ih =>
    have hpos := List.length_pos_iff.2 hne
    have hper : 0 < 16 / w := by rcases hw with rfl | rfl <;> decide
    by_cases hlast : es.length ≤ 16 / w
    · have hn : (es.length * w + 15) / 16 = 1 := by rcases hw with rfl | rfl <;> omega
      have hrest : es.drop (16 / w) = [] := List.drop_eq_nil_of_le hlast
      simp [batchBeats, hrest, hn, Slice0.entryBeat, hne, hlast, kindEos]
    · have hrest : es.drop (16 / w) ≠ [] := by
        rw [Ne, List.drop_eq_nil_iff]
        exact hlast
      have hlen : (es.drop (16 / w)).length = es.length - 16 / w := List.length_drop
      have hn : (es.length * w + 15) / 16 = ((es.drop (16 / w)).length * w + 15) / 16 + 1 := by
        rw [hlen]
        rcases hw with rfl | rfl <;> omega
      have hnext (j : Nat) : Slice0.entryBeat w (es.drop (16 / w)) j = Slice0.entryBeat w es (j + 1) := by
        have hk : es.length - 16 / w ≤ 16 / w * (j + 1) ↔ es.length ≤ 16 / w * (j + 1 + 1) := by
          rw [Nat.mul_succ _ (j + 1)]
          omega
        simp only [Slice0.entryBeat, hrest, hne, if_false, hlen, hk, List.drop_drop]
        rw [Nat.mul_succ _ j, Nat.add_comm (16 / w * j)]
      rw [hn, List.range_succ_eq_map, List.map_cons, List.map_map, batchBeats, ih hrest (by rw [hlen]; omega)]
      simp only [List.isEmpty_eq_false_iff.2 hrest, Bool.false_eq_true, if_false]
      refine congrArg₂ _ ?_ (List.map_congr_left fun j _ => hnext j)
      simp [Slice0.entryBeat, hne, hlast, kindData]

/-- The beats of a WLPOP are those of the specification (R346). -/
theorem popBeats_eq {w : Nat} (hw : w = 4 ∨ w = 8) (es : List (Dword × Bool)) :
    (if es.isEmpty then [RawBeat.bareEos] else batchBeats (16 / w) w es es.length) = Slice0.entryBeats w es := by
  cases es with
  | nil => rcases hw with rfl | rfl <;> rfl
  | cons e es =>
    have hpos : 1 ≤ ((e :: es).length * w + 15) / 16 := by rcases hw with rfl | rfl <;> simp <;> omega
    rw [List.isEmpty_cons, if_neg Bool.false_ne_true, batchBeats_eq hw _ (List.cons_ne_nil e es) (Nat.le_refl _), Slice0.entryBeats,
      max_eq_right hpos]

/-- Every beat of a batch but a bare EOS is data. -/
theorem isData_entryBeat (w : Nat) {es : List (Dword × Bool)} (hne : es ≠ []) (j : Nat) :
    isData (Slice0.entryBeat w es j).kind = true := by
  rw [Slice0.entryBeat, if_neg hne]
  dsimp only
  split <;> rfl

/-- A batch enters an in-port: its beats follow those that are there, numbered one after another. -/
theorem InPort.foldl_enter_batch (p w : Nat) (es : List (Dword × Bool)) (q : InPort) :
    ((Slice0.entryBeats w es).foldl (fun q b => q.enter p b) q).fifo = q.fifo ++ (Slice0.entryBeats w es).mapIdx fun j b =>
      ⟨b.kind, enterRec q.binding p (q.srCount + BitVec.ofNat 64 j) b, b.data⟩ := by
  by_cases hne : es = []
  · subst hne
    simp [Slice0.entryBeats, InPort.enter]
  · obtain ⟨n, hn⟩ := Nat.exists_eq_add_of_le' (le_max_left 1 ((es.length * w + 15) / 16))
    rw [Slice0.entryBeats, hn, List.range_succ, List.map_append]
    exact InPort.foldl_enter p _ _ q fun c hc => by
      obtain ⟨j, -, rfl⟩ := List.mem_map.1 hc
      exact isData_entryBeat w hne j

/-- WLPOP hands the first entries to an in-port as beats (R22, R346). -/
theorem wlpop_hands_over {k id port n : Nat} {w : WorkList} {es : List (Dword × Bool)} {r : Req} {f : Frieze} {x : Station} {s : State}
    (hu : Slice0.AtUnit s k r f x) (hk : r.kind = .wlpop id port n) (hl : s.list? r.job id = some w) (hport : port < 32)
    (hfree : (n * w.esz + 15) / 16 ≤ ((s.tile r.tile).inPort port).free) (hres : w.size ≤ w.resRoom)
    (htake : takeEntries s r w w.popped (min n w.size) = .ok es) (hw : w.esz = 4 ∨ w.esz = 8) :
    ∃ t w', exec (.worklistHomeServe k) s = .next t ∧ t.list? r.job id = some w' ∧ w'.popped = w.popped + min n w.size ∧
      w'.pushed = w.pushed ∧ SameBytes s t ∧
      let q := (s.tile r.tile).inPort port
      ((t.tile r.tile).inPort port).fifo = q.fifo ++ (Slice0.entryBeats w.esz es).mapIdx fun j b =>
        ⟨b.kind, enterRec q.binding port (q.srCount + BitVec.ofNat 64 j) b, b.data⟩ := by
  set w' : WorkList := { w with
    popped := w.popped + min n w.size
    bad := w.bad.filter fun i => decide (w.popped + min n w.size ≤ i) } with hw'
  have hback : min (min n w.size) w.spilled = 0 := by
    rw [WorkList.spilled]
    omega
  set s1 := s.setList r.job id w' with hs1
  set s2 := (Slice0.entryBeats w.esz es).foldl (fun s b => s.enterPort r.tile port b) s1 with hs2
  have hex : exec (.worklistHomeServe k) s = .next (s2.finishReq k ⟨none, none⟩) := by
    rw [homeServe_eq hu]
    simp only [homeServe, hk, hl, homePop, if_neg (Nat.not_lt.2 hfree), htake, hback, moveEntries, if_true, Bool.not_true, Bool.false_eq_true,
      if_false, Served.go, popBeats_eq hw]
    rfl
  have hjobs : s2.jobs = s1.jobs := by
    rw [hs2]
    exact List.foldlRecOn _ _ (motive := fun t : State => t.jobs = s1.jobs) rfl fun t ht b _ => (State.enterPort_jobs ..).trans ht
  refine ⟨_, w', hex, ?_, rfl, rfl, SameBytes.of_store (by simp [hs2, hs1]), ?_⟩
  · rw [(Apart.finishReq ..).list?, State.list?, State.job?, hjobs]
    exact State.list?_setList hl w'
  · have htile : s1.tile r.tile = s.tile r.tile := by
      rw [hs1, State.setList, State.updJob]
      split <;> rfl
    rw [(Apart.finishReq ..).inPort, hs2, State.foldl_enterPort_inPort _ hport, InPort.foldl_enter_batch, htile]

/-! ### A list that is not there -/

/-- A request to a list that is not there is a WORKLIST_FAULT (R348). -/
theorem missing_list_faults {k id : Nat} {r : Req} {f : Frieze} {x : Station} {s : State} (hu : Slice0.AtUnit s k r f x)
    (hid : r.kind.listId = some id) (hnew : ∀ d, r.kind ≠ .wlnew id d) (hl : s.list? r.job id = none)
    (hcnt : ∀ a, r.kind = .wlcnt id a → ∃ p, elementCheck s r.job r.tile a (formAddr a) 8 .write = .ok p) :
    ∃ t y, exec (.worklistHomeServe k) s = .next t ∧ t.station? r.fz r.st = some y ∧ ∃ p ∈ y.faults, p.cause = 0x0E := by
  have hex : exec (.worklistHomeServe k) s = .next (s.failReq k wlFault 0) := by
    rw [homeServe_eq hu, homeServe]
    cases hk : r.kind <;> simp only [hk, ReqKind.listId, Option.some.injEq, reduceCtorEq] at hid <;> subst hid
    case wlnew d => exact absurd hk (hnew d)
    case wlcnt a =>
      obtain ⟨p, hp⟩ := hcnt a hk
      simp only [homeCnt, hp, hl]
    all_goals simp only [hl]
  obtain ⟨y, hy, hf⟩ := failReq_fault (v := wlFault) (addr := 0) hu.req ((State.station_eq hu.fz.fz).trans hu.fz.st)
  exact ⟨_, y, hex, hy, hf⟩

end Sys2Proof.Machine

namespace Sys2Proof.Slice0
open Machine

/-- Settles O50: each request is answered at its unit as the specification says. -/
theorem requestsAnswered : Obligations.RequestsAnswered := by
  unfold Obligations.RequestsAnswered
  refine ⟨?snap, ?txbegin, ?txabort, ?mcjoin, ?wlpush, ?wlpop, ?missing⟩
  case snap =>
    intro k dom v r f x d s
    exact snap_registers
  case txbegin =>
    intro k dom v r f x d s hu hk hh hd hn hr
    obtain ⟨t, d', n, hex, hd', hrec, hreg⟩ := txbegin_takes_record hu hk hh hd hn hr
    exact ⟨t, d', n, _, hex, hd', hrec, rfl, rfl, rfl, rfl, rfl, rfl, hreg⟩
  case txabort =>
    intro k dom txid v r f x q s
    exact txabort_ends_active
  case mcjoin =>
    intro k i g a r f x s
    exact mcjoin_joins
  case wlpush =>
    intro k id v w p r f x s
    exact wlpush_appends
  case wlpop =>
    intro k id port n w es r f x s hu hk hl hport hfree hres htake _ hw
    exact wlpop_hands_over hu hk hl hport hfree hres htake hw
  case missing =>
    intro k id r f x s
    exact missing_list_faults

end Sys2Proof.Slice0
end

section
/-! SUPPORT. The canonical form of every memory, and the operations that write memory: streams and scalar words. -/

namespace Sys2Proof.Machine

/-! ### The canonical form of every memory -/

/-- Every memory held is in canonical form. -/
structure Store.Canon (σ : Store) : Prop where
  wf : ∀ m, σ.held m → m.wf

theorem Store.canon_of {hbm sram staged : Memory} {tiles : Tab Tile} {jobs : Tab Job} :
    (Store.of hbm sram staged tiles jobs).Canon ↔ hbm.wf ∧ sram.wf ∧ staged.wf ∧ (∀ p ∈ tiles, p.2.mem.wf) ∧
      ∀ p ∈ jobs, ∀ q ∈ p.2.localSaves, q.2.wf := by
  constructor
  · intro h
    exact ⟨h.wf _ (.inr (.inr (.inl rfl))), h.wf _ (.inr (.inr (.inr (.inl rfl)))), h.wf _ (.inr (.inr (.inr (.inr rfl)))),
      fun p hp => h.wf _ (.inl (.inr ⟨p, hp, rfl⟩)), fun p hp q hq => h.wf _ (.inr (.inl ⟨p, hp, q, hq, rfl⟩))⟩
  · rintro ⟨hhbm, hsram, hstaged, htiles, hjobs⟩
    refine ⟨?_⟩
    rintro m ((rfl | ⟨p, hp, rfl⟩) | ⟨p, hp, q, hq, rfl⟩ | rfl | rfl | rfl)
    · exact Memory.empty_wf
    · exact htiles p hp
    · exact hjobs p hp q hq
    · exact hhbm
    · exact hsram
    · exact hstaged

theorem State.memWf_iff (s : State) : s.MemWf ↔ s.store.Canon :=
  ⟨fun h => Store.canon_of.2 ⟨h.hbm, h.sram, h.staged, h.tiles, h.saves⟩, fun h =>
    have ⟨hhbm, hsram, hstaged, htiles, hjobs⟩ := Store.canon_of.1 h
    ⟨hhbm, hsram, hstaged, htiles, hjobs⟩⟩

@[simp] theorem Store.canon_ite (c : Prop) [Decidable c] (a b : Store) : (if c then a else b).Canon ↔ if c then a.Canon else b.Canon := by
  split <;> rfl

theorem State.canon_foldl {α : Type} {g : State → α → State} (hg : ∀ s a, s.store.Canon → (g s a).store.Canon) (l : List α) {s : State}
    (hs : s.store.Canon) : (l.foldl g s).store.Canon := by
  induction l generalizing s with
  | nil => exact hs
  | cons a l ih => exact ih (hg s a hs)

section
variable {s : State} (hs : s.store.Canon)
include hs

theorem Store.Canon.hbm : s.hbm.wf := ((State.memWf_iff s).2 hs).hbm

theorem Store.Canon.staged : s.staged.wf := ((State.memWf_iff s).2 hs).staged

theorem Store.Canon.sram : s.sram.wf := ((State.memWf_iff s).2 hs).sram

theorem Store.Canon.tiles : ∀ p ∈ s.tiles, p.2.mem.wf := ((State.memWf_iff s).2 hs).tiles

theorem Store.Canon.saves : ∀ p ∈ s.jobs, ∀ q ∈ p.2.localSaves, q.2.wf := ((State.memWf_iff s).2 hs).saves

theorem Store.Canon.tile (t : Nat) : (s.tile t).mem.wf := by
  rw [State.tile]
  cases h : s.tiles.find t with
  | none => exact Memory.empty_wf
  | some x => exact hs.tiles _ (Tab.mem_of_find h)

theorem Store.Canon.mem (k : MemId) : (s.mem k).wf := by
  cases k with
  | tile t => exact hs.tile t
  | sram => exact hs.sram
  | hbm => exact hs.hbm

theorem Store.Canon.withHbm {m : Memory} (hm : m.wf) : (Store.of m s.sram s.staged s.tiles s.jobs).Canon :=
  Store.canon_of.2 ⟨hm, hs.sram, hs.staged, hs.tiles, hs.saves⟩

theorem Store.Canon.withSram {m : Memory} (hm : m.wf) : (Store.of s.hbm m s.staged s.tiles s.jobs).Canon :=
  Store.canon_of.2 ⟨hs.hbm, hm, hs.staged, hs.tiles, hs.saves⟩

theorem Store.Canon.withStaged {m : Memory} (hm : m.wf) : (Store.of s.hbm s.sram m s.tiles s.jobs).Canon :=
  Store.canon_of.2 ⟨hs.hbm, hs.sram, hm, hs.tiles, hs.saves⟩

theorem Store.Canon.withTiles {tiles : Tab Tile} (ht : ∀ p ∈ tiles, p.2.mem.wf) :
    (Store.of s.hbm s.sram s.staged tiles s.jobs).Canon :=
  Store.canon_of.2 ⟨hs.hbm, hs.sram, hs.staged, ht, hs.saves⟩

theorem Store.Canon.withJobs {jobs : Tab Job} (hj : ∀ p ∈ jobs, ∀ q ∈ p.2.localSaves, q.2.wf) :
    (Store.of s.hbm s.sram s.staged s.tiles jobs).Canon :=
  Store.canon_of.2 ⟨hs.hbm, hs.sram, hs.staged, hs.tiles, hj⟩

theorem State.setTile_canon (t : Nat) {x : Tile} (hx : x.mem.wf) : (s.setTile t x).store.Canon :=
  hs.withTiles fun p hp => by
    rcases Tab.mem_put hp with rfl | hp
    · exact hx
    · exact hs.tiles p hp

theorem State.updTile_canon (t : Nat) {g : Tile → Tile} (hg : (g (s.tile t)).mem.wf) : (s.updTile t g).store.Canon :=
  State.setTile_canon hs t hg

theorem State.setMem_canon (k : MemId) {m : Memory} (hm : m.wf) : (s.setMem k m).store.Canon := by
  cases k with
  | tile t => exact State.updTile_canon hs t hm
  | sram => exact hs.withSram hm
  | hbm => exact hs.withHbm hm

@[simp] theorem State.putBytes_canon (p : Place) (bs : List Byte) : (s.putBytes p bs).store.Canon :=
  State.setMem_canon hs _ (Memory.writeBytes_wf (hs.mem _) ..)

theorem State.putJob_canon (j : Nat) {x : Job} (hx : ∀ q ∈ x.localSaves, q.2.wf) :
    (Store.of s.hbm s.sram s.staged s.tiles (s.jobs.put j x)).Canon :=
  hs.withJobs fun p hp => by
    rcases Tab.mem_put hp with rfl | hp
    · exact hx
    · exact hs.saves p hp

theorem State.updJob_canon (j : Nat) {g : Job → Job} (hg : ∀ x, s.jobs.find j = some x → ∀ q ∈ (g x).localSaves, q.2.wf) :
    (s.updJob j g).store.Canon := by
  unfold State.updJob
  split
  · exact hs
  next x hx => exact State.putJob_canon hs j (hg x hx)

end

@[simp] theorem State.scatter_canon {s : State} (hs : s.store.Canon) (ps : List (Place × Nat)) (bs : List Byte) :
    (s.scatter ps bs).store.Canon := by
  induction ps generalizing s bs with
  | nil => exact hs
  | cons p ps ih => exact ih (State.putBytes_canon hs ..) _

/-! ### Records, lines, elements and atomic updates -/

/-- The state an attempt to write leaves. -/
structure PutRes.Canon (r : PutRes) : Prop where
  done : ∀ {t}, r = .done t → t.store.Canon
  wait : ∀ {t}, r = .wait t → t.store.Canon

@[simp] theorem PutRes.canon_done (t : State) : (PutRes.done t).Canon ↔ t.store.Canon :=
  ⟨fun h => h.done rfl, fun h => ⟨fun e => by cases e; exact h, nofun⟩⟩

@[simp] theorem PutRes.canon_wait (t : State) : (PutRes.wait t).Canon ↔ t.store.Canon :=
  ⟨fun h => h.wait rfl, fun h => ⟨nofun, fun e => by cases e; exact h⟩⟩

@[simp] theorem PutRes.canon_err (v : Viol) : (PutRes.err v).Canon := ⟨nofun, nofun⟩

section
variable {s : State} (hs : s.store.Canon)
include hs

@[simp] theorem State.mqRecord_canon (job : Nat) (event : BitVec 8) (cause : Cause) (master addr : Dword) :
    (s.mqRecord job event cause master addr).store.Canon := by
  unfold State.mqRecord
  split
  · exact hs
  · dsimp only
    split <;> simp [hs]

@[simp] theorem completeChains_canon (job dom txid : Nat) (c : BitVec 48) : (completeChains s job dom txid c).store.Canon := by
  unfold completeChains
  refine State.canon_foldl (fun s p hs => ?_) _ hs
  obtain ⟨l, ch⟩ := p
  dsimp only
  split
  · split
    · refine hs.withHbm ?_
      split
      · exact Memory.poison_wf (Memory.writeBytes_wf hs.hbm ..) _
      · exact Memory.writeBytes_wf hs.hbm ..
    · exact hs
  · exact hs

theorem storeElem_canon (u job tile : Nat) (v : View) (form : Dword) (a : Int) (bs : List Byte) :
    (storeElem s u job tile v form a bs).Canon := by
  unfold storeElem
  split
  · simp
  · split
    · simp
    next p _ _ =>
      split
      · simp [hs]
      next d _ =>
        have hw : (LineWrite.state s (writeLine s job v d (p.addr / 128) (p.addr % 128) bs false u)).store.Canon := by
          rwa [writeLine_store]
        split
        next heq => rw [heq] at hw; exact (PutRes.canon_done _).2 hw
        next heq => rw [heq] at hw; exact (PutRes.canon_wait _).2 hw
        · exact PutRes.canon_err _

theorem atomicAt_canon {job tile : Nat} {form : Dword} {a : Int} {z op : Nat} {b c : Dword} {r : State × Dword}
    (h : atomicAt s job tile form a z op b c = .ok r) : r.1.store.Canon := by
  unfold atomicAt at h
  split at h
  · cases h
  · split at h
    · cases h
    · split at h
      · cases h
      · dsimp only at h
        split at h <;> cases h
        · exact hs
        · simp [hs]

@[simp] theorem State.blockTraffic_canon (job m : Nat) (v : Viol) (addr : Dword) : (s.blockTraffic job m v addr).store.Canon := by
  unfold State.blockTraffic
  split
  · exact hs
  · simp [hs]

@[simp] theorem scalarNow_canon (job id st tile : Nat) (p : PendScalar) : (scalarNow s job id st tile p).1.store.Canon := by
  have hput := storeElem_canon hs p.uid job tile View.zero p.form p.addr (p.vals.flatMap bytesOf)
  unfold scalarNow
  dsimp only
  split
  · split
    next t h => exact hput.done h
    next t h => exact hput.wait h
    · simp [hs]
  · split
    · split <;> simp [hs]
    · exact hs
    · simp [hs]

theorem saveImage_canon (r : Req) (form : Dword) (a : Nat) (bss : List (List Byte)) (n : Nat) :
    (saveImage s r form a bss n).1.store.Canon := by
  induction bss generalizing s a n with
  | nil => exact hs
  | cons bs rest ih =>
    unfold saveImage
    split
    · exact hs
    · split
      · exact hs
      · exact ih (State.scatter_canon hs ..) _ _

end

/-! ### Streams, scalar words and atomics -/

section
variable {s : State} (hs : s.store.Canon)
include hs

@[simp] theorem respondAcc_canon (k : Nat) (r : Req) (load : Bool) (acc first last : Nat) (form : Dword) :
    (respondAcc s k r load acc first last form).store.Canon := by
  unfold respondAcc
  extract_lets x fs w s1 sectors
  have hs1 : s1.store.Canon := by simpa [s1] using hs
  have hsec (t : State) (n : Nat) : (sectors t n).store = t.store := by
    dsimp only [sectors]
    split
    · split <;> simp
    · rfl
  clear_value sectors s1
  split
  · simpa using hs
  · split
    · split <;> simp [hsec, hs1]
    · have himg := saveImage_canon hs1 r form (formAddr form) (imageSectors (x.accImage acc first last) (2 * w + 1)) 0
      split
      all_goals
        next heq =>
          rw [heq] at himg
          simpa [hsec] using himg

theorem Slot.apply_canon (q : Slot) (job tile : Nat) (a : Int) (bs : List Byte) : (q.apply s job tile a bs).Canon := by
  unfold Slot.apply
  split
  · split
    next r h => exact (PutRes.canon_done _).2 (atomicAt_canon hs h)
    · exact PutRes.canon_err _
  · exact storeElem_canon hs ..

@[simp] theorem takeElem_canon (f : Frieze) (id st k : Nat) (q : Slot) (b : Beat) : (takeElem s f id st k q b).store.Canon := by
  unfold takeElem
  extract_lets tile idx s0 q1
  clear_value q1
  split
  · simp [hs]
  · split
    · simp [s0, hs]
    · split
      · simp [hs]
      · split
        · exact hs
        · simp [hs]
        · simp [hs]
        next sa _ _ _ _ _ _ _ =>
          have hside : (if q1.taken = 0 ∧ q1.sideBytes ≠ 0 then
              storeElem s q1.uid f.job tile q1.view q1.base2 sa ((bytesOf b.r.side).take q1.sideBytes) else .done s).Canon := by
            split
            · exact storeElem_canon hs ..
            · exact (PutRes.canon_done _).2 hs
          split
          · simp [hs]
          next s1 h => exact hside.wait h
          next s1 h =>
            have hs1 := hside.done h
            split
            next a _ =>
              have happ := Slot.apply_canon hs1 q1 f.job tile a (((bytesOf b.r.data).drop q1.taken).take q1.shape.size)
              split
              · simp [hs1]
              next s2 h => exact happ.wait h
              next s2 h => simpa using happ.done h
            · simp [hs1]

@[simp] theorem fillElem_canon (f : Frieze) (id st k : Nat) (q : Slot) : (fillElem s f id st k q).store.Canon := by
  unfold fillElem
  extract_lets tile a
  have hput := storeElem_canon hs q.uid f.job tile q.view q.base a q.fillBytes
  split
  · simp [hs]
  next s1 h => exact hput.wait h
  next s1 h => simpa using hput.done h

@[simp] theorem copyElem_canon (f : Frieze) (id st k : Nat) (q : Slot) : (copyElem s f id st k q).store.Canon := by
  unfold copyElem
  extract_lets tile a b z
  split
  · simp [hs]
  · exact hs
  next bs bad _ =>
    extract_lets r
    have hr : r.2.store.Canon := by simpa [r] using hs
    clear_value r
    split
    · simp [hs]
    · split
      · simp [hs]
      · have hput := storeElem_canon hr q.uid f.job tile q.view q.base2 b r.1
        split
        · simp [hs]
        next s1 h => exact hput.wait h
        next s1 h => simpa using hput.done h

@[simp] theorem scalarElem_canon (f : Frieze) (id st k : Nat) (q : Slot) : (scalarElem s f id st k q).store.Canon := by
  unfold scalarElem
  extract_lets tile a form fin
  have hfin (t : State) : (fin t).store = t.store := by simp [fin]
  clear_value fin
  split
  · have hput := storeElem_canon hs q.uid f.job tile q.view q.base a (bytesOf q.val)
    split
    · simp [hs]
    next s1 h => exact hput.wait h
    next s1 h => simpa [hfin] using hput.done h
  · split
    · simp [hs]
    · exact hs
    · split
      · simp [hfin, hs]
      · exact hs
      · split <;> simp [hfin, hs]

@[simp] theorem slotStep_canon (f : Frieze) (id st k : Nat) (q : Slot) : (slotStep s f id st k q).store.Canon := by
  unfold slotStep
  extract_lets t s1 s2
  have hs2 : s2.store.Canon := by simpa [s1, s2] using hs
  clear_value s2
  split
  · simp [hs]
  · split
    · exact hs
    · split
      · exact hs2
      · extract_lets q1 g s3
        have hs3 : s3.store.Canon := by simpa [g, s3] using hs2
        clear_value s3 g q1
        split
        · exact hs3
        · (repeat' split) <;> simp [hs3]

@[simp] theorem pendStep_canon (f : Frieze) (id st j : Nat) : (pendStep s f id st j).store.Canon := by
  unfold pendStep
  split
  · exact hs
  · split
    · exact hs
    next p _ =>
      extract_lets g
      have hg : g.2.store.Canon := by simpa [g] using hs
      clear_value g
      split
      · exact hs
      · split
        · exact hg
        next s1 s2 r _ _ =>
          have hr : r.1.store.Canon := scalarNow_canon (s := s2) (by simpa [s2, s1] using hg) ..
          clear_value r
          split <;> simp [hr]

theorem runSlot_canon {go : State → Frieze → Slot → State} (hgo : ∀ f q, (go s f q).store.Canon) (fz st slot : Nat) (mine : SKind → Bool) :
    (runSlot s fz st slot mine go).store.Canon := by
  unfold runSlot
  split
  · exact hs
  · split
    · exact hs
    · dsimp only
      split
      · exact hgo ..
      · exact hs

@[simp] theorem atomStep_canon (f : Frieze) (id st k : Nat) (q : Slot) : (atomStep s f id st k q).store.Canon := by
  unfold atomStep
  split
  · split <;> simp [hs]
  · extract_lets z g s1
    have hg : g.2.store.Canon := by simpa [g] using hs
    have hs1 : s1.store.Canon := hg
    clear_value s1 g
    split
    · exact hg
    · split
      · simp [hs1]
      next r h =>
        have hr := atomicAt_canon hs1 h
        split <;> simp [hr]

theorem farWrites_canon {k : State → State} (hk : ∀ s, s.store.Canon → (k s).store.Canon) (src job : Nat)
    (ws : List (Nat × List Byte)) : (farWrites src job k ws s).store.Canon := by
  induction ws generalizing s with
  | nil => exact hk s hs
  | cons w ws ih =>
    unfold farWrites
    split
    · simp [hs]
    · refine ih ?_
      split <;> simp [hs]

theorem farRelease_canon {k : State → State} (hk : ∀ s, s.store.Canon → (k s).store.Canon) (src job : Nat)
    (ws : List (Nat × List Byte)) : (farRelease src job ws k s).store.Canon := by
  unfold farRelease
  split
  · exact hs
  · exact farWrites_canon hs hk ..

end

end Sys2Proof.Machine
end

section
/-! SUPPORT. The routing engine keeps the canonical form of every memory. -/

namespace Sys2Proof.Machine

/-! ### The routing engine -/

section
variable {s : State} (hs : s.store.Canon)
include hs

theorem engWrite_canon {job tile : Nat} {form : Dword} {off : Nat} {bs : List Byte} {t : State}
    (h : engWrite s job tile form off bs = .ok t) : t.store.Canon := by
  unfold engWrite at h
  split at h
  · cases h
  · split at h
    · cases h
    · split at h <;> cases h
      simp [hs]

theorem writeRow_canon {r : Req} {c : ErCfg} {e pos : Nat} {bs : List Byte} {t : State}
    (h : writeRow s r c e pos bs = .ok t) : t.store.Canon := by
  unfold writeRow at h
  dsimp only at h
  split at h
  · cases h
  · split at h
    · cases h
    · split at h <;> cases h
      simp [hs]

@[simp] theorem State.freezeEngine_canon (job die : Nat) (v : Viol) (addr : Dword) : (s.freezeEngine job die v addr).store.Canon := by
  unfold State.freezeEngine
  split <;> simp [hs]

@[simp] theorem endEngine_canon (k die : Nat) (v : Viol) (addr : Dword) : (endEngine s k die v addr).store.Canon := by
  simp [endEngine, hs]

@[simp] theorem serveErcfg_canon (k die : Nat) (r : Req) (a : Dword) : (serveErcfg s k die r a).store.Canon := by
  unfold serveErcfg
  dsimp only
  (repeat' split) <;> simp [hs]

end

section
variable {p : Placing} (hp : p.s.store.Canon)
include hp

@[simp] theorem Placing.failed_canon (e : EngErr) : (p.failed e).s.store.Canon := hp

@[simp] theorem Placing.putRow_canon (r : Req) (c : ErCfg) (j e pos : Nat) (row : Except EngErr (List Byte)) :
    (p.putRow r c j e pos row).s.store.Canon := by
  unfold Placing.putRow
  split
  · exact hp
  · split
    · exact hp
    · split
      · split
        · exact hp
        next h => exact writeRow_canon hp h
      · exact hp

@[simp] theorem Placing.putGaz_canon (r : Req) (c : ErCfg) (j : Nat) (w : Dword) : (p.putGaz r c j w).s.store.Canon := by
  unfold Placing.putGaz
  split
  · exact hp
  next h => exact engWrite_canon hp h

@[simp] theorem Placing.putDrop_canon (r : Req) (c : ErCfg) (j : Nat) (gate : Word) (reason expert : Nat) :
    (p.putDrop r c j gate reason expert).s.store.Canon := by
  unfold Placing.putDrop
  extract_lets d0 d1 q
  split
  · exact hp
  · split
    · exact hp
    next h => exact engWrite_canon hp h

@[simp] theorem Placing.choice_canon (r : Req) (c : ErCfg) (rows : Dword) (j : Nat) (w : Dword) :
    (p.choice r c rows j w).s.store.Canon := by
  unfold Placing.choice
  split
  · simp [hp]
  · simp [hp]
  next gate e _ =>
    extract_lets pos p1 m p2
    have hp1 : p1.s.store.Canon := hp
    have hp2 : p2.s.store.Canon := Placing.putRow_canon hp1 ..
    clear_value p2 p1
    split <;> simp [hp1, hp2]

@[simp] theorem Placing.reuse_canon (r : Req) (c : ErCfg) (rows : Dword) (gate : Nat → Option Word) (j : Nat) :
    (p.reuse r c rows gate j).s.store.Canon := by
  unfold Placing.reuse
  split
  · exact hp
  · split
    · exact hp
    · split
      · exact hp
      · extract_lets e pos fits q
        have hq : q.s.store.Canon := by
          dsimp only [q]
          split <;> simp [hp]
        clear_value q
        split <;> simp [hq]

theorem Placing.canon_foldl {α : Type} {g : Placing → α → Placing} (hg : ∀ p a, p.s.store.Canon → (g p a).s.store.Canon) (l : List α) :
    (l.foldl g p).s.store.Canon := by
  induction l generalizing p with
  | nil => exact hp
  | cons a l ih => exact ih (hg p a hp)

end

section
variable {s : State} (hs : s.store.Canon)
include hs

@[simp] theorem allFailed_canon (r : Req) (c : ErCfg) (ws : List (Nat × Dword)) : (allFailed s r c ws).store.Canon := by
  unfold allFailed
  refine Placing.canon_foldl (p := ⟨s, [], 0, [], none⟩) hs (fun p w hp => ?_) ws
  split <;> simp [hp]

@[simp] theorem failEntry_canon (r : Req) (c : ErCfg) (j : Nat) : (failEntry s r c j).store.Canon := by
  unfold failEntry
  split
  · exact hs
  · split
    · exact hs
    next h => exact engWrite_canon hs h

@[simp] theorem putFar_canon (r : Req) (c : ErCfg) (e pos : Nat) (bs : List Byte) : (putFar s r c e pos bs).store.Canon := by
  unfold putFar
  split
  · exact hs
  next h => exact writeRow_canon hs h

@[simp] theorem settleSent_canon (r : Req) (c : ErCfg) (g : Engine) (sent : List (Nat × Nat × Nat × List Byte)) :
    (settleSent r c g sent s).store.Canon := by
  induction sent generalizing s with
  | nil => exact hs
  | cons x sent ih =>
    obtain ⟨j, e, pos, bs⟩ := x
    refine ih ?_
    split
    · split <;> simp [hs]
    · dsimp only
      split <;> simp [hs]

@[simp] theorem reuseFailed_canon (r : Req) (c : ErCfg) (t : Nat) : (reuseFailed s r c t).store.Canon :=
  Placing.canon_foldl (p := ⟨s, [], 0, [], some (violRouting, 0)⟩) hs (fun p j hp => by simp [hp]) _

@[simp] theorem beforePlacing_canon (die : Nat) (r : Req) (c : ErCfg) (choice : Dword) (t form : Nat) :
    (beforePlacing s die r c choice t form).store.Canon := by
  unfold beforePlacing
  split
  · simp [hs]
  · simp [hs]

@[simp] theorem failDispatch_canon (k die : Nat) (c : ErCfg) (form : Nat) (early : Bool) (written : List (Nat × Nat)) (e : EngErr) :
    (failDispatch s k die c form early written e).store.Canon := by
  simp [failDispatch, hs]

@[simp] theorem failEarly_canon (k die : Nat) (r : Req) (c : ErCfg) (choice : Dword) (t form : Nat) (e : EngErr) :
    (failEarly s k die r c choice t form e).store.Canon := by
  simp [failEarly, hs]

@[simp] theorem failLate_canon (k die : Nat) (r : Req) (c : ErCfg) (form : Nat) (e : EngErr) :
    (failLate s k die r c form e).store.Canon := by
  simp [failLate, hs]

@[simp] theorem failCurrent_canon (die : Nat) (v : Viol) (addr : Dword) : (failCurrent s die v addr).store.Canon := by
  unfold failCurrent
  dsimp only
  (repeat' split) <;> simp [hs]

@[simp] theorem failHead_canon (die k : Nat) (v : Viol) : (failHead s die k v).store.Canon := by
  unfold failHead
  split <;> simp [hs]

@[simp] theorem loseDispatch_canon (die : Nat) : (loseDispatch s die).store.Canon := by
  unfold loseDispatch
  dsimp only
  (repeat' split) <;> simp [hs]

@[simp] theorem startDispatch_canon (k die : Nat) (r : Req) (c : ErCfg) (choice : Dword) (t form : Nat) :
    (startDispatch s k die r c choice t form).store.Canon := by
  unfold startDispatch
  dsimp only
  split
  · simp [hs]
  · split <;> simp [hs]

@[simp] theorem placeDispatch_canon (k die : Nat) (r : Req) (c : ErCfg) (choice rows : Dword) (t form : Nat) :
    (placeDispatch s k die r c choice rows t form).store.Canon := by
  unfold placeDispatch
  extract_lets g firsts ws pre p0 gate p tot s1
  have hp : p.s.store.Canon := by
    dsimp only [p]
    split
    · exact Placing.canon_foldl (p := p0) hs (fun p w hp => by simp [hp]) _
    · exact Placing.canon_foldl (p := p0) hs (fun p j hp => by simp [hp]) _
  have hs1 : s1.store.Canon := by simpa [s1] using hp
  clear_value s1 p
  split
  · simp [hs]
  · split
    · simp [hs]
    · split
      · exact failDispatch_canon (State.canon_foldl (fun s j hs => by simp [hs]) _ hs1) ..
      · simp [hs1]

@[simp] theorem writeRows_canon (r : Req) (c : ErCfg) (rows : List (Nat × Nat × Nat × List Byte)) (done : List (Nat × Nat)) :
    (writeRows r c rows s done).1.store.Canon := by
  induction rows generalizing s done with
  | nil => exact hs
  | cons x rows ih =>
    obtain ⟨m, e, pos, bs⟩ := x
    unfold writeRows
    split
    · exact hs
    next h => exact ih (writeRow_canon hs h) _

@[simp] theorem receiveRows_canon (k die : Nat) (r : Req) (c : ErCfg) (form : Nat) : (receiveRows s k die r c form).store.Canon := by
  unfold receiveRows
  extract_lets g rows p
  have hp : p.1.store.Canon := writeRows_canon hs ..
  clear_value p
  split
  · extract_lets t
    have ht : t.store.Canon := by
      dsimp only [t]
      split <;> simp [hp]
    simp [ht]
  · simp [hp]

@[simp] theorem finishDispatch_canon (k die : Nat) (r : Req) (c : ErCfg) (form : Nat) :
    (finishDispatch s k die r c form).store.Canon := by
  simp [finishDispatch, hs]

@[simp] theorem serveDispatch_canon (k die : Nat) (r : Req) (c : ErCfg) (choice rows : Dword) (t form : Nat) :
    (serveDispatch s k die r c choice rows t form).store.Canon := by
  unfold serveDispatch
  dsimp only
  (repeat' split) <;> simp [hs]

theorem combineTokens_canon (r : Req) (c : ErCfg) (out choice : Dword) (renorm nogate : Bool) (t n : Nat) (cnt : Nat × Nat) :
    (combineTokens s r c out choice renorm nogate t n cnt).1.store.Canon := by
  induction n generalizing s t cnt with
  | zero => exact hs
  | succ n ih =>
    unfold combineTokens
    split
    · exact hs
    · split
      · exact hs
      · split
        · exact hs
        next h => exact ih (engWrite_canon hs h) _ _

@[simp] theorem serveErcomb_canon (k die : Nat) (r : Req) (c : ErCfg) (out choice : Dword) (t : Nat) (renorm nogate : Bool) :
    (serveErcomb s k die r c out choice t renorm nogate).store.Canon := by
  unfold serveErcomb
  have h := combineTokens_canon hs r c out choice renorm nogate 0 t (0, 0)
  split
  · simp [hs]
  · split
    next heq =>
      rw [heq] at h
      exact endEngine_canon h ..
    next heq =>
      rw [heq] at h
      simpa using h

theorem putStats_canon (r : Req) (a : Dword) (i : Nat) (l : List (Nat × Nat)) : (putStats r a i l s).1.store.Canon := by
  induction l generalizing s i with
  | nil => exact hs
  | cons p l ih =>
    unfold putStats
    split
    · exact hs
    next h => exact ih (engWrite_canon hs h) _

@[simp] theorem serveErstat_canon (k die : Nat) (r : Req) (a : Dword) : (serveErstat s k die r a).store.Canon := by
  unfold serveErstat
  extract_lets g
  have h := putStats_canon hs r a 0 (g.totals.zip g.overflow)
  split
  next heq =>
    rw [heq] at h
    exact endEngine_canon h ..
  next heq =>
    rw [heq] at h
    simpa using h

@[simp] theorem serveRouting_canon (k : Nat) (r : Req) : (serveRouting s k r).store.Canon := by
  unfold serveRouting
  dsimp only
  cases (s.engine (dieOf r.tile)).cfg with
  | none => cases r.kind <;> simp [hs]
  | some c =>
    dsimp only
    split
    · simp [hs]
    · cases r.kind <;> simp [hs]

@[simp] theorem respondRouting_canon (k : Nat) (r : Req) : (respondRouting s k r).store.Canon := by
  unfold respondRouting
  extract_lets die s1
  have h1 : s1.store.Canon := by
    dsimp only [s1]
    split <;> simp [hs]
  clear_value s1
  split <;> simp [h1]

end

end Sys2Proof.Machine
end

section
/-! SUPPORT. Work-lists, records, saves, commands, traps, casts and errors keep the canonical form of every memory. -/

namespace Sys2Proof.Machine

/-! ### Work-lists -/

/-- The state a request's part at the home leaves. -/
structure Served.Canon (o : Served) : Prop where
  ok : ∀ {t w}, o = .ok t w → t.store.Canon
  again : ∀ {t}, o = .again t → t.store.Canon

theorem Served.canon_ok {t : State} {w : WorkList} (h : t.store.Canon) : (Served.ok t w).Canon :=
  ⟨fun e => by cases e; exact h, nofun⟩

theorem Served.canon_again {t : State} (h : t.store.Canon) : (Served.again t).Canon := ⟨nofun, fun e => by cases e; exact h⟩

theorem Served.canon_err (v : Viol) (form : Dword) : (Served.err v form).Canon := ⟨nofun, nofun⟩

section
variable {s : State} (hs : s.store.Canon)
include hs

theorem appendEntry_canon (r : Req) (w : WorkList) (v : Dword) : (appendEntry s r w v).Canon := by
  unfold appendEntry
  extract_lets form a bs
  clear_value form a bs
  split
  · exact Served.canon_err ..
  next h => exact Served.canon_again ((storeElem_canon hs ..).wait h)
  next g _ _ _ =>
    have hg : g.2.store.Canon := by
      dsimp only [g]
      split <;> simp [hs]
    clear_value g
    split
    · exact Served.canon_again hg
    · split
      next h => exact Served.canon_ok ((storeElem_canon hg ..).done h)
      next h => exact Served.canon_again ((storeElem_canon hg ..).wait h)
      · exact Served.canon_err ..

theorem moveEntries_canon (r : Req) (w : WorkList) (n m : Nat) : (moveEntries s r w n m).Canon := by
  induction m generalizing s w n with
  | zero => exact Served.canon_ok hs
  | succ m ih =>
    unfold moveEntries
    split
    · exact Served.canon_err ..
    · exact Served.canon_again hs
    · split
      · exact Served.canon_err ..
      next h => exact Served.canon_again ((storeElem_canon hs ..).wait h)
      next h => exact ih ((storeElem_canon hs ..).done h) ..

theorem Served.go_canon {o : Served} (ho : o.Canon) (k : Nat) (r : Req) (id : Nat) {fin : State → State}
    (hfin : ∀ s, s.store.Canon → (fin s).store.Canon) : (o.go s k r id fin).store.Canon := by
  cases o with
  | ok t w => exact hfin _ (by simpa using ho.ok rfl)
  | again t => exact ho.again rfl
  | err v form => simp [Served.go, hs]

@[simp] theorem homePush_canon (k : Nat) (r : Req) (id : Nat) (w : WorkList) (v : Dword) : (homePush s k r id w v).store.Canon := by
  unfold homePush
  split
  · simp [hs]
  · exact Served.go_canon hs (appendEntry_canon hs ..) k r id fun s hs => by simp [hs]

@[simp] theorem homeIns_canon (k : Nat) (r : Req) (id : Nat) (w : WorkList) (key : Word) : (homeIns s k r id w key).store.Canon := by
  unfold homeIns
  split
  · simp [hs]
  · extract_lets a
    split
    · simp [hs]
    · simp [hs]
    · exact hs
    · split
      · simp [hs]
      · extract_lets b
        split
        · simp [hs]
        · split
          · simp [hs]
          · exact Served.go_canon hs (appendEntry_canon hs ..) k r id fun s hs => by simp [hs]

@[simp] theorem homePop_canon (k : Nat) (r : Req) (id : Nat) (w : WorkList) (port n : Nat) :
    (homePop s k r id w port n).store.Canon := by
  unfold homePop
  split
  · exact hs
  · extract_lets m
    split
    · simp [hs]
    next back g _ _ _ =>
      have hg : g.2.store.Canon := by
        dsimp only [g]
        split <;> simp [hs]
      clear_value g
      split
      · simp [hs]
      next h => exact (moveEntries_canon hs ..).again h
      · split
        · exact hg
        · exact Served.go_canon hs (moveEntries_canon hg ..) k r id fun s hs => by simp [hs]

@[simp] theorem homeCnt_canon (k : Nat) (r : Req) (w : Option WorkList) (a : Dword) : (homeCnt s k r w a).store.Canon := by
  unfold homeCnt
  split
  · simp [hs]
  · simp [hs]
  · split
    · simp [hs]
    next h => exact (storeElem_canon hs ..).wait h
    next h => simpa using (storeElem_canon hs ..).done h

/-! ### Records of queues and of samples -/

@[simp] theorem completeRecord_canon (n : Nat) (seq : Word) (txcode : Nat) (cause : BitVec 8) (state : Nat) (cnum : BitVec 48) :
    (completeRecord s n seq txcode cause state cnum).store.Canon := by
  simp [completeRecord, hs]

@[simp] theorem appendRecord_canon (n : Nat) (bs : List Byte) : (appendRecord s n bs).store.Canon := by
  simp [appendRecord, hs]

@[simp] theorem respondLaunch_canon (k : Nat) (r : Req) (n : Nat) (a : Dword) (v : View) (since : Option Nat) :
    (respondLaunch s k r n a v since).store.Canon := by
  unfold respondLaunch
  dsimp only
  (repeat' split) <;> simp [hs]

@[simp] theorem writeSample_canon (s0 : State) (id : Nat) : (writeSample s0 s id).store.Canon := by
  unfold writeSample
  split
  · exact hs
  · split
    · simp [hs]
    · split
      · simp [hs]
      · dsimp only
        split <;> simp [hs]

@[simp] theorem discardRecords_canon (n : Nat) (upto : Word) (fuel : Nat) : (discardRecords n upto fuel s).store.Canon := by
  induction fuel generalizing s with
  | zero => exact hs
  | succ fuel ih =>
    unfold discardRecords
    dsimp only
    split
    · exact hs
    · exact ih (by simp [hs])

/-! ### Saves and freezes -/

@[simp] theorem settleSaved_canon (id : Nat) : (settleSaved s id).store.Canon := by
  unfold settleSaved
  dsimp only
  (repeat' split) <;> simp [hs]

@[simp] theorem saveUnit_canon (id : Nat) (f : Frieze) : (saveUnit s id f).store.Canon := by
  unfold saveUnit
  extract_lets ids stops
  clear_value stops ids
  split
  · exact hs
  · split
    · refine State.canon_foldl (fun s a hs => ?_) _ hs
      split <;> simp [hs]
    · split
      · exact hs
      · exact State.canon_foldl (fun s a hs => by simp [hs]) _ (by simp [hs])

theorem frozenNow_canon (d : Dword) (was : Bool) {g : State → State} (hg : (g s).store.Canon) : (frozenNow s d was g).1.store.Canon := by
  unfold frozenNow
  split
  · exact hs
  · simp [hg]

@[simp] theorem freezeFrieze_canon (d : Dword) (tgt : Option Nat) : (freezeFrieze s d tgt).1.store.Canon := by
  unfold freezeFrieze
  split
  · exact hs
  · split
    · exact hs
    · dsimp only
      split <;> simp [hs]

@[simp] theorem freezeMaster_canon (d : Dword) (tgt : Option Nat) : (freezeMaster s d tgt).1.store.Canon := by
  unfold freezeMaster
  extract_lets j
  split
  · simp [hs]
  · split
    · exact hs
    · exact frozenNow_canon hs _ _ (by simp [hs])
  · split
    · exact hs
    · exact frozenNow_canon hs _ _ (by simp [hs])
  · split
    · exact hs
    · exact frozenNow_canon hs _ _ (by simp [hs])
  · split
    · exact hs
    · exact frozenNow_canon hs _ _ (by simp [hs])
  · exact frozenNow_canon hs _ _ (by simp [hs])

@[simp] theorem thawFrieze_canon (d : Dword) (tgt : Option Nat) : (thawFrieze s d tgt).1.store.Canon := by
  unfold thawFrieze
  (repeat' split) <;> simp [hs]

@[simp] theorem thawMaster_canon (d : Dword) (tgt : Option Nat) : (thawMaster s d tgt).1.store.Canon := by
  unfold thawMaster
  dsimp only
  split
  · simp [hs]
  · split <;> simp [hs]
  all_goals simp [hs]

@[simp] theorem actMaster_canon (d : Dword) (thaw : Bool) (tgt : Option Nat) : (actMaster s d thaw tgt).1.store.Canon := by
  unfold actMaster
  split <;> simp [hs]

@[simp] theorem respondMaster_canon (k : Nat) (r : Req) (d : Dword) (thaw : Bool) (tgt : Option Nat) :
    (respondMaster s k r d thaw tgt).store.Canon := by
  unfold respondMaster
  dsimp only
  split <;> simp [hs]

@[simp] theorem answer_canon (k : Nat) (r : Req) : (answer s k r).store.Canon := by
  unfold answer
  cases r.kind <;> simp [hs]

end

/-! ### Scrubs and the numbering of the module's memory -/

theorem Tab.sorted_filter {α : Type} {t : Tab α} (h : Tab.Sorted t) (p : Nat × α → Bool) : Tab.Sorted (t.filter p) :=
  List.Pairwise.filter p h

theorem Memory.clear_wf {m : Memory} (h : m.wf) (a n : Nat) : (m.clear a n).wf :=
  ⟨Tab.sorted_filter h.1 _, fun c hc => h.2 c (List.mem_of_mem_filter hc)⟩

/-- The cells of one module's part, numbered anew: their order stays. -/
theorem Tab.sorted_renumber {α : Type} {t : Tab α} (h : Tab.Sorted t) (z old new : Nat) :
    Tab.Sorted ((t.filter fun c => decide (c.1 / z = old)).map fun c => (c.1 % z + z * new, c.2)) := by
  refine List.pairwise_map.2 (List.Pairwise.imp_of_mem ?_ (Tab.sorted_filter h _))
  intro a b ha hb hab
  have hqa : a.1 / z = old := by simpa using (List.mem_filter.1 ha).2
  have hqb : b.1 / z = old := by simpa using (List.mem_filter.1 hb).2
  have ha' := Nat.div_add_mod a.1 z
  have hb' := Nat.div_add_mod b.1 z
  rw [hqa] at ha'
  rw [hqb] at hb'
  dsimp only
  omega

/-- A table without the part new of the keys, with a table of that part put in its place. -/
theorem Tab.sorted_splice {α : Type} {rest mine : Tab α} {z new : Nat} (hz : 0 < z) (hrest : Tab.Sorted rest) (hmine : Tab.Sorted mine)
    (restPart : ∀ c ∈ rest, c.1 / z ≠ new) (minePart : ∀ c ∈ mine, c.1 / z = new) :
    Tab.Sorted ((rest.filter fun c => decide (c.1 < z * new)) ++ mine ++ rest.filter fun c => decide (z * new ≤ c.1)) := by
  have mineBounds (c : Nat × α) (hc : c ∈ mine) : z * new ≤ c.1 ∧ c.1 < z * (new + 1) := by
    have h := Nat.div_add_mod c.1 z
    have hlt := Nat.mod_lt c.1 hz
    rw [minePart c hc] at h
    rw [Nat.mul_succ]
    omega
  have highBound (c : Nat × α) (hc : c ∈ rest.filter fun c => decide (z * new ≤ c.1)) : z * (new + 1) ≤ c.1 := by
    obtain ⟨hmem, hle⟩ := List.mem_filter.1 hc
    have hq : new ≤ c.1 / z := (Nat.le_div_iff_mul_le hz).2 (by simpa [Nat.mul_comm] using hle)
    have hne := restPart c hmem
    rw [Nat.mul_comm]
    exact Nat.mul_le_of_le_div z _ _ (by omega)
  have lowBound (c : Nat × α) (hc : c ∈ rest.filter fun c => decide (c.1 < z * new)) : c.1 < z * new := by
    simpa using (List.mem_filter.1 hc).2
  refine List.pairwise_append.2 ⟨List.pairwise_append.2 ⟨Tab.sorted_filter hrest _, hmine, fun a ha b hb => ?_⟩,
    Tab.sorted_filter hrest _, fun a ha b hb => Nat.lt_of_lt_of_le ?_ (highBound b hb)⟩
  · exact Nat.lt_of_lt_of_le (lowBound a ha) (mineBounds b hb).1
  · rcases List.mem_append.1 ha with ha | ha
    · have := lowBound a ha
      rw [Nat.mul_succ]
      omega
    · exact (mineBounds a ha).2

theorem Memory.renumber_wf {m : Memory} (h : m.wf) (old new : Nat) : (m.renumber old new).wf := by
  unfold Memory.renumber
  split
  · exact h
  · extract_lets z mine rest y
    have hz : 0 < z := by decide
    have restPart : ∀ c ∈ rest, c.1 / z ≠ new := fun c hc => by
      have := (List.mem_filter.1 hc).2
      simp only [Bool.and_eq_true, decide_eq_true_eq] at this
      exact this.2
    have minePart : ∀ c ∈ mine, c.1 / z = new := fun c hc => by
      obtain ⟨d, -, rfl⟩ := List.mem_map.1 hc
      rw [Nat.add_mul_div_left _ _ hz, Nat.div_eq_of_lt (Nat.mod_lt _ hz), Nat.zero_add]
    refine ⟨Tab.sorted_splice hz (Tab.sorted_filter h.1 _) (Tab.sorted_renumber h.1 z old new) restPart minePart, fun c hc => ?_⟩
    rcases List.mem_append.1 hc with hc | hc
    · rcases List.mem_append.1 hc with hc | hc
      · exact h.2 c (List.mem_of_mem_filter (List.mem_of_mem_filter hc))
      · obtain ⟨d, hd, rfl⟩ := List.mem_map.1 hc
        exact h.2 d (List.mem_of_mem_filter hd)
    · exact h.2 c (List.mem_of_mem_filter (List.mem_of_mem_filter hc))

/-! ### Jobs, spans and banks -/

section
variable {s : State} (hs : s.store.Canon)
include hs

@[simp] theorem State.putHbm_canon (a : Nat) (bs : List Byte) : (s.putHbm a bs).store.Canon := State.putBytes_canon hs ..

@[simp] theorem State.scrubHbm_canon (a n : Nat) : (s.scrubHbm a n).store.Canon := hs.withHbm (Memory.clear_wf hs.hbm ..)

@[simp] theorem endCast_canon (w : CastWork) (event : BitVec 8) (cause : Cause) : (endCast s w event cause).store.Canon := by
  simp [endCast, hs]

@[simp] theorem clearJob_canon (j : Nat) (job : Job) : (clearJob s j job).store.Canon := by
  unfold clearJob
  extract_lets mine banks
  refine Store.canon_of.2 ⟨hs.hbm, ?_, hs.staged, fun p hp => ?_, hs.saves⟩
  · exact List.foldlRecOn _ _ hs.sram fun m hm b _ => Memory.clear_wf hm ..
  · obtain ⟨⟨k, x⟩, hx, rfl⟩ := List.mem_map.1 hp
    dsimp only
    split
    · exact Memory.empty_wf
    · exact hs.tiles _ hx

@[simp] theorem killJob_canon (j : Nat) (job : Job) : (killJob s j job).store.Canon := by
  unfold killJob
  extract_lets s0 s1 s2 gone keep s3 s4
  have hs0 : s0.store.Canon := by
    dsimp only [s0]
    split
    · split <;> simp [hs]
    · exact hs
  have hs1 : s1.store.Canon := by
    dsimp only [s1]
    split <;> simp [hs0]
  have hs3 : s3.store.Canon := State.mqRecord_canon hs1 ..
  have hs4 : s4.store.Canon := clearJob_canon hs3 ..
  exact hs4.withJobs fun p hp => hs4.saves p (Tab.mem_del hp)

/-- A tile handed over to a job: its memory is kept with the job it leaves, and the one kept with the job it comes to stands in it. -/
@[simp] theorem handOver_canon (j t : Nat) : (handOver j s t).store.Canon := by
  unfold handOver
  extract_lets x
  split
  · exact hs
  next s1 m s2 _ _ =>
    have hs1 : s1.store.Canon := by
      dsimp only [s1]
      split
      · refine State.updJob_canon hs _ fun y hy q hq => ?_
        rcases Tab.mem_put hq with rfl | hq
        · exact hs.tile t
        · exact hs.saves _ (Tab.mem_of_find hy) q hq
      · exact hs
    have hm : m.wf := by
      dsimp only [m]
      cases hy : (s1.job? j).bind fun y => y.localSaves.find t with
      | none => exact Memory.empty_wf
      | some y =>
        obtain ⟨x, hx, hf⟩ := Option.bind_eq_some_iff.1 hy
        exact hs1.saves _ (Tab.mem_of_find hx) _ (Tab.mem_of_find hf)
    have hs2 : s2.store.Canon := State.updJob_canon hs1 _ fun y hy q hq => hs1.saves _ (Tab.mem_of_find hy) q (Tab.mem_del hq)
    exact State.setTile_canon hs2 t hm

@[simp] theorem settlePartition_canon (j : Nat) (l : List Span) : (settlePartition s j l).1.store.Canon := by
  unfold settlePartition
  split
  · exact hs
  · exact State.canon_foldl (fun s t hs => handOver_canon hs j t) _ (by simp [hs])

@[simp] theorem settleReset_canon (n : Nat) (upto : Word) : (settleReset s n upto).1.store.Canon := discardRecords_canon hs ..

/-! ### Lost ports -/

@[simp] theorem losePortDispatches_canon (dir : Nat) : (losePortDispatches s dir).store.Canon := by
  unfold losePortDispatches
  refine State.canon_foldl (fun s die hs => ?_) _ hs
  split
  · exact hs
  · split <;> simp [hs]

@[simp] theorem loseRecords_canon : (loseRecords s).store.Canon := by
  unfold loseRecords
  refine State.canon_foldl (fun s p hs => ?_) _ hs
  obtain ⟨k, d⟩ := p
  dsimp only
  split
  · refine State.canon_foldl (fun s p hs => ?_) _ hs
    obtain ⟨t, r⟩ := p
    dsimp only
    split
    · simp [hs]
    · simp [hs]
    · split <;> simp [hs]
    · exact hs
  · exact hs

@[simp] theorem losePort_canon (port : Nat) (lanes : List Nat) : (losePort s port lanes).store.Canon := by
  unfold losePort
  split
  · exact hs
  · extract_lets far life s1 s2 addr
    have hs1 : s1.store.Canon := by simpa [s1] using hs
    have hs2 : s2.store.Canon := by simp [s2, hs1]
    refine State.canon_foldl (fun s p hs => ?_) _ hs2
    obtain ⟨j, x⟩ := p
    dsimp only
    split <;> simp [hs]

@[simp] theorem apertureFault_canon (va : Nat) : (apertureFault s va).store.Canon := by simp [apertureFault, hs]

/-! ### Traps -/

@[simp] theorem startHandler_canon (id : Nat) (f : Frieze) {j : Job} (hj : ∀ q ∈ j.localSaves, q.2.wf) (i : Nat) :
    (startHandler s id f j i).store.Canon := by
  unfold startHandler
  extract_lets k q s1
  have hs1 : s1.store.Canon := by simpa [s1] using hs
  exact State.putJob_canon hs1 f.job hj

@[simp] theorem trapFrieze_canon (id : Nat) (f : Frieze) (t : Trap) : (trapFrieze s id f t).store.Canon := by
  unfold trapFrieze
  extract_lets ended
  have hended (form : Dword) : (ended form).store.Canon := by simp [ended, hs]
  clear_value ended
  split
  · exact hended _
  next j hj =>
    split
    · exact hended _
    · split
      · exact hended _
      · split
        · exact hended _
        · exact startHandler_canon (State.scatter_canon hs ..) id f (hs.saves _ (Tab.mem_of_find hj)) _

@[simp] theorem trapHandler_canon (id v : Nat) (t : Trap) : (trapHandler s id v t).store.Canon := by
  unfold trapHandler
  split
  · simp [hs]
  · simp [hs]

/-! ### Casts and remote accesses -/

@[simp] theorem freezeCast_canon (w : CastWork) (v : Viol) (va : Nat) : (freezeCast s w v va).store.Canon := by
  unfold freezeCast
  split <;> simp [hs]

@[simp] theorem finishCast_canon (w : CastWork) : (finishCast s w).store.Canon := by
  unfold finishCast
  split <;> simp [hs]

theorem restoreLine_canon {w : CastWork} {va : Nat} {bs : List Byte} {t : State} (h : restoreLine s w va bs = .ok t) :
    t.store.Canon := by
  unfold restoreLine at h
  split at h
  · cases h
  · split at h
    · cases h
    · split at h <;> cases h <;> simp [hs]

theorem restoreLines_canon {w : CastWork} {vas : List Nat} {bs : List Byte} {t : State} (h : restoreLines w vas bs s = .ok t) :
    t.store.Canon := by
  induction vas generalizing s bs with
  | nil => cases h; exact hs
  | cons va vas ih =>
    unfold restoreLines at h
    split at h
    · cases h
    next hline => exact ih (restoreLine_canon hs hline) h

theorem restoreLines_canon_of_error {w : CastWork} {vas : List Nat} {bs : List Byte} {t : State} {e : Viol × Nat}
    (h : restoreLines w vas bs s = .error (t, e)) : t.store.Canon := by
  induction vas generalizing s bs with
  | nil => cases h
  | cons va vas ih =>
    unfold restoreLines at h
    split at h
    · cases h; exact hs
    next hline => exact ih (restoreLine_canon hs hline) h

@[simp] theorem finishRestore_canon (w : CastWork) : (finishRestore s w).store.Canon := by
  unfold finishRestore
  extract_lets read h d0
  have hread (t : State) (off n : Nat) : (read t off n).2.store = t.store := rfl
  have hh : h.2.store.Canon := by rw [hread]; exact hs
  clear_value h d0
  split
  · simp [hh]
  next n b lines _ =>
    have hb : b.2.store.Canon := by rw [hread]; exact hh
    clear_value b
    split
    next heq => simp [restoreLines_canon_of_error hb heq]
    next heq => simp [restoreLines_canon hb heq]

theorem rdmaData_canon {qp key va : Nat} {data : List Byte} {p : State × Nat} (h : rdmaData s qp key va data = some p) :
    p.1.store.Canon := by
  unfold rdmaData at h
  split at h
  · cases h
  · split at h
    · cases h
    · split at h <;> cases h
      simp [hs]

/-! ### Errors and resets -/

@[simp] theorem fenceRow_canon (t : Nat) : (fenceRow s t).store.Canon := by
  unfold fenceRow
  extract_lets row
  split
  · exact hs
  next on held life s1 _ =>
    have hs1 : s1.store.Canon := by simpa [s1] using hs
    exact State.canon_foldl (fun s j hs => by simp [hs]) _ hs1

@[simp] theorem checkFrieze_canon (id : Nat) : (checkFrieze s id).store.Canon := by
  unfold checkFrieze
  split
  · exact hs
  next f _ =>
    split
    · exact hs
    · split
      · simp [hs]
      · cases f.handler <;> simp [hs]

@[simp] theorem checkTraffic_canon (ids : List Nat) : (checkTraffic s ids).store.Canon := by
  induction ids generalizing s with
  | nil => exact hs
  | cons id ids ih =>
    unfold checkTraffic
    refine ih ?_
    split
    · simp [hs]
    · split <;> simp [hs]

@[simp] theorem checkEngines_canon (dies : List Nat) : (checkEngines s dies).store.Canon := by
  induction dies generalizing s with
  | nil => exact hs
  | cons die dies ih =>
    unfold checkEngines
    refine ih ?_
    split <;> simp [hs]

@[simp] theorem checkCast_canon : (checkCast s).store.Canon := by
  unfold checkCast
  dsimp only
  split <;> simp [hs]

@[simp] theorem checkSaves_canon (t : Nat) : (checkSaves s t).store.Canon := by
  unfold checkSaves
  exact State.canon_foldl (fun s id hs => by simp [hs]) _ hs

@[simp] theorem tileError_canon (t : Nat) {poison : Tile → Tile} (hp : (poison (s.tile t)).mem.wf) :
    (tileError s t poison).store.Canon := by
  unfold tileError
  exact fenceRow_canon (checkSaves_canon (State.updTile_canon hs t hp) t) t

end

theorem State.reset_canon : State.reset.store.Canon :=
  Store.canon_of.2 ⟨Memory.empty_wf, Memory.empty_wf, Memory.empty_wf, nofun, nofun⟩

@[simp] theorem State.afterReset_canon (s : State) (broken : Bool) : (s.afterReset broken).store.Canon := State.reset_canon

end Sys2Proof.Machine
end

section
/-! SUPPORT. The outcomes of instructions: each leaves every memory in canonical form. -/

namespace Sys2Proof.Machine

/-! ### Outcomes -/

/-- The state an outcome leaves, where it leaves one, holds memories in canonical form. -/
structure Res.Canon (r : Res) : Prop where
  next : ∀ {t}, r = .next t → t.store.Canon

@[simp] theorem Res.canon_next (t : State) : Res.Canon (.next t) ↔ t.store.Canon :=
  ⟨fun h => h.next rfl, fun h => ⟨fun e => by cases e; exact h⟩⟩

@[simp] theorem Res.canon_fault (e : Fault) : Res.Canon (.fault e) := ⟨nofun⟩

/-- The state the effect of a word leaves, where it completes or waits, holds memories in canonical form. -/
structure Eff.Canon (e : Eff) : Prop where
  done : ∀ {t now}, e = .done t now → t.store.Canon

@[simp] theorem Eff.canon_done (t : State) (now : Bool) : (Eff.done t now).Canon ↔ t.store.Canon :=
  ⟨fun h => h.done rfl, fun h => ⟨fun e => by cases e; exact h⟩⟩

@[simp] theorem Eff.canon_trap (cause : Cause) (d0 : Dword) : (Eff.trap cause d0).Canon := ⟨nofun⟩

@[simp] theorem Eff.canon_viol (cause : Cause) (addr : Dword) : (Eff.viol cause addr).Canon := ⟨nofun⟩

@[simp] theorem Viol.canon_eff (v : Viol) (addr : Dword) : (v.eff addr).Canon := by
  unfold Viol.eff
  split <;> simp

@[simp] theorem Eff.canon_ite (c : Prop) [Decidable c] (a b : Eff) : (if c then a else b).Canon ↔ if c then a.Canon else b.Canon := by
  split <;> rfl

section
variable {s : State} (hs : s.store.Canon)
include hs

/-- A word's issue keeps the memories canonical if its effect does. -/
@[simp] theorem issueWord_canon {i : Instr} {h : Hdr} {body : Ctx → State → Eff} (hbody : ∀ c, (body c (beforeEffect c i s)).Canon) :
    Res.Canon (issueWord i h s body) := by
  unfold issueWord
  split
  · simp
  next c _ =>
    split
    · simp [hs]
    split
    · simp [hs]
    split
    · simp [hs]
    split
    · simp [hs]
    split
    · simp [hs]
    · split
      next h => simpa using (hbody c).done h
      · simp [hs]
      · simp [hs]

theorem issueWord_canon_of_body {i : Instr} {h : Hdr} {body : Ctx → State → Eff} (hbody : ∀ c s, s.store.Canon → (body c s).Canon) :
    Res.Canon (issueWord i h s body) :=
  issueWord_canon hs fun c => hbody c _ (by simpa using hs)

theorem turnUnder_canon (rom : Bool) {body : State → Turn} (hbody : (body s).1.store.Canon) : (turnUnder rom s body).1.store.Canon := by
  unfold turnUnder
  split
  · exact hs
  · split
    · exact hs
    · exact hbody

/-- A command's turn keeps the memories canonical if its effect does. -/
@[simp] theorem runCommand_canon {i : Instr} {tag : BitVec 32} {rom : Bool} {body : State → Turn}
    (hbody : (body { s with serving := false }).1.store.Canon) : Res.Canon (runCommand i tag rom s body) := by
  have hturn := turnUnder_canon (s := { s with serving := false }) hs rom hbody
  rw [runCommand, Res.canon_next]
  split
  · split <;> simp [hs]
  · dsimp only
    split <;> simp [hturn]

theorem runCommand_canon_of_body {i : Instr} {tag : BitVec 32} {rom : Bool} {body : State → Turn}
    (hbody : ∀ s, s.store.Canon → (body s).1.store.Canon) : Res.Canon (runCommand i tag rom s body) :=
  runCommand_canon hs (hbody _ hs)

@[simp] theorem checked_canon (rows : List (Bool × Nat)) {t : State} (ht : t.store.Canon) : (checked rows s t).1.store.Canon := by
  unfold checked
  split
  · exact hs
  · exact ht

end

section
variable {s : State} (hs : s.store.Canon)
include hs

@[simp] theorem startStream_canon (c : Ctx) (o : StOps) (q : Slot) (second : Option Shape) (needSecond bounded limits : Bool)
    (ports : List Nat) (atIssue : Bool) : (startStream c s o q second needSecond bounded limits ports atIssue).Canon := by
  unfold startStream
  dsimp only
  generalize shapeCheck _ _ _ _ _ _ = fault
  cases fault with
  | some e => simp
  | none => (repeat' split) <;> simp [hs]

@[simp] theorem execMaqld_canon (h : Hdr) (m : BitVec 2) (a b : Reg) : Res.Canon (execMaqld h m a b s) :=
  issueWord_canon_of_body hs fun c s hs => by
    dsimp only
    (repeat' split) <;> simp [execMaqld.begin_, hs]

@[simp] theorem execStreamElementPerformed_canon (fz st slot : Nat) : Res.Canon (execStreamElementPerformed fz st slot s) := by
  rw [execStreamElementPerformed, Res.canon_next]
  split
  · exact runSlot_canon hs (fun f q => by simp [hs]) ..
  · split
    · split
      · exact hs
      · split <;> simp [hs]
    · exact runSlot_canon hs (fun f q => by simp [hs]) ..

@[simp] theorem execRemoteReleaseArrival_canon (r : Release) (a b : Nat) : Res.Canon (execRemoteReleaseArrival r a b s) := by
  unfold execRemoteReleaseArrival
  rw [Res.canon_next]
  split
  · simp [hs]
  · refine farRelease_canon hs (fun s hs => ?_) ..
    split <;> simp [hs]
  · refine farRelease_canon hs (fun s hs => ?_) ..
    split
    next h => exact atomicAt_canon hs h
    · split <;> simp [hs]

@[simp] theorem execAtomicApply_canon (fz st slot : Nat) : Res.Canon (execAtomicApply fz st slot s) := by
  rw [execAtomicApply, Res.canon_next]
  refine runSlot_canon hs (fun f q => ?_) ..
  split <;> simp [hs]

@[simp] theorem execSampleInstant_canon : Res.Canon (execSampleInstant s) :=
  (Res.canon_next _).2 (State.canon_foldl (fun _ id ht => writeSample_canon ht s id) _ hs)

theorem homeLost_canon {k : Nat} {r : Req} {t : State} (h : homeLost s k r = some t) : t.store.Canon := by
  simp only [homeLost, Option.ite_none_right_eq_some, Option.some.injEq] at h
  obtain ⟨-, rfl⟩ := h
  simp [hs]

@[simp] theorem execEngineResponse_canon (req : Nat) : Res.Canon (execEngineResponse req s) := by
  rw [execEngineResponse, Res.canon_next]
  split
  · exact hs
  next r _ =>
    split
    · exact hs
    split
    · exact hs
    split
    · simp [hs]
    split
    next h => exact homeLost_canon hs h
    · (repeat' split) <;> simp [hs]

@[simp] theorem execPlaceFrieze_canon (fz : Nat) : Res.Canon (execPlaceFrieze fz s) := by
  have hgo (own : Bool) (c : Cand) : (execPlaceFrieze.go fz s own c).store.Canon := by
    unfold execPlaceFrieze.go
    (repeat' split) <;> simp [hs]
  rw [execPlaceFrieze, Res.canon_next]
  dsimp only
  split
  · split <;> simp [hs, hgo]
  · exact hgo ..

@[simp] theorem execIssueSelect_canon (tile : Nat) : Res.Canon (execIssueSelect tile s) := by
  rw [execIssueSelect, Res.canon_next]
  extract_lets here s1 ready
  have hs1 : s1.store.Canon := State.canon_foldl (fun _ _ hs => by split <;> simp [hs]) _ hs
  clear_value s1 ready
  split
  next id _ =>
    have h2 := State.canon_foldl (g := fun t p => if p.2 = 0 ∧ p.1 ≠ id then
      t.updSt p.1 0 fun x => { x with notsel := x.notsel + 1 } else t) (fun _ _ hs => by split <;> simp [hs]) ready hs1
    simpa using h2
  · split <;> simp [hs1]

/-! ### Commands -/

@[simp] theorem execJobCreate_canon (c : Cmd) : Res.Canon (execJobCreate c s) :=
  runCommand_canon_of_body hs fun _ hs => checked_canon hs _ (State.putJob_canon hs _ nofun)

@[simp] theorem execJobKill_canon (c : Cmd) : Res.Canon (execJobKill c s) :=
  runCommand_canon_of_body hs fun s hs => checked_canon hs _ (by split <;> simp [hs])

@[simp] theorem execSetShared_canon (c : Cmd) : Res.Canon (execSetShared c s) :=
  runCommand_canon_of_body hs fun s hs => checked_canon hs _ (State.canon_foldl (fun s b hs => by
    split
    · simpa using hs
    · exact hs.withSram (Memory.clear_wf hs.sram ..)) _ (by simp [hs]))

@[simp] theorem execTorusSet_canon (c : Cmd) : Res.Canon (execTorusSet c s) :=
  runCommand_canon_of_body hs fun _ hs => checked_canon hs _ (hs.withHbm (Memory.renumber_wf hs.hbm ..))

@[simp] theorem execLinkTrain_canon (c : Cmd) : Res.Canon (execLinkTrain c s) :=
  runCommand_canon_of_body hs fun s hs => checked_canon hs _ (by
    dsimp only
    split
    · simp [hs]
    · split
      · simp [hs]
      · refine State.canon_foldl (fun s j hs => ?_) _ (by simp [hs])
        split <;> simp [hs])

@[simp] theorem execPower_canon (c : Cmd) : Res.Canon (execPower c s) :=
  runCommand_canon_of_body hs fun s hs => by
    dsimp only
    split
    · exact hs
    · split
      · exact hs
      · refine hs.withTiles ?_
        split
        · intro p hp
          obtain ⟨q, hq, rfl⟩ := List.mem_map.1 hp
          exact Memory.empty_wf
        · exact hs.tiles

@[simp] theorem execFwLoad_canon (c : Cmd) : Res.Canon (execFwLoad c s) :=
  runCommand_canon_of_body hs fun s hs => by
    dsimp only
    split
    · exact hs
    · split
      · exact hs
      · exact hs.withStaged (Memory.writeBytes_wf hs.staged ..)

/-! ### The module -/

@[simp] theorem execApertureWrite_canon (off : Nat) (data : List Byte) : Res.Canon (execApertureWrite off data s) := by
  rw [execApertureWrite, Res.canon_next]
  split
  · split
    · exact hs.withStaged (Memory.writeBytes_wf hs.staged ..)
    · exact hs
  · split
    · simp [hs]
    · split <;> simp [hs]

@[simp] theorem execBringUp_canon : Res.Canon (execBringUp s) := by
  rw [execBringUp, Res.canon_next]
  split
  · exact hs
  · split
    · refine State.putJob_canon hs 0 ?_
      cases h : s.jobs.find 0 with
      | none => exact nofun
      | some j => exact hs.saves _ (Tab.mem_of_find h)
    · exact hs

@[simp] theorem execRdmaWrite_canon (qp key va : Nat) (data : List Byte) : Res.Canon (execRdmaWrite qp key va data s) := by
  rw [execRdmaWrite, Res.canon_next]
  split
  · simp [hs]
  next h => exact rdmaData_canon hs h

@[simp] theorem execRdmaWriteWithImmediate_canon (qp key va : Nat) (data : List Byte) (imm : BitVec 32) :
    Res.Canon (execRdmaWriteWithImmediate qp key va data imm s) := by
  rw [execRdmaWriteWithImmediate, Res.canon_next]
  split
  · simp [hs]
  next h =>
    have ht := rdmaData_canon hs h
    dsimp only
    split <;> simp [ht]

end

section
variable {s : State} (hs : s.store.Canon)
include hs

@[simp] theorem execControlBeatCheck_canon (tile col : Nat) : Res.Canon (execControlBeatCheck tile col s) := by
  rw [execControlBeatCheck, Res.canon_next]
  split
  · exact hs
  · split
    · exact hs
    · dsimp only
      split
      · simp [hs]
      · refine State.canon_foldl (fun s p hs => ?_) _ (by simp [hs])
        obtain ⟨u, g, l⟩ := p
        dsimp only
        split
        · exact hs
        · split
          · simp [hs]
          · rw [State.updTile_store]
            · exact hs
            · refine Tile.mem_foldl (fun x lane => Tile.mem_foldl (fun x j => ?_) _ x) _ _
              split <;> simp

@[simp] theorem execEmit_canon (tile col : Nat) : Res.Canon (execEmit tile col s) := by
  rw [execEmit, Res.canon_next]
  split
  · exact hs
  · dsimp only
    split
    · exact hs
    · split
      · exact hs
      · split
        · exact hs
        · rw [State.updTile_store]
          · simp [hs]
          · split
            · rw [Tile.updRun_mem, Tile.mem_foldl (fun x l => Tile.mem_foldl (fun x c => by split <;> simp) _ x), Tile.mem_foldl (by simp)]
            · rw [Tile.updRun_mem, Tile.mem_foldl (by simp)]

@[simp] theorem execRegionMarkerTaken_canon (tile col : Nat) : Res.Canon (execRegionMarkerTaken tile col s) := by
  rw [execRegionMarkerTaken, Res.canon_next]
  split
  · exact hs
  · split
    · exact hs
    · extract_lets ports s1 x heads marks data
      have hs1 : s1.store.Canon := by simpa [s1] using hs
      clear_value s1 ports marks data x
      (repeat' split) <;> simp [hs1]

@[simp] theorem execLastingError_canon (site : ErrorSite) : Res.Canon (execLastingError site s) := by
  unfold execLastingError
  rw [Res.canon_next, State.keepLife_store]
  cases site
  all_goals dsimp only
  case tile t => simp [hs]
  case localLine t line => exact tileError_canon hs t (Memory.poison_wf (hs.tile t) _)
  case sharedLine bank line =>
    refine State.canon_foldl (fun s p hs => ?_) _ (hs.withSram (Memory.poison_wf hs.sram _))
    obtain ⟨j, x⟩ := p
    dsimp only
    split <;> simp [hs]
  case hbmLine line =>
    refine State.canon_foldl (fun s p hs => ?_) _ (hs.withHbm (Memory.poison_wf hs.hbm _))
    obtain ⟨j, x⟩ := p
    dsimp only
    split <;> simp [hs]
  case planeLink a b =>
    exact fenceRow_canon (fenceRow_canon (checkCast_canon (checkEngines_canon (checkTraffic_canon hs _) _)) _) _
  case ualink port lane => simp [hs]
  case configNet fz => (repeat' split) <;> simp [hs]
  case pcie lane => simpa using hs
  case ethernet lane => simpa using hs
  all_goals exact tileError_canon hs _ (by simpa using hs.tile _)

end

section
variable {s : State} (hs : s.store.Canon)
include hs

/-! #### Versioned memory -/

@[simp] theorem execPublish_canon (job dom txid ctrl : Nat) : Res.Canon (execPublish job dom txid ctrl s) := by
  rw [execPublish, Res.canon_next]
  split <;> simp [hs]

@[simp] theorem execCommitComplete_canon (job dom txid : Nat) : Res.Canon (execCommitComplete job dom txid s) := by
  rw [execCommitComplete, Res.canon_next]
  split <;> simp [hs]

@[simp] theorem execVoidCommit_canon (job dom txid : Nat) : Res.Canon (execVoidCommit job dom txid s) := by
  rw [execVoidCommit, Res.canon_next]
  split <;> simp [hs]

@[simp] theorem execLwmBroadcast_canon (job dom : Nat) : Res.Canon (execLwmBroadcast job dom s) := by
  rw [execLwmBroadcast, Res.canon_next]
  split <;> simp [hs]

@[simp] theorem execPoolWaitExpiry_canon (job dom ctrl : Nat) : Res.Canon (execPoolWaitExpiry job dom ctrl s) := by
  rw [execPoolWaitExpiry, Res.canon_next]
  (repeat' split) <;> simp [hs]

@[simp] theorem execTxclaim_canon (h : Hdr) (v : BitVec 3) (a : Reg) (shape : BitVec 4) : Res.Canon (execTxclaim h v a shape s) :=
  issueWord_canon_of_body hs fun c s hs => by
    dsimp only
    (repeat' split) <;> simp [hs]

/-! #### Ports -/

@[simp] theorem execPortrd_canon (h : Hdr) (d a : Reg) (o : BitVec 5) : Res.Canon (execPortrd h d a o s) :=
  issueWord_canon_of_body hs fun c s hs => by
    (repeat' split) <;> simp [hs]

/-! #### Scalar and global accesses -/

@[simp] theorem scalarWord_canon (i : Instr) (h : Hdr) (store quad : Bool) (d a : Reg) (imm : BitVec 26) :
    Res.Canon (scalarWord i h store quad d a imm s) :=
  issueWord_canon_of_body hs fun c s hs => by
    dsimp only
    (repeat' split) <;> simp [hs]

@[simp] theorem globalWord_canon (i : Instr) (h : Hdr) (kind : SKind) (d a : Reg) (imm : BitVec 26) :
    Res.Canon (globalWord i h kind d a imm s) :=
  issueWord_canon_of_body hs fun c s hs => by
    dsimp only
    (repeat' split) <;> simp [hs]

@[simp] theorem execAtomg_canon (h : Hdr) (d a b e : Reg) (op : BitVec 4) (size : Bool) : Res.Canon (execAtomg h d a b e op size s) :=
  issueWord_canon_of_body hs fun c s hs => by
    dsimp only
    (repeat' split) <;> simp [hs]

/-! #### The array -/

@[simp] theorem execOperatorFire_canon (tile col slot : Nat) : Res.Canon (execOperatorFire tile col slot s) := by
  rw [execOperatorFire, Res.canon_next]
  dsimp only
  (repeat' split) <;> simp [hs]

@[simp] theorem execAlignmentMarkerTaken_canon (tile col slot : Nat) : Res.Canon (execAlignmentMarkerTaken tile col slot s) := by
  rw [execAlignmentMarkerTaken, Res.canon_next]
  (repeat' split) <;> simp [hs]

@[simp] theorem execOutportWordFire_canon (tile o : Nat) : Res.Canon (execOutportWordFire tile o s) := by
  rw [execOutportWordFire, Res.canon_next]
  dsimp only
  (repeat' split) <;> simp [hs]

/-! #### Control of the array -/

@[simp] theorem execMaqldComplete_canon (tile ctx : Nat) : Res.Canon (execMaqldComplete tile ctx s) := by
  rw [execMaqldComplete, Res.canon_next]
  dsimp only
  (repeat' split) <;> simp [hs]

@[simp] theorem execChbind_canon (h : Hdr) (x : BitVec 5) (a : Reg) (n : BitVec 5) : Res.Canon (execChbind h x a n s) :=
  issueWord_canon_of_body hs fun c s hs => by
    (repeat' split) <;> simp [hs]

@[simp] theorem execSrseed_canon (h : Hdr) (m : BitVec 2) (a : Reg) : Res.Canon (execSrseed h m a s) :=
  issueWord_canon_of_body hs fun c s hs => by simp [hs]

/-! #### Streams -/

@[simp] theorem execHoldTimeout_canon (fz st slot : Nat) : Res.Canon (execHoldTimeout fz st slot s) := by
  rw [execHoldTimeout, Res.canon_next]
  split <;> simp [hs]

/-! #### Ordering and signals -/

@[simp] theorem execRatom_canon (h : Hdr) (a b e d : Reg) (op : BitVec 4) (size acq : Bool) (rel : BitVec 7) :
    Res.Canon (execRatom h a b e d op size acq rel s) :=
  issueWord_canon_of_body hs fun c s hs => by
    dsimp only
    (repeat' split) <;> simp [hs]

@[simp] theorem execRsig_canon (h : Hdr) (a b : Reg) (rel : BitVec 7) : Res.Canon (execRsig h a b rel s) :=
  issueWord_canon_of_body hs fun c s hs => by
    (repeat' split) <;> simp [hs]

/-! #### Routes and owner ranges -/

@[simp] theorem execOwncfg_canon (h : Hdr) (a b e : Reg) : Res.Canon (execOwncfg h a b e s) :=
  issueWord_canon_of_body hs fun c s hs => by
    dsimp only
    (repeat' split) <;> simp [hs]

@[simp] theorem execRouteBeat_canon (tile o : Nat) : Res.Canon (execRouteBeat tile o s) := by
  rw [execRouteBeat, Res.canon_next]
  split <;> simp [hs]

@[simp] theorem execRouteRebindTimeout_canon (fz : Nat) : Res.Canon (execRouteRebindTimeout fz s) := by
  rw [execRouteRebindTimeout, Res.canon_next]
  split <;> simp [hs]

@[simp] theorem execRetry_canon (node src : Nat) : Res.Canon (execRetry node src s) := by
  rw [execRetry, Res.canon_next]
  dsimp only
  split <;> simp [hs]

@[simp] theorem execForwardingSlotFree_canon (node : Nat) : Res.Canon (execForwardingSlotFree node s) := by
  rw [execForwardingSlotFree, Res.canon_next]
  split <;> simp [hs]

@[simp] theorem execInportBeatArrival_canon (tile port : Nat) : Res.Canon (execInportBeatArrival tile port s) := by
  rw [execInportBeatArrival, Res.canon_next]
  split <;> simp [hs]

/-! #### The routing engine -/

@[simp] theorem erWord_canon (i : Instr) (h : Hdr) (forms : Ctx → List (Dword × Nat)) (kind : Ctx → ReqKind) (dst : Option Reg) :
    Res.Canon (erWord i h forms kind dst s) :=
  issueWord_canon_of_body hs fun c s hs => by
    (repeat' split) <;> simp [hs]

@[simp] theorem execDispatchFail_canon (die : Nat) (why : DispatchFailure) : Res.Canon (execDispatchFail die why s) := by
  unfold execDispatchFail
  rw [Res.canon_next]
  (repeat' split) <;> simp [hs]

/-! #### Systolic regions -/

@[simp] theorem execSystolicDescriptorHandshake_canon (tile col : Nat) : Res.Canon (execSystolicDescriptorHandshake tile col s) := by
  rw [execSystolicDescriptorHandshake, Res.canon_next]
  (repeat' split) <;> simp [hs]

@[simp] theorem execSystolicStep_canon (tile lane col : Nat) : Res.Canon (execSystolicStep tile lane col s) := by
  rw [execSystolicStep, Res.canon_next]
  split <;> simp [hs]

@[simp] theorem execAccop_canon (tile lane col : Nat) : Res.Canon (execAccop tile lane col s) := by
  rw [execAccop, Res.canon_next]
  split <;> simp [hs]

/-! #### Work-lists -/

@[simp] theorem execWorklistHomeServe_canon (req : Nat) : Res.Canon (execWorklistHomeServe req s) := by
  rw [execWorklistHomeServe, Res.canon_next]
  (repeat' split) <;> simp [hs]

/-! #### Scheduling -/

@[simp] theorem execRecordCheck_canon (queue : Nat) : Res.Canon (execRecordCheck queue s) := by
  rw [execRecordCheck, Res.canon_next]
  split <;> simp [hs]

@[simp] theorem execRecordStart_canon (queue : Nat) : Res.Canon (execRecordStart queue s) := by
  rw [execRecordStart, Res.canon_next]
  (repeat' split) <;> simp [hs]

@[simp] theorem execPreempt_canon (fz : Nat) : Res.Canon (execPreempt fz s) := by
  rw [execPreempt, Res.canon_next]
  (repeat' split) <;> simp [hs]

@[simp] theorem execTrigger_canon (fz : Nat) : Res.Canon (execTrigger fz s) := by
  rw [execTrigger, Res.canon_next]
  split <;> simp [hs]

@[simp] theorem execKernelEnd_canon (kernel : Nat) : Res.Canon (execKernelEnd kernel s) := by
  rw [execKernelEnd, Res.canon_next]
  (repeat' split) <;> simp [hs]

@[simp] theorem execYield_canon (h : Hdr) : Res.Canon (execYield h s) :=
  issueWord_canon_of_body hs fun c s hs => by
    (repeat' split) <;> simp [hs]

/-! #### Engines -/

@[simp] theorem execLaunchRingTimeout_canon (req : Nat) : Res.Canon (execLaunchRingTimeout req s) := by
  rw [execLaunchRingTimeout, Res.canon_next]
  (repeat' split) <;> simp [hs]

/-! #### The core's own steps -/

@[simp] theorem execCodeFetch_canon (fz : Nat) : Res.Canon (execCodeFetch fz s) := by
  rw [execCodeFetch, Res.canon_next]
  dsimp only
  (repeat' split) <;> simp [hs]

@[simp] theorem execDecodeWord_canon (fz : Nat) : Res.Canon (execDecodeWord fz s) := by
  rw [execDecodeWord, Res.canon_next]
  (repeat' split) <;> simp [hs]

@[simp] theorem execWaitTimeout_canon (fz st : Nat) : Res.Canon (execWaitTimeout fz st s) := by
  rw [execWaitTimeout, Res.canon_next]
  (repeat' split) <;> simp [hs]

@[simp] theorem execFaultDelivery_canon (fz st : Nat) : Res.Canon (execFaultDelivery fz st s) := by
  rw [execFaultDelivery, Res.canon_next]
  (repeat' split) <;> simp [hs]

/-! #### Commands of the host -/

@[simp] theorem execSetPartition_canon (c : Cmd) : Res.Canon (execSetPartition c s) :=
  runCommand_canon_of_body hs fun s hs => by
    dsimp only
    (repeat' split) <;> simp [hs]

@[simp] theorem execSetJobreg_canon (c : Cmd) : Res.Canon (execSetJobreg c s) :=
  runCommand_canon_of_body hs fun _ hs => checked_canon hs _ (by simp [hs])

@[simp] theorem execInvalidate_canon (c : Cmd) : Res.Canon (execInvalidate c s) :=
  runCommand_canon_of_body hs fun _ hs => checked_canon hs _ (by simp [hs])

@[simp] theorem execQueueReset_canon (c : Cmd) : Res.Canon (execQueueReset c s) :=
  runCommand_canon_of_body hs fun s hs => by
    dsimp only
    (repeat' split) <;> simp [hs]

@[simp] theorem execMqSet_canon (c : Cmd) : Res.Canon (execMqSet c s) :=
  runCommand_canon_of_body hs fun _ hs => checked_canon hs _ (by simp [hs])

@[simp] theorem masterCommand_canon (i : Instr) (c : Cmd) (thaw : Bool) : Res.Canon (masterCommand i c thaw s) :=
  runCommand_canon_of_body hs fun s hs => by
    dsimp only
    (repeat' split) <;> simp [hs]

@[simp] theorem execScrub_canon (c : Cmd) : Res.Canon (execScrub c s) :=
  runCommand_canon_of_body hs fun _ hs => checked_canon hs _ (by simp [hs])

@[simp] theorem execEthKey_canon (c : Cmd) : Res.Canon (execEthKey c s) :=
  runCommand_canon_of_body hs fun _ hs => checked_canon hs _ (by simp [hs])

@[simp] theorem execEthQp_canon (c : Cmd) : Res.Canon (execEthQp c s) :=
  runCommand_canon_of_body hs fun _ hs => checked_canon hs _ (by simp [hs])

@[simp] theorem execAttest_canon (c : Cmd) : Res.Canon (execAttest c s) :=
  runCommand_canon_of_body hs fun _ hs => checked_canon hs _ (by simp [hs])

@[simp] theorem execCtxPool_canon (c : Cmd) : Res.Canon (execCtxPool c s) :=
  runCommand_canon_of_body hs fun _ hs => checked_canon hs _ (by simp [hs])

@[simp] theorem execApertureRead_canon (off len : Nat) : Res.Canon (execApertureRead off len s) := by
  rw [execApertureRead, Res.canon_next]
  (repeat' split) <;> simp [hs]

/-! #### Traps -/

@[simp] theorem execTrapTaken_canon (fz : Nat) : Res.Canon (execTrapTaken fz s) := by
  rw [execTrapTaken, Res.canon_next]
  (repeat' split) <;> simp [hs]

@[simp] theorem execResume_canon (h : Hdr) (a : Reg) : Res.Canon (execResume h a s) :=
  issueWord_canon_of_body hs fun c s hs => by
    (repeat' split) <;> simp [hs]

@[simp] theorem execHandlerEnd_canon (fz : Nat) : Res.Canon (execHandlerEnd fz s) := by
  rw [execHandlerEnd, Res.canon_next]
  (repeat' split) <;> simp [hs]

/-! #### The module -/

@[simp] theorem execCast_canon (c : Cmd) : Res.Canon (execCast c s) :=
  runCommand_canon_of_body hs fun s hs => by
    dsimp only
    (repeat' split) <;> simp [hs]

@[simp] theorem execRestore_canon (c : Cmd) : Res.Canon (execRestore c s) :=
  runCommand_canon_of_body hs fun s hs => by
    dsimp only
    (repeat' split) <;> simp [hs]

@[simp] theorem execCastEnd_canon (cause : BitVec 8) : Res.Canon (execCastEnd cause s) := by
  rw [execCastEnd, Res.canon_next]
  split <;> simp [hs]

@[simp] theorem execLifetime_canon (c : Cmd) : Res.Canon (execLifetime c s) :=
  runCommand_canon_of_body hs fun _ hs => checked_canon hs _ (by simp [hs])

@[simp] theorem execTransientError_canon (site : ErrorSite) : Res.Canon (execTransientError site s) := by
  rw [execTransientError, Res.canon_next]
  split <;> simp [hs]

@[simp] theorem execRdmaRead_canon (qp key va len : Nat) : Res.Canon (execRdmaRead qp key va len s) := by
  rw [execRdmaRead, Res.canon_next]
  (repeat' split) <;> simp [hs]

end

section
variable {s : State} (hs : s.store.Canon)
include hs

/-- Every instruction keeps the memories canonical. A word, event or command without a rule of its own above is unfolded: all it does is
made of operations that have one. -/
theorem exec_canon (i : Instr) : Res.Canon (exec i s) := by
  cases i <;> simp [
    exec, execCommitRequest, execSnap, execUnsnap, txbeginWord, execTxbegin, execTxbeginAge, execTxcommit, execTxabort, execTxstat,
    execPortwr, execPortspc, execSportcfg, execSportcfgOff, execShape, execViewld, execViewldGet, execLds, execSts, execLdq,
    execStq, execLdg, execStg, execMaqgo, execMaqdrn, accWord, execAccsave, execAccload, execBr, voteWord, execBrany, execBrall,
    execVoteResult, execLoop, execCall, execRet, execPset, execTrig, execExit, execWaite, execSige, execSrd, execSwr, execScp,
    execSfill, execSwin, execSmc, execSgath, execSscat, execSscata, execSrec, execSbar, execFence, execSwaits, execSabort,
    execRoute, execUnroute, mcjoinWord, execMcjoin, execMcjoinLeave, execErcfg, execErcfgOff, execErdisp, execErdispReuse,
    execErcomb, execErstat, execErdrops, execDispatchExchange, execWlnew, execWlpush, execWlpop, execWlins, execWlcnt, execWlfree,
    execNop, execCsrr, execCsrw, execCsrx, execCodeinv, masterWord, execFreeze, execThaw, execLaunch, execSmpcfg, execSmpon,
    execSmpoff, execCntrd, execMark, execReservedOpCommand, execQueueSet, execDomainSet, execFreezeCmd, execThawCmd, execAperture,
    execHostAppend, aluWord, execAdd, execSub, execMul, execMulh, execAnd, execOr, execXor, execShl, execShr, execSar, execMin,
    execMax, execClz, execPopc, execSel, execCmp, execAddi, execSubi, execMuli, execAndi, execOri, execXori, execShli, execShri,
    execSari, execMini, execMaxi, execCmpi, execMovhi, execTrap, execBrk, execLifetimeRecordHourlyWrite, execThermalEmergencyClamp,
    execClampRelease, execModuleReset, execPowerLoss, execPortLost, execEthernetPacketDrop, hs
  ]

end

end Sys2Proof.Machine
end

section
/-! SUPPORT. A step keeps the canonical form of every memory. -/

namespace Sys2Proof.Machine

/-! ### A step -/

theorem nextEvent_store {s t : State} {i : Instr} (h : nextEvent s = some (i, t)) : t.store = s.store := by
  unfold nextEvent at h
  split at h
  · cases h; simp
  · dsimp only at h
    split at h <;> cases h
    simp

theorem step_canon {s : State} (hs : s.store.Canon) : Res.Canon (step s) := by
  have htick : s.tick.store.Canon := by simpa using hs
  unfold step
  split
  · exact exec_canon htick _
  · split
    · exact exec_canon htick _
    · split
      next h => exact exec_canon (by rwa [nextEvent_store h]) _
      · simpa using hs

end Sys2Proof.Machine

namespace Sys2Proof.Slice0
open Machine

/-- Settles O60: every operation that writes memory keeps its canonical form, and every instruction is made of such operations. -/
theorem memoryStaysCanonical : Obligations.MemoryStaysCanonical := by
  intro s t hs hst
  rw [State.memWf_iff] at hs ⊢
  exact (step_canon hs).next hst

end Sys2Proof.Slice0
end

section
/-! SUPPORT. The decoder inverts the encoder: fields of a word read back, each word selects its instruction, and a word's bytes are the word. -/

namespace Sys2Proof
open Machine

/-! ### Fields of appended bit vectors

The library's lemmas with the appended vector left out of simp's index, whose width the model writes as the sum (36, 64). -/

@[simp] theorem extract_append_high {v w : Nat} (x : BitVec v) (y : BitVec w) {k n : Nat} (h : w ≤ k) :
    BitVec.extractLsb' k n (no_index (x ++ y)) = x.extractLsb' (k - w) n := BitVec.extractLsb'_append_eq_of_le h

@[simp] theorem extract_append_low {v w : Nat} (x : BitVec v) (y : BitVec w) {k n : Nat} (h : k + n ≤ w) :
    BitVec.extractLsb' k n (no_index (x ++ y)) = y.extractLsb' k n := BitVec.extractLsb'_append_eq_of_add_le h

@[simp] theorem getLsbD_append_high {v w : Nat} (x : BitVec v) (y : BitVec w) {k : Nat} (h : w ≤ k) :
    BitVec.getLsbD (no_index (x ++ y)) k = x.getLsbD (k - w) := by simp [BitVec.getLsbD_append, h]

@[simp] theorem getLsbD_append_low {v w : Nat} (x : BitVec v) (y : BitVec w) {k : Nat} (h : k < w) :
    BitVec.getLsbD (no_index (x ++ y)) k = y.getLsbD k := by simp [BitVec.getLsbD_append, h]

/-! ### A control word from its parts (R28) -/

section
variable (h : Hdr) (op : BitVec 8) (x : BitVec 36)

@[simp] theorem hdrOf_wordOf : hdrOf (wordOf h op x) = h := by
  simp [hdrOf, wordOf, -BitVec.getLsbD_eq_getElem]

@[simp] theorem opcodeOf_wordOf : opcodeOf (wordOf h op x) = op := by simp [opcodeOf, wordOf]

@[simp] theorem operandOf_wordOf : operandOf (wordOf h op x) = x := by simp [operandOf, wordOf]

theorem wordOf_group : (wordOf h op x).extractLsb' 40 4 = op.extractLsb' 4 4 := by simp [wordOf]

theorem wordOf_neg : (wordOf h op x).getLsbD 47 = h.neg := by simp [wordOf, -BitVec.getLsbD_eq_getElem]

theorem wordOf_pred : (wordOf h op x).extractLsb' 44 3 = h.pred := by simp [wordOf]

end

/-- The OPCODE byte and OPERAND of a control word select it: the fields of each format stand where the decoder reads them (R34–R39, R40). -/
theorem select_code {i : Instr} {h : Hdr} {op : BitVec 8} {x : BitVec 36} (hh : i.hdr? = some h)
    (hc : i.code? = some (op, x)) : select h op x = some i := by
  cases i with
  | add | sub | mul | mulh | and | or | xor | shl | shr | sar | min | max | clz | popc | sel | cmp | pset | atomg =>
    cases hh; cases hc
    refine congrArg some ?_
    simp [fld, bitOf, b1, packRR, -BitVec.getLsbD_eq_getElem]
  | addi | subi | muli | andi | ori | xori | shli | shri | sari | mini | maxi | cmpi | movhi | lds | sts | ldq | stq | ldg | stg
    | portrd | portwr | portspc | cntrd =>
    cases hh; cases hc
    refine congrArg some ?_
    simp [fld, bitOf, b1, packRI, -BitVec.getLsbD_eq_getElem]
  | br | brany | brall | loop | call | ret =>
    cases hh; cases hc
    refine congrArg some ?_
    simp [fld, packBR]
  | srd | swr | scp | sfill | swin | smc | sgath | sscat | sscata | srec | sportcfg | sportcfgOff =>
    cases hh; cases hc
    refine congrArg some ?_
    simp [fld, bitOf, b1, stOf, packST, -BitVec.getLsbD_eq_getElem]
  | resume | codeinv | freeze | thaw | launch | shape | viewld | viewldGet | ratom | rsig | maqld | maqgo | maqdrn | accsave | accload
    | chbind | srseed | snap | unsnap | txbegin | txbeginAge | txclaim | txcommit | txabort | txstat | ercfg | ercfgOff | erdisp
    | erdispReuse | ercomb | erstat | erdrops | route | unroute | owncfg | mcjoin | mcjoinLeave | wlnew | wlpush | wlpop | wlins
    | wlcnt | wlfree | smpcfg =>
    cases hh; cases hc
    refine congrArg some ?_
    simp [fld, bitOf, b1, packEN, -BitVec.getLsbD_eq_getElem]
  | nop | trap | csrr | csrw | csrx | yield | brk | trig | exit | waite | sige | sbar | fence | swaits | sabort | smpon | smpoff | mark =>
    cases hh; cases hc
    refine congrArg some ?_
    simp [fld, bitOf, b1, packSY, -BitVec.getLsbD_eq_getElem]
  | _ => cases hc

/-- No control word is of the reserved group (R40). -/
theorem code_group {i : Instr} {op : BitVec 8} {x : BitVec 36} (hc : i.code? = some (op, x)) : op.extractLsb' 4 4 ≠ (0xF : BitVec 4) := by
  cases i <;> cases hc <;> decide

/-- A well-formed control word passes R43's rows. -/
theorem decodeControl_encode {i : Instr} {w : Dword} (hwf : i.wf = true) (hw : i.encode? = some w) : decodeControl w = .ok i := by
  obtain ⟨hhdr, hfld⟩ := Bool.and_eq_true_iff.1 hwf
  have henc := hw
  unfold Instr.encode? at hw
  split at hw
  next h op x hh hc =>
    cases hw
    have hneg : (h.neg && h.pred == 0) = false := by
      simp only [Instr.hdrOk, hh, Bool.and_eq_true, Bool.not_eq_true'] at hhdr
      exact hhdr.1.1
    simp only [decodeControl, wordOf_group, code_group hc, if_false, hdrOf_wordOf, opcodeOf_wordOf, operandOf_wordOf,
      select_code hh hc, wordOf_neg, wordOf_pred, hneg, hhdr, hfld, henc]
    simp
  next => cases hw

/-! ### Host commands (R387) -/

theorem commandOf_command {i : Instr} {op : BitVec 8} {c : Cmd} (hf : i.fieldsOk = true) (hc : i.command? = some (op, c)) :
    commandOf op c = i := by
  cases i with
  | reservedOpCommand op' c' =>
    cases hc
    have hop : op.toNat = 0 ∨ 0x19 < op.toNat := by simpa [Instr.fieldsOk] using hf
    unfold commandOf
    split
    case h_26 => rfl
    all_goals omega
  | _ => cases hc <;> rfl

theorem decodeCommand_encode (op : BitVec 8) (c : Cmd) :
    decodeCommand (c.tag ++ c.rsvd ++ c.job ++ op) c.d1 c.d2 c.d3 c.d4 c.d5 c.d6 c.d7 = commandOf op c := by
  simp [decodeCommand]

theorem decodeDwords_encode {i : Instr} (hwf : i.wf = true) (hne : i.encode ≠ []) : decodeDwords i.encode = .ok i := by
  unfold Instr.encode at hne ⊢
  split
  next w hw => exact decodeControl_encode hwf hw
  next op c _ hc =>
    simp only [decodeDwords, decodeCommand_encode, commandOf_command (Bool.and_eq_true_iff.1 hwf).2 hc]
  next hw hc => simp [hw, hc] at hne

/-! ### Bytes (R18, R28) -/

theorem leNat_leBytes (n k : Nat) : leNat (leBytes n k) = n % 256 ^ k := by
  induction k generalizing n with
  | zero => simp [leBytes, leNat, Nat.mod_one]
  | succ k ih =>
    rw [leBytes, leNat, ih, BitVec.toNat_ofNat, pow_succ' 256 k, Nat.mod_mul]

theorem decodeBytes_bytesOf (w : Dword) (rest : List Byte) :
    decodeBytes (bytesOf w ++ rest) = (decodeControl w).map (·, rest) := by
  have hlen : (bytesOf w).length = 8 := leBytes_length ..
  have hval : BitVec.ofNat 64 (leNat (bytesOf w)) = w := by
    rw [bytesOf, leNat_leBytes, Nat.mod_eq_of_lt (a := w.toNat) (b := 256 ^ (64 / 8)) w.isLt, BitVec.ofNat_toNat, BitVec.setWidth_eq]
  rw [decodeBytes, if_neg (by simp [hlen]), List.take_left' hlen, List.drop_left' hlen, hval]
  cases decodeControl w <;> rfl

/-- A table word that encodes a well-formed instruction decodes to it. -/
theorem decodeTableWord_encode {i : Instr} {w : Dword} (hwf : i.wf = true) (hw : i.encode? = some w) :
    decodeTableWord 64 w.toNat = some i := by
  have hdec := decodeBytes_bytesOf w []
  rw [List.append_nil, decodeControl_encode hwf hw, bytesOf] at hdec
  rw [decodeTableWord, if_pos (by decide), Nat.mod_eq_of_lt w.isLt]
  exact congrArg (fun r : Except Reject (Instr × List Byte) => match r with
    | .ok (i, _) => some i
    | .error _ => none) hdec

end Sys2Proof

namespace Sys2Proof.Slice0
open Machine

/-- Settles O59: the operand formats read back field by field, so that a word selects the instruction it encodes, and R43's checks are what
makes an instruction well formed. -/
theorem decodeInvertsEncode : Obligations.DecodeInvertsEncode := by
  unfold Obligations.DecodeInvertsEncode
  refine ⟨fun i hwf hne => decodeDwords_encode hwf hne, fun i w rest hwf hw => ?_⟩
  rw [decodeBytes_bytesOf, decodeControl_encode hwf hw]
  rfl

/-- Settles O58: each word is the encoding of its instruction, which is well formed. -/
theorem decodeWords : Obligations.DecodeWords := by
  unfold Obligations.DecodeWords
  refine ⟨?rr, ?ri, ?csrr, ?loop, ?srd, ?fence, ?maqgo, ?txclaim, ?erdisp, ?ratom, ?wlpop, ?cntrd⟩
  case rr => exact decodeTableWord_encode (w := 0x0000010184400000) (by decide) (by decide)
  case ri => exact decodeTableWord_encode (w := 0x000012039C000003) (by decide) (by decide)
  case csrr => exact decodeTableWord_encode (w := 0x0000003280000002) (by decide) (by decide)
  case loop => exact decodeTableWord_encode (w := 0x000003328FFFFFFD) (by decide) (by decide)
  case srd => exact decodeTableWord_encode (w := 0x45872501884A0000) (by decide) (by decide)
  case fence => exact decodeTableWord_encode (w := 0x0000081000040202) (by decide) (by decide)
  case maqgo => exact decodeTableWord_encode (w := 0x0000091000000400) (by decide) (by decide)
  case txclaim => exact decodeTableWord_encode (w := 0x00000A3600000404) (by decide) (by decide)
  case erdisp => exact decodeTableWord_encode (w := 0x00680B1214C00000) (by decide) (by decide)
  case ratom => exact decodeTableWord_encode (w := 0x00000C32B0C07C02) (by decide) (by decide)
  case wlpop => exact decodeTableWord_encode (w := 0x00000D230000101F) (by decide) (by decide)
  case cntrd => exact decodeTableWord_encode (w := 0x00000E3380001103) (by decide) (by decide)

end Sys2Proof.Slice0
end

section
/-! SUPPORT. The word a step runs. -/

namespace Sys2Proof.Machine

/-- The selected station's word is what its next word decodes to (R28, R302). -/
theorem currentInstr_of_decoded {s : State} {k : Cur} {f : Frieze} {w : LaneWord} {i : Instr} {rest : List Byte}
    (hk : s.cur = some k) (hf : s.friezes.find k.fz = some f) (hw : f.nextWord k.st = some w)
    (hd : decodeBytes (bytesOf w.word) = .ok (i, rest)) (fz : Nat) : s.currentInstr fz = i := by
  have hword : s.currentWord = some w.word := by simp [State.currentWord, hk, hf, hw]
  simp only [State.currentInstr, hword, hd]

end Sys2Proof.Machine

namespace Sys2Proof.Slice0
open Machine

/-- Settles O13: the step's instruction is the decoded next word of the selected station. -/
theorem stepRunsTheSelectedWord : Obligations.StepRunsTheSelectedWord := by
  intro s f k w i rest hdue hcur hf hw hd
  calc step s
    _ = exec (s.currentInstr k.fz) s.tick := by simp only [step, hdue, hcur]
    _ = exec i s.tick := by rw [currentInstr_of_decoded hcur hf hw hd]

end Sys2Proof.Slice0
end


section
/-! SUPPORT. What a word complete at issue leaves of its station, its frieze's path and its job, from what its effects leave of them; and the
statements settled with it: the CSR words and the branches. -/

namespace Sys2Proof.Machine

/-! ### A word complete at issue -/

theorem Quiet.jobs {s t : State} (q : Quiet s t) : t.jobs = s.jobs := by rw [q.rest]

/-- A frieze of which at most the stations have changed. -/
theorem consumeWait_find (c : Ctx) (i : Instr) (s : State) {id : Nat} {f : Frieze} (hf : s.friezes.find id = some f) :
    ∃ l, (consumeWait c i s).friezes.find id = some { f with stations := l } := by
  have hbyte : ∃ l, (if c.h.waitMode = 1 then s.addCount c.id c.st c.h.waitK (-1)
      else if c.h.waitMode = 2 then s.addCount c.id c.st c.h.waitK (-(c.x.rq c.h.waitK)) else s).friezes.find id =
        some { f with stations := l } := by
    split
    · obtain ⟨l, hl, -⟩ := State.updCounter_find s c.id c.st c.h.waitK (· + -1) hf
      exact ⟨l, hl⟩
    · split
      · obtain ⟨l, hl, -⟩ := State.updCounter_find s c.id c.st c.h.waitK (· + -(c.x.rq c.h.waitK)) hf
        exact ⟨l, hl⟩
      · exact ⟨f.stations, hf⟩
  unfold Machine.consumeWait
  dsimp only
  generalize (if c.h.waitMode = 1 then _ else _ : State) = t at hbyte ⊢
  obtain ⟨l, hl⟩ := hbyte
  split
  next g sub k =>
    split
    · obtain ⟨l', hl', -⟩ := State.updCounter_find t c.id c.st k (· + -((c.g g).setWidth 32)) hl
      exact ⟨l', hl'⟩
    · exact ⟨l, hl⟩
  next => exact ⟨l, hl⟩

theorem beforeEffect_find (c : Ctx) (i : Instr) (s : State) {id : Nat} {f : Frieze} (hf : s.friezes.find id = some f) :
    ∃ l, (beforeEffect c i s).friezes.find id = some { f with stations := l } := by
  obtain ⟨l, hl⟩ := consumeWait_find c i s hf
  unfold Machine.beforeEffect
  dsimp only
  split
  · obtain ⟨l', hl', -⟩ := State.updCounter_find _ c.id c.st c.h.sigK (· + 1) hl
    exact ⟨l', hl'⟩
  · exact ⟨l, hl⟩

theorem State.sigDone_find (s : State) (id st : Nat) (m : BitVec 2) (k : BitVec 6) {j : Nat} {f : Frieze}
    (hf : s.friezes.find j = some f) : ∃ l, (s.sigDone id st m k).friezes.find j = some { f with stations := l } := by
  unfold State.sigDone
  split
  · obtain ⟨l, hl, -⟩ := State.updCounter_find s id st k (· + 1) hf
    exact ⟨l, hl⟩
  · exact ⟨f.stations, hf⟩

/-- The word passes from the fetch buffer into the lane at the head, and the path goes on as it was (R298, R299). -/
theorem advance_find (c : Ctx) (s : State) {f : Frieze} (hf : s.friezes.find c.id = some f) :
    ∃ g, (advance c s).friezes.find c.id = some g ∧ g.fetched = (if c.isHead then f.fetched.tail else f.fetched) ∧
      g.fetchIndex = f.fetchIndex ∧ g.sampling = f.sampling := by
  refine ⟨_, State.updFz_find hf _, ?_, ?_, ?_⟩ <;> dsimp only <;> split <;> split <;> rfl

theorem completeWord_find {c : Ctx} {i : Instr} {s : State} {now : Bool} {f : Frieze} (ha : i.asksHead = false)
    (hf : s.friezes.find c.id = some f) :
    ∃ g, (completeWord c i s now).friezes.find c.id = some g ∧
      g.fetched = (if c.isHead then f.fetched.tail else f.fetched) ∧ g.fetchIndex = f.fetchIndex ∧ g.sampling = f.sampling := by
  unfold Machine.completeWord
  simp only [ha, Bool.false_eq_true, if_false]
  split
  · obtain ⟨l, hl⟩ := State.sigDone_find s c.id c.st c.h.sigMode c.h.sigK hf
    exact advance_find (f := { f with stations := l }) c _ hl
  · exact advance_find c s hf

/-- The station stands as the effects of the word left it. -/
theorem completeWord_stands {c : Ctx} {i : Instr} {s : State} {now : Bool} {y : Station} {e : Vector Word 32} (ha : i.asksHead = false)
    (h : s.station? c.id c.st = some { y with e := e }) : Slice0.Stands (completeWord c i s now) c y := by
  obtain ⟨e', he'⟩ := completeWord_station (now := now) ha h
  exact ⟨e', he'⟩

/-- A word that issues and whose effects are done completes. -/
theorem Issues.done {s q : State} {i : Instr} {h : Hdr} {c : Ctx} {body : Ctx → State → Eff} {now : Bool} (hi : Issues s i h c)
    (hb : body c (beforeEffect c i s) = .done q now) : issueWord i h s body = .next (completeWord c i q now) := by
  rw [hi.exec, hb]

/-- The station of a word as its effects find it: only event counters have changed. -/
theorem Issues.before {s : State} {i : Instr} {h : Hdr} {c : Ctx} (hi : Issues s i h c) :
    ∃ e, (beforeEffect c i s).station? c.id c.st = some { c.x with e := e } := beforeEffect_station c i s hi.station

/-- g[d] of the word's station written by its effects. -/
theorem setG_station {c : Ctx} {s : State} {y : Station} {e : Vector Word 32} (h : s.station? c.id c.st = some { y with e := e })
    (d : Reg) (v : Dword) : ∃ e', (c.setG s d v).station? c.id c.st = some { y.setG d v with e := e' } := by
  obtain ⟨e', he'⟩ := setG_e d v y e
  exact ⟨e', (State.updSt_station h _).trans (congrArg some he')⟩

/-! ### A job changed -/

theorem State.updJob_find (s : State) (j k : Nat) (g : Job → Job) :
    (s.updJob j g).jobs.find k = if k = j then (s.jobs.find j).map g else s.jobs.find k := by
  unfold State.updJob
  split
  next h =>
    split
    · subst_vars; rw [h]; rfl
    · rfl
  next x h => simp only [Tab.find_put, h, Option.map_some]

theorem State.updJob_friezes (s : State) (j : Nat) (g : Job → Job) : (s.updJob j g).friezes = s.friezes := by
  unfold State.updJob
  split <;> rfl

theorem State.updJob_station (s : State) (j : Nat) (g : Job → Job) (a b : Nat) : (s.updJob j g).station? a b = s.station? a b := by
  rw [State.station?, State.updJob_friezes]; rfl

theorem State.updSt_jobs (s : State) (id st : Nat) (g : Station → Station) : (s.updSt id st g).jobs = s.jobs := (Quiet.updSt ..).jobs

/-! ### CSRs (R24, R42, R381) -/

theorem csrRead_jobs {s t : State} (h : t.jobs = s.jobs) (c : Ctx) (n : BitVec 12) : csrRead t c n = csrRead s c n := by
  simp only [csrRead, jobReg, State.job?, h]

/-- The numbers R42 assigns: those of one register each, and QUANT's. -/
theorem csrAssigned_iff (n : BitVec 12) : csrAssigned n = true ↔
    (n = 0x000 ∨ n = 0x001 ∨ n = 0x002 ∨ n = 0x003 ∨ n = 0x004 ∨ n = 0x005 ∨ n = 0x006 ∨ n = 0x010 ∨ n = 0x011 ∨ n = 0x030) ∨
      (n = 0x012 ∨ n = 0x020 ∨ n = 0x021 ∨ n = 0x022) ∨ (0x40 ≤ n.toNat ∧ n.toNat ≤ 0x7F) := by
  simp only [csrAssigned, ← BitVec.toNat_inj, BitVec.ofNat_eq_ofNat, BitVec.toNat_ofNat, Bool.or_eq_true, Bool.and_eq_true, decide_eq_true_eq]
  omega

theorem csrRead_quant {s : State} {c : Ctx} {n : BitVec 12} (hl : 0x40 ≤ n.toNat) (hh : n.toNat ≤ 0x7F) :
    csrRead s c n = (c.x.rq (BitVec.ofNat 6 (n.toNat - 0x40))).setWidth 64 := by
  unfold csrRead
  split
  case h_15 => rw [if_pos ⟨hl, hh⟩]
  all_goals omega

/-- What CSRR reads is the CSR's value (R42, R381). -/
theorem csrRead_is {s : State} {c : Ctx} {n : BitVec 12} (hn : csrAssigned n = true) (hj : (s.jobs.find c.f.job).isSome = true) :
    Slice0.csrIs s c n (csrRead s c n) := by
  rcases (csrAssigned_iff n).1 hn with hown | hjob | ⟨hl, hh⟩
  · refine .inl ?_
    rcases hown with rfl | rfl | rfl | rfl | rfl | rfl | rfl | rfl | rfl | rfl <;> simp [Slice0.stationCsr, csrRead, Frieze.len, Ctx.job]
  · obtain ⟨j, hj⟩ := Option.isSome_iff_exists.1 hj
    refine .inr ⟨j, hj, ?_⟩
    rcases hjob with rfl | rfl | rfl | rfl <;> simp [Slice0.jobCsr, csrRead, jobReg, State.job?, Ctx.job, hj]
  · refine .inl (.inr <| .inr <| .inr <| .inr <| .inr <| .inr <| .inr <| .inr <| .inr <| .inr ⟨BitVec.ofNat 6 (n.toNat - 0x40), ?_,
      csrRead_quant hl hh⟩)
    rw [BitVec.toNat_ofNat]
    omega

/-- TRAP_VEC[11:0] is RSVD (R4). -/
theorem shift_page (v : Dword) : v >>> 12 <<< 12 = v &&& 0xFFFFFFFFFFFFF000 := by
  have hmask : (0xFFFFFFFFFFFFF000 : Dword) = BitVec.allOnes 64 >>> 12 <<< 12 := by decide
  rw [hmask]
  ext k hk
  simp only [BitVec.getElem_and, BitVec.getElem_shiftLeft, BitVec.getElem_ushiftRight, BitVec.getLsbD_allOnes]
  by_cases h : k < 12
  · simp [h]
  · simp [h, show 12 + (k - 12) = k by omega, hk]

/-- What CSRW leaves of its station (R42). -/
theorem csrWrite_station {s : State} {c : Ctx} {n : BitVec 12} {v : Dword} {y : Station} {e : Vector Word 32}
    (h : s.station? c.id c.st = some { y with e := e }) :
    ∃ z, Slice0.csrStation n v y z ∧ (csrWrite s c n v).station? c.id c.st = some { z with e := e } := by
  unfold csrWrite
  split
  case h_1 hn | h_2 hn | h_3 hn | h_4 hn =>
    refine ⟨y, ⟨fun h0 => ?_, fun k hk => ?_, fun _ _ => rfl⟩, (State.updJob_station ..).trans h⟩
    · subst h0; exact absurd hn (by decide)
    · omega
  case h_5 hn =>
    refine ⟨{ y with srSeed := v }, ⟨fun _ => rfl, fun k hk => ?_, fun h0 _ => ?_⟩, State.updSt_station h _⟩
    · omega
    · exact absurd (BitVec.eq_of_toNat_eq hn) h0
  case h_6 =>
    split
    next hq =>
      refine ⟨y.setQ (BitVec.ofNat 6 (n.toNat - 0x40)) (v.setWidth 32), ⟨fun h0 => ?_, fun k hk => ?_, fun _ h0 => ?_⟩,
        State.updSt_station h _⟩
      · subst h0; exact absurd hq.1 (by decide)
      · rw [hk, Nat.add_sub_cancel_left, BitVec.ofNat_toNat, BitVec.setWidth_eq]
      · exact absurd hq h0
    next hq =>
      refine ⟨y, ⟨fun h0 => ?_, fun k hk => ?_, fun _ _ => rfl⟩, h⟩
      · subst h0; contradiction
      · omega

/-- What CSRW leaves of the jobs (R42, R381). -/
theorem csrWrite_jobs (s : State) (c : Ctx) (n : BitVec 12) (v : Dword) (k : Nat) :
    (csrWrite s c n v).jobs.find k =
      if k = c.f.job then (s.jobs.find c.f.job).map (Slice0.csrJob n v) else s.jobs.find k := by
  have hsame : Slice0.csrJob n v = id → s.jobs.find k =
      if k = c.f.job then (s.jobs.find c.f.job).map (Slice0.csrJob n v) else s.jobs.find k := fun hid => by
    rw [hid, Option.map_id]
    split
    · subst_vars; rfl
    · rfl
  unfold csrWrite
  split
  case h_1 hn =>
    obtain rfl : n = 0x012 := BitVec.eq_of_toNat_eq hn
    rw [State.updJob_find, shift_page]
    rfl
  case h_2 hn =>
    obtain rfl : n = 0x020 := BitVec.eq_of_toNat_eq hn
    exact State.updJob_find ..
  case h_3 hn =>
    obtain rfl : n = 0x021 := BitVec.eq_of_toNat_eq hn
    exact State.updJob_find ..
  case h_4 hn =>
    obtain rfl : n = 0x022 := BitVec.eq_of_toNat_eq hn
    exact State.updJob_find ..
  case h_5 hn =>
    obtain rfl : n = 0x030 := BitVec.eq_of_toNat_eq hn
    exact (congrArg (·.find k) (State.updSt_jobs ..)).trans (hsame (by funext j; simp [Slice0.csrJob]))
  case h_6 h1 h2 h3 h4 h5 =>
    have hid : Slice0.csrJob n v = id := by
      funext j
      rw [Slice0.csrJob, if_neg fun e => h1 (by rw [e]; rfl), if_neg fun e => h2 (by rw [e]; rfl),
        if_neg fun e => h3 (by rw [e]; rfl), if_neg fun e => h4 (by rw [e]; rfl)]
      rfl
    split
    · exact (congrArg (·.find k) (State.updSt_jobs ..)).trans (hsame hid)
    · exact hsame hid

end Sys2Proof.Machine

namespace Sys2Proof.Slice0
open Machine

/-- Settles O4: a CSR word's effects read the CSR before anything is written, and write it on the station or in the job, where it is. -/
theorem csrWords : Obligations.CsrWords := by
  unfold Obligations.CsrWords
  intro i r s c hr hi hp
  obtain ⟨e, hst⟩ := hi.before
  have hjobs : (beforeEffect c i s).jobs = s.jobs := (Quiet.beforeEffect c i s).jobs
  have hread : ∀ n, csrRead (beforeEffect c i s) c n = csrRead s c n := csrRead_jobs hjobs c
  have hcsr : ∀ n, i.fieldsOk = csrAssigned n → (s.jobs.find c.f.job).isSome = true → csrIs s c n (csrRead s c n) :=
    fun n hn hj => csrRead_is (hn ▸ (Bool.and_eq_true_iff.1 hi.legal).2) hj
  unfold csrRow at hr
  split at hr <;> cases hr
  case h_1 h g n =>
    obtain ⟨e', hst'⟩ := setG_station hst g (csrRead s c n)
    have hex : execCsrr h g n s = _ := hi.done (q := c.setG _ g (csrRead s c n)) (by rw [hread])
    exact ⟨_, hex, _, hcsr n rfl hp, completeWord_stands rfl hst', ((Quiet.updSt ..).trans (Quiet.completeWord ..)).jobs.trans hjobs⟩
  case h_2 h g n =>
    obtain ⟨z, hz, hst'⟩ := csrWrite_station (n := n) (v := c.g g) hst
    have hall := csrWrite_jobs (beforeEffect c (.csrw h g n) s) c n (c.g g)
    rw [hjobs, ← (Quiet.completeWord c (.csrw h g n) _ true).jobs] at hall
    have hex : execCsrw h g n s = _ := hi.done rfl
    exact ⟨_, hex, ⟨z, hz, completeWord_stands rfl hst'⟩, (hall _).trans (if_pos rfl), fun k hk => (hall k).trans (if_neg hk)⟩
  case h_3 h g n =>
    obtain ⟨e', hst1⟩ := setG_station hst g (csrRead s c n)
    obtain ⟨z, hz, hst'⟩ := csrWrite_station (n := n) (v := c.g g) hst1
    have hall := csrWrite_jobs (c.setG (beforeEffect c (.csrx h g n) s) g (csrRead s c n)) c n (c.g g)
    rw [Ctx.setG, State.updSt_jobs, hjobs, ← (Quiet.completeWord c (.csrx h g n) _ true).jobs] at hall
    have hex : execCsrx h g n s = _ := hi.done (q := csrWrite (c.setG _ g (csrRead s c n)) c n (c.g g)) (by rw [hread])
    exact ⟨_, hex, ⟨_, z, hcsr n rfl hp, hz, completeWord_stands rfl hst'⟩, (hall _).trans (if_pos rfl),
      fun k hk => (hall k).trans (if_neg hk)⟩

end Sys2Proof.Slice0
end

section
/-! SUPPORT. The path the head goes on along after a branch, and the branch words. -/

namespace Sys2Proof.Machine

/-! ### Branches (R36, R298, R311, R312) -/

theorem State.updFz_station_same {s : State} {id : Nat} {g : Frieze → Frieze} (hg : ∀ f, (g f).stations = f.stations) (a b : Nat) :
    (s.updFz id g).station? a b = s.station? a b := by
  by_cases ha : a = id
  · subst ha
    cases hf : s.friezes.find a with
    | none => rw [State.updFz, hf]
    | some f => rw [State.station_eq (State.updFz_find hf g), State.station_eq hf, hg]
  · rw [State.station?, State.station?, State.updFz_find_ne s g ha]

/-- The effect of a branch on the head's path: taken only at the head. -/
def branched (c : Ctx) (b : Bool) (target : BitVec 52) (s : State) : State := if c.isHead && b then takeBranch c target s else s

theorem branched_station (c : Ctx) (b : Bool) (target : BitVec 52) (s : State) (i j : Nat) :
    (branched c b target s).station? i j = s.station? i j := by
  unfold branched
  split
  · exact State.updFz_station_same (g := fun f => { f with fetched := f.fetched.take 1, fetchIndex := target }) (fun _ => rfl) i j
  · rfl

theorem isHead_iff (c : Ctx) : c.isHead = true ↔ c.st = 0 := beq_iff_eq

/-- Where the head fetches after a branch that completes (R298, R311). -/
theorem branched_path {c : Ctx} {i : Instr} {s : State} {l : List Station} (ha : i.asksHead = false)
    (hf : s.friezes.find c.id = some { c.f with stations := l }) (b : Bool) (target : BitVec 52) {now : Bool} :
    Slice0.Path (completeWord c i (branched c b target s) now) c (b = true) target := by
  unfold branched
  split
  next ht =>
    obtain ⟨hhead, hb⟩ := Bool.and_eq_true_iff.1 ht
    obtain ⟨g, hg, hfetch, hindex, -⟩ := completeWord_find (now := now) ha
      (State.updFz_find hf fun f => { f with fetched := f.fetched.take 1, fetchIndex := target })
    rw [if_pos hhead] at hfetch
    refine ⟨g, hg, fun _ _ => ⟨?_, hindex⟩, fun _ hn => absurd hb hn, fun hne => absurd ((isHead_iff c).1 hhead) hne⟩
    rw [hfetch]
    cases c.f.fetched <;> rfl
  next ht =>
    obtain ⟨g, hg, hfetch, hindex, -⟩ := completeWord_find (now := now) ha hf
    refine ⟨g, hg, fun h0 hb => ?_, fun h0 _ => ⟨?_, hindex⟩, fun hne => ⟨?_, hindex⟩⟩
    · exact absurd (Bool.and_eq_true_iff.2 ⟨(isHead_iff c).2 h0, hb⟩) ht
    · rw [hfetch, if_pos ((isHead_iff c).2 h0)]
    · rw [hfetch, if_neg fun hh => hne ((isHead_iff c).1 hh)]

theorem path_congr {t : State} {c : Ctx} {p q : Prop} {target target' : BitVec 52} (hp : p ↔ q) (ht : target = target')
    (h : Slice0.Path t c p target) : Slice0.Path t c q target' := by rwa [← ht, ← propext hp]

/-- (index of the word + OFF) modulo 2^52 (R311). -/
theorem branchTarget_eq (c : Ctx) (off : BitVec 28) : branchTarget c.index off = Slice0.target c off := by
  rw [branchTarget, Slice0.target, BitVec.ofInt_add]
  congr 1
  rw [BitVec.ofInt_natCast, BitVec.ofNat_toNat, BitVec.setWidth_eq]

/-- The kinds of R36: a well-formed BR has none beyond them. -/
theorem brTaken_iff {c : Ctx} {r : BitVec 5} {kind : BitVec 3} (hk : kind.toNat ≤ 4) :
    brTaken c r kind = true ↔ Slice0.brTakes c.x r kind := by
  have hkind : kind = 0 ∨ kind = 1 ∨ kind = 2 ∨ kind = 3 ∨ kind = 4 := by
    revert kind; decide
  rcases hkind with rfl | rfl | rfl | rfl | rfl <;> simp [brTaken, Slice0.brTakes, Ctx.g]

/-- The frieze of the word after its station's register has been written. -/
theorem setG_find {c : Ctx} {s : State} {f : Frieze} {l : List Station} (hf : s.friezes.find c.id = some { f with stations := l })
    (d : Reg) (v : Dword) : ∃ l', (c.setG s d v).friezes.find c.id = some { f with stations := l' } :=
  ⟨_, State.updFz_find hf _⟩

end Sys2Proof.Machine

namespace Sys2Proof.Slice0
open Machine

/-- Settles O5: a branch word writes its station's register, and the head alone changes its path, on its own test. -/
theorem branchWords : Obligations.BranchWords := by
  unfold Obligations.BranchWords
  intro i r s c hr hi hp
  clear hp
  obtain ⟨e, hst⟩ := hi.before
  obtain ⟨l, hf⟩ := beforeEffect_find c i s hi.find
  unfold branchRow at hr
  split at hr <;> cases hr
  case h_1 h k kind off =>
    have hex : execBr h k kind off s = _ := hi.done (q := branched c (brTaken c k kind) (branchTarget c.index off) _) rfl
    have hkind : kind.toNat ≤ 4 := by
      have hfld := (Bool.and_eq_true_iff.1 hi.legal).2
      simp only [Instr.fieldsOk, Bool.and_eq_true, decide_eq_true_eq] at hfld
      exact hfld.1.1
    exact ⟨_, hex, completeWord_stands rfl ((branched_station ..).trans hst),
      path_congr (brTaken_iff hkind) (branchTarget_eq c off) (branched_path rfl hf _ _)⟩
  case h_2 h k off =>
    obtain ⟨e', hst'⟩ := setG_station hst k (c.g k - 1)
    obtain ⟨l', hf'⟩ := setG_find hf k (c.g k - 1)
    have hex : execLoop h k off s = _ :=
      hi.done (q := branched c (c.g k - 1 != 0) (branchTarget c.index off) (c.setG _ k (c.g k - 1))) rfl
    have htest : (c.g k - 1 != 0) = true ↔ c.x.rg k ≠ 1 := by
      rw [bne_iff_ne]
      exact sub_ne_zero
    exact ⟨_, hex, completeWord_stands rfl ((branched_station ..).trans hst'),
      path_congr htest (branchTarget_eq c off) (branched_path rfl hf' _ _)⟩
  case h_3 h k off =>
    obtain ⟨e', hst'⟩ := setG_station hst k ((c.index + 1).zeroExtend 64)
    obtain ⟨l', hf'⟩ := setG_find hf k ((c.index + 1).zeroExtend 64)
    have hex : execCall h k off s = _ :=
      hi.done (q := branched c true (branchTarget c.index off) (c.setG _ k ((c.index + 1).zeroExtend 64)))
        (by simp only [branched, Bool.and_true]; rfl)
    refine ⟨_, hex, ?_, path_congr (by simp) (branchTarget_eq c off) (branched_path rfl hf' _ _)⟩
    rw [BitVec.ofNat_toNat]
    exact completeWord_stands rfl ((branched_station ..).trans hst')
  case h_4 h k =>
    have hex : execRet h k s = _ :=
      hi.done (q := branched c true ((c.g k).setWidth 52) _) (by simp only [branched, Bool.and_true]; rfl)
    have htarget : (c.g k).setWidth 52 = (c.x.rg k).extractLsb' 0 52 := by rw [BitVec.setWidth_eq_extractLsb' (by decide)]; rfl
    exact ⟨_, hex, completeWord_stands rfl ((branched_station ..).trans hst), path_congr (by simp) htarget (branched_path rfl hf _ _)⟩

end Sys2Proof.Slice0
end

section
/-! SUPPORT. What an access reads where only friezes, counters and the selection have changed, and the scalar loads of LOCAL and SHARED space. -/

namespace Sys2Proof.Machine

/-! ### Checks and bytes over what changes neither memory nor translation -/

section
variable {s t : State} (q : Quiet s t)
include q

theorem Quiet.mem (k : MemId) : t.mem k = s.mem k := by
  cases k with
  | tile u => obtain ⟨e, he⟩ := q.tiles u; simp only [State.mem, he]
  | sram => simp only [State.mem]; rw [q.rest]
  | hbm => simp only [State.mem]; rw [q.rest]

theorem Quiet.bytesAt (p : Place) (n : Nat) : t.bytesAt p n = s.bytesAt p n := by rw [State.bytesAt, State.bytesAt, q.mem]

theorem Quiet.badAt (p : Place) (n : Nat) : t.badAt p n = s.badAt p n := by rw [State.badAt, State.badAt, q.mem]

theorem Quiet.elementCheck (job tile : Nat) (f : Dword) (a : Int) (z : Nat) (k : Access) :
    elementCheck t job tile f a z k = elementCheck s job tile f a z k := by
  rw [q.rest]; rfl

theorem Quiet.ownerForward (p : Place) : ownerForward t p = ownerForward s p := by
  rw [q.rest]; rfl

theorem Quiet.overlapping (c : Ctx) (f : Dword) (a : Int) (z : Nat) : overlapping t c f a z = overlapping s c f a z := by
  rw [q.rest]; rfl

end

/-! ### Where a check passes (R17, R182) -/

section
variable {s : State} {job tile : Nat} {f : Dword} {a : Int} {z : Nat} {k : Access} {p : Place}

/-- What an element's check that passes says of its form and address. -/
theorem elementCheck_ok (h : elementCheck s job tile f a z k = .ok p) :
    formSpace f ≠ 3 ∧ 0 ≤ a ∧ a % z = 0 ∧ spaceCheck s job tile (formSpace f) a.toNat z k = .ok p := by
  unfold elementCheck at h
  split at h
  · cases h
  next hform =>
    split at h
    · cases h
    next hrange =>
      split at h
      · cases h
      next halign =>
        have h0 : 0 ≤ a := by omega
        refine ⟨fun h3 => ?_, h0, ?_, h⟩
        · rw [formCheck, if_pos h3] at hform
          cases hform
        · rw [← Int.toNat_of_nonneg h0]
          exact_mod_cast not_not.1 halign

/-- LOCAL and SHARED space lie on the module and are not versioned (R182). -/
theorem spaceCheck_near {space : BitVec 2} {n : Nat} (hg : space ≠ spGlobal) (h3 : space ≠ 3)
    (h : spaceCheck s job tile space n z k = .ok p) : p.mem ≠ .hbm ∧ p.ver = none := by
  unfold spaceCheck at h
  split at h
  · split at h <;> cases h
    exact ⟨nofun, rfl⟩
  next hl =>
    split at h
    next hsh =>
      split at h
      · cases h
      · split at h
        · cases h
        · split at h <;> cases h
          exact ⟨nofun, rfl⟩
    next hsh =>
      exfalso
      revert space
      decide

theorem State.placeUp_near (s : State) (h : p.mem ≠ .hbm) : s.placeUp p = true := by
  unfold State.placeUp
  split
  · contradiction
  · rfl

/-- The bytes of an element of LOCAL or SHARED space are read in place. -/
theorem fetchElem_near (hg : formSpace f ≠ spGlobal) (h : elementCheck s job tile f a z .read = .ok p) (fz : Nat) (x : BitVec 3)
    (v : View) : fetchElem s job fz x tile v f a z = .ok (s.bytesAt p z) (s.badAt p z) := by
  obtain ⟨h3, -, -, hsp⟩ := elementCheck_ok h
  obtain ⟨hmem, hver⟩ := spaceCheck_near hg h3 hsp
  simp only [fetchElem, h, s.placeUp_near hmem, hver, Bool.not_true, Bool.false_eq_true, if_false]

/-- A scalar access of LOCAL or SHARED space whose element passes its check is not refused (R204). -/
theorem scalarCheck_near {c : Ctx} (hg : formSpace f ≠ spGlobal) (h : elementCheck s c.job c.tile f a z k = .ok p) :
    scalarCheck s c f a z false k = none := by
  obtain ⟨h3, -, hz, -⟩ := elementCheck_ok h
  have hok : spaceAllowed f false := ⟨h3, by simpa using hg⟩
  rw [scalarCheck, if_neg fun hr => (spaceRefused_iff f false).1 hr hok, if_neg (by simpa using hz), if_neg Bool.false_ne_true, h]

end

/-! ### Doublewords written to a station's registers (R45) -/

theorem setGs_e (vs : List Dword) (d : Reg) (x : Station) (e : Vector Word 32) :
    ∃ e', setGs { x with e := e } d vs = { setGs x d vs with e := e' } := by
  induction vs generalizing d x e with
  | nil => exact ⟨e, rfl⟩
  | cons v vs ih =>
    obtain ⟨e1, h1⟩ := setG_e d v x e
    obtain ⟨e2, h2⟩ := ih (d + 1) (x.setG d v) e1
    exact ⟨e2, by rw [setGs, setGs, h1, h2]⟩

/-- A word whose effect writes doublewords to its station's registers. -/
theorem Issues.writesGs {s : State} {i : Instr} {h : Hdr} {c : Ctx} {body : Ctx → State → Eff} (hi : Issues s i h c)
    (ha : i.asksHead = false) {d : Reg} {vs : List Dword}
    (hb : body c (beforeEffect c i s) = .done (c.upd (beforeEffect c i s) fun x => setGs x d vs) true) :
    ∃ t, issueWord i h s body = .next t ∧ SameBytes s t ∧ Slice0.Stands t c (setGs c.x d vs) := by
  obtain ⟨e, hst⟩ := hi.before
  obtain ⟨e', he'⟩ := setGs_e vs d c.x e
  have hst' : (c.upd (beforeEffect c i s) fun x => setGs x d vs).station? c.id c.st = some { setGs c.x d vs with e := e' } := by
    rw [← he']; exact State.updSt_station hst _
  exact ⟨_, hi.done hb, ((Quiet.beforeEffect ..).trans ((Quiet.updSt ..).trans (Quiet.completeWord ..))).sameBytes,
    completeWord_stands ha hst'⟩

/-! ### LDS and LDQ (R202, R203) -/

/-- The size of LDS and of LDQ. -/
abbrev loadSize (quad : Bool) : Nat := if quad then 32 else 8

/-- A load of LOCAL or SHARED space that takes effect (R202). -/
theorem scalarNow_load {s : State} {c : Ctx} {r : PendScalar} {p : Place} {quad : Bool} {d : Reg} {form : Dword} {a : Int}
    (hs : r.store = false) (hq : r.quad = quad) (hd : r.dst = d) (hform : r.form = form) (ha : (r.addr : Int) = a)
    (hg : formSpace form ≠ spGlobal) (hel : elementCheck s c.job c.tile form a (loadSize quad) .read = .ok p)
    (hbad : s.badAt p (loadSize quad) = false) :
    scalarNow s c.job c.id c.st c.tile r =
      (c.upd s fun x => setGs x d (dwordsOf (s.bytesAt p (loadSize quad)) (loadSize quad / 8)), true) := by
  have hsize : 8 * (if quad then 4 else 1) = loadSize quad ∧ (if quad then 4 else 1) = loadSize quad / 8 := by
    cases quad <;> decide
  simp only [scalarNow, hs, hq, hd, hform, ha, Bool.false_eq_true, if_false, hsize.1, fetchElem_near hg hel, hbad, ← hsize.2, Ctx.upd]

section
variable {s : State} {i : Instr} {h : Hdr} {c : Ctx} {a : Reg} {imm : BitVec 26} {p : Place} {quad : Bool}

/-- A load that nothing holds back is performed at its issue. -/
theorem load_reads (hi : Issues s i h c) (ha : i.asksHead = false) (d : Reg)
    (hp : Slice0.scalarPlace s c a imm (loadSize quad) .read p) (hbad : s.badAt p (loadSize quad) = false)
    (hfree : Slice0.unheld s c .read a imm (loadSize quad)) :
    ∃ t, scalarWord i h false quad d a imm s = .next t ∧ SameBytes s t ∧
      Slice0.Stands t c (setGs c.x d (dwordsOf (s.bytesAt p (loadSize quad)) (loadSize quad / 8))) := by
  obtain ⟨hg, hel⟩ := hp
  obtain ⟨hfence, hprior, hlate, hnear⟩ := hfree
  have hq := Quiet.beforeEffect c i s
  have hel' : elementCheck (beforeEffect c i s) c.job c.tile (c.g a) (scalarAddr (c.g a) imm) (loadSize quad) .read = .ok p :=
    (hq.elementCheck ..).trans hel
  have hprior' : overlapping (beforeEffect c i s) c (c.g a) (scalarAddr (c.g a) imm) (loadSize quad) = [] :=
    (hq.overlapping ..).trans hprior
  have hdirect : (ownerForward (beforeEffect c i s) p).isNone = true := by
    rw [hq.ownerForward]
    simpa only [Slice0.direct, hel] using hnear
  refine hi.writesGs ha ?_
  have hfence' : c.x.waitsFor clLR false = [] := hfence
  have h0 : ((scalarAddr (c.g a) imm).toNat : Int) = scalarAddr (c.g a) imm := Int.toNat_of_nonneg (elementCheck_ok hel).2.1
  simp only [Bool.false_eq_true, if_false]
  rw [scalarCheck_near hg hel', hel', hprior', hfence', hlate]
  simp only [hdirect, List.append_nil, List.isEmpty_nil, Bool.not_false, Bool.and_self, if_true]
  rw [scalarNow_load (d := d) (hg := hg) (hel := hel') (hbad := (hq.badAt ..).trans hbad) (ha := h0), hq.bytesAt]
  all_goals rfl

/-- A load takes the bytes of the one store that covers them and is still to be performed. -/
theorem load_takes_store (hi : Issues s i h c) (ha : i.asksHead = false) (d : Reg)
    (hp : Slice0.scalarPlace s c a imm (loadSize quad) .read p) {bs : List Byte}
    (htake : Slice0.takesStore s c a imm (loadSize quad) bs) :
    ∃ t, scalarWord i h false quad d a imm s = .next t ∧ SameBytes s t ∧
      Slice0.Stands t c (setGs c.x d (dwordsOf bs (loadSize quad / 8))) := by
  obtain ⟨hg, hel⟩ := hp
  obtain ⟨hfence, hlate, hfwd⟩ := htake
  have hq := Quiet.beforeEffect c i s
  have hel' : elementCheck (beforeEffect c i s) c.job c.tile (c.g a) (scalarAddr (c.g a) imm) (loadSize quad) .read = .ok p :=
    (hq.elementCheck ..).trans hel
  have hfwd' : forwarded c.x (overlapping (beforeEffect c i s) c (c.g a) (scalarAddr (c.g a) imm) (loadSize quad)) (c.g a)
      (scalarAddr (c.g a) imm).toNat (loadSize quad) = some bs := by rw [hq.overlapping]; exact hfwd
  have hprior : overlapping (beforeEffect c i s) c (c.g a) (scalarAddr (c.g a) imm) (loadSize quad) ≠ [] := fun hnil => by
    rw [hnil] at hfwd'
    cases hfwd'
  have hwaits : (overlapping (beforeEffect c i s) c (c.g a) (scalarAddr (c.g a) imm) (loadSize quad)).isEmpty = false := by
    simpa using hprior
  refine hi.writesGs ha ?_
  simp only [Bool.false_eq_true, if_false]
  rw [scalarCheck_near hg hel', hfence, hlate]
  simp only [List.nil_append, hwaits, Bool.false_and, Bool.false_eq_true, if_false, List.isEmpty_nil, Bool.not_true, Bool.or_self, hfwd']

end

end Sys2Proof.Machine

namespace Sys2Proof.Slice0
open Machine

/-- Settles O17: nothing holds the load back, so that it reads its bytes in place as it issues; or the one store that covers them still
waits, and the load takes them from it. -/
theorem scalarLoads : Obligations.ScalarLoads := by
  unfold Obligations.ScalarLoads
  refine ⟨fun i r s c hr hi hp => ?_, fun i r s c hr hi hp => ?_⟩
  · have hunique : ∀ {z a imm p p'}, scalarPlace s c a imm z .read p → scalarPlace s c a imm z .read p' → p = p' :=
      fun h h' => Except.ok.inj (h.2.symm.trans h'.2)
    unfold loadRow at hr
    split at hr <;> cases hr
    case h_1 h d a imm =>
      obtain ⟨⟨p, hplace, hbad⟩, hfree⟩ := hp
      obtain ⟨t, ht, hsame, hstands⟩ := load_reads (quad := false) hi rfl d hplace hbad hfree
      exact ⟨t, ht, hsame, fun p' hp' => hunique hplace hp' ▸ hstands⟩
    case h_2 h d a imm =>
      obtain ⟨⟨p, hplace, hbad⟩, hfree⟩ := hp
      obtain ⟨t, ht, hsame, hstands⟩ := load_reads (quad := true) hi rfl d hplace hbad hfree
      exact ⟨t, ht, hsame, fun p' hp' => hunique hplace hp' ▸ hstands⟩
  · have hunique : ∀ {z a imm bs bs'}, takesStore s c a imm z bs → takesStore s c a imm z bs' → bs = bs' :=
      fun h h' => Option.some.inj (h.2.2.symm.trans h'.2.2)
    unfold forwardRow at hr
    split at hr <;> cases hr
    case h_1 h d a imm =>
      obtain ⟨⟨p, hplace⟩, bs, htake⟩ := hp
      obtain ⟨t, ht, hsame, hstands⟩ := load_takes_store (quad := false) hi rfl d hplace htake
      exact ⟨t, ht, hsame, fun bs' htake' => hunique htake htake' ▸ hstands⟩
    case h_2 h d a imm =>
      obtain ⟨⟨p, hplace⟩, bs, htake⟩ := hp
      obtain ⟨t, ht, hsame, hstands⟩ := load_takes_store (quad := true) hi rfl d hplace htake
      exact ⟨t, ht, hsame, fun bs' htake' => hunique htake htake' ▸ hstands⟩

end Sys2Proof.Slice0
end

section
/-! SUPPORT. What the shared operations keep of every station, the markers a word injects, and the words of monitoring. -/

namespace Sys2Proof.Machine

/-! ### What is kept of every station -/

/-- What π reads of every station it reads as before. -/
structure KeepsOf {α : Type} (π : Station → α) (s t : State) : Prop where
  station : ∀ i j, (t.station? i j).map π = (s.station? i j).map π

section
variable {α : Type} {π : Station → α}

theorem KeepsOf.refl (s : State) : KeepsOf π s s := ⟨fun _ _ => rfl⟩

theorem KeepsOf.trans {s t r : State} (a : KeepsOf π s t) (b : KeepsOf π t r) : KeepsOf π s r :=
  ⟨fun i j => (b.station i j).trans (a.station i j)⟩

theorem KeepsOf.of_friezes {s t : State} (h : t.friezes = s.friezes) : KeepsOf π s t :=
  ⟨fun i j => by rw [State.station?, h]; rfl⟩

theorem KeepsOf.foldl {β : Type} {g : State → β → State} (hg : ∀ s b, KeepsOf π s (g s b)) (l : List β) (s : State) :
    KeepsOf π s (l.foldl g s) := by
  induction l generalizing s with
  | nil => exact KeepsOf.refl s
  | cons b l ih => exact (hg s b).trans (ih _)

theorem Frieze.updSt_map (f : Frieze) (st : Nat) {g : Station → Station} (hg : ∀ x, π (g x) = π x) (n : Nat) :
    ((f.updSt st g).stations[n]?).map π = (f.stations[n]?).map π := by
  by_cases hn : n = st
  · subst hn
    cases hx : f.stations[n]? <;> simp [Frieze.updSt, hx, hg]
  · rw [Frieze.updSt_get_ne f g hn]

theorem KeepsOf.updFz (s : State) (id : Nat) {g : Frieze → Frieze}
    (hg : ∀ (f : Frieze) (n : Nat), ((g f).stations[n]?).map π = (f.stations[n]?).map π) : KeepsOf π s (s.updFz id g) := by
  refine ⟨fun i j => ?_⟩
  by_cases hi : i = id
  · subst hi
    cases hf : s.friezes.find i with
    | none => rw [State.updFz, hf]
    | some f => rw [State.station_eq (State.updFz_find hf g), State.station_eq hf, hg]
  · rw [State.station?, State.station?, State.updFz_find_ne s g hi]

theorem KeepsOf.updSt (s : State) (id st : Nat) {g : Station → Station} (hg : ∀ x, π (g x) = π x) : KeepsOf π s (s.updSt id st g) :=
  KeepsOf.updFz s id fun f n => f.updSt_map st hg n

section
variable (he : ∀ (x : Station) (e : Vector Word 32), π { x with e := e } = π x)
include he

theorem KeepsOf.updCounter (s : State) (id st : Nat) (k : BitVec 6) (g : Word → Word) : KeepsOf π s (s.updCounter id st k g) := by
  unfold State.updCounter
  split
  · exact KeepsOf.refl s
  · split
    · exact KeepsOf.updSt s id st fun x => he x _
    · exact KeepsOf.of_friezes rfl

theorem KeepsOf.sigDone (s : State) (id st : Nat) (m : BitVec 2) (k : BitVec 6) : KeepsOf π s (s.sigDone id st m k) := by
  unfold State.sigDone
  split
  · exact KeepsOf.updCounter he ..
  · exact KeepsOf.refl s

theorem KeepsOf.portLevels (s0 s : State) (t : Nat) : KeepsOf π s (s0.portLevels s t) := by
  unfold State.portLevels
  refine KeepsOf.foldl (fun s c => ?_) _ s
  dsimp only
  split
  · split
    · split
      · exact KeepsOf.refl s
      · exact KeepsOf.updCounter he ..
    · exact KeepsOf.of_friezes rfl
  · exact KeepsOf.refl s

theorem KeepsOf.updPorts (s : State) (t : Nat) (g : Tile → Tile) : KeepsOf π s (s.updPorts t g) :=
  KeepsOf.trans (t := s.updTile t g) (KeepsOf.of_friezes rfl) (KeepsOf.portLevels he ..)

end

/-- A word that completes keeps what neither counters, queues nor its own place show. -/
theorem KeepsOf.advance (hm : ∀ x : Station, π x.moved = π x) (hn : ∀ (x : Station) (n : List Nat), π { x with entered := n } = π x)
    (c : Ctx) (s : State) : KeepsOf π s (advance c s) := by
  refine KeepsOf.trans (t := s.updFz c.id _) (KeepsOf.updFz s c.id fun f n => ?_) (KeepsOf.of_friezes rfl)
  have hmoved : (((f.updSt c.st (·.moved)).updSt (c.st + 1) fun x => { x with entered := x.entered ++ [s.cycles.toNat] }).stations[n]?).map π =
      (f.stations[n]?).map π := (Frieze.updSt_map _ _ (fun x => hn x _) n).trans (f.updSt_map c.st hm n)
  dsimp only
  split <;> split <;> exact hmoved

end

/-- The tag of its last MARK stays with a station when a word completes. -/
theorem completeWord_markTag {i : Instr} (ha : i.asksHead = false) (c : Ctx) (s : State) (now : Bool) :
    KeepsOf (·.markTag) s (completeWord c i s now) := by
  simp only [Machine.completeWord, ha, Bool.false_eq_true, if_false]
  split
  · exact (KeepsOf.sigDone (fun _ _ => rfl) ..).trans (KeepsOf.advance (fun _ => rfl) (fun _ _ => rfl) ..)
  · exact KeepsOf.advance (fun _ => rfl) (fun _ _ => rfl) ..

/-- A station but for its event counters. -/
def Station.uncounted (x : Station) : Station := { x with e := Vector.replicate 32 0 }

theorem uncounted_inj {x y : Station} (h : x.uncounted = y.uncounted) : ∃ e, x = { y with e := e } := by
  refine ⟨x.e, ?_⟩
  cases x
  cases y
  simp only [Station.uncounted, Station.mk.injEq] at h ⊢
  tauto

/-- What is kept but for event counters is each station but for its own. -/
theorem KeepsOf.uncounted {s t : State} (h : KeepsOf Station.uncounted s t) {i j : Nat} {x : Station} (hx : s.station? i j = some x) :
    ∃ e, t.station? i j = some { x with e := e } := by
  have h' := h.station i j
  rw [hx, Option.map_some, Option.map_eq_some_iff] at h'
  obtain ⟨y, hy, he⟩ := h'
  obtain ⟨e, rfl⟩ := uncounted_inj he
  exact ⟨e, hy⟩

/-! ### Markers injected (R89, R99, R165) -/

theorem InPort.enter_fields (q : InPort) (p : Nat) (ws : List RawBeat) :
    (ws.foldl (fun q w => q.enter p w) q).waiting = q.waiting ∧
      ∃ l, (ws.foldl (fun q w => q.enter p w) q).fifo = q.fifo ++ l ∧
        l.map (fun b => (b.kind, b.bits)) = ws.map fun w => (w.kind, w.data) := by
  induction ws generalizing q with
  | nil => exact ⟨rfl, [], by simp, rfl⟩
  | cons w ws ih =>
    obtain ⟨hw, l, hl, hm⟩ := ih (q.enter p w)
    refine ⟨hw, ⟨w.kind, enterRec q.binding p q.srCount w, w.data⟩ :: l, ?_, by rw [List.map_cons, hm, List.map_cons]⟩
    rw [List.foldl_cons, hl, InPort.enter, List.append_assoc]
    rfl

/-- A marker injected waits behind those that wait, and as many of them enter as find an entry free. -/
theorem InPort.inject_injects (q : InPort) (p : Nat) (w : RawBeat) : Slice0.Injects q (q.inject p w) w := by
  obtain ⟨hw, l, hl, hm⟩ := InPort.enter_fields { q with waiting := (q.waiting ++ [w]).drop ((q.waiting ++ [w]).take q.free).length } p
    ((q.waiting ++ [w]).take q.free)
  have hinj : q.inject p w = ((q.waiting ++ [w]).take q.free).foldl (fun q w => q.enter p w)
      { q with waiting := (q.waiting ++ [w]).drop ((q.waiting ++ [w]).take q.free).length } := rfl
  rw [← hinj] at hw hl
  refine ⟨?_, ⟨l, hl.symm⟩, ?_⟩
  · rw [hw]
    dsimp only
    rw [List.length_take]
    rcases Nat.le_total q.free (q.waiting ++ [w]).length with h | h
    · rw [Nat.min_eq_left h]
    · rw [Nat.min_eq_right h, List.drop_length, List.drop_eq_nil_of_le h]
  · rw [hl, List.drop_left, hm]

theorem Tile.inPort_setIn (x : Tile) (p : Nat) (v : InPort) {j : Nat} (hj : j < 32) :
    (x.setIn p v).inPort j = if p = j then v else x.inPort j := by
  unfold Tile.setIn
  by_cases hp : p < 32
  · simp [Tile.inPort, hp, hj, Vector.getElem_set]
  · rw [dif_neg hp, if_neg (by omega)]

theorem State.updPorts_inPort (s : State) (t : Nat) (g : Tile → Tile) (u j : Nat) :
    ((s.updPorts t g).tile u).inPort j = ((s.updTile t g).tile u).inPort j := by
  rw [State.updPorts, (State.portLevels_quiet ..).apart.inPort]

/-- A marker injected at each of some in-ports. -/
theorem inject_ports_inPort (mk : Tok) (t : Nat) {j : Nat} (hj : j < 32) (ps : List Nat) (hnd : ps.Nodup) (s : State) :
    ((ps.foldl (fun s p => s.updPorts t fun x => x.setIn p ((x.inPort p).inject p mk.raw)) s).tile t).inPort j =
      if j ∈ ps then ((s.tile t).inPort j).inject j mk.raw else (s.tile t).inPort j := by
  induction ps generalizing s with
  | nil => simp
  | cons p ps ih =>
    obtain ⟨hp, hnd'⟩ := List.nodup_cons.1 hnd
    rw [List.foldl_cons, ih hnd', State.updPorts_inPort, State.tile_updTile_self, Tile.inPort_setIn _ _ _ hj]
    by_cases hpj : p = j
    · subst hpj
      simp [hp]
    · simp [hpj, Ne.symm hpj]

theorem Tile.inPort_updCol (x : Tile) (i : Nat) (g : Col → Col) (j : Nat) : (x.updCol i g).inPort j = x.inPort j := by
  unfold Tile.updCol
  split <;> rfl

theorem Tile.inPort_foldl {α : Type} {g : Tile → α → Tile} {j : Nat} (hg : ∀ x a, (g x a).inPort j = x.inPort j) (l : List α) (x : Tile) :
    (l.foldl g x).inPort j = x.inPort j := by
  induction l generalizing x with
  | nil => rfl
  | cons a l ih => rw [List.foldl_cons, ih, hg]

theorem injectMark_inPort (s : State) (t k : Nat) {ps : List Nat} (hnd : ps.Nodup) (cols : List Nat) (mk : Tok) {j : Nat} (hj : j < 32) :
    ((injectMark s t k ps cols mk).tile t).inPort j =
      if j ∈ ps then ((s.tile t).inPort j).inject j mk.raw else (s.tile t).inPort j := by
  unfold injectMark
  dsimp only
  rw [State.tile_updTile_self, Tile.inPort_foldl]
  · exact inject_ports_inPort mk t hj ps hnd s
  · intro x a
    split
    · exact Tile.inPort_updCol ..
    · rfl

theorem injectMark_uncounted (s : State) (t k : Nat) (ps cols : List Nat) (mk : Tok) :
    KeepsOf Station.uncounted s (injectMark s t k ps cols mk) :=
  (KeepsOf.foldl (fun s _ => KeepsOf.updPorts (fun _ _ => rfl) s t _) ps s).trans (KeepsOf.of_friezes rfl)

theorem injectAll_uncounted (s : State) (t k : Nat) (mk : Tok) : KeepsOf Station.uncounted s (injectAll s t k mk) :=
  injectMark_uncounted ..

theorem mem_readPorts {m : Maq} {cols : List Nat} {p : Nat} :
    p ∈ m.readPorts cols ↔ ∃ j ∈ cols, Slice0.colReads m j p := by
  simp only [Maq.readPorts, Slice0.colReads, List.mem_dedup, List.mem_append, List.mem_flatMap]
  constructor
  · rintro (⟨⟨key, o⟩, ho, hp⟩ | ⟨⟨r, w⟩, hw, hp⟩)
    · dsimp only at hp
      split at hp
      next hc =>
        obtain ⟨e, he, hp⟩ := List.mem_flatMap.1 hp
        exact ⟨key / 4, by simpa using hc, .inl ⟨key, o, ho, rfl, e, he, hp⟩⟩
      next => cases hp
    · dsimp only at hp
      split at hp
      next g hg =>
        split at hp
        next hc =>
          obtain ⟨j, hj, hin⟩ := List.any_eq_true.1 hc
          obtain ⟨hlo, hhi⟩ : g.first ≤ j ∧ j ≤ g.last := by simpa using hin
          exact ⟨j, hj, .inr ⟨r, w, g, hw, hg, hlo, hhi, hp⟩⟩
        next => cases hp
      next => cases hp
  · rintro ⟨j, hj, ⟨key, o, ho, hkey, e, he, hp⟩ | ⟨r, w, g, hw, hg, hlo, hhi, hp⟩⟩
    · refine .inl ⟨(key, o), ho, ?_⟩
      rw [if_pos (by simpa [hkey] using hj)]
      exact List.mem_flatMap.2 ⟨e, he, hp⟩
    · refine .inr ⟨(r, w), hw, ?_⟩
      simp only [hg]
      rw [if_pos (List.any_eq_true.2 ⟨j, hj, by simp [hlo, hhi]⟩)]
      exact hp

theorem mem_directPorts {x : Tile} {k p : Nat} :
    p ∈ x.directPorts k (fun _ => true) ↔
      ∃ o w, (o, k) ∈ x.outAct ∧ (x.ctx k).maq.outs.find o = some w ∧ ∃ e ∈ w.sel, p ∈ e.inPorts := by
  simp only [Tile.directPorts, List.mem_flatMap]
  constructor
  · rintro ⟨⟨o, j⟩, ho, hp⟩
    dsimp only at hp
    split at hp
    next hj =>
      obtain ⟨rfl, -⟩ := hj
      cases hw : (x.ctx j).maq.outs.find o with
      | none => rw [hw] at hp; cases hp
      | some w =>
        rw [hw, Option.map_some, Option.getD_some] at hp
        exact ⟨o, w, ho, hw, List.mem_flatMap.1 hp⟩
    next => cases hp
  · rintro ⟨o, w, ho, hw, e, he, hp⟩
    refine ⟨(o, k), ho, ?_⟩
    rw [if_pos ⟨rfl, trivial⟩, hw, Option.map_some, Option.getD_some]
    exact List.mem_flatMap.2 ⟨e, he, hp⟩

theorem mem_colsOn {x : Tile} {k j : Nat} : j ∈ x.colsOn k ↔ j < 16 ∧ x.activeOf j = some k := by
  simp [Tile.colsOn]

/-- A marker for everything active under a context stands at the in-ports it reads, and nowhere else (R165, R327). -/
theorem injectAll_marks (s : State) (t k : Nat) (mk : Tok) :
    Slice0.Marks s (injectAll s t k mk) t (fun p => Slice0.activeReads (s.tile t) k p (fun _ => True) fun _ => True) mk.raw := by
  intro p hp
  have hreads : p ∈ (((s.tile t).ctx k).maq.readPorts ((s.tile t).colsOn k) ++ (s.tile t).directPorts k fun _ => true).dedup ↔
      Slice0.activeReads (s.tile t) k p (fun _ => True) fun _ => True := by
    simp only [List.mem_dedup, List.mem_append, mem_readPorts, mem_directPorts, mem_colsOn, Slice0.activeReads, true_and, and_assoc]
  have hport := injectMark_inPort s t k (List.nodup_dedup
    (((s.tile t).ctx k).maq.readPorts ((s.tile t).colsOn k) ++ (s.tile t).directPorts k fun _ => true)) ((s.tile t).colsOn k) mk hp
  refine ⟨fun hr => ?_, fun hr => ?_⟩
  · rw [injectAll, hport, if_pos (hreads.2 hr)]
    exact InPort.inject_injects ..
  · rw [injectAll, hport, if_neg (hreads.not.2 hr)]

/-- Markers injected between two quiet steps are injected by the three together. -/
theorem marks_between {s s' t' t : State} {u k : Nat} {w : RawBeat} (hq : Quiet s s') (hp : Apart t' t)
    (h : Slice0.Marks s' t' u (fun p => Slice0.activeReads (s'.tile u) k p (fun _ => True) fun _ => True) w) :
    Slice0.Marks s t u (fun p => Slice0.activeReads (s.tile u) k p (fun _ => True) fun _ => True) w := by
  obtain ⟨e, he⟩ := hq.tiles u
  intro p hlt
  obtain ⟨hreads, hnot⟩ := h p hlt
  rw [he] at hreads hnot
  rw [hp.inPort]
  exact ⟨hreads, hnot⟩

/-! ### CNTRD (R322) -/

theorem Tile.col_updCol (x : Tile) (i : Nat) (g : Col → Col) {j : Nat} (hj : j < 16) :
    (x.updCol i g).col j = if i = j then g (x.col j) else x.col j := by
  unfold Tile.updCol
  split
  next hi => by_cases hij : i = j <;> simp [Tile.col, hj, hij]
  next hi => rw [if_neg (by omega)]

/-- The number of CNTRD's counter (R322). -/
abbrev cntNumber (c : Ctx) (a : Reg) (num : BitVec 12) : BitVec 12 := num + (c.g a).extractLsb' 0 12

/-- What CNTRD.CLR leaves of its station. -/
theorem cntClear_station {s : State} {c : Ctx} {y : Station} {e : Vector Word 32}
    (h : s.station? c.id c.st = some { y with e := e }) (n : Nat) :
    (cntClear s c n).station? c.id c.st = some { y with
      e := e
      issued := if n = 0x001 then 0 else y.issued
      held := if n = 0x002 then 0 else y.held
      notsel := if n = 0x003 then 0 else y.notsel } := by
  unfold cntClear
  split
  next hn => subst hn; exact State.updSt_station h _
  next h1 =>
    split
    next hn => subst hn; exact State.updSt_station h _
    next h2 =>
      split
      next hn => subst hn; exact State.updSt_station h _
      next h3 =>
        split <;> exact h

/-- What CNTRD.CLR leaves of the columns' status. -/
theorem cntClear_status (s : State) (c : Ctx) (n : Nat) {j : Nat} (hj : j < 16) :
    (((cntClear s c n).tile c.tile).col j).status = if n = 0x100 + j then 0 else ((s.tile c.tile).col j).status := by
  have hquiet : ∀ t : State, Quiet s t → ¬n = 0x100 + j →
      ((t.tile c.tile).col j).status = if n = 0x100 + j then 0 else ((s.tile c.tile).col j).status := fun t q hn => by
    obtain ⟨e, he⟩ := q.tiles c.tile
    rw [if_neg hn, he]
    rfl
  unfold cntClear
  split
  next hn => exact hquiet _ (Quiet.updSt ..) (by omega)
  next =>
    split
    next hn => exact hquiet _ (Quiet.updSt ..) (by omega)
    next =>
      split
      next hn => exact hquiet _ (Quiet.updSt ..) (by omega)
      next =>
        split
        next hn =>
          rw [State.tile_updTile_self, Tile.col_updCol _ _ _ hj]
          by_cases hj' : n = 0x100 + j
          · rw [if_pos (by omega), if_pos hj']
          · rw [if_neg (by omega), if_neg hj']
        next hn => exact hquiet s (Quiet.refl s) (by omega)

theorem Quiet.col {s t : State} (q : Quiet s t) (u j : Nat) : (t.tile u).col j = (s.tile u).col j := by
  obtain ⟨e, he⟩ := q.tiles u
  rw [he]
  rfl

theorem Quiet.ctx {s t : State} (q : Quiet s t) (u k : Nat) : (t.tile u).ctx k = (s.tile u).ctx k := by
  obtain ⟨e, he⟩ := q.tiles u
  rw [he]
  rfl

/-- An event counter after the wait and the mode 11 signal of a word that consumes nothing of its own (R8, R31). -/
theorem counter_beforeEffect {s : State} {i : Instr} {h : Hdr} {c : Ctx} (hi : Issues s i h c) (hsub : ∀ k w, afterSub c i k w = w)
    (k : BitVec 6) : (beforeEffect c i s).counter c.id c.st k = s.counter c.id c.st k
      - (if c.h.waitK = k then (if c.h.waitMode = 1 then 1 else if c.h.waitMode = 2 then c.x.rq k else 0) else 0)
      + (if c.h.sigMode = 3 ∧ c.h.sigK = k then 1 else 0) := by
  have hwait : ∀ w, afterWait c k w =
      w - (if c.h.waitK = k then (if c.h.waitMode = 1 then 1 else if c.h.waitMode = 2 then c.x.rq k else 0) else 0) := fun w => by
    unfold afterWait
    split
    next hk => rw [hk]
    next => exact (BitVec.sub_zero w).symm
  have hsig : ∀ w, afterSignal c 3 k w = w + (if c.h.sigMode = 3 ∧ c.h.sigK = k then 1 else 0) := fun w => by
    unfold afterSignal
    split
    · rfl
    · exact (BitVec.add_zero w).symm
  rw [(Recounts.beforeEffect c i s hi.on).counter (by rw [hi.station]; rfl), hsub, hwait, hsig]

/-- What CNTRD reads: the counters of R322, an event counter after the word's own wait and mode 11 signal (R31). -/
theorem cntValue_is {s : State} {i : Instr} {h : Hdr} {c : Ctx} (hi : Issues s i h c) (hsub : ∀ k w, afterSub c i k w = w)
    {n : Nat} (hn : Slice0.counterNumber n) : Slice0.counterIs s c n (cntValue (beforeEffect c i s) c n) := by
  have hq := Quiet.beforeEffect c i s
  have hbuf : (beforeEffect c i s).job? c.job = s.jobs.find c.f.job := congrArg (·.find c.job) hq.jobs
  generalize hv : cntValue (beforeEffect c i s) c n = v
  replace hv := hv.symm
  unfold cntValue at hv
  dsimp only at hv
  rw [hbuf, hq.col, hq.apart.inPort] at hv
  unfold Slice0.counterIs
  split at hv
  next h0 => exact .inl ⟨h0, hv.trans (by rw [hq.rest])⟩
  split at hv
  next h0 => exact .inr <| .inl ⟨h0, hv⟩
  split at hv
  next h0 => exact .inr <| .inr <| .inl ⟨h0, hv⟩
  split at hv
  next h0 => exact .inr <| .inr <| .inr <| .inl ⟨h0, hv⟩
  split at hv
  next h0 => exact .inr <| .inr <| .inr <| .inr <| .inl ⟨h0, hv⟩
  split at hv
  next h0 => exact .inr <| .inr <| .inr <| .inr <| .inr <| .inl ⟨h0, hv⟩
  split at hv
  next h0 =>
    refine .inr <| .inr <| .inr <| .inr <| .inr <| .inr <| .inl ⟨BitVec.ofNat 6 (n - 0x40), ?_, ?_⟩
    · rw [BitVec.toNat_ofNat]; omega
    · rw [hv, counter_beforeEffect hi hsub]
  split at hv
  next h0 => exact .inr <| .inr <| .inr <| .inr <| .inr <| .inr <| .inr <| .inl ⟨n - 0x100, by omega, by omega, hv⟩
  split at hv
  next h0 => exact .inr <| .inr <| .inr <| .inr <| .inr <| .inr <| .inr <| .inr ⟨n - 0x200, by omega, by omega, hv⟩
  next =>
    exfalso
    unfold Slice0.counterNumber at hn
    omega

theorem cntValue_none (s : State) (c : Ctx) {n : Nat} (hn : ¬Slice0.counterNumber n) : cntValue s c n = 0 := by
  unfold Slice0.counterNumber at hn
  unfold cntValue
  dsimp only
  rw [if_neg (by omega), if_neg (by omega), if_neg (by omega), if_neg (by omega), if_neg (by omega), if_neg (by omega),
    if_neg (by omega), if_neg (by omega), if_neg (by omega)]

/-- A register write leaves the station's counts alone. -/
theorem setG_counts (x : Station) (d : Reg) (v : Dword) :
    (x.setG d v).issued = x.issued ∧ (x.setG d v).held = x.held ∧ (x.setG d v).notsel = x.notsel := by
  unfold Station.setG
  split <;> exact ⟨rfl, rfl, rfl⟩

/-- What CNTRD makes of its station: g[D] takes the value, and under CLR the count it has read starts anew (R322). -/
def counterRead (x : Station) (d : Reg) (v : Dword) (clr : Bool) (n : BitVec 12) : Station :=
  { x.setG d v with
    issued := if clr ∧ n = 0x001 then 0 else x.issued
    held := if clr ∧ n = 0x002 then 0 else x.held
    notsel := if clr ∧ n = 0x003 then 0 else x.notsel }

/-- The effects of CNTRD on the machine. -/
def cntEffect (c : Ctx) (d : Reg) (v : Dword) (clr : Bool) (n : BitVec 12) (s : State) : State :=
  if clr then cntClear (c.setG s d v) c n.toNat else c.setG s d v

theorem cntEffect_station {c : Ctx} {s : State} {x : Station} {e : Vector Word 32} (h : s.station? c.id c.st = some { x with e := e })
    (d : Reg) (v : Dword) (clr : Bool) (n : BitVec 12) :
    ∃ e', (cntEffect c d v clr n s).station? c.id c.st = some { counterRead x d v clr n with e := e' } := by
  obtain ⟨e', he'⟩ := setG_station h d v
  obtain ⟨hissued, hheld, hnotsel⟩ := setG_counts x d v
  refine ⟨e', ?_⟩
  cases clr with
  | false =>
    rw [cntEffect, if_neg Bool.false_ne_true, he']
    simp [counterRead, ← hissued, ← hheld, ← hnotsel]
  | true =>
    rw [cntEffect, if_pos rfl, cntClear_station he']
    simp [counterRead, hissued, hheld, hnotsel, ← BitVec.toNat_inj]

theorem cntEffect_status (c : Ctx) (d : Reg) (v : Dword) (clr : Bool) (n : BitVec 12) (s : State) {j : Nat} (hj : j < 16) :
    (((cntEffect c d v clr n s).tile c.tile).col j).status =
      if clr ∧ n.toNat = 0x100 + j then 0 else ((s.tile c.tile).col j).status := by
  have hset : ((c.setG s d v).tile c.tile).col j = (s.tile c.tile).col j := (Quiet.updSt ..).col ..
  cases clr with
  | false => simp [cntEffect, hset]
  | true => rw [cntEffect, if_pos rfl, cntClear_status _ _ _ hj, hset]; simp

/-! ### SMPON (R323) -/

/-- The effect of SMPON: the head sets its frieze's flag. -/
def smpEffect (c : Ctx) (s : State) : State := if c.isHead then s.updFz c.id fun f => { f with sampling := true } else s

theorem smpEffect_station (c : Ctx) (s : State) (i j : Nat) : (smpEffect c s).station? i j = s.station? i j := by
  unfold smpEffect
  split
  · exact State.updFz_station_same (g := fun f => { f with sampling := true }) (fun _ => rfl) i j
  · rfl

theorem smpEffect_find {c : Ctx} {s : State} {f : Frieze} (hf : s.friezes.find c.id = some f) :
    ∃ g, (smpEffect c s).friezes.find c.id = some g ∧ (c.st = 0 → g.sampling = true) ∧ (c.st ≠ 0 → g.sampling = f.sampling) := by
  unfold smpEffect
  split
  next hh => exact ⟨_, State.updFz_find hf _, fun _ => rfl, fun hne => absurd ((isHead_iff c).1 hh) hne⟩
  next hh => exact ⟨f, hf, fun h0 => absurd ((isHead_iff c).2 h0) hh, fun _ => rfl⟩

/-! ### MARK (R327) -/

/-- The stations of a frieze with a tag. -/
def Frieze.tagged (f : Frieze) (tag : Word) : Frieze :=
  { f with stations := f.stations.map fun x => { x with markTag := tag } }

theorem tagged_station {s : State} {id : Nat} {f : Frieze} (hf : s.friezes.find id = some f) (tag : Word) (j : Nat) :
    (s.updFz id (·.tagged tag)).station? id j = (s.station? id j).map fun x => { x with markTag := tag } := by
  rw [State.station_eq (State.updFz_find hf _), State.station_eq hf, Frieze.tagged, List.getElem?_map]

/-- The effect of MARK: its markers at the in-ports, its tag at every station of its frieze. -/
def markEffect (c : Ctx) (k : Nat) (tag : Word) (s : State) : State :=
  (injectAll s c.tile k (.mark tag)).updFz c.id (·.tagged tag)

theorem markEffect_station {c : Ctx} {s : State} {x : Station} (hx : s.station? c.id c.st = some x) (k : Nat) (tag : Word) :
    ∃ e, (markEffect c k tag s).station? c.id c.st = some { x with markTag := tag, e := e } := by
  obtain ⟨e, he⟩ := (injectAll_uncounted s c.tile k (.mark tag)).uncounted hx
  obtain ⟨f, hf, -⟩ := Option.bind_eq_some_iff.1 he
  exact ⟨e, by rw [markEffect, tagged_station hf, he, Option.map_some]⟩

/-- Every station of the frieze has the tag once the MARK has completed. -/
theorem markEffect_completed {c : Ctx} {i : Instr} {s : State} {x : Station} (ha : i.asksHead = false) (hx : s.station? c.id c.st = some x)
    (k : Nat) (tag : Word) (now : Bool) :
    ∃ g, (completeWord c i (markEffect c k tag s) now).friezes.find c.id = some g ∧ ∀ y ∈ g.stations, y.markTag = tag := by
  obtain ⟨e, he⟩ := (injectAll_uncounted s c.tile k (.mark tag)).uncounted hx
  obtain ⟨f, hf, -⟩ := Option.bind_eq_some_iff.1 he
  obtain ⟨g, hg, -⟩ := completeWord_find (s := markEffect c k tag s) (now := now) ha (State.updFz_find hf (·.tagged tag))
  refine ⟨g, hg, fun y hy => ?_⟩
  obtain ⟨j, hj⟩ := List.mem_iff_getElem?.1 hy
  have hkeep := (completeWord_markTag ha c (markEffect c k tag s) now).station c.id j
  rw [State.station_eq hg, hj, markEffect, tagged_station hf, Option.map_map, Option.map_some] at hkeep
  obtain ⟨_, -, hz⟩ := Option.map_eq_some_iff.1 hkeep.symm
  exact hz.symm

theorem markEffect_marks {c : Ctx} {s s' t : State} {k : Nat} {tag : Word} (hq : Quiet s s') (hp : Apart (markEffect c k tag s') t) :
    Slice0.Marks s t c.tile (fun p => Slice0.activeReads (s.tile c.tile) k p (fun _ => True) fun _ => True) (.ctrl 2 tag) :=
  marks_between hq ((Quiet.updFz ..).apart.trans hp) (injectAll_marks s' c.tile k (.mark tag))

end Sys2Proof.Machine

namespace Sys2Proof.Slice0
open Machine

/-- Settles O29: SMPON sets its frieze's flag, CNTRD reads what its number names before it clears it, and MARK injects its marker at the
in-ports that what is active reads. -/
theorem monitorWords : Obligations.MonitorWords := by
  unfold Obligations.MonitorWords
  intro i r s c hr hi hp
  obtain ⟨e, hst⟩ := hi.before
  obtain ⟨l, hf⟩ := beforeEffect_find c i s hi.find
  have hq := Quiet.beforeEffect c i s
  unfold monitorRow at hr
  split at hr <;> cases hr
  case h_1 h =>
    have hex : execSmpon h s = _ := hi.done (q := smpEffect c _) (now := true) rfl
    obtain ⟨f, hf', hhead, hother⟩ := smpEffect_find hf
    obtain ⟨g, hg, -, -, hsame⟩ := completeWord_find (i := .smpon h) (now := true) rfl hf'
    rw [← hsame] at hhead hother
    exact ⟨_, hex, completeWord_stands rfl ((smpEffect_station ..).trans hst), g, hg, hhead, hother⟩
  case h_2 h d a num clr =>
    have hex : execCntrd h d a num clr s = _ :=
      hi.done (q := cntEffect c d (cntValue _ c (cntNumber c a num).toNat) clr (cntNumber c a num) _) (now := true) rfl
    obtain ⟨e', hst'⟩ := cntEffect_station hst d (cntValue (beforeEffect c (.cntrd h d a num clr) s) c (cntNumber c a num).toNat) clr
      (cntNumber c a num)
    refine ⟨_, hex, _, cntValue_is hi fun _ _ => rfl, cntValue_none _ c, completeWord_stands rfl hst', fun j hj => ?_⟩
    rw [(Quiet.completeWord ..).col, cntEffect_status _ _ _ _ _ _ hj, hq.col]
  case h_3 h m g =>
    obtain ⟨howner, hactive⟩ := hp
    have htag : (c.g g).setWidth 32 = (c.g g).extractLsb' 0 32 := BitVec.setWidth_eq_extractLsb' (by decide)
    have hex : execMark h m g s = _ :=
      hi.done (q := markEffect c m.toNat ((c.g g).extractLsb' 0 32) _) (now := true) (by
        dsimp only
        rw [hq.ctx, howner, hactive, htag]
        simp only [bne_self_eq_false, Bool.false_eq_true, if_false, ne_eq, not_true_eq_false]
        rfl)
    obtain ⟨e', hst'⟩ := markEffect_station hst m.toNat ((c.g g).extractLsb' 0 32)
    exact ⟨_, hex, completeWord_stands rfl hst', markEffect_marks hq (Quiet.completeWord ..).apart, markEffect_completed rfl hst _ _ true⟩

end Sys2Proof.Slice0
end

section
/-! SUPPORT. The end of a maquette load (R48, R76, R101, R164). -/

namespace Sys2Proof.Machine

/-- A context at which no load is at work stays as it is. -/
structure SameCtx (s t : State) : Prop where
  ctx : ∀ u k, ((s.tile u).ctx k).load = none → (t.tile u).ctx k = (s.tile u).ctx k

theorem SameCtx.trans {s t r : State} (a : SameCtx s t) (b : SameCtx t r) : SameCtx s r :=
  ⟨fun u k h => (b.ctx u k (by rw [a.ctx u k h, h])).trans (a.ctx u k h)⟩

theorem Quiet.sameCtx {s t : State} (q : Quiet s t) : SameCtx s t := by
  refine ⟨fun u k _ => ?_⟩
  obtain ⟨e, he⟩ := q.tiles u
  rw [he]
  rfl

/-- What waits for a retired access at a tile no longer does: only a load at work can change. -/
theorem Tile.ctx_mapLoad (x : Tile) (g : Load → Load) {k : Nat} (h : (x.ctx k).load = none) :
    Tile.ctx { x with ctxs := x.ctxs.map fun c => { c with load := c.load.map g } } k = x.ctx k := by
  unfold Tile.ctx at h ⊢
  dsimp only
  rw [Vector.toList_map, List.getElem?_map]
  cases hc : x.ctxs.toList[k]? with
  | none => rfl
  | some c =>
    rw [hc, Option.getD_some] at h
    rw [Option.map_some, Option.getD_some, Option.getD_some, h, Option.map_none, ← h]

theorem SameCtx.mapTiles {s : State} {g : Nat × Tile → Nat × Tile} {reqs : Tab Req} (hkey : ∀ p, (g p).1 = p.1)
    (hctx : ∀ p k, (p.2.ctx k).load = none → (g p).2.ctx k = p.2.ctx k) : SameCtx s { s with reqs := reqs, tiles := s.tiles.map g } := by
  refine ⟨fun u k h => ?_⟩
  unfold State.tile at h ⊢
  dsimp only
  rw [Tab.find_map hkey]
  cases ht : s.tiles.find u with
  | none => rfl
  | some x =>
    rw [ht, Option.getD_some] at h
    exact hctx (u, x) k h

theorem SameCtx.retire (s : State) (id u : Nat) : SameCtx s (s.retire id u) := by
  unfold State.retire
  split
  · exact (Quiet.refl s).sameCtx
  next f _ =>
    exact (Quiet.foldl (fun s st => Quiet.retireAt s id u st) (List.range f.len) s).sameCtx.trans
      (SameCtx.mapTiles (fun _ => rfl) fun p k h => p.2.ctx_mapLoad _ h)

theorem Quiet.sigSector (s : State) (id st : Nat) (m : BitVec 2) (k : BitVec 6) (n : Nat) : Quiet s (s.sigSector id st m k n) := by
  unfold State.sigSector
  split
  · exact Quiet.addCount ..
  · exact Quiet.refl s

theorem Stands.sigDone (s : State) (id st : Nat) (m : BitVec 2) (k : BitVec 6) : Stands s (s.sigDone id st m k) := by
  unfold State.sigDone
  split
  · exact Stands.addCount ..
  · exact Stands.refl s

theorem Stands.sigSector (s : State) (id st : Nat) (m : BitVec 2) (k : BitVec 6) (n : Nat) : Stands s (s.sigSector id st m k n) := by
  unfold State.sigSector
  split
  · exact Stands.addCount ..
  · exact Stands.refl s

theorem endLoad_sameCtx (s : State) (l : Load) (n : Nat) : SameCtx s (endLoad s l n) :=
  ((Quiet.sigDone ..).trans (Quiet.sigSector ..)).sameCtx.trans (SameCtx.retire ..)

theorem endLoad_stands (s : State) (l : Load) (n : Nat) : Stands s (endLoad s l n) :=
  ((Stands.sigDone ..).trans (Stands.sigSector ..)).trans (Stands.retire ..)

theorem Tile.ctx_updCtx (x : Tile) {k : Nat} (hk : k < 4) (g : MaqCtx → MaqCtx) : (x.updCtx k g).ctx k = g (x.ctx k) := by
  simp [Tile.updCtx, Tile.ctx, hk]

theorem Tile.ctx_setIn (x : Tile) (p : Nat) (v : InPort) (k : Nat) : (x.setIn p v).ctx k = x.ctx k := by
  unfold Tile.setIn
  split <;> rfl

theorem Tile.ctx_foldl {α : Type} {g : Tile → α → Tile} {k : Nat} (hg : ∀ x a, (g x a).ctx k = x.ctx k) (l : List α) (x : Tile) :
    (l.foldl g x).ctx k = x.ctx k := by
  induction l generalizing x with
  | nil => rfl
  | cons a l ih => rw [List.foldl_cons, ih, hg]

/-- The context of a maquette that has passed every check (R76, R101). -/
theorem Tile.loaded_ctx (x : Tile) {k : Nat} (hk : k < 4) (id : Nat) (m : Maq) :
    (x.loaded k id m).ctx k = { MaqCtx.reset with
      state := .loaded
      owner := (x.ctx k).owner
      maq := m } := by
  refine Eq.trans ?_ (x.ctx_updCtx hk fun c => { MaqCtx.reset with
    state := .loaded
    owner := c.owner
    maq := m })
  exact Tile.ctx_foldl (fun y p => y.ctx_setIn p _ k) _ _

section
variable {s : State} {tile ctx : Nat} {l : Load} {f : Frieze} {w : Dword}

/-- A load that passes every check (R164). -/
theorem maqldComplete_loaded {nreg nword mask : Nat} {ws : List Dword} {m : Maq} (h : Slice0.Loads s tile ctx l f w)
    (hhead : mqHeader w l.avail.toNat = some (nreg, nword, mask))
    (hws : loadWords s f.job tile l.form (formAddr l.form + 8) 1 (nword - 1) = .ok ws) (hm : buildMaq nreg mask (w :: ws) = some m)
    (hon : m.onDie tile = true) (hfree : (s.tile tile).conflicts l.fz m = false) :
    exec (.maqldComplete tile ctx) s =
      .next (endLoad (s.updTile tile fun x => x.loaded ctx l.fz m) l (sectorsOf (formAddr l.form) nword)) := by
  obtain ⟨-, hl, hwaits, hturn, hf, hw⟩ := h
  show execMaqldComplete tile ctx s = _
  simp only [execMaqldComplete, hl, hwaits, hturn, hf, List.isEmpty_nil, Bool.not_true, Bool.or_false, Bool.false_eq_true, if_false,
    Option.map_some, Option.getD_some, hw, hhead, hws, hm, hon, hfree]

/-- A load whose header R48 does not allow. -/
theorem maqldComplete_badHeader (h : Slice0.Loads s tile ctx l f w) (hhead : mqHeader w l.avail.toNat = none) :
    exec (.maqldComplete tile ctx) s = .next (failLoad s tile ctx l 1 false ⟨causeMaquette, false⟩ 0) := by
  obtain ⟨-, hl, hwaits, hturn, hf, hw⟩ := h
  show execMaqldComplete tile ctx s = _
  simp only [execMaqldComplete, hl, hwaits, hturn, hf, List.isEmpty_nil, Bool.not_true, Bool.or_false, Bool.false_eq_true, if_false,
    Option.map_some, Option.getD_some, hw, hhead]

/-- A load that fails for what stands in its words leaves the context as after reset (R101). -/
theorem failLoad_ctx (s : State) (tile : Nat) {ctx : Nat} (hk : ctx < 4) (l : Load) (n : Nat) (cause : Cause) (d0 : Dword) :
    ((failLoad s tile ctx l n false ⟨cause, false⟩ d0).tile tile).ctx ctx = MaqCtx.reset := by
  have hreset : ((s.updTile tile fun x => x.updCtx ctx fun _ => MaqCtx.reset).tile tile).ctx ctx = MaqCtx.reset := by
    rw [State.tile_updTile_self, Tile.ctx_updCtx _ hk]
  have hkeep : SameCtx _ (failLoad s tile ctx l n false ⟨cause, false⟩ d0) :=
    (endLoad_sameCtx (s.updTile tile fun x => x.updCtx ctx fun _ => MaqCtx.reset) l n).trans
      ((Quiet.updSt _ l.fz l.st fun x => { x with faults := x.faults ++ [⟨none, cause, (endLoad _ l n).serial, d0, 0, 0⟩] }).sameCtx.trans
        ⟨fun _ _ _ => rfl⟩)
  rw [hkeep.ctx tile ctx (by rw [hreset]; rfl), hreset]

/-- … and its fault pending at the station (R171, R196). -/
theorem failLoad_station {x : Station} (hx : s.station? l.fz l.st = some x) (tile ctx n : Nat) (cause : Cause) (d0 : Dword) :
    ∃ y, (failLoad s tile ctx l n false ⟨cause, false⟩ d0).station? l.fz l.st = some y ∧ ∃ p ∈ y.faults, p.cause = cause := by
  obtain ⟨y, hy, -, -⟩ := (endLoad_stands (s.updTile tile fun x => x.updCtx ctx fun _ => MaqCtx.reset) l n).station hx
  exact ⟨_, State.updSt_station hy fun x => { x with faults := x.faults ++ [⟨none, cause, (endLoad _ l n).serial, d0, 0, 0⟩] },
    _, List.mem_append_right _ (List.mem_singleton_self _), rfl⟩

end

end Sys2Proof.Machine

namespace Sys2Proof.Slice0
open Machine

/-- Settles O45: neither the load's signals nor its retirement touch a context that no load is at work at. -/
theorem loadCompletes : Obligations.LoadCompletes := by
  unfold Obligations.LoadCompletes
  refine ⟨fun tile ctx nreg nword mask l f w ws m s hl hhead hws hm hon hfree => ?_, fun tile ctx l f x w s hl hx hhead => ?_⟩
  · have hctx := (s.tile tile).loaded_ctx hl.small l.fz m
    rw [← State.tile_updTile_self s tile fun x => x.loaded ctx l.fz m] at hctx
    have hend := ((endLoad_sameCtx _ l (sectorsOf (formAddr l.form) nword)).ctx tile ctx (by rw [hctx]; rfl)).trans hctx
    refine ⟨_, maqldComplete_loaded hl hhead hws hm hon hfree, ?_⟩
    rw [hend]
    exact ⟨rfl, rfl, rfl, rfl, rfl⟩
  · obtain ⟨y, hy, hfault⟩ := failLoad_station (l := l) ((State.station_eq hl.fz).trans hx) tile ctx 1 causeMaquette 0
    exact ⟨_, y, maqldComplete_badHeader hl hhead, by rw [failLoad_ctx s tile hl.small]; rfl, hy, hfault⟩

end Sys2Proof.Slice0
end

section
/-! SUPPORT. Fetching and decoding at the head (R41, R43, R44, R314). -/

namespace Sys2Proof.Machine

theorem Heads.heading {f : Frieze} (h : Slice0.Heads f) : f.heading = true := by
  simp [Frieze.heading, h.on, h.go, h.vote]

/-- The head takes the next word of its path where nothing stands against it (R43, R314). -/
theorem codeFetch_takes {s : State} {id : Nat} {f : Frieze} {p : Place} (hf : s.friezes.find id = some f) (hh : Slice0.Heads f)
    (hroom : f.fetched.length < 8)
    (hp : elementCheck s f.job f.head (mkForm spGlobal (8 * f.fetchIndex.toNat)) (8 * f.fetchIndex.toNat : Nat) 8 .fetch = .ok p)
    (hup : s.placeUp p = true) (hbad : s.badAt p 8 = false) :
    exec (.codeFetch id) s = .next (s.updFz id fun f => { f with
      fetched := f.fetched ++ [(f.fetchIndex, bvOf 64 (s.bytesAt p 8))]
      fetchIndex := f.fetchIndex + 1 }) := by
  show execCodeFetch id s = _
  have hfull : ¬fetchRoom ≤ f.fetched.length := Nat.not_le.2 hroom
  simp only [execCodeFetch, hf, Heads.heading hh, hfull, hp, hup, hbad, Bool.not_true, decide_false, Bool.or_self, Bool.false_eq_true,
    if_false]

/-! ### What decoding makes of a word (R43, R44) -/

section
variable {job : Nat} {w : Dword} {i : Instr} {bs : List Byte}

theorem decodeCause_forwarded (hd : decodeBytes (bytesOf w) = .ok (i, bs)) (hwf : i.wf = true) (hp : i.privileged = true → job = 0) :
    decodeCause job w = none := by
  have hallowed : (i.privileged && job != 0) = false := by
    cases hpr : i.privileged
    · rfl
    · simp [hp hpr]
  simp [decodeCause, hd, hwf, hallowed]

theorem decodeCause_illegal (h : ∀ i bs, decodeBytes (bytesOf w) = .ok (i, bs) → i.wf = false) :
    decodeCause job w = some causeIllegal := by
  unfold decodeCause
  split
  · rfl
  next i bs hd => rw [h i bs hd]; rfl

theorem decodeCause_privileged (hd : decodeBytes (bytesOf w) = .ok (i, bs)) (hwf : i.wf = true) (hp : i.privileged = true) (hjob : job ≠ 0) :
    decodeCause job w = some causePrivileged := by
  simp [decodeCause, hd, hwf, hp, hjob]

end

section
variable {s : State} {id : Nat} {f : Frieze} {x : Station} {w : Dword} {n : BitVec 52} {rest : List (BitVec 52 × Dword)}

section
variable (ha : Slice0.At s id 0 f x) (hh : Slice0.Heads f) (hw : f.fetched = (n, w) :: rest) (hd : f.decoded = false)
  (hx : x.faults = [])
include ha hh hw hd hx

theorem decodeWord_forwards (hc : decodeCause f.job w = none) :
    exec (.decodeWord id) s = .next (s.updFz id fun f => { f with decoded := true }) := by
  have hclear : f.headClear = true := by simp [Frieze.headClear, ha.st, hx]
  show execDecodeWord id s = _
  simp only [execDecodeWord, ha.fz, hw, Heads.heading hh, hd, hclear, hc, Bool.not_true, Bool.or_self, Bool.false_eq_true, if_false]

theorem decodeWord_traps {cause : Cause} (hc : decodeCause f.job w = some cause) :
    exec (.decodeWord id) s = .next (s.raise id 0 cause none 0 0 0).deselect := by
  have hclear : f.headClear = true := by simp [Frieze.headClear, ha.st, hx]
  show execDecodeWord id s = _
  simp only [execDecodeWord, ha.fz, hw, Heads.heading hh, hd, hclear, hc, Bool.not_true, Bool.or_self, Bool.false_eq_true, if_false]

end

/-- An exception taken where none was pending stands as the frieze's trap (R393, R394). -/
theorem raise_trapped {st : Nat} (ha : Slice0.At s id st f x) (hstop : f.stop ≠ .freeze) (htrap : f.trap = none) (cause : Cause)
    (slot : Option Nat) (d0 d1 d2 : Dword) :
    Slice0.Trapped (s.raise id st cause slot d0 d1 d2).deselect id st x ⟨cause, slot, st, x.pos, d0, d1, d2⟩ := by
  obtain ⟨hs, ht⟩ := f.raised_of_ne_freeze st cause slot d0 d1 d2 ha.st hstop
  refine ⟨f.raised st cause slot d0 d1 d2, State.updFz_find ha.fz _, hs, by rw [ht, htrap]; rfl, ?_⟩
  rw [Frieze.raised_stations, Frieze.updSt_get ha.st]
  rfl

end

end Sys2Proof.Machine

namespace Sys2Proof.Slice0
open Machine

/-- Settles O34: CODE_FETCH by its branch that takes the word, DECODE by what decoding makes of the oldest word. -/
theorem fetchAndDecode : Obligations.FetchAndDecode := by
  unfold Obligations.FetchAndDecode
  refine ⟨fun id f p s hf hh hroom hp hup hbad => ⟨_, codeFetch_takes hf hh hroom hp hup hbad, State.updFz_find hf _⟩,
    fun id f x w n rest s ha hh htrap hw hd hx => ?_⟩
  have hgo : f.stop ≠ .freeze := by simp [hh.go]
  cases hc : decodeCause f.job w with
  | none =>
    refine ⟨_, decodeWord_forwards ha hh hw hd hx hc, fun _ _ _ _ _ => State.updFz_find ha.fz _, fun hbad => ?_,
      fun i bs hdec hwf hpriv hjob => ?_⟩
    · cases (decodeCause_illegal hbad).symm.trans hc
    · cases (decodeCause_privileged hdec hwf hpriv hjob).symm.trans hc
  | some cause =>
    refine ⟨_, decodeWord_traps ha hh hw hd hx hc, fun i bs hdec hwf hpriv => ?_, fun hbad => ?_, fun i bs hdec hwf hpriv hjob => ?_⟩
    · cases (decodeCause_forwarded hdec hwf hpriv).symm.trans hc
    · cases (decodeCause_illegal hbad).symm.trans hc
      exact raise_trapped ha hgo htrap ..
    · cases (decodeCause_privileged hdec hwf hpriv hjob).symm.trans hc
      exact raise_trapped ha hgo htrap ..

end Sys2Proof.Slice0
end

section
/-! SUPPORT. The module right after reset, read queue by queue, engine by engine and tile by tile. -/

namespace Sys2Proof.Machine

@[simp] theorem State.tile_reset (u : Nat) : State.reset.tile u = Tile.reset := rfl

theorem State.queue_reset (n : Nat) : State.reset.queue n = Queue.reset := rfl

theorem State.engine_reset {die : Nat} (hd : die < 4) : State.reset.engine die = Engine.reset := by
  simp [State.engine, State.reset, hd]

@[simp] theorem Tile.ctr_reset (k : Nat) : Tile.reset.ctr k = 0 := by
  unfold Tile.ctr
  split
  · exact Vector.getElem_replicate ..
  · rfl

@[simp] theorem Tile.outPort_reset (p : Nat) : Tile.reset.outPort p = [] := by
  unfold Tile.outPort
  split
  · exact Vector.getElem_replicate ..
  · rfl

@[simp] theorem Tile.inPort_reset (p : Nat) : Tile.reset.inPort p = InPort.reset := by
  unfold Tile.inPort
  split
  · exact Vector.getElem_replicate ..
  · rfl

@[simp] theorem Tile.ctx_reset (k : Nat) : Tile.reset.ctx k = MaqCtx.reset := by
  rw [Tile.ctx, Tile.reset, Vector.toList_replicate, List.getElem?_replicate]
  split <;> rfl

theorem State.reset_memWf : State.reset.MemWf where
  hbm := Memory.empty_wf
  sram := Memory.empty_wf
  staged := Memory.empty_wf
  tiles := nofun
  saves := nofun

end Sys2Proof.Machine

namespace Sys2Proof.Slice0
open Machine

/-- Settles O57: every table of the reset state is empty, so that each tile, queue and engine reads as its own reset value. -/
theorem resetValues : Obligations.ResetValues := by
  unfold Obligations.ResetValues
  refine ⟨rfl, rfl, rfl, rfl, rfl, rfl, rfl, rfl, rfl, rfl, rfl, State.reset_memWf, fun n => ?_, fun die hd => ?_, fun u k => ?_⟩
  · rw [State.queue_reset]
    exact ⟨rfl, rfl⟩
  · rw [State.engine_reset hd]
    exact ⟨rfl, rfl⟩
  · rw [State.tile_reset, Tile.ctr_reset, Tile.outPort_reset, Tile.inPort_reset]
    exact ⟨rfl, rfl, fun _ => ⟨rfl, rfl⟩, fun _ => by rw [Tile.ctx_reset]; rfl⟩

end Sys2Proof.Slice0
end

section
/-! SUPPORT. What a change of ports leaves of in-ports and out-ports, and the beats that enter and leave them (R71, R77, R89, R358, R361). -/

namespace Sys2Proof.Machine

/-! ### Out-ports -/

theorem Quiet.outPort {s t : State} (q : Quiet s t) (u p : Nat) : (t.tile u).outPort p = (s.tile u).outPort p := by
  obtain ⟨e, he⟩ := q.tiles u
  rw [he]
  rfl

theorem State.updPorts_outPort (s : State) (t : Nat) (g : Tile → Tile) (u p : Nat) :
    ((s.updPorts t g).tile u).outPort p = ((s.updTile t g).tile u).outPort p := (State.portLevels_quiet ..).outPort u p

@[simp] theorem Tile.outPort_setIn (x : Tile) (j : Nat) (v : InPort) (p : Nat) : (x.setIn j v).outPort p = x.outPort p := by
  unfold Tile.setIn
  split <;> rfl

@[simp] theorem Tile.inPort_setOut (x : Tile) (j : Nat) (v : List Beat) (p : Nat) : (x.setOut j v).inPort p = x.inPort p := by
  unfold Tile.setOut
  split <;> rfl

theorem Tile.outPort_setOut_self (x : Tile) {p : Nat} (hp : p < 32) (v : List Beat) : (x.setOut p v).outPort p = v := by
  simp [Tile.setOut, Tile.outPort, hp]

/-- A head popped leaves the rest of its out-port, and every in-port as it was. -/
theorem State.popOut_outPort (s : State) (t : Nat) {o : Nat} (ho : o < 32) :
    ((s.popOut t o).tile t).outPort o = ((s.tile t).outPort o).tail := by
  rw [State.popOut, State.updPorts_outPort, State.tile_updTile_self, Tile.outPort_setOut_self _ ho]

theorem State.popOut_inPort (s : State) (t o u p : Nat) : ((s.popOut t o).tile u).inPort p = (s.tile u).inPort p := by
  rw [State.popOut, State.updPorts_inPort]
  by_cases hu : u = t
  · rw [hu, State.tile_updTile_self, Tile.inPort_setOut]
  · rw [State.tile_updTile_ne _ _ hu]

/-- A change of in-ports leaves every out-port alone. -/
theorem State.updPorts_setIn_outPort (s : State) (t p : Nat) (v : Tile → InPort) (u o : Nat) :
    ((s.updPorts t fun x => x.setIn p (v x)).tile u).outPort o = (s.tile u).outPort o := by
  rw [State.updPorts_outPort]
  by_cases hu : u = t
  · rw [hu, State.tile_updTile_self, Tile.outPort_setIn]
  · rw [State.tile_updTile_ne _ _ hu]

theorem State.updPorts_setIn_inPort (s : State) (t : Nat) {p : Nat} (hp : p < 32) (v : Tile → InPort) :
    ((s.updPorts t fun x => x.setIn p (v x)).tile t).inPort p = v (s.tile t) := by
  rw [State.updPorts_inPort, State.tile_updTile_self, Tile.inPort_setIn _ _ _ hp, if_pos rfl]

theorem State.updPorts_rest (s : State) (t : Nat) (g : Tile → Tile) :
    s.updPorts t g = { s with friezes := (s.updPorts t g).friezes, tiles := (s.updPorts t g).tiles, cur := (s.updPorts t g).cur } :=
  (State.portLevels_quiet s (s.updTile t g) t).rest

theorem State.popOut_out (s : State) (t o : Nat) : (s.popOut t o).out = s.out := by
  rw [State.popOut, State.updPorts_rest]

/-! ### Routes (R354, R358) -/

theorem isData_iff (k : BitVec 2) : isData k = true ↔ k = 0 ∨ k = 1 := by
  simp [isData, kindData, kindEos]

theorem ringPath_self (n x : Nat) : (ringPath n x x).1 = [] := by
  simp [ringPath, ringDir]

/-- No torus link leads from a module to itself. -/
theorem torusPath_self (size : Nat × Nat × Nat) (m : Nat) : torusPath size m m = [] := by
  simp [torusPath, ringPath_self]

theorem Route.further_here {s : State} {r : Route} (h : r.module = s.moduleId.toNat) : r.further s = false := by
  simp [Route.further, h, torusPath_self]

section
variable {s : State} {tile o : Nat} {r : Route} {b : Beat} {rest : List Beat}

theorem Sends.index (h : Slice0.Sends s tile o r b rest) : (32 * tile + o) / 32 = tile ∧ (32 * tile + o) % 32 = o := by
  have := h.port
  omega

theorem Sends.isLive (h : Slice0.Sends s tile o r b rest) : r.live s = true := by
  rw [Route.live, Bool.and_eq_true, List.all_eq_true, Bool.or_eq_true]
  refine ⟨h.ports, h.live.imp_right ?_⟩
  rintro ⟨f, hf, hstate, hdrain⟩
  simp [hf, hstate, hdrain]

/-- What open values have been taken does not keep a route from sending. -/
theorem Sends.withFree (h : Slice0.Sends s tile o r b rest) (n : Nat) : Slice0.Sends { s with free := n } tile o r b rest :=
  ⟨h.port, h.route, h.single, h.ports, h.live, h.untaken, h.head⟩

/-- The head beat of a route that sends goes where the route leads. -/
theorem routeBeat_sends (h : Slice0.Sends s tile o r b rest) :
    routeBeat s (32 * tile + o) r =
      if r.module == s.moduleId.toNat then nearBeat s (32 * tile + o) r b else farBeat s (32 * tile + o) r b := by
  obtain ⟨htile, hport⟩ := Sends.index h
  simp only [routeBeat, htile, hport, h.head, h.untaken, Sends.isLive h, h.single, Bool.not_true, Option.isSome_none, Bool.or_self,
    Bool.false_or, Bool.false_eq_true, if_false]

/-- A beat of a route to an in-port of this module leaves for it (R358). -/
theorem nearBeat_moves (h : Slice0.Sends s tile o r b rest) (hm : r.module = s.moduleId.toNat) (hp : r.port < 32)
    (hfree : ((s.tile r.tile).inPort r.port).free ≠ 0) :
    let t := nearBeat s (32 * tile + o) r b
    (t.tile tile).outPort o = rest ∧
      (t.tile r.tile).inPort r.port = { (s.tile r.tile).inPort r.port with
        promised := ((s.tile r.tile).inPort r.port).promised + 1
        flight := ((s.tile r.tile).inPort r.port).flight ++ [b.raw] } := by
  obtain ⟨htile, hport⟩ := Sends.index h
  have hd : r.dests s r.job = [(r.tile, r.port)] := by simp [Route.dests, h.single, hm]
  simp only [nearBeat, hd, htile, hport, List.isEmpty_cons, List.any_cons, List.any_nil, hfree, decide_false, Bool.or_self,
    Bool.false_eq_true, if_false, List.foldl_cons, List.foldl_nil]
  constructor
  · rw [State.updPorts_setIn_outPort]
    exact (State.popOut_outPort s tile h.port).trans (by rw [h.head]; rfl)
  · rw [State.updPorts_setIn_inPort _ _ hp]
    have hin : ∀ rs, (State.tile { s.popOut tile o with routes := rs } r.tile).inPort r.port = (s.tile r.tile).inPort r.port :=
      fun _ => State.popOut_inPort ..
    rw [hin]

/-- A beat of a route to another module leaves where the credit of its in-port is there (log entry 77). -/
theorem farBeat_moves (h : Slice0.Sends s tile o r b rest) :
    let t := farBeat s (32 * tile + o) r b
    (Config.freeBit s.free = true → (t.tile tile).outPort o = rest ∧ t.out = s.out ++ [.beat r.module r.tile r.port b.raw]) ∧
      (Config.freeBit s.free = false → (t.tile tile).outPort o = b :: rest ∧ t.out = s.out) := by
  obtain ⟨htile, hport⟩ := Sends.index h
  simp only [farBeat, State.takeBit, htile, hport]
  constructor <;> intro hbit <;> rw [hbit]
  · exact ⟨(State.popOut_outPort { s with free := s.free + 1 } tile h.port).trans (congrArg List.tail h.head),
      congrArg (· ++ [Out.beat r.module r.tile r.port b.raw]) (State.popOut_out ..)⟩
  · exact ⟨h.head, rfl⟩

end

/-- The loss of a link ends a route of a frieze, with the fault at its station (R361). -/
theorem endRoute_faults {s : State} {r : Route} {x : Station} (hr : r.host = false) (hx : s.station? r.fz r.st = some x) (k : Nat) :
    (endRoute s k r).routes = s.routes.del k ∧ ∃ y, (endRoute s k r).station? r.fz r.st = some y ∧
      ∃ p ∈ y.faults, p.cause = 0x0D ∧ p.d0 = BitVec.ofNat 64 (k % 32) := by
  rw [endRoute, hr]
  refine ⟨?_, _, State.updSt_station (s := { s with routes := s.routes.del k }) hx
    fun x => { x with faults := x.faults ++ [⟨none, causeFabric, s.serial, BitVec.ofNat 64 (k % 32), 0, 0⟩] }, _,
    List.mem_append_right _ (List.mem_singleton_self _), rfl, rfl⟩
  exact congrArg State.routes (State.updSt_only { s with routes := s.routes.del k } r.fz r.st _)

end Sys2Proof.Machine

namespace Sys2Proof.Slice0
open Machine

/-- Settles O41: an arrival enters its in-port as any beat does, and a route that sends moves its head to the one in-port it serves, or
hands it out; the further links it may lose lead to other modules alone. -/
theorem beatsMove : Obligations.BeatsMove := by
  unfold Obligations.BeatsMove
  refine ⟨fun tile port w rest s hp hw => ?_, fun tile o r b rest s h hm hport hfree => ?_, fun tile o r b rest s h hm hlost => ?_,
    fun tile o r x s ho hr hfar hhost hx => ?_⟩
  · have hex : exec (.inportBeatArrival tile port) s = .next (s.updPorts tile fun x => x.setIn port
        (({ x.inPort port with flight := rest, promised := (x.inPort port).promised - 1 } : InPort).enter port w)) := by
      show execInportBeatArrival tile port s = _
      simp only [execInportBeatArrival, hw]
    refine ⟨_, hex, ?_⟩
    rw [State.updPorts_setIn_inPort _ _ hp]
    simp only [InPort.enter, isData_iff]
  · have hex : exec (.routeBeat tile o) s = .next (nearBeat s (32 * tile + o) r b) := by
      show execRouteBeat tile o s = _
      simp only [execRouteBeat, h.route, Route.further_here hm, Bool.false_eq_true, if_false, routeBeat_sends h, hm, beq_self_eq_true,
        if_true]
    obtain ⟨hout, hin⟩ := nearBeat_moves h hm hport hfree
    exact ⟨_, hex, hout, by rw [hin], by rw [hin]⟩
  · intro n
    have hbeat (n : Nat) : routeBeat { s with free := n } (32 * tile + o) r = farBeat { s with free := n } (32 * tile + o) r b :=
      (routeBeat_sends (Sends.withFree h n)).trans (if_neg (by simpa using hm))
    have hex : exec (.routeBeat tile o) s = .next (farBeat { s with free := n } (32 * tile + o) r b) := by
      rw [← hbeat]
      show execRouteBeat tile o s = _
      cases hf : r.further s with
      | true => simp only [n, execRouteBeat, h.route, hf, hlost hf, State.takeBit, if_true, Bool.false_eq_true, if_false]
      | false => simp only [n, execRouteBeat, h.route, hf, Bool.false_eq_true, if_false]
    exact ⟨_, hex, farBeat_moves (Sends.withFree h n)⟩
  · refine ⟨_, rfl, fun hbit => ?_⟩
    obtain ⟨hroutes, hfault⟩ := endRoute_faults (s := { s with free := s.free + 1 }) hhost hx (32 * tile + o)
    rw [show (32 * tile + o) % 32 = o by omega] at hfault
    simp only [hr, hfar, State.takeBit, hbit, if_true]
    exact ⟨hroutes, hfault⟩

end Sys2Proof.Slice0
end

section
/-! SUPPORT. What an operation on tiles leaves of each tile: of the array, of its cells and of its ports. -/

namespace Sys2Proof.Machine

/-! ### What is kept of every tile -/

/-- What π reads of every tile it reads as before. -/
structure KeepsTile {α : Type} (π : Tile → α) (s t : State) : Prop where
  tile : ∀ u, π (t.tile u) = π (s.tile u)

section
variable {α : Type} {π : Tile → α}

theorem KeepsTile.refl (s : State) : KeepsTile π s s := ⟨fun _ => rfl⟩

theorem KeepsTile.trans {s t r : State} (a : KeepsTile π s t) (b : KeepsTile π t r) : KeepsTile π s r :=
  ⟨fun u => (b.tile u).trans (a.tile u)⟩

theorem KeepsTile.foldl {β : Type} {g : State → β → State} (hg : ∀ s b, KeepsTile π s (g s b)) (l : List β) (s : State) :
    KeepsTile π s (l.foldl g s) := by
  induction l generalizing s with
  | nil => exact KeepsTile.refl s
  | cons b l ih => exact (hg s b).trans (ih _)

theorem KeepsTile.updTile (s : State) (t : Nat) {g : Tile → Tile} (hg : ∀ x, π (g x) = π x) : KeepsTile π s (s.updTile t g) := by
  refine ⟨fun u => ?_⟩
  by_cases hu : u = t
  · rw [hu, State.tile_updTile_self, hg]
  · rw [State.tile_updTile_ne _ _ hu]

section
variable (he : ∀ (x : Tile) (e : Vector Word 32), π { x with e := e } = π x)
include he

theorem KeepsTile.of_quiet {s t : State} (q : Quiet s t) : KeepsTile π s t := by
  refine ⟨fun u => ?_⟩
  obtain ⟨e, h⟩ := q.tiles u
  rw [h, he]

theorem KeepsTile.updPorts (s : State) (t : Nat) {g : Tile → Tile} (hg : ∀ x, π (g x) = π x) : KeepsTile π s (s.updPorts t g) :=
  (KeepsTile.updTile s t hg).trans (KeepsTile.of_quiet he (State.portLevels_quiet ..))

end

/-- A tile changed again and again, each time but for what π reads. -/
theorem Tile.foldl_keeps {β : Type} {g : Tile → β → Tile} (hg : ∀ x b, π (g x b) = π x) (l : List β) (x : Tile) :
    π (l.foldl g x) = π x := by
  induction l generalizing x with
  | nil => rfl
  | cons b l ih => rw [List.foldl_cons, ih, hg]

end

theorem Quiet.addSigs (s : State) (sigs : List Sig) : Quiet s (addSigs s sigs) := Quiet.foldl (fun _ _ => Quiet.addCount ..) sigs s

/-! ### In-ports changed one after another -/

theorem Tile.inPort_foldl_setIn (f : Nat → InPort → InPort) {j : Nat} (hj : j < 32) {ps : List Nat} (hnd : ps.Nodup) (x : Tile) :
    (ps.foldl (fun x p => x.setIn p (f p (x.inPort p))) x).inPort j = if j ∈ ps then f j (x.inPort j) else x.inPort j := by
  induction ps generalizing x with
  | nil => simp
  | cons p ps ih =>
    obtain ⟨hp, hnd'⟩ := List.nodup_cons.1 hnd
    rw [List.foldl_cons, ih hnd', Tile.inPort_setIn _ _ _ hj]
    by_cases hpj : p = j
    · subst hpj
      simp [hp]
    · simp [hpj, Ne.symm hpj]

theorem State.inPort_foldl_setIn (f : Nat → InPort → InPort) (t : Nat) {j : Nat} (hj : j < 32) {ps : List Nat} (hnd : ps.Nodup) (s : State) :
    ((ps.foldl (fun s p => s.updPorts t fun x => x.setIn p (f p (x.inPort p))) s).tile t).inPort j =
      if j ∈ ps then f j ((s.tile t).inPort j) else (s.tile t).inPort j := by
  induction ps generalizing s with
  | nil => simp
  | cons p ps ih =>
    obtain ⟨hp, hnd'⟩ := List.nodup_cons.1 hnd
    rw [List.foldl_cons, ih hnd', State.updPorts_inPort, State.tile_updTile_self, Tile.inPort_setIn _ _ _ hj]
    by_cases hpj : p = j
    · subst hpj
      simp [hp]
    · simp [hpj, Ne.symm hpj]

/-! ### What each change of a tile leaves of its ports -/

@[simp] theorem Tile.outPort_updCol (x : Tile) (c : Nat) (g : Col → Col) (p : Nat) : (x.updCol c g).outPort p = x.outPort p := by
  unfold Tile.updCol
  split <;> rfl

@[simp] theorem Tile.outPort_updRun (x : Tile) (f : Nat) (g : SysRun → SysRun) (p : Nat) : (x.updRun f g).outPort p = x.outPort p := by
  unfold Tile.updRun
  split <;> rfl

@[simp] theorem Tile.inPort_updRun (x : Tile) (f : Nat) (g : SysRun → SysRun) (p : Nat) : (x.updRun f g).inPort p = x.inPort p := by
  unfold Tile.updRun
  split <;> rfl

@[simp] theorem Tile.outPort_updCell (x : Tile) (l c : Nat) (g : Cell → Cell) (p : Nat) : (x.updCell l c g).outPort p = x.outPort p := rfl

@[simp] theorem Tile.outPort_isat (x : Tile) (c : Nat) (b : Bool) (p : Nat) : (x.isat c b).outPort p = x.outPort p := by
  unfold Tile.isat
  split
  · exact Tile.outPort_updCol ..
  · rfl

@[simp] theorem Tile.outPort_updCtx (x : Tile) (k : Nat) (g : MaqCtx → MaqCtx) (p : Nat) : (x.updCtx k g).outPort p = x.outPort p := by
  unfold Tile.updCtx
  split <;> rfl

@[simp] theorem Tile.inPort_updCtx (x : Tile) (k : Nat) (g : MaqCtx → MaqCtx) (p : Nat) : (x.updCtx k g).inPort p = x.inPort p := by
  unfold Tile.updCtx
  split <;> rfl

/-- Beats appended to an out-port stand behind those it held. -/
theorem State.pushOut_outPort (s : State) (t : Nat) {o : Nat} (ho : o < 32) (bs : List Beat) :
    ((s.pushOut t o bs).tile t).outPort o = (s.tile t).outPort o ++ bs := by
  rw [State.pushOut, State.updPorts_outPort, State.tile_updTile_self, Tile.outPort_setOut_self _ ho]

theorem State.pushOut_inPort (s : State) (t o : Nat) (bs : List Beat) (p : Nat) :
    KeepsTile (·.inPort p) s (s.pushOut t o bs) := KeepsTile.updPorts (fun _ _ => rfl) s t fun _ => Tile.inPort_setOut ..

end Sys2Proof.Machine
end

section
/-! SUPPORT. Steps, accumulator operations, emissions and markers of systolic regions (R79–R81, R109, R110, R152–R159). -/

namespace Sys2Proof.Machine

/-! ### Cells and accumulators -/

theorem Tile.setAcc_acc {x y : Tile} (h : x.acc = y.acc) (l c k : Nat) (v : Word × Bool) : (x.setAcc l c k v).acc = (y.setAcc l c k v).acc := by
  rw [Tile.setAcc, Tile.setAcc, h]

@[simp] theorem Tile.acc_updCell (x : Tile) (l c : Nat) (g : Cell → Cell) : (x.updCell l c g).acc = x.acc := rfl

@[simp] theorem Tile.acc_isat (x : Tile) (c : Nat) (b : Bool) : (x.isat c b).acc = x.acc := by
  unfold Tile.isat Tile.updCol
  split
  · split <;> rfl
  · rfl

@[simp] theorem Tile.acc_setIn (x : Tile) (p : Nat) (v : InPort) : (x.setIn p v).acc = x.acc := by
  unfold Tile.setIn
  split <;> rfl

@[simp] theorem Tile.acc_updRun (x : Tile) (f : Nat) (g : SysRun → SysRun) : (x.updRun f g).acc = x.acc := by
  unfold Tile.updRun
  split <;> rfl

@[simp] theorem Tile.cells_setIn (x : Tile) (p : Nat) (v : InPort) : (x.setIn p v).cells = x.cells := by
  unfold Tile.setIn
  split <;> rfl

@[simp] theorem Tile.cells_updRun (x : Tile) (f : Nat) (g : SysRun → SysRun) : (x.updRun f g).cells = x.cells := by
  unfold Tile.updRun
  split <;> rfl

theorem Tile.cell_of_cells {x y : Tile} (h : x.cells = y.cells) (l c : Nat) : x.cell l c = y.cell l c := by
  rw [Tile.cell, Tile.cell, h]

/-- A cell changed reads as changed while it holds anything. -/
theorem Tile.cell_updCell_self (x : Tile) (l c : Nat) {g : Cell → Cell} (h : g (x.cell l c) ≠ Cell.empty) :
    (x.updCell l c g).cell l c = g (x.cell l c) := by
  simp only [Tile.updCell, if_neg h]
  rw [Tile.cell, Tab.find_put_self]
  rfl

theorem Tile.cell_updCell_ne (x : Tile) {l c i j : Nat} (g : Cell → Cell) (h : 16 * l + c ≠ 16 * i + j) :
    (x.updCell i j g).cell l c = x.cell l c := by
  simp only [Tile.updCell]
  split
  · rw [Tile.cell, Tab.find_del_ne _ h]
    rfl
  · rw [Tile.cell, Tab.find_put_ne _ _ h]
    rfl

/-! ### The words of a step leave the cell (R147) -/

/-- A change of a cell that leaves its control beats and the steps of the operation in progress. -/
def KeepsOperation (g : Cell → Cell) : Prop := ∀ e, (g e).ctl = e.ctl ∧ (g e).done = e.done

/-- An operation at work in a cell of a tile goes on as it was. -/
def SameOperation (t l c : Nat) (s s' : State) : Prop :=
  ((s.tile t).cell l c).ctl ≠ [] → ((s'.tile t).cell l c).ctl = ((s.tile t).cell l c).ctl ∧
    ((s'.tile t).cell l c).done = ((s.tile t).cell l c).done

theorem SameOperation.trans {t l c : Nat} {s s' s'' : State} (a : SameOperation t l c s s') (b : SameOperation t l c s' s'') :
    SameOperation t l c s s'' := by
  intro h
  obtain ⟨hctl, hdone⟩ := a h
  obtain ⟨hctl', hdone'⟩ := b (by rwa [hctl])
  exact ⟨hctl'.trans hctl, hdone'.trans hdone⟩

theorem SameOperation.of_cells {t l c : Nat} {s s' : State} (h : KeepsTile (·.cells) s s') : SameOperation t l c s s' := by
  intro _
  rw [Tile.cell_of_cells (h.tile t)]
  exact ⟨rfl, rfl⟩

theorem Tile.updCell_sameOperation (x : Tile) {l c : Nat} (hx : (x.cell l c).ctl ≠ []) (i j : Nat) {g : Cell → Cell} (hg : KeepsOperation g) :
    ((x.updCell i j g).cell l c).ctl = (x.cell l c).ctl ∧ ((x.updCell i j g).cell l c).done = (x.cell l c).done := by
  by_cases hk : 16 * l + c = 16 * i + j
  · have hsame : ∀ y : Tile, y.cell i j = y.cell l c := fun y => by rw [Tile.cell, Tile.cell, hk]
    have hne : g (x.cell i j) ≠ Cell.empty := fun he => hx (by rw [← hsame, ← (hg _).1, he]; rfl)
    rw [← hsame (x.updCell i j g), Tile.cell_updCell_self _ _ _ hne, ← hsame x]
    exact hg _
  · rw [Tile.cell_updCell_ne x g hk]
    exact ⟨rfl, rfl⟩

theorem SameOperation.updCell (t l c : Nat) (s : State) (u i j : Nat) {g : Cell → Cell} (hg : KeepsOperation g) :
    SameOperation t l c s (s.updTile u fun x => x.updCell i j g) := by
  intro h
  by_cases hu : t = u
  · subst hu
    rw [State.tile_updTile_self]
    exact Tile.updCell_sameOperation _ h i j hg
  · rw [State.tile_updTile_ne _ _ hu]
    exact ⟨rfl, rfl⟩

/-- The A word of a step leaves the in-port or the cell it stood in. -/
def dropA (t : Nat) (q : SysAt) (l c : Nat) (s : State) : State :=
  if c = q.r.first ∧ q.run.westEdge then
    if l = 0 then (s.popIn t (q.w.a + l)).updTile t fun x => x.updRun q.r.first fun r => { r with need := r.need - 1 }
    else s.popIn t (q.w.a + l)
  else s.updTile t fun x => x.updCell l c fun e => { e with a := e.a.tail }

/-- The B words of a step leave the in-port or the cell they stood in. -/
def dropB (t : Nat) (q : SysAt) (l c : Nat) (bs : List Rec) (s : State) : State :=
  if l = 0 ∧ q.run.northEdge then
    s.updPorts t fun x => let p := q.w.b + (c - q.r.first)
      x.setIn p ((x.inPort p).takeN p (((wordsOf (x.inPort p).fifo bs.length).map (·.2)).getD 0))
  else s.updTile t fun x => x.updCell l c fun e => { e with b := e.b.drop bs.length }

/-- The A word of a step goes on to the east. -/
def giveA (t : Nat) (q : SysAt) (l c : Nat) (a : Rec) (s : State) : State :=
  if c < q.r.last then s.updTile t fun x => x.updCell l (c + 1) fun e => { e with a := e.a ++ [a] }
  else if q.r.east ≠ 0 then s.updTile (t + 1) fun x => x.updCell l 0 fun e => { e with a := e.a ++ [a] }
  else s

/-- The B words of a step go on to the south. -/
def giveB (t : Nat) (q : SysAt) (l c : Nat) (bs : List Rec) (s : State) : State :=
  if l < 15 then s.updTile t fun x => x.updCell (l + 1) c fun e => { e with b := e.b ++ bs }
  else if q.r.south ≠ 0 then s.updTile (t + 32) fun x => x.updCell 0 c fun e => { e with b := e.b ++ bs }
  else s

theorem passWords_eq (s : State) (t : Nat) (q : SysAt) (l c : Nat) (a : Rec) (bs : List Rec) :
    passWords s t q l c a bs = giveB t q l c bs (giveA t q l c a (dropB t q l c bs (dropA t q l c s))) := rfl

section
variable {R : State → State → Prop} (hrefl : ∀ s, R s s) (htrans : ∀ {a b c}, R a b → R b c → R a c)
  (hcell : ∀ s u i j {g}, KeepsOperation g → R s (s.updTile u fun x => x.updCell i j g))
  (hport : ∀ s t p (v : Tile → InPort), R s (s.updPorts t fun x => x.setIn p (v x)))
  (hrun : ∀ s t f g, R s (s.updTile t fun x => x.updRun f g))
include hrefl htrans hcell hport hrun

/-- The words of a step leave by changes of in-ports, of what cells hold beside their operations, and of the run state alone. -/
theorem passWords_made (s : State) (t : Nat) (q : SysAt) (l c : Nat) (a : Rec) (bs : List Rec) : R s (passWords s t q l c a bs) := by
  have hA : ∀ s, R s (dropA t q l c s) := fun s => by
    unfold dropA
    split
    · split
      · exact htrans (hport ..) (hrun ..)
      · exact hport ..
    · exact hcell _ _ _ _ fun _ => ⟨rfl, rfl⟩
  have hB : ∀ s, R s (dropB t q l c bs s) := fun s => by
    unfold dropB
    split
    · exact hport ..
    · exact hcell _ _ _ _ fun _ => ⟨rfl, rfl⟩
  have hEast : ∀ s, R s (giveA t q l c a s) := fun s => by
    unfold giveA
    split
    · exact hcell _ _ _ _ fun _ => ⟨rfl, rfl⟩
    · split
      · exact hcell _ _ _ _ fun _ => ⟨rfl, rfl⟩
      · exact hrefl s
  have hSouth : ∀ s, R s (giveB t q l c bs s) := fun s => by
    unfold giveB
    split
    · exact hcell _ _ _ _ fun _ => ⟨rfl, rfl⟩
    · split
      · exact hcell _ _ _ _ fun _ => ⟨rfl, rfl⟩
      · exact hrefl s
  rw [passWords_eq]
  exact htrans (htrans (htrans (hA _) (hB _)) (hEast _)) (hSouth _)

end

theorem passWords_acc (s : State) (t : Nat) (q : SysAt) (l c : Nat) (a : Rec) (bs : List Rec) :
    KeepsTile (·.acc) s (passWords s t q l c a bs) :=
  passWords_made (R := KeepsTile (·.acc)) KeepsTile.refl KeepsTile.trans (fun s u _ _ _ _ => KeepsTile.updTile s u fun _ => rfl)
    (fun s t p _ => KeepsTile.updPorts (fun _ _ => rfl) s t fun x => x.acc_setIn p _)
    (fun s t f g => KeepsTile.updTile s t fun x => x.acc_updRun f g) s t q l c a bs

theorem passWords_sameOperation (s : State) (t : Nat) (q : SysAt) (l c : Nat) (a : Rec) (bs : List Rec) :
    SameOperation t l c s (passWords s t q l c a bs) :=
  passWords_made (R := SameOperation t l c) (fun s => .of_cells (KeepsTile.refl s)) SameOperation.trans
    (fun s u i j _ hg => SameOperation.updCell t l c s u i j hg)
    (fun s t p _ => .of_cells (KeepsTile.updPorts (fun _ _ => rfl) s t fun x => x.cells_setIn p _))
    (fun s t f g => .of_cells (KeepsTile.updTile s t fun x => x.cells_updRun f g)) s t q l c a bs

/-! ### SYSTOLIC_STEP (R79–R81, R152–R155) -/

/-- The operation at the head of a cell at work. -/
theorem cellHead_ctl {s : State} {t l c : Nat} {q : SysAt} {b : Beat} {o : Ctl} (h : cellHead s t l c = some (q, b, o)) :
    ((s.tile t).cell l c).ctl ≠ [] := by
  intro hnil
  simp [cellHead, hnil] at h

/-- A step whose operands are there and break no rule. -/
theorem takeStep_steps {s : State} {t l c : Nat} {q : SysAt} {b : Beat} {o : Ctl} {a : Rec} {bs : List Rec}
    (ha : aWord (s.tile t) q l c = some a) (hb : bWords (s.tile t) q l c (bCount q.w a) = some bs) (hf : stepFault q.w a bs = none) :
    takeStep s t q l c b o = (passWords s t q l c a bs).updTile t fun x =>
      (x.setAcc l c o.acci (Slice0.stepValue (s.tile t) q l c b o a bs)).updCell l c fun e => { e with done := e.done + 1 } := by
  simp only [takeStep, ha, hb, hf, Slice0.stepValue, Bool.and_eq_true, decide_eq_true_eq]

theorem takeStep_acc {s : State} {t l c : Nat} {q : SysAt} {b : Beat} {o : Ctl} {a : Rec} {bs : List Rec}
    (ha : aWord (s.tile t) q l c = some a) (hb : bWords (s.tile t) q l c (bCount q.w a) = some bs) (hf : stepFault q.w a bs = none) :
    ((takeStep s t q l c b o).tile t).acc =
      ((s.tile t).setAcc l c o.acci (Slice0.stepValue (s.tile t) q l c b o a bs)).acc := by
  rw [takeStep_steps ha hb hf, State.tile_updTile_self, Tile.acc_updCell]
  exact Tile.setAcc_acc ((passWords_acc ..).tile t) ..

theorem takeStep_done {s : State} {t l c : Nat} {q : SysAt} {b : Beat} {o : Ctl} {a : Rec} {bs : List Rec}
    (hctl : ((s.tile t).cell l c).ctl ≠ [])
    (ha : aWord (s.tile t) q l c = some a) (hb : bWords (s.tile t) q l c (bCount q.w a) = some bs) (hf : stepFault q.w a bs = none) :
    (((takeStep s t q l c b o).tile t).cell l c).done = ((s.tile t).cell l c).done + 1 := by
  obtain ⟨-, hdone⟩ := passWords_sameOperation s t q l c a bs hctl
  rw [takeStep_steps ha hb hf, State.tile_updTile_self, Tile.cell_updCell_self]
  · exact congrArg (· + 1) hdone
  · intro he
    exact Nat.succ_ne_zero _ (congrArg Cell.done he)

/-! ### ACCOP (R158) -/

theorem clamp_eq (v : Int) {lo hi : Int} (h : lo ≤ hi) : (clamp v lo hi).1 = max lo (min hi v) := by
  unfold clamp
  split
  · omega
  · split <;> omega

theorem satI32_eq (v : Int) : (satI32 v).1 = BitVec.ofInt 32 (max (-2147483648) (min 2147483647 v)) :=
  congrArg (BitVec.ofInt 32) (clamp_eq v (by decide))

/-- What an ACCOP makes of its accumulator, and whether it saturated. -/
def accopResult (x : Tile) (q : SysAt) (l c : Nat) (b : Beat) (o : Ctl) : (Word × Bool) × Bool :=
  let a := x.accOf l c o.acci
  let u := draw (x.ctx q.k).key (32 * b.r.idx + BitVec.ofNat 64 o.acci) (cellSite q l c)
  let f := a.2 || b.r.poison
  match o.sub with
  | 0 => if q.w.int32 then let v := satI32 (a.1.toInt * o.opnd.toInt); ((v.1, f), v.2) else ((fmul q.w.rm u a.1 o.opnd, f), false)
  | 1 => if q.w.int32 then let v := satI32 (a.1.toInt + o.opnd.toInt); ((v.1, f), v.2) else ((fadd q.w.rm u a.1 o.opnd, f), false)
  | 2 => let v := x.accOf l c o.from_; ((v.1, v.2 || b.r.poison), false)
  | _ => ((0, false), false)

theorem accop_exec {s : State} {t l c : Nat} {q : SysAt} {b : Beat} {o : Ctl} (h : cellHead s t l c = some (q, b, o)) (ho : o.op = 3) :
    exec (.accop t l c) s = .next (s.updTile t fun x =>
      ((x.setAcc l c o.acci (accopResult (s.tile t) q l c b o).1).isat c (accopResult (s.tile t) q l c b o).2).updCell l c
        fun e => { e with ctl := e.ctl.tail, done := 0 }) := by
  show execAccop t l c s = _
  simp only [execAccop, h, ho, ne_eq, not_true_eq_false, if_false]
  rfl

theorem accopResult_gives (x : Tile) (q : SysAt) (l c : Nat) (b : Beat) (o : Ctl) :
    Slice0.accopGives x q l c b o (accopResult x q l c b o).1 := by
  unfold Slice0.accopGives accopResult
  refine ⟨fun h => ?_, fun h => ?_, fun h => ?_, fun h => ?_⟩
  · simp only [h]
    exact ⟨by split <;> rfl, fun hi => by rw [if_pos hi]; exact satI32_eq _, fun hi => ⟨_, by rw [if_neg (by simp [hi])]⟩⟩
  · simp only [h]
    exact ⟨by split <;> rfl, fun hi => by rw [if_pos hi]; exact satI32_eq _, fun hi => ⟨_, by rw [if_neg (by simp [hi])]⟩⟩
  · simp only [h]
  · simp only [h]

/-! ### EMIT (R156, R157) -/

/-- A code of 32 bits is the captured value itself. -/
theorem emitCode_whole {w : SysWord} {f : Fmt} (hf : f = .fp32 ∧ w.int32 = false ∨ f = .int32 ∧ w.int32 = true) (u v : Word) :
    (emitCode w f u v).1 = v.toNat := by
  obtain ⟨rfl, hw⟩ | ⟨rfl, hw⟩ := hf
  · simp [emitCode, hw]
  · have hlo := v.le_toInt
    have hhi := v.toInt_lt
    have hclamp : (clamp v.toInt (-2147483648) 2147483647).1 = v.toInt := by
      rw [clamp_eq _ (by decide)]
      omega
    simp [emitCode, hw, Fmt.intRange, Fmt.width, hclamp]

/-- The codes of a beat of 32-bit values in their places (R156). -/
theorem emitCodes_whole {w : SysWord} {f : Fmt} (hf : f = .fp32 ∧ w.int32 = false ∨ f = .int32 ∧ w.int32 = true) (u : Nat → Word)
    (vs : List (Word × Bool × Beat)) :
    ((vs.mapIdx fun j v => emitCode w f (u j) v.1).mapIdx fun j v => v.1 * 2 ^ (32 * j)) = vs.mapIdx fun j v => v.1.toNat * 2 ^ (32 * j) := by
  rw [List.mapIdx_mapIdx]
  simp only [Function.comp_def, emitCode_whole hf]

/-- The last beat of a capture whose control beat ends a stream ends it too (R156). -/
theorem emitKind_iff (p : Prop) [Decidable p] (k : BitVec 2) : (if decide p = true ∧ k = kindEos then kindEos else kindData) = 1 ↔ p ∧ k = 1 := by
  by_cases h : p ∧ k = 1 <;> simp [h, kindEos, kindData]

theorem emit_writes {s : State} {tile col : Nat} {q : SysAt} {b : Beat} {f : Fmt} (h : Slice0.Works s tile col q)
    (hroom : ((s.tile tile).outPort q.w.out).length < 64) (hcap : Slice0.captureOf (s.tile tile) q.r = some b)
    (htarget : (Ctl.of b.bits).target q.w.int32 = some f) (hf : f = .fp32 ∧ q.w.int32 = false ∨ f = .int32 ∧ q.w.int32 = true)
    (hall : ∀ c ∈ Slice0.emitColumns q, ((s.tile tile).cell (Slice0.emitLane q) c).cap.isSome = true) :
    ∃ bt g, exec (.emit tile col) s = .next ((s.pushOut tile q.w.out [bt]).updTile tile g) ∧
      (∀ x p, (g x).outPort p = x.outPort p) ∧
      bt.r.data = BitVec.ofNat 128 (((Slice0.emitColumns q).filterMap fun c => ((s.tile tile).cell (Slice0.emitLane q) c).cap).mapIdx
        fun j v => v.1.toNat * 2 ^ (32 * j)).sum ∧
      (bt.kind = 1 ↔ q.run.emitPos + 1 = 16 * ((q.r.last + 1 - q.r.first + 3) / 4) ∧ b.kind = 1) := by
  have hper : f.perBeat = 4 ∧ f.width = 32 := by obtain ⟨rfl, -⟩ | ⟨rfl, -⟩ := hf <;> decide
  have hcaps : ((Slice0.emitColumns q).map fun c => ((s.tile tile).cell (Slice0.emitLane q) c).cap).all (·.isSome) = true :=
    List.all_eq_true.2 fun v hv => by
      obtain ⟨c, hc, rfl⟩ := List.mem_map.1 hv
      exact hall c hc
  show ∃ bt g, execEmit tile col s = _ ∧ _
  unfold execEmit
  simp only [h.here]
  split
  next hstop => simp [h.going] at hstop; omega
  split
  next hnone => cases hnone.symm.trans hcap
  next b' hb =>
    obtain rfl : b = b' := Option.some.inj (hcap.symm.trans hb)
    simp only [htarget, Option.getD_some, hper]
    split
    next hmiss =>
      rw [Bool.not_eq_true'] at hmiss
      cases hmiss.symm.trans hcaps
    next =>
      refine ⟨_, _, rfl, fun x p => ?_, ?_, emitKind_iff ..⟩
      · have hisat : ∀ l : List (Nat × Nat × Bool), (l.foldl (fun x v => x.isat v.1 v.2.2) x).outPort p = x.outPort p := fun l =>
          Tile.foldl_keeps (π := (·.outPort p)) (fun x _ => x.outPort_isat ..) l x
        split
        · rw [Tile.outPort_updRun, Tile.foldl_keeps (π := (·.outPort p))]
          · exact hisat _
          · intro x l
            refine Tile.foldl_keeps (π := (·.outPort p)) (fun x c => ?_) _ x
            split <;> rfl
        · rw [Tile.outPort_updRun]
          exact hisat _
      · refine (congrArg (fun l => BitVec.ofNat 128 l.sum) (emitCodes_whole hf ..)).trans ?_
        rw [List.filterMap_map]
        rfl

/-! ### REGION_MARKER_TAKEN (R109, R159) -/

theorem Beat.mark?_some {b : Beat} {mk : Tok} (h : b.mark? = some mk) :
    isData b.kind = false ∧ isBareEos b.kind b.r.data = false ∧ ∀ v e, mk ≠ .vec v e := by
  unfold Beat.mark? at h
  split at h
  next hk =>
    cases h
    rw [hk]
    exact ⟨by decide, by simp [isBareEos, kindSweep, kindCtrl], nofun⟩
  split at h
  next hk =>
    rw [hk]
    split at h
    next hd =>
      cases h
      exact ⟨by decide, by simp [isBareEos, hd, mkDrain, mkBareEos], nofun⟩
    split at h
    · cases h
    next he =>
      cases h
      exact ⟨by decide, by simpa [isBareEos] using he, nofun⟩
  next => cases h

theorem dropEos_of_heads {s : State} {t : Nat} {ports : List Nat}
    (h : ∀ p ∈ ports, ∃ b rest, ((s.tile t).inPort p).fifo = b :: rest ∧ isBareEos b.kind b.r.data = false) : dropEos s t ports = s := by
  unfold dropEos
  induction ports with
  | nil => rfl
  | cons p ps ih =>
    obtain ⟨b, rest, hb, he⟩ := h p List.mem_cons_self
    simp only [List.foldl_cons, hb, he, Bool.false_eq_true, if_false]
    exact ih fun p hp => h p (List.mem_cons_of_mem _ hp)

section
variable {α : Type} {π : Tile → α} (he : ∀ (x : Tile) (e : Vector Word 32), π { x with e := e } = π x)
  (hctx : ∀ (x : Tile) k g, π (x.updCtx k g) = π x)
include he hctx

theorem KeepsTile.settleDrains (s : State) (t k : Nat) : KeepsTile π s (settleDrains s t k) :=
  (KeepsTile.updTile s t fun x => hctx x k _).trans (KeepsTile.of_quiet he (Quiet.addSigs ..))

theorem KeepsTile.drainOut (s : State) (t k o : Nat) : KeepsTile π s (drainOut s t k o) :=
  (KeepsTile.updTile s t fun x => hctx x k _).trans (KeepsTile.settleDrains he hctx _ t k)

end

/-- The run states that forward a marker to the neighbours (R159). -/
def forwardMark (t : Nat) (q : SysAt) (mk : Tok) (s : State) : State :=
  let s2 := s.updTile t fun x => x.updRun q.r.first fun r => { r with
    westMarks := r.westMarks.tail
    northMarks := r.northMarks.tail }
  let s3 := if q.r.east = 0 then s2 else s2.updTile (t + 1) fun x => x.updRun 0 fun r => { r with westMarks := r.westMarks ++ [mk] }
  if q.r.south = 0 then s3
  else s3.updTile (t + 32) fun x => x.updRun q.r.first fun r => { r with northMarks := r.northMarks ++ [mk] }

theorem KeepsTile.forwardMark {α : Type} {π : Tile → α} (hrun : ∀ (x : Tile) f g, π (x.updRun f g) = π x) (t : Nat) (q : SysAt) (mk : Tok)
    (s : State) : KeepsTile π s (forwardMark t q mk s) := by
  have hupd : ∀ s u f g, KeepsTile π s (s.updTile u fun x => x.updRun f g) := fun s u f g => KeepsTile.updTile s u fun x => hrun x f g
  unfold Machine.forwardMark
  dsimp only
  split
  · split
    · exact hupd ..
    · exact (hupd ..).trans (hupd ..)
  · split
    · exact (hupd ..).trans (hupd ..)
    · exact ((hupd ..).trans (hupd ..)).trans (hupd ..)

/-- A DRAIN or MARK taken by a region: popped, forwarded and written to OUT. -/
theorem regionTakes_marker {mk : Tok} (hmk : ∀ j, mk ≠ .sweep j) (s : State) (t : Nat) (q : SysAt) (ports : List Nat) :
    regionTakes s t q ports mk =
      if mk = .drain then
        drainOut ((forwardMark t q mk (ports.foldl (fun s p => s.popIn t p) s)).pushOut t q.w.out (markBeat mk)) t q.k q.w.out
      else (forwardMark t q mk (ports.foldl (fun s p => s.popIn t p) s)).pushOut t q.w.out (markBeat mk) := by
  cases mk with
  | sweep j => exact absurd rfl (hmk j)
  | vec => rfl
  | drain => rfl
  | mark => rfl

theorem regionTakes_outPort {mk : Tok} (hmk : ∀ j, mk ≠ .sweep j) (s : State) (t : Nat) {q : SysAt} (ho : q.w.out < 32) (ports : List Nat) :
    ((regionTakes s t q ports mk).tile t).outPort q.w.out = (s.tile t).outPort q.w.out ++ markBeat mk := by
  have hpop : KeepsTile (·.outPort q.w.out) s (forwardMark t q mk (ports.foldl (fun s p => s.popIn t p) s)) :=
    (KeepsTile.foldl (fun s p => KeepsTile.updPorts (fun _ _ => rfl) s t fun x => x.outPort_setIn ..) ports s).trans
      (KeepsTile.forwardMark (fun x f g => x.outPort_updRun f g _) t q mk _)
  have hpush : ((State.pushOut _ t q.w.out (markBeat mk)).tile t).outPort q.w.out = (s.tile t).outPort q.w.out ++ markBeat mk :=
    (State.pushOut_outPort _ t ho _).trans (congrArg (· ++ markBeat mk) (hpop.tile t))
  rw [regionTakes_marker hmk]
  split
  · exact ((KeepsTile.drainOut (π := (·.outPort q.w.out)) (fun _ _ => rfl) (fun x k g => x.outPort_updCtx k g _) _ t _ _).tile t).trans hpush
  · exact hpush

theorem regionTakes_inPort {mk : Tok} (hmk : ∀ j, mk ≠ .sweep j) (s : State) (t : Nat) (q : SysAt) {ports : List Nat} (hnd : ports.Nodup)
    {p : Nat} (hp : p < 32) (hmem : p ∈ ports) :
    ((regionTakes s t q ports mk).tile t).inPort p = ((s.tile t).inPort p).takeN p 1 := by
  have hpop : ((ports.foldl (fun s p => s.popIn t p) s).tile t).inPort p = ((s.tile t).inPort p).takeN p 1 :=
    (State.inPort_foldl_setIn (fun p v => v.takeN p 1) t hp hnd s).trans (if_pos hmem)
  have hpush : KeepsTile (·.inPort p) _
      ((forwardMark t q mk (ports.foldl (fun s p => s.popIn t p) s)).pushOut t q.w.out (markBeat mk)) :=
    (KeepsTile.forwardMark (fun x f g => x.inPort_updRun f g p) t q mk _).trans (State.pushOut_inPort _ t _ _ p)
  rw [regionTakes_marker hmk]
  split
  · exact ((KeepsTile.drainOut (π := (·.inPort p)) (fun _ _ => rfl) (fun x k g => x.inPort_updCtx k g _) _ t _ _).tile t).trans
      ((hpush.tile t).trans hpop)
  · exact (hpush.tile t).trans hpop

theorem regionMarker_exec {s : State} {tile col : Nat} {q : SysAt} {mk : Tok} (h : Slice0.Works s tile col q)
    (hat : Slice0.AtMarker s tile q mk) :
    exec (.regionMarkerTaken tile col) s = .next (regionTakes s tile q (q.w.inPorts (some q.r)).dedup mk) := by
  obtain ⟨hheads, hplain, ⟨hstarved, hbusy⟩, ⟨hacc, hfull⟩, hwest, hnorth, -, hroom⟩ := hat
  have hdrop : dropEos s tile (q.w.inPorts (some q.r)).dedup = s := dropEos_of_heads fun p hp => by
    obtain ⟨b, rest, hb, hm⟩ := hheads p hp
    exact ⟨b, rest, hb, (Beat.mark?_some hm).2.1⟩
  have hmarks : (((q.w.inPorts (some q.r)).dedup.map fun p => ((s.tile tile).inPort p).fifo.head?).filterMap fun h => h.bind (·.mark?)) =
      List.replicate (q.w.inPorts (some q.r)).dedup.length mk := by
    rw [List.filterMap_map, ← List.map_const', ← List.filterMap_eq_map]
    refine List.filterMap_congr fun p hp => ?_
    obtain ⟨b, rest, hb, hm⟩ := hheads p hp
    simp [hb, hm]
  have hsome : ∃ n, (q.w.inPorts (some q.r)).dedup.length = n + 1 :=
    Nat.exists_eq_succ_of_ne_zero fun h0 => by
      have hc : q.w.c ∈ (q.w.inPorts (some q.r)).dedup := List.mem_dedup.2 (List.mem_append_right _ (List.mem_singleton_self _))
      rw [List.eq_nil_of_length_eq_zero h0] at hc
      cases hc
  obtain ⟨n, hn⟩ := hsome
  show execRegionMarkerTaken tile col s = _
  unfold execRegionMarkerTaken
  simp only [h.here, h.going, Bool.false_eq_true, if_false, hdrop, hmarks, hfull, hstarved]
  simp only [hn, List.replicate_succ]
  have hall : ((mk :: List.replicate n mk).any fun m => m != mk) = false := by
    rw [← List.replicate_succ, List.any_replicate, bne_self_eq_false]
    exact ite_self false
  have hmark : ∀ h ∈ (q.w.inPorts (some q.r)).dedup.map fun p => ((s.tile tile).inPort p).fifo.head?, ∃ b, h = some b ∧ isData b.kind = false := by
    intro h hh
    obtain ⟨p, hp, rfl⟩ := List.mem_map.1 hh
    obtain ⟨b, rest, hb, hm⟩ := hheads p hp
    exact ⟨b, by rw [hb]; rfl, (Beat.mark?_some hm).1⟩
  have htarget : (s.tile tile).targetOk mk = true := by
    cases mk with
    | sweep j => exact absurd rfl (hplain j)
    | vec => rfl
    | drain => rfl
    | mark => rfl
  rw [hall, if_neg Bool.false_ne_true, if_neg, if_neg, if_neg, htarget, if_neg (by simp), if_neg (by omega)]
  · rw [Bool.not_eq_true, Bool.or_eq_false_iff]
    constructor
    · cases hedge : q.run.westEdge <;> simp [hwest, hedge]
    · cases hedge : q.run.northEdge <;> simp [hnorth, hedge]
  · simp [hbusy, hacc]
  · rw [Bool.not_eq_true, Bool.and_eq_false_iff]
    refine .inl (List.any_eq_false.2 fun h hh => ?_)
    obtain ⟨b, rfl, hb⟩ := hmark h hh
    simp [hb]

end Sys2Proof.Machine

namespace Sys2Proof.Slice0
open Machine

/-- Settles O44: the words of a step leave its cell without a change of its accumulator; an ACCOP writes what it makes of its own; a beat
of a capture holds the captured values as they are; and a marker that heads every port is popped from each and written to OUT. -/
theorem systolicWork : Obligations.SystolicWork := by
  unfold Obligations.SystolicWork
  refine ⟨fun tile lane col q b o a bs s h ho hdone ha hb hf => ?_, fun tile lane col q b o s h ho => ?_,
    fun tile col q b f s h hout hroom hcap htarget hf hall => ?_, fun tile col q mk s h hat => ?_⟩
  · have hex : exec (.systolicStep tile lane col) s = .next (takeStep s tile q lane col b o) := by
      show execSystolicStep tile lane col s = _
      simp only [execSystolicStep, h, ho, hdone, if_false, if_true]
    exact ⟨_, hex, takeStep_acc ha hb hf, takeStep_done (cellHead_ctl h) ha hb hf⟩
  · refine ⟨_, _, accop_exec h ho, accopResult_gives .., ?_⟩
    rw [State.tile_updTile_self, Tile.acc_updCell, Tile.acc_isat]
  · obtain ⟨bt, g, hex, hg, hdata, hkind⟩ := emit_writes h hroom hcap htarget hf hall
    refine ⟨_, bt, hex, ?_, hdata, hkind⟩
    rw [State.tile_updTile_self, hg, State.pushOut_outPort _ _ hout]
  · exact ⟨_, regionMarker_exec h hat, regionTakes_outPort hat.plain s tile hat.room.1 _, fun p hp hlt =>
      regionTakes_inPort hat.plain s tile q (List.nodup_dedup _) hlt (List.mem_dedup.2 hp)⟩

end Sys2Proof.Slice0
end

section
/-! SUPPORT. The words of array control: bindings, SR keys and element counters, and loads (R69, R70, R101, R164, R169, R170). -/

namespace Sys2Proof.Machine

/-! ### What a change of a tile leaves of its columns and contexts -/

theorem Tile.activeOf_eq (x : Tile) (j : Nat) : x.activeOf j = (x.col j).active := by
  rw [Tile.activeOf, Tile.col]
  cases x.cols.toList[j]? <;> rfl

theorem Tile.activeOf_of_le (x : Tile) {j : Nat} (hj : 16 ≤ j) : x.activeOf j = none := by
  rw [Tile.activeOf, List.getElem?_eq_none (by simpa using hj)]
  rfl

@[simp] theorem Tile.ctx_updCol (x : Tile) (c : Nat) (g : Col → Col) (k : Nat) : (x.updCol c g).ctx k = x.ctx k := by
  unfold Tile.updCol
  split <;> rfl

@[simp] theorem Tile.outAct_updCol (x : Tile) (c : Nat) (g : Col → Col) : (x.updCol c g).outAct = x.outAct := by
  unfold Tile.updCol
  split <;> rfl

@[simp] theorem Tile.col_updCtx (x : Tile) (k : Nat) (g : MaqCtx → MaqCtx) (j : Nat) : (x.updCtx k g).col j = x.col j := by
  unfold Tile.updCtx
  split <;> rfl

@[simp] theorem Tile.outAct_updCtx (x : Tile) (k : Nat) (g : MaqCtx → MaqCtx) : (x.updCtx k g).outAct = x.outAct := by
  unfold Tile.updCtx
  split <;> rfl

theorem Tile.ctx_updCtx_eq (x : Tile) (k : Nat) (g : MaqCtx → MaqCtx) (j : Nat) :
    (x.updCtx k g).ctx j = if k = j ∧ j < 4 then g (x.ctx j) else x.ctx j := by
  unfold Tile.updCtx
  split
  next hk =>
    by_cases hkj : k = j
    · subst hkj
      simp [Tile.ctx, hk]
    · simp [Tile.ctx, hkj]
  next hk => rw [if_neg (by omega)]

/-- A change of contexts that leaves their maquettes. -/
theorem Tile.maq_updCtx (x : Tile) (k : Nat) {g : MaqCtx → MaqCtx} (hg : ∀ c, (g c).maq = c.maq) (j : Nat) :
    ((x.updCtx k g).ctx j).maq = (x.ctx j).maq := by
  rw [Tile.ctx_updCtx_eq]
  split
  · exact hg _
  · rfl

theorem mem_ctxsOf {x : Tile} {id k : Nat} : k ∈ x.ctxsOf id ↔ k < 4 ∧ (x.ctx k).owner = some id := by
  simp only [Tile.ctxsOf, List.mem_filter, List.mem_range, beq_iff_eq, and_congr_right_iff]
  intro hk
  simp [Tile.ctx, hk]

theorem mem_directPorts_of {x : Tile} {k p : Nat} {outs : Nat → Bool} :
    p ∈ x.directPorts k outs ↔
      ∃ o w, (o, k) ∈ x.outAct ∧ outs o = true ∧ (x.ctx k).maq.outs.find o = some w ∧ ∃ e ∈ w.sel, p ∈ e.inPorts := by
  simp only [Tile.directPorts, List.mem_flatMap]
  constructor
  · rintro ⟨⟨o, j⟩, ho, hp⟩
    dsimp only at hp
    split at hp
    next hj =>
      obtain ⟨rfl, houts⟩ := hj
      cases hw : (x.ctx j).maq.outs.find o with
      | none => rw [hw] at hp; cases hp
      | some w =>
        rw [hw, Option.map_some, Option.getD_some] at hp
        exact ⟨o, w, ho, houts, hw, List.mem_flatMap.1 hp⟩
    next => cases hp
  · rintro ⟨o, w, ho, houts, hw, e, he, hp⟩
    refine ⟨(o, k), ho, ?_⟩
    rw [if_pos ⟨rfl, houts⟩, hw, Option.map_some, Option.getD_some]
    exact List.mem_flatMap.2 ⟨e, he, hp⟩

theorem Quiet.tile_foreignPort {s t : State} (q : Quiet s t) (u p id : Nat) : t.foreignPort u p id = s.foreignPort u p id := by
  obtain ⟨e, he⟩ := q.tiles u
  rw [State.foreignPort, he]
  rfl

/-! ### CHBIND and SRSEED (R69, R70, R169, R170) -/

theorem mem_channels {x n p : Nat} : p ∈ (List.range (n + 1)).map (x + ·) ↔ x ≤ p ∧ p ≤ x + n := by
  simp only [List.mem_map, List.mem_range]
  exact ⟨fun ⟨i, hi, h⟩ => by omega, fun ⟨h1, h2⟩ => ⟨p - x, by omega, by omega⟩⟩

section
variable {s : State} {h : Hdr} {c : Ctx}

theorem chbind_exec {x n : BitVec 5} {a : Reg} (hi : Issues s (.chbind h x a n) h c) {b : Binding}
    (hb : Binding.ofWord ((c.g a).extractLsb' 0 32) = some b)
    (hown : ∀ p, x.toNat ≤ p → p ≤ x.toNat + n.toNat → s.foreignPort c.tile p c.id = false) :
    exec (.chbind h x a n) s = .next (completeWord c (.chbind h x a n)
      ((beforeEffect c (.chbind h x a n) s).updTile c.tile fun t =>
        ((List.range (n.toNat + 1)).map (x.toNat + ·)).foldl (fun t p => t.setIn p { t.inPort p with binding := b }) t) true) := by
  have hq := Quiet.beforeEffect c (.chbind h x a n) s
  have hword : (c.g a).setWidth 32 = (c.g a).extractLsb' 0 32 := BitVec.setWidth_eq_extractLsb' (by decide)
  refine hi.done (body := fun c s => _) ?_
  simp only [hword, hb]
  rw [if_neg]
  rw [Bool.not_eq_true, List.any_eq_false]
  intro p hp
  obtain ⟨hlo, hhi⟩ := mem_channels.1 hp
  rw [hq.tile_foreignPort, hown p hlo hhi]
  exact Bool.false_ne_true

theorem srseed_exec {m : BitVec 2} {a : Reg} (hi : Issues s (.srseed h m a) h c)
    (hports : ∀ p, p < 32 → (c.g a).getLsbD p = true → s.foreignPort c.tile p c.id = false)
    (howner : ((s.tile c.tile).ctx m.toNat).owner = some c.id) (hstate : ((s.tile c.tile).ctx m.toNat).state = .loaded) :
    exec (.srseed h m a) s = .next (completeWord c (.srseed h m a)
      ((beforeEffect c (.srseed h m a) s).updTile c.tile fun t =>
        ((List.range 32).filter fun p => (c.g a).getLsbD p).foldl (fun t p => t.setIn p { t.inPort p with srCount := 0 })
          (t.updCtx m.toNat fun q => { q with key := c.x.srSeed })) true) := by
  have hq := Quiet.beforeEffect c (.srseed h m a) s
  refine hi.done (body := fun c s => _) ?_
  dsimp only
  rw [if_neg, hq.ctx, howner, hstate, if_neg (by simp)]
  rw [Bool.not_eq_true, List.any_eq_false]
  intro p hp
  obtain ⟨hlt, hbit⟩ := List.mem_filter.1 hp
  rw [hq.tile_foreignPort, hports p (List.mem_range.1 hlt) hbit]
  exact Bool.false_ne_true

/-! ### MAQLD (R101, R164) -/

/-- An address a fabric read may begin at has a form that R17 accepts. -/
theorem addressFault_none {job tile : Nat} {form : Dword} {a : Nat} {k : Access} (hf : addressFault s job tile form a 8 k = none) :
    formSpace form ≠ 3 ∧ formRsvd form = 0 := by
  have hform : formCheck form = none := by
    cases hc : formCheck form with
    | none => rfl
    | some v => simp [addressFault, rangeCheck, hc] at hf
  unfold formCheck at hform
  split at hform
  · cases hform
  next h3 =>
    split at hform
    · cases hform
    next hr => exact ⟨h3, not_not.1 hr⟩

theorem maqld_exec {m : BitVec 2} {a b : Reg} (hi : Issues s (.maqld h m a b) h c)
    (hctx : ((s.tile c.tile).ctx m.toNat).state = .empty ∨
      (((s.tile c.tile).ctx m.toNat).state = .loaded ∧ ((s.tile c.tile).ctx m.toNat).owner = some c.id))
    (halign : Slice0.alignedIfPlain (c.g a) 8) :
    exec (.maqld h m a b) s = .next (completeWord c (.maqld h m a b)
      (execMaqld.begin_ m b c (beforeEffect c (.maqld h m a b) s) ((s.tile c.tile).ctx m.toNat) (c.g a)) false) := by
  have hq := Quiet.beforeEffect c (.maqld h m a b) s
  have hfree : (((s.tile c.tile).ctx m.toNat).state == .empty ||
      (((s.tile c.tile).ctx m.toNat).state == .loaded && ((s.tile c.tile).ctx m.toNat).owner == some c.id)) = true := by
    simpa using hctx
  refine hi.done (body := fun c s => _) ?_
  rw [hq.ctx, hfree]
  split
  · rfl
  next hnone =>
    obtain ⟨h3, hr⟩ := addressFault_none hnone
    rw [if_neg (not_not.2 (halign h3 hr))]
    rfl

end

end Sys2Proof.Machine
end

section
/-! SUPPORT. Markers injected, and MAQDRN: its DRAINs, what it waits for and its counters (R89, R105, R166). -/

namespace Sys2Proof.Machine

/-! ### Counters over a marker injected (R89, R165, R225) -/

theorem Recounts.of_tiles (c : Ctx) {s t : State} (hf : t.friezes = s.friezes) (he : KeepsTile (·.e) s t) : KeepsCounts c s t := by
  have hst : t.station? c.id c.st = s.station? c.id c.st := by rw [State.station?, hf]; rfl
  refine ⟨fun h => by rwa [hst], fun _ k => ?_⟩
  have hctr : ∀ u n, (t.tile u).ctr n = (s.tile u).ctr n := fun u n => by simp only [Tile.ctr, he.tile u]
  simp only [State.counter, hf, hctr]

theorem Recounts.updTile (c : Ctx) (s : State) (t : Nat) {g : Tile → Tile} (hg : ∀ x, (g x).e = x.e) : KeepsCounts c s (s.updTile t g) :=
  Recounts.of_tiles c rfl (KeepsTile.updTile s t hg)

/-- Where no port's count has risen there is no increment of SPORTCFG (R225). -/
theorem State.portLevels_of_le {s0 s1 : State} {t : Nat} (h : ∀ p, (s1.tile t).portCount p ≤ (s0.tile t).portCount p) :
    s0.portLevels s1 t = s1 := by
  unfold State.portLevels
  refine List.foldl_fixed' (fun d => ?_) _
  dsimp only
  rw [if_neg]
  have := h d.1
  omega

theorem InPort.enter_promises (q : InPort) (p : Nat) (ws : List RawBeat) :
    (ws.foldl (fun q w => q.enter p w) q).promised = q.promised ∧ (ws.foldl (fun q w => q.enter p w) q).sent = q.sent := by
  induction ws generalizing q with
  | nil => exact ⟨rfl, rfl⟩
  | cons w ws ih => exact ih (q.enter p w)

theorem InPort.free_inject_le (q : InPort) (p : Nat) (w : RawBeat) : (q.inject p w).free ≤ q.free := by
  obtain ⟨-, hfifo, -⟩ := InPort.inject_injects q p w
  obtain ⟨hpromised, hsent⟩ : (q.inject p w).promised = q.promised ∧ (q.inject p w).sent = q.sent := InPort.enter_promises ..
  have hlen := hfifo.length_le
  rw [InPort.free, InPort.free, hpromised, hsent]
  omega

theorem Tile.portCount_setIn_le (x : Tile) (p : Nat) {v : InPort} (hv : v.free ≤ (x.inPort p).free) (j : Nat) :
    (x.setIn p v).portCount j ≤ x.portCount j := by
  rw [Tile.portCount, Tile.portCount, Tile.outPort_setIn]
  split
  next hj =>
    rw [Tile.inPort_setIn _ _ _ hj]
    split
    next hpj => rwa [hpj] at hv
    next => exact Nat.le_refl _
  next => exact Nat.le_refl _

/-- A marker injected at an in-port changes that in-port and nothing else. -/
theorem State.updPorts_inject (s : State) (t p : Nat) (w : RawBeat) :
    (s.updPorts t fun x => x.setIn p ((x.inPort p).inject p w)) = s.updTile t fun x => x.setIn p ((x.inPort p).inject p w) := by
  refine State.portLevels_of_le fun j => ?_
  rw [State.tile_updTile_self]
  exact Tile.portCount_setIn_le _ p (InPort.free_inject_le ..) j

/-- A marker given to some columns whose operators have no forward input (R99). -/
def giveMark (k : Nat) (mk : Tok) (x : Tile) (c : Nat) : Tile :=
  if x.activeOf c = some k ∧ !((x.ctx k).maq.colOps c).isEmpty ∧ !((x.ctx k).maq.colOps c).any (fun q => q.2.hasForward c) then
    x.updCol c fun q => { q with injected := q.injected ++ [mk] } else x

/-- A marker at some in-ports. -/
def injectPorts (t : Nat) (ports : List Nat) (mk : Tok) (s : State) : State :=
  ports.foldl (fun s p => s.updPorts t fun x => x.setIn p ((x.inPort p).inject p mk.raw)) s

theorem injectMark_eq (s : State) (t k : Nat) (ports cols : List Nat) (mk : Tok) :
    injectMark s t k ports cols mk = (injectPorts t ports mk s).updTile t fun x => cols.foldl (giveMark k mk) x := rfl

section
variable {α : Type} {π : Tile → α}

theorem KeepsTile.injectPorts (hin : ∀ (x : Tile) p v, π (x.setIn p v) = π x) (t : Nat) (ports : List Nat) (mk : Tok) (s : State) :
    KeepsTile π s (injectPorts t ports mk s) := by
  refine KeepsTile.foldl (fun s p => ?_) ports s
  rw [State.updPorts_inject]
  exact KeepsTile.updTile s t fun x => hin x p _

variable {mk : Tok} (hcol : ∀ (x : Tile) c, π (x.updCol c fun q => { q with injected := q.injected ++ [mk] }) = π x)
include hcol

theorem Tile.foldl_giveMark (k : Nat) (cols : List Nat) (x : Tile) : π (cols.foldl (giveMark k mk) x) = π x := by
  refine Tile.foldl_keeps (fun x c => ?_) cols x
  unfold giveMark
  split
  · exact hcol x c
  · rfl

/-- What neither in-ports nor the markers columns hold show is kept of every tile when a marker is injected. -/
theorem KeepsTile.injectMark (hin : ∀ (x : Tile) p v, π (x.setIn p v) = π x) (s : State) (t k : Nat) (ports cols : List Nat) :
    KeepsTile π s (injectMark s t k ports cols mk) :=
  (KeepsTile.injectPorts hin t ports mk s).trans (KeepsTile.updTile _ t (Tile.foldl_giveMark hcol k cols))

end

theorem Tile.e_updCol (x : Tile) (c : Nat) (g : Col → Col) : (x.updCol c g).e = x.e := by
  unfold Tile.updCol
  split <;> rfl

theorem Tile.e_setIn (x : Tile) (p : Nat) (v : InPort) : (x.setIn p v).e = x.e := by
  unfold Tile.setIn
  split <;> rfl

theorem Tile.e_updCtx (x : Tile) (k : Nat) (g : MaqCtx → MaqCtx) : (x.updCtx k g).e = x.e := by
  unfold Tile.updCtx
  split <;> rfl

theorem Recounts.injectMark (c : Ctx) (s : State) (t k : Nat) (ports cols : List Nat) (mk : Tok) :
    KeepsCounts c s (injectMark s t k ports cols mk) := by
  refine Recounts.of_tiles c ?_ (KeepsTile.injectMark (fun x c => x.e_updCol c _) Tile.e_setIn ..)
  show (injectPorts t ports mk s).friezes = s.friezes
  unfold injectPorts
  induction ports generalizing s with
  | nil => rfl
  | cons p ps ih =>
    rw [List.foldl_cons, State.updPorts_inject, ih]
    rfl

/-! ### MAQDRN (R105, R166) -/

theorem KeepsOf.addSigs {α : Type} {π : Station → α} (he : ∀ (x : Station) (e : Vector Word 32), π { x with e := e } = π x) (s : State)
    (sigs : List Sig) : KeepsOf π s (addSigs s sigs) := 
  KeepsOf.foldl (g := fun s g => s.addCount g.fz g.st g.k 1) (fun s g => KeepsOf.updCounter he s g.fz g.st g.k (· + 1)) sigs s

/-- The completion signal of a word under mode 01, added. -/
theorem Recounts.addSigs (c : Ctx) (s : State) : Recounts c s (addSigs s c.sig.toList) (afterSignal c 1) := by
  unfold Ctx.sig
  split
  next hm => exact (Recounts.addCount c s c.h.sigK 1).congr fun k w => by simp [afterSignal, hm]
  next hm => exact (Recounts.refl c s).congr fun k w => by rw [afterSignal, if_neg fun h => hm h.1]

/-- The MAQDRNs of a context that have left by every out-port. -/
abbrev drained (x : MaqCtx) : List Sig := x.drains.filterMap fun d => if d.1.isEmpty then d.2 else none

theorem settleDrains_eq (s : State) (t k : Nat) : settleDrains s t k =
    addSigs (s.updTile t fun x => x.updCtx k fun c => { c with drains := ((s.tile t).ctx k).drains.filter fun d => !d.1.isEmpty })
      (drained ((s.tile t).ctx k)) := rfl

theorem KeepsOf.settleDrains {α : Type} {π : Station → α} (he : ∀ (x : Station) (e : Vector Word 32), π { x with e := e } = π x) (s : State)
    (t k : Nat) : KeepsOf π s (settleDrains s t k) := by
  rw [settleDrains_eq]
  exact KeepsOf.trans (t := s.updTile t _) (KeepsOf.of_friezes rfl) (KeepsOf.addSigs he ..)

/-- Where the one MAQDRN that has left is the word's own, it adds the word's signal. -/
theorem Recounts.settleDrains (c : Ctx) {s : State} {t k : Nat} (h : drained ((s.tile t).ctx k) = c.sig.toList) :
    Recounts c s (settleDrains s t k) (afterSignal c 1) := by
  rw [settleDrains_eq, h]
  exact (Recounts.updTile c s t fun x => x.e_updCtx k _).trans (Recounts.addSigs c _)

/-- MAQDRN's DRAINs stand at the in-ports, and the word is the last of those its context waits for. -/
def drnBegun (c : Ctx) (k : Nat) (s : State) : State :=
  (injectAll s c.tile k .drain).updTile c.tile fun x => x.updCtx k fun q =>
    { q with drains := q.drains ++ [((s.tile c.tile).drainOuts k, c.sig)] }

/-- The effect of MAQDRN. -/
def drnEffect (c : Ctx) (k : Nat) (s : State) : State := settleDrains (drnBegun c k s) c.tile k

section
variable {s : State} {c : Ctx}

theorem maqdrn_exec {h : Hdr} {m : BitVec 2} (hi : Issues s (.maqdrn h m) h c) (howner : ((s.tile c.tile).ctx m.toNat).owner = some c.id)
    (hstate : ((s.tile c.tile).ctx m.toNat).state = .active) :
    exec (.maqdrn h m) s = .next (completeWord c (.maqdrn h m) (drnEffect c m.toNat (beforeEffect c (.maqdrn h m) s)) false) := by
  refine hi.done (body := fun c s => _) ?_
  dsimp only
  rw [(Quiet.beforeEffect ..).ctx, howner, hstate, if_neg (by simp)]
  rfl

theorem drnEffect_station {x : Station} (hx : s.station? c.id c.st = some x) (k : Nat) :
    ∃ e, (drnEffect c k s).station? c.id c.st = some { x with e := e } := by
  have hbegun : KeepsOf Station.uncounted s (drnBegun c k s) :=
    KeepsOf.trans (t := injectAll s c.tile k .drain) (injectAll_uncounted ..) (KeepsOf.of_friezes rfl)
  exact (hbegun.trans (KeepsOf.settleDrains (fun _ _ => rfl) ..)).uncounted hx

theorem drnEffect_inPort (k p : Nat) :
    ((drnEffect c k s).tile c.tile).inPort p = ((injectAll s c.tile k .drain).tile c.tile).inPort p :=
  (KeepsTile.trans (t := drnBegun c k s) (π := (·.inPort p)) (KeepsTile.updTile _ c.tile fun x => x.inPort_updCtx k _ p)
    (KeepsTile.settleDrains (fun _ _ => rfl) (fun x k g => x.inPort_updCtx k g p) ..)).tile c.tile

theorem drnBegun_ctx {k : Nat} (hk : k < 4) : ((drnBegun c k s).tile c.tile).ctx k = { (s.tile c.tile).ctx k with
    drains := ((s.tile c.tile).ctx k).drains ++ [((s.tile c.tile).drainOuts k, c.sig)] } := by
  have hinj : ((injectAll s c.tile k .drain).tile c.tile).ctx k = (s.tile c.tile).ctx k :=
    (KeepsTile.injectMark (π := (·.ctx k)) (fun x c => x.ctx_updCol c _ k) (fun x p v => x.ctx_setIn p v k) ..).tile c.tile
  rw [drnBegun, State.tile_updTile_self, Tile.ctx_updCtx _ hk, hinj]

/-- The MAQDRNs a context waits for once another has issued: those with an out-port left to leave by. -/
theorem drnEffect_drains {k : Nat} (hk : k < 4) : (((drnEffect c k s).tile c.tile).ctx k).drains =
    (((s.tile c.tile).ctx k).drains ++ [((s.tile c.tile).drainOuts k, c.sig)]).filter fun d => !d.1.isEmpty := by
  rw [drnEffect, settleDrains_eq, (Quiet.addSigs ..).ctx, State.tile_updTile_self, Tile.ctx_updCtx _ hk, drnBegun_ctx hk]

/-- A MAQDRN with no out-port to leave by is complete at once. -/
theorem drnEffect_counts {k : Nat} (hk : k < 4) (houts : (s.tile c.tile).drainOuts k = [])
    (hdrains : ∀ d ∈ ((s.tile c.tile).ctx k).drains, d.1 ≠ []) : Recounts c s (drnEffect c k s) (afterSignal c 1) := by
  have hbegun : KeepsCounts c s (drnBegun c k s) :=
    Recounts.trans (t := injectAll s c.tile k .drain) (Recounts.injectMark ..) (Recounts.updTile c _ c.tile fun x => x.e_updCtx k _)
  refine hbegun.trans (Recounts.settleDrains c ?_)
  have hnone : drained ((s.tile c.tile).ctx k) = [] := List.filterMap_eq_nil_iff.2 fun d hd => by simp [hdrains d hd]
  have hone : drained { (s.tile c.tile).ctx k with drains := [([], c.sig)] } = c.sig.toList := by
    cases h : c.sig <;> simp [drained]
  rw [drnBegun_ctx hk, houts, drained, List.filterMap_append]
  exact (congrArg₂ (· ++ ·) hnone hone).trans (List.nil_append _)

end

end Sys2Proof.Machine
end

section
/-! SUPPORT. Switches of columns and out-port words, and MAQGO: its SWEEPs and what switches at once (R101–R104, R165). -/

namespace Sys2Proof.Machine

/-! ### Switching (R102–R105) -/

/-- What of a tile a switch changes only where a column or an out-port word of its own turns: not what signals, the states of contexts
and systolic runs show. -/
structure Lasting {α : Type} (π : Tile → α) : Prop where
  counters : ∀ (x : Tile) (e : Vector Word 32), π { x with e := e } = π x
  ctx : ∀ (x : Tile) (k : Nat) {g : MaqCtx → MaqCtx}, (∀ c, (g c).maq = c.maq) → π (x.updCtx k g) = π x
  runs : ∀ (x : Tile) (r : Tab SysRun), π { x with sys := r } = π x

theorem Lasting.inPort (p : Nat) : Lasting (·.inPort p) := ⟨fun _ _ => rfl, fun x k _ _ => x.inPort_updCtx k _ p, fun _ _ => rfl⟩

theorem Lasting.outAct (o : Nat) : Lasting (·.outAct.find o) :=
  ⟨fun _ _ => rfl, fun x k _ _ => by simp only [Tile.outAct_updCtx], fun _ _ => rfl⟩

theorem Lasting.maq (k : Nat) : Lasting fun x => (x.ctx k).maq := ⟨fun _ _ => rfl, fun x j _ hg => x.maq_updCtx j hg k, fun _ _ => rfl⟩

theorem Lasting.col (j : Nat) : Lasting (·.col j) := ⟨fun _ _ => rfl, fun x k _ _ => x.col_updCtx k _ j, fun _ _ => rfl⟩

section
variable {s : State} {t c o j : Nat}

theorem switchCol_of_hasCol (h : ((s.tile t).ctx j).maq.hasCol c = true) : switchCol s t c j =
    (switchedTo ((s.updTile t fun x => x.turnCol c (some j)).updTile t fun x => x.beginSys j c) t j c).updTile t Tile.settleAll := by
  simp only [switchCol, h, if_true]

theorem switchCol_of_no_hasCol (h : ((s.tile t).ctx j).maq.hasCol c = false) :
    switchCol s t c j = (s.updTile t fun x => x.turnCol c none).updTile t Tile.settleAll := by
  simp only [switchCol, h, Bool.false_eq_true, if_false]

theorem switchOut_of_named (h : (((s.tile t).ctx j).maq.outs.find o).isSome = true) : switchOut s t o j =
    (switchedTo (s.updTile t fun x => { x with outAct := x.outAct.put o j }) t j (32 + o)).updTile t Tile.settleAll := by
  simp only [switchOut, h, if_true]

theorem switchOut_of_unnamed (h : (((s.tile t).ctx j).maq.outs.find o).isSome = false) :
    switchOut s t o j = (s.updTile t fun x => { x with outAct := x.outAct.del o }).updTile t Tile.settleAll := by
  simp only [switchOut, h, Bool.false_eq_true, if_false]

end

section
variable {α : Type} {π : Tile → α} (h : Lasting π)
include h

theorem Lasting.settleAll (x : Tile) : π x.settleAll = π x := by
  refine Tile.foldl_keeps (fun x k => ?_) _ x
  unfold Tile.settleCtx
  split
  · exact h.ctx x k fun _ => rfl
  · rfl

theorem Lasting.beginSys (x : Tile) (k c : Nat) : π (x.beginSys k c) = π x := by
  unfold Tile.beginSys
  split
  · rfl
  · split
    · exact h.runs x _
    · rfl

theorem KeepsTile.switchedTo (s : State) (t k part : Nat) : KeepsTile π s (switchedTo s t k part) := by
  have hawait : KeepsTile π s (s.updTile t fun x => x.updCtx k fun c => { c with await := c.await.erase part }) :=
    KeepsTile.updTile s t fun x => h.ctx x k fun _ => rfl
  unfold Machine.switchedTo
  dsimp only
  split
  · exact (hawait.trans (KeepsTile.updTile _ t fun x => h.ctx x k (g := fun c => { c with goSigs := [] }) fun _ => rfl)).trans
      (KeepsTile.of_quiet h.counters (Quiet.addSigs ..))
  · exact hawait

/-- A column's switch is its turn but for what lasts. -/
theorem KeepsTile.switchCol_turned (s : State) (t c target : Nat) :
    KeepsTile π (s.updTile t fun x => x.turnCol c (if ((s.tile t).ctx target).maq.hasCol c then some target else none))
      (Machine.switchCol s t c target) := by
  cases hcol : ((s.tile t).ctx target).maq.hasCol c with
  | true =>
    rw [switchCol_of_hasCol hcol, if_pos rfl]
    exact ((KeepsTile.updTile _ t fun x => h.beginSys x target c).trans (KeepsTile.switchedTo h ..)).trans
      (KeepsTile.updTile _ t h.settleAll)
  | false =>
    rw [switchCol_of_no_hasCol hcol, if_neg Bool.false_ne_true]
    exact KeepsTile.updTile _ t h.settleAll

theorem KeepsTile.switchCol {c : Nat} (hturn : ∀ (x : Tile) new, π (x.turnCol c new) = π x) (s : State) (t target : Nat) :
    KeepsTile π s (switchCol s t c target) :=
  (KeepsTile.updTile s t fun x => hturn x _).trans (KeepsTile.switchCol_turned h s t c target)

/-- An out-port word's switch is the change of its entry but for what lasts. -/
theorem KeepsTile.switchOut_turned (s : State) (t o target : Nat) :
    KeepsTile π (s.updTile t fun x => { x with outAct :=
      if (((s.tile t).ctx target).maq.outs.find o).isSome then x.outAct.put o target else x.outAct.del o })
      (Machine.switchOut s t o target) := by
  cases hout : (((s.tile t).ctx target).maq.outs.find o).isSome with
  | true =>
    rw [switchOut_of_named hout]
    exact (KeepsTile.switchedTo h ..).trans (KeepsTile.updTile _ t h.settleAll)
  | false =>
    rw [switchOut_of_unnamed hout]
    exact KeepsTile.updTile _ t h.settleAll

theorem KeepsTile.switchOut (hout : ∀ (x : Tile) (l : Tab Nat), π { x with outAct := l } = π x) (s : State) (t o target : Nat) :
    KeepsTile π s (switchOut s t o target) :=
  (KeepsTile.updTile s t fun x => hout x _).trans (KeepsTile.switchOut_turned h s t o target)

end

theorem Tile.col_turnCol (x : Tile) (c : Nat) (new : Option Nat) {j : Nat} (hj : j < 16) (hne : j ≠ c) :
    (x.turnCol c new).col j = x.col j := by
  refine Eq.trans (b := (x.updCol c _).col j) rfl ?_
  rw [Tile.col_updCol _ _ _ hj, if_neg hne.symm]

theorem Tile.active_turnCol (x : Tile) (new : Option Nat) {c : Nat} (hc : c < 16) : ((x.turnCol c new).col c).active = new := by
  refine Eq.trans (b := ((x.updCol c _).col c).active) rfl ?_
  rw [Tile.col_updCol _ _ _ hc, if_pos rfl]

theorem Tile.inPort_turnCol (x : Tile) (c : Nat) (new : Option Nat) (p : Nat) : (x.turnCol c new).inPort p = x.inPort p :=
  Eq.trans (b := (x.updCol c _).inPort p) rfl (Tile.inPort_updCol ..)

theorem Tile.ctx_turnCol (x : Tile) (c : Nat) (new : Option Nat) (k : Nat) : (x.turnCol c new).ctx k = x.ctx k :=
  Eq.trans (b := (x.updCol c _).ctx k) rfl (Tile.ctx_updCol ..)

theorem Tile.outAct_turnCol (x : Tile) (c : Nat) (new : Option Nat) : (x.turnCol c new).outAct = x.outAct :=
  Eq.trans (b := (x.updCol c _).outAct) rfl (Tile.outAct_updCol ..)

/-- A column that the context holds is active under it once it has switched (R102). -/
theorem switchCol_active (s : State) (t : Nat) {c target : Nat} (hc : c < 16) (hcol : ((s.tile t).ctx target).maq.hasCol c = true) :
    (((switchCol s t c target).tile t).col c).active = some target := by
  rw [(KeepsTile.switchCol_turned (Lasting.col c) s t c target).tile, State.tile_updTile_self, Tile.active_turnCol _ _ hc, if_pos hcol]

theorem switchOut_active (s : State) (t : Nat) {o target : Nat} (hout : (((s.tile t).ctx target).maq.outs.find o).isSome = true) :
    ((switchOut s t o target).tile t).outAct.find o = some target := by
  rw [(KeepsTile.switchOut_turned (Lasting.outAct o) s t o target).tile, State.tile_updTile_self, if_pos hout]
  exact Tab.find_put_self ..

theorem switchOut_other (s : State) (t target : Nat) {o o' : Nat} (hne : o ≠ o') : 
    KeepsTile (·.outAct.find o) s (switchOut s t o' target) := by
  refine (KeepsTile.updTile s t fun x => ?_).trans (KeepsTile.switchOut_turned (Lasting.outAct o) s t o' target)
  dsimp only
  split
  · exact Tab.find_put_ne _ _ hne
  · exact Tab.find_del_ne _ hne

/-! ### What switches as soon as MAQGO's SWEEPs are injected (R102) -/

/-- A column that switches at once: bare under its old context, or idle and of the new one, whose maquette is m. -/
def goCol (t j : Nat) (bare : List Nat) (m : Maq) (s : State) (c : Nat) : State :=
  if bare.contains c ∨ (m.hasCol c ∧ ((s.tile t).activeOf c).isNone) then switchCol s t c j else s

/-- An out-port word that switches at once: an idle one. -/
def goOut (t j : Nat) (s : State) (o : Nat) : State := if ((s.tile t).outAct.find o).isNone then switchOut s t o j else s

section
variable {α : Type} {π : Tile → α} (h : Lasting π)
include h

theorem KeepsTile.goCol (t j : Nat) (bare : List Nat) (m : Maq) {c : Nat} (hturn : ∀ (x : Tile) new, π (x.turnCol c new) = π x) (s : State) :
    KeepsTile π s (goCol t j bare m s c) := by
  unfold Machine.goCol
  split
  · exact KeepsTile.switchCol h hturn s t j
  · exact KeepsTile.refl s

theorem KeepsTile.goOut (hout : ∀ (x : Tile) (l : Tab Nat), π { x with outAct := l } = π x) (t j : Nat) (s : State) (o : Nat) :
    KeepsTile π s (goOut t j s o) := by
  unfold Machine.goOut
  split
  · exact KeepsTile.switchOut h hout s t o j
  · exact KeepsTile.refl s

/-- The out-port words that switch leave what does not show them. -/
theorem KeepsTile.goOuts (hout : ∀ (x : Tile) (l : Tab Nat), π { x with outAct := l } = π x)
    (t j : Nat) (os : List Nat) (s : State) : KeepsTile π s (os.foldl (Machine.goOut t j) s) :=
  KeepsTile.foldl (fun s o => KeepsTile.goOut h hout t j s o) os s

/-- The columns that switch leave what shows none of them. -/
theorem KeepsTile.goCols (hturn : ∀ (x : Tile) c new, π (x.turnCol c new) = π x)
    (t j : Nat) (bare : List Nat) (m : Maq) (cs : List Nat) (s : State) : KeepsTile π s (cs.foldl (Machine.goCol t j bare m) s) :=
  KeepsTile.foldl (fun s c => KeepsTile.goCol h t j bare m (fun x new => hturn x c new) s) cs s

end

theorem goCol_maq (t j : Nat) (bare : List Nat) (m : Maq) (s : State) (c k : Nat) :
    (((goCol t j bare m s c).tile t).ctx k).maq = ((s.tile t).ctx k).maq :=
  (KeepsTile.goCol (Lasting.maq k) t j bare m (fun x new => by rw [Tile.ctx_turnCol]) s).tile t

section
variable {t j c : Nat} {bare : List Nat} {m : Maq}

theorem goCol_other (s : State) {a : Nat} (hc : c < 16) (ha : c ≠ a) : ((goCol t j bare m s a).tile t).col c = (s.tile t).col c :=
  (KeepsTile.goCol (Lasting.col c) t j bare m (fun x new => x.col_turnCol a new hc ha) s).tile t

/-- An idle column of the new context is active under it in the end. -/
theorem goCols_active (hc : c < 16) {cs : List Nat} (s : State)
    (hin : (c ∈ cs ∧ (s.tile t).activeOf c = none) ∨ (s.tile t).activeOf c = some j) (hm : ((s.tile t).ctx j).maq = m)
    (hcol : m.hasCol c = true) : ((cs.foldl (goCol t j bare m) s).tile t).activeOf c = some j := by
  induction cs generalizing s with
  | nil => exact hin.resolve_left fun h => List.not_mem_nil h.1
  | cons a cs ih =>
    refine ih (goCol t j bare m s a) ?_ ((goCol_maq ..).trans hm)
    by_cases hca : c = a
    · subst hca
      right
      unfold goCol
      split
      next => rw [Tile.activeOf_eq]; exact switchCol_active s t hc (by rw [hm]; exact hcol)
      next hdue => exact hin.resolve_left fun h => hdue (.inr ⟨hcol, by rw [h.2]; rfl⟩)
    · rw [Tile.activeOf_eq, goCol_other s hc hca, ← Tile.activeOf_eq]
      exact hin.imp_left fun h => ⟨(List.mem_cons.1 h.1).resolve_left hca, h.2⟩

/-- A column at work under another context stays as it is. -/
theorem goCols_running (hc : c < 16) (hbare : c ∉ bare) (cs : List Nat) (s : State) (hactive : (s.tile t).activeOf c ≠ none) :
    ((cs.foldl (goCol t j bare m) s).tile t).col c = (s.tile t).col c := by
  induction cs generalizing s with
  | nil => rfl
  | cons a cs ih =>
    have hstep : ((goCol t j bare m s a).tile t).col c = (s.tile t).col c := by
      by_cases hca : c = a
      · subst hca
        rw [goCol, if_neg]
        rintro (hb | ⟨-, hnone⟩)
        · exact hbare (List.contains_iff_mem.1 hb)
        · exact hactive (Option.isNone_iff_eq_none.1 hnone)
      · exact goCol_other s hc hca
    rw [List.foldl_cons, ih _ (by rwa [Tile.activeOf_eq, hstep, ← Tile.activeOf_eq]), hstep]

/-- An idle out-port word of the new context is active under it in the end. -/
theorem goOuts_active {o : Nat} {os : List Nat} (s : State)
    (hin : (o ∈ os ∧ (s.tile t).outAct.find o = none) ∨ (s.tile t).outAct.find o = some j)
    (hout : (((s.tile t).ctx j).maq.outs.find o).isSome = true) : ((os.foldl (goOut t j) s).tile t).outAct.find o = some j := by
  induction os generalizing s with
  | nil => exact hin.resolve_left fun h => List.not_mem_nil h.1
  | cons a os ih =>
    have hmaq : (((goOut t j s a).tile t).ctx j).maq = ((s.tile t).ctx j).maq :=
      (KeepsTile.goOut (Lasting.maq j) (fun _ _ => rfl) t j s a).tile t
    refine ih (goOut t j s a) ?_ (by rw [hmaq]; exact hout)
    by_cases hoa : o = a
    · subst hoa
      right
      unfold goOut
      split
      next => exact switchOut_active s t hout
      next hdue => exact hin.resolve_left fun h => hdue (by rw [h.2]; rfl)
    · have hother : ((goOut t j s a).tile t).outAct.find o = (s.tile t).outAct.find o := by
        unfold goOut
        split
        · exact (switchOut_other s t j hoa).tile t
        · rfl
      rw [hother]
      exact hin.imp_left fun h => ⟨(List.mem_cons.1 h.1).resolve_left hoa, h.2⟩

end

/-! ### What a switch leaves of the stations -/

section
variable {α : Type} {π : Station → α} (he : ∀ (x : Station) (e : Vector Word 32), π { x with e := e } = π x)
include he

theorem KeepsOf.switchedTo (s : State) (t k part : Nat) : KeepsOf π s (switchedTo s t k part) := by
  unfold Machine.switchedTo
  dsimp only
  split
  · exact KeepsOf.trans (t := (s.updTile t _).updTile t _) (KeepsOf.of_friezes rfl) (KeepsOf.addSigs he ..)
  · exact KeepsOf.of_friezes rfl

theorem KeepsOf.switchCol (s : State) (t c target : Nat) : KeepsOf π s (switchCol s t c target) := by
  cases h : ((s.tile t).ctx target).maq.hasCol c with
  | true =>
    rw [switchCol_of_hasCol h]
    exact KeepsOf.trans (t := Machine.switchedTo _ t target c)
      (KeepsOf.trans (t := (s.updTile t _).updTile t _) (KeepsOf.of_friezes rfl) (KeepsOf.switchedTo he ..)) (KeepsOf.of_friezes rfl)
  | false =>
    rw [switchCol_of_no_hasCol h]
    exact KeepsOf.of_friezes rfl

theorem KeepsOf.switchOut (s : State) (t o target : Nat) : KeepsOf π s (switchOut s t o target) := by
  cases h : (((s.tile t).ctx target).maq.outs.find o).isSome with
  | true =>
    rw [switchOut_of_named h]
    exact KeepsOf.trans (t := Machine.switchedTo _ t target (32 + o))
      (KeepsOf.trans (t := s.updTile t _) (KeepsOf.of_friezes rfl) (KeepsOf.switchedTo he ..)) (KeepsOf.of_friezes rfl)
  | false =>
    rw [switchOut_of_unnamed h]
    exact KeepsOf.of_friezes rfl

end

/-! ### Which columns a marker is given to (R99) -/

/-- A list done over when only one element of it acts on what π shows: that element acts once. -/
theorem foldl_acts_once {α β γ : Type} [DecidableEq α] {g : β → α → β} {π : β → γ} {f : γ → γ} {P : β → Prop} {a : α}
    (hP : ∀ x b, P x → P (g x b)) (hother : ∀ x b, P x → b ≠ a → π (g x b) = π x) (hself : ∀ x, P x → π (g x a) = f (π x))
    {l : List α} (hnd : l.Nodup) {x : β} (hx : P x) : π (l.foldl g x) = if a ∈ l then f (π x) else π x := by
  induction l generalizing x with
  | nil => rfl
  | cons b l ih =>
    obtain ⟨hb, hnd'⟩ := List.nodup_cons.1 hnd
    rw [List.foldl_cons, ih hnd' (hP x b hx)]
    by_cases hba : b = a
    · subst hba
      rw [if_neg hb, if_pos List.mem_cons_self, hself x hx]
    · simp [hother x b hx hba, Ne.symm hba]

/-- The marker a column holds behind those it held. -/
def Col.marked (mk : Tok) (q : Col) : Col := { q with injected := q.injected ++ [mk] }

theorem Tile.activeOf_marked (x : Tile) (c : Nat) (mk : Tok) (j : Nat) : (x.updCol c (Col.marked mk)).activeOf j = x.activeOf j := by
  by_cases hj : j < 16
  · rw [Tile.activeOf_eq, Tile.activeOf_eq, Tile.col_updCol _ _ _ hj]
    split <;> rfl
  · rw [Tile.activeOf_of_le _ (by omega), Tile.activeOf_of_le _ (by omega)]

/-- Column c is active under context k, whose maquette is m. -/
def Tile.Runs (c k : Nat) (m : Maq) (x : Tile) : Prop := x.activeOf c = some k ∧ (x.ctx k).maq = m

section
variable {mk : Tok} {c k : Nat} {m : Maq}

theorem Tile.Runs.giveMark (x : Tile) (i b : Nat) (h : x.Runs c k m) : (giveMark i mk x b).Runs c k m := by
  unfold Machine.giveMark
  split
  · exact ⟨(x.activeOf_marked b mk c).trans h.1, by rw [Tile.ctx_updCol]; exact h.2⟩
  · exact h

theorem Tile.Runs.giveMarks (i : Nat) (cs : List Nat) {x : Tile} (h : x.Runs c k m) : (cs.foldl (Machine.giveMark i mk) x).Runs c k m := by
  induction cs generalizing x with
  | nil => exact h
  | cons b cs ih => exact ih (h.giveMark x i b)

theorem giveMark_col_ne (x : Tile) (i : Nat) {b : Nat} (hc : c < 16) (hb : b ≠ c) : (giveMark i mk x b).col c = x.col c := by
  unfold giveMark
  split
  · rw [Tile.col_updCol _ _ _ hc, if_neg hb]
  · rfl

theorem giveMark_other (x : Tile) {i : Nat} (hi : i ≠ k) (h : x.Runs c k m) : giveMark i mk x c = x := by
  unfold giveMark
  rw [if_neg fun hc => hi (Option.some.inj (hc.1.symm.trans h.1))]

/-- The markers of another context pass a column by. -/
theorem giveMarks_other (cs : List Nat) {x : Tile} (hc : c < 16) {i : Nat} (hi : i ≠ k) (h : x.Runs c k m) :
    (cs.foldl (giveMark i mk) x).col c = x.col c := by
  induction cs generalizing x with
  | nil => rfl
  | cons b cs ih =>
    rw [List.foldl_cons, ih (h.giveMark x i b)]
    by_cases hb : b = c
    · rw [hb, giveMark_other x hi h]
    · exact giveMark_col_ne x i hc hb

variable (hops : m.colOps c ≠ []) (hforward : ∀ q ∈ m.colOps c, q.2.hasForward c = false)
include hops hforward

theorem giveMark_self (x : Tile) (hc : c < 16) (h : x.Runs c k m) : (giveMark k mk x c).col c = (x.col c).marked mk := by
  have hany : ((m.colOps c).any fun q => q.2.hasForward c) = false := List.any_eq_false.2 fun q hq => by simp [hforward q hq]
  unfold giveMark
  rw [if_pos ⟨h.1, by simp [h.2, hops], by rw [h.2, hany]; rfl⟩, Tile.col_updCol _ _ _ hc, if_pos rfl]
  rfl

/-- A column of operators without a forward input takes the marker of its own context. -/
theorem giveMarks_self {cs : List Nat} (hnd : cs.Nodup) (hmem : c ∈ cs) (hc : c < 16) {x : Tile} (h : x.Runs c k m) :
    (cs.foldl (giveMark k mk) x).col c = (x.col c).marked mk :=
  (foldl_acts_once (π := (·.col c)) (f := (·.marked mk)) (P := Tile.Runs c k m) (fun x b => Tile.Runs.giveMark x k b)
    (fun x _ _ hb => giveMark_col_ne x k hc hb) (fun x hx => giveMark_self hops hforward x hc hx) hnd h).trans (if_pos hmem)

/-- Where several contexts give a marker, each to columns of its own, a column takes that of the context it runs under. -/
theorem giveMarks_each {ks : List Nat} (hnd : ks.Nodup) (hk : k ∈ ks) {cols : Nat → List Nat} (hcols : ∀ i, (cols i).Nodup)
    (hmem : c ∈ cols k) (hc : c < 16) {x : Tile} (h : x.Runs c k m) :
    (ks.foldl (fun x i => (cols i).foldl (giveMark i mk) x) x).col c = (x.col c).marked mk :=
  (foldl_acts_once (π := (·.col c)) (f := (·.marked mk)) (P := Tile.Runs c k m) (fun _ i hx => hx.giveMarks i (cols i))
    (fun _ i hx hi => giveMarks_other (cols i) hc hi hx)
    (fun _ hx => giveMarks_self hops hforward (hcols k) hmem hc hx) hnd h).trans (if_pos hk)

end

/-! ### The SWEEP of MAQGO (R102, R165) -/

theorem injectMark_columns (s : State) (t k : Nat) (cols : List Nat) (mk : Tok) :
    injectMark s t k [] cols mk = s.updTile t fun x => cols.foldl (giveMark k mk) x := rfl

theorem tile_foldl_injectMark (t : Nat) (cols : Nat → List Nat) (mk : Tok) (ks : List Nat) (s : State) :
    (ks.foldl (fun s k => injectMark s t k [] (cols k) mk) s).tile t =
      ks.foldl (fun x k => (cols k).foldl (giveMark k mk) x) (s.tile t) := by
  induction ks generalizing s with
  | nil => rfl
  | cons k ks ih => rw [List.foldl_cons, List.foldl_cons, ih, injectMark_columns, State.tile_updTile_self]

/-- The in-ports that take a SWEEP from some old contexts. -/
abbrev Tile.sweptPorts (x : Tile) (m : Maq) (ks : List Nat) : List Nat := (ks.flatMap fun k => x.sweepPorts m k).dedup

theorem sweepFrom_eq (s : State) (t j : Nat) (m : Maq) (ks : List Nat) : sweepFrom s t j m ks =
    ks.foldl (fun s' k => injectMark s' t k [] ((s.tile t).oldCols k m) (.sweep j))
      (injectMark s t j ((s.tile t).sweptPorts m ks) [] (.sweep j)) := rfl

section
variable {α : Type} {π : Tile → α}

theorem KeepsTile.sweepFrom (hin : ∀ (x : Tile) p v, π (x.setIn p v) = π x)
    {j : Nat} (hcol : ∀ (x : Tile) c, π (x.updCol c (Col.marked (.sweep j))) = π x) (s : State) (t : Nat) (m : Maq) (ks : List Nat) :
    KeepsTile π s (sweepFrom s t j m ks) := by
  rw [sweepFrom_eq]
  exact (KeepsTile.injectMark hcol hin ..).trans (KeepsTile.foldl (fun s k => KeepsTile.injectMark hcol hin ..) ks _)

end

theorem sweepFrom_inPort (s : State) (t j : Nat) (m : Maq) (ks : List Nat) {p : Nat} (hp : p < 32) :
    ((sweepFrom s t j m ks).tile t).inPort p =
      if p ∈ (s.tile t).sweptPorts m ks then ((s.tile t).inPort p).inject p (.sweep j) else (s.tile t).inPort p := by
  have hcols : ∀ s' : State, KeepsTile (·.inPort p) s'
      (ks.foldl (fun s' k => injectMark s' t k [] ((s.tile t).oldCols k m) (.sweep j)) s') := fun s' =>
    KeepsTile.foldl (fun s' k => KeepsTile.updTile s' t fun x => Tile.foldl_giveMark (fun x c => Tile.inPort_updCol ..) k _ x) ks s'
  rw [sweepFrom_eq, (hcols _).tile, injectMark_inPort _ _ _ (List.nodup_dedup _) _ _ hp]
  rfl

theorem Tile.col_setIn (x : Tile) (p : Nat) (v : InPort) (j : Nat) : (x.setIn p v).col j = x.col j := by
  unfold Tile.setIn
  split <;> rfl

/-- A column of an old context whose operators have no forward input takes the SWEEP once. -/
theorem sweepFrom_col (s : State) (t j : Nat) {m old : Maq} {ks : List Nat} (hnd : ks.Nodup) {k c : Nat} (hk : k ∈ ks) (hc : c < 16)
    (hruns : (s.tile t).Runs c k old) (hcol : m.hasCol c = true) (hops : old.colOps c ≠ [])
    (hforward : ∀ q ∈ old.colOps c, q.2.hasForward c = false) :
    ((sweepFrom s t j m ks).tile t).col c = ((s.tile t).col c).marked (.sweep j) := by
  have hmem : c ∈ (s.tile t).oldCols k m := List.mem_filter.2 ⟨mem_colsOn.2 ⟨hc, hruns.1⟩, hcol⟩
  have hcolnd : ∀ i, ((s.tile t).oldCols i m).Nodup := fun i => (List.nodup_range.filter _).filter _
  have hports : ∀ {α : Type} {π : Tile → α}, (∀ (x : Tile) p v, π (x.setIn p v) = π x) →
      KeepsTile π s (injectMark s t j ((s.tile t).sweptPorts m ks) [] (.sweep j)) := fun hin =>
    (KeepsTile.injectPorts hin ..).trans (KeepsTile.updTile _ t fun _ => rfl)
  have hcolumn := (hports (π := (·.col c)) fun x p v => x.col_setIn p v c).tile t
  have hruns' : ((injectMark s t j ((s.tile t).sweptPorts m ks) [] (.sweep j)).tile t).Runs c k old := by
    rw [Tile.Runs, Tile.activeOf_eq, hcolumn, (hports (π := (·.ctx k)) fun x p v => x.ctx_setIn p v k).tile, ← Tile.activeOf_eq]
    exact hruns
  rw [sweepFrom_eq, tile_foldl_injectMark, giveMarks_each hops hforward hnd hk hcolnd hmem hc hruns', hcolumn]

/-! ### MAQGO (R101–R104, R165) -/

/-- A context whose MAQGO has begun: it waits for the switch of its parts. -/
def MaqCtx.going (parts : List Nat) (sig : Option Sig) (c : MaqCtx) : MaqCtx :=
  { c with
    state := .active
    goSigs := c.goSigs ++ sig.toList
    await := parts
    drains := [] }

/-- The effect of MAQGO on its own context. -/
def goBegun (t j : Nat) (sig : Option Sig) (s : State) : State :=
  s.updTile t fun x => { x.updCtx j (.going ((s.tile t).ctx j).maq.parts sig) with
    links := x.links.filter fun (k, _) => k / 2048 != j
    dqs := x.dqs.filter fun (k, _) => k / 64 != j }

/-- The other contexts of the owner of a context. -/
def Tile.others (x : Tile) (j : Nat) : List Nat := (x.ctxsOf (((x.ctx j).owner).getD 0)).filter (· != j)

/-- The columns of the other contexts that have parked as soon as their SWEEP is injected. -/
def Tile.bares (x : Tile) (j : Nat) : List Nat := (x.others j).flatMap fun k => x.bareCols k (x.ctx j).maq

/-- The SWEEPs of MAQGO. -/
def goSwept (t j : Nat) (s : State) : State := sweepFrom s t j ((s.tile t).ctx j).maq ((s.tile t).others j)

/-- What switches at once has switched. -/
def goSwitched (t j : Nat) (s : State) : State :=
  ((s.tile t).ctx j).maq.outs.keys.foldl (goOut t j)
    ((List.range 16).foldl (goCol t j ((s.tile t).bares j) ((s.tile t).ctx j).maq) (goSwept t j s))

/-- Two tiles have the same columns, out-port words, in-ports, maquettes and owners of contexts. -/
structure Tile.SameArray (x y : Tile) : Prop where
  col : ∀ j, y.col j = x.col j
  inPort : ∀ p, y.inPort p = x.inPort p
  outAct : y.outAct = x.outAct
  maq : ∀ k, (y.ctx k).maq = (x.ctx k).maq
  owner : ∀ k, (y.ctx k).owner = (x.ctx k).owner

theorem Tile.SameArray.trans {x y z : Tile} (a : x.SameArray y) (b : y.SameArray z) : x.SameArray z where
  col j := (b.col j).trans (a.col j)
  inPort p := (b.inPort p).trans (a.inPort p)
  outAct := b.outAct.trans a.outAct
  maq k := (b.maq k).trans (a.maq k)
  owner k := (b.owner k).trans (a.owner k)

theorem Tile.SameArray.activeOf {x y : Tile} (h : x.SameArray y) (j : Nat) : y.activeOf j = x.activeOf j := by
  rw [Tile.activeOf_eq, Tile.activeOf_eq, h.col]

theorem Tile.SameArray.activeReads {x y : Tile} (h : x.SameArray y) (k p : Nat) (cols outs : Nat → Prop) :
    Slice0.activeReads y k p cols outs ↔ Slice0.activeReads x k p cols outs := by
  simp only [Slice0.activeReads, h.activeOf, h.maq, h.outAct]

theorem Quiet.sameArray {s t : State} (q : Quiet s t) (u : Nat) : (s.tile u).SameArray (t.tile u) := by
  obtain ⟨e, he⟩ := q.tiles u
  rw [he]
  exact ⟨fun _ => rfl, fun _ => rfl, rfl, fun _ => rfl, fun _ => rfl⟩

theorem goBegun_sameArray (t j : Nat) (sig : Option Sig) (s : State) : (s.tile t).SameArray ((goBegun t j sig s).tile t) := by
  rw [goBegun, State.tile_updTile_self]
  refine ⟨fun c => Tile.col_updCtx _ j _ c, fun p => Tile.inPort_updCtx _ j _ p, Tile.outAct_updCtx _ j _, fun k => ?_, fun k => ?_⟩
  · exact (s.tile t).maq_updCtx j (g := .going _ sig) (fun _ => rfl) k
  · refine Eq.trans (b := (((s.tile t).updCtx j (.going ((s.tile t).ctx j).maq.parts sig)).ctx k).owner) rfl ?_
    rw [Tile.ctx_updCtx_eq]
    split <;> rfl

theorem goCtx_eq (s : State) (t j : Nat) (sig : Option Sig) : goCtx s t j sig = goSwitched t j (goBegun t j sig s) := by
  rw [goSwitched, goSwept, Tile.bares, (goBegun_sameArray t j sig s).maq]
  rfl

/-! ### What MAQGO leaves of a tile -/

theorem Tab.mem_keys_of_find {α : Type} {t : Tab α} {k : Nat} (h : (t.find k).isSome = true) : k ∈ t.keys := by
  obtain ⟨v, hv⟩ := Option.isSome_iff_exists.1 h
  exact List.mem_map.2 ⟨(k, v), Tab.mem_of_find hv, rfl⟩

theorem Tile.mem_others {x : Tile} {j id : Nat} (h : (x.ctx j).owner = some id) {k : Nat} :
    k ∈ x.others j ↔ k < 4 ∧ k ≠ j ∧ (x.ctx k).owner = some id := by
  rw [Tile.others, h, Option.getD_some, List.mem_filter, mem_ctxsOf, bne_iff_ne]
  tauto

theorem Tile.others_nodup (x : Tile) (j : Nat) : (x.others j).Nodup := (List.nodup_range.filter _).filter _

theorem Tile.mem_sweepPorts {x : Tile} {m : Maq} {k p : Nat} : p ∈ x.sweepPorts m k ↔
    Slice0.activeReads x k p (fun j => m.hasCol j = true) fun o => (m.outs.find o).isSome = true := by
  simp only [Tile.sweepPorts, List.mem_append, mem_readPorts, mem_directPorts_of, Tile.oldCols, List.mem_filter, mem_colsOn,
    Slice0.activeReads, and_assoc]

theorem Tile.mem_bares {x : Tile} {c j k : Nat} (h : c ∈ x.bares j) (hk : x.activeOf c = some k) : (x.ctx k).maq.colOps c = [] := by
  obtain ⟨i, -, hc⟩ := List.mem_flatMap.1 h
  obtain ⟨hon, hbare⟩ := List.mem_filter.1 hc
  obtain rfl : i = k := Option.some.inj ((mem_colsOn.1 hon).2.symm.trans hk)
  exact List.isEmpty_iff.1 (Bool.and_eq_true_iff.1 hbare).1

section
variable {s : State} {t j : Nat}

theorem goSwept_activeOf (c : Nat) : ((goSwept t j s).tile t).activeOf c = (s.tile t).activeOf c :=
  (KeepsTile.sweepFrom (π := (·.activeOf c)) (fun x p v => by rw [Tile.activeOf_eq, Tile.activeOf_eq, Tile.col_setIn])
    (fun x i => x.activeOf_marked i _ c) ..).tile t

theorem goSwept_ctx (k : Nat) : ((goSwept t j s).tile t).ctx k = (s.tile t).ctx k :=
  (KeepsTile.sweepFrom (π := (·.ctx k)) (fun x p v => x.ctx_setIn p v k) (fun x i => x.ctx_updCol i _ k) ..).tile t

theorem goSwept_outAct : ((goSwept t j s).tile t).outAct = (s.tile t).outAct :=
  (KeepsTile.sweepFrom (π := (·.outAct)) (fun x p v => by unfold Tile.setIn; split <;> rfl) (fun x i => x.outAct_updCol i _) ..).tile t

/-- What is idle in the columns of the new context switches at once (R102, R165). -/
theorem goSwitched_activeOf {c : Nat} (hc : c < 16) (hcol : ((s.tile t).ctx j).maq.hasCol c = true) (hidle : (s.tile t).activeOf c = none) :
    ((goSwitched t j s).tile t).activeOf c = some j := by
  rw [goSwitched, Tile.activeOf_eq, (KeepsTile.goOuts (Lasting.col c) (fun _ _ => rfl) ..).tile, ← Tile.activeOf_eq]
  exact goCols_active hc _ (.inl ⟨List.mem_range.2 hc, (goSwept_activeOf c).trans hidle⟩) (congrArg MaqCtx.maq (goSwept_ctx j)) hcol

/-- The idle out-port words of the new context switch at once. -/
theorem goSwitched_outAct {o : Nat} (hout : (((s.tile t).ctx j).maq.outs.find o).isSome = true) (hidle : (s.tile t).outAct.find o = none) :
    ((goSwitched t j s).tile t).outAct.find o = some j := by
  refine goOuts_active _ (.inl ⟨Tab.mem_keys_of_find hout, ?_⟩) ?_
  · rw [(KeepsTile.goCols (Lasting.outAct o) (fun x c new => by rw [Tile.outAct_turnCol]) ..).tile, goSwept_outAct]
    exact hidle
  · rw [(KeepsTile.goCols (Lasting.maq j) (fun x c new => by rw [Tile.ctx_turnCol]) ..).tile, goSwept_ctx]
    exact hout

theorem goSwitched_inPort {p : Nat} (hp : p < 32) : ((goSwitched t j s).tile t).inPort p =
    if p ∈ (s.tile t).sweptPorts ((s.tile t).ctx j).maq ((s.tile t).others j) then ((s.tile t).inPort p).inject p (.sweep j)
    else (s.tile t).inPort p := by
  rw [goSwitched, (KeepsTile.goOuts (Lasting.inPort p) (fun _ _ => rfl) ..).tile,
    (KeepsTile.goCols (Lasting.inPort p) (fun x c new => x.inPort_turnCol c new p) ..).tile]
  exact sweepFrom_inPort s t j _ _ hp

/-- A column with operators under another context stays until it takes its SWEEP (R102, R103). -/
theorem goSwitched_col {c k : Nat} (hc : c < 16) (hactive : (s.tile t).activeOf c = some k) (hops : ((s.tile t).ctx k).maq.colOps c ≠ []) :
    ((goSwitched t j s).tile t).col c = ((goSwept t j s).tile t).col c := by
  rw [goSwitched, (KeepsTile.goOuts (Lasting.col c) (fun _ _ => rfl) ..).tile]
  refine goCols_running hc (fun hb => hops (Tile.mem_bares hb hactive)) _ _ ?_
  rw [goSwept_activeOf, hactive]
  exact Option.some_ne_none k

theorem goSwitched_uncounted : KeepsOf Station.uncounted s (goSwitched t j s) := by
  have hswept : KeepsOf Station.uncounted s (goSwept t j s) :=
    KeepsOf.trans (t := injectMark s t j ((s.tile t).sweptPorts _ _) [] (.sweep j)) (injectMark_uncounted ..)
      (KeepsOf.foldl (fun s k => injectMark_uncounted s t k [] _ _) _ _)
  have hcol : ∀ (m : Maq) (bare : List Nat) (s : State) c, KeepsOf Station.uncounted s (goCol t j bare m s c) := fun m bare s c => by
    unfold goCol
    split
    · exact KeepsOf.switchCol (fun _ _ => rfl) ..
    · exact KeepsOf.refl s
  have hout : ∀ (s : State) o, KeepsOf Station.uncounted s (goOut t j s o) := fun s o => by
    unfold goOut
    split
    · exact KeepsOf.switchOut (fun _ _ => rfl) ..
    · exact KeepsOf.refl s
  exact (hswept.trans (KeepsOf.foldl (hcol _ _) _ _)).trans (KeepsOf.foldl hout _ _)

end

/-! ### Markers as the statement says them -/

theorem Tile.SameArray.oldReads {s s' : State} {c : Ctx} (h : (s.tile c.tile).SameArray (s'.tile c.tile)) (j p : Nat) :
    Slice0.oldReads s' c j p ↔ Slice0.oldReads s c j p := by
  simp only [Slice0.oldReads, h.activeReads, h.maq, h.owner]

/-- Markers injected between two steps that leave the array are injected by the three together. -/
theorem marks_within {s s' t' t : State} {u : Nat} {reads reads' : Nat → Prop} {w : RawBeat} (hs : (s.tile u).SameArray (s'.tile u))
    (ht : ∀ p, (t.tile u).inPort p = (t'.tile u).inPort p) (hreads : ∀ p, reads' p ↔ reads p) (h : Slice0.Marks s' t' u reads' w) :
    Slice0.Marks s t u reads w := by
  intro p hp
  obtain ⟨hin, hout⟩ := h p hp
  rw [hs.inPort, hreads] at hin hout
  rw [ht]
  exact ⟨hin, hout⟩

/-- One SWEEP stands at every in-port that the old configuration reads (R102). -/
theorem goSwitched_marks {s : State} {c : Ctx} {j : Nat} (howner : ((s.tile c.tile).ctx j).owner = some c.id) :
    Slice0.Marks s (goSwitched c.tile j s) c.tile (Slice0.oldReads s c j) (.sweep j) := by
  intro p hp
  have hmem : p ∈ (s.tile c.tile).sweptPorts ((s.tile c.tile).ctx j).maq ((s.tile c.tile).others j) ↔ Slice0.oldReads s c j p := by
    simp only [List.mem_dedup, List.mem_flatMap, Tile.mem_others howner, Tile.mem_sweepPorts, Slice0.oldReads, and_assoc]
  rw [goSwitched_inPort hp]
  refine ⟨fun hr => ?_, fun hr => if_neg (hmem.not.2 hr)⟩
  rw [if_pos (hmem.2 hr)]
  exact InPort.inject_injects ..

theorem drnEffect_marks (s : State) (c : Ctx) (k : Nat) : Slice0.Marks s (drnEffect c k s) c.tile
    (fun p => Slice0.activeReads (s.tile c.tile) k p (fun _ => True) fun _ => True) (.ctrl 1 0) :=
  marks_within (t' := injectAll s c.tile k .drain) ⟨fun _ => rfl, fun _ => rfl, rfl, fun _ => rfl, fun _ => rfl⟩ (drnEffect_inPort k)
    (fun _ => Iff.rfl) (injectAll_marks s c.tile k .drain)

end Sys2Proof.Machine
end

section
/-! The words of array control: MAQLD, MAQGO, MAQDRN, CHBIND and SRSEED (R69, R101, R105, R164–R166, R169, R170). -/

namespace Sys2Proof.Machine

theorem Quiet.drainOuts {s t : State} (q : Quiet s t) (u k : Nat) : (t.tile u).drainOuts k = (s.tile u).drainOuts k := by
  rw [Tile.drainOuts, Tile.drainOuts, q.ctx]

section
variable {s : State} {h : Hdr} {c : Ctx}

theorem maqgo_exec {m : BitVec 2} (hi : Issues s (.maqgo h m) h c) (howner : ((s.tile c.tile).ctx m.toNat).owner = some c.id)
    (hstate : ((s.tile c.tile).ctx m.toNat).state = .loaded) :
    exec (.maqgo h m) s = .next (completeWord c (.maqgo h m)
      (goSwitched c.tile m.toNat (goBegun c.tile m.toNat c.sig (beforeEffect c (.maqgo h m) s))) false) := by
  refine hi.done (body := fun c s => _) ?_
  rw [(Quiet.beforeEffect ..).ctx, howner, hstate, if_neg (by simp), goCtx_eq]

/-- A column of an old context whose operators have no forward input takes the SWEEP of its MAQGO. -/
theorem goSwept_col {t j : Nat} (howner : ((s.tile t).ctx j).owner = some c.id) {i k : Nat} (hi : i < 16) (hk : k < 4) (hkj : k ≠ j)
    (hactive : (s.tile t).activeOf i = some k) (hops : ((s.tile t).ctx k).maq.colOps i ≠ [])
    (hold : ((s.tile t).ctx k).owner = some c.id) (hcol : ((s.tile t).ctx j).maq.hasCol i = true)
    (hforward : ∀ q ∈ ((s.tile t).ctx k).maq.colOps i, q.2.hasForward i = false) :
    ((goSwept t j s).tile t).col i = ((s.tile t).col i).marked (.sweep j) :=
  sweepFrom_col s t j (Tile.others_nodup ..) ((Tile.mem_others howner).2 ⟨hk, hkj, hold⟩) hi ⟨hactive, rfl⟩ hcol hops hforward

theorem begin_ctx (m : BitVec 2) (b : Reg) (q : MaqCtx) (form : Dword) : ((execMaqld.begin_ m b c s q form).tile c.tile).ctx m.toNat =
    { (s.tile c.tile).ctx m.toNat with
      state := .loading
      owner := some c.id
      load := some ⟨form, c.g b, c.id, c.st, c.h.sigMode, c.h.sigK, s.serial, c.x.waitsFor clEN false, q.state == .loaded⟩ } := by
  refine Eq.trans (b := ((s.updTile c.tile fun t => t.updCtx m.toNat _).tile c.tile).ctx m.toNat) rfl ?_
  rw [State.tile_updTile_self, Tile.ctx_updCtx _ m.isLt]

/-- The counters of a MAQDRN that is complete at once. -/
theorem maqdrn_counter {m : BitVec 2} (hi : Issues s (.maqdrn h m) h c) (houts : (s.tile c.tile).drainOuts m.toNat = [])
    (hdrains : ∀ d ∈ ((s.tile c.tile).ctx m.toNat).drains, d.1 ≠ []) (k : BitVec 6) :
    (completeWord c (.maqdrn h m) (drnEffect c m.toNat (beforeEffect c (.maqdrn h m) s)) false).counter c.id c.st k =
      Slice0.counted c (.maqdrn h m) (s.counter c.id c.st k) k := by
  have hq := Quiet.beforeEffect c (.maqdrn h m) s
  have hdrn := drnEffect_counts (s := beforeEffect c (.maqdrn h m) s) (c := c) m.isLt (by rwa [hq.drainOuts]) (by rwa [hq.ctx])
  have hall := ((Recounts.beforeEffect c (.maqdrn h m) s hi.on).trans hdrn).trans (Recounts.advance c _)
  exact hall.counter (by rw [hi.station]; rfl) k

end

end Sys2Proof.Machine

namespace Sys2Proof.Slice0
open Machine

/-- Settles O28: every tile operation of an array word is followed through the ports, columns, contexts and stations that its row names.
MAQGO's
switches leave the in-ports and every column at work under another context, so what its SWEEPs did stands. -/
theorem arrayWords : Obligations.ArrayWords := by
  unfold Obligations.ArrayWords
  intro i r s c hr hi hp
  obtain ⟨e, hst⟩ := hi.before
  have hq := Quiet.beforeEffect c i s
  unfold arrayRow at hr
  split at hr <;> cases hr
  case h_1 h m a b =>
    obtain ⟨hctx, halign⟩ := hp
    refine ⟨_, maqld_exec hi hctx halign, completeWord_stands rfl hst, ?_⟩
    rw [(Quiet.completeWord ..).ctx, begin_ctx, hq.ctx, show (beforeEffect c (.maqld h m a b) s).serial = s.serial by rw [hq.rest]]
  case h_2 h m =>
    obtain ⟨howner, hstate⟩ := hp
    have hdone := Quiet.completeWord c (.maqgo h m)
      (goSwitched c.tile m.toNat (goBegun c.tile m.toNat c.sig (beforeEffect c (.maqgo h m) s))) false
    have hsame := (hq.sameArray c.tile).trans (goBegun_sameArray c.tile m.toNat c.sig (beforeEffect c (.maqgo h m) s))
    obtain ⟨e', hst'⟩ := (goSwitched_uncounted (s := goBegun c.tile m.toNat c.sig (beforeEffect c (.maqgo h m) s))
      (t := c.tile) (j := m.toNat)).uncounted hst
    refine ⟨_, maqgo_exec hi howner hstate, completeWord_stands rfl hst', ?_, ?_, ?_, ?_⟩
    · intro j hj hcol hidle
      rw [(hdone.sameArray c.tile).activeOf]
      rw [← hsame.maq] at hcol
      rw [← hsame.activeOf] at hidle
      exact goSwitched_activeOf hj hcol hidle
    · intro o hout hidle
      rw [(hdone.sameArray c.tile).outAct]
      rw [← hsame.maq] at hout
      rw [← hsame.outAct] at hidle
      exact goSwitched_outAct hout hidle
    · exact marks_within hsame (hdone.apart.inPort c.tile) (hsame.oldReads m.toNat) (goSwitched_marks ((hsame.owner _).trans howner))
    · intro j k hj hk hactive hkm hops
      rw [← hsame.owner] at howner
      rw [← hsame.activeOf] at hactive
      rw [← hsame.maq] at hops
      rw [Tile.activeOf_eq, hdone.col, goSwitched_col hj hactive hops]
      refine ⟨?_, fun hold hcol hforward => ?_⟩
      · rw [← Tile.activeOf_eq, goSwept_activeOf, hactive]
      · rw [← hsame.owner] at hold
        rw [← hsame.maq] at hcol hforward
        rw [goSwept_col howner hj hk hkm hactive hops hold hcol hforward, hsame.col]
        rfl
  case h_3 h m =>
    obtain ⟨howner, hstate⟩ := hp
    obtain ⟨e', hst'⟩ := drnEffect_station hst m.toNat
    have hdone := Quiet.completeWord c (.maqdrn h m) (drnEffect c m.toNat (beforeEffect c (.maqdrn h m) s)) false
    have hdrains := drnEffect_drains (s := beforeEffect c (.maqdrn h m) s) (c := c) m.isLt
    rw [← hdone.ctx, hq.ctx, hq.drainOuts] at hdrains
    refine ⟨_, maqdrn_exec hi howner hstate, completeWord_stands rfl hst', ?_, fun houts => ?_, fun houts hleft => ⟨?_, ?_⟩⟩
    · exact marks_between hq hdone.apart (drnEffect_marks _ c m.toNat)
    · rw [hdrains]
      exact List.mem_filter.2 ⟨List.mem_append_right _ (List.mem_singleton.2 rfl), by simpa using houts⟩
    · rw [hdrains, houts, List.filter_append, List.filter_eq_self.2 fun d hd => by simpa using hleft d hd]
      exact List.append_nil _
    · exact maqdrn_counter hi houts hleft
  case h_4 h x a n =>
    obtain ⟨hword, hports⟩ := hp
    obtain ⟨b, hb⟩ := Option.isSome_iff_exists.1 hword
    refine ⟨_, chbind_exec hi hb hports, completeWord_stands rfl hst, fun b' hb' p hlt => ?_⟩
    obtain rfl : b = b' := Option.some.inj (hb.symm.trans hb')
    have hnodup : ((List.range (n.toNat + 1)).map (x.toNat + ·)).Nodup := List.nodup_range.map fun _ _ => Nat.add_left_cancel
    rw [(Quiet.completeWord ..).apart.inPort, State.tile_updTile_self,
      Tile.inPort_foldl_setIn (fun _ q => { q with binding := b }) hlt hnodup, hq.apart.inPort]
    simp only [mem_channels]
    split <;> rfl
  case h_5 h m a =>
    obtain ⟨hports, howner, hstate⟩ := hp
    refine ⟨_, srseed_exec hi hports howner hstate, completeWord_stands rfl hst, ?_, fun p hlt => ?_⟩
    · rw [(Quiet.completeWord ..).ctx, State.tile_updTile_self,
        Tile.foldl_keeps (π := (·.ctx m.toNat)) fun x p => x.ctx_setIn p _ m.toNat, Tile.ctx_updCtx _ m.isLt]
    · rw [(Quiet.completeWord ..).apart.inPort, State.tile_updTile_self,
        Tile.inPort_foldl_setIn (fun _ q => { q with srCount := 0 }) hlt (List.nodup_range.filter _), Tile.inPort_updCtx, hq.apart.inPort]
      simp only [List.mem_filter, List.mem_range, hlt, true_and]
      split <;> rfl

end Sys2Proof.Slice0
end

section
/-! SUPPORT. Descriptors, control beats and faults of systolic regions (R107, R108, R149, R150, R439). -/

namespace Sys2Proof.Machine

/-! ### A region at work on a tile (R108) -/

/-- What a region at work on a column is read from. -/
theorem Tile.sysAt_eq_some {x : Tile} {c : Nat} {q : SysAt} : x.sysAt c = some q ↔
    x.activeOf c = some q.k ∧ (x.ctx q.k).maq.regionOf c = some q.n ∧ (x.ctx q.k).maq.regions[q.n]? = some q.r ∧
      (x.ctx q.k).maq.sys.find q.n = some q.w ∧ x.sys.find q.r.first = some q.run := by
  unfold Tile.sysAt
  constructor
  · intro h
    split at h
    next => cases h
    next k hk =>
      dsimp only at h
      split at h
      next => cases h
      next n hn =>
        split at h
        next r w hr hw =>
          obtain ⟨run, hrun, rfl⟩ := Option.map_eq_some_iff.1 h
          exact ⟨hk, hn, hr, hw, hrun⟩
        next => cases h
  · rintro ⟨hk, hn, hr, hw, hrun⟩
    simp only [hk, hn, hr, hw, hrun, Option.map_some]

@[simp] theorem Tile.activeOf_updRun (x : Tile) (f : Nat) (g : SysRun → SysRun) (c : Nat) : (x.updRun f g).activeOf c = x.activeOf c := by
  unfold Tile.updRun
  split <;> rfl

@[simp] theorem Tile.ctx_updRun (x : Tile) (f : Nat) (g : SysRun → SysRun) (k : Nat) : (x.updRun f g).ctx k = x.ctx k := by
  unfold Tile.updRun
  split <;> rfl

theorem Tile.find_updRun (x : Tile) (f : Nat) (g : SysRun → SysRun) (j : Nat) :
    (x.updRun f g).sys.find j = if j = f then (x.sys.find j).map g else x.sys.find j := by
  unfold Tile.updRun
  split
  next hf =>
    split
    next h => rw [h, hf]; rfl
    next => rfl
  next r hr =>
    rw [Tab.find_put]
    split
    next h => rw [h, hr]; rfl
    next => rfl

/-- A change of a run state is seen by the region that begins at its column, and by no other. -/
theorem Tile.sysAt_updRun {x : Tile} {c : Nat} {q : SysAt} (h : x.sysAt c = some q) (f : Nat) (g : SysRun → SysRun) :
    (x.updRun f g).sysAt c = some { q with run := if q.r.first = f then g q.run else q.run } := by
  obtain ⟨hk, hn, hr, hw, hrun⟩ := Tile.sysAt_eq_some.1 h
  refine Tile.sysAt_eq_some.2 ⟨?_, ?_, ?_, ?_, ?_⟩
  · rwa [Tile.activeOf_updRun]
  · rwa [Tile.ctx_updRun]
  · rwa [Tile.ctx_updRun]
  · rwa [Tile.ctx_updRun]
  · rw [Tile.find_updRun, hrun]
    split <;> rfl

/-! ### What leaves every region at work with the descriptors it has received -/

/-- Every region at work is at work as before, with the identities it has received (R108, R439). -/
structure SameRegions (s t : State) : Prop where
  at_ : ∀ u c q, (s.tile u).sysAt c = some q → ∃ run, (t.tile u).sysAt c = some { q with run := run } ∧
    run.west = q.run.west ∧ run.north = q.run.north

theorem SameRegions.refl (s : State) : SameRegions s s := ⟨fun _ _ q h => ⟨q.run, h, rfl, rfl⟩⟩

theorem SameRegions.of_keeps {s t : State} (h : ∀ c, KeepsTile (·.sysAt c) s t) : SameRegions s t :=
  ⟨fun u c q hq => ⟨q.run, ((h c).tile u).trans hq, rfl, rfl⟩⟩

theorem SameRegions.trans {s t r : State} (a : SameRegions s t) (b : SameRegions t r) : SameRegions s r := by
  refine ⟨fun u c q h => ?_⟩
  obtain ⟨run, hrun, hwest, hnorth⟩ := a.at_ u c q h
  obtain ⟨run', hrun', hwest', hnorth'⟩ := b.at_ u c _ hrun
  exact ⟨run', hrun', hwest'.trans hwest, hnorth'.trans hnorth⟩

theorem SameRegions.foldl {α : Type} {g : State → α → State} (hg : ∀ s a, SameRegions s (g s a)) (l : List α) (s : State) :
    SameRegions s (l.foldl g s) := by
  induction l generalizing s with
  | nil => exact SameRegions.refl s
  | cons a l ih => exact (hg s a).trans (ih _)

theorem SameRegions.updRun (s : State) (u f : Nat) {g : SysRun → SysRun} (hwest : ∀ r, (g r).west = r.west)
    (hnorth : ∀ r, (g r).north = r.north) : SameRegions s (s.updTile u fun x => x.updRun f g) := by
  refine ⟨fun v c q h => ?_⟩
  by_cases hv : v = u
  · subst hv
    rw [State.tile_updTile_self, Tile.sysAt_updRun h]
    refine ⟨_, rfl, ?_, ?_⟩
    · split
      · exact hwest _
      · rfl
    · split
      · exact hnorth _
      · rfl
  · rw [State.tile_updTile_ne _ _ hv]
    exact ⟨_, h, rfl, rfl⟩

/-- A rectangle that begins has received what it had received (R108). -/
theorem settleRect_sameRegions (s : State) (t f : Nat) : SameRegions s (settleRect s t f) := by
  unfold settleRect
  split
  · exact SameRegions.refl s
  split
  · exact SameRegions.refl s
  split
  · exact SameRegions.refl s
  split
  · exact SameRegions.refl s
  · exact SameRegions.foldl (fun s ⟨u, g, _, _⟩ => SameRegions.updRun s u g (fun _ => rfl) fun _ => rfl) _ s

/-! ### SYSTOLIC_DESCRIPTOR_HANDSHAKE (R107, R108, R439) -/

/-- A column that waits for no switch waits for none to a region that matches. -/
theorem Tile.awaitsMatch_of_settled {x : Tile} {g : Nat} (h : x.awaited g = false) (east : Bool) (q : SysAt) :
    x.awaitsMatch g east q = false := by
  refine List.any_eq_false.2 fun c hc => ?_
  rw [Bool.eq_false_iff.2 (List.any_eq_false.1 h c hc), Bool.false_and]
  exact Bool.false_ne_true

theorem descriptorMatches_east_first {a b : SysAt} (h : descriptorMatches true a b = true) : b.r.first = 0 := by
  simp [descriptorMatches] at h
  omega

/-- A descriptor received from the west stands at its region (R108, R439). -/
theorem receiveDescriptor_west {s : State} {u c : Nat} {p : SysAt} (h : (s.tile u).sysAt c = some p) (id : Nat × Nat) :
    ∃ run, ((receiveDescriptor s u p true id).tile u).sysAt c = some { p with run := run } ∧ run.west = some id ∧
      run.north = p.run.north := by
  obtain ⟨run, hrun, hwest, hnorth⟩ := (settleRect_sameRegions (s.updTile u fun x => x.updRun p.r.first fun run => { run with
    west := some id
    ready := false
    site := none }) u p.r.first).at_ u c _ (by rw [State.tile_updTile_self, Tile.sysAt_updRun h])
  rw [if_pos rfl] at hwest hnorth
  exact ⟨run, hrun, hwest, hnorth⟩

/-- A descriptor that matches reaches an east neighbour that has received none (R107, R108). -/
theorem sendDescriptor_east {s : State} {t : Nat} {q p : SysAt} (hp : (s.tile (t + 1)).sysAt 0 = some p)
    (hsettled : (s.tile (t + 1)).awaited 0 = false) (hwest : p.run.west = none) (hnorth : p.run.north = none)
    (hleft : p.run.left = false) (hmatch : descriptorMatches true q p = true) (own : Nat × Nat) :
    sendDescriptor s t q true own = receiveDescriptor s (t + 1) p true (own.1 + 1, own.2) := by
  obtain ⟨hk, -⟩ := Tile.sysAt_eq_some.1 hp
  simp [sendDescriptor, hk, hp, hleft, hwest, hnorth, hmatch, Tile.awaitsMatch_of_settled hsettled]

section
variable {s : State} {tile col : Nat} {q : SysAt} (h : Slice0.Works s tile col q) (hleft : q.run.left = false)
include h hleft

/-- A region at work that does not know its rectangle hands nothing on (log entry 42). -/
theorem handshake_waits (hnone : identityOf s tile q = none) : exec (.systolicDescriptorHandshake tile col) s = .next s := by
  show execSystolicDescriptorHandshake tile col s = _
  simp only [execSystolicDescriptorHandshake, h.here, h.going, hleft, hnone, Bool.or_self, Bool.false_eq_true, if_false]

/-- A region at work that knows its rectangle sends its descriptor east (R107, R439). -/
theorem handshake_sends {own : Nat × Nat} (hown : identityOf s tile q = some own) (heast : q.r.east ≠ 0) (hsouth : q.r.south = 0) :
    exec (.systolicDescriptorHandshake tile col) s = .next (settleRect (sendDescriptor s tile q true own) tile q.r.first) := by
  show execSystolicDescriptorHandshake tile col s = _
  simp only [execSystolicDescriptorHandshake, h.here, h.going, hleft, hown, heast, hsouth, Bool.or_self, Bool.false_eq_true, if_false, if_true]

end

/-! ### CONTROL_BEAT_CHECK (R149, R150) -/

/-- A control beat appended to what waits at a cell. -/
def Cell.addCtl (b : Beat) (e : Cell) : Cell := { e with ctl := e.ctl ++ [b] }

theorem Tile.ctl_addCtl (x : Tile) (b : Beat) {i c l j : Nat} (hc : c < 16) (hj : j < 16) :
    ((x.updCell i c (Cell.addCtl b)).cell l j).ctl = if i = l ∧ c = j then (x.cell l j).ctl ++ [b] else (x.cell l j).ctl := by
  split
  next h =>
    obtain ⟨rfl, rfl⟩ := h
    rw [Tile.cell_updCell_self]
    · rfl
    · intro he
      exact List.append_ne_nil_of_right_ne_nil _ (List.cons_ne_nil b []) (congrArg Cell.ctl he)
  next h => rw [Tile.cell_updCell_ne x _ (by omega)]

/-- A control beat given to a cell of a lane where its column is one of g to l. -/
def Tile.colCtl (b : Beat) (g l lane : Nat) (x : Tile) (j : Nat) : Tile :=
  if g ≤ j ∧ j ≤ l then x.updCell lane j (Cell.addCtl b) else x

/-- A control beat given to the cells of a lane in columns g to l. -/
def Tile.laneCtl (b : Beat) (g l : Nat) (x : Tile) (lane : Nat) : Tile := (List.range 16).foldl (Tile.colCtl b g l lane) x

/-- A control beat given to every cell of columns g to l. -/
def Tile.rowCtl (b : Beat) (g l : Nat) (x : Tile) : Tile := (List.range 16).foldl (Tile.laneCtl b g l) x

@[simp] theorem Tile.sysAt_rowCtl (b : Beat) (g l : Nat) (x : Tile) (c : Nat) : (x.rowCtl b g l).sysAt c = x.sysAt c := by
  refine Tile.foldl_keeps (π := (·.sysAt c)) (fun x lane => Tile.foldl_keeps (π := (·.sysAt c)) (fun x j => ?_) _ x) _ x
  unfold Tile.colCtl
  split <;> rfl

section
variable (b : Beat) {g l lane j : Nat} (hj : j < 16) (hg : g ≤ j) (hl : j ≤ l)
include hj hg hl

theorem Tile.ctl_colCtl (x : Tile) (i : Nat) {c : Nat} (hc : c < 16) :
    ((x.colCtl b g l i c).cell lane j).ctl = if i = lane ∧ c = j then (x.cell lane j).ctl ++ [b] else (x.cell lane j).ctl := by
  unfold Tile.colCtl
  split
  next => exact Tile.ctl_addCtl x b hc hj
  next hout =>
    rw [if_neg]
    rintro ⟨-, rfl⟩
    exact hout ⟨hg, hl⟩

theorem Tile.ctl_colCtls (x : Tile) (i : Nat) {cs : List Nat} (hnd : cs.Nodup) (hcs : ∀ c ∈ cs, c < 16) :
    ((cs.foldl (Tile.colCtl b g l i) x).cell lane j).ctl =
      if i = lane ∧ j ∈ cs then (x.cell lane j).ctl ++ [b] else (x.cell lane j).ctl := by
  induction cs generalizing x with
  | nil => simp
  | cons c cs ih =>
    obtain ⟨hc, hnd'⟩ := List.nodup_cons.1 hnd
    rw [List.foldl_cons, ih _ hnd' fun c h => hcs c (List.mem_cons_of_mem _ h), Tile.ctl_colCtl b hj hg hl x i (hcs c List.mem_cons_self)]
    by_cases hcj : c = j
    · subst hcj
      simp [hc]
    · simp [hcj, Ne.symm hcj]

theorem Tile.ctl_laneCtl (x : Tile) (i : Nat) :
    ((x.laneCtl b g l i).cell lane j).ctl = if i = lane then (x.cell lane j).ctl ++ [b] else (x.cell lane j).ctl := by
  rw [Tile.laneCtl, Tile.ctl_colCtls b hj hg hl x i List.nodup_range fun c h => List.mem_range.1 h]
  simp [hj]

theorem Tile.ctl_laneCtls (x : Tile) {ls : List Nat} (hnd : ls.Nodup) :
    ((ls.foldl (Tile.laneCtl b g l) x).cell lane j).ctl = if lane ∈ ls then (x.cell lane j).ctl ++ [b] else (x.cell lane j).ctl := by
  induction ls generalizing x with
  | nil => simp
  | cons i ls ih =>
    obtain ⟨hi, hnd'⟩ := List.nodup_cons.1 hnd
    rw [List.foldl_cons, ih _ hnd', Tile.ctl_laneCtl b hj hg hl x i]
    by_cases hil : i = lane
    · subst hil
      simp [hi]
    · simp [hil, Ne.symm hil]

/-- Every cell of the columns receives the control beat once. -/
theorem Tile.ctl_rowCtl (x : Tile) (hlane : lane < 16) : ((x.rowCtl b g l).cell lane j).ctl = (x.cell lane j).ctl ++ [b] := by
  rw [Tile.rowCtl, Tile.ctl_laneCtls b hj hg hl x List.nodup_range, if_pos (List.mem_range.2 hlane)]

end

/-- A control beat given to the cells of a region on one tile of its row, or refused there (R149, R150). -/
def giveCtl (b : Beat) (s : State) (e : Nat × Nat × Nat) : State :=
  match (s.tile e.1).sysAt e.2.1 with
  | none => s
  | some p => if !(Ctl.of b.bits).ok p.w then regionFault s e.1 p.k p.r.first p.n 150 else s.updTile e.1 (Tile.rowCtl b e.2.1 e.2.2)

/-- Every tile of a list runs a region there that a control beat is legal for. -/
def RowTakes (b : Beat) (s : State) (es : List (Nat × Nat × Nat)) : Prop :=
  ∀ e ∈ es, ∃ p, (s.tile e.1).sysAt e.2.1 = some p ∧ (Ctl.of b.bits).ok p.w = true

theorem giveCtl_legal {b : Beat} {s : State} {e : Nat × Nat × Nat} {p : SysAt} (hp : (s.tile e.1).sysAt e.2.1 = some p)
    (hok : (Ctl.of b.bits).ok p.w = true) : giveCtl b s e = s.updTile e.1 (Tile.rowCtl b e.2.1 e.2.2) := by
  simp [giveCtl, hp, hok]

theorem giveCtl_sysAt {b : Beat} {s : State} {e : Nat × Nat × Nat} {p : SysAt} (hp : (s.tile e.1).sysAt e.2.1 = some p)
    (hok : (Ctl.of b.bits).ok p.w = true) (c : Nat) : KeepsTile (·.sysAt c) s (giveCtl b s e) := by
  rw [giveCtl_legal hp hok]
  exact KeepsTile.updTile s e.1 fun x => x.sysAt_rowCtl b e.2.1 e.2.2 c

/-- Regions at work that stay at work with their words take the beats they took. -/
theorem RowTakes.kept {b : Beat} {s t : State} {es : List (Nat × Nat × Nat)} (h : RowTakes b s es) (hst : SameRegions s t) :
    RowTakes b t es := by
  intro e he
  obtain ⟨p, hp, hok⟩ := h e he
  obtain ⟨run, hrun, -⟩ := hst.at_ _ _ _ hp
  exact ⟨_, hrun, hok⟩

/-- Tiles that are not of the row keep their cells. -/
theorem giveCtls_other {b : Beat} {es : List (Nat × Nat × Nat)} {s : State} (h : RowTakes b s es) {u : Nat} (hu : ∀ e ∈ es, e.1 ≠ u) :
    (es.foldl (giveCtl b) s).tile u = s.tile u := by
  induction es generalizing s with
  | nil => rfl
  | cons e es ih =>
    obtain ⟨p, hp, hok⟩ := h e List.mem_cons_self
    have hkept : RowTakes b (giveCtl b s e) es :=
      RowTakes.kept (fun e he => h e (List.mem_cons_of_mem _ he)) (.of_keeps (giveCtl_sysAt hp hok))
    rw [List.foldl_cons, ih hkept fun e he => hu e (List.mem_cons_of_mem _ he), giveCtl_legal hp hok,
      State.tile_updTile_ne _ _ (hu e List.mem_cons_self).symm]

/-- A beat that is legal on every tile of a row reaches every cell there (R149; log entry 41). -/
theorem giveCtls_ctl {b : Beat} {es : List (Nat × Nat × Nat)} (hnd : es.Pairwise fun e f => e.1 ≠ f.1) {s : State} (h : RowTakes b s es)
    {u g l lane j : Nat} (hmem : (u, g, l) ∈ es) (hlane : lane < 16) (hj : j < 16) (hg : g ≤ j) (hl : j ≤ l) :
    (((es.foldl (giveCtl b) s).tile u).cell lane j).ctl = ((s.tile u).cell lane j).ctl ++ [b] := by
  induction es generalizing s with
  | nil => cases hmem
  | cons e es ih =>
    obtain ⟨hne, hnd'⟩ := List.pairwise_cons.1 hnd
    obtain ⟨p, hp, hok⟩ := h e List.mem_cons_self
    have hkept : RowTakes b (giveCtl b s e) es :=
      RowTakes.kept (fun e he => h e (List.mem_cons_of_mem _ he)) (.of_keeps (giveCtl_sysAt hp hok))
    rw [List.foldl_cons]
    rcases List.mem_cons.1 hmem with rfl | hmem'
    · rw [giveCtls_other hkept fun f hf => (hne f hf).symm, giveCtl_legal hp hok, State.tile_updTile_self,
        Tile.ctl_rowCtl b hj hg hl _ hlane]
    · rw [ih hnd' hkept hmem', giveCtl_legal hp hok, State.tile_updTile_ne _ _ (hne _ hmem').symm]

/-- The tiles of a row differ. -/
theorem rowTiles_pairwise (s : State) (t : Nat) (q : SysAt) : (rowTiles s t q).Pairwise fun e f => e.1 ≠ f.1 := by
  refine List.pairwise_filterMap.2 (List.nodup_range.imp fun {i j} hij e he f hf => ?_)
  obtain ⟨_, -, rfl⟩ := Option.map_eq_some_iff.1 he
  obtain ⟨_, -, rfl⟩ := Option.map_eq_some_iff.1 hf
  dsimp only
  omega

/-- The state in which a legal control beat has left its port, and lane 0 owes the words it calls for. -/
def ctlTaken (s : State) (t : Nat) (q : SysAt) (b : Beat) : State :=
  (s.popIn t q.w.c).updTile t fun x => x.updRun q.r.first fun r => { r with need := r.need + (Ctl.of b.bits).run }

theorem ctlTaken_sameRegions (s : State) (t : Nat) (q : SysAt) (b : Beat) : SameRegions s (ctlTaken s t q b) := by
  refine (SameRegions.of_keeps fun c => ?_).trans (SameRegions.updRun _ _ _ (fun _ => rfl) fun _ => rfl)
  refine KeepsTile.updPorts (fun _ _ => rfl) s t fun x => ?_
  unfold Tile.setIn
  split <;> rfl

theorem ctlTaken_cells (s : State) (t : Nat) (q : SysAt) (b : Beat) : KeepsTile (·.cells) s (ctlTaken s t q b) :=
  (KeepsTile.updPorts (fun _ _ => rfl) s t fun x => x.cells_setIn _ _).trans (KeepsTile.updTile _ t fun x => x.cells_updRun _ _)

theorem controlBeat_exec {s : State} {tile col : Nat} {q : SysAt} {b : Beat} (hq : (s.tile tile).sysAt col = some q)
    (hb : ctlHead s tile q = some b) : exec (.controlBeatCheck tile col) s = .next
      (if (Ctl.of b.bits).ok q.w = true then (rowTiles s tile q).foldl (giveCtl b) (ctlTaken s tile q b)
      else regionFault s tile q.k q.r.first q.n 150) := by
  show execControlBeatCheck tile col s = _
  unfold execControlBeatCheck
  simp only [hq, hb]
  cases (Ctl.of b.bits).ok q.w <;> rfl

/-! ### A region stops (R100, R150) -/

/-- A column stopped where it is one of a region's. -/
def Tile.stopCol (first last : Nat) (x : Tile) (j : Nat) : Tile :=
  if first ≤ j ∧ j ≤ last then x.updCol j fun q => { q with stopped := true } else x

theorem Tile.stopCol_stopped {first last j : Nat} (hj : j < 16) (hfirst : first ≤ j) (hlast : j ≤ last) (x : Tile) {c : Nat}
    (h : c = j ∨ (x.col j).stopped = true) : ((x.stopCol first last c).col j).stopped = true := by
  unfold Tile.stopCol
  split
  next =>
    rw [Tile.col_updCol _ _ _ hj]
    split
    · rfl
    next hc => exact h.resolve_left hc
  next hout => exact h.resolve_left fun hc => hout (hc ▸ ⟨hfirst, hlast⟩)

theorem Tile.stopCols_stopped {first last j : Nat} (hj : j < 16) (hfirst : first ≤ j) (hlast : j ≤ last) {cs : List Nat} (x : Tile)
    (h : j ∈ cs ∨ (x.col j).stopped = true) : ((cs.foldl (Tile.stopCol first last) x).col j).stopped = true := by
  induction cs generalizing x with
  | nil => exact h.resolve_left List.not_mem_nil
  | cons c cs ih =>
    rw [List.mem_cons, or_right_comm] at h
    exact ih _ (h.symm.imp_right fun h => Tile.stopCol_stopped hj hfirst hlast x (h.imp_left Eq.symm))

theorem State.addFault_col (s : State) (id st : Nat) (slot : Option Nat) (cause : Cause) (d0 d1 d2 : Dword) (u c : Nat) :
    ((s.addFault id st slot cause d0 d1 d2).tile u).col c = (s.tile u).col c := (Quiet.updSt s id st _).col u c

/-- MAQUETTE_FAULT stops every column of the region (R100). -/
theorem regionFault_stopped {s : State} {t k col n : Nat} {r : Region} (hn : ((s.tile t).ctx k).maq.regionOf col = some n)
    (hr : ((s.tile t).ctx k).maq.regions[n]? = some r) (slot rule : Nat) {j : Nat} (hj : j < 16) (hfirst : r.first ≤ j)
    (hlast : j ≤ r.last) : (((regionFault s t k col slot rule).tile t).col j).stopped = true := by
  have hstop : (((s.updTile t fun x => (List.range 16).foldl (Tile.stopCol r.first r.last) x).tile t).col j).stopped = true := by
    rw [State.tile_updTile_self]
    exact Tile.stopCols_stopped hj hfirst hlast _ (.inl (List.mem_range.2 hj))
  unfold regionFault
  simp only [hn, Option.bind_some, hr]
  split
  · exact hstop
  · exact (congrArg Col.stopped (State.addFault_col ..)).trans hstop

end Sys2Proof.Machine

namespace Sys2Proof.Slice0
open Machine

/-- Settles O43: a descriptor received keeps what it brought while rectangles begin; a beat that is legal on the whole row reaches each of
its tiles, which differ, in turn; and the fault of a beat that is not stops the columns of its region. -/
theorem systolicControl : Obligations.SystolicControl := by
  unfold Obligations.SystolicControl
  refine ⟨fun tile col q p s h heast hsouth hp hsettled hwest hnorth hleft hpleft hmatch => ?_, fun tile col q b s hq hb hok hrow => ?_,
    fun tile col q b s hq hb hok hle hlt hn => ?_⟩
  · cases hid : identityOf s tile q with
    | none => exact ⟨s, handshake_waits h hleft hid, fun _ => rfl, nofun⟩
    | some own =>
      refine ⟨_, handshake_sends h hleft hid heast hsouth, nofun, fun _ hown => ?_⟩
      obtain rfl := Option.some.inj hown
      obtain ⟨run, hrun, hgot, hnone⟩ := receiveDescriptor_west hp (own.1 + 1, own.2)
      obtain ⟨run', hrun', hgot', hnone'⟩ := (settleRect_sameRegions _ tile q.r.first).at_ _ _ _ hrun
      rw [sendDescriptor_east hp hsettled hwest hnorth hpleft hmatch]
      exact ⟨run', hrun', hgot'.trans hgot, hnone'.trans (hnone.trans hnorth)⟩
  · refine ⟨_, controlBeat_exec hq hb, fun u g l hmem lane j hlane hj hg hl => ?_⟩
    have htakes : RowTakes b s (rowTiles s tile q) := fun e he => hrow e.1 e.2.1 e.2.2 he
    rw [if_pos hok, giveCtls_ctl (rowTiles_pairwise s tile q) (htakes.kept (ctlTaken_sameRegions s tile q b)) hmem hlane hj hg hl,
      Tile.cell_of_cells ((ctlTaken_cells s tile q b).tile u)]
  · obtain ⟨-, -, hr, -⟩ := Tile.sysAt_eq_some.1 hq
    refine ⟨_, controlBeat_exec hq hb, fun j hfirst hlast hj => ?_⟩
    rw [if_neg (by simp [hok])]
    exact regionFault_stopped hn hr _ _ hj hfirst hlast

end Sys2Proof.Slice0
end

section
/-! SUPPORT. Two data the statements on lane operators admit beside what a checked maquette and the model's own insertions bring about: a
firing of STEER with one input, and a tile whose table lists a link twice. -/

namespace Sys2Proof.Slice0
open Machine

/-! ### A STEER without a control input (R120) -/

/-- A record of a data input. -/
def dataRec : Rec := Rec.fresh .w32i 7 0 false

/-- A firing of STEER, output 1 named and nothing pending, at whose one input stands a vector of one record. -/
def unpairedSteer : FireIn where
  o := ⟨0x02, [.inport 0, .none, .none], [1, 0, 0], .rne, 0, 0, 0⟩
  site := ⟨0, 0, 0⟩
  fwd := [true]
  ins := [[.vec [some dataRec] false]]
  st := some (.steer [] [])
  dq := []
  named1 := true

theorem unpairedSteer_fires : fireOp unpairedSteer = .go (Fired.plain [0, 1] [] (some (.steer [dataRec] []))) := by decide

/-- Refutes O24: the statement takes a firing with any number of inputs, and its row for STEER passes on a record only where a control
record stands in the same lane (R120), while fireSteer sends a record without one to output 0. A STEER with a data input and no other,
which MAQLD refuses (R51), keeps its record pending for output 0, where the row has none. -/
theorem not_laneResults : ¬Obligations.LaneResults := by
  unfold Obligations.LaneResults
  intro hall
  obtain ⟨-, hvectors, -⟩ := hall
  obtain ⟨-, -, -, -, ⟨-, -, hsteer⟩, -⟩ := hvectors unpairedSteer [[some dataRec]] false false (by decide) (by decide)
  obtain ⟨g, hg, -, hpending, -⟩ := hsteer rfl rfl rfl [some dataRec] false [] [] rfl rfl
  obtain rfl : _ = g := Fire.go.inj (unpairedSteer_fires.symm.trans hg)
  have hempty : (Fired.plain [0, 1] [] (some (.steer [dataRec] []))).st = some (.steer [] []) :=
    (hpending rfl (by decide) (by decide)).2
  exact absurd hempty (by decide)

/-! ### A link listed twice (R93) -/

/-- PASS from in-port 0 by a link of one slot. -/
def passWord : StageOp := ⟨0, [.inport 0, .none, .none], [1, 0, 0], .rne, 0, 0, 0⟩

/-- A tile whose column 0 is active under context 1 with that PASS in slot 0 and a word that takes its output to out-port 5, and whose
table of links lists the link of the PASS twice, with a DRAIN each time. -/
def twiceListed : State := { State.reset with
  tiles := [(0, { Tile.reset with
    ctxs := Tile.reset.ctxs.set 1 { MaqCtx.reset with
      state := .active
      owner := some 0
      maq := ⟨[⟨0, 0, false, 0, 0⟩], [(0, passWord)], [(5, ⟨0, [.out0 0 0, .none, .none], [1, 0, 0], .rne, 0, 0, 0⟩)], []⟩ }
    cols := Tile.reset.cols.set 0 { Col.reset with active := some 1 }
    outAct := [(5, 1)]
    links := [(linkKey 1 0, [.drain]), (linkKey 1 0, [.drain])] })] }

theorem twiceListed_meets : Meets twiceListed 0 0 0 1 passWord .drain where
  live := by decide
  alone := by decide
  legal := by decide
  queue := by decide
  some := by decide
  heads i h := by
    rcases i with _ | i
    · decide
    · exact nomatch (show [true][i + 1]? = some true from h)
  mark := rfl
  target := by decide

/-- The output of the PASS goes to out-port 5 alone. -/
theorem twiceListed_consumer (i e : Nat) : ((twiceListed.tile 0).ctx 1).maq.consumer (outSel 0 0 i) ≠ some (0, e) := by
  intro h
  have hlink : (((twiceListed.tile 0).ctx 1).maq.consumer (outSel 0 0 i)).map Prod.fst = some 0 := congrArg (Option.map Prod.fst) h
  unfold outSel at hlink
  split at hlink <;> exact absurd hlink (by decide)

/-- The DRAIN listed second heads the link once the first is taken. -/
theorem twiceListed_taken {t : State} (h : exec (.alignmentMarkerTaken 0 0 0) twiceListed = .next t) :
    (t.tile 0).link (linkKey 1 0) = [.drain] := by
  obtain rfl := Host.Outcome.next.inj (show execAlignmentMarkerTaken 0 0 0 twiceListed = .next t from h)
  decide

/-- Refutes O42: the statement takes a state whose tables are in any form, and a table that lists a link twice answers with the second
entry once the first is removed. The DRAIN that the PASS takes is the whole of its link, which stands empty then as the statement has it;
the link still reads the DRAIN listed second. Insertions and removals keep the canonical form, which lists no key twice
(Tab.sorted_put, Tab.sorted_del); the statement lacks the hypothesis that the tile's links are in it. -/
theorem not_operatorsFire : ¬Obligations.OperatorsFire := by
  unfold Obligations.OperatorsFire
  intro hall
  obtain ⟨-, -, -, -, hmarker, -⟩ := hall
  obtain ⟨t, ht, -, -, hlinks⟩ := hmarker 0 0 0 1 passWord .drain twiceListed twiceListed_meets (by simp) (by decide)
    (by unfold MayTake; decide)
  have hempty : (t.tile 0).link (linkKey 1 0) = [] := (hlinks 0 (.inport 0) rfl rfl (by decide) twiceListed_consumer).trans (by decide)
  exact absurd (hempty.symm.trans (twiceListed_taken ht)) (by decide)

end Sys2Proof.Slice0
end

section
/-! SUPPORT. The control words that write no memory as they issue: all but STS and STQ (R181, R195, R202). -/

namespace Sys2Proof.Machine

/-- The state an outcome leaves, where it leaves one, holds in its memories what σ holds. -/
structure Res.Holds (σ : Store) (r : Res) : Prop where
  next : ∀ {t}, r = .next t → t.store = σ

@[simp] theorem Res.holds_next (σ : Store) (t : State) : Res.Holds σ (.next t) ↔ t.store = σ :=
  ⟨fun h => h.next rfl, fun h => ⟨fun e => by cases e; exact h⟩⟩

@[simp] theorem Res.holds_fault (σ : Store) (e : Fault) : Res.Holds σ (.fault e) := ⟨nofun⟩

/-- The state the effect of a word leaves, where it completes or waits, holds in its memories what σ holds. -/
structure Eff.Holds (σ : Store) (e : Eff) : Prop where
  done : ∀ {t now}, e = .done t now → t.store = σ

@[simp] theorem Eff.holds_done (σ : Store) (t : State) (now : Bool) : (Eff.done t now).Holds σ ↔ t.store = σ :=
  ⟨fun h => h.done rfl, fun h => ⟨fun e => by cases e; exact h⟩⟩

@[simp] theorem Eff.holds_trap (σ : Store) (cause : Cause) (d0 : Dword) : (Eff.trap cause d0).Holds σ := ⟨nofun⟩

@[simp] theorem Eff.holds_viol (σ : Store) (cause : Cause) (addr : Dword) : (Eff.viol cause addr).Holds σ := ⟨nofun⟩

@[simp] theorem Viol.holds_eff (σ : Store) (v : Viol) (addr : Dword) : (v.eff addr).Holds σ := by
  unfold Viol.eff
  split <;> simp

@[simp] theorem Eff.holds_ite (σ : Store) (c : Prop) [Decidable c] (a b : Eff) :
    (if c then a else b).Holds σ ↔ if c then a.Holds σ else b.Holds σ := by
  split <;> rfl

/-- A word's issue leaves the memories alone if its effect does, on every outcome. -/
@[simp] theorem issueWord_holds {i : Instr} {h : Hdr} {s : State} {body : Ctx → State → Eff} (hbody : ∀ c s, (body c s).Holds s.store) :
    Res.Holds s.store (issueWord i h s body) := by
  unfold issueWord
  split
  · simp
  next c _ =>
    have hc := hbody c (beforeEffect c i s)
    rw [beforeEffect_store] at hc
    split
    · simp
    split
    · simp
    split
    · simp
    split
    · simp
    split
    · simp
    · split
      next h => simpa using hc.done h
      · simp
      · simp


/-! ### The words whose effects have branches of their own -/

/-- A load performed at its issue, or left outstanding, writes registers alone (R202). -/
theorem scalarNow_load_store {p : PendScalar} (hp : p.store = false) (s : State) (job id st tile : Nat) :
    (scalarNow s job id st tile p).1.store = s.store := by
  simp only [scalarNow, hp, Bool.false_eq_true, if_false]
  split
  · split <;> simp
  · rfl
  · simp

@[simp] theorem loadWord_holds (i : Instr) (h : Hdr) (quad : Bool) (d a : Reg) (imm : BitVec 26) (s : State) :
    Res.Holds s.store (scalarWord i h false quad d a imm s) :=
  issueWord_holds fun c s => by
    dsimp only
    simp only [Bool.false_eq_true, if_false]
    generalize (if quad = true then 32 else 8) = z
    generalize elementCheck s c.job c.tile (c.g a) (scalarAddr (c.g a) imm) z .read = place
    generalize forwarded c.x _ _ _ _ = early
    split
    · simp
    · cases place
      all_goals
        dsimp only
        rw [Eff.holds_ite]
        split
        · rw [Eff.holds_done, scalarNow_load_store rfl]
        · split <;> simp

@[simp] theorem globalWord_holds (i : Instr) (h : Hdr) (kind : SKind) (d a : Reg) (imm : BitVec 26) (s : State) :
    Res.Holds s.store (globalWord i h kind d a imm s) :=
  issueWord_holds fun c s => by
    dsimp only
    split <;> simp

@[simp] theorem execAtomg_holds (h : Hdr) (d a b e : Reg) (op : BitVec 4) (size : Bool) (s : State) :
    Res.Holds s.store (execAtomg h d a b e op size s) :=
  issueWord_holds fun c s => by
    dsimp only
    split <;> simp

@[simp] theorem execRatom_holds (h : Hdr) (a b e d : Reg) (op : BitVec 4) (size acq : Bool) (rel : BitVec 7) (s : State) :
    Res.Holds s.store (execRatom h a b e d op size acq rel s) :=
  issueWord_holds fun c s => by
    dsimp only
    split <;> simp

@[simp] theorem execRsig_holds (h : Hdr) (a b : Reg) (rel : BitVec 7) (s : State) : Res.Holds s.store (execRsig h a b rel s) :=
  issueWord_holds fun c s => by
    (repeat' split) <;> simp

@[simp] theorem execPortrd_holds (h : Hdr) (d a : Reg) (o : BitVec 5) (s : State) : Res.Holds s.store (execPortrd h d a o s) :=
  issueWord_holds fun c s => by
    (repeat' split) <;> simp

@[simp] theorem startStream_holds (c : Ctx) (s : State) (o : StOps) (q : Slot) (second : Option Shape)
    (needSecond bounded limits : Bool) (ports : List Nat) (atIssue : Bool) :
    (startStream c s o q second needSecond bounded limits ports atIssue).Holds s.store := by
  unfold startStream
  dsimp only
  split <;> simp

@[simp] theorem execMaqld_holds (h : Hdr) (m : BitVec 2) (a b : Reg) (s : State) : Res.Holds s.store (execMaqld h m a b s) :=
  issueWord_holds fun c s => by
    dsimp only
    (repeat' split) <;> simp [execMaqld.begin_]

@[simp] theorem execChbind_holds (h : Hdr) (x : BitVec 5) (a : Reg) (n : BitVec 5) (s : State) :
    Res.Holds s.store (execChbind h x a n s) :=
  issueWord_holds fun c s => by
    (repeat' split) <;> simp

@[simp] theorem execSrseed_holds (h : Hdr) (m : BitVec 2) (a : Reg) (s : State) : Res.Holds s.store (execSrseed h m a s) :=
  issueWord_holds fun c s => by simp

@[simp] theorem execTxclaim_holds (h : Hdr) (v : BitVec 3) (a : Reg) (shape : BitVec 4) (s : State) :
    Res.Holds s.store (execTxclaim h v a shape s) :=
  issueWord_holds fun c s => by
    dsimp only
    (repeat' split) <;> simp

@[simp] theorem erWord_holds (i : Instr) (h : Hdr) (forms : Ctx → List (Dword × Nat)) (kind : Ctx → ReqKind) (dst : Option Reg)
    (s : State) : Res.Holds s.store (erWord i h forms kind dst s) :=
  issueWord_holds fun c s => by
    (repeat' split) <;> simp

@[simp] theorem execOwncfg_holds (h : Hdr) (a b e : Reg) (s : State) : Res.Holds s.store (execOwncfg h a b e s) :=
  issueWord_holds fun c s => by
    dsimp only
    (repeat' split) <;> simp

@[simp] theorem execYield_holds (h : Hdr) (s : State) : Res.Holds s.store (execYield h s) :=
  issueWord_holds fun c s => by
    (repeat' split) <;> simp

@[simp] theorem execResume_holds (h : Hdr) (a : Reg) (s : State) : Res.Holds s.store (execResume h a s) :=
  issueWord_holds fun c s => by
    (repeat' split) <;> simp

/-- A control word other than STS and STQ leaves what the memories hold as it was, on every outcome of its issue. A word without a rule
of its own above is unfolded: all it does is made of operations that write no memory. -/
theorem exec_holds {i : Instr} {h : Hdr} (hh : i.hdr? = some h) (hn : ∀ h d a k, i ≠ .sts h d a k ∧ i ≠ .stq h d a k) (s : State) :
    Res.Holds s.store (exec i s) := by
  cases i with
  | sts h d a k => exact absurd rfl (hn h d a k).1
  | stq h d a k => exact absurd rfl (hn h d a k).2
  | lds | ldq | ldg | stg => simp [exec, execLds, execLdq, execLdg, execStg]
  | atomg | ratom | rsig | portrd | maqld | chbind | srseed | txclaim | owncfg | yield | resume => simp [exec]
  | srd | swr | scp | sfill | swin | smc | sgath | sscat | sscata | srec =>
    simp [exec, execSrd, execSwr, execScp, execSfill, execSwin, execSmc, execSgath, execSscat, execSscata, execSrec]
  | ercfg | ercfgOff | erdisp | erdispReuse | ercomb | erstat | erdrops =>
    simp [exec, execErcfg, execErcfgOff, execErdisp, execErdispReuse, execErcomb, execErstat, execErdrops]
  | add | sub | mul | mulh | and | or | xor | shl | shr | sar | min | max | clz | popc | sel | cmp | addi | subi | muli | andi | ori
    | xori | shli | shri | sari | mini | maxi | cmpi | movhi =>
    simp [exec, aluWord, execAdd, execSub, execMul, execMulh, execAnd, execOr, execXor, execShl, execShr, execSar, execMin, execMax,
      execClz, execPopc, execSel, execCmp, execAddi, execSubi, execMuli, execAndi, execOri, execXori, execShli, execShri, execSari,
      execMini, execMaxi, execCmpi, execMovhi]
  | br | brany | brall | loop | call | ret | pset | trig | exit | waite | sige | nop | trap | brk =>
    simp [exec, execBr, voteWord, execBrany, execBrall, execLoop, execCall, execRet, execPset, execTrig, execExit, execWaite, execSige,
      execNop, execTrap, execBrk]
  | csrr | csrw | csrx | codeinv | freeze | thaw | launch | smpcfg | smpon | smpoff | cntrd | mark =>
    simp [exec, execCsrr, execCsrw, execCsrx, execCodeinv, masterWord, execFreeze, execThaw, execLaunch, execSmpcfg, execSmpon, execSmpoff,
      execCntrd, execMark]
  | shape | viewld | viewldGet | portwr | portspc | sportcfg | sportcfgOff | sbar | fence | swaits | sabort =>
    simp [exec, execShape, execViewld, execViewldGet, execPortwr, execPortspc, execSportcfg, execSportcfgOff, execSbar, execFence,
      execSwaits, execSabort]
  | maqgo | maqdrn | accsave | accload => simp [exec, execMaqgo, execMaqdrn, accWord, execAccsave, execAccload]
  | snap | unsnap | txbegin | txbeginAge | txcommit | txabort | txstat =>
    simp [exec, execSnap, execUnsnap, txbeginWord, execTxbegin, execTxbeginAge, execTxcommit, execTxabort, execTxstat]
  | route | unroute | mcjoin | mcjoinLeave | wlnew | wlpush | wlpop | wlins | wlcnt | wlfree =>
    simp [exec, execRoute, execUnroute, mcjoinWord, execMcjoin, execMcjoinLeave, execWlnew, execWlpush, execWlpop, execWlins, execWlcnt,
      execWlfree]
  | _ => cases hh

end Sys2Proof.Machine

namespace Sys2Proof.Slice0
open Machine

/-- Settles O32: only a store performed at its issue changes what the memories hold, and of the control words STS and STQ alone do that. -/
theorem onlyScalarStoresWriteAtIssue : Obligations.OnlyScalarStoresWriteAtIssue := by
  intro i h s t hh hn ht
  exact SameBytes.of_store ((exec_holds hh hn s).next ht)

end Sys2Proof.Slice0
end

section
/-! SUPPORT. What the end of an access leaves of a station: everything but its counters, what its accesses wait for and the signal of its
EXIT. -/

namespace Sys2Proof.Machine

/-! ### A property of one station -/

/-- Station st of frieze id stands in the state, and P holds of it. -/
def State.Has (s : State) (id st : Nat) (P : Station → Prop) : Prop := ∃ x, s.station? id st = some x ∧ P x

/-- P lasts while the station's counters change, its accesses cease to wait for one that has ended, and its EXIT has signalled. -/
structure Steady (P : Station → Prop) : Prop where
  counts : ∀ {x : Station} (e : Vector Word 32), P x → P { x with e := e }
  retires : ∀ {x : Station} (u : Nat), P x → P (x.retire u).1
  signals : ∀ {x : Station}, P x → P { x with exitSig := none }

/-- The increments of mode 10 change counters alone (R190). -/
theorem KeepsOf.sigSector {α : Type} {π : Station → α} (he : ∀ (x : Station) (e : Vector Word 32), π { x with e := e } = π x) (s : State)
    (id st : Nat) (m : BitVec 2) (k : BitVec 6) (n : Nat) : KeepsOf π s (s.sigSector id st m k n) := by
  unfold State.sigSector
  split
  · exact KeepsOf.updCounter he ..
  · exact KeepsOf.refl s

section
variable {id st : Nat} {P : Station → Prop}

theorem State.Has.of_friezes {s t : State} (h : s.Has id st P) (hf : t.friezes = s.friezes) : t.Has id st P := by
  unfold State.Has State.station? at *
  rwa [hf]

theorem State.Has.updFz {s : State} (h : s.Has id st P) (i : Nat) {g : Frieze → Frieze} (hg : ∀ f, (g f).stations = f.stations) :
    (s.updFz i g).Has id st P := by
  unfold State.Has at *
  rwa [State.updFz_station_same hg]

theorem State.Has.updSt {s : State} {Q : Station → Prop} (h : s.Has id st P) {g : Station → Station} (hg : ∀ x, P x → Q (g x)) :
    (s.updSt id st g).Has id st Q := by
  obtain ⟨x, hx, hp⟩ := h
  exact ⟨g x, State.updSt_station hx g, hg x hp⟩

theorem State.Has.updSt_other {s : State} (h : s.Has id st P) {i j : Nat} (hij : (i, j) ≠ (id, st)) (g : Station → Station) :
    (s.updSt i j g).Has id st P := by
  obtain ⟨x, hx, hp⟩ := h
  refine ⟨x, ?_, hp⟩
  rw [State.updSt_station_ne _ _ ?_, hx]
  by_contra hc
  push Not at hc
  exact hij (by rw [hc.1, hc.2])

/-- A change of any station that keeps P. -/
theorem State.Has.updAny {s : State} (h : s.Has id st P) (i j : Nat) {g : Station → Station} (hg : ∀ x, P x → P (g x)) :
    (s.updSt i j g).Has id st P := by
  by_cases hij : (i, j) = (id, st)
  · cases hij
    exact h.updSt hg
  · exact h.updSt_other hij g

theorem State.Has.foldl {α : Type} {g : State → α → State} (hg : ∀ s a, s.Has id st P → (g s a).Has id st P) (l : List α) {s : State}
    (h : s.Has id st P) : (l.foldl g s).Has id st P := by
  induction l generalizing s with
  | nil => exact h
  | cons a l ih => exact ih (hg s a h)

variable (hP : Steady P)
include hP

theorem State.Has.of_uncounted {s t : State} (h : s.Has id st P) (hk : KeepsOf Station.uncounted s t) : t.Has id st P := by
  obtain ⟨x, hx, hp⟩ := h
  obtain ⟨e, he⟩ := hk.uncounted hx
  exact ⟨_, he, hP.counts e hp⟩

theorem State.Has.addCount {s : State} (h : s.Has id st P) (i j : Nat) (k : BitVec 6) (n : Word) : (s.addCount i j k n).Has id st P :=
  h.of_uncounted hP (KeepsOf.updCounter (fun _ _ => rfl) ..)

theorem State.Has.sigDone {s : State} (h : s.Has id st P) (i j : Nat) (m : BitVec 2) (k : BitVec 6) : (s.sigDone i j m k).Has id st P :=
  h.of_uncounted hP (KeepsOf.sigDone (fun _ _ => rfl) ..)

theorem State.Has.sigSector {s : State} (h : s.Has id st P) (i j : Nat) (m : BitVec 2) (k : BitVec 6) (n : Nat) :
    (s.sigSector i j m k n).Has id st P :=
  h.of_uncounted hP (KeepsOf.sigSector (fun _ _ => rfl) ..)

theorem State.Has.updPorts {s : State} (h : s.Has id st P) (t : Nat) (g : Tile → Tile) : (s.updPorts t g).Has id st P :=
  h.of_uncounted hP (KeepsOf.updPorts (fun _ _ => rfl) ..)

theorem State.Has.unsend {s : State} (h : s.Has id st P) (t : Nat) (uids : List Nat) : (s.unsend t uids).Has id st P := by
  unfold State.unsend
  split
  · exact h
  · exact h.updPorts hP ..

theorem State.Has.unsendFz {s : State} (h : s.Has id st P) (i : Nat) : (s.unsendFz i).Has id st P := by
  unfold State.unsendFz
  split
  · exact h
  · exact h.foldl (fun s p hs => hs.unsend hP ..) _

theorem State.Has.retireAt {s : State} (h : s.Has id st P) (i u j : Nat) : (s.retireAt i u j).Has id st P := by
  unfold State.retireAt
  split
  · exact h
  next x hx =>
    refine State.Has.foldl (fun s g hs => hs.addCount hP ..) _ ?_
    by_cases hij : (i, j) = (id, st)
    · cases hij
      obtain ⟨y, hy, hp⟩ := h
      obtain rfl : y = x := Option.some.inj (hy.symm.trans hx)
      exact ⟨_, State.updSt_station hx _, hP.retires u hp⟩
    · exact h.updSt_other hij _

theorem State.Has.retire {s : State} (h : s.Has id st P) (i u : Nat) : (s.retire i u).Has id st P := by
  unfold State.retire
  split
  · exact h
  · exact State.Has.of_friezes (State.Has.foldl (fun s j hs => hs.retireAt hP ..) _ h) rfl

/-! ### The exit of a frieze (R318) -/

omit hP in
theorem State.freeRec_friezes (s : State) (job dom txid : Nat) : (s.freeRec job dom txid).friezes = s.friezes := by
  unfold State.freeRec State.updDom
  split <;> rfl

omit hP in
theorem releaseRecs_friezes (s : State) (job : Nat) (mine : TxRec → Bool) : (releaseRecs s job mine).friezes = s.friezes := by
  unfold releaseRecs
  refine List.foldlRecOn s.domains _ (motive := fun t : State => t.friezes = s.friezes) rfl fun t ht p _ => ?_
  dsimp only
  split
  · refine List.foldlRecOn p.2.recs _ (motive := fun t : State => t.friezes = s.friezes) ht fun r hr q _ => ?_
    split
    · rw [State.freeRec_friezes, hr]
    · exact hr
  · exact ht

omit hP in
theorem State.foldl_updTile_friezes {g : Nat → Tile → Tile} {t : Nat → Nat} (l : List Nat) (s : State) :
    (l.foldl (fun s k => if (s.tiles.find (t k)).isSome then s.updTile (t k) (g k) else s) s).friezes = s.friezes := by
  induction l generalizing s with
  | nil => rfl
  | cons k l ih =>
    rw [List.foldl_cons, ih]
    split <;> rfl

theorem State.Has.releaseFz {s : State} (h : s.Has id st P) (i : Nat) : (s.releaseFz i).Has id st P := by
  unfold State.releaseFz
  split
  · exact h
  next f _ =>
    split
    · exact h
    · extract_lets s0 s1 s2 s3 s4
      have h0 : s0.Has id st P := h.of_friezes rfl
      have h1 : s1.Has id st P := (h0.unsendFz hP i).updFz i fun _ => rfl
      have h2 : s2.Has id st P := h1.of_friezes (State.foldl_updTile_friezes (g := fun _ x => x.release i) (t := f.tileOf) _ s1)
      exact h2.of_friezes (releaseRecs_friezes s3 _ _)

theorem State.Has.exitSignals {s : State} (h : s.Has id st P) (i : Nat) : (exitSignals s i).Has id st P := by
  unfold Machine.exitSignals
  split
  · exact h
  · refine h.foldl (fun s p hs => ?_) _
    obtain ⟨x, j⟩ := p
    dsimp only
    split
    · split
      · exact (hs.addCount hP ..).updAny i j fun _ => hP.signals
      · exact hs
    · exact hs

theorem State.Has.settleExit {s : State} (h : s.Has id st P) (i : Nat) : (settleExit s i).Has id st P := by
  unfold Machine.settleExit
  split
  · exact h
  · split
    · exact h
    · dsimp only
      split
      · exact (h.exitSignals hP i).releaseFz hP i
      · exact h.exitSignals hP i

/-! ### The end of a slot's work (R190, R247) -/

/-- A station's slot completes: P holds of the station after it if it holds once the slot is IDLE, the completion counted. -/
theorem State.Has.completeSlot {s : State} {x : Station} (hx : s.station? id st = some x) (k : Nat)
    (haborts : (x.slot (BitVec.ofNat 4 k)).aborts = [])
    (h : ∀ r, P { x.setSlot (BitVec.ofNat 4 k) Slot.idle with ended := r }) : (s.completeSlot id st k).Has id st P := by
  unfold State.completeSlot
  simp only [hx, haborts, List.foldl_nil]
  refine State.Has.settleExit hP (State.Has.unsend hP (State.Has.retire hP (State.Has.sigDone hP ?_ ..) ..) ..) id
  exact ⟨_, State.updSt_station hx _, h _⟩

/-- The end of a slot of one station leaves P with every other. -/
theorem State.Has.completeSlot_other {s : State} (h : s.Has id st P) {i j : Nat} (hij : (i, j) ≠ (id, st)) (k : Nat) :
    (s.completeSlot i j k).Has id st P := by
  unfold State.completeSlot
  split
  · exact h
  · refine State.Has.settleExit hP (State.Has.foldl (fun s a hs => ?_) _ (State.Has.unsend hP (State.Has.retire hP
      (State.Has.sigDone hP (h.updSt_other hij _) ..) ..) ..)) i
    exact (hs.updSt_other hij _).sigDone hP ..

/-- What a slot performed to its end does before it completes: the rest of its beat is discarded and its open run counted (R180, R190). -/
def State.beforeEnd (s : State) (id st : Nat) (q : Slot) : State :=
  let s1 := if q.kind.takes && q.taken != 0 then s.popOut (s.tileAt id st) q.outport else s
  if q.sector.isSome then s1.sigSector id st q.sigMode q.sigK 1 else s1

omit hP in
theorem State.endSlot_eq {s : State} {x : Station} (hx : s.station? id st = some x) (k : Nat) :
    s.endSlot id st k = (s.beforeEnd id st (x.slot (BitVec.ofNat 4 k))).completeSlot id st k := by
  simp only [State.endSlot, hx, State.beforeEnd]

omit hP in
theorem KeepsOf.beforeEnd (s : State) (id st : Nat) (q : Slot) : KeepsOf Station.uncounted s (s.beforeEnd id st q) := by
  have hpop : KeepsOf Station.uncounted s (if q.kind.takes && q.taken != 0 then s.popOut (s.tileAt id st) q.outport else s) := by
    split
    · exact KeepsOf.updPorts (fun _ _ => rfl) ..
    · exact KeepsOf.refl s
  unfold State.beforeEnd
  dsimp only
  split
  · exact hpop.trans (KeepsOf.sigSector (fun _ _ => rfl) ..)
  · exact hpop

/-- A station's slot is performed to its end: P holds of the station after it if it holds once the slot is IDLE, the completion counted. -/
theorem State.Has.endSlot {s : State} {x : Station} (hx : s.station? id st = some x) (k : Nat)
    (haborts : (x.slot (BitVec.ofNat 4 k)).aborts = [])
    (h : ∀ r, P { x.setSlot (BitVec.ofNat 4 k) Slot.idle with ended := r }) : (s.endSlot id st k).Has id st P := by
  rw [State.endSlot_eq hx]
  obtain ⟨e, he⟩ := (KeepsOf.beforeEnd s id st (x.slot (BitVec.ofNat 4 k))).uncounted hx
  exact State.Has.completeSlot hP he k haborts fun r => hP.counts e (h r)

theorem State.Has.endSlot_other {s : State} (h : s.Has id st P) {i j : Nat} (hij : (i, j) ≠ (id, st)) (k : Nat) :
    (s.endSlot i j k).Has id st P := by
  cases hx : s.station? i j with
  | none => simpa only [State.endSlot, hx] using h
  | some x =>
    rw [State.endSlot_eq hx]
    exact (h.of_uncounted hP (KeepsOf.beforeEnd ..)).completeSlot_other hP hij k

end

end Sys2Proof.Machine
end

section
/-! An SMC that has joined a station whose slot a FREEZE has frozen: its bare EOS ends that slot too, which is IDLE and still frozen. -/

namespace Sys2Proof.Slice0
open Machine

/-! ### A multicast to a frozen slot (R218, R378) -/

/-- The slot of an empty SMC with EOS, its root station 0, its word number 0 of the lane. -/
def emptyCast : Slot := { Slot.idle with state := .running, kind := .mc, uid := 5, eos := true }

/-- A station that has issued the word of that SMC. -/
def castStation : Station := { (Station.launch 0 View.launch).setSlot 15 emptyCast with pos := 1 }

/-- A frieze of two such stations. FREEZE has frozen slot 15 of station 1, which is not the root. -/
def castFrieze : Frieze := { placedFrieze 0 with stations := [castStation, castStation.freezeSlot 15 true] }

/-- The state with that frieze on tiles 0 and 1. -/
def castState : State := { State.reset with friezes := [(0, castFrieze)] }

theorem castState_moves : Moves castState 0 0 15 castFrieze castStation emptyCast where
  at_ := ⟨rfl, rfl⟩
  on := ⟨rfl, rfl⟩
  slot := ⟨by decide, rfl⟩
  run := ⟨rfl, rfl, rfl⟩

theorem castState_flows : Flows castState 0 0 15 castFrieze emptyCast where
  ports := by decide
  beat h := absurd h (by decide)
  index := nofun

/-- The root's beats go to both stations: each holds the slot for the word, neither is held, and its in-port has room. -/
theorem castState_goes : Goes castState 0 0 15 castFrieze emptyCast [0, 1] where
  kind := .inr (.inr (.inr rfl))
  port := by decide
  self h := absurd rfl h
  cast _ := ⟨rfl, by decide, by decide, by decide, by decide⟩
  others u hu := by
    obtain rfl | rfl : u = 0 ∨ u = 1 := by simpa using hu
    · exact ⟨_, rfl, rfl, rfl, by decide, .inl (by decide)⟩
    · exact ⟨_, rfl, rfl, rfl, by decide, .inl (by decide)⟩

/-- The state in which the slots of that SMC end: its bare EOS stands in in-port 0 of both tiles. -/
def castDelivered : State := [0, 1].foldl (fun s u => s.enterPort (castFrieze.tileOf u) 0 .bareEos) (settleRun castState 0 0 15 0)

theorem castState_ends :
    exec (.streamElementPerformed 0 0 15) castState = .next ([0, 1].foldl (fun s u => s.endSlot 0 u 15) castDelivered) := rfl

/-- Slot 15 of a station is frozen and no SABORT waits for it. -/
def FrozenSlot (y : Station) : Prop := (y.slot 15).frozen = true ∧ (y.slot 15).aborts = []

theorem frozenSlot_steady : Steady FrozenSlot where
  counts _ h := h
  retires u h := by simpa [FrozenSlot, Station.slot, Station.retire] using h
  signals h := h

theorem castDelivered_frozen : castDelivered.Has 0 1 FrozenSlot := by
  obtain ⟨y, hy, hslot⟩ := Option.map_eq_some_iff.mp
    (show (castDelivered.station? 0 1).map (·.slot 15) = some { emptyCast with frozen := true } by decide)
  exact ⟨y, hy, by rw [FrozenSlot, hslot]; exact ⟨rfl, rfl⟩⟩

/-- The root ends slot 15 of station 1 with its own, and the freeze of that slot stands. -/
theorem castState_frozen {t : State} (h : exec (.streamElementPerformed 0 0 15) castState = .next t) : t.Has 0 1 FrozenSlot := by
  rw [castState_ends, Host.Outcome.next.injEq] at h
  rw [← h, List.foldl_cons, List.foldl_cons, List.foldl_nil]
  obtain ⟨y, hy, hf, ha⟩ := castDelivered_frozen.endSlot_other frozenSlot_steady (i := 0) (j := 0) (by decide) 15
  exact State.Has.endSlot frozenSlot_steady hy 15 ha fun r => by
    simpa [FrozenSlot, Station.slot, Station.setSlot, Slot.idle] using hf

/-- Refutes O19: the stations a multicast goes to hold a slot for its word that nothing holds, but a FREEZE may have frozen the slot of one
that is not the root; the bare EOS of an empty SMC ends that slot as well, and it is not the slot at reset the statement has, since a
freeze stands whatever the slot holds (R378). The statement lacks the hypothesis that no slot the beat goes to is frozen. -/
theorem not_streamElements : ¬Obligations.StreamElements := by
  unfold Obligations.StreamElements
  intro hall
  obtain ⟨-, hbare, -⟩ := hall
  obtain ⟨t, ht, -, hidle⟩ := hbare 0 0 15 castFrieze castStation emptyCast [0, 1] castState castState_moves castState_flows castState_goes
    rfl rfl (.inl (by decide))
  obtain ⟨-, y, hy, hslot⟩ := hidle 1 (by decide)
  obtain ⟨z, hz, hfrozen, -⟩ := castState_frozen ht
  obtain rfl : y = z := Option.some.inj (hy.symm.trans hz)
  exact absurd (hfrozen.symm.trans (congrArg Slot.frozen hslot)) (by decide)

end Sys2Proof.Slice0
end

section
/-! SUPPORT. One slot of a station through the steps of an element: how far its stream has come, its open run, and its end. -/

namespace Sys2Proof.Machine

/-! ### Registers and slots of a station -/

theorem Station.slot_setSlot (x : Station) (k : BitVec 4) (q : Slot) : (x.setSlot k q).slot k = { q with frozen := (x.slot k).frozen } := by
  simp [Station.slot, Station.setSlot]

theorem Station.setSlot_self (x : Station) (k : BitVec 4) : x.setSlot k (x.slot k) = x := by
  change { x with slots := x.slots.set k.toNat x.slots[k.toNat] } = x
  rw [Vector.set_getElem_self]

theorem Station.setG_slots (x : Station) (d : Reg) (v : Dword) : (x.setG d v).slots = x.slots := by
  unfold Station.setG
  split <;> rfl

/-- The end of an access leaves of slot k all but what it waits for. -/
theorem Station.retire_slot (x : Station) (u : Nat) (k : BitVec 4) :
    (x.retire u).1.slot k = { x.slot k with waits := without (x.slot k).waits u, barred := without (x.slot k).barred u } := by
  simp [Station.slot, Station.retire]

/-! ### A slot replaced -/

/-- Station st is x but for its counters and slot k, which is q. -/
structure State.SlotIs (s : State) (id st k : Nat) (x : Station) (q : Slot) : Prop where
  thaw : q.frozen = (x.slot (BitVec.ofNat 4 k)).frozen
  found : ∃ e, s.station? id st = some { x.setSlot (BitVec.ofNat 4 k) q with e := e }

section
variable {s t : State} {id st k : Nat} {x : Station} {q : Slot}

theorem State.SlotIs.of_station (hx : s.station? id st = some x) (hq : x.slot (BitVec.ofNat 4 k) = q) : s.SlotIs id st k x q :=
  ⟨congrArg Slot.frozen hq.symm, x.e, by rw [hx, ← hq, Station.setSlot_self]⟩

theorem State.SlotIs.of_uncounted (h : s.SlotIs id st k x q) (hk : KeepsOf Station.uncounted s t) : t.SlotIs id st k x q := by
  obtain ⟨hthaw, e, he⟩ := h
  obtain ⟨e', he'⟩ := hk.uncounted he
  exact ⟨hthaw, e', he'⟩

theorem State.SlotIs.of_friezes (h : s.SlotIs id st k x q) (hf : t.friezes = s.friezes) : t.SlotIs id st k x q :=
  h.of_uncounted (KeepsOf.of_friezes hf)

/-- The station where its slot k is q, and that it holds q there. -/
theorem State.SlotIs.station (h : s.SlotIs id st k x q) :
    ∃ y, s.station? id st = some y ∧ y.slot (BitVec.ofNat 4 k) = q ∧ y.g = x.g ∧
      ∃ e, y = { x.setSlot (BitVec.ofNat 4 k) q with e := e } := by
  obtain ⟨hthaw, e, he⟩ := h
  exact ⟨_, he, (Station.slot_setSlot ..).trans (by rw [← hthaw]), rfl, e, rfl⟩

theorem State.SlotIs.updSlot (h : s.SlotIs id st k x q) {g : Slot → Slot} (hg : (g q).frozen = q.frozen) :
    (s.updSlot id st k g).SlotIs id st k x (g q) := by
  obtain ⟨y, hy, hq, -, e, rfl⟩ := h.station
  refine ⟨hg.trans h.thaw, e, (State.updSt_station hy _).trans (congrArg some ?_)⟩
  rw [hq]
  simp only [Station.setSlot, Station.slot, Vector.set_set, Vector.getElem_set_self]

theorem State.SlotIs.putSlot (h : s.SlotIs id st k x q) {p : Slot × Nat} (hp : p.1.frozen = q.frozen) :
    (s.putSlot id st k p).SlotIs id st k x p.1 :=
  (h.updSlot hp).of_uncounted (KeepsOf.sigSector (fun _ _ => rfl) ..)

theorem Slot.closeRun_fst (q walk : Slot) (idx : List Beat) : ∃ r, (q.closeRun walk idx).1 = { q with sector := r } := by
  unfold Slot.closeRun
  (repeat' split)
  exacts [⟨q.sector, rfl⟩, ⟨none, rfl⟩, ⟨q.sector, rfl⟩, ⟨none, rfl⟩, ⟨q.sector, rfl⟩]

/-- The close of a whole run changes nothing else of a slot that takes no indices (R188, R190). -/
theorem State.SlotIs.settleRun (h : s.SlotIs id st k x q) (hi : q.kind.indirect = false) (tile : Nat) :
    ∃ r, (settleRun s id st k tile).SlotIs id st k x { q with sector := r } := by
  obtain ⟨y, hy, rfl, -, -⟩ := h.station
  unfold Machine.settleRun
  simp only [hy]
  split
  · exact ⟨_, h⟩
  · split
    · exact ⟨_, h⟩
    next w _ =>
      obtain ⟨r, hr⟩ := Slot.closeRun_fst (y.slot (BitVec.ofNat 4 k)) w
        (if (!(y.slot (BitVec.ofNat 4 k)).kind.indirect || s.mayTake tile (y.slot (BitVec.ofNat 4 k)).idxport (id, st, k)) = true then
          (s.tile tile).outPort (y.slot (BitVec.ofNat 4 k)).idxport else [])
      refine ⟨r, ?_⟩
      simp only [hr]
      simp only [hi, Bool.false_and, Bool.or_false]
      exact h.putSlot (p := ({ y.slot (BitVec.ofNat 4 k) with sector := r }, _)) rfl

theorem Quiet.putSlot (s : State) (id st k : Nat) (p : Slot × Nat) : Quiet s (s.putSlot id st k p) :=
  (Quiet.updSt ..).trans (Quiet.sigSector ..)

theorem Quiet.settleRun (s : State) (id st k tile : Nat) : Quiet s (settleRun s id st k tile) := by
  unfold Machine.settleRun
  split
  · exact Quiet.refl s
  · dsimp only
    split
    · exact Quiet.refl s
    · split
      · exact Quiet.refl s
      · exact Quiet.putSlot ..

/-- No index beat leaves for a slot that takes no indices. -/
theorem State.SlotIs.popIdx (h : s.SlotIs id st k x q) (hi : q.kind.indirect = false) (tile fuel : Nat) :
    Machine.popIdx s id st k tile fuel = s := by
  obtain ⟨y, hy, rfl, -, -⟩ := h.station
  cases fuel with
  | zero => rfl
  | succ n => simp only [Machine.popIdx, hy, hi, Bool.not_false, Bool.true_or, if_true]

/-- A slot that is IDLE stays as it is while other accesses end, and so do the registers. -/
theorem Steady.slot_idle (k : BitVec 4) (g : Vector Dword 32) : Steady fun y => y.g = g ∧ y.slot k = Slot.idle where
  counts _ h := h
  retires u h := ⟨h.1, by simp only [Station.retire_slot, h.2]; rfl⟩
  signals h := h

/-- The end of a slot's work leaves it IDLE, the registers as they were (R173). -/
theorem State.SlotIs.completeSlot (h : s.SlotIs id st k x q) (ha : q.aborts = []) (hf : q.frozen = false) :
    (s.completeSlot id st k).Has id st fun y => y.g = x.g ∧ y.slot (BitVec.ofNat 4 k) = Slot.idle := by
  obtain ⟨y, hy, hq, hg, -⟩ := h.station
  refine State.Has.completeSlot (Steady.slot_idle _ _) hy k (by rw [hq, ha]) fun r => ⟨hg, ?_⟩
  exact (Station.slot_setSlot ..).trans (by rw [hq, hf]; rfl)

theorem State.SlotIs.endSlot (h : s.SlotIs id st k x q) (ha : q.aborts = []) (hf : q.frozen = false) :
    (s.endSlot id st k).Has id st fun y => y.g = x.g ∧ y.slot (BitVec.ofNat 4 k) = Slot.idle := by
  obtain ⟨y, hy, -⟩ := h.station
  rw [State.endSlot_eq hy]
  exact (h.of_uncounted (KeepsOf.beforeEnd ..)).completeSlot ha hf

end

end Sys2Proof.Machine
end

section
/-! SUPPORT. An element in memory within reach that no owner node forwards to: the checks and the bytes, and the step of a slot that
takes no port. -/

namespace Sys2Proof.Machine

/-! ### Elements in place (R182, R187) -/

section
variable {s t : State} {f : Frieze} {st : Nat} {form : Dword} {a : Int} {z : Nat} {kd : Access} {p : Place}

theorem Quiet.placeUp (q : Quiet s t) (p : Place) : t.placeUp p = s.placeUp p := by rw [q.rest]; rfl

theorem Quiet.lies (q : Quiet s t) (h : Slice0.Lies s f st form a z kd p) : Slice0.Lies t f st form a z kd p := by
  obtain ⟨hel, hup, hver, hown⟩ := h
  exact ⟨(q.elementCheck ..).trans hel, (q.placeUp p).trans hup, hver, (q.ownerForward p).trans hown⟩

theorem Quiet.direct (q : Quiet s t) (job tile : Nat) : Slice0.direct t job tile form a z kd = Slice0.direct s job tile form a z kd := by
  simp only [Slice0.direct, q.elementCheck, q.ownerForward]

theorem direct_of_lies (h : Slice0.Lies s f st form a z kd p) : Slice0.direct s f.job (f.tileOf st) form a z kd = true := by
  obtain ⟨hel, -, -, hown⟩ := h
  simp only [Slice0.direct, hel, hown, Option.isNone_none]

theorem fetchElem_lies (h : Slice0.Lies s f st form a z .read p) (fz : Nat) (n : BitVec 3) (v : View) :
    fetchElem s f.job fz n (f.tileOf st) v form a z = .ok (s.bytesAt p z) (s.badAt p z) := by
  obtain ⟨hel, hup, hver, -⟩ := h
  simp only [fetchElem, hel, hup, hver, Bool.not_true, Bool.false_eq_true, if_false]

theorem storeElem_lies {bs : List Byte} (h : Slice0.Lies s f st form a bs.length .write p) (u : Nat) (v : View) :
    storeElem s u f.job (f.tileOf st) v form a bs = .done (s.putBytes p bs) := by
  obtain ⟨hel, hup, hver, -⟩ := h
  simp only [storeElem, hel, hup, hver, Bool.not_true, Bool.false_eq_true, if_false]

/-- Accesses no owner node forwards take no forwarding slot. -/
theorem enterNodes_direct {l : List (Dword × Int × Nat × Access)} {job tile : Nat}
    (h : ∀ e ∈ l, Slice0.direct s job tile e.1 e.2.1 e.2.2.1 e.2.2.2 = true) (u : Nat) : s.enterNodes u job tile l = (true, s) := by
  induction l with
  | nil => rfl
  | cons e l ih =>
    have he := h e List.mem_cons_self
    have hl := ih fun e' h' => h e' (List.mem_cons_of_mem _ h')
    unfold State.enterNodes
    unfold Slice0.direct at he
    split
    · exact hl
    next p hp =>
      rw [hp] at he
      dsimp only at he
      rw [Option.isNone_iff_eq_none] at he
      rw [he]
      exact hl

end

/-! ### The step of a slot that takes no port (R173) -/

theorem Slice0.Moves.runSlot {s : State} {id st k : Nat} {f : Frieze} {x : Station} {q : Slot} (h : Slice0.Moves s id st k f x q)
    {mine : SKind → Bool} (hm : mine q.kind = true) (go : State → Frieze → Slot → State) :
    Machine.runSlot s id st k mine go = go s f q := by
  obtain ⟨⟨hf, hst⟩, ⟨hres, hdrain⟩, ⟨hk, rfl⟩, hrun, hwaits, hfrozen⟩ := h
  unfold Machine.runSlot
  simp only [hf, hst, hres, hdrain, hk, hm, hrun, hwaits, hfrozen, List.isEmpty_nil, and_self, if_true]

/-- The event of a slot of its frieze's station whose elements it performs. -/
theorem exec_element {s : State} {id st k : Nat} {f : Frieze} {x : Station} {q : Slot} (h : Slice0.Moves s id st k f x q)
    (hk : q.kind.plain = true) : exec (.streamElementPerformed id st k) s = .next (slotStep s f id st k q) := by
  have hlt : k < 16 := h.slot.1
  change execStreamElementPerformed id st k s = _
  rw [execStreamElementPerformed, if_neg (by omega), if_neg (by omega), Slice0.Moves.runSlot h hk]

/-- A kind of slot that performs elements in memory and takes no port. -/
def SKind.portless (k : SKind) : Prop := k = .ldg ∨ k = .stg ∨ k = .fill

/-- What such a slot does with its next element. -/
def portlessElem (s : State) (f : Frieze) (id st k : Nat) (q : Slot) : State :=
  if q.kind = .fill then fillElem s f id st k q else scalarElem s f id st k q

/-- A slot that takes no port performs its next element once its open run is closed where it is whole. -/
theorem slotStep_portless {s : State} {id st k : Nat} {f : Frieze} {x : Station} {q : Slot} (h : Slice0.Moves s id st k f x q)
    (hk : q.kind.portless)
    (hd : ∀ e ∈ q.touches [] st, Slice0.direct s f.job (f.tileOf st) e.1 e.2.1 e.2.2.1 e.2.2.2 = true) :
    ∃ r t, Quiet s t ∧ t.SlotIs id st k x { q with sector := r } ∧
      slotStep s f id st k q = portlessElem t f id st k { q with sector := r } := by
  obtain ⟨⟨hf, hst⟩, -, ⟨-, hslot⟩, -⟩ := h
  have hind : q.kind.indirect = false := by obtain hk | hk | hk := hk <;> rw [hk] <;> rfl
  have hslotIs : s.SlotIs id st k x q := .of_station ((State.station_eq hf).trans hst) hslot
  obtain ⟨r, hr⟩ := hslotIs.settleRun hind (f.tileOf st)
  obtain ⟨y, hy, hq, -⟩ := hr.station
  have hquiet := Quiet.settleRun s id st k (f.tileOf st)
  refine ⟨r, _, hquiet, hr, ?_⟩
  have htouch : ∀ idx, ({ q with sector := r } : Slot).touches idx st = q.touches [] st := fun idx => by
    obtain hk | hk | hk := hk <;> simp only [Slot.touches, hk]
  have henter := enterNodes_direct (s := settleRun s id st k (f.tileOf st)) (fun e he => (hquiet.direct ..).trans (hd e he)) q.uid
  have hlost : q.lostPort s (f.tileOf st) id = false := by
    obtain hk | hk | hk := hk <;> simp [Slot.lostPort, hk, SKind.reads, SKind.takes, SKind.indirect]
  unfold slotStep
  simp only [hlost, Bool.false_eq_true, if_false, hind, Bool.false_and, Bool.false_or, hslotIs.popIdx hind, hy, hq, htouch, henter,
    Bool.not_true]
  obtain hk | hk | hk := hk <;> simp [portlessElem, hk, SKind.takes]

end Sys2Proof.Machine
end

section
/-! SUPPORT. What the elements of LDG, STG and SFILL, and the scalar accesses left outstanding, leave of their station and of memory. -/

namespace Sys2Proof.Machine

/-! ### Bytes written at a place -/

/-- Bytes written at a place, with nothing else done to memory before and after. -/
theorem putBytes_only {s t r : State} {p : Place} {bs : List Byte} (hq : Quiet s t) (hwf : (s.mem p.mem).wf)
    (hr : r.store = (t.putBytes p bs).store) : r.bytesAt p bs.length = bs ∧ SameBytesBut s r p bs.length := by
  have hmem := State.mem_of_store hr
  refine ⟨?_, fun k a h => ?_⟩
  · rw [State.bytesAt, hmem, ← State.bytesAt, State.bytesAt_putBytes (by rwa [hq.mem])]
  · rw [hmem, SameBytesBut.putBytes t p bs k a h, hq.mem]

/-! ### Whether a write takes effect (R255, R256) -/

/-- The write or claim is over: applied, or discarded for a doomed transaction. -/
def LineWrite.over : LineWrite → Bool
  | .done .. => true
  | _ => false

/-- The write is over. -/
def PutRes.over : PutRes → Bool
  | .done _ => true
  | _ => false

theorem Quiet.setChain {s t : State} (q : Quiet s t) (l : Nat) (c : Chain) : Quiet (s.setChain l c) (t.setChain l c) :=
  ⟨by rw [State.setChain, State.setChain, q.rest], q.tiles⟩

theorem Quiet.dom? {s t : State} (q : Quiet s t) (job dom : Nat) : t.dom? job dom = s.dom? job dom := by rw [q.rest]; rfl

theorem Quiet.rec? {s t : State} (q : Quiet s t) (job dom txid : Nat) : t.rec? job dom txid = s.rec? job dom txid := by
  rw [q.rest]; rfl

theorem Quiet.updDom {s t : State} (q : Quiet s t) (job dom : Nat) (g : Domain → Domain) :
    Quiet (s.updDom job dom g) (t.updDom job dom g) := by
  unfold State.updDom
  rw [q.dom?]
  split
  · exact q
  · exact ⟨by rw [q.rest], q.tiles⟩

theorem Quiet.updRec {s t : State} (q : Quiet s t) (job dom txid : Nat) (g : TxRec → TxRec) :
    Quiet (s.updRec job dom txid g) (t.updRec job dom txid g) := q.updDom ..

theorem Quiet.dropIntents {s t : State} (q : Quiet s t) (job dom txid : Nat) (which : Nat → Bool) :
    Quiet (s.dropIntents job dom txid which) (t.dropIntents job dom txid which) :=
  ⟨by rw [q.rest]; rfl, q.tiles⟩

theorem Quiet.endClaims {s t : State} (q : Quiet s t) (job dom txid : Nat) :
    Quiet (s.endClaims job dom txid) (t.endClaims job dom txid) :=
  ⟨by rw [q.rest]; rfl, q.tiles⟩

theorem Quiet.doom {s t : State} (q : Quiet s t) (job dom txid code : Nat) : Quiet (s.doom job dom txid code) (t.doom job dom txid code) := by
  unfold State.doom
  rw [q.rec?]
  split
  · exact q
  · split
    · exact ((q.updRec ..).dropIntents ..).endClaims ..
    · exact q

theorem Quiet.chainOf {s t : State} (q : Quiet s t) (job dom line : Nat) : t.chainOf job dom line = s.chainOf job dom line := by
  rw [q.rest]; rfl

theorem Quiet.poolRoom {s t : State} (q : Quiet s t) (job dom line : Nat) : t.poolRoom job dom line = s.poolRoom job dom line := by
  rw [q.rest]; rfl

theorem Quiet.forward {s t : State} (q : Quiet s t) (node cls src : Nat) : (t.forward node cls src).1 = (s.forward node cls src).1 := by
  rw [q.rest]
  unfold State.forward
  dsimp only
  (repeat' split) <;> rfl

theorem Quiet.viewRec {s t : State} (q : Quiet s t) (job : Nat) (v : View) : viewRec t job v = viewRec s job v := q.rec? ..

theorem Quiet.writeLine_over {s t : State} (q : Quiet s t) (job : Nat) (v : View) (dom line off : Nat) (bs : List Byte) (claim : Bool)
    (u : Nat) : (writeLine t job v dom line off bs claim u).over = (writeLine s job v dom line off bs claim u).over := by
  unfold writeLine
  simp -zeta only [q.viewRec, q.chainOf, q.rec?]
  extract_lets txid
  split
  · rfl
  · split
    · rfl
    next r _ =>
      split
      · rfl
      · split
        · rfl
        · extract_lets create
          have hcreate : ∀ {a b : State}, Quiet a b → (create b).over = (create a).over := fun {a b} q => by
            simp only [create, q.poolRoom]
            cases a.poolRoom job dom line
            · rfl
            · simp only [if_true]
              split
              · rfl
              · rw [q.forward]
                cases (a.forward (ctrlNode (lineModule line) line) 0 u).1 <;> rfl
          split
          next i _ =>
            split
            · rfl
            · split
              · rfl
              · split
                · rfl
                · split
                  · exact hcreate (q.setChain ..)
                  next h _ =>
                    split
                    · rfl
                    · have hdoom := q.doom job dom i.txid 3
                      dsimp only
                      rw [hdoom.chainOf]
                      refine hcreate ?_
                      split
                      · exact (hdoom.setChain ..).updRec ..
                      · exact hdoom.setChain ..
          next =>
            split
            · rfl
            · exact hcreate q

/-- Whether a write is over does not hang on the friezes or the tiles' counters. -/
theorem Quiet.storeElem_over {s t : State} (q : Quiet s t) (u job tile : Nat) (v : View) (form : Dword) (a : Int) (bs : List Byte) :
    (storeElem t u job tile v form a bs).over = (storeElem s u job tile v form a bs).over := by
  unfold storeElem
  rw [q.elementCheck]
  cases Machine.elementCheck s job tile form a bs.length .write with
  | error e => rfl
  | ok p =>
    dsimp only
    rw [q.placeUp]
    split
    · rfl
    · cases p.ver with
      | none => rfl
      | some d =>
        have h := q.writeLine_over job v d (p.addr / 128) (p.addr % 128) bs false u
        dsimp only
        have hput : ∀ w : LineWrite, PutRes.over (match w with
            | .done s' _ => .done s'
            | .wait s' => .wait s'
            | .fault e => .err e) = w.over := fun w => by cases w <;> rfl
        exact (hput _).trans (h.trans (hput _).symm)

/-! ### An LDG and the STG it may go ahead of (R203) -/

theorem find?_set_of_neg {α : Type} {p : α → Bool} {b : α} (hb : p b = false) (l : List α) (n : Nat)
    (hn : ∀ a, l[n]? = some a → p a = false) : (l.set n b).find? p = l.find? p := by
  induction l generalizing n with
  | nil => rfl
  | cons a l ih =>
    cases n with
    | zero => rw [List.set_cons_zero, List.find?_cons_of_neg (by simp [hb]), List.find?_cons_of_neg (by simp [hn a rfl])]
    | succ n => rw [List.set_cons_succ, List.find?_cons, List.find?_cons, ih n hn]

/-- The STG of a station with an access number. -/
def Slot.isStg (u : Nat) (p : Slot) : Bool := p.state == .running && p.kind == .stg && p.uid == u

/-- What has become of an STG, if there is one, for an LDG at an address. -/
def stgNow (s : State) (f : Frieze) (st : Nat) (a : Int) : Option Slot → StgNow
  | none => .gone
  | some p => if (storeElem s p.uid f.job (f.tileOf st) p.view p.base a (bytesOf p.val)).over then .value p.val else .wait

theorem pendingStg_eq {s : State} {id st : Nat} {x : Station} (hx : s.station? id st = some x) (f : Frieze) (q : Slot) (a : Int) :
    pendingStg s f id st q a = stgNow s f st a (x.slots.toList.find? (Slot.isStg q.cmp.toNat)) := by
  have hstg : (fun p : Slot => p.state == .running && p.kind == .stg && p.uid == q.cmp.toNat) = Slot.isStg q.cmp.toNat := rfl
  rw [pendingStg, hx, Option.bind_some, hstg]
  cases x.slots.toList.find? (Slot.isStg q.cmp.toNat) with
  | none => rfl
  | some p =>
    rw [stgNow]
    dsimp only
    cases storeElem s p.uid f.job (f.tileOf st) p.view p.base a (bytesOf p.val) <;> rfl

theorem Quiet.stgNow {s t : State} (hq : Quiet s t) (f : Frieze) (st : Nat) (a : Int) (p : Option Slot) :
    stgNow t f st a p = stgNow s f st a p := by
  cases p with
  | none => rfl
  | some p => simp only [Machine.stgNow, hq.storeElem_over]

/-- An LDG finds the same STG, over as far, where only friezes, counters and its own slot's run have changed. -/
theorem Quiet.pendingStg {s t : State} (hq : Quiet s t) {f : Frieze} {id st k : Nat} {x : Station} {q q' : Slot}
    (hx : s.station? id st = some x) (hk : (x.slot (BitVec.ofNat 4 k)).kind ≠ .stg) (ht : t.SlotIs id st k x q') (hk' : q'.kind ≠ .stg)
    (hc : q'.cmp = q.cmp) (a : Int) : pendingStg t f id st q' a = pendingStg s f id st q a := by
  obtain ⟨-, e, hy⟩ := ht
  rw [pendingStg_eq hy, pendingStg_eq hx, hq.stgNow, hc, Station.setSlot, Vector.toList_set]
  refine congrArg _ (find?_set_of_neg ?_ _ _ fun p hp => ?_)
  · rw [Slot.isStg, beq_false_of_ne hk', Bool.and_false, Bool.false_and]
  · obtain ⟨_, rfl⟩ := List.getElem?_eq_some_iff.mp hp
    change Slot.isStg _ (x.slot (BitVec.ofNat 4 k)) = false
    rw [Slot.isStg, beq_false_of_ne hk, Bool.and_false, Bool.false_and]

/-- What an LDG returns: the value of the STG it goes ahead of, else the bytes in memory. -/
def StgNow.returns (n : StgNow) (mem : Dword) : Dword :=
  match n with
  | .value v => v
  | _ => mem

theorem scalarElem_load {t : State} {f : Frieze} {id st : Nat} {q : Slot} {p : Place} (hk : q.kind = .ldg)
    (hl : Slice0.Lies t f st q.base (formAddr q.base + q.base2.toInt) 8 .read p) (hbad : t.badAt p 8 = false)
    (hn : Slice0.ahead t f id st q ≠ .wait) (k : Nat) :
    scalarElem t f id st k q = ((t.updSt id st (·.setG q.dst ((Slice0.ahead t f id st q).returns (bvOf 64 (t.bytesAt p 8))))).sigSector
      id st q.sigMode q.sigK 1).completeSlot id st k := by
  unfold Slice0.ahead at hn ⊢
  unfold scalarElem
  simp only [hk, fetchElem_lies hl, hbad]
  generalize (if q.applied = true then pendingStg t f id st q (formAddr q.base + q.base2.toInt) else .gone) = n at hn ⊢
  cases n with
  | value v => rfl
  | wait => exact absurd rfl hn
  | gone => rfl

theorem scalarElem_store {t : State} {f : Frieze} {id st : Nat} {q : Slot} {p : Place} (hk : q.kind = .stg)
    (hl : Slice0.Lies t f st q.base (formAddr q.base + q.base2.toInt) (bytesOf q.val).length .write p) (k : Nat) :
    scalarElem t f id st k q = ((t.putBytes p (bytesOf q.val)).sigSector id st q.sigMode q.sigK 1).completeSlot id st k := by
  unfold scalarElem
  simp only [hk, if_true, storeElem_lies hl]

end Sys2Proof.Machine
end

section
/-! SUPPORT. The element of SFILL, the scalar accesses left outstanding, and what the elements of slots leave of their station and of memory. -/

namespace Sys2Proof.Machine

/-! ### An element that takes nothing from a port, and the end of its stream (R173, R217) -/

theorem fillElem_lies {t : State} {f : Frieze} {id st : Nat} {q : Slot} {p : Place}
    (hl : Slice0.Lies t f st q.base (elementAddr q.base q.shape none q.next) q.fillBytes.length .write p) (k : Nat) :
    fillElem t f id st k q =
      afterElem (t.putBytes p q.fillBytes) id st k (f.tileOf st) q (some (elementAddr q.base q.shape none q.next)) := by
  simp only [fillElem, storeElem_lies hl]

/-- After an element of a slot that takes no port the slot goes on at the next, or is IDLE after the last. -/
theorem State.SlotIs.afterElem {s : State} {id st k : Nat} {x : Station} {q : Slot} (h : s.SlotIs id st k x q)
    (hi : q.kind.indirect = false) (ht : q.kind.takes = false) (hrun : q.state = .running) (ha : q.aborts = []) (hf : q.frozen = false)
    (tile : Nat) (a : Int) :
    (afterElem s id st k tile q (some a)).Has id st fun y =>
      (q.next + 1 < q.limit → (y.slot (BitVec.ofNat 4 k)).state = .running ∧ (y.slot (BitVec.ofNat 4 k)).next = q.next + 1) ∧
      (q.limit ≤ q.next + 1 → y.slot (BitVec.ofNat 4 k) = Slot.idle) := by
  have hput : (s.putSlot id st k (q.perform a)).SlotIs id st k x { q with sector := some (sectorOf a) } :=
    h.putSlot (p := q.perform a) rfl
  have hpass : (passElem (s.putSlot id st k (q.perform a)) id st k tile q).SlotIs id st k x
      { q with sector := some (sectorOf a), next := q.next + 1, taken := 0 } := by
    simpa only [passElem, ht, Bool.false_and, Bool.false_eq_true, if_false] using
      hput.updSlot (g := fun p => { p with next := q.next + 1, taken := if p.kind.takes then q.taken + q.shape.size else 0 }) rfl
  obtain ⟨r, hr⟩ := hpass.settleRun hi tile
  obtain ⟨y, hy, hq, -⟩ := hr.station
  unfold Machine.afterElem
  dsimp only
  rw [hpass.popIdx hi, hy]
  dsimp only
  rw [hq]
  change State.Has (if q.state = .running ∧ q.limit ≤ q.next + 1 then _ else _) _ _ _
  by_cases hend : q.limit ≤ q.next + 1
  · rw [if_pos ⟨hrun, hend⟩]
    obtain ⟨z, hz, -, hidle⟩ := hr.endSlot ha hf
    exact ⟨z, hz, fun hlt => absurd hend (by omega), fun _ => hidle⟩
  · rw [if_neg fun hc => hend hc.2]
    exact ⟨y, hy, fun _ => by rw [hq]; exact ⟨hrun, rfl⟩, fun hle => absurd hle hend⟩

theorem State.putBytes_friezes (s : State) (p : Place) (bs : List Byte) : (s.putBytes p bs).friezes = s.friezes := by
  unfold State.putBytes State.setMem
  split <;> rfl

/-- A register written leaves a slot what it is. -/
theorem State.SlotIs.updG {s : State} {id st k : Nat} {x : Station} {q : Slot} (h : s.SlotIs id st k x q) (d : Reg) (v : Dword) :
    (s.updSt id st (·.setG d v)).SlotIs id st k (x.setG d v) q := by
  obtain ⟨hthaw, e, he⟩ := h
  have hslot : (x.setG d v).slot (BitVec.ofNat 4 k) = x.slot (BitVec.ofNat 4 k) := by simp only [Station.slot, Station.setG_slots]
  have hcomm : (x.setSlot (BitVec.ofNat 4 k) q).setG d v = (x.setG d v).setSlot (BitVec.ofNat 4 k) q := by
    simp only [Station.setSlot, hslot]
    unfold Station.setG
    split <;> rfl
  obtain ⟨e', he'⟩ := setG_e d v (x.setSlot (BitVec.ofNat 4 k) q) e
  exact ⟨by rw [hslot, hthaw], e', by rw [State.updSt_station he, he', hcomm]⟩

/-! ### Scalar accesses left outstanding (R202, R203) -/

/-- The registers and the numbers of the scalar accesses left outstanding last while other accesses end. -/
theorem Steady.registers_pend (g : Vector Dword 32) (l : List Nat) : Steady fun y => y.g = g ∧ y.pend.map (·.uid) = l where
  counts _ h := h
  retires u h := ⟨h.1, by rw [← h.2, Station.retire, List.map_map]; rfl⟩
  signals h := h

theorem setGs_pend (vs : List Dword) (d : Reg) (x : Station) (l : List PendScalar) :
    setGs { x with pend := l } d vs = { setGs x d vs with pend := l } := by
  induction vs generalizing d x with
  | nil => rfl
  | cons v vs ih =>
    have hset : ({ x with pend := l } : Station).setG d v = { x.setG d v with pend := l } := by
      unfold Station.setG
      split <;> rfl
    rw [setGs, hset, ih, setGs]

/-- A station one of whose scalar accesses left outstanding is performed. -/
def Station.begun (x : Station) (j : Nat) : Station := { x with pend := x.pend.eraseIdx j }

/-- The event of a scalar access left outstanding that nothing holds: the access takes effect and is over. -/
theorem pend_performed {s t : State} {id st j : Nat} {f : Frieze} {x z : Station} {q : PendScalar} (hat : Slice0.At s id st f x)
    (hres : f.state = .resident) (hj : j < 16) (hq : x.pend[j]? = some q) (hw : q.waits = [])
    (hd : Slice0.direct s f.job (f.tileOf st) q.form q.addr (if q.quad then 32 else 8) (if q.store then .write else .read) = true)
    (hnow : scalarNow (s.updSt id st (·.begun j)) f.job id st (f.tileOf st) q = (t, true)) (hz : t.station? id st = some z) :
    ∃ r y, exec (.streamElementPerformed id st (16 + j)) s = .next r ∧ r.store = t.store ∧ r.station? id st = some y ∧ y.g = z.g ∧
      y.pend.map (·.uid) = z.pend.map (·.uid) := by
  obtain ⟨hf, hst⟩ := hat
  have henter := enterNodes_direct (l := [(q.form, (q.addr : Int), if q.quad then 32 else 8, if q.store then .write else .read)])
    (fun e he => by rw [List.mem_singleton.mp he]; exact hd) q.uid
  have hexec : exec (.streamElementPerformed id st (16 + j)) s =
      .next (settleExit ((t.sigDone id st q.sigMode q.sigK).retire id q.uid) id) := by
    change execStreamElementPerformed id st (16 + j) s = _
    simp only [Station.begun] at hnow
    rw [execStreamElementPerformed, if_neg (by omega), if_pos (by omega), hf]
    simp only [hres, if_true, Nat.add_sub_cancel_left, pendStep, hst, hq, hw, henter, hnow, List.isEmpty_nil, Bool.not_true,
      Bool.false_eq_true, if_false]
  have hP := Steady.registers_pend z.g (z.pend.map (·.uid))
  obtain ⟨y, hy, hg, hpend⟩ := State.Has.settleExit hP (State.Has.retire hP
    (State.Has.sigDone hP (⟨z, hz, rfl, rfl⟩ : t.Has id st _) id st q.sigMode q.sigK) id q.uid) id
  exact ⟨_, y, hexec, by simp, hy, hg, hpend⟩

theorem scalarNow_lies_load {s : State} {f : Frieze} {id st : Nat} {q : PendScalar} {p : Place} (hq : q.store = false)
    (hl : Slice0.Lies s f st q.form q.addr (if q.quad then 32 else 8) .read p) (hbad : s.badAt p (if q.quad then 32 else 8) = false) :
    scalarNow s f.job id st (f.tileOf st) q =
      (s.updSt id st fun x => setGs x q.dst (dwordsOf (s.bytesAt p (if q.quad then 32 else 8)) (if q.quad then 4 else 1)), true) := by
  have hsize : 8 * (if q.quad then 4 else 1) = if q.quad then 32 else 8 := by cases q.quad <;> rfl
  simp only [scalarNow, hq, Bool.false_eq_true, if_false, hsize, fetchElem_lies hl, hbad]

theorem scalarNow_lies_store {s : State} {f : Frieze} {id st : Nat} {q : PendScalar} {p : Place} (hq : q.store = true)
    (hl : Slice0.Lies s f st q.form q.addr (q.vals.flatMap bytesOf).length .write p) :
    scalarNow s f.job id st (f.tileOf st) q = (s.putBytes p (q.vals.flatMap bytesOf), true) := by
  simp only [scalarNow, hq, if_true, storeElem_lies hl]

end Sys2Proof.Machine

namespace Sys2Proof.Slice0
open Machine

/-! ### The elements of slots (R177, R202, R203, R217) -/

/-- A slot's signals and its end leave it IDLE, and memory and the registers as they were. -/
theorem slot_ends {t : State} {id st k : Nat} {x : Station} {q : Slot} (h : t.SlotIs id st k x q) (ha : q.aborts = []) (hf : q.frozen = false)
    (m : BitVec 2) (e : BitVec 6) :
    ∃ y, SlotDone ((t.sigSector id st m e 1).completeSlot id st k) id st k y ∧ y.g = x.g := by
  obtain ⟨y, hy, hg, hidle⟩ := (h.of_uncounted (KeepsOf.sigSector (fun _ _ => rfl) ..)).completeSlot ha hf
  exact ⟨y, ⟨hy, hidle⟩, hg⟩

/-- LDG writes its register from memory, or from the STG it goes ahead of. -/
theorem ldg_performed {s : State} {id st k : Nat} {f : Frieze} {x : Station} {q : Slot} {p : Place} (hm : Moves s id st k f x q)
    (hk : q.kind = .ldg) (ha : q.aborts = []) (hl : Lies s f st q.base (formAddr q.base + q.base2.toInt) 8 .read p)
    (hbad : s.badAt p 8 = false) (hn : ahead s f id st q ≠ .wait) :
    ∃ t y, exec (.streamElementPerformed id st k) s = .next t ∧ SameBytes s t ∧ SlotDone t id st k y ∧
      y.g = (x.setG q.dst ((ahead s f id st q).returns (bvOf 64 (s.bytesAt p 8)))).g := by
  obtain ⟨r, t, hquiet, hslot, hstep⟩ := slotStep_portless hm (.inl hk) fun e he => by
    simp only [Slot.touches, hk, List.mem_singleton] at he
    rw [he]
    exact direct_of_lies hl
  have hx : s.station? id st = some x := (State.station_eq hm.at_.fz).trans hm.at_.st
  have hahead : ahead t f id st { q with sector := r } = ahead s f id st q := by
    have hstg : (x.slot (BitVec.ofNat 4 k)).kind ≠ .stg := by rw [hm.slot.2, hk]; nofun
    unfold ahead
    dsimp only
    rw [hquiet.pendingStg (q := q) hx hstg hslot (by simp [hk]) rfl]
  obtain ⟨y, hy, hg⟩ := slot_ends (hslot.updG q.dst ((ahead s f id st q).returns (bvOf 64 (s.bytesAt p 8)))) ha hm.run.2.2 q.sigMode q.sigK
  refine ⟨_, y, ?_, ?_, hy, hg⟩
  · rw [exec_element hm (by rw [hk]; rfl), hstep, portlessElem, if_neg (by simp [hk]),
      scalarElem_load (q := { q with sector := r }) hk (hquiet.lies hl) ((hquiet.badAt ..).trans hbad) (by rwa [hahead]), hahead, hquiet.bytesAt]
  · refine fun kd a => Eq.trans ?_ (hquiet.sameBytes kd a)
    rw [State.mem_of_store (t := State.completeSlot _ id st k) (s := t) (by simp)]

/-- STG writes its register's bytes at its address, and no other. -/
theorem stg_performed {s : State} {id st k : Nat} {f : Frieze} {x : Station} {q : Slot} {p : Place} (hm : Moves s id st k f x q)
    (hk : q.kind = .stg) (ha : q.aborts = [])
    (hl : Lies s f st q.base (formAddr q.base + q.base2.toInt) (bytesOf q.val).length .write p) (hwf : (s.mem p.mem).wf) :
    ∃ t y, exec (.streamElementPerformed id st k) s = .next t ∧ t.bytesAt p (bytesOf q.val).length = bytesOf q.val ∧
      SameBytesBut s t p (bytesOf q.val).length ∧ SlotDone t id st k y := by
  obtain ⟨r, t, hquiet, hslot, hstep⟩ := slotStep_portless hm (.inr (.inl hk)) fun e he => by
    simp only [Slot.touches, hk, List.mem_singleton] at he
    rw [he]
    exact direct_of_lies hl
  obtain ⟨y, hy, -⟩ := slot_ends (t := t.putBytes p (bytesOf q.val)) (hslot.of_friezes (State.putBytes_friezes ..)) ha hm.run.2.2 q.sigMode q.sigK
  obtain ⟨hbytes, hbut⟩ := putBytes_only (bs := bytesOf q.val) hquiet hwf
    (r := ((t.putBytes p (bytesOf q.val)).sigSector id st q.sigMode q.sigK 1).completeSlot id st k) (by simp)
  refine ⟨_, y, ?_, hbytes, hbut, hy⟩
  rw [exec_element hm (by rw [hk]; rfl), hstep, portlessElem, if_neg (by simp [hk]),
    scalarElem_store (q := { q with sector := r }) hk (hquiet.lies hl)]

/-- SFILL writes the bytes of its element, and no other, and goes on or ends. -/
theorem fill_performed {s : State} {id st k : Nat} {f : Frieze} {x : Station} {q : Slot} {p : Place} (hm : Moves s id st k f x q)
    (hk : q.kind = .fill) (ha : q.aborts = [])
    (hl : Lies s f st q.base (elementAddr q.base q.shape none q.next) q.fillBytes.length .write p)
    (hd : direct s f.job (f.tileOf st) q.base (elementAddr q.base q.shape none q.next) q.shape.size .write) (hwf : (s.mem p.mem).wf) :
    ∃ t y, exec (.streamElementPerformed id st k) s = .next t ∧ t.bytesAt p q.fillBytes.length = q.fillBytes ∧
      SameBytesBut s t p q.fillBytes.length ∧ t.station? id st = some y ∧
      (q.next + 1 < q.limit → (y.slot (BitVec.ofNat 4 k)).state = .running ∧ (y.slot (BitVec.ofNat 4 k)).next = q.next + 1) ∧
      (q.limit ≤ q.next + 1 → y.slot (BitVec.ofNat 4 k) = Slot.idle) := by
  obtain ⟨r, t, hquiet, hslot, hstep⟩ := slotStep_portless hm (.inr (.inr hk)) fun e he => by
    simp only [Slot.touches, hk, List.mem_singleton] at he
    rw [he]
    exact hd
  have hput : (t.putBytes p q.fillBytes).SlotIs id st k x { q with sector := r } := hslot.of_friezes (State.putBytes_friezes ..)
  obtain ⟨y, hy, hon⟩ := hput.afterElem (by simp [hk, SKind.indirect]) (by simp [hk, SKind.takes]) hm.run.1 ha hm.run.2.2 (f.tileOf st)
    (elementAddr q.base q.shape none q.next)
  obtain ⟨hbytes, hbut⟩ := putBytes_only (bs := q.fillBytes) hquiet hwf (afterElem_store (t.putBytes p q.fillBytes) id st k (f.tileOf st)
    { q with sector := r } (some (elementAddr q.base q.shape none q.next)))
  refine ⟨_, y, ?_, hbytes, hbut, hy, hon⟩
  rw [exec_element hm (by rw [hk]; rfl), hstep, portlessElem, if_pos hk, fillElem_lies (q := { q with sector := r }) (hquiet.lies hl)]
  rfl

/-- Settles O37: an element that lies in memory and that no owner node forwards is read or written as soon as its slot, or the scalar access
left outstanding, is held by nothing; all that happens to its station besides is the close of a run, signals, and accesses that no longer
wait for it. -/
theorem elementsPerformed : Obligations.ElementsPerformed := by
  unfold Obligations.ElementsPerformed
  refine ⟨?_, ?_, ?_, ?_, ?_⟩
  · intro id st k f x q p s hm hk ha hl hbad hn
    obtain ⟨t, y, ht, hsame, hdone, hg⟩ := ldg_performed hm hk ha hl hbad hn
    have hrg : y.rg q.dst = if q.dst = 0 then 0 else (ahead s f id st q).returns (bvOf 64 (s.bytesAt p 8)) := by
      have := Station.rg_setG x q.dst q.dst ((ahead s f id st q).returns (bvOf 64 (s.bytesAt p 8)))
      rw [Station.rg, ← hg, ← Station.rg, if_pos rfl] at this
      exact this
    refine ⟨t, y, ht, hsame, hdone, fun h0 => by rw [hrg, if_pos h0], fun h0 => ?_⟩
    rw [hrg, if_neg h0]
    exact ⟨fun v hv => by rw [hv]; rfl, fun hgone => by rw [hgone]; rfl⟩
  · intro id st j f x q p s hat hres hj hq hw hload hl hbad
    have hquiet := Quiet.updSt s id st (·.begun j)
    have hx : s.station? id st = some x := (State.station_eq hat.fz).trans hat.st
    have hnow := scalarNow_lies_load (id := id) hload (hquiet.lies hl) ((hquiet.badAt ..).trans hbad)
    obtain ⟨t, y, ht, hstore, hy, hg, hpend⟩ := pend_performed hat hres hj hq hw (by rw [hload]; exact direct_of_lies hl) hnow
      (State.updSt_station (State.updSt_station hx _) _)
    rw [Station.begun, setGs_pend] at hg hpend
    exact ⟨t, y, ht, SameBytes.of_store (hstore.trans (by simp)), hy, by rw [hg, hquiet.bytesAt], hpend⟩
  · intro id st j f x q p s hat hres hj hq hw hstore hl hd hwf
    have hquiet := Quiet.updSt s id st (·.begun j)
    have hx : s.station? id st = some x := (State.station_eq hat.fz).trans hat.st
    have hnow := scalarNow_lies_store (id := id) hstore (hquiet.lies hl)
    obtain ⟨t, y, ht, hmem, hy, hg, hpend⟩ := pend_performed hat hres hj hq hw (by rw [hstore]; exact hd) hnow (z := x.begun j) (by
      rw [State.station?, State.putBytes_friezes]
      exact State.updSt_station hx _)
    obtain ⟨hbytes, hbut⟩ := putBytes_only hquiet hwf hmem
    exact ⟨t, y, ht, hbytes, hbut, hy, hg, hpend⟩
  · intro id st k f x q p s hm hk ha hl hwf
    have hlen : (bytesOf q.val).length = 8 := leBytes_length ..
    have hperf := stg_performed hm hk ha (by rwa [hlen]) hwf
    rwa [hlen] at hperf
  · intro id st k f x q p s hm hk ha hl hd hwf
    exact fill_performed hm hk ha hl hd hwf

end Sys2Proof.Slice0
end

section
/-! SUPPORT. The end of an access that no hold of its frieze waits for: no counter changes. -/

namespace Sys2Proof.Machine

/-! ### What a word's wait and signal leave (R31) -/

theorem KeepsOf.consumeWait {α : Type} {π : Station → α} (he : ∀ (x : Station) (e : Vector Word 32), π { x with e := e } = π x) (c : Ctx)
    (i : Instr) (s : State) : KeepsOf π s (consumeWait c i s) := by
  have hsub : ∀ t : State, KeepsOf π s t → KeepsOf π s (match i with
      | .waite _ g sub k => if c.on && sub then t.addCount c.id c.st k (-((c.g g).setWidth 32)) else t
      | _ => t) := by
    intro t ht
    split
    · split
      · exact ht.trans (KeepsOf.updCounter he ..)
      · exact ht
    · exact ht
  refine hsub _ ?_
  split
  · exact KeepsOf.updCounter he ..
  · split
    · exact KeepsOf.updCounter he ..
    · exact KeepsOf.refl s

theorem KeepsOf.beforeEffect {α : Type} {π : Station → α} (he : ∀ (x : Station) (e : Vector Word 32), π { x with e := e } = π x) (c : Ctx)
    (i : Instr) (s : State) : KeepsOf π s (beforeEffect c i s) := by
  unfold Machine.beforeEffect
  dsimp only
  split
  · exact (KeepsOf.consumeWait he c i s).trans (KeepsOf.updCounter he ..)
  · exact KeepsOf.consumeWait he c i s

/-! ### The end of an access without holds (R234, R244) -/

/-- No station of frieze id has a hold. -/
def State.NoHolds (s : State) (id : Nat) : Prop := ∀ j x, s.station? id j = some x → x.holds = []

theorem State.NoHolds.of_keeps {s t : State} {id : Nat} (h : s.NoHolds id) (hk : KeepsOf (·.holds) s t) : t.NoHolds id := by
  intro j y hy
  have hst := hk.station id j
  rw [hy, Option.map_some, eq_comm, Option.map_eq_some_iff] at hst
  obtain ⟨x, hx, hh⟩ := hst
  exact hh.symm.trans (h j x hx)

/-- A station without holds whose accesses no longer wait for one. -/
def Station.forget (x : Station) (u : Nat) : Station := { (x.retire u).1 with holds := x.holds }

theorem Station.retire_of_noHolds {x : Station} (h : x.holds = []) (u : Nat) : x.retire u = (x.forget u, []) := by
  simp [Station.retire, Station.forget, h]

theorem State.updSt_congr {s : State} {id j : Nat} {x : Station} (hx : s.station? id j = some x) {g k : Station → Station} (h : g x = k x) :
    s.updSt id j g = s.updSt id j k := by
  unfold State.station? at hx
  unfold State.updSt State.updFz
  cases hf : s.friezes.find id with
  | none => rfl
  | some f =>
    rw [hf, Option.bind_some] at hx
    have hst : f.stations.modify j g = f.stations.modify j k := by
      refine List.ext_getElem? fun n => ?_
      rw [List.getElem?_modify, List.getElem?_modify]
      by_cases hn : j = n
      · rw [← hn, hx]; simp [h]
      · simp only [if_neg hn]
    simp only [Frieze.updSt, hst]

theorem State.retireAt_of_noHolds {s : State} {id : Nat} (h : s.NoHolds id) (u j : Nat) :
    s.retireAt id u j = s ∨ s.retireAt id u j = s.updSt id j (·.forget u) := by
  cases hx : s.station? id j with
  | none => left; rw [State.retireAt, hx]
  | some x =>
    right
    rw [State.retireAt, hx]
    dsimp only
    rw [Station.retire_of_noHolds (h j x hx), List.foldl_nil]
    exact State.updSt_congr hx rfl

theorem Recounts.retireAt {s : State} {id : Nat} (h : s.NoHolds id) (c : Ctx) (u j : Nat) :
    KeepsCounts c s (s.retireAt id u j) ∧ (s.retireAt id u j).NoHolds id := by
  obtain he | he := State.retireAt_of_noHolds h u j <;> rw [he]
  · exact ⟨Recounts.refl c s, h⟩
  · exact ⟨Recounts.updSt c s id j fun _ => rfl, h.of_keeps (KeepsOf.updSt s id j fun _ => rfl)⟩

/-- The tiles changed one by one but for what π reads. -/
theorem KeepsTile.mapTiles {α : Type} {π : Tile → α} {s : State} {g : Nat × Tile → Nat × Tile} {reqs : Tab Req} (hkey : ∀ p, (g p).1 = p.1)
    (hπ : ∀ p, π (g p).2 = π p.2) : KeepsTile π s { s with reqs := reqs, tiles := s.tiles.map g } := by
  refine ⟨fun u => ?_⟩
  unfold State.tile
  dsimp only
  rw [Tab.find_map hkey]
  cases s.tiles.find u with
  | none => rfl
  | some x => exact hπ (u, x)

/-- Where no station of the frieze has a hold, the end of an access changes no counter. -/
theorem Recounts.retire {s : State} {id : Nat} (h : s.NoHolds id) (c : Ctx) (u : Nat) : KeepsCounts c s (s.retire id u) := by
  have hfold : ∀ (l : List Nat) (s : State), s.NoHolds id → KeepsCounts c s (l.foldl (fun s j => s.retireAt id u j) s) := by
    intro l
    induction l with
    | nil => exact fun s _ => Recounts.refl c s
    | cons j l ih =>
      intro s hs
      obtain ⟨hkeep, hnext⟩ := Recounts.retireAt hs c u j
      exact hkeep.trans (ih _ hnext)
  unfold State.retire
  split
  · exact Recounts.refl c s
  · exact (hfold _ s h).trans (Recounts.of_tiles c rfl (KeepsTile.mapTiles (fun _ => rfl) fun _ => rfl))

end Sys2Proof.Machine
end

section
/-! SUPPORT. The start of a stream: what its word is refused for, and the slot it leaves (R172, R176, R200). -/

namespace Sys2Proof.Machine

/-- What a stream word starts its stream with. -/
structure StreamStart where
  o : StOps
  q : Slot
  second : Option Shape
  need : Bool
  bounded : Bool
  limits : Bool
  ports : List Nat
  atIssue : Bool

/-- The start of the stream, as the word's effect. -/
def StreamStart.run (a : StreamStart) (c : Ctx) (s : State) : Eff :=
  startStream c s a.o a.q a.second a.need a.bounded a.limits a.ports a.atIssue

/-- The slot of the stream, with its bounds. -/
def StreamStart.slot (a : StreamStart) : Slot := { a.q with bounds := if a.bounded then a.second else none }

/-- The word is refused as an illegal instruction: by its shapes (R176), or by its own entry's limits (R200). -/
def StreamStart.refused (a : StreamStart) : Bool :=
  (shapeCheck a.q.shape (if a.bounded then a.second else none) (if a.need && !a.bounded then a.second else none) a.need a.o.shape
    (a.q.q == 12)).isSome || !a.limits

theorem shapeCheck_illegal {h : Shape} {b second : Option Shape} {need q12 : Bool} {k : BitVec 4} {e : Cause}
    (he : shapeCheck h b second need k q12 = some e) : e = causeIllegal := by
  unfold shapeCheck at he
  (repeat' split at he) <;> cases he <;> rfl

theorem shapeCheck_isSome (h : Shape) (b second : Option Shape) (need q12 : Bool) (k : BitVec 4) :
    (shapeCheck h b second need k q12).isSome = true ↔
      h.plain = false ∨ (∃ x, b = some x ∧ x.boundsPlain = false) ∨ (∃ x, second = some x ∧ x.plain = false) ∨
        (k = 15 ∧ need = true) ∨ 2 ^ 48 ≤ h.count ∨ (q12 = true ∧ 8 ≤ h.size) := by
  have hite : ∀ {p : Prop} [Decidable p] {o : Option Cause}, (if p then some causeIllegal else o).isSome = true ↔ p ∨ o.isSome = true :=
    fun {p} _ {o} => by split <;> simp [*]
  have hb : ∀ {o : Option Shape} {g : Shape → Bool}, (!((o.map g).getD true)) = true ↔ ∃ x, o = some x ∧ g x = false :=
    fun {o g} => by cases o <;> simp
  unfold shapeCheck
  simp only [hite, hb, Bool.or_eq_true, Bool.not_eq_true', Bool.and_eq_true, beq_iff_eq, decide_eq_true_eq, Option.isSome_none,
    Bool.false_eq_true, or_false, or_assoc, and_comm (b := k = 15)]

theorem StreamStart.run_eq (a : StreamStart) (c : Ctx) (s : State) :
    a.run c s = if a.refused then .trap causeIllegal 0
      else if a.ports.any fun p => s.foreignPort c.tile p c.id then .trap causeProtection 0
      else if a.atIssue && a.q.shape.count = 0 then .done s true
      else if a.slot.allClipped then .done (c.takeDone s a.o.slot a.slot) true
      else .done (c.takeSlot s a.o.slot a.slot []) false := by
  unfold StreamStart.run startStream StreamStart.refused
  dsimp only
  split
  next e he => rw [he, shapeCheck_illegal he]; rfl
  next hn =>
    rw [hn]
    cases a.limits <;> rfl

/-- A slot's stream as one slot has it, under the access of another: its number, signal, waits and bounds. -/
def Slot.under (q p : Slot) : Slot := { q with
  state := p.state
  uid := p.uid
  bounds := p.bounds
  sigMode := p.sigMode
  sigK := p.sigK
  waits := p.waits
  barred := p.barred
  hold := p.hold
  frozen := p.frozen }

/-- The start of a stream is that of a row of the stream words. -/
structure StreamStart.Meets (a : StreamStart) (r : Slice0.StreamRow) (s : State) (c : Ctx) : Prop where
  slot : a.o.slot = r.slot := by rfl
  number : a.o.shape = r.shape := by rfl
  shape : a.q.shape = c.x.rh r.shape := by rfl
  kind : a.q.kind = r.kind := by rfl
  first : a.q.next = 0 := by rfl
  second : a.need = true → a.second = c.x.nextShape r.shape := by exact fun _ => rfl
  bounded : a.bounded = r.bounded := by rfl
  need : a.need = (r.bounded || r.copied) := by simp
  one : r.bounded = false ∨ r.copied = false := by simp
  twelve : a.q.q = 12 ↔ r.twelve s c
  limits : (r.copied = true → r.shape ≠ 15) → (a.limits = true ↔ r.limits c) := by simp
  ports : a.ports = r.ports := by rfl
  atIssue : a.atIssue = true ↔ r.atIssue c := by simp
  fields : (r.copied = true → r.shape ≠ 15) → ∀ p, r.fields s c (a.q.under p)

/-- A stream word is an illegal instruction (R176, R200). -/
def streamIllegal (r : Slice0.StreamRow) (s : State) (c : Ctx) : Prop :=
  let x := c.x.rh r.shape
  let next := c.x.rh (r.shape + 1)
  x.plain = false ∨ (r.shape ≠ 15 ∧ ((r.bounded = true ∧ next.boundsPlain = false) ∨ (r.copied = true ∧ next.plain = false))) ∨
    (r.shape = 15 ∧ (r.bounded = true ∨ r.copied = true)) ∨ 2 ^ 48 ≤ x.count ∨ (r.twelve s c ∧ 8 ≤ x.size) ∨ ¬r.limits c

theorem streamTrap_iff (r : Slice0.StreamRow) (s : State) (c : Ctx) (cause : Cause) :
    Slice0.streamTrap r s c cause ↔ (cause = causeIllegal ∧ streamIllegal r s c) ∨
      (cause = causeProtection ∧ ¬streamIllegal r s c ∧ ∃ p ∈ r.ports, s.foreignPort c.tile p c.id = true) := Iff.rfl

/-- The indices of a dimension that lie within its bounds are those from the first to before the last; all are clipped where there are none. -/
theorem clippedDim_iff (e : Nat) (o : Int) (l : Nat) :
    min (e : Int) (l - o) ≤ max 0 (-o) ↔ ∀ j : Nat, j < e → ¬(0 ≤ (j : Int) + o ∧ (j : Int) + o < l) := by
  refine ⟨fun h j hj => by omega, fun h => ?_⟩
  by_contra hc
  have hj := h (max 0 (-o)).toNat (by omega)
  omega

section
variable {a : StreamStart} {r : Slice0.StreamRow} {s : State} {c : Ctx} (hm : a.Meets r s c)
include hm

theorem StreamStart.Meets.refused_iff : a.refused = true ↔ streamIllegal r s c := by
  unfold StreamStart.refused streamIllegal
  rw [Bool.or_eq_true, shapeCheck_isSome, hm.shape, hm.number, hm.bounded, beq_iff_eq, hm.twelve]
  have hsecond : ∀ {g : Shape → Bool} {on : Bool}, (on = true → a.need = true) →
      ((∃ x, (if on then a.second else none) = some x ∧ g x = false) ↔ r.shape ≠ 15 ∧ on = true ∧ g (c.x.rh (r.shape + 1)) = false) := by
    intro g on hon
    cases on with
    | false => simp
    | true =>
      rw [if_pos rfl, hm.second (hon rfl), Station.nextShape]
      by_cases h15 : r.shape = 15
      · rw [if_pos h15]
        exact ⟨nofun, fun h => absurd h15 h.1⟩
      · rw [if_neg h15]
        exact ⟨fun ⟨x, hx, hg⟩ => ⟨h15, rfl, Option.some.inj hx ▸ hg⟩, fun h => ⟨_, rfl, h.2.2⟩⟩
  have hcopied : (a.need && !r.bounded) = r.copied := by
    rw [hm.need]
    obtain h | h := hm.one <;> simp [h]
  rw [hsecond fun h => by rw [hm.need, h]; rfl, hcopied, hsecond fun h => by rw [hm.need, h, Bool.or_true], hm.need, Bool.or_eq_true,
    Bool.not_eq_true']
  by_cases h15 : r.copied = true ∧ r.shape = 15
  · obtain ⟨hc, hs⟩ := h15
    exact iff_of_true (.inl (.inr (.inr (.inr (.inl ⟨hs, .inr hc⟩))))) (.inr (.inr (.inl ⟨hs, .inr hc⟩)))
  · have hlimits : a.limits = false ↔ ¬r.limits c := by rw [← Bool.not_eq_true, hm.limits fun hc h => h15 ⟨hc, h⟩]
    simp only [hlimits, and_or_left, or_assoc]

/-- A word that fails a check of R176 or R200 traps with that row's cause. -/
theorem StreamStart.Meets.run_traps {s' : State} (hq : Quiet s s') {cause : Cause} (h : Slice0.streamTrap r s c cause) :
    a.run c s' = .trap cause 0 := by
  rw [StreamStart.run_eq]
  obtain ⟨rfl, hill⟩ | ⟨rfl, hleg, p, hp, hforeign⟩ := (streamTrap_iff ..).mp h
  · rw [if_pos (hm.refused_iff.mpr hill)]
  · rw [if_neg fun hr => hleg (hm.refused_iff.mp hr), if_pos]
    exact List.any_eq_true.mpr ⟨p, hm.ports ▸ hp, (hq.tile_foreignPort ..).trans hforeign⟩

/-- A word that fails none completes with its stream empty, or clipped, or starts it. -/
theorem StreamStart.Meets.run_starts {s' : State} (hq : Quiet s s') (h : ∀ cause, ¬Slice0.streamTrap r s c cause) :
    a.run c s' = if a.atIssue && a.q.shape.count = 0 then .done s' true
      else if a.slot.allClipped then .done (c.takeDone s' a.o.slot a.slot) true
      else .done (c.takeSlot s' a.o.slot a.slot []) false := by
  have hleg : ¬streamIllegal r s c := fun hill => h _ ((streamTrap_iff ..).mpr (.inl ⟨rfl, hill⟩))
  rw [StreamStart.run_eq, if_neg fun hr => hleg (hm.refused_iff.mp hr), if_neg]
  intro hany
  obtain ⟨p, hp, hforeign⟩ := List.any_eq_true.mp hany
  exact h _ ((streamTrap_iff ..).mpr (.inr ⟨rfl, hleg, p, hm.ports ▸ hp, (hq.tile_foreignPort ..).symm.trans hforeign⟩))

omit hm in
/-- A legal stream word that uses h(SHAPE + 1) has one. -/
theorem streamIllegal_second (h : ¬streamIllegal r s c) (hn : r.bounded = true ∨ r.copied = true) : r.shape ≠ 15 := by
  intro h15
  exact h (.inr (.inr (.inl ⟨h15, hn⟩)))

/-- The bounds of the slot (R178). -/
theorem StreamStart.Meets.slot_bounds (h : ¬streamIllegal r s c) :
    a.slot.bounds = if r.bounded then some (c.x.rh (r.shape + 1)) else none := by
  have hb : a.slot.bounds = if r.bounded then a.second else none := by rw [StreamStart.slot, hm.bounded]
  rw [hb]
  split
  next hbound =>
    rw [hm.second (by rw [hm.need, hbound]; rfl), Station.nextShape, if_neg (streamIllegal_second h (.inl hbound))]
  · rfl

theorem StreamStart.Meets.allClipped_iff (h : ¬streamIllegal r s c) : a.slot.allClipped = true ↔ Slice0.clipped r c := by
  unfold Slot.allClipped Slice0.clipped
  rw [Bool.and_eq_true, beq_iff_eq, hm.slot_bounds h]
  have hkind : a.slot.kind = r.kind := hm.kind
  have hshape : a.slot.shape = c.x.rh r.shape := hm.shape
  rw [hkind, hshape]
  refine and_congr_right fun _ => ?_
  cases r.bounded with
  | false => simp
  | true =>
    simp only [if_true, true_and, List.any_eq_true, decide_eq_true_eq, clippedDim_iff]
    refine exists_congr fun d => and_iff_right_of_imp fun _ => ?_
    fin_cases d <;> decide

end

/-- The slot a stream runs in, as its word leaves it. -/
def Ctx.started (c : Ctx) (s : State) (q : Slot) : Slot := { q with
  state := .running
  uid := s.serial
  sigMode := c.h.sigMode
  sigK := c.h.sigK
  waits := c.x.waitsFor q.kind.classes (q.kind != .recur) ++ []
  barred := c.x.barredFor q.kind.classes (q.kind != .recur)
  hold := s.cycles.toNat }

theorem Ctx.takeSlot_eq (c : Ctx) (s : State) (k : BitVec 4) (q : Slot) :
    c.takeSlot s k q [] = (c.upd s (·.setSlot k (c.started s q))).bump := rfl

end Sys2Proof.Machine
end

section
/-! SUPPORT. Each stream word is the start of its row's stream, and what the start leaves (R172, R190, R215–R224). -/

namespace Sys2Proof.Machine

theorem Quiet.portQ {s t : State} (q : Quiet s t) (u p : Nat) : portQ t u p = portQ s u p := by
  obtain ⟨e, he⟩ := q.tiles u
  simp only [Machine.portQ, Tile.inPort, he]

/-! ### The stream words (R193, R215–R224) -/

/-- What every stream word is besides: a word of its header, no store, no request of the head, without a counter of its own. -/
structure PlainStream (i : Instr) (r : Slice0.StreamRow) : Prop where
  hdr : i.hdr? = some r.hdr
  store : ∀ h d a k, i ≠ .sts h d a k ∧ i ≠ .stq h d a k
  head : i.asksHead = false
  effect : ∀ c k w, afterEffect c i k w = w

theorem streamRow_plain {i : Instr} {r : Slice0.StreamRow} (hr : Slice0.streamRow i = some r) : PlainStream i r := by
  unfold Slice0.streamRow at hr
  split at hr <;> cases hr
  all_goals exact ⟨rfl, fun _ _ _ _ => ⟨nofun, nofun⟩, rfl, fun _ _ _ => rfl⟩

/-- Word i issues as the start of a stream of its row. -/
structure StartsAs (i : Instr) (r : Slice0.StreamRow) (s : State) (c : Ctx) (start : Ctx → State → StreamStart) : Prop where
  exec : Machine.exec i s = issueWord i r.hdr s fun c s => (start c s).run c s
  meets : (start c (beforeEffect c i s)).Meets r s c

/-- The beats of a slot at reset do not hold 12 bytes. -/
theorem idle_q_iff (p : Prop) (h : ¬p) : Slot.idle.q = 12 ↔ p := iff_of_false (by decide) h

theorem streamRow_starts {i : Instr} {r : Slice0.StreamRow} (hr : Slice0.streamRow i = some r) (s : State) (c : Ctx) :
    ∃ start, StartsAs i r s c start := by
  have hport : ∀ u p, portQ (beforeEffect c i s) u p = portQ s u p := (Quiet.beforeEffect c i s).portQ
  unfold Slice0.streamRow at hr
  split at hr <;> cases hr
  case h_1 h o i eos bnd w =>
    exact ⟨fun c s => ⟨o, { stSlot c o .rd w with inport := i.toNat, q := portQ s c.tile i.toNat, eos := eos }, c.x.nextShape o.shape, bnd, bnd,
      true, [i.toNat], !eos⟩, rfl,
      { twelve := by rw [hport]; rfl
        fields := fun _ _ => ⟨⟨rfl, rfl, rfl, fun _ => rfl⟩, rfl, rfl, hport ..⟩ }⟩
  case h_2 h o p endeos bnd w p6 =>
    exact ⟨fun c _ => ⟨o, { stSlot c o .wr w with outport := p.toNat, q := if p6 then 12 else 16, eos := endeos }, c.x.nextShape o.shape, bnd,
      bnd, true, [32 + p.toNat], true⟩, rfl,
      { twelve := by cases p6 <;> simp
        fields := fun _ _ => ⟨⟨rfl, rfl, rfl, fun _ => rfl⟩, rfl, rfl, rfl⟩ }⟩
  case h_3 h o dst =>
    have hnext : (true = true → o.shape ≠ 15) → (c.x.nextShape o.shape).getD (Vector.replicate 4 0) = c.x.rh (o.shape + 1) := fun h15 => by
      rw [Station.nextShape, if_neg (h15 rfl), Option.getD_some]
    exact ⟨fun c _ => ⟨o, { stSlot c o .cp 0 with base2 := c.g dst, shape2 := (c.x.nextShape o.shape).getD (Vector.replicate 4 0) },
      c.x.nextShape o.shape, true, false, decide ((c.x.rh o.shape).count = ((c.x.nextShape o.shape).getD (Vector.replicate 4 0)).count) &&
        decide ((c.x.rh o.shape).esize = ((c.x.nextShape o.shape).getD (Vector.replicate 4 0)).esize), [], true⟩, rfl,
      { twelve := idle_q_iff _ id
        limits := fun h15 => by dsimp only; rw [hnext h15, Bool.and_eq_true, decide_eq_true_eq, decide_eq_true_eq]
        fields := fun h15 _ => ⟨rfl, rfl, rfl, hnext h15⟩ }⟩
  case h_4 h o fill =>
    exact ⟨fun c _ => ⟨o, { stSlot c o .fill 0 with val := c.g fill }, none, false, false, true, [], true⟩, rfl,
      { second := nofun
        twelve := idle_q_iff _ id
        fields := fun _ _ => ⟨rfl, rfl, rfl⟩ }⟩
  case h_5 h o i w =>
    exact ⟨fun c s => ⟨o, { stSlot c o .win w with inport := i.toNat, q := portQ s c.tile i.toNat, eos := true }, c.x.nextShape o.shape, true,
      true, true, [i.toNat], false⟩, rfl,
      { twelve := by rw [hport]; rfl
        fields := fun _ _ => ⟨⟨rfl, rfl, rfl, fun _ => rfl⟩, rfl, rfl, hport ..⟩ }⟩
  case h_6 h o i root eos bnd w =>
    exact ⟨fun c s => ⟨o, { stSlot c o .mc w with
        inport := i.toNat
        q := portQ s c.tile i.toNat
        eos := eos
        root := root.toNat
        op := c.lane }, c.x.nextShape o.shape, bnd, bnd, decide (root.toNat < c.f.len), [i.toNat], !eos && c.st == root.toNat⟩, rfl,
      { twelve := by rw [hport]; rfl
        limits := fun _ => decide_eq_true_iff
        fields := fun _ _ => ⟨⟨rfl, rfl, rfl, fun _ => rfl⟩, rfl, rfl, hport .., rfl⟩ }⟩
  case h_7 h o i idx eos bnd w i64 =>
    exact ⟨fun c s => ⟨o, { stSlot c o .gath w with
        inport := i.toNat
        idxport := idx.toNat
        q := portQ s c.tile i.toNat
        eos := eos
        i64 := i64 }, c.x.nextShape o.shape, bnd, bnd, true, [i.toNat, 32 + idx.toNat], !eos⟩, rfl,
      { twelve := by rw [hport]; rfl
        fields := fun _ _ => ⟨⟨rfl, rfl, rfl, fun _ => rfl⟩, rfl, rfl, rfl, rfl, hport ..⟩ }⟩
  case h_8 h o p idx endeos bnd w p6 i64 =>
    exact ⟨fun c _ => ⟨o, { stSlot c o .scat w with
        outport := p.toNat
        idxport := idx.toNat
        q := if p6 then 12 else 16
        eos := endeos
        i64 := i64 }, c.x.nextShape o.shape, bnd, bnd, true, [32 + p.toNat, 32 + idx.toNat], true⟩, rfl,
      { twelve := by cases p6 <;> simp
        fields := fun _ _ => ⟨⟨rfl, rfl, rfl, fun _ => rfl⟩, rfl, rfl, rfl, rfl, rfl⟩ }⟩
  case h_9 h o p idx op endeos bnd i64 =>
    exact ⟨fun c _ => ⟨o, { stSlot c o .scata 0 with
        outport := p.toNat
        idxport := idx.toNat
        eos := endeos
        op := op.toNat
        i64 := i64 }, c.x.nextShape o.shape, bnd, bnd,
        decide ((c.x.rh o.shape).size = 4) || (decide ((c.x.rh o.shape).size = 8) && op != 1), [32 + p.toNat, 32 + idx.toNat], true⟩, rfl,
      { twelve := idle_q_iff _ id
        fields := fun _ _ => ⟨rfl, rfl, rfl, rfl, rfl, rfl⟩ }⟩
  case h_10 h slot shape i o eos =>
    exact ⟨fun c s => ⟨⟨slot, shape, 0, 0⟩, { Slot.idle with
        kind := .recur
        shape := c.x.rh shape
        inport := i.toNat
        outport := o.toNat
        q := portQ s c.tile i.toNat
        eos := eos }, none, false, false, decide ((c.x.rh shape).esize = 4), [i.toNat, 32 + o.toNat], true⟩, rfl,
      { second := nofun
        twelve := by rw [hport]; rfl
        fields := fun _ _ => ⟨rfl, rfl, rfl⟩ }⟩

/-- The word is what the start of its stream makes of it. -/
structure IssuesAs (i : Instr) (s : State) (c : Ctx) (a : StreamStart) : Prop where
  done : ∀ {t now}, a.run c (beforeEffect c i s) = .done t now → exec i s = .next (completeWord c i t now)
  trap : ∀ {cause}, a.run c (beforeEffect c i s) = .trap cause 0 → exec i s = .next (trapAt c cause 0 s)

theorem streamRow_issues {i : Instr} {r : Slice0.StreamRow} {s : State} {c : Ctx} (hr : Slice0.streamRow i = some r)
    (hi : Issues s i r.hdr c) : ∃ a : StreamStart, a.Meets r s c ∧ IssuesAs i s c a := by
  obtain ⟨start, hexec, hm⟩ := streamRow_starts hr s c
  exact ⟨_, hm, ⟨fun h => by rw [hexec, hi.exec, h], fun h => by rw [hexec, hi.exec, h]⟩⟩

end Sys2Proof.Machine
end

section
/-! SUPPORT. What a stream word leaves: an empty stream complete, a clipped write that goes on to discard its bytes, or a stream that runs. -/

namespace Sys2Proof.Machine

/-! ### A stream complete at issue, its bytes still to be taken (R190) -/

/-- The station stands before the word's place with slot k running the stream of q, its signal given. -/
structure Discards (x : Station) (k : BitVec 4) (q : Slot) (y : Station) : Prop where
  pos : y.pos = x.pos
  running : (y.slot k).state = .running
  signalled : (y.slot k).sigMode = 0
  stream : y.slot k = q.under (y.slot k)

theorem discards_steady (x : Station) (k : BitVec 4) (q : Slot) : Steady (Discards x k q) where
  counts _ h := ⟨h.pos, h.running, h.signalled, h.stream⟩
  signals h := ⟨h.pos, h.running, h.signalled, h.stream⟩
  retires {y} u h := by
    have hslot := Station.retire_slot y u k
    refine ⟨h.pos, by rw [hslot]; exact h.running, by rw [hslot]; exact h.signalled, ?_⟩
    rw [hslot, h.stream]
    rfl

theorem Recounts.updSlot (c : Ctx) (s : State) (id st k : Nat) (g : Slot → Slot) : KeepsCounts c s (s.updSlot id st k g) :=
  Recounts.updSt c s id st fun _ => rfl

theorem KeepsOf.updSlot {α : Type} {π : Station → α} (hπ : ∀ x (l : Vector Slot 16), π { x with slots := l } = π x) (s : State)
    (id st k : Nat) (g : Slot → Slot) : KeepsOf π s (s.updSlot id st k g) :=
  KeepsOf.updSt s id st fun _ => hπ _ _

section
variable {s : State} {c : Ctx} {e : Vector Word 32} (hx : s.station? c.id c.st = some { c.x with e := e }) (k : BitVec 4) (q : Slot)
include hx

/-- A stream takes its slot. -/
theorem Ctx.takeSlot_station : (c.takeSlot s k q []).station? c.id c.st = some { c.x.setSlot k (c.started s q) with e := e } := by
  rw [Ctx.takeSlot_eq]
  exact State.updSt_station hx _

theorem Ctx.takeDone_has : (c.takeDone s k q).Has c.id c.st (Discards c.x k q) := by
  refine State.Has.retire (discards_steady ..) ⟨_, State.updSt_station (c.takeSlot_station hx k q) _, ?_⟩ c.id s.serial
  rw [show BitVec.ofNat 4 k.toNat = k by simp]
  have hslot : ({ c.x.setSlot k (c.started s q) with e := e } : Station).slot k = { c.started s q with frozen := (c.x.slot k).frozen } :=
    Station.slot_setSlot ..
  rw [hslot]
  generalize hz : ({ c.x.setSlot k (c.started s q) with e := e } : Station).setSlot k _ = z
  have hdone : z.slot k = { c.started s q with sigMode := 0, frozen := (c.x.slot k).frozen } := by
    rw [← hz, Station.slot_setSlot, hslot]
  exact ⟨by rw [← hz]; rfl, by rw [hdone]; rfl, by rw [hdone], by rw [hdone]; rfl⟩

omit hx in
theorem Recounts.takeDone (h : s.NoHolds c.id) : KeepsCounts c s (c.takeDone s k q) := by
  have htake : KeepsCounts c s (c.takeSlot s k q []) := by
    rw [Ctx.takeSlot_eq]
    exact (Recounts.updSt c s c.id c.st (g := (·.setSlot k (c.started s q))) fun _ => rfl).trans (Recounts.bump c _)
  have hkeep : KeepsOf (·.holds) s (c.takeSlot s k q []) := by
    rw [Ctx.takeSlot_eq]
    exact (KeepsOf.updSt s c.id c.st (g := (·.setSlot k (c.started s q))) fun _ => rfl).trans (KeepsOf.of_friezes rfl)
  exact (htake.trans (Recounts.updSlot ..)).trans (Recounts.retire ((h.of_keeps hkeep).of_keeps (KeepsOf.updSlot (fun _ _ => rfl) ..)) c _)

end

end Sys2Proof.Machine

namespace Sys2Proof.Slice0
open Machine

section
variable {i : Instr} {r : StreamRow} {s : State} {c : Ctx} {a : StreamStart} (hi : Issues s i r.hdr c) (hhead : i.asksHead = false)
  (hm : a.Meets r s c)
include hi hhead hm

/-- A stream that runs has its operands as they stood at issue. -/
theorem runs_done (hlegal : ¬streamIllegal r s c) :
    Runs s (completeWord c i (c.takeSlot (beforeEffect c i s) r.slot a.slot []) false) c r.slot id fun q =>
      q.kind = r.kind ∧ q.shape = c.x.rh r.shape ∧ (r.bounded = true → q.bounds = some (c.x.rh (r.shape + 1))) ∧
        (r.bounded = false → q.bounds = none) ∧ r.fields s c q := by
  obtain ⟨e, he⟩ := hi.before
  have hserial : (beforeEffect c i s).serial = s.serial := by rw [(Quiet.beforeEffect c i s).rest]
  have hbounds := hm.slot_bounds hlegal
  refine ⟨c.started (beforeEffect c i s) a.slot, completeWord_stands hhead (c.takeSlot_station he r.slot a.slot), rfl, hserial, rfl, rfl,
    hm.first, hm.kind, hm.shape, fun h => ?_, fun h => ?_,
    hm.fields (fun hc => streamIllegal_second hlegal (.inr hc)) (c.started (beforeEffect c i s) a.slot)⟩
  · exact hbounds.trans (if_pos h)
  · exact hbounds.trans (if_neg (by simp [h]))

/-- A clipped write is complete at issue, its signal given once, and goes on to discard its bytes. -/
theorem clipped_done (hlegal : ¬streamIllegal r s c) (hkind : r.kind = .wr) (heffect : ∀ k w, afterEffect c i k w = w) :
    let t := completeWord c i (c.takeDone (beforeEffect c i s) r.slot a.slot) true
    ∃ y, t.station? c.id c.st = some y ∧ y.pos = c.x.pos + 1 ∧ (y.slot r.slot).state = .running ∧ (y.slot r.slot).kind = .wr ∧
      (y.slot r.slot).sigMode = 0 ∧ r.fields s c (y.slot r.slot) ∧
      ((∀ z ∈ c.f.stations, z.holds = []) → ∀ k, t.counter c.id c.st k = counted c i (s.counter c.id c.st k) k) := by
  intro t
  obtain ⟨e, he⟩ := hi.before
  obtain ⟨y, hy, hdone⟩ := c.takeDone_has he r.slot a.slot
  obtain ⟨e', he'⟩ := completeWord_station (i := i) (now := true) hhead hy
  have hstream : y.slot r.slot = a.q.under (y.slot r.slot) := hdone.stream
  refine ⟨_, he', congrArg (· + 1) hdone.pos, hdone.running, ?_, hdone.signalled, ?_, fun hholds k => ?_⟩
  · exact (congrArg Slot.kind hstream).trans (hm.kind.trans hkind)
  · exact hstream ▸ hm.fields (fun hc => streamIllegal_second hlegal (.inr hc)) _
  · have hno : s.NoHolds c.id := fun j x hx => by
      rw [State.station_eq hi.find] at hx
      exact hholds x (List.mem_of_getElem? hx)
    have hcount := ((Recounts.beforeEffect c i s hi.on).trans
      (Recounts.takeDone r.slot a.slot (hno.of_keeps (KeepsOf.beforeEffect (fun _ _ => rfl) c i s)))).trans (Recounts.completeWord c i _ hhead)
    rw [counted_eq, heffect]
    exact hcount.counter (Option.isSome_iff_exists.mpr ⟨_, hi.station⟩) k

end

/-- Settles O23: every stream word is one start of a stream, which makes the checks of R176 and R200 in order; past them the stream is
empty, or wholly clipped, or runs in its slot. -/
theorem streamWords : Obligations.StreamWords := by
  unfold Obligations.StreamWords
  refine ⟨fun i r s c cause hr hi htrap => ?_, fun i r s c hr hi hno => ?_⟩
  · obtain ⟨a, hm, hissue⟩ := streamRow_issues hr hi
    exact ⟨_, hissue.trap (hm.run_traps (Quiet.beforeEffect c i s) htrap), (trapAt_trapsAlone hi.ctx cause 0).1⟩
  · obtain ⟨a, hm, hissue⟩ := streamRow_issues hr hi
    obtain ⟨hhdr, hstore, hhead, heffect⟩ := streamRow_plain hr
    have hlegal : ¬streamIllegal r s c := fun hill => hno _ ((streamTrap_iff ..).mpr (.inl ⟨rfl, hill⟩))
    have hrun := hm.run_starts (Quiet.beforeEffect c i s) hno
    have hsame : ∀ {t}, exec i s = .next t → SameBytes s t := onlyScalarStoresWriteAtIssue i r.hdr s _ hhdr hstore
    obtain ⟨e, he⟩ := hi.before
    intro empty
    have hempty : (a.atIssue && decide (a.q.shape.count = 0)) = true ↔ empty := by
      rw [Bool.and_eq_true, hm.atIssue, decide_eq_true_eq, hm.shape]
    by_cases hnone : empty
    · rw [if_pos (hempty.mpr hnone)] at hrun
      have ht := hissue.done hrun
      exact ⟨_, ht, hsame ht, fun _ => completeWord_stands hhead he, fun h => absurd hnone h, fun h => absurd hnone h⟩
    rw [if_neg fun h => hnone (hempty.mp h)] at hrun
    by_cases hclipped : clipped r c
    · rw [if_pos ((hm.allClipped_iff hlegal).mpr hclipped)] at hrun
      have ht := hissue.done hrun
      refine ⟨_, ht, hsame ht, fun h => absurd h hnone, fun _ h => absurd hclipped h, fun _ _ => ?_⟩
      rw [hm.slot]
      exact clipped_done hi hhead hm hlegal hclipped.1 (heffect c)
    · rw [if_neg fun h => hclipped ((hm.allClipped_iff hlegal).mp h)] at hrun
      have ht := hissue.done hrun
      refine ⟨_, ht, hsame ht, fun h => absurd h hnone, fun _ _ => ?_, fun _ h => absurd h hclipped⟩
      rw [hm.slot]
      exact runs_done hi hhead hm hlegal

end Sys2Proof.Slice0
end

section
/-! SUPPORT. The words that act on their station's own registers (R208, R210, R246, R315, R319, R320, R383, R384). -/

namespace Sys2Proof.Machine

/-! ### PSET, SHAPE and YIELD (R208, R315, R384) -/

/-- What PSET writes, from the predicates or the g registers its code names (R315). -/
def Station.psetValue (x : Station) (a b : BitVec 5) (cond : BitVec 4) : Bool :=
  if 10 ≤ cond.toNat ∧ cond.toNat ≤ 13 then psetP cond (x.rp (a.setWidth 3)) (x.rp (b.setWidth 3)) else psetG cond (x.rg a) (x.rg b)

/-- PSET writes whether its condition holds (R315). -/
theorem Station.psetValue_iff (x : Station) (a b : BitVec 5) (cond : BitVec 4) :
    x.psetValue a b cond = true ↔ Slice0.psetTrue x a b cond := by
  have hcode : (cond.toNat < 10 ∨ cond = 15) ∨ cond = 10 ∨ cond = 11 ∨ cond = 12 ∨ cond = 13 ∨ cond = 14 := by
    revert cond; decide
  unfold Station.psetValue Slice0.psetTrue
  obtain hcmp | rfl | rfl | rfl | rfl | rfl := hcode
  · have hne : ∀ k : BitVec 4, 10 ≤ k.toNat → k ≠ 15 → cond ≠ k := by
      rintro k hk h15 rfl
      obtain h | h := hcmp
      · omega
      · exact h15 h
    have hrange : ¬(10 ≤ cond.toNat ∧ cond.toNat ≤ 13) := by
      rintro ⟨hlo, hhi⟩
      obtain h | rfl := hcmp
      · omega
      · exact absurd hhi (by decide)
    rw [if_neg hrange, psetG, if_neg (hne 14 (by decide) (by decide)), condHolds_iff]
    simp only [hne 10 (by decide) (by decide), hne 11 (by decide) (by decide), hne 12 (by decide) (by decide),
      hne 13 (by decide) (by decide), hne 14 (by decide) (by decide), false_and, or_false]
    rfl
  · simp [psetP, Slice0.compares]
  · simp [psetP, Slice0.compares]
  · simp [psetP, Slice0.compares]
  · simp [psetP, Slice0.compares]
  · rw [low6]
    simp [psetG, Slice0.compares]

theorem setP_e (d : BitVec 3) (b : Bool) (x : Station) (e : Vector Word 32) :
    ∃ e', ({ x with e := e } : Station).setP d b = { x.setP d b with e := e' } := by
  unfold Station.setP
  split <;> exact ⟨e, rfl⟩

/-- A stop leaves every station alone. -/
theorem stopUnit_station (s : State) (id : Nat) (why : Stop) (d : Option Cand) (a b : Nat) :
    (stopUnit s id why d).station? a b = s.station? a b := by
  unfold stopUnit
  refine List.foldlRecOn _ _ (motive := fun t : State => t.station? a b = s.station? a b) rfl fun t ht u _ => ?_
  rw [State.updFz_station_same (fun f => by split <;> rfl), ht]

/-- What YIELD does leaves every station alone: its frieze's unit may be stopped (R384). -/
theorem yield_station (c : Ctx) (s : State) (a b : Nat) :
    (if !c.isHead || leadsOrd s c.f || sameGang s c.id c.id then s
      else match yieldTo s c.id c.f with
        | some d => stopUnit s c.id .yield (some d)
        | none => s).station? a b = s.station? a b := by
  split
  · rfl
  · split
    · exact stopUnit_station ..
    · rfl

end Sys2Proof.Machine

namespace Sys2Proof.Slice0
open Machine

/-- Settles O3: the effects of each word are one change of its station, or none; YIELD's stop touches no station, and SIGE and WAITE only
counters. -/
theorem stationWords : Obligations.StationWords := by
  unfold Obligations.StationWords
  intro i r s c hr hi hp
  clear hp
  obtain ⟨e, hst⟩ := hi.before
  unfold stationRow at hr
  split at hr <;> cases hr
  case h_1 h =>
    have hex : execNop h s = _ := hi.done rfl
    exact ⟨_, hex, completeWord_stands rfl hst⟩
  case h_2 h =>
    have hex : execYield h s = _ := hi.done rfl
    exact ⟨_, hex, completeWord_stands rfl ((yield_station ..).trans hst)⟩
  case h_3 h d a b cond =>
    obtain ⟨e', he'⟩ := setP_e d (c.x.psetValue a b cond) c.x e
    have hex : execPset h d a b cond s = _ := hi.done (q := c.upd _ (·.setP d (c.x.psetValue a b cond))) rfl
    exact ⟨_, hex, _, c.x.psetValue_iff a b cond, completeWord_stands rfl ((State.updSt_station hst _).trans (congrArg some he'))⟩
  case h_4 h x a b m d =>
    have hex : execShape h x a b m d s = _ := hi.done rfl
    exact ⟨_, hex, completeWord_stands rfl (State.updSt_station hst (·.setH x #v[c.g a, c.g b, c.g m, c.g d]))⟩
  case h_5 h x a b =>
    obtain ⟨e1, h1⟩ := setG_station hst a (c.x.rv x).dword0
    obtain ⟨e2, h2⟩ := setG_station h1 b (c.x.rv x).dword1
    have hex : execViewldGet h x a b s = _ := hi.done rfl
    exact ⟨_, hex, completeWord_stands rfl h2⟩
  case h_6 h g sub k =>
    have hex : execWaite h g sub k s = _ := hi.done rfl
    exact ⟨_, hex, completeWord_stands rfl hst⟩
  case h_7 h mask =>
    have hex : execSwaits h mask s = _ := hi.done rfl
    exact ⟨_, hex, completeWord_stands rfl hst⟩
  case h_8 h g set k =>
    obtain ⟨e', h1⟩ := State.updCounter_station _ c.id c.st k (fun e => if set then (c.g g).setWidth 32 else e + (c.g g).setWidth 32) hst
    have hex : execSige h g set k s = _ := hi.done rfl
    exact ⟨_, hex, completeWord_stands rfl h1⟩

end Sys2Proof.Slice0
end

section
/-! SUPPORT. The scalar stores of LOCAL and SHARED space, and the scalar accesses that take effect after their issue (R202, R203, R245). -/

namespace Sys2Proof.Machine

/-! ### STS and STQ (R202) -/

/-- The bytes of an element of LOCAL or SHARED space are written in place. -/
theorem storeElem_near {s : State} {job tile : Nat} {f : Dword} {a : Int} {bs : List Byte} {p : Place} (hg : formSpace f ≠ spGlobal)
    (h : elementCheck s job tile f a bs.length .write = .ok p) (u : Nat) (v : View) :
    storeElem s u job tile v f a bs = .done (s.putBytes p bs) := by
  obtain ⟨h3, -, -, hsp⟩ := elementCheck_ok h
  obtain ⟨hmem, hver⟩ := spaceCheck_near hg h3 hsp
  simp only [storeElem, h, s.placeUp_near hmem, hver, Bool.not_true, Bool.false_eq_true, if_false]

/-- The bytes STS and STQ store, from the registers as they stand at issue. -/
def Ctx.stored (c : Ctx) (quad : Bool) (d : Reg) : List Byte := (if quad then (regs4 d).map c.g else [c.g d]).flatMap bytesOf

theorem Ctx.stored_length (c : Ctx) (quad : Bool) (d : Reg) : (c.stored quad d).length = loadSize quad := by
  have hreg : ∀ r, (bytesOf (c.g r)).length = 8 := fun r => leBytes_length ..
  cases quad <;> simp [Ctx.stored, regs4, hreg]

section
variable {s : State} {i : Instr} {h : Hdr} {c : Ctx} {a : Reg} {imm : BitVec 26} {p : Place} {quad : Bool}

/-- A store that nothing holds back is performed at its issue. -/
theorem store_writes (hi : Issues s i h c) (ha : i.asksHead = false) (d : Reg)
    (hp : Slice0.scalarPlace s c a imm (loadSize quad) .write p) (hfree : Slice0.unheld s c .write a imm (loadSize quad)) :
    ∃ t, scalarWord i h true quad d a imm s = .next t ∧ Slice0.Stands t c c.x ∧
      t.store = ((beforeEffect c i s).putBytes p (c.stored quad d)).store := by
  obtain ⟨hg, hel⟩ := hp
  obtain ⟨hfence, hprior, hlate, hnear⟩ := hfree
  have hq := Quiet.beforeEffect c i s
  have hel' : elementCheck (beforeEffect c i s) c.job c.tile (c.g a) (scalarAddr (c.g a) imm) (loadSize quad) .write = .ok p :=
    (hq.elementCheck ..).trans hel
  have hprior' : overlapping (beforeEffect c i s) c (c.g a) (scalarAddr (c.g a) imm) (loadSize quad) = [] :=
    (hq.overlapping ..).trans hprior
  have hdirect : (ownerForward (beforeEffect c i s) p).isNone = true := by
    rw [hq.ownerForward]
    simpa only [Slice0.direct, hel] using hnear
  have hfence' : c.x.waitsFor clLW false = [] := hfence
  have h0 : ((scalarAddr (c.g a) imm).toNat : Int) = scalarAddr (c.g a) imm := Int.toNat_of_nonneg (elementCheck_ok hel).2.1
  have hput := fun u v => storeElem_near (u := u) (v := v) (bs := c.stored quad d) hg (by rw [c.stored_length]; exact hel')
  obtain ⟨e, hst⟩ := hi.before
  have hst' : ((beforeEffect c i s).putBytes p (c.stored quad d)).station? c.id c.st = some { c.x with e := e } := by
    rw [State.station?, State.putBytes_friezes]
    exact hst
  refine ⟨_, hi.done (now := true) (q := (beforeEffect c i s).putBytes p (c.stored quad d)) ?_, completeWord_stands ha hst', by simp⟩
  simp only [if_true]
  rw [scalarCheck_near hg hel', hel', hprior', hfence', hlate]
  simp only [hdirect, List.append_nil, List.isEmpty_nil, Bool.not_false, Bool.and_self, if_true, scalarNow, h0]
  rw [← Ctx.stored, hput]

/-! ### Scalar accesses left outstanding (R203, R245) -/

/-- A scalar word's access as it is left outstanding. -/
def Ctx.leaves (c : Ctx) (s : State) (store quad : Bool) (d a : Reg) (imm : BitVec 26) : PendScalar :=
  { uid := s.serial, store := store, quad := quad, dst := d, form := c.g a, addr := (scalarAddr (c.g a) imm).toNat
    vals := if store then (if quad then (regs4 d).map c.g else [c.g d]) else []
    waits := c.x.waitsFor (if store then clLW else clLR) false ++ overlapping s c (c.g a) (scalarAddr (c.g a) imm) (loadSize quad)
    sigMode := c.h.sigMode, sigK := c.h.sigK }

/-- The kind of access of a store or a load. -/
abbrev scalarKind (store : Bool) : Access := if store then .write else .read

/-- A scalar access that is held back, or that the 840 performs later, stands outstanding when it has issued. -/
theorem scalar_leaves (hi : Issues s i h c) (ha : i.asksHead = false) (store : Bool) (d : Reg)
    (hp : ∃ p, Slice0.scalarPlace s c a imm (loadSize quad) (scalarKind store) p)
    (hheld : ¬Slice0.unheld s c (scalarKind store) a imm (loadSize quad))
    (htake : store = false → ∀ bs, ¬Slice0.takesStore s c a imm (loadSize quad) bs) :
    ∃ t, scalarWord i h store quad d a imm s = .next t ∧ SameBytes s t ∧
      Slice0.Stands t c { c.x with pend := c.x.pend ++ [c.leaves s store quad d a imm] } := by
  obtain rfl := hi.hdr
  obtain ⟨p, hg, hel⟩ := hp
  have hq := Quiet.beforeEffect c i s
  have hel' : elementCheck (beforeEffect c i s) c.job c.tile (c.g a) (scalarAddr (c.g a) imm) (loadSize quad) (scalarKind store) = .ok p :=
    (hq.elementCheck ..).trans hel
  obtain ⟨e, hst⟩ := hi.before
  have hserial : (beforeEffect c i s).serial = s.serial := by rw [hq.rest]
  have hwait : ((c.leaves s store quad d a imm).waits.isEmpty && !c.late && (ownerForward (beforeEffect c i s) p).isNone) = false := by
    by_contra hc
    simp only [Bool.not_eq_false, Bool.and_eq_true, List.isEmpty_iff, Bool.not_eq_true', Ctx.leaves, List.append_eq_nil_iff] at hc
    obtain ⟨⟨⟨hfence, hprior⟩, hlate⟩, hnear⟩ := hc
    rw [hq.ownerForward] at hnear
    exact hheld ⟨by cases store <;> exact hfence, hprior, hlate, by simpa only [Slice0.direct, hel] using hnear⟩
  have hfwd : (if store || c.late || !(c.x.waitsFor (if store then clLW else clLR) false).isEmpty then none
      else forwarded c.x (overlapping s c (c.g a) (scalarAddr (c.g a) imm) (loadSize quad)) (c.g a) (scalarAddr (c.g a) imm).toNat
        (loadSize quad)) = none := by
    refine ite_eq_left_iff.mpr fun hnot => Option.eq_none_iff_forall_ne_some.mpr fun bs hbs => ?_
    simp only [Bool.or_eq_true, not_or, Bool.not_eq_true, Bool.not_eq_false', List.isEmpty_iff] at hnot
    obtain ⟨⟨rfl, hlate⟩, hfence⟩ := hnot
    exact htake rfl bs ⟨hfence, hlate, hbs⟩
  refine ⟨_, hi.done (now := false)
    (q := (c.upd (beforeEffect c i s) fun x => { x with pend := x.pend ++ [c.leaves s store quad d a imm] }).bump) ?_,
    SameBytes.of_store (by simp), completeWord_stands ha (State.updSt_station hst _)⟩
  dsimp only
  rw [scalarCheck_near hg hel', hel', hq.overlapping, hserial]
  refine (if_neg (Bool.eq_false_iff.mp hwait)).trans ?_
  rw [hfwd]
  rfl

end

end Sys2Proof.Machine

namespace Sys2Proof.Slice0
open Machine

/-- Where a scalar access goes is one place. -/
theorem scalarPlace_unique {s : State} {c : Ctx} {a : Reg} {imm : BitVec 26} {z : Nat} {k : Access} {p q : Place}
    (hp : scalarPlace s c a imm z k p) (hq : scalarPlace s c a imm z k q) : p = q := Except.ok.inj (hp.2.symm.trans hq.2)

/-- What bytes written at a place leave of memory. -/
theorem putBytes_leaves {s t r : State} {p : Place} {bs : List Byte} (hq : Quiet s t) (hr : r.store = (t.putBytes p bs).store) :
    ((s.mem p.mem).wf → r.bytesAt p bs.length = bs) ∧ SameBytesBut s r p bs.length := by
  refine ⟨fun hwf => (putBytes_only hq hwf hr).1, fun k a h => ?_⟩
  rw [State.mem_of_store hr, SameBytesBut.putBytes t p bs k a h, hq.mem]

/-- A store that nothing holds back completes with its bytes written and no other. -/
theorem store_completes {s : State} {i : Instr} {h : Hdr} {c : Ctx} {a : Reg} {imm : BitVec 26} {quad : Bool} (hi : Issues s i h c)
    (ha : i.asksHead = false) (d : Reg) (hp : ∃ p, scalarPlace s c a imm (loadSize quad) .write p)
    (hfree : unheld s c .write a imm (loadSize quad)) :
    ∃ t, scalarWord i h true quad d a imm s = .next t ∧ Stands t c c.x ∧ ∀ p, scalarPlace s c a imm (loadSize quad) .write p →
      ((s.mem p.mem).wf → t.bytesAt p (loadSize quad) = c.stored quad d) ∧ SameBytesBut s t p (loadSize quad) := by
  obtain ⟨p, hplace⟩ := hp
  obtain ⟨t, ht, hstands, hstore⟩ := store_writes hi ha d hplace hfree
  have hbytes := putBytes_leaves (Quiet.beforeEffect ..) hstore
  rw [c.stored_length] at hbytes
  exact ⟨t, ht, hstands, fun p' hp' => scalarPlace_unique hplace hp' ▸ hbytes⟩

/-- Settles O18: a store that nothing holds back writes its bytes in place as it issues; any other scalar access that does not take an
earlier store's bytes joins those left outstanding. -/
theorem scalarStores : Obligations.ScalarStores := by
  unfold Obligations.ScalarStores
  refine ⟨fun i r s c hr hi hp => ?_, fun i r s c hr hi hp => ?_⟩
  · unfold storeRow at hr
    split at hr <;> cases hr
    case h_1 h d a imm =>
      obtain ⟨hplace, hfree⟩ := hp
      exact store_completes (quad := false) hi rfl d hplace hfree
    case h_2 h d a imm =>
      obtain ⟨hplace, hfree⟩ := hp
      exact store_completes (quad := true) hi rfl d hplace hfree
  · unfold laterRow at hr
    split at hr <;> cases hr
    case h_1 h d a imm =>
      obtain rfl : c.h = h := hi.hdr
      obtain ⟨hplace, hheld, htake⟩ := hp
      exact scalar_leaves (quad := false) hi rfl false d hplace hheld fun _ => htake rfl
    case h_2 h d a imm =>
      obtain rfl : c.h = h := hi.hdr
      obtain ⟨hplace, hheld, htake⟩ := hp
      exact scalar_leaves (quad := true) hi rfl false d hplace hheld fun _ => htake rfl
    case h_3 h d a imm =>
      obtain rfl : c.h = h := hi.hdr
      obtain ⟨hplace, hheld, -⟩ := hp
      exact scalar_leaves (quad := false) hi rfl true d hplace hheld nofun
    case h_4 h d a imm =>
      obtain rfl : c.h = h := hi.hdr
      obtain ⟨hplace, hheld, -⟩ := hp
      exact scalar_leaves (quad := true) hi rfl true d hplace hheld nofun

end Sys2Proof.Slice0
end

section
/-! SUPPORT. The lowest IDLE slot, the slot a word's access runs in, and the words that start one (R195, R202, R206, R236, R248, R249). -/

namespace Sys2Proof.Machine

/-! ### The lowest IDLE slot (R195) -/

theorem Station.freeSlot_lowest {x : Station} {k : BitVec 4} (h : x.freeSlot = some k) : Slice0.Lowest x k := by
  obtain ⟨l, n, r, hl, hn, hbefore⟩ := List.findSome?_eq_some_iff.mp h
  have hlt : n < 16 := List.mem_range.mp (by rw [hl]; simp)
  have hright : ∀ j ∈ r, n < j := by
    have hpairs := List.pairwise_lt_range (n := 16)
    rw [hl, List.pairwise_append, List.pairwise_cons] at hpairs
    exact hpairs.2.1.1
  obtain ⟨hidle, rfl⟩ : (x.slot (BitVec.ofNat 4 n)).state = .idle ∧ BitVec.ofNat 4 n = k := by
    split at hn
    next hidle => exact ⟨hidle, Option.some.inj hn⟩
    next => cases hn
  refine ⟨hidle, fun j hj hjidle => ?_⟩
  rw [BitVec.toNat_ofNat, Nat.mod_eq_of_lt hlt] at hj
  have hleft : j.toNat ∈ l := by
    have hmem : j.toNat ∈ List.range 16 := List.mem_range.mpr j.isLt
    rw [hl, List.mem_append, List.mem_cons] at hmem
    obtain hmem | hmem | hmem := hmem
    · exact hmem
    · omega
    · have := hright _ hmem
      omega
  have hnone := hbefore _ hleft
  rw [BitVec.ofNat_toNat, BitVec.setWidth_eq, if_pos hjidle] at hnone
  cases hnone

/-- No slot keeps a word that issues waiting (R303). -/
theorem Issues.slotWait_none {s : State} {i : Instr} {h : Hdr} {c : Ctx} (hi : Issues s i h c) : slotWait c.x i = none := by
  have hrow : rowWait s c i = none := by
    have hfree := hi.free
    unfold holdOf at hfree
    split at hfree
    · cases hfree
    · split at hfree
      · cases hfree
      next hrow => exact hrow
  unfold rowWait at hrow
  split at hrow
  · cases hrow
  · rw [if_neg (by simp [hi.on])] at hrow
    split at hrow
    · cases hrow
    · split at hrow
      · cases hrow
      next hslot => exact hslot

/-- A word that takes a slot and issues finds one (R195, R303). -/
theorem Issues.freeSlot {s : State} {i : Instr} {h : Hdr} {c : Ctx} (hi : Issues s i h c) (ht : i.takesSlot = true)
    (hn : i.namedSlot = none) : ∃ k, c.x.freeSlot = some k := by
  have hwait := hi.slotWait_none
  unfold slotWait at hwait
  split at hwait
  · cases ht
  · rw [hn] at hwait
    rw [← Option.ne_none_iff_exists']
    intro hnone
    rw [ht, hnone] at hwait
    cases hwait

/-! ### The slot of an access (R172, R235) -/

/-- The slot an access runs in from its word's issue on, as `Ctx.started` has it for a stream, with what else it waits for. -/
def Ctx.running (c : Ctx) (s : State) (q : Slot) (extra : List Nat) : Slot := { q with
  state := .running
  uid := s.serial
  sigMode := c.h.sigMode
  sigK := c.h.sigK
  waits := c.x.waitsFor q.kind.classes (q.kind != .recur) ++ extra
  barred := c.x.barredFor q.kind.classes (q.kind != .recur)
  hold := s.cycles.toNat }

/-- An access that takes its slot runs there, and nothing else of its station changes. -/
theorem Ctx.takeSlot_running {c : Ctx} {t : State} {e : Vector Word 32} (ht : t.station? c.id c.st = some { c.x with e := e })
    (k : BitVec 4) (q : Slot) (extra : List Nat) :
    (c.takeSlot t k q extra).station? c.id c.st = some { c.x.setSlot k (c.running t q extra) with e := e } :=
  State.updSt_station ht _

/-- The hold a word leaves behind stands last among those of its station. -/
theorem Ctx.addHold_station {c : Ctx} {t : State} {hd : Hold} {y : Station} (hne : hd.preds.isEmpty = false)
    (ht : t.station? c.id c.st = some y) : (c.addHold t hd).station? c.id c.st = some { y with holds := y.holds ++ [hd] } := by
  rw [Ctx.addHold, if_neg (by simp [hne])]
  exact State.updSt_station ht _

section
variable {s : State} {i : Instr} {h : Hdr} {c : Ctx} {k : BitVec 4} {q : Slot} {extra : List Nat} {P : Slot → Prop}

/-- A word whose access takes a slot, and whose other effects on its station are g. -/
theorem Issues.runs_then (hi : Issues s i h c) (ha : i.asksHead = false) (hk : c.x.freeSlot = some k) {g : Station → Station}
    {body : Ctx → State → Eff}
    (hb : ∃ q extra e t, body c (beforeEffect c i s) = .done t false ∧
      t.station? c.id c.st = some { g (c.x.setSlot k (c.running (beforeEffect c i s) q extra)) with e := e } ∧ q.next = 0 ∧
      P (c.running (beforeEffect c i s) q extra)) :
    ∃ t, issueWord i h s body = .next t ∧ ∃ k, Slice0.Lowest c.x k ∧ Slice0.Runs s t c k g P := by
  obtain ⟨q, extra, e, t, hb, ht, hq, hP⟩ := hb
  have hserial : (beforeEffect c i s).serial = s.serial := by rw [(Quiet.beforeEffect c i s).rest]
  exact ⟨_, hi.done hb, k, Station.freeSlot_lowest hk, _, completeWord_stands ha ht, rfl, hserial, rfl, rfl, hq, hP⟩

/-- A word whose effect is that its access takes a slot. -/
theorem Issues.runs (hi : Issues s i h c) (ha : i.asksHead = false) (hk : c.x.freeSlot = some k) {body : Ctx → State → Eff}
    (hb : ∃ q extra, body c (beforeEffect c i s) = .done (c.takeSlot (beforeEffect c i s) k q extra) false ∧ q.next = 0 ∧
      P (c.running (beforeEffect c i s) q extra)) :
    ∃ t, issueWord i h s body = .next t ∧ ∃ k, Slice0.Lowest c.x k ∧ Slice0.Runs s t c k id P := by
  obtain ⟨q, extra, hb, hq, hP⟩ := hb
  obtain ⟨e, hst⟩ := hi.before
  exact hi.runs_then (g := id) ha hk ⟨q, extra, e, _, hb, c.takeSlot_running hst k q extra, hq, hP⟩

/-- The accesses outstanding are the same when a word's effects begin (R234). -/
theorem Issues.outstanding (hi : Issues s i h c) (mask : BitVec 7) :
    (beforeEffect c i s).outstanding c.id c.st mask = s.outstanding c.id c.st mask := by
  have hquiet := Quiet.beforeEffect c i s
  obtain ⟨l, hf⟩ := beforeEffect_find c i s hi.find
  obtain ⟨e, hst⟩ := hi.before
  have hx : l[c.st]? = some { c.x with e := e } := (State.station_eq hf).symm.trans hst
  have hx0 : c.f.stations[c.st]? = some c.x := (State.station_eq hi.find).symm.trans hi.station
  have hreqs : (beforeEffect c i s).reqs = s.reqs := by rw [hquiet.rest]
  obtain ⟨e', htile⟩ := hquiet.tiles (c.f.tileOf c.st)
  simp only [State.outstanding, hf, hi.find, hx, hx0, hreqs]
  rw [show ({ c.f with stations := l } : Frieze).tileOf c.st = c.f.tileOf c.st from rfl, htile]

end

/-! ### The checks of a word that takes a slot (R204, R207, R250) -/

theorem scalarCheck_global {s : State} {c : Ctx} {f : Dword} {a : Int} {z : Nat} (hg : formSpace f = spGlobal) (hz : a % z = 0)
    (k : Access) : scalarCheck s c f a z true k = none := by
  have hok : spaceAllowed f true := ⟨by rw [hg]; decide, by simp [hg]⟩
  rw [scalarCheck, if_neg fun hr => (spaceRefused_iff f true).1 hr hok, if_neg (not_not.mpr hz), if_pos rfl]

theorem atomCheck_none {f : Dword} {z : Nat} (h3 : formSpace f ≠ 3) (hr : formRsvd f = 0) (hz : formAddr f % z = 0) :
    atomCheck f z = none := by
  rw [atomCheck, if_neg (not_not.mpr hz), formCheck, if_neg h3, if_neg (not_not.mpr hr)]

theorem Quiet.nameable {s t : State} (q : Quiet s t) (job m u : Nat) : nameable t job m u = nameable s job m u := by rw [q.rest]; rfl

end Sys2Proof.Machine

namespace Sys2Proof.Slice0
open Machine

/-- LDG and STG run in the lowest IDLE slot with their operands as they stand at issue (R202). -/
theorem global_runs {s : State} {i : Instr} {h : Hdr} {c : Ctx} {a : Reg} {imm : BitVec 26} (hi : Issues s i h c)
    (ha : i.asksHead = false) (ht : i.takesSlot = true) (hn : i.namedSlot = none) (hg : formSpace (c.g a) = spGlobal)
    (hz : (formAddr (c.g a) + imm.toInt) % 8 = 0) (kind : SKind) (d : Reg) :
    ∃ t, globalWord i h kind d a imm s = .next t ∧ ∃ k, Lowest c.x k ∧ Runs s t c k id fun r => r.kind = kind ∧ r.base = c.g a ∧
      r.base2.toInt = imm.toInt ∧ r.dst = d ∧ r.val = c.g d ∧ r.view = c.x.rv 0 := by
  obtain ⟨k, hk⟩ := hi.freeSlot ht hn
  have hoff : (BitVec.ofInt 64 imm.toInt).toInt = imm.toInt := by
    have hlo := BitVec.le_toInt imm
    have hhi := BitVec.toInt_lt (x := imm)
    rw [BitVec.toInt_ofInt, Int.bmod_eq_of_le] <;> omega
  refine hi.runs ha hk ?_
  have hcheck : scalarCheck (beforeEffect c i s) c (c.g a) (scalarAddr (c.g a) imm) 8 true .read = none := scalarCheck_global hg hz _
  dsimp only
  rw [hcheck, hk]
  exact ⟨_, _, rfl, rfl, rfl, rfl, hoff, rfl, rfl, rfl⟩

/-- Settles O20: past its checks each word takes the slot the hold of R303 has left it, and its access runs there with the operands as
they stand at issue. -/
theorem slotWords : Obligations.SlotWords := by
  unfold Obligations.SlotWords
  intro i r s c hr hi hp
  unfold slotRow at hr
  split at hr <;> cases hr
  case h_1 h d a imm =>
    obtain ⟨hg, hz⟩ := hp
    exact global_runs hi rfl rfl rfl hg hz .ldg d
  case h_2 h d a imm =>
    obtain ⟨hg, hz⟩ := hp
    exact global_runs hi rfl rfl rfl hg hz .stg d
  case h_3 h d a b e op wide =>
    obtain ⟨h3, hr, hz⟩ := hp
    obtain ⟨k, hk⟩ := hi.freeSlot rfl rfl
    change ∃ t, execAtomg h d a b e op wide s = .next t ∧ ∃ k, Lowest c.x k ∧ Runs s t c k id _
    refine hi.runs rfl hk ?_
    dsimp only
    rw [atomCheck_none h3 hr hz, hk]
    exact ⟨_, _, rfl, rfl, rfl, rfl, rfl, rfl, rfl, rfl, rfl⟩
  case h_4 h a b e d op wide acq rel =>
    obtain ⟨h3, hr, hz⟩ := hp
    obtain ⟨k, hk⟩ := hi.freeSlot rfl rfl
    obtain ⟨e0, hst⟩ := hi.before
    have hserial : (beforeEffect c (.ratom h a b e d op wide acq rel) s).serial = s.serial := by rw [(Quiet.beforeEffect ..).rest]
    have hout := hi.outstanding rel
    change ∃ t, execRatom h a b e d op wide acq rel s = .next t ∧ ∃ k, Lowest c.x k ∧ Runs s t c k _ _
    refine hi.runs_then rfl hk ?_
    dsimp only
    rw [atomCheck_none h3 hr hz, hk]
    refine ⟨{ oneSlot .ratom (c.g b) 0 (if wide then 8 else 4) View.zero with
      op := op.toNat, wide := wide, val := c.g e, cmp := c.g d, dst := a, acq := acq }, _, e0, _, rfl, ?_,
      rfl, rfl, rfl, rfl, rfl, rfl, rfl, rfl, fun u hu => List.mem_append_right _ (hout ▸ hu)⟩
    have htaken := c.takeSlot_running hst k
    cases acq
    · exact htaken _ _
    · rw [hserial]
      exact Ctx.addHold_station (hd := ⟨[s.serial], 0x7F, false, true, none⟩) rfl (htaken _ _)
  case h_5 h a b rel =>
    obtain ⟨hplain, hname⟩ := hp
    obtain ⟨k, hk⟩ := hi.freeSlot rfl rfl
    change ∃ t, execRsig h a b rel s = .next t ∧ ∃ k, Lowest c.x k ∧ Runs s t c k id _
    refine hi.runs rfl hk ?_
    dsimp only
    rw [hk]
    dsimp only
    rw [hplain, (Quiet.beforeEffect ..).nameable, show nameable s c.job _ _ = true from hname, hi.outstanding]
    exact ⟨_, _, rfl, rfl, rfl, rfl, rfl, fun u hu => List.mem_append_right _ hu⟩

end Sys2Proof.Slice0
end

section
/-! SUPPORT. The words that read and write a port, configure one, or load a view (R210–R214, R225). -/

namespace Sys2Proof.Machine

/-! ### Ports and their configuration, as event counters leave them -/

theorem Quiet.inPort {s t : State} (q : Quiet s t) (u p : Nat) : (t.tile u).inPort p = (s.tile u).inPort p := by
  obtain ⟨e, he⟩ := q.tiles u
  rw [he]
  rfl

theorem Quiet.portStatus {s t : State} (q : Quiet s t) (u p : Nat) : Machine.portStatus (t.tile u) p = Machine.portStatus (s.tile u) p := by
  obtain ⟨e, he⟩ := q.tiles u
  rw [he]
  rfl

theorem Quiet.cfg {s t : State} (q : Quiet s t) (u : Nat) : (t.tile u).cfg = (s.tile u).cfg := by
  obtain ⟨e, he⟩ := q.tiles u
  rw [he]

theorem Quiet.foreignCfg {s t : State} (q : Quiet s t) (u p id : Nat) : t.foreignCfg u p id = s.foreignCfg u p id := by
  rw [State.foreignCfg, q.cfg]
  rfl

theorem Quiet.setG (c : Ctx) (s : State) (d : Reg) (v : Dword) : Quiet s (c.setG s d v) := Quiet.updSt ..

theorem Quiet.levelNow (c : Ctx) (s : State) (P : Prop) [Decidable P] (k : BitVec 6) :
    Quiet s (if P then s.addCount c.id c.st k 1 else s) := by
  split
  · exact Quiet.addCount ..
  · exact Quiet.refl s

theorem portStatus_inPort (x : Tile) {p : Nat} (hp : p < 32) : portStatus x p = BitVec.ofNat 64 (x.inPort p).free := by
  rw [portStatus, if_pos hp, Tile.portCount, if_pos hp]

/-! ### A station across changes of ports, and the view it loads -/

section
variable {s : State} {c : Ctx} {y : Station} {e : Vector Word 32} (hst : s.station? c.id c.st = some { y with e := e })
include hst

/-- A change of a tile's ports leaves of a station all but its counters. -/
theorem updPorts_station (t : Nat) (g : Tile → Tile) :
    ∃ e', (s.updPorts t g).station? c.id c.st = some { y with e := e' } :=
  (KeepsOf.updPorts (fun _ _ => rfl) s t g).uncounted (x := { y with e := e }) hst

theorem updTile_station (t : Nat) (g : Tile → Tile) : (s.updTile t g).station? c.id c.st = some { y with e := e } := hst

/-- A counter stepped at issue, where COUNT stands at the level already, changes of a station its counters alone (R225). -/
theorem levelNow_station (P : Prop) [Decidable P] (k : BitVec 6) :
    ∃ e', (if P then s.addCount c.id c.st k 1 else s).station? c.id c.st = some { y with e := e' } := by
  split
  · exact (KeepsOf.updCounter (fun _ _ => rfl) s c.id c.st k (· + 1)).uncounted (x := { y with e := e }) hst
  · exact ⟨e, hst⟩

theorem loadView_station (x : BitVec 3) (v : View) : ∃ e', (loadView s c x v).station? c.id c.st = some { y.setV x v with e := e' } := by
  have hset : (c.upd s (·.setV x v)).station? c.id c.st = some { y.setV x v with e := e } := State.updSt_station hst _
  refine ⟨e, ?_⟩
  unfold loadView
  dsimp only
  split <;> exact hset

end

end Sys2Proof.Machine

namespace Sys2Proof.Slice0
open Machine

/-- Settles O22: the checks of a port word pass alike before and after its wait and signals, and what its effects write at its tile's
ports no counter of its completion touches. -/
theorem portWords : Obligations.PortWords := by
  unfold Obligations.PortWords
  intro i r s c hr hi hp
  have hquiet := Quiet.beforeEffect c i s
  obtain ⟨e, hst⟩ := hi.before
  unfold portRow at hr
  split at hr <;> cases hr
  case h_1 h d a o =>
    obtain ⟨hown, b, rest, hout, hclean⟩ := hp
    obtain ⟨e1, h1⟩ := updPorts_station hst c.tile fun x => x.setOut o.toNat (x.outPort o.toNat).tail
    obtain ⟨e2, h2⟩ := setG_station h1 d (b.r.data.extractLsb' 0 64)
    obtain ⟨e3, h3⟩ := setG_station h2 a (b.r.data.extractLsb' 64 64)
    have hex : execPortrd h d a o s = _ := hi.done (now := true) (by
      dsimp only
      rw [hquiet.tile_foreignPort, hown, hquiet.outPort, hout]
      dsimp only
      rw [hclean]
      rfl)
    refine ⟨_, hex, fun b' rest' hout' => ?_⟩
    obtain ⟨rfl, rfl⟩ := List.cons.inj (hout.symm.trans hout')
    refine ⟨?_, completeWord_stands rfl h3⟩
    rw [((Quiet.setG ..).trans ((Quiet.setG ..).trans (Quiet.completeWord ..))).outPort, State.popOut_outPort _ _ o.isLt,
      hquiet.outPort, hout, List.tail_cons]
  case h_2 h d a p =>
    obtain ⟨e1, h1⟩ := updPorts_station hst c.tile fun x =>
      x.setIn p.toNat ((x.inPort p.toNat).enter p.toNat { kind := kindData, data := c.g a ++ c.g d, side := 0, poison := false })
    have hex : execPortwr h d a p s = _ := hi.done (now := true) (by
      rw [hquiet.tile_foreignPort, hp]
      rfl)
    refine ⟨_, hex, completeWord_stands rfl h1, ?_⟩
    rw [(Quiet.completeWord ..).inPort, State.enterPort_inPort _ _ p.isLt, hquiet.inPort]
    exact ⟨rfl, rfl⟩
  case h_3 h d a p =>
    obtain ⟨e1, h1⟩ := setG_station hst d (portStatus (s.tile c.tile) p.toNat)
    have hex : execPortspc h d a p s = _ := hi.done (now := true) (by
      rw [hquiet.tile_foreignPort, hp, hquiet.portStatus]
      rfl)
    exact ⟨_, hex, completeWord_stands rfl h1, portStatus_inPort _⟩
  case h_4 h p lvl k =>
    obtain ⟨hown, hcfg⟩ := hp
    obtain ⟨e1, h1⟩ := levelNow_station
      (updTile_station hst c.tile fun x => { x with cfg := x.cfg.put p.toNat ⟨c.id, 2 * lvl.toNat, k.toNat⟩ })
      (2 * lvl.toNat ≤ ((beforeEffect c (.sportcfg h p lvl k) s).tile c.tile).portCount p.toNat) k
    have hex : execSportcfg h p lvl k s = _ := hi.done (now := true) (by
      dsimp only
      rw [hquiet.tile_foreignPort, hquiet.foreignCfg, hown, hcfg]
      rfl)
    refine ⟨_, hex, completeWord_stands (y := c.x) rfl h1, ?_⟩
    rw [((Quiet.levelNow ..).trans (Quiet.completeWord ..)).cfg, State.tile_updTile_self, hquiet.cfg]
    exact ⟨Tab.find_put_self .., fun q hq => Tab.find_put_ne _ _ hq⟩
  case h_5 h p =>
    obtain ⟨hown, hcfg⟩ := hp
    have h1 := updTile_station hst c.tile fun x => { x with cfg := x.cfg.del p.toNat }
    have hex : execSportcfgOff h p s = _ := hi.done (now := true) (by
      dsimp only
      rw [hquiet.tile_foreignPort, hquiet.foreignCfg, hown, hcfg]
      rfl)
    refine ⟨_, hex, completeWord_stands (y := c.x) rfl h1, ?_⟩
    rw [(Quiet.completeWord ..).cfg, State.tile_updTile_self, hquiet.cfg]
  case h_6 h x a b =>
    obtain ⟨e1, h1⟩ := loadView_station hst x (View.ofDwords (c.g a) (c.g b))
    have hex : execViewld h x a b s = _ := hi.done (now := true) rfl
    exact ⟨_, hex, completeWord_stands rfl h1⟩

end Sys2Proof.Slice0
end

section
/-! SUPPORT. An exception taken at a station, a slot's fault and what it leaves of a station, and the pending fault found first
(R196, R235, R305, R393, R397). -/

namespace Sys2Proof.Machine

/-! ### An exception taken (R393, R394) -/

theorem State.raise_eq (s : State) (id st : Nat) (cause : Cause) (slot : Option Nat) (d0 d1 d2 : Dword) :
    s.raise id st cause slot d0 d1 d2 = s.updFz id (·.raised st cause slot d0 d1 d2) := rfl

/-- An exception taken while the head takes words and no trap is found yet is the frieze's trap. -/
theorem State.raise_trapped {s : State} {id st : Nat} {f : Frieze} {x : Station} (h : Slice0.At s id st f x) (hh : Slice0.Heads f)
    (ht : f.trap = none) (cause : Cause) (slot : Option Nat) (d0 d1 d2 : Dword) :
    Slice0.Trapped (s.raise id st cause slot d0 d1 d2).deselect id st x ⟨cause, slot, st, x.pos, d0, d1, d2⟩ := by
  have hne : f.stop ≠ .freeze := by rw [hh.go]; decide
  obtain ⟨hstop, htrap⟩ := f.raised_of_ne_freeze st cause slot d0 d1 d2 h.st hne
  rw [State.raise_eq]
  refine ⟨_, State.updFz_find h.fz _, hstop, by rw [htrap, ht]; rfl, ?_⟩
  rw [Frieze.raised_stations]
  exact Frieze.updSt_get h.st _

/-! ### A slot at fault (R196, R235) -/

/-- Slot k stands FAULTED with a cause, its fault pending. -/
def FaultKept (k : Nat) (cause : BitVec 8) (y : Station) : Prop :=
  (y.slot (BitVec.ofNat 4 k)).state = .faulted cause ∧ ∃ p ∈ y.faults, p.slot = some k ∧ p.cause = cause

theorem faultKept_steady (k : Nat) (cause : BitVec 8) : Steady (FaultKept k cause) where
  counts _ h := h
  signals h := h
  retires {y} u h := by
    obtain ⟨hslot, hfaults⟩ := h
    refine ⟨?_, hfaults⟩
    rw [Station.retire_slot]
    exact hslot

section
variable {s : State} {id st : Nat} {v : Viol}

theorem State.Has.addFault {P Q : Station → Prop} (h : s.Has id st P) {slot : Option Nat} {cause : Cause} {d0 d1 d2 : Dword}
    (hg : ∀ x, P x → Q (x.withFault ⟨slot, cause, s.serial, d0, d1, d2⟩)) : (s.addFault id st slot cause d0 d1 d2).Has id st Q :=
  State.Has.of_friezes (h.updSt hg) rfl

theorem State.Has.addFault_other {P : Station → Prop} (h : s.Has id st P) {i j : Nat} (hij : (i, j) ≠ (id, st)) (slot : Option Nat)
    (cause : Cause) (d0 d1 d2 : Dword) : (s.addFault i j slot cause d0 d1 d2).Has id st P :=
  State.Has.of_friezes (h.updSt_other hij _) rfl

/-- The parts of a slot's fault: the slot FAULTED, the fault pending, and its access and what its port has promised it given up. -/
theorem State.faultSlot_parts {x : Station} (hx : s.station? id st = some x) (k : Nat) (hv : v.freeze = false) (form : Dword) :
    ∃ q d1 d2 u t, s.faultSlot id st k v form = (((s.updSt id st (·.setSlot (BitVec.ofNat 4 k) q)).addFault id st (some k) v.cause
      form d1 d2).retire id u).unsend t [u] ∧ q.state = .faulted v.cause := by
  unfold State.faultSlot
  simp only [hx, hv, Bool.false_eq_true, if_false]
  exact ⟨_, _, _, _, _, rfl, rfl⟩

/-- A slot's fault leaves it FAULTED with the fault pending. -/
theorem State.Has.faultSlot {x : Station} (hx : s.station? id st = some x) (k : Nat) (hv : v.freeze = false) (form : Dword) :
    (s.faultSlot id st k v form).Has id st (FaultKept k v.cause) := by
  obtain ⟨q, d1, d2, u, t, heq, hq⟩ := State.faultSlot_parts hx k hv form
  have hslot : (s.updSt id st (·.setSlot (BitVec.ofNat 4 k) q)).Has id st fun y => (y.slot (BitVec.ofNat 4 k)).state = .faulted v.cause :=
    ⟨_, State.updSt_station hx _, by simpa only [Station.slot_setSlot] using hq⟩
  have hsteady := faultKept_steady k v.cause
  rw [heq]
  refine State.Has.unsend hsteady (State.Has.retire hsteady (hslot.addFault fun y hy => ?_) ..) ..
  exact ⟨hy, _, List.mem_append_right _ (List.mem_singleton_self _), rfl, rfl⟩

/-- A fault of another station's slot keeps what lasts of a station. -/
theorem State.Has.faultSlot_other {P : Station → Prop} (hP : Steady P) (h : s.Has id st P) {i j : Nat} (hij : (i, j) ≠ (id, st))
    (k : Nat) (hv : v.freeze = false) (form : Dword) : (s.faultSlot i j k v form).Has id st P := by
  cases hx : s.station? i j with
  | none => simpa only [State.faultSlot, hx] using h
  | some x =>
    obtain ⟨q, d1, d2, u, t, heq, -⟩ := State.faultSlot_parts hx k hv form
    rw [heq]
    exact State.Has.unsend hP (State.Has.retire hP (State.Has.addFault_other (h.updSt_other hij _) hij ..) ..) ..

/-- The station whose slot ends at a fault of no element keeps the fault, whichever others end with it (R218). -/
theorem endAt_has {f : Frieze} {x : Station} (hx : s.station? id st = some x) (k : Nat) (q : Slot) (cause : BitVec 8) :
    (endAt s f id st k q cause).Has id st (FaultKept k cause) := by
  unfold endAt readFault
  refine State.Has.foldl (fun t j ht => ?_) _ (State.Has.faultSlot (v := ⟨cause, false⟩) hx k rfl 0)
  split
  · exact ht
  next hj => exact ht.faultSlot_other (faultKept_steady k cause) (by simpa using hj) k rfl 0

end

/-! ### The earliest pending fault -/

theorem firstFault_mem {l : List PendFault} {q : PendFault} (h : firstFault l = some q) : q ∈ l := by
  induction l generalizing q with
  | nil => cases h
  | cons p rest ih =>
    unfold firstFault at h
    split at h
    · rw [← Option.some.inj h]
      exact List.mem_cons_self
    next r hr =>
      rw [← Option.some.inj h]
      split
      · exact List.mem_cons_of_mem _ (ih hr)
      · exact List.mem_cons_self

theorem firstFault_of_earliest {p : PendFault} {rest : List PendFault} (h : ∀ r ∈ rest, p.no ≤ r.no) :
    firstFault (p :: rest) = some p := by
  unfold firstFault
  split
  · rfl
  next r hr => rw [if_neg (Nat.not_lt.mpr (h r (firstFault_mem hr)))]

end Sys2Proof.Machine

namespace Sys2Proof.Slice0
open Machine

theorem timeoutSays_detail (s : State) (id st tile : Nat) (w : Why) {r : Trap}
    (h : (r.d0, r.d1, r.d2) = timeoutDetail s id st tile w) : timeoutSays s id st tile w r := by
  obtain ⟨h0, h⟩ := Prod.mk.inj h
  obtain ⟨h1, h2⟩ := Prod.mk.inj h
  refine ⟨fun k need hw => ?_, fun p need hw => ?_, fun m hw => ?_, fun n hw => ?_⟩ <;> subst hw <;> exact ⟨h0, h1, h2⟩

/-- A station held until WAIT_LIMIT traps. -/
theorem waitTimeout_traps {id st : Nat} {f : Frieze} {x : Station} {j : Job} {w : Why} {s : State} (h : At s id st f x)
    (hh : Heads f) (ht : f.trap = none) (hj : s.jobs.find f.job = some j) (hw : standAt s id st = .held w)
    (hlim : j.waitLimit.toNat ≤ x.hold) : ∃ t r, exec (.waitTimeout id st) s = .next t ∧ Trapped t id st x r ∧ r.cause = 0x07 ∧
      r.slot = none ∧ r.station = st ∧ r.at_ = x.pos ∧ timeoutSays s id st (f.head + st) w r := by
  let d := timeoutDetail s id st (f.tileOf st) w
  have hex : execWaitTimeout id st s = .next (s.raise id st causeWaitTimeout none d.1 d.2.1 d.2.2).deselect := by
    have hgo : ¬(x.hold < ((s.job? f.job).map (·.waitLimit.toNat)).getD 0 ∨ f.state ≠ .resident ∨ f.stop.drains = true) := by
      simpa [State.job?, hj, hh.on, hh.go, Stop.drains] using hlim
    simp only [execWaitTimeout, h.fz, State.station_eq h.fz, h.st, hw, if_neg hgo]
    rfl
  exact ⟨_, _, hex, State.raise_trapped h hh ht .., rfl, rfl, rfl, rfl, timeoutSays_detail _ _ _ _ _ rfl⟩

/-- A slot that SBAR or FENCE has held until WAIT_LIMIT ends with WAIT_TIMEOUT. -/
theorem holdTimeout_faults {id st k : Nat} {f : Frieze} {x : Station} {j : Job} {s : State} (h : At s id st f x)
    (hf : f.state = .resident) (hj : s.jobs.find f.job = some j) (hk : k < 16) (hrun : (x.slot (BitVec.ofNat 4 k)).state = .running)
    (hbar : (x.slot (BitVec.ofNat 4 k)).barred ≠ [])
    (hlim : (x.slot (BitVec.ofNat 4 k)).hold + j.waitLimit.toNat ≤ s.cycles.toNat) :
    exec (.holdTimeout id st k) s = .next (endAt s f id st k (x.slot (BitVec.ofNat 4 k)) causeWaitTimeout) := by
  change execHoldTimeout id st k s = _
  have hgo : ¬(f.state ≠ .resident ∨ (x.slot (BitVec.ofNat 4 k)).state ≠ .running ∨
      (x.slot (BitVec.ofNat 4 k)).barred.isEmpty = true ∨ 16 ≤ k) := by
    simpa [hf, hrun, hbar] using hk
  simp only [execHoldTimeout, h.fz, State.station_eq h.fz, h.st, if_neg hgo]
  rw [if_pos (by simpa [State.job?, hj] using hlim)]

/-- The earliest pending fault of a station is its frieze's trap. -/
theorem faultDelivery_traps {id st : Nat} {f : Frieze} {x : Station} {p : PendFault} {rest : List PendFault} {s : State}
    (h : At s id st f x) (hh : Heads f) (ht : f.trap = none) (hx : x.exiting = false) (hp : x.faults = p :: rest)
    (hfirst : ∀ r ∈ rest, p.no ≤ r.no) :
    exec (.faultDelivery id st) s = .next (s.raise id st p.cause p.slot p.d0 p.d1 p.d2).deselect := by
  change execFaultDelivery id st s = _
  simp [execFaultDelivery, h.fz, State.station_eq h.fz, h.st, hp, firstFault_of_earliest hfirst, hh.on, hh.go, hx, ht]

/-- Settles O36: a word held to its limit and a pending fault are taken as the frieze's trap; a slot held to its limit keeps its fault
through whatever else ends with it. -/
theorem timeoutsAndFaults : Obligations.TimeoutsAndFaults := by
  unfold Obligations.TimeoutsAndFaults
  refine ⟨fun id st f x j w s h hh ht hj hw hlim => waitTimeout_traps h hh ht hj hw hlim, ?_, ?_⟩
  · rintro id st k f x j q s h hf hj hk rfl hrun hbar hlim
    obtain ⟨y, hy, hkept⟩ := endAt_has (f := f) ((State.station_eq h.fz).trans h.st) k (x.slot (BitVec.ofNat 4 k)) causeWaitTimeout
    exact ⟨_, y, holdTimeout_faults h hf hj hk hrun hbar hlim, hy, hkept⟩
  · intro id st f x p rest s h hh ht hx hp hfirst
    exact ⟨_, faultDelivery_traps h hh ht hx hp hfirst, State.raise_trapped h hh ht ..⟩

end Sys2Proof.Slice0
end

section
/-! An RSIG whose access number has entries of an in-port promised to it: giving them up raises the port's COUNT to a
configured level, and the level's counter steps with the mailbox's. -/

namespace Sys2Proof.Slice0
open Machine

/-! ### A release that gives up what a port has promised it (R185, R225, R248) -/

/-- The slot of an RSIG of 1 to counter 0 of tile 1 of this module. -/
def portedRelease : Slot := { Slot.idle with state := .running, kind := .rsig, uid := 5, base := 0x1000, val := 1 }

/-- The station on tile 0 whose slot 0 runs that RSIG. -/
def releasingStation : Station := (Station.launch 0 View.launch).setSlot 0 portedRelease

/-- The frieze of that one station. -/
def releasingFrieze : Frieze := { placedFrieze 0 with stations := [releasingStation] }

/-- In-port 0 of tile 0 has one entry promised to the RSIG's access, and SPORTCFG has counter 0 of the tile step at a COUNT of 64. -/
def promisedTile : Tile := { Tile.reset with
  inp := Tile.reset.inp.set 0 { InPort.reset with sent := [(5, 1)] }
  cfg := [(0, ⟨0, 64, 32⟩)] }

/-- The state of that frieze and that tile. -/
def releasingState : State := { State.reset with friezes := [(0, releasingFrieze)], tiles := [(0, promisedTile)] }

theorem releasingState_moves : Moves releasingState 0 0 0 releasingFrieze releasingStation portedRelease where
  at_ := ⟨rfl, rfl⟩
  on := ⟨rfl, rfl⟩
  slot := ⟨by decide, rfl⟩
  run := ⟨rfl, rfl, rfl⟩

theorem releasingState_arrives : exec (.remoteReleaseArrival (.own 0) 0 0) releasingState = .next (releaseSlot 0 0 0 releasingState) := rfl

/-- Counter 0 of tile 0 has stepped, which the RSIG does not name. -/
theorem releasingState_steps : ((releaseSlot 0 0 0 releasingState).tile 0).ctr 0 = 1 := by decide

/-- Refutes O38: an RSIG that completes gives up every entry an in-port has promised its access, and the rise of the port's COUNT to a
level that SPORTCFG has set steps a counter of the tile (R225), where the statement has every counter but the mailbox's stay. The statement
lacks the hypothesis that no in-port of the frieze's tile has promised entries under the RSIG's access number. -/
theorem not_atomicsAndReleases : ¬Obligations.AtomicsAndReleases := by
  unfold Obligations.AtomicsAndReleases
  rintro ⟨-, hown, -⟩
  obtain ⟨t, y, ht, -, hctr⟩ := hown 0 0 0 releasingFrieze releasingStation portedRelease releasingState releasingState_moves
    rfl rfl rfl (by decide) (by decide)
  rw [releasingState_arrives, Host.Outcome.next.injEq] at ht
  have hkept : ((releaseSlot 0 0 0 releasingState).tile 0).ctr 0 = (releasingState.tile 0).ctr 0 :=
    (ht ▸ hctr 0 0 (by decide)).trans (by decide)
  exact absurd (hkept.symm.trans releasingState_steps) (by decide)

end Sys2Proof.Slice0
end

section
/-! SUPPORT. A request of class EN from the issue of its word on, and the words that become one (R167, R237, R273, R343, R346, R359, R360,
R363). -/

namespace Sys2Proof.Machine

/-! ### A request of class EN (R237) -/

theorem Quiet.reqs {s t : State} (q : Quiet s t) : t.reqs = s.reqs := by rw [q.rest]

theorem Quiet.serial {s t : State} (q : Quiet s t) : t.serial = s.serial := by rw [q.rest]

theorem Quiet.routes {s t : State} (q : Quiet s t) : t.routes = s.routes := by rw [q.rest]

section
variable {s q : State} {i : Instr} {h : Hdr} {c : Ctx} {body : Ctx → State → Eff} {kind : ReqKind} {dst : Option Reg} {waits : List Nat}

/-- The request a word makes stands under the serial number the word has found. -/
theorem Ctx.request_asked (c : Ctx) (i : Instr) (s : State) (kind : ReqKind) (dst : Option Reg) :
    Slice0.Asked s (c.request (beforeEffect c i s) kind dst) c kind dst none (c.x.waitsFor clEN false) := by
  unfold Slice0.Asked Ctx.request
  rw [(Quiet.beforeEffect c i s).serial]
  exact Tab.find_put_self ..

/-- A request made before a word is past stands when it is. -/
theorem completeWord_asked {lane : Option Nat} (hq : Slice0.Asked s q c kind dst lane waits) (now : Bool) :
    Slice0.Asked s (completeWord c i q now) c kind dst lane waits := by
  unfold Slice0.Asked at hq ⊢
  rwa [(Quiet.completeWord ..).reqs]

/-- A word whose effects make a request and leave every frieze alone: the request stands and the station goes on. -/
theorem Issues.asks_with (hi : Issues s i h c) (ha : i.asksHead = false) (hb : body c (beforeEffect c i s) = .done q false)
    (hf : q.friezes = (beforeEffect c i s).friezes) (hq : Slice0.Asked s q c kind dst none waits) :
    ∃ t, issueWord i h s body = .next t ∧ Slice0.Asked s t c kind dst none waits ∧ Slice0.Stands t c c.x := by
  obtain ⟨e, hst⟩ := hi.before
  refine ⟨_, hi.done hb, completeWord_asked hq false, completeWord_stands ha (e := e) ?_⟩
  rwa [State.station?, hf]

/-- A word whose only effect is its request. -/
theorem Issues.asks (hi : Issues s i h c) (ha : i.asksHead = false)
    (hb : body c (beforeEffect c i s) = .done (c.request (beforeEffect c i s) kind dst) false) :
    ∃ t, issueWord i h s body = .next t ∧ Slice0.Asked s t c kind dst none (c.x.waitsFor clEN false) ∧ Slice0.Stands t c c.x :=
  hi.asks_with ha hb rfl (c.request_asked i s kind dst)

end

/-! ### The checks of a word of class EN -/

section
variable {s t : State} (q : Quiet s t)
include q

theorem Quiet.foreignCol (u j id : Nat) : t.foreignCol u j id = s.foreignCol u j id := by
  obtain ⟨e, he⟩ := q.tiles u
  rw [State.foreignCol, he]
  rfl

theorem Quiet.foreignRoute (src id : Nat) : foreignRoute t src id = foreignRoute s src id := by
  rw [Machine.foreignRoute, q.routes]
  rfl

theorem Quiet.routing (c : Ctx) (o : Nat) : c.routing t o = c.routing s o := by
  rw [Ctx.routing, q.reqs]
  rfl

theorem Quiet.ownerPlace (job : Nat) (base len : Dword) : ownerPlace t job base len = ownerPlace s job base len := by
  rw [q.rest]; rfl

theorem Quiet.ownerFull (job : Nat) (r : OwnerRange) : ownerFull t job r = ownerFull s job r := by
  rw [q.rest]; rfl

theorem Quiet.job? (job : Nat) : t.job? job = s.job? job := by
  rw [q.rest]; rfl

theorem Quiet.namesRecord (job : Nat) (v : View) : namesRecord t job v = namesRecord s job v := by
  rw [Machine.namesRecord, q.viewRec]
  rfl

end

/-- A range whose bytes R17 lets an access reach has a form that R17 accepts. -/
theorem formCheck_of_addressFault {s : State} {job tile : Nat} {form : Dword} {a n : Nat} {k : Access} (hn : n ≠ 0)
    (hf : addressFault s job tile form a n k = none) : formSpace form ≠ 3 ∧ formRsvd form = 0 := by
  have hform : formCheck form = none := by
    cases hc : formCheck form with
    | none => rfl
    | some v => simp [addressFault, rangeCheck, hc, hn] at hf
  unfold formCheck at hform
  split at hform
  · cases hform
  next h3 =>
    split at hform
    · cases hform
    next hr => exact ⟨h3, not_not.1 hr⟩

/-- A range that fits among those the job holds can enter the tables (R363, R364). -/
theorem ownerFull_of_fits {s : State} {job : Nat} {r : OwnerRange}
    (h : Slice0.rangeFits s (((s.jobs.find job).map (·.owners)).getD []) r) : ownerFull s job r = false := by
  unfold ownerFull State.job?
  generalize ((s.jobs.find job).map (·.owners)).getD [] = held at h ⊢
  obtain ⟨p, hp, hsame⟩ | ⟨hmeets, hroom⟩ := h
  · have heq : held.any (·.same r) = true := List.any_eq_true.mpr ⟨p, hp, hsame⟩
    simp [heq]
  · have hnone : held.any (·.meets r) = false := List.any_eq_false.mpr fun p hp => by rw [hmeets p hp]; decide
    have hlen : decide (64 ≤ (held.filter fun q => q.module s == r.module s).length) = false := decide_eq_false (Nat.not_le.mpr hroom)
    simp only [hnone, hlen, Bool.or_self, Bool.and_false]

/-- A shape without reserved bits and of fewer than 2^48 elements passes the checks of R176 when nothing else is asked of it. -/
theorem shapeCheck_plain {h : Shape} (hp : h.plain = true) (hc : h.count < 2 ^ 48) : shapeCheck h none none false 0 false = none := by
  rw [← Option.not_isSome_iff_eq_none, shapeCheck_isSome]
  simp [hp]
  omega

/-- The bits of a doubleword from the n-th on are zero below 2^n. -/
theorem extractLsb'_eq_zero {w : Dword} {n m : Nat} (h : w.toNat < 2 ^ n) : w.extractLsb' n m = 0 := by
  refine BitVec.eq_of_toNat_eq ?_
  rw [BitVec.extractLsb'_toNat, Nat.shiftRight_eq_div_pow, Nat.div_eq_of_lt h]
  simp

end Sys2Proof.Machine

namespace Sys2Proof.Slice0
open Machine

/-- ACCSAVE and ACCLOAD become requests; where their boundary is the issue, the regions of their columns are held back besides (R167,
R168). -/
theorem accWord_asks {s : State} {i : Instr} {h : Hdr} {c : Ctx} {a : Reg} {first last : BitVec 4} (hi : Issues s i h c)
    (ha : i.asksHead = false) (hown : ownCols s c first last) (halign : alignedIfPlain (c.g a) 128) (load : Bool)
    (kind : Dword → ReqKind) :
    ∃ t, accWord i h a first last load kind s = .next t ∧ Asked s t c (kind (c.g a)) none none (c.x.waitsFor clEN false) ∧
      Stands t c c.x := by
  have hquiet := Quiet.beforeEffect c i s
  have hcols : ((List.range 16).any fun j => decide (first.toNat ≤ j) && decide (j ≤ last.toNat) &&
      (beforeEffect c i s).foreignCol c.tile j c.id) = false := by
    refine List.any_eq_false.mpr fun j _ => ?_
    simp only [Bool.and_eq_true, decide_eq_true_eq, hquiet.foreignCol, not_and, Bool.not_eq_true]
    exact fun hlo => hown j hlo.1 hlo.2
  have hform : ∀ n k, n ≠ 0 → ¬(formAddr (c.g a) % 128 ≠ 0 ∧
      (addressFault (beforeEffect c i s) c.job c.tile (c.g a) (formAddr (c.g a)) n k).isNone) := by
    rintro n k hn ⟨hmis, hnone⟩
    obtain ⟨h3, hr⟩ := formCheck_of_addressFault hn (Option.isNone_iff_eq_none.mp hnone)
    exact hmis (halign h3 hr)
  refine hi.asks_with ha (q := if (((beforeEffect c i s).tile c.tile).sysOver first.toNat last.toNat).all fun f =>
      ((beforeEffect c i s).tile c.tile).sysIdle f && !ctlQueued (beforeEffect c i s) c.tile f then
      (c.request (beforeEffect c i s) (kind (c.g a)) none).updTile c.tile fun x =>
        x.hold (((beforeEffect c i s).tile c.tile).sysOver first.toNat last.toNat) (beforeEffect c i s).serial
    else c.request (beforeEffect c i s) (kind (c.g a)) none) ?_ ?_ ?_
  · dsimp only
    rw [hcols, if_neg Bool.false_ne_true, if_neg (hform _ _ (by omega))]
  · split <;> rfl
  · split <;> exact c.request_asked i s (kind (c.g a)) none

/-- The destination of a route that is no multicast is one the job may name (R359). -/
theorem routeOf_nameable {s : State} {job : Nat} {w : Dword} {mc : Bool} (u : State) (fz st tile : Nat)
    (h : mc = false → nameable s job (w.extractLsb' 22 10).toNat (w.extractLsb' 12 10).toNat = true) :
    (!mc && !nameable s job (routeOf u fz st job tile w mc).module (routeOf u fz st job tile w mc).tile) = false := by
  cases mc with
  | true => rfl
  | false =>
    simp only [Bool.not_false, Bool.true_and, Bool.not_eq_false']
    exact h rfl

/-- MCJOIN and MCJOIN.LEAVE become requests that return a status (R360, R361). -/
theorem mcjoinWord_asks {s : State} {i : Instr} {h : Hdr} {c : Ctx} {b : Reg} {p : BitVec 5} (hi : Issues s i h c)
    (ha : i.asksHead = false) (hgroup : (c.g b).toNat < 256) (hport : s.foreignPort c.tile p.toNat c.id = false) (a : Reg) (leave : Bool) :
    ∃ t, mcjoinWord i h a p b leave s = .next t ∧
      Asked s t c (.mcjoin p.toNat ((c.g b).toNat % 256) leave) (some a) none (c.x.waitsFor clEN false) ∧ Stands t c c.x := by
  refine hi.asks ha ?_
  dsimp only
  rw [if_neg (not_not.mpr (extractLsb'_eq_zero hgroup)), (Quiet.beforeEffect ..).tile_foreignPort, hport]
  rfl

/-- What else the request of a number waits for. -/
def addWaits (k : Nat) (l : List Nat) (p : Nat × Req) : Nat × Req := (p.1, if p.1 = k then { p.2 with waits := p.2.waits ++ l } else p.2)

theorem find_addWaits (t : Tab Req) (k : Nat) (l : List Nat) :
    Tab.find (t.map (addWaits k l)) k = (t.find k).map fun r => { r with waits := r.waits ++ l } := by
  rw [Tab.find_map (g := addWaits k l) fun _ => rfl]
  simp only [addWaits, if_true]

/-- LAUNCH becomes a request whose append waits for the accesses of its station issued before (R239, R343). -/
theorem launch_asks {s : State} {h : Hdr} {a b : Reg} {c : Ctx} (hi : Issues s (.launch h a b) h c) (halign : formAddr (c.g a) % 64 = 0) :
    ∃ t, execLaunch h a b s = .next t ∧ Asked s t c (.launch ((c.g b).toNat % 65536) (c.g a) (c.x.rv 0) none) none none
      (c.x.waitsFor clEN false ++ s.outstanding c.id c.st (clSW ||| clLW ||| clAT ||| clEN)) ∧ Stands t c c.x := by
  have hserial := (Quiet.beforeEffect c (.launch h a b) s).serial
  have hasked := c.request_asked (.launch h a b) s (.launch ((c.g b).toNat % 65536) (c.g a) (c.x.rv 0) none) none
  refine hi.asks_with rfl (if_neg (not_not.mpr halign)) rfl ?_
  unfold Asked at hasked ⊢
  rw [← hi.outstanding, ← hserial]
  exact (find_addWaits ..).trans (by rw [hserial, hasked]; rfl)

/-- UNROUTE is complete at issue where there is nothing to take down; else it becomes a request (R361). -/
theorem unroute_asks {s : State} {h : Hdr} {o : BitVec 5} {c : Ctx} (hi : Issues s (.unroute h o) h c)
    (hport : s.foreignPort c.tile (32 + o.toNat) c.id = false) (hroute : foreignRoute s (32 * c.tile + o.toNat) c.id = false) :
    ∃ t, execUnroute h o s = .next t ∧ Stands t c c.x ∧ t.routes = s.routes ∧
      (s.routes.find (32 * c.tile + o.toNat) = none ∧ c.routing s o.toNat = false → t.reqs = s.reqs) ∧
      (¬(s.routes.find (32 * c.tile + o.toNat) = none ∧ c.routing s o.toNat = false) →
        Asked s t c (.unroute o.toNat none) none none (c.x.waitsFor clEN false)) := by
  have hquiet := Quiet.beforeEffect c (.unroute h o) s
  obtain ⟨e, hst⟩ := hi.before
  by_cases hfree : s.routes.find (32 * c.tile + o.toNat) = none ∧ c.routing s o.toNat = false
  · have hex : execUnroute h o s = _ := hi.done (q := beforeEffect c (.unroute h o) s) (now := true) (by
      dsimp only
      rw [hquiet.foreignRoute, hroute, hquiet.tile_foreignPort, hport, hquiet.routes, hfree.1, hquiet.routing, hfree.2]
      rfl)
    have hall := hquiet.trans (Quiet.completeWord c (.unroute h o) (beforeEffect c (.unroute h o) s) true)
    exact ⟨_, hex, completeWord_stands rfl hst, hall.routes, fun _ => hall.reqs, fun hn => absurd hfree hn⟩
  · have hbusy : ((s.routes.find (32 * c.tile + o.toNat)).isNone && !c.routing s o.toNat) = false := by
      rwa [← Bool.not_eq_true, Bool.and_eq_true, Option.isNone_iff_eq_none, Bool.not_eq_true']
    have hex : execUnroute h o s = _ := hi.done (q := c.request (beforeEffect c (.unroute h o) s) (.unroute o.toNat none) none)
      (now := false) (by
        dsimp only
        rw [hquiet.foreignRoute, hroute, hquiet.tile_foreignPort, hport, hquiet.routes, hquiet.routing, hbusy]
        rfl)
    have hroutes : (completeWord c (.unroute h o) (c.request (beforeEffect c (.unroute h o) s) (.unroute o.toNat none) none) false).routes =
        s.routes := (Quiet.completeWord ..).routes.trans hquiet.routes
    exact ⟨_, hex, completeWord_stands (e := e) rfl hst, hroutes, fun hn => absurd hn hfree,
      fun _ => completeWord_asked (c.request_asked ..) false⟩

/-- The fields of OWNCFG's third operand that its row accepts (R363). -/
theorem owncfg_accepted {o : Dword} (hrange : o.toNat < 2 ^ 12) (hbit : o.getLsbD 9 = false) (hkind : o.extractLsb' 10 2 ≠ 3)
    (hnode : o.extractLsb' 10 2 = 2 → (o.extractLsb' 0 9).toNat < 16) :
    ¬(o.extractLsb' 12 52 ≠ (0 : BitVec 52) ∨ o.getLsbD 9 = true ∨ (o.extractLsb' 10 2).toNat = 3 ∨
      ((o.extractLsb' 10 2).toNat = 2 ∧ 16 ≤ (o.extractLsb' 0 9).toNat)) := by
  rintro (hne | hset | h3 | ⟨h2, hle⟩)
  · exact hne (extractLsb'_eq_zero hrange)
  · rw [hbit] at hset
    cases hset
  · exact hkind (BitVec.eq_of_toNat_eq h3)
  · exact absurd (hnode (BitVec.eq_of_toNat_eq h2)) (by omega)

/-- OWNCFG becomes a request for the range it names (R363). -/
theorem owncfg_completes {s : State} {h : Hdr} {a b e : Reg} {c : Ctx} {r : Row} (hr : requestRow (.owncfg h a b e) = some r)
    (hi : Issues s (.owncfg h a b e) r.hdr c) (hp : r.pre s c) : ∃ t, exec (.owncfg h a b e) s = .next t ∧ r.post s c t := by
  cases hr
  obtain ⟨hrange, hbit, hkind, hnode, hspace, hbase, hlen, hmin, hmax, sh, start, hplace, hfits⟩ := hp
  have hquiet := Quiet.beforeEffect c (.owncfg h a b e) s
  have hasks : ∃ t, execOwncfg h a b e s = .next t ∧
      Asked s t c (.owncfg (rangeOfWord s c.f.job sh start (c.g a) (c.g b) (c.g e))) none none (c.x.waitsFor clEN false) ∧
      Stands t c c.x := by
    refine hi.asks rfl ?_
    dsimp only
    rw [if_neg (owncfg_accepted hrange hbit hkind hnode), if_neg hspace, if_neg (by omega), if_neg (by omega), hquiet.ownerPlace,
      show ownerPlace s c.job (c.g a) (c.g b) = _ from hplace]
    dsimp only
    rw [hquiet.ownerFull, hquiet.job?]
    exact if_neg (Bool.eq_false_iff.mp (ownerFull_of_fits hfits))
  obtain ⟨t, ht, hasked, hstands⟩ := hasks
  refine ⟨t, ht, hstands, fun sh' start' hplace' => ?_⟩
  obtain ⟨rfl, rfl⟩ := Prod.mk.inj (Except.ok.inj (hplace.symm.trans hplace'))
  exact hasked

/-- Settles O25: the checks of each word pass alike before and after its wait and signals, and past them its effect is the one request it
asks, under the next serial number. -/
theorem requestWords : Obligations.RequestWords := by
  unfold Obligations.RequestWords
  intro i r s c hr hi hp
  have hquiet := Quiet.beforeEffect c i s
  unfold requestRow at hr
  split at hr <;> cases hr
  case h_1 h v a k =>
    obtain ⟨hid, htxn, ⟨r, hrec, hact⟩, hplain, hcount⟩ := hp
    have hnames : namesRecord s c.job (c.x.rv v) = true := by
      simp only [namesRecord, Bool.and_eq_true, bne_iff_ne]
      exact ⟨hid, by rw [show viewRec s c.job (c.x.rv v) = some r from hrec]; rfl⟩
    change ∃ t, execTxclaim h v a k s = .next t ∧ _
    refine hi.asks rfl ?_
    dsimp only
    rw [hquiet.namesRecord, hnames, shapeCheck_plain hplain hcount, hquiet.viewRec, show viewRec s c.job (c.x.rv v) = some r from hrec,
      htxn, Option.map_some, hact]
    rfl
  case h_2 h a b =>
    change ∃ t, execWlnew h a b s = .next t ∧ _
    exact hi.asks rfl (if_neg (not_not.mpr hp))
  case h_3 h a b =>
    change ∃ t, execWlpush h a b s = .next t ∧ _
    exact hi.asks rfl rfl
  case h_4 h p a n =>
    change ∃ t, execWlpop h p a n s = .next t ∧ _
    refine hi.asks rfl ?_
    dsimp only
    rw [hquiet.tile_foreignPort, hp]
    rfl
  case h_5 h a b =>
    change ∃ t, execWlins h a b s = .next t ∧ _
    exact hi.asks rfl rfl
  case h_6 h a b =>
    change ∃ t, execWlcnt h a b s = .next t ∧ _
    exact hi.asks rfl (if_neg (not_not.mpr hp))
  case h_7 h a =>
    change ∃ t, execWlfree h a s = .next t ∧ _
    exact hi.asks rfl rfl
  case h_8 h a o b mc =>
    obtain ⟨hplain, hname, hport, hroute⟩ := hp
    change ∃ t, execRoute h a o b mc s = .next t ∧ _
    refine hi.asks rfl ?_
    dsimp only
    rw [hplain, hquiet.nameable, routeOf_nameable (job := c.job) _ _ _ _ hname, hquiet.tile_foreignPort, hport, hquiet.foreignRoute, hroute]
    rfl
  case h_9 h a p b =>
    obtain ⟨hgroup, hport⟩ := hp
    exact mcjoinWord_asks hi rfl hgroup hport a false
  case h_10 h a p b =>
    obtain ⟨hgroup, hport⟩ := hp
    exact mcjoinWord_asks hi rfl hgroup hport a true
  case h_11 h k a first last =>
    obtain ⟨hown, halign⟩ := hp
    exact accWord_asks hi rfl hown halign false fun f => .accsave k.toNat first.toNat last.toNat f
  case h_12 h k a first last =>
    obtain ⟨hown, halign⟩ := hp
    exact accWord_asks hi rfl hown halign true fun f => .accload k.toNat first.toNat last.toNat f
  case h_13 h a b e => exact owncfg_completes rfl hi hp
  case h_14 h o =>
    obtain ⟨hport, hroute⟩ := hp
    exact unroute_asks hi hport hroute
  case h_15 h a b =>
    obtain ⟨t, ht, hasked, hstands⟩ := launch_asks hi hp
    exact ⟨t, ht, hstands, hasked⟩

end Sys2Proof.Slice0
end

section
/-! SUPPORT. What the exit of a frieze and the entries its ports give up keep of every station (R89, R318). -/

namespace Sys2Proof.Machine

/-- A station found before is found after, and π reads the same of it. -/
theorem KeepsOf.found {α : Type} {π : Station → α} {s t : State} (h : KeepsOf π s t) {i j : Nat} {x : Station}
    (hx : s.station? i j = some x) : ∃ y, t.station? i j = some y ∧ π y = π x := by
  have hst := h.station i j
  rwa [hx, Option.map_some, Option.map_eq_some_iff] at hst

section
variable {α : Type} {π : Station → α} (he : ∀ (x : Station) (e : Vector Word 32), π { x with e := e } = π x)
include he

theorem KeepsOf.unsend (s : State) (t : Nat) (uids : List Nat) : KeepsOf π s (s.unsend t uids) := by
  unfold State.unsend
  split
  · exact KeepsOf.refl s
  · exact KeepsOf.updPorts he ..

theorem KeepsOf.unsendFz (s : State) (id : Nat) : KeepsOf π s (s.unsendFz id) := by
  unfold State.unsendFz
  split
  · exact KeepsOf.refl s
  · exact KeepsOf.foldl (fun s _ => KeepsOf.unsend he s _ _) _ s

theorem KeepsOf.releaseFz (s : State) (id : Nat) : KeepsOf π s (s.releaseFz id) := by
  unfold State.releaseFz
  split
  · exact KeepsOf.refl s
  next f _ =>
    split
    · exact KeepsOf.refl s
    · extract_lets s0 s1 s2 s3 s4
      have h1 : KeepsOf π s0 s1 := (KeepsOf.unsendFz he s0 id).trans (KeepsOf.updFz _ id fun _ _ => rfl)
      have h2 : s2.friezes = s1.friezes := State.foldl_updTile_friezes (g := fun _ x => x.release id) (t := f.tileOf) _ s1
      have h4 : s4.friezes = s1.friezes := (releaseRecs_friezes s3 _ _).trans h2
      exact KeepsOf.trans (t := s0) (KeepsOf.of_friezes rfl) (h1.trans (KeepsOf.of_friezes h4))

variable (hsig : ∀ x : Station, π { x with exitSig := none } = π x)
include hsig

theorem KeepsOf.exitSignals (s : State) (id : Nat) : KeepsOf π s (exitSignals s id) := by
  unfold Machine.exitSignals
  split
  · exact KeepsOf.refl s
  · refine KeepsOf.foldl (fun s p => ?_) _ s
    dsimp only
    split
    · split
      · exact (KeepsOf.updCounter he ..).trans (KeepsOf.updSt _ id _ hsig)
      · exact KeepsOf.refl s
    · exact KeepsOf.refl s

theorem KeepsOf.settleExit (s : State) (id : Nat) : KeepsOf π s (settleExit s id) := by
  unfold Machine.settleExit
  split
  · exact KeepsOf.refl s
  · split
    · exact KeepsOf.refl s
    · dsimp only
      split
      · exact (KeepsOf.exitSignals he hsig s id).trans (KeepsOf.releaseFz he ..)
      · exact KeepsOf.exitSignals he hsig s id

end

end Sys2Proof.Machine
end

section
/-! SUPPORT. Holds left behind by a word, the stream a station aborts, and the words of ordering (R244, R245, R247). -/

namespace Sys2Proof.Machine

/-! ### Holds (R244, R245) -/

/-- The access numbers an SBAR names are those of the RUNNING slots of its mask (R244). -/
theorem Station.mem_runningOf {x : Station} {mask : BitVec 16} {u : Nat} : u ∈ x.runningOf mask ↔
    ∃ k : BitVec 4, mask.getLsbD k.toNat = true ∧ (x.slot k).state = .running ∧ (x.slot k).uid = u := by
  simp only [Station.runningOf, List.mem_filterMap, List.mem_range]
  constructor
  · rintro ⟨n, hn, hu⟩
    split at hu
    next hrun =>
      obtain ⟨hmask, hstate⟩ := hrun
      have hk : (BitVec.ofNat 4 n).toNat = n := by rw [BitVec.toNat_ofNat, Nat.mod_eq_of_lt hn]
      exact ⟨BitVec.ofNat 4 n, by rwa [hk], hstate, Option.some.inj hu⟩
    next => cases hu
  · rintro ⟨k, hmask, hstate, rfl⟩
    have hk : BitVec.ofNat 4 k.toNat = k := by rw [BitVec.ofNat_toNat, BitVec.setWidth_eq]
    exact ⟨k.toNat, k.isLt, by rw [hk, if_pos ⟨hmask, hstate⟩]⟩

section
variable {c : Ctx} {i : Instr} {s : State} {e : Vector Word 32} (hst : s.station? c.id c.st = some { c.x with e := e })
  (ha : i.asksHead = false) (now : Bool) {hd : Hold}
include hst ha

/-- A hold that waits for nothing is not kept. -/
theorem addHold_nothing (hn : hd.preds = []) : Slice0.Stands (completeWord c i (c.addHold s hd) now) c c.x := by
  rw [Ctx.addHold, hn]
  exact completeWord_stands ha hst

/-- A hold that waits for an access stands last among those of its station. -/
theorem addHold_stands (hn : hd.preds ≠ []) :
    Slice0.Stands (completeWord c i (c.addHold s hd) now) c { c.x with holds := c.x.holds ++ [hd] } :=
  completeWord_stands (e := e) ha (Ctx.addHold_station (List.isEmpty_eq_false_iff.mpr hn) hst)

end

/-! ### SABORT (R247) -/

/-- SABORT answers of an IDLE slot whose stream has not just completed that there was none. -/
theorem abortIdle_none {x : Station} {k : BitVec 4} {s : State} (h : x.justEnded s.cycles.toNat k = none) :
    abortIdle s x k = (0x8000000000000000, s) := by
  rw [abortIdle, h]

/-- Of a stream that has just completed it answers either way. -/
theorem abortIdle_some {x : Station} {k : BitVec 4} {s : State} {n : Nat} (h : x.justEnded s.cycles.toNat k = some n) :
    (abortIdle s x k).1 = 0x8000000000000000 ∨ (abortIdle s x k).1 = BitVec.ofNat 64 n := by
  rw [abortIdle, h]
  dsimp only
  split
  · exact .inr rfl
  · exact .inl rfl

/-- What SABORT answers of an IDLE slot takes at most a free bit. -/
theorem abortIdle_friezes (s : State) (x : Station) (k : BitVec 4) : (abortIdle s x k).2.friezes = s.friezes := by
  unfold abortIdle
  split <;> rfl

/-- An SMC whose root is aborted changes slots and counters alone, at every station (R218). -/
theorem KeepsOf.abortCast {α : Type} {π : Station → α} (he : ∀ (x : Station) (e : Vector Word 32), π { x with e := e } = π x)
    (hs : ∀ (x : Station) (l : Vector Slot 16), π { x with slots := l } = π x) (s : State) (f : Frieze) (id st k : Nat) (q : Slot) :
    KeepsOf π s (abortCast s f id st k q) := by
  unfold Machine.abortCast
  split
  · exact KeepsOf.foldl (fun t j => (KeepsOf.updSlot hs t id j k _).trans (KeepsOf.unsend he _ _ _)) _ s
  · exact KeepsOf.refl s

/-- The station's place, its slot k IDLE and g[d] last while an access ends. -/
theorem Steady.aborted (n : Nat) (k : BitVec 4) (d : Reg) (v : Dword) :
    Steady fun y => y.pos = n ∧ (y.slot k).state = .idle ∧ y.rg d = v where
  counts _ h := h
  retires u h := ⟨h.1, by rw [Station.retire_slot]; exact h.2.1, h.2.2⟩
  signals h := h

/-- The station of an access that has been cut short: its slot is IDLE and its register holds the first element without effect. -/
theorem abort_station {c : Ctx} {s : State} {e : Vector Word 32} (hst : s.station? c.id c.st = some { c.x with e := e }) (g : Reg)
    (k : BitVec 4) (q : Slot) :
    (((c.upd (abortCast s c.f c.id c.st k.toNat q) fun x => (x.setSlot k Slot.idle).setG g (BitVec.ofNat 64 q.next)).retire c.id
      q.uid).unsend c.tile [q.uid]).Has c.id c.st fun y =>
        y.pos = c.x.pos ∧ (y.slot k).state = .idle ∧ y.rg g = if g = 0 then 0 else BitVec.ofNat 64 q.next := by
  have hsteady := Steady.aborted c.x.pos k g (if g = 0 then 0 else BitVec.ofNat 64 q.next)
  obtain ⟨x, hx, hpos⟩ := (KeepsOf.abortCast (π := (·.pos)) (fun _ _ => rfl) (fun _ _ => rfl) s c.f c.id c.st k.toNat q).found hst
  refine State.Has.unsend hsteady (State.Has.retire hsteady ⟨_, State.updSt_station hx _, ?_, ?_, ?_⟩ ..) ..
  · unfold Station.setG
    split <;> exact hpos
  · simp only [Station.slot, Station.setG_slots]
    exact congrArg Slot.state (Station.slot_setSlot x k Slot.idle)
  · rw [Station.rg_setG]
    split
    · rfl
    · rw [if_pos rfl]

end Sys2Proof.Machine

namespace Sys2Proof.Slice0
open Machine

/-- SABORT returns the number of the first element without effect, or its answer waits for the access (R247). -/
theorem sabort_completes {s : State} {h : Hdr} {g : Reg} {k : BitVec 4} {c : Ctx} {r : Row} (hr : orderRow (.sabort h g k) = some r)
    (hi : Issues s (.sabort h g k) r.hdr c) : ∃ t, exec (.sabort h g k) s = .next t ∧ r.post s c t := by
  cases hr
  obtain rfl : c.h = h := hi.hdr
  obtain ⟨e, hst⟩ := hi.before
  have hcycles : (beforeEffect c (.sabort c.h g k) s).cycles = s.cycles := by rw [(Quiet.beforeEffect ..).rest]
  by_cases hidle : (c.x.slot k).state = .idle
  · have hex : execSabort c.h g k s = _ := hi.done (now := true) (if_pos hidle)
    obtain ⟨e', hset⟩ := setG_station (s := (abortIdle (beforeEffect c (.sabort c.h g k) s) c.x k).2) (y := c.x) (e := e)
      (by rwa [State.station?, abortIdle_friezes]) g (abortIdle (beforeEffect c (.sabort c.h g k) s) c.x k).1
    have hstands := completeWord_stands (i := .sabort c.h g k) (now := true) rfl hset
    refine ⟨_, hex, fun _ hnone => ?_, fun n _ hsome => ?_, fun hn => absurd hidle hn, fun hn => absurd hidle hn⟩
    · rwa [abortIdle_none (by rwa [hcycles])] at hstands ⊢
    · rw [← hcycles] at hsome
      obtain hv | hv := abortIdle_some hsome
      · exact .inl (hv ▸ hstands)
      · exact .inr (hv ▸ hstands)
  · by_cases hwhole : (c.x.slot k).kind.whole = true
    · have hex : execSabort c.h g k s = _ := hi.done (now := false) ((if_neg hidle).trans (if_pos hwhole))
      exact ⟨_, hex, fun h => absurd h hidle, fun _ h => absurd h hidle,
        fun _ _ => completeWord_stands (e := e) rfl (State.updSt_station hst _),
        fun _ hn => absurd (hwhole.symm.trans hn) (by decide)⟩
    · have hex : execSabort c.h g k s = _ := hi.done (now := true) ((if_neg hidle).trans (if_neg hwhole))
      obtain ⟨x, hx, hpos, hslot, hg⟩ := abort_station hst g k (c.x.slot k)
      obtain ⟨e', hy⟩ := completeWord_station (i := .sabort c.h g k) (now := true) rfl hx
      exact ⟨_, hex, fun h => absurd h hidle, fun _ h => absurd h hidle, fun _ h => absurd h hwhole,
        fun _ _ => ⟨_, hy, congrArg (· + 1) hpos, hslot, hg⟩⟩

/-- Settles O21: a hold is kept where it waits for an access; a stream is cut short whatever else ends with it, and an access that is
whole keeps its slot. -/
theorem orderWords : Obligations.OrderWords := by
  unfold Obligations.OrderWords
  intro i r s c hr hi hp
  clear hp
  obtain ⟨e, hst⟩ := hi.before
  unfold orderRow at hr
  split at hr <;> cases hr
  case h_1 h mask =>
    have hex : execSbar h mask s = _ := hi.done rfl
    exact ⟨_, hex, c.x.runningOf mask, fun u => Station.mem_runningOf, fun hno => addHold_nothing hst rfl true hno,
      fun hne => addHold_stands hst rfl true hne⟩
  case h_2 h pred succ scope =>
    have hex : execFence h pred succ scope s = _ := hi.done rfl
    refine ⟨_, hex, ?_⟩
    rw [hi.outstanding]
    exact ⟨fun hno => addHold_nothing hst rfl _ hno, fun hne => addHold_stands hst rfl _ hne⟩
  case h_3 h g k => exact sabort_completes rfl hi

end Sys2Proof.Slice0
end

section
/-! SUPPORT. The accesses a station's trigger waits for, and how each is struck as it takes effect (R240, R317, R318). -/

namespace Sys2Proof.Machine

/-! ### The accesses a trigger waits for (R240) -/

/-- The accesses the trigger of a station waits for once access u has taken effect. -/
def Station.trigAfter (x : Station) (u : Nat) : Option (List Nat) := x.trig.map fun l => l.filter (· ≠ u)

theorem Station.retire_trig (x : Station) (u : Nat) : (x.retire u).1.trig = x.trigAfter u := by
  have hwithout : (fun l => without l u) = fun l : List Nat => l.filter (· ≠ u) := by
    funext l
    simp [without, Bool.beq_eq_decide_eq, bne]
  rw [Station.trigAfter, ← hwithout]
  rfl

/-- An access struck once is struck. -/
theorem Station.trigAfter_of_struck {x y : Station} {u : Nat} (h : y.trig = x.trigAfter u) : y.trigAfter u = x.trigAfter u := by
  rw [Station.trigAfter, h, Station.trigAfter, Option.map_map]
  congr 1
  funext l
  exact List.filter_filter.trans (by simp)

theorem Station.setG_trig (x : Station) (d : Reg) (v : Dword) : (x.setG d v).trig = x.trig := by
  unfold Station.setG
  split <;> rfl

theorem setGs_trig (vs : List Dword) (d : Reg) (x : Station) : (setGs x d vs).trig = x.trig := by
  induction vs generalizing d x with
  | nil => rfl
  | cons v vs ih => rw [setGs, ih, Station.setG_trig]

/-! ### An access that takes effect (R234, R240) -/

section
variable {s : State} {id st u : Nat} {x : Station} (hx : s.station? id st = some x)
include hx

/-- One station's part of the end of an access: that station's trigger waits for it no longer. -/
theorem State.retireAt_trig (j : Nat) :
    ∃ y, (s.retireAt id u j).station? id st = some y ∧ y.trig = if j = st then x.trigAfter u else x.trig := by
  have hsigs : ∀ (l : List Sig) (t : State), KeepsOf (·.trig) t (l.foldl (fun s g => s.addCount g.fz g.st g.k 1) t) :=
    KeepsOf.foldl fun _ _ => KeepsOf.updCounter (fun _ _ => rfl) ..
  by_cases hj : j = st
  · subst hj
    obtain ⟨y, hy, htrig⟩ := (hsigs (x.retire u).2 _).found (State.updSt_station hx fun _ => (x.retire u).1)
    rw [State.retireAt, hx, if_pos rfl, ← Station.retire_trig]
    exact ⟨y, hy, htrig⟩
  · rw [if_neg hj, State.retireAt]
    split
    · exact ⟨x, hx, rfl⟩
    next z _ =>
      exact (hsigs (z.retire u).2 _).found ((State.updSt_station_ne s (fun _ => (z.retire u).1) (.inr (Ne.symm hj))).trans hx)

theorem State.foldl_retireAt_trig (l : List Nat) :
    ∃ y, (l.foldl (fun s j => s.retireAt id u j) s).station? id st = some y ∧ y.trig = if st ∈ l then x.trigAfter u else x.trig := by
  induction l generalizing s x with
  | nil => exact ⟨x, hx, rfl⟩
  | cons j l ih =>
    obtain ⟨y, hy, htrig⟩ := State.retireAt_trig (u := u) hx j
    obtain ⟨z, hz, hlast⟩ := ih hy
    refine ⟨z, hz, hlast.trans ?_⟩
    by_cases hj : j = st
    · rw [if_pos hj] at htrig
      rw [if_pos (List.mem_cons.mpr (.inl hj.symm)), htrig, Station.trigAfter_of_struck htrig, ite_self]
    · rw [if_neg hj] at htrig
      simp only [List.mem_cons, Ne.symm hj, false_or, htrig, Station.trigAfter]

/-- An access of a frieze that takes effect is struck from what each station's trigger waits for. -/
theorem State.retire_trig : ∃ y, (s.retire id u).station? id st = some y ∧ y.trig = x.trigAfter u := by
  have hf := hx
  unfold State.station? at hf
  rw [Option.bind_eq_some_iff] at hf
  obtain ⟨f, hf, hst⟩ := hf
  obtain ⟨y, hy, htrig⟩ := State.foldl_retireAt_trig (u := u) hx (List.range f.len)
  obtain ⟨hlt, -⟩ := List.getElem?_eq_some_iff.mp hst
  rw [Frieze.len, if_pos (List.mem_range.mpr hlt)] at htrig
  refine ⟨y, ?_, htrig⟩
  rw [State.retire, hf]
  exact hy

/-- The end of an access and what its frieze's exit does then: nothing else of a trigger changes. -/
theorem retire_settleExit_trig : ∃ y, (settleExit (s.retire id u) id).station? id st = some y ∧ y.trig = x.trigAfter u := by
  obtain ⟨y, hy, htrig⟩ := State.retire_trig (u := u) hx
  obtain ⟨z, hz, hlast⟩ := (KeepsOf.settleExit (π := (·.trig)) (fun _ _ => rfl) (fun _ => rfl) (s.retire id u) id).found hy
  exact ⟨z, hz, hlast.trans htrig⟩

end

/-! ### The access of a slot (R173, R202, R206) -/

section
variable {s : State} {f : Frieze} {id st k : Nat} {x : Station} {q : Slot} {p : Place}

/-- The end of a slot's work strikes its access. -/
theorem State.SlotIs.completeSlot_trig (h : s.SlotIs id st k x q) (ha : q.aborts = []) :
    ∃ y, (s.completeSlot id st k).station? id st = some y ∧ y.trig = x.trigAfter q.uid := by
  obtain ⟨y, hy, hq, -, e, rfl⟩ := h.station
  obtain ⟨y1, h1, htrig1⟩ := (KeepsOf.sigDone (π := (·.trig)) (fun _ _ => rfl) _ id st q.sigMode q.sigK).found (State.updSt_station hy fun y =>
    { y.setSlot (BitVec.ofNat 4 k) Slot.idle with ended := some (s.cycles.toNat, k, if q.kind.whole then 1 else q.next) })
  obtain ⟨y2, h2, htrig2⟩ := State.retire_trig (u := q.uid) h1
  obtain ⟨y3, h3, htrig3⟩ := (KeepsOf.unsend (π := (·.trig)) (fun _ _ => rfl) _ (s.tileAt id st) [q.uid]).found h2
  obtain ⟨y4, h4, htrig4⟩ := (KeepsOf.settleExit (π := (·.trig)) (fun _ _ => rfl) (fun _ => rfl) _ id).found h3
  refine ⟨y4, ?_, htrig4.trans (htrig3.trans (htrig2.trans (congrArg (Option.map _) htrig1)))⟩
  unfold State.completeSlot
  simp only [hy, hq, ha, List.foldl_nil]
  exact h4

/-- A slot that returns a value counts its sector and ends: its access is struck. -/
theorem State.SlotIs.returns_trig (h : s.SlotIs id st k x q) (ha : q.aborts = []) (d : Reg) (v : Dword) :
    ∃ y, (((s.updSt id st (·.setG d v)).sigSector id st q.sigMode q.sigK 1).completeSlot id st k).station? id st = some y ∧
      y.trig = x.trigAfter q.uid := by
  obtain ⟨y, hy, htrig⟩ := ((h.updG d v).of_uncounted (KeepsOf.sigSector (fun _ _ => rfl) _ id st q.sigMode q.sigK 1)).completeSlot_trig ha
  refine ⟨y, hy, htrig.trans ?_⟩
  rw [Station.trigAfter, Station.setG_trig]
  rfl

/-- An atomic update in place leaves every frieze as it was. -/
theorem atomicAt_lies {form : Dword} {a : Int} {z : Nat} (h : Slice0.Lies s f st form a z .atomic p) (hbad : s.badAt p z = false)
    (op : Nat) (b c : Dword) : ∃ r, atomicAt s f.job (f.tileOf st) form a z op b c = .ok r ∧ r.1.friezes = s.friezes := by
  obtain ⟨hel, hup, -, -⟩ := h
  simp only [atomicAt, hel, hup, hbad, Bool.not_true, Bool.false_eq_true, if_false]
  split
  · exact ⟨_, rfl, rfl⟩
  · exact ⟨_, rfl, State.putBytes_friezes ..⟩

/-- The event of an ATOMG is its update. -/
theorem exec_atomic (h : Slice0.Moves s id st k f x q) (hk : q.kind = .atomg) :
    exec (.atomicApply id st k) s = .next (atomStep s f id st k q) := by
  change execAtomicApply id st k s = _
  rw [execAtomicApply, Slice0.Moves.runSlot h (by rw [hk]; rfl), if_neg (by simp [hk])]

end

end Sys2Proof.Machine

namespace Sys2Proof.Slice0
open Machine

section
variable {s : State} {f : Frieze} {id st k : Nat} {x : Station} {q : Slot} {p : Place}

/-- An LDG that goes ahead of no STG is performed: its access is struck. -/
theorem ldg_trig (hm : Moves s id st k f x q) (hk : q.kind = .ldg) (happ : q.applied = false) (ha : q.aborts = [])
    (hl : Lies s f st q.base (formAddr q.base + q.base2.toInt) 8 .read p) (hbad : s.badAt p 8 = false) :
    ∃ t y, exec (.streamElementPerformed id st k) s = .next t ∧ t.station? id st = some y ∧ y.trig = x.trigAfter q.uid := by
  obtain ⟨r, t, hquiet, hslot, hstep⟩ := slotStep_portless hm (.inl hk) fun e he => by
    simp only [Slot.touches, hk, List.mem_singleton] at he
    rw [he]
    exact direct_of_lies hl
  have hahead : ahead t f id st { q with sector := r } = .gone := by
    rw [ahead, happ]
    rfl
  obtain ⟨y, hy, htrig⟩ := hslot.returns_trig ha q.dst (bvOf 64 (t.bytesAt p 8))
  refine ⟨_, y, ?_, hy, htrig⟩
  rw [exec_element hm (by rw [hk]; rfl), hstep, portlessElem, if_neg (by simp [hk]),
    scalarElem_load (q := { q with sector := r }) hk (hquiet.lies hl) ((hquiet.badAt ..).trans hbad) (by rw [hahead]; nofun), hahead]
  rfl

/-- An STG is performed: its access is struck. -/
theorem stg_trig (hm : Moves s id st k f x q) (hk : q.kind = .stg) (ha : q.aborts = [])
    (hl : Lies s f st q.base (formAddr q.base + q.base2.toInt) 8 .write p) :
    ∃ t y, exec (.streamElementPerformed id st k) s = .next t ∧ t.station? id st = some y ∧ y.trig = x.trigAfter q.uid := by
  obtain ⟨r, t, hquiet, hslot, hstep⟩ := slotStep_portless hm (.inr (.inl hk)) fun e he => by
    simp only [Slot.touches, hk, List.mem_singleton] at he
    rw [he]
    exact direct_of_lies hl
  have hlen : (bytesOf q.val).length = 8 := leBytes_length ..
  have hput : (t.putBytes p (bytesOf q.val)).SlotIs id st k x { q with sector := r } := hslot.of_friezes (State.putBytes_friezes ..)
  obtain ⟨y, hy, htrig⟩ := (hput.of_uncounted (KeepsOf.sigSector (fun _ _ => rfl) _ id st q.sigMode q.sigK 1)).completeSlot_trig ha
  refine ⟨_, y, ?_, hy, htrig⟩
  rw [exec_element hm (by rw [hk]; rfl), hstep, portlessElem, if_neg (by simp [hk]),
    scalarElem_store (q := { q with sector := r }) hk (by rw [hlen]; exact hquiet.lies hl)]

/-- An ATOMG is applied: its access is struck. -/
theorem atomg_trig (hm : Moves s id st k f x q) (hk : q.kind = .atomg) (happ : q.applied = false) (ha : q.aborts = [])
    (hl : Lies s f st q.base (formAddr q.base) (if q.wide then 8 else 4) .atomic p)
    (hbad : s.badAt p (if q.wide then 8 else 4) = false) :
    ∃ t y, exec (.atomicApply id st k) s = .next t ∧ t.station? id st = some y ∧ y.trig = x.trigAfter q.uid := by
  have henter := enterNodes_direct (l := [(q.base, (formAddr q.base : Int), if q.wide then 8 else 4, .atomic)])
    (fun e he => by rw [List.mem_singleton.mp he]; exact direct_of_lies hl) q.uid
  obtain ⟨r, hr, hfriezes⟩ := atomicAt_lies hl hbad q.op q.val q.cmp
  have hslot : r.1.SlotIs id st k x q :=
    (State.SlotIs.of_station ((State.station_eq hm.at_.fz).trans hm.at_.st) hm.slot.2).of_friezes hfriezes
  obtain ⟨y, hy, htrig⟩ := hslot.returns_trig ha q.dst r.2
  refine ⟨_, y, ?_, hy, htrig⟩
  rw [exec_atomic hm hk]
  simp [atomStep, happ, henter, hr, hk, atomReturn]

end

/-! ### A scalar access left outstanding (R202, R203) -/

section
variable {s : State} {f : Frieze} {id st : Nat} {q : PendScalar} {p : Place}

/-- Whether it reads poisoned bytes or not, a scalar access in place leaves every trigger alone as it takes effect. -/
theorem scalarNow_trig (hl : Lies s f st q.form q.addr (if q.quad then 32 else 8) (if q.store then .write else .read) p)
    (hlen : q.store = true → (q.vals.flatMap bytesOf).length = if q.quad then 32 else 8) :
    KeepsOf (·.trig) s (scalarNow s f.job id st (f.tileOf st) q).1 := by
  cases hstore : q.store with
  | true =>
    rw [hstore, if_pos rfl, ← hlen hstore] at hl
    rw [scalarNow_lies_store hstore hl]
    exact KeepsOf.of_friezes (State.putBytes_friezes ..)
  | false =>
    rw [hstore, if_neg Bool.false_ne_true] at hl
    cases hbad : s.badAt p (if q.quad then 32 else 8) with
    | false =>
      rw [scalarNow_lies_load hstore hl hbad]
      exact KeepsOf.updSt s id st fun x => setGs_trig ..
    | true =>
      have hsize : 8 * (if q.quad then 4 else 1) = if q.quad then 32 else 8 := by cases q.quad <;> rfl
      simp only [scalarNow, hstore, Bool.false_eq_true, if_false, hsize, fetchElem_lies hl, hbad, if_true]
      exact KeepsOf.trans (KeepsOf.updSt s id st (g := fun x => { x with faults := x.faults ++ [_] }) fun _ => rfl) (KeepsOf.of_friezes rfl)

/-- A scalar access left outstanding that nothing holds takes effect: it is struck. -/
theorem pend_trig {j : Nat} {x : Station} (hat : At s id st f x) (hres : f.state = .resident) (hj : j < 16) (hq : x.pend[j]? = some q)
    (hw : q.waits = []) (hl : Lies s f st q.form q.addr (if q.quad then 32 else 8) (if q.store then .write else .read) p)
    (hlen : q.store = true → (q.vals.flatMap bytesOf).length = if q.quad then 32 else 8) :
    ∃ t y, exec (.streamElementPerformed id st (16 + j)) s = .next t ∧ t.station? id st = some y ∧ y.trig = x.trigAfter q.uid := by
  have henter := enterNodes_direct (l := [(q.form, (q.addr : Int), if q.quad then 32 else 8, if q.store then .write else .read)])
    (fun e he => by rw [List.mem_singleton.mp he]; exact direct_of_lies hl) q.uid
  have hnow := scalarNow_trig (id := id) ((Quiet.updSt s id st (·.begun j)).lies hl) hlen
  generalize hr : scalarNow (s.updSt id st (·.begun j)) f.job id st (f.tileOf st) q = r at hnow
  have hsig : KeepsOf (·.trig) r.1 (if r.2 then r.1.sigDone id st q.sigMode q.sigK else r.1) := by
    split
    · exact KeepsOf.sigDone (fun _ _ => rfl) ..
    · exact KeepsOf.refl _
  obtain ⟨y, hy, htrig⟩ := (hnow.trans hsig).found (State.updSt_station ((State.station_eq hat.fz).trans hat.st) _)
  obtain ⟨z, hz, hlast⟩ := retire_settleExit_trig (u := q.uid) hy
  refine ⟨_, z, ?_, hz, hlast.trans (congrArg (Option.map _) htrig)⟩
  change execStreamElementPerformed id st (16 + j) s = _
  simp only [Station.begun] at hr
  rw [execStreamElementPerformed, if_neg (by omega), if_pos (by omega), hat.fz]
  simp only [hres, if_true, Nat.add_sub_cancel_left, pendStep, hat.st, hq, hw, henter, hr, List.isEmpty_nil, Bool.not_true,
    Bool.false_eq_true, if_false]

end

/-- Every access that is performed whole is struck from what its station's trigger waits for. -/
theorem performs_trig {s : State} {id st u : Nat} {x : Station} {i : Instr} (h : Performs s id st x u i) :
    ∃ t y, exec i s = .next t ∧ t.station? id st = some y ∧ y.trig = x.trigAfter u := by
  cases h with
  | load k f q p hm hk happ ha hl hbad => exact ldg_trig hm hk happ ha hl hbad
  | store k f q p hm hk ha hl => exact stg_trig hm hk ha hl
  | atomic k f q p hm hk happ ha hl hbad => exact atomg_trig hm hk happ ha hl hbad
  | scalar j f q p hat hres hj hq hw hl hlen => exact pend_trig hat hres hj hq hw hl hlen

/-! ### TRIG and EXIT (R317, R318) -/

/-- TRIG: the accesses outstanding at the station's first TRIG are those its trigger waits for. -/
theorem trig_completes {s : State} {h : Hdr} {c : Ctx} (hi : Issues s (.trig h) h c) : ∃ t, execTrig h s = .next t ∧
    Stands t c { c.x with trig := some (c.x.trig.getD (s.outstanding c.id c.st 0x7F)) } := by
  obtain ⟨e, hst⟩ := hi.before
  cases htrig : c.x.trig with
  | some l =>
    have hex : execTrig h s = _ := hi.done (q := beforeEffect c (.trig h) s) (now := true) (by simp only [htrig]; rfl)
    have hsame : { c.x with trig := some l } = c.x := by rw [← htrig]
    refine ⟨_, hex, ?_⟩
    rw [Option.getD_some, hsame]
    exact completeWord_stands rfl hst
  | none =>
    have hex : execTrig h s = _ := hi.done (now := true)
      (q := c.upd (beforeEffect c (.trig h) s) fun x => { x with trig := some (s.outstanding c.id c.st 0x7F) })
      (by simp only [htrig, hi.outstanding]; rfl)
    exact ⟨_, hex, completeWord_stands (e := e) rfl (State.updSt_station hst _)⟩

/-- EXIT: a station that has not issued TRIG counts toward the trigger with the accesses outstanding at its EXIT. -/
theorem exit_trig {s : State} {h : Hdr} {c : Ctx} (hi : Issues s (.exit h) h c) : ∃ t x, execExit h s = .next t ∧
    t.station? c.id c.st = some x ∧ x.trig = some (c.x.trig.getD (s.outstanding c.id c.st 0x7F)) := by
  obtain ⟨e, hst⟩ := hi.before
  have hfirst : ∀ o : Option (List Nat), (if o.isSome then o else some (s.outstanding c.id c.st 0x7F)) =
      some (o.getD (s.outstanding c.id c.st 0x7F)) := fun o => by cases o <;> rfl
  have hhead : ∀ t : State, KeepsOf (·.trig) t (settleExit
      (if c.isHead then t.updFz c.id fun f => { f with stop := if f.stop = .no then .exit else f.stop } else t) c.id) := fun t => by
    refine KeepsOf.trans ?_ (KeepsOf.settleExit (fun _ _ => rfl) (fun _ => rfl) _ c.id)
    split
    · exact KeepsOf.updFz t c.id fun _ _ => rfl
    · exact KeepsOf.refl t
  have hex : execExit h s = _ := hi.done rfl
  obtain ⟨y, hy, htrig⟩ := (hhead _).found (State.updSt_station hst fun x => { x with
    exiting := true
    exitSig := if h.sigMode = 1 then some ⟨c.id, c.st, h.sigMode, h.sigK⟩ else none
    trig := if x.trig.isSome then x.trig else some ((beforeEffect c (.exit h) s).outstanding c.id c.st 0x7F) })
  obtain ⟨e', hlast⟩ := completeWord_station (i := .exit h) (now := false) rfl hy
  refine ⟨_, _, hex, hlast, htrig.trans ?_⟩
  rw [hi.outstanding]
  exact hfirst c.x.trig

/-- TRIGGER marks a frieze every station of which counts and waits for nothing, and leaves any other as it is (R240). -/
theorem trigger_marks {s : State} {id : Nat} {f : Frieze} (hf : s.friezes.find id = some f) (hrun : f.state ≠ .ended) :
    ∃ t g, exec (.trigger id) s = .next t ∧ t.friezes.find id = some g ∧
      ((∀ y ∈ f.stations, y.trig = some []) → g = { f with triggered := true }) ∧ (¬(∀ y ∈ f.stations, y.trig = some []) → g = f) := by
  have hall : (f.stations.all fun x => x.trig == some []) = true ↔ ∀ y ∈ f.stations, y.trig = some [] := by
    simp only [List.all_eq_true, beq_iff_eq]
  have hex : exec (.trigger id) s = execTrigger id s := rfl
  rw [hex, execTrigger, hf]
  by_cases hdone : ∀ y ∈ f.stations, y.trig = some []
  · exact ⟨_, _, congrArg _ (if_pos ⟨hrun, hall.mpr hdone⟩), State.updFz_find hf _, fun _ => rfl, fun hn => absurd hdone hn⟩
  · exact ⟨_, _, congrArg _ (if_neg fun h => hdone (hall.mp h.2)), hf, fun h => absurd h hdone, fun _ => rfl⟩

/-- Settles O15: the accesses outstanding at a station's first TRIG, or at its EXIT, are struck one by one as they take effect, and nothing
else that happens then touches what a trigger waits for. -/
theorem trigWord : Obligations.TrigWord := by
  unfold Obligations.TrigWord
  refine ⟨?_, fun h s c hi => exit_trig hi, fun id st u x i s h => performs_trig h, fun id f s => trigger_marks⟩
  intro i r s c hr hi hp
  clear hp
  unfold trigRow at hr
  split at hr <;> cases hr
  exact trig_completes hi

end Sys2Proof.Slice0
end
